-- ==== Sys2Proof/Word.lean ====
section
/-! DEFINITION. The words of the EN24: bytes, slots, and tables with one entry per slot. -/

namespace Sys2Proof

/-- One byte of a frame's payload. -/
abbrev Byte := BitVec 8

/-- A slot number, 0 to 23 (Table 1-2). -/
abbrev Slot := Fin 24

/-- One value for each of the 24 slots. -/
abbrev Table (α : Type) := Vector α 24

/-- The entry of a slot. -/
def tget {α : Type} (t : Table α) (i : Slot) : α := t[i]

/-- The table with one slot's entry replaced. -/
def tset {α : Type} (t : Table α) (i : Slot) (x : α) : Table α := t.set i x

/-- The table that holds one value everywhere. -/
def tconst {α : Type} (x : α) : Table α := Vector.replicate 24 x

/-- The table whose entry of each slot a function gives. -/
def tabulate {α : Type} (f : Slot → α) : Table α := Vector.ofFn f

/-- The table made entry by entry from another. -/
def tmap {α β : Type} (f : α → β) (t : Table α) : Table β := tabulate (fun i => f (tget t i))

/-- The vector made entry by entry from another. -/
def vmap {α β : Type} {n : Nat} (f : α → β) (v : Vector α n) : Vector β n := Vector.ofFn (fun i : Fin n => f v[i])

/-- The vector made entry by entry from two others. -/
def vzip {α β γ : Type} {n : Nat} (f : α → β → γ) (u : Vector α n) (v : Vector β n) : Vector γ n :=
  Vector.ofFn (fun i : Fin n => f u[i] v[i])

/-- Every entry of a vector passes a test. -/
def vall {α : Type} {n : Nat} (p : α → Bool) (v : Vector α n) : Bool := (List.finRange n).all (fun i => p v[i])

/-- All slots in rising order. -/
def allSlots : List Slot := List.finRange 24

end Sys2Proof
end

