-- ==== Sys2Proof/Syntax.lean ====
section
/-! DEFINITION. The commands of the EN24: one constructor of `Instr` for each row of spec/opcode_table.json, and the
types of their operands. -/

namespace Sys2Proof

/-- The two latch gates of a slot (section 3.1). -/
inductive Gate where
  | a
  | b
deriving DecidableEq, Repr

/-- The causes of a reset, each present or absent (R19, R171). -/
structure Causes where
  power : Bool
  brownout : Bool
  pin : Bool
  restart : Bool
deriving DecidableEq, Repr

/-- How the column's own transmission failed (R156). -/
inductive TxFailure where
  | noEcho
  | voided
  | collided
deriving DecidableEq, Repr

/-- A frame as a receiver sees it: whether the column saw its start bit (R155: not, where the frame had begun before the
column entered JOINING), the header of R153, the payload bytes and the check. -/
structure Frame where
  seen : Bool
  cls : BitVec 3
  rank : BitVec 8
  station : BitVec 6
  kind : BitVec 6
  dest : BitVec 6
  length : BitVec 5
  payload : List Byte
  check : BitVec 16
deriving DecidableEq, Repr

/-- Whose frame of class 0 or 1 arrives: the column's own, or the one another station sent (R158, R159). -/
inductive Arrival where
  | own
  | other (f : Frame)
deriving DecidableEq, Repr

/-- A ticket: the requesting terminal's station and the number it chose (R79). -/
structure Ticket where
  station : BitVec 6
  number : BitVec 16
deriving DecidableEq, Repr

/-- The kinds of an entry of the Open Request Table (Table 6-1). -/
inductive EntryKind where
  | place
  | collect
  | sweep
  | service
deriving DecidableEq, Repr

/-- One tariff class of the tariff table (Table 9-1). -/
structure Tariff where
  free : Nat
  step : Nat
  price : Nat
  capDay : Nat
  capMax : Nat
deriving DecidableEq, Repr

/-- The settings of one activity counter (R166). -/
structure CounterSetting where
  kind : Nat
  mask : BitVec 16
  filter : Nat
deriving DecidableEq, Repr

/-- The eight edge-case enables, in the order of Table 3-1 (R25). -/
structure EdgeEnables where
  aRiseBLow : Bool
  bRiseAHigh : Bool
  aFallBHigh : Bool
  bFallALow : Bool
  aRiseBHigh : Bool
  bRiseALow : Bool
  aFallBLow : Bool
  bFallAHigh : Bool
deriving DecidableEq, Repr

/-- The fields of the configuration memory (Table 13-1), as they are read or, after the load, as they are clamped.
A polarity is the raw level that means closed (door) or on (presence). Lengths are in the units of the table. -/
structure ConfigFields where
  station : Nat
  tlo : BitVec 6
  thi : BitVec 6
  supply : BitVec 6
  time : BitVec 6
  service1 : BitVec 6
  service2 : BitVec 6
  slotMap : Table Nat
  edges : EdgeEnables
  threshold : Nat
  doorPolarity : Bool
  presencePolarity : Bool
  span : Nat
  pulseLength : Nat
  ajarTime : Nat
  budget : Nat
  lampShed : Nat
  auxShed : Vector Nat 4
  auxDefault : Vector Bool 4
  holdTime : Nat
  collectLapse : Nat
  sweepLapse : Nat
  hmax : Nat
  hdef : Nat
  granularity : Nat
  tariffs : Vector Tariff 8
  multipliers : Vector Nat 4
  grace : Nat
  enables : BitVec 14
  counters : Vector CounterSetting 4
deriving DecidableEq, Repr

/-- What the read of the configuration memory gave (R172): no answer on the port, or the bytes in the order stored,
the field values they spell and the check word. -/
inductive ConfigRead where
  | noAnswer
  | contents (image : List Byte) (fields : ConfigFields) (check : BitVec 16)
deriving DecidableEq, Repr

/-- The commands: one constructor for each row of spec/opcode_table.json, in the table's order. -/
inductive Instr where
  | powerReset (active : Causes)
  | brownoutReset (active : Causes)
  | pinReset (active : Causes)
  | restartReset (active : Causes)
  | configurationRead (r : ConfigRead)
  | resetCauseWrite (ok : Bool)
  | baselineSettled (slot : Slot) (door presence : Bool)
  | baselineTimeout (slot : Slot) (door presence : Option Bool)
  | reconciliation (slot : Slot)
  | joiningEntry
  | joiningEnd
  | quietEnd
  | transmissionStart
  | arbitrationLost
  | transmissionFailed (how : TxFailure)
  | transmissionSucceeded
  | frameTaken (f : Frame)
  | pulseNote (a : Arrival)
  | powerState (f : Frame)
  | levelAgeExpiry
  | pulseEntryEnd (station : BitVec 6) (slot : BitVec 5)
  | driverOff (slot : Slot)
  | placeOffer (a : Arrival)
  | placeCall
  | placeDetail
  | collectCall
  | payNote
  | collectGo
  | sweepCall
  | sweepGo
  | freeQuery
  | statusQuery
  | slotQuery
  | countQuery
  | countClear
  | outputSet
  | time
  | serviceOpen
  | serviceClear
  | serviceRetire
  | serviceRestore
  | serviceRestart
  | alertClear
  | entryLapse (kind : EntryKind) (ticket : Ticket)
  | boltStep (slot : Slot) (gate : Gate)
  | homeReZero (slot : Slot)
  | doorOpened (slot : Slot)
  | doorClosed (slot : Slot)
  | presenceOn (slot : Slot)
  | presenceOff (slot : Slot)
  | secure (slot : Slot)
  | pulseWaitLimit (slot : Slot)
  | popWindowEnd (slot : Slot)
  | ajar (slot : Slot)
  | latchFault (slot : Slot)
  | latchFaultSettleEnd (slot : Slot)
  | settleTimerEnd (slot : Slot)
  | recordWriteComplete (slot : Slot) (matched : Bool)
  | lockCountWrite (slot : Slot) (ok : Bool)
  | minuteTick
  | retainedMinuteWrite (ok : Bool)
  | syncLost
  | frameVoided (f : Frame)
  | doubleGateChange (slot : Slot)
deriving DecidableEq, Repr

end Sys2Proof
end

