-- ==== Sys2Proof/Config.lean ====
section
/-! DEFINITION. The free values: constants without a body, so that nothing can be proved of the values themselves. -/

namespace Sys2Proof.Config

/-- Whether a store copy whose write ended without success (a reset came first, or the read-back failed twice) fails its
check afterwards; otherwise it still holds what it held (R15, R17, entry 12). Applied to a free-value index. -/
opaque tornFails : Nat → Bool

/-- Whether the result of a damaged record is written to copy B rather than copy A (R15 and R21 do not say, entry 13).
Applied to a free-value index. -/
opaque damagedWritesB : Nat → Bool

/-- The retained values of the custody store that carry a check word (R14, R15, R18, R19, R21). -/
inductive Retained where
  | record
  | lockCount
  | minute
  | causes
  | mark
deriving DecidableEq, Repr

/-- The bytes of a retained value in the order stored, over which its check word is computed (R15). Of a record copy these are
the bytes of the contents alone, which the slot number and the generation precede. The spec gives no layout: a free value
(entry 11). -/
opaque storedBytes {α : Type} (what : Retained) (value : α) : List Byte

/-- The payload bytes of a frame the column composes whose layout the spec does not give (Table 11-2, entry 11). Applied to
the kind number and a free-value index. -/
opaque answerPayload : Nat → Nat → List Byte

end Sys2Proof.Config
end

