-- ==== Sys2Proof/Machine/State.lean ====
section
/-! DEFINITION. The state of the EN24, block by block (Table 1-1), as plain data, and the state after reset. -/

namespace Sys2Proof.Machine

/-! ## Compartment records (chapter 2) -/

/-- Why a parcel is in custody (R3). -/
inductive Purpose where
  | delivery
  | carrierReturn
  | expired
deriving DecidableEq, Repr

/-- The eight fault causes (Table 2-5). -/
inductive FaultCause where
  | jam
  | bolt
  | latch
  | forced
  | unsecure
  | unresolved
  | store
  | foreign
deriving DecidableEq, Repr

/-- The parcel record (Table 2-2) with its purpose. A RETURN has neither release code nor holding limit. -/
structure Parcel where
  ref : BitVec 64
  carrier : Nat
  purpose : Purpose
  code : Option Nat
  tariff : Nat
  deposit : Nat
  limit : Option Nat
  cod : Nat
  paid : Nat
  settled : Option Nat
  estimated : Bool
deriving DecidableEq, Repr

/-- The seven compartment states, each with the fields Table 2-3 gives it. -/
inductive CompState where
  | empty
  | offered (promise : Ticket)
  | held (promise : Ticket) (parcel : Option Parcel)
  | occupied (parcel : Parcel)
  | releasing (parcel : Parcel)
  | fault (cause : FaultCause) (parcel : Option Parcel)
  | retired
deriving DecidableEq, Repr

/-- A compartment record: the state with its fields, and the two flags (Table 2-1). -/
structure CompRec where
  state : CompState
  foreign : Bool
  lost : Bool
deriving DecidableEq, Repr

/-! ## Door cycles (chapter 4) -/

/-- The kinds of a door request (R41). -/
inductive DoorKind where
  | deposit
  | collect
  | sweep
  | service
deriving DecidableEq, Repr

/-- The seven outcomes of a door cycle (Table 4-3); a latch fault carries its presence sample. -/
inductive Outcome where
  | securedPresent
  | securedAbsent
  | notOpenedJam
  | notOpenedBolt
  | abandoned
  | latchFault (presence : Bool)
  | forced
deriving DecidableEq, Repr

/-- How an attempt of a cycle failed (R47). -/
inductive AttemptFailure where
  | bolt
  | jam
deriving DecidableEq, Repr

/-- The stages of a door cycle (Table 4-1). -/
inductive Stage where
  | starting
  | pulseWait
  | driving
  | popWait
  | opened
  | closing
  | settle
deriving DecidableEq, Repr

/-- The ORT entry that a door request works for. -/
structure Job where
  kind : EntryKind
  ticket : Ticket
deriving DecidableEq, Repr

/-- A request of the door queue (R41), with the parcel reference its RELEASE_DONE will carry (R144). -/
structure DoorRequest where
  slot : Slot
  kind : DoorKind
  job : Job
  ref : BitVec 64
deriving DecidableEq, Repr

/-- The compartment's state when a SERVICE cycle started, as Table 10-6 sorts it. -/
inductive StartState where
  | occupied
  | empty
  | fault
  | other
deriving DecidableEq, Repr

/-- A door cycle record (R43). Timers are in milliseconds; `none` is a stopped timer. -/
structure Cycle where
  slot : Slot
  kind : DoorKind
  job : Job
  ref : BitVec 64
  stage : Stage
  attempt : Nat
  lastFailure : Option AttemptFailure
  boltReached : Bool
  doorOpened : Bool
  latchFault : Bool
  /-- A forced report taken in STARTING; its outcome waits for the RELEASING write (R53). -/
  forced : Bool
  startState : StartState
  /-- The pulse wait limit timer (R45). -/
  limit : Option Nat
  /-- Time since the last entry into PULSE_WAIT (R66). -/
  wait : Nat
  pop : Option Nat
  ajar : Option Nat
  latch : Nat
  settle : Option Nat
deriving DecidableEq, Repr

/-- The Door Sequencer: door queue, cycles in progress, pulse order. -/
structure Dsq where
  queue : List DoorRequest
  cycles : List Cycle
  order : List Slot
deriving DecidableEq, Repr

/-! ## The custody store (section 2.4) -/

/-- The outcome a PLACE_DONE carries (Table 7-3). -/
inductive DepositResult where
  | stored
  | voidEmpty
  | voidPower
  | fault
deriving DecidableEq, Repr

/-- The outcome a RELEASE_DONE carries (Table 10-5). -/
inductive ReleaseResult where
  | taken
  | untaken
  | notOpened
  | abandoned
  | fault
  | closed
  | cleared
  | parcelMissing
  | foreign
  | retired
  | restored
deriving DecidableEq, Repr

/-- What waits for a record write of a slot to end (R16), and goes on when it has. -/
inductive Waiter where
  /-- The cycle in STARTING waits for the RELEASING write (R43). -/
  | cycleStart
  /-- The PLACE entry waits for the parcel record's write before it asks for the door (R105). -/
  | detail (ticket : Ticket)
  /-- PLACE_DONE waits for the mapped change's write (R107). -/
  | placeDone (ticket : Ticket) (result : DepositResult)
  /-- RELEASE_DONE of a COLLECT, SWEEP or SERVICE door cycle waits for the mapped change's write (R144). -/
  | releaseDone (job : Job) (result : ReleaseResult) (ref : BitVec 64)
  /-- RELEASE_DONE of SERVICE_CLEAR, SERVICE_RETIRE or SERVICE_RESTORE waits for its write (R149, R150). -/
  | serviceDone (ticket : Ticket) (result : ReleaseResult) (ref : BitVec 64)
  /-- The QUOTE that answers a payment waits for the write (R130): its excess, its minute T and the record as paid. -/
  | payment (ticket : Ticket) (excess minute : Nat) (parcel : Parcel)
  /-- An entry that ends once the write has ended, without an answer (R89). -/
  | endEntry (job : Job)
deriving DecidableEq, Repr

/-- One of the two copies of a slot's record: generation, contents, the check word written with them (R15), and whether the
bytes stored still agree with it, that is, whether the copy passes its check. -/
structure RecCopy where
  gen : BitVec 8
  content : CompRec
  check : BitVec 16
  ok : Bool
deriving DecidableEq, Repr

/-- What made a record write: a change of the record (R15), the failure of another write, after which FAULT(STORE) is written
once (R17), or reconciliation, whose writes JOINING waits for (R23). -/
inductive WriteCause where
  | change
  | storeFault
  | reconciliation
deriving DecidableEq, Repr

/-- A record write in progress (R15): the copy it goes to, what it writes, whether it is the second try, what made it, and
the units that wait on it. -/
structure RecWrite where
  toB : Bool
  gen : BitVec 8
  content : CompRec
  second : Bool
  cause : WriteCause
  waiters : List Waiter
deriving DecidableEq, Repr

/-- The store of one slot's record: copies A and B, which is current (`some true` is B; `none` when the record is
damaged), the write in progress, and the units waiting for a later change to be written after it (R16). -/
structure SlotStore where
  a : RecCopy
  b : RecCopy
  current : Option Bool
  writing : Option RecWrite
  again : Option (List Waiter)
deriving DecidableEq, Repr

/-- A retained count in one copy: its value, the check word written with it, and whether the copy passes its check. -/
structure CountCopy where
  value : Nat
  check : BitVec 16
  ok : Bool
deriving DecidableEq, Repr

/-- The lock-cycle count of a slot (R14): its two copies, the count in force, the write in progress (`true` is to copy
B) and whether a later count waits to be written. -/
structure Locks where
  a : CountCopy
  b : CountCopy
  count : Nat
  writing : Option (Bool × Nat)
  again : Bool
deriving DecidableEq, Repr

/-- A retained-minute write (R18): the value, whether a minute tick made it, and whether the clock was SYNCED then. -/
structure MinuteWrite where
  value : Nat
  tick : Bool
  synced : Bool
deriving DecidableEq, Repr

/-- The stored reset-cause set (R19): the set, the check word written with it, and whether it passes its check. -/
structure CauseCopy where
  set : Causes
  check : BitVec 16
  ok : Bool
deriving DecidableEq, Repr

/-- The Compartment Table with Custody Store. A slot's table entry is `none` where the slot is not fitted or not yet
reconciled. -/
structure Cts where
  table : Table (Option CompRec)
  store : Table SlotStore
  locks : Table Locks
  minuteA : CountCopy
  minuteB : CountCopy
  /-- The next retained-minute write goes to copy B. -/
  minuteNextB : Bool
  /-- The write in progress, and those that follow it in order. -/
  minuteWrites : List MinuteWrite
  causeStore : CauseCopy
  causes : Causes
  causeWriting : Option Causes
  /-- The check word written with the store mark, and whether the mark passes its check (R21). -/
  markCheck : BitVec 16
  markOk : Bool
deriving DecidableEq, Repr

/-! ## Sensing (chapter 3) -/

/-- The levels at a slot's inputs; high is `true`. -/
structure Pins where
  gateA : Bool
  gateB : Bool
  door : Bool
  presence : Bool
deriving DecidableEq, Repr

/-- The sensing state of one slot (Table 3-2). `door` is `some true` when open, `presence` is `some true` when on. -/
structure Sense where
  bolt : Nat
  gates : Option (Bool × Bool)
  homeIdle : Option Nat
  boltLow : Option Nat
  door : Option Bool
  doorTimer : Nat
  presence : Option Bool
  presenceTimer : Nat
  baseTimer : Nat
  /-- The baseline door (open) and presence (on) states of R20. -/
  baseline : Option (Bool × Bool)
deriving DecidableEq, Repr

/-! ## Budget and outputs (chapter 5) -/

/-- The basis of the bank level (R58). -/
inductive Basis where
  | byDefault
  | announced
  | aged
deriving DecidableEq, Repr

/-- An entry of the pulse list (R67): sender, slot, and the time left to its end time. -/
structure PulseEntry where
  station : BitVec 6
  slot : BitVec 5
  left : Nat
deriving DecidableEq, Repr

/-- The own-note state (R69). `queued slot ended`: the note's slot, and whether its cycle has ended meanwhile (R74). -/
inductive OwnNote where
  | none
  | queued (slot : Slot) (ended : Bool)
  | deferred (slot : Slot)
deriving DecidableEq, Repr

/-- The Budget Unit. A driver is on while it has time left. -/
structure Bgu where
  level : Nat
  basis : Basis
  age : Option Nat
  pulses : List PulseEntry
  own : OwnNote
  drivers : Table (Option Nat)
deriving DecidableEq, Repr

/-- The Output Unit: demand and actual state of lamps and auxiliary outputs (R76). -/
structure Out where
  lampDemand : Table Bool
  lampActual : Table Bool
  auxDemand : Vector Bool 4
  auxActual : Vector Bool 4
deriving DecidableEq, Repr

/-! ## Open Request Table (chapter 6) -/

/-- The subkinds of a SERVICE entry. -/
inductive ServiceKind where
  | open
  | clear
  | retire
  | restore
deriving DecidableEq, Repr

/-- The stages of an entry (Table 6-2). -/
inductive EntryStage where
  | waiting
  | promised
  | held
  | door
  | matched
  | listed
  | immediate
deriving DecidableEq, Repr

/-- How far an entry's slot has come: a COLLECT's per-slot progress, and `done` as a SWEEP's done mark. -/
inductive Progress where
  | matched
  | door
  | done
deriving DecidableEq, Repr

/-- A slot's current quote (R126): number, amount due, V and T. -/
structure Quote where
  number : BitVec 16
  due : Nat
  valid : Nat
  minute : Nat
deriving DecidableEq, Repr

/-- One slot of an entry's slot list, with its progress, current quote and pending expiry mark. -/
structure EntrySlot where
  slot : Slot
  progress : Progress
  quote : Option Quote
  mark : Bool
deriving DecidableEq, Repr

/-- An entry of the Open Request Table (Table 6-1). `purpose` and `carrier` are the PLACE call's or the sweep's, `code`
the collection's, `ref` the parcel reference of the detail. `ending` marks an entry whose work is done and which
ends when the write of its last change has ended (R89). -/
structure Entry where
  ticket : Ticket
  kind : EntryKind
  sub : Option ServiceKind
  slots : List EntrySlot
  stage : EntryStage
  timer : Option Nat
  purpose : Purpose
  carrier : Nat
  code : Nat
  more : Bool
  ref : BitVec 64
  ending : Bool
deriving DecidableEq, Repr

/-! ## Clock, reports, line -/

/-- The Clock Unit (R109, R113). -/
structure Clk where
  minute : Nat
  sub : Nat
  hold : Nat
  age : Nat
  synced : Bool
deriving DecidableEq, Repr

/-- The fourteen conditions (Table 12-1), in the order of R165's mask positions. -/
inductive Condition where
  | forced
  | jam
  | bolt
  | latch
  | unsecure
  | store
  | foreign
  | presenceLost
  | ajar
  | lineDrop
  | overrun
  | txDiscard
  | timeFault
  | configClamp
deriving DecidableEq, Repr

/-- The nine refusal reasons, in the order of R166's mask positions. -/
inductive Reason where
  | busy
  | noSuch
  | state
  | unpaid
  | expired
  | power
  | notSecure
  | stale
  | format
deriving DecidableEq, Repr

/-- The Report Unit. -/
structure Rpt where
  conds : BitVec 14
  lastFault : Option Slot
  attention : Bool
  counters : Vector (BitVec 24) 4
deriving DecidableEq, Repr

/-- The configuration states (R173, R174); `none` until the memory has been read. -/
inductive ConfigState where
  | none
  | loaded
  | clamped
  | standby
deriving DecidableEq, Repr

/-- The Configuration Loader: its state, the values in force and the check word read at load. -/
structure Cfg where
  state : ConfigState
  mem : ConfigFields
  check : BitVec 16
deriving DecidableEq, Repr

/-- The line states (R157); `off` is off the line. -/
inductive LineState where
  | off
  | joining
  | active
  | quiet
deriving DecidableEq, Repr

/-- The compartment states as counted and reported, in the order of R166's mask positions. -/
inductive CompTag where
  | empty
  | offered
  | held
  | occupied
  | releasing
  | fault
  | retired
deriving DecidableEq, Repr

/-- Part 0 of STATUS (Table 12-3). -/
structure StatusMain where
  line : LineState
  level : Nat
  basis : Basis
  synced : Bool
  minute : Nat
  config : ConfigState
  conds : BitVec 14
  attention : Bool
  lastFault : Option Slot
  counts : List (CompTag × Nat)
  places : Nat
  waiting : Nat
  txEmpty : Bool
  txIdle : Bool
deriving DecidableEq, Repr

/-- Part 0 of SLOT_REPORT (R170). `stage` is the cycle's stage with its attempt, `queued` a request in the door queue. -/
structure SlotMain where
  size : Nat
  tag : CompTag
  purpose : Option Purpose
  cause : Option FaultCause
  promise : Option Ticket
  foreign : Bool
  lost : Bool
  lockCycles : Nat
  door : Option Bool
  presence : Option Bool
  secure : Bool
  bolt : Nat
  holder : Option Job
  waiting : Nat
  queued : Bool
  stage : Option (Stage × Nat)
deriving DecidableEq, Repr

/-- Part 1 of SLOT_REPORT (R170): the parcel; all fields zero without a record. -/
structure SlotParcel where
  ref : BitVec 64
  carrier : Nat
  purpose : Option Purpose
  code : Nat
  tariff : Nat
  deposit : Nat
  limit : Nat
  estimated : Bool
deriving DecidableEq, Repr

/-- Part 2 of SLOT_REPORT (R170): the money; all fields zero without a record. -/
structure SlotMoney where
  cod : Nat
  paid : Nat
  settled : Nat
  settledPresent : Bool
deriving DecidableEq, Repr

/-- What a frame composed by the column says. Ticket numbers are those of the request answered; a REFUSE names the ticket
and the slot where its request carried them. -/
inductive Body where
  | pulseNote (slot : Slot) (duration : Nat) (kind : DoorKind)
  | placeOffer (ticket : Ticket) (slot : Slot) (size : Nat)
  | placeDone (number : BitVec 16) (slot : Slot) (result : DepositResult) (ref : BitVec 64)
  | collectMatch (number : BitVec 16) (slot : Slot) (carrier : Nat) (quote : BitVec 16) (due ahead : Nat)
      (lost estimated : Bool)
  | quote (number : BitVec 16) (slot : Slot) (quote : BitVec 16) (due ahead excess paid : Nat) (grace expired : Bool)
  | sweepList (number : BitVec 16) (slots : List Slot) (more : Bool)
  | releaseDone (number : BitVec 16) (slot : Slot) (result : ReleaseResult) (ref : BitVec 64)
  | refuse (number : Option (BitVec 16)) (slot : Option Nat) (reason : Reason)
  | alert (conds : BitVec 14) (lastFault : Option Slot)
  | statusMain (st : StatusMain)
  | statusLine (checkFaults failures drops roleFailures : Nat) (auxDemand auxActual : Vector Bool 4)
  | statusLamps (demand actual : Table Bool)
  | slotMain (slot : Slot) (r : SlotMain)
  | slotParcel (slot : Slot) (present : Bool) (r : SlotParcel)
  | slotMoney (slot : Slot) (present : Bool) (r : SlotMoney)
  | countReport (kinds : Vector Nat 4) (values : Vector (BitVec 24) 4)
  | freeReport (offerable : Vector Nat 4) (occupied : Nat)
  | announce (causes : Causes) (config : ConfigState) (check : BitVec 16) (fitted faults minute : Nat) (synced : Bool)
deriving DecidableEq, Repr

/-- A frame of the transmit queue (R156, R160): what it says, its rank and destination, its retry count, whether it is
being transmitted, and whether its owner withdraws it at the end of its transmission (R101). -/
structure TxFrame where
  body : Body
  rank : Nat
  dest : BitVec 6
  retries : Nat
  sending : Bool
  withdrawn : Bool
deriving DecidableEq, Repr

/-- The kinds of frame that enter the receive queue (Table 11-4, classes 3 to 5). -/
inductive RequestKind where
  | placeCall
  | placeDetail
  | collectCall
  | payNote
  | collectGo
  | sweepCall
  | sweepGo
  | freeQuery
  | statusQuery
  | slotQuery
  | countQuery
  | countClear
  | outputSet
  | time
  | serviceOpen
  | serviceClear
  | serviceRetire
  | serviceRestore
  | serviceRestart
  | alertClear
deriving DecidableEq, Repr

/-- A frame of the receive queue: its kind, sender and payload, and the spoken-for mark of R97. -/
structure RxFrame where
  kind : RequestKind
  station : BitVec 6
  payload : List Byte
  spoken : Bool
deriving DecidableEq, Repr

/-- What the column drove dominant at the end of the frame that ended last (R155, R156): neither slot, the echo slot of a frame
it found good, or the void slot of one it found bad or of its own collided frame. -/
inductive EndDrive where
  | neither
  | echo
  | void
deriving DecidableEq, Repr

/-- The Line Interface Unit. -/
structure Liu where
  line : LineState
  timer : Nat
  tx : List TxFrame
  rx : List RxFrame
  drops : Nat
  checkFaults : Nat
  failures : Nat
  dropCount : Nat
  roleFailures : Nat
  /-- The column's own class 0 or 1 frame, taken by the line and not yet handled by its unit (R159). -/
  handover : Option TxFrame
  /-- The bits of the transmission under way, start bit to check (R153). -/
  lineBits : List Bool
  /-- What the column drove in the echo and void slots of the frame that ended last (R155, R156). -/
  drive : EndDrive
deriving DecidableEq, Repr

/-- How far the column has come since its reset (R175). -/
inductive Phase where
  | reading
  | standby
  | causeWrite
  | reconciling
  | running
deriving DecidableEq, Repr

/-- The state of the column, with the queue of commands waiting, first in, first out. -/
structure State where
  pending : List Instr
  phase : Phase
  cfg : Cfg
  cts : Cts
  pins : Table Pins
  sen : Table Sense
  dsq : Dsq
  bgu : Bgu
  ort : List Entry
  clk : Clk
  quoteCounter : BitVec 16
  out : Out
  rpt : Rpt
  liu : Liu
  /-- A restart is pending (R151). -/
  restart : Bool
  /-- The causes of this reset, held until start-up writes the set (R19). -/
  heldCauses : Causes
  /-- The index of the next free value (the model's own field). -/
  free : Nat
deriving DecidableEq, Repr

/-- The reasons a command stops the block with a fault. There is none: whatever goes wrong in the column is state
(conditions, FAULT(cause), error counts), and every command has a next state in every state. -/
inductive Fault where
deriving DecidableEq, Repr

/-- The reasons a command is refused. -/
inductive Refusal where
  /-- The command has no meaning yet: raised by `exec`'s arm for it. Safe: the block stops. No arm raises it. -/
  | notModelled (mnemonic : String)
deriving DecidableEq, Repr

/-! ## The state after reset -/

/-- No cause. -/
def Causes.none : Causes := { power := false, brownout := false, pin := false, restart := false }

/-- An EMPTY record with both flags clear (R21). -/
def CompRec.blank : CompRec := { state := .empty, foreign := false, lost := false }

/-- A record copy that fails its check. DESIGN CHOICE: its contents and check word (entry 14). -/
def RecCopy.failing : RecCopy := { gen := 0, content := CompRec.blank, check := 0, ok := false }

/-- A count copy that fails its check. DESIGN CHOICE: its value and check word (entry 14). -/
def CountCopy.failing : CountCopy := { value := 0, check := 0, ok := false }

/-- The store of one slot before its first use. -/
def SlotStore.unused : SlotStore :=
  { a := RecCopy.failing, b := RecCopy.failing, current := none, writing := none, again := none }

/-- The lock-cycle copies of one slot before their first use. -/
def Locks.unused : Locks :=
  { a := CountCopy.failing, b := CountCopy.failing, count := 0, writing := none, again := false }

/-- A custody store that has never been used (R21): every copy and the mark fail their checks (entry 14). -/
def Cts.unused : Cts :=
  { table := tconst none, store := tconst SlotStore.unused, locks := tconst Locks.unused,
    minuteA := CountCopy.failing, minuteB := CountCopy.failing, minuteNextB := false, minuteWrites := [],
    causeStore := { set := Causes.none, check := 0, ok := false }, causes := Causes.none, causeWriting := none,
    markCheck := 0, markOk := false }

/-- The pins at power-on: both gates high, the bolt home; the other levels low (DESIGN CHOICE, entry 5). -/
def Pins.powerOn : Pins := { gateA := true, gateB := true, door := false, presence := false }

/-- A slot's sensing state after reset (Table 3-2). DESIGN CHOICE: the two debounce timers and the time awaiting the baseline are
zero, of which R28 and Table 3-2 say nothing (entry 49). -/
def Sense.reset : Sense :=
  { bolt := 0, gates := none, homeIdle := none, boltLow := none, door := none, doorTimer := 0, presence := none,
    presenceTimer := 0, baseTimer := 0, baseline := none }

/-- All eight edge cases enabled (R25's default). -/
def EdgeEnables.all : EdgeEnables :=
  { aRiseBLow := true, bRiseAHigh := true, aFallBHigh := true, bFallALow := true, aRiseBHigh := true,
    bRiseALow := true, aFallBLow := true, bFallAHigh := true }

/-- The configuration values before the memory has been read. No rule reads them before the load. DESIGN CHOICE: the
defaults of Table 13-1 where it gives one, else the lowest value (entry 18). -/
def ConfigFields.unread : ConfigFields :=
  { station := 1, tlo := 0, thi := 0, supply := 0, time := 0, service1 := 0, service2 := 0, slotMap := tconst 0,
    edges := EdgeEnables.all, threshold := 9, doorPolarity := true, presencePolarity := true, span := 2,
    pulseLength := 300, ajarTime := 180, budget := 3, lampShed := 3, auxShed := Vector.replicate 4 2,
    auxDefault := Vector.replicate 4 false, holdTime := 90, collectLapse := 180, sweepLapse := 300, hmax := 10080,
    hdef := 4320, granularity := 0,
    tariffs := Vector.replicate 8 { free := 0, step := 15, price := 0, capDay := 0, capMax := 0 },
    multipliers := Vector.replicate 4 4, grace := 10, enables := 0,
    counters := Vector.replicate 4 { kind := 0, mask := 0, filter := 0 } }

/-- The configuration block after reset. -/
def Cfg.reset : Cfg := { state := .none, mem := ConfigFields.unread, check := 0 }

/-- The Door Sequencer after reset (Table 4-4). -/
def Dsq.reset : Dsq := { queue := [], cycles := [], order := [] }

/-- The Budget Unit after reset (Table 5-7). -/
def Bgu.reset : Bgu :=
  { level := 1, basis := .byDefault, age := none, pulses := [], own := .none, drivers := tconst none }

/-- The Output Unit after reset (R78). -/
def Out.reset : Out :=
  { lampDemand := tconst false, lampActual := tconst false, auxDemand := Vector.replicate 4 false,
    auxActual := Vector.replicate 4 false }

/-- The Clock Unit after reset (Table 8-4); the minute counter is resumed at the load. -/
def Clk.reset : Clk := { minute := 0, sub := 0, hold := 0, age := 0, synced := false }

/-- The Report Unit after reset (Table 12-4). -/
def Rpt.reset : Rpt := { conds := 0, lastFault := none, attention := false, counters := Vector.replicate 4 0 }

/-- The Line Interface Unit after reset (Table 11-6). -/
def Liu.reset : Liu :=
  { line := .off, timer := 0, tx := [], rx := [], drops := 0, checkFaults := 0, failures := 0, dropCount := 0,
    roleFailures := 0, handover := none, lineBits := [], drive := .neither }

/-- The column right after reset, switched on for the first time: a POWER reset over a custody store that has never
been used (entry 14). -/
def State.reset : State :=
  { pending := [], phase := .reading, cfg := Cfg.reset, cts := Cts.unused, pins := tconst Pins.powerOn,
    sen := tconst Sense.reset, dsq := Dsq.reset, bgu := Bgu.reset, ort := [], clk := Clk.reset, quoteCounter := 0,
    out := Out.reset, rpt := Rpt.reset, liu := Liu.reset, restart := false,
    heldCauses := { Causes.none with power := true }, free := 0 }

end Sys2Proof.Machine
end

