-- ==== Sys2Proof/Machine/Ops.lean ====
section
/-! DEFINITION. The named updates of the state, the lookups over its tables, and the column's transmit queue. -/

namespace Sys2Proof.Machine

/-! ## One named update per block of the state -/

def State.setPending (s : State) (x : List Instr) : State := { s with pending := x }
def State.setPhase (s : State) (x : Phase) : State := { s with phase := x }
def State.setCfg (s : State) (x : Cfg) : State := { s with cfg := x }
def State.setCts (s : State) (x : Cts) : State := { s with cts := x }
def State.setPins (s : State) (x : Table Pins) : State := { s with pins := x }
def State.setSen (s : State) (x : Table Sense) : State := { s with sen := x }
def State.setDsq (s : State) (x : Dsq) : State := { s with dsq := x }
def State.setBgu (s : State) (x : Bgu) : State := { s with bgu := x }
def State.setOrt (s : State) (x : List Entry) : State := { s with ort := x }
def State.setClk (s : State) (x : Clk) : State := { s with clk := x }
def State.setQuoteCounter (s : State) (x : BitVec 16) : State := { s with quoteCounter := x }
def State.setOut (s : State) (x : Out) : State := { s with out := x }
def State.setRpt (s : State) (x : Rpt) : State := { s with rpt := x }
def State.setLiu (s : State) (x : Liu) : State := { s with liu := x }
def State.setRestart (s : State) (x : Bool) : State := { s with restart := x }
def State.setHeldCauses (s : State) (x : Causes) : State := { s with heldCauses := x }
def State.setFree (s : State) (x : Nat) : State := { s with free := x }

/-! ## Configuration values -/

/-- The configuration values in force. -/
def State.conf (s : State) : ConfigFields := s.cfg.mem

/-- The column's own station number. -/
def State.station (s : State) : BitVec 6 := BitVec.ofNat 6 s.conf.station

/-- The size class of a slot; 0 is not fitted (R1). -/
def State.size (s : State) (slot : Slot) : Nat := tget s.conf.slotMap slot

/-- Whether the slot map marks the slot as fitted (R1). -/
def State.fitted (s : State) (slot : Slot) : Bool := s.size slot != 0

/-- The configuration is loaded: the clock runs and the sensors are sampled (R28, R109). -/
def State.loaded (s : State) : Bool :=
  match s.phase with
  | .causeWrite | .reconciling | .running => true
  | .reading | .standby => false

/-- The column is on the line: JOINING, ACTIVE or QUIET (R157). -/
def State.onLine (s : State) : Bool :=
  match s.liu.line with
  | .off => false
  | .joining | .active | .quiet => true

/-! ## Slots: records, sensing state, stores -/

/-- A slot's record in the working table. -/
def State.rec? (s : State) (slot : Slot) : Option CompRec := tget s.cts.table slot

def State.setRec (s : State) (slot : Slot) (r : CompRec) : State :=
  s.setCts { s.cts with table := tset s.cts.table slot (some r) }

def State.store (s : State) (slot : Slot) : SlotStore := tget s.cts.store slot

def State.setStore (s : State) (slot : Slot) (x : SlotStore) : State :=
  s.setCts { s.cts with store := tset s.cts.store slot x }

def State.locks (s : State) (slot : Slot) : Locks := tget s.cts.locks slot

def State.setLocks (s : State) (slot : Slot) (x : Locks) : State :=
  s.setCts { s.cts with locks := tset s.cts.locks slot x }

def State.sense (s : State) (slot : Slot) : Sense := tget s.sen slot

def State.setSense (s : State) (slot : Slot) (x : Sense) : State := s.setSen (tset s.sen slot x)

/-- The parcel record a compartment state holds (Table 2-3). -/
def CompState.parcel? : CompState → Option Parcel
  | .held _ p => p
  | .occupied p => some p
  | .releasing p => some p
  | .fault _ p => p
  | .empty | .offered _ | .retired => none

/-- The promise a compartment state carries (Table 2-3). -/
def CompState.promise? : CompState → Option Ticket
  | .offered t => some t
  | .held t _ => some t
  | .empty | .occupied _ | .releasing _ | .fault _ _ | .retired => none

/-- The fault cause a compartment state carries (Table 2-3). -/
def CompState.cause? : CompState → Option FaultCause
  | .fault c _ => some c
  | .empty | .offered _ | .held _ _ | .occupied _ | .releasing _ | .retired => none

/-- The name of a compartment state. -/
def CompState.tag : CompState → CompTag
  | .empty => .empty
  | .offered _ => .offered
  | .held _ _ => .held
  | .occupied _ => .occupied
  | .releasing _ => .releasing
  | .fault _ _ => .fault
  | .retired => .retired

/-- The parcel record of a slot. -/
def State.parcel? (s : State) (slot : Slot) : Option Parcel :=
  (s.rec? slot).bind (fun r => r.state.parcel?)

/-- The carrier of the parcel record in a slot, or 0 where there is none (R166). -/
def State.carrierOf (s : State) (slot : Slot) : Nat :=
  match s.parcel? slot with
  | some p => p.carrier
  | none => 0

/-- A slot number as a frame carries it, if it names one of the 24 slots. -/
def slotOf (n : Nat) : Option Slot := if h : n < 24 then some ⟨n, h⟩ else none

/-- The carrier of the parcel record in the slot a refusal names (R166). -/
def State.carrierAt (s : State) (n : Nat) : Nat :=
  match slotOf n with
  | some slot => s.carrierOf slot
  | none => 0

/-- The compartment is FAULT(STORE). -/
def CompRec.storeFaulted (r : CompRec) : Bool := r.state.cause? == some .store

/-- The door is closed: the debounced state is known and closed. -/
def Sense.doorClosed (x : Sense) : Bool := x.door == some false

/-- The debounced presence state is on. -/
def Sense.presenceIsOn (x : Sense) : Bool := x.presence == some true

/-- The debounced presence state is off. -/
def Sense.presenceIsOff (x : Sense) : Bool := x.presence == some false

/-- The time the bolt must have been home (R32). -/
def boltLowTime : Nat := 200

/-- The slot is secure: door closed and the bolt-low timer has reached 200 ms (R32). -/
def Sense.secure (x : Sense) : Bool :=
  x.doorClosed && (match x.boltLow with | some t => decide (boltLowTime ≤ t) | none => false)

/-! ## Door cycles -/

/-- The cycle in progress on a slot. -/
def State.cycle? (s : State) (slot : Slot) : Option Cycle := s.dsq.cycles.find? (fun c => c.slot == slot)

/-- A request for the slot waits in the door queue. -/
def State.inDoorQueue (s : State) (slot : Slot) : Bool := s.dsq.queue.any (fun r => r.slot == slot)

/-- A door cycle is in progress on the slot (R42). -/
def State.inCycle (s : State) (slot : Slot) : Bool := (s.cycle? slot).isSome

/-- The slot has a door cycle in the sense of R34: queued or in progress. -/
def State.hasDoorCycle (s : State) (slot : Slot) : Bool := s.inDoorQueue slot || s.inCycle slot

/-- The stages in which the expected window is open (R33, Table 4-1). -/
def Stage.windowOpen : Stage → Bool
  | .driving | .popWait | .opened | .closing | .settle => true
  | .starting | .pulseWait => false

/-- A slot's expected window is open (R33). -/
def State.windowOpen (s : State) (slot : Slot) : Bool :=
  match s.cycle? slot with
  | some c => c.stage.windowOpen
  | none => false

/-- Replaces the cycle record of the cycle's slot. -/
def State.setCycle (s : State) (c : Cycle) : State :=
  s.setDsq { s.dsq with cycles := s.dsq.cycles.map (fun d => if d.slot = c.slot then c else d) }

/-! ## Open Request Table lookups -/

/-- The entry of a kind and ticket; the table holds at most one (R81). -/
def State.entry? (s : State) (j : Job) : Option Entry :=
  s.ort.find? (fun e => e.kind == j.kind && e.ticket == j.ticket)

/-- Replaces the entry of a kind and ticket by a function of it. -/
def State.updEntry (s : State) (j : Job) (f : Entry → Entry) : State :=
  s.setOrt (s.ort.map (fun e => if e.kind = j.kind ∧ e.ticket = j.ticket then f e else e))

/-- Takes the entry of a kind and ticket out of the table. -/
def State.dropEntry (s : State) (j : Job) : State :=
  s.setOrt (s.ort.filter (fun e => !(e.kind == j.kind && e.ticket == j.ticket)))

/-- The key of an entry. -/
def Entry.job (e : Entry) : Job := { kind := e.kind, ticket := e.ticket }

/-- An active entry holds each slot of its list whose hold has not been released (R84). -/
def Entry.holds (e : Entry) (slot : Slot) : Bool :=
  e.stage != .waiting && e.slots.any (fun x => x.slot == slot && x.progress != .done)

/-- A waiting entry names each slot of its list (R85). -/
def Entry.awaits (e : Entry) (slot : Slot) : Bool :=
  e.stage == .waiting && e.slots.any (fun x => x.slot == slot)

/-- The entry that holds the slot (R84). -/
def State.holder? (s : State) (slot : Slot) : Option Entry := s.ort.find? (fun e => e.holds slot)

/-- Some waiting entry names the slot (R84). -/
def State.awaited (s : State) (slot : Slot) : Bool := s.ort.any (fun e => e.awaits slot)

/-- The table entry of one slot of an entry's list. -/
def Entry.slot? (e : Entry) (slot : Slot) : Option EntrySlot := e.slots.find? (fun x => x.slot == slot)

/-- Replaces one slot of an entry's list by a function of it. -/
def Entry.updSlot (e : Entry) (slot : Slot) (f : EntrySlot → EntrySlot) : Entry :=
  { e with slots := e.slots.map (fun x => if x.slot = slot then f x else x) }

/-! ## The transmit queue (R160) -/

/-- The class of a composed frame (Table 11-4). -/
def Body.cls : Body → Nat
  | .pulseNote _ _ _ => 0
  | .placeOffer _ _ _ => 1
  | _ => 2

/-- The kind number of a composed frame (Table 11-4). -/
def Body.kindNumber : Body → Nat
  | .pulseNote _ _ _ => 1
  | .placeOffer _ _ _ => 4
  | .placeDone _ _ _ _ => 8
  | .collectMatch _ _ _ _ _ _ _ _ => 9
  | .quote _ _ _ _ _ _ _ _ _ => 10
  | .sweepList _ _ _ => 11
  | .releaseDone _ _ _ _ => 12
  | .refuse _ _ _ => 13
  | .alert _ _ => 14
  | .statusMain _ => 15
  | .statusLine _ _ _ _ _ _ => 15
  | .statusLamps _ _ => 15
  | .slotMain _ _ => 16
  | .slotParcel _ _ _ => 16
  | .slotMoney _ _ _ => 16
  | .countReport _ _ => 17
  | .freeReport _ _ => 18
  | .announce _ _ _ _ _ _ _ => 19

/-- A frame as its owner places it: not sent yet, no failed transmission. -/
def TxFrame.fresh (body : Body) (rank : Nat) (dest : BitVec 6) : TxFrame :=
  { body := body, rank := rank, dest := dest, retries := 0, sending := false, withdrawn := false }

/-- The key of a queued frame without the station, which is the column's own for each (R153): lower goes first. -/
def TxFrame.key (f : TxFrame) : Nat := f.body.cls * 256 + f.rank

/-- A candidate for the discard of R160: class 2 or above and not being transmitted. -/
def TxFrame.discardable (f : TxFrame) : Bool := decide (2 ≤ f.body.cls) && !f.sending

/-- The places a transmit queue has (R160). -/
def txPlaces : Nat := 8

/-- The position of the frame R160 discards among frames in the order placed: the candidate of highest key, and among
equal keys the one placed latest. `i` is the position of the list's head, `best` the best found before it. -/
def discardIndex : List TxFrame → Nat → Option (Nat × Nat) → Option Nat
  | [], _, best => best.map Prod.fst
  | f :: rest, i, best =>
    discardIndex rest (i + 1)
      (if f.discardable then
        match best with
        | some (j, k) => if k ≤ f.key then some (i, f.key) else some (j, k)
        | none => some (i, f.key)
      else best)

/-- What placing a frame in the transmit queue gives: the queue, whether a frame was discarded (TX_DISCARD), and whether
the new frame was placed. -/
structure Placing where
  queue : List TxFrame
  discarded : Bool
  placed : Bool

/-- Places a frame in the transmit queue (R160). -/
def placeIn (f : TxFrame) (q : List TxFrame) : Placing :=
  if q.length < txPlaces then { queue := q ++ [f], discarded := false, placed := true }
  else
    match discardIndex (q ++ [f]) 0 none with
    | some i => { queue := (q ++ [f]).eraseIdx i, discarded := true, placed := i != q.length }
    | none => { queue := q, discarded := false, placed := false }

/-- The position of the first frame the column contends with next: lowest key, and among equal keys the one placed
earliest (R160). -/
def nextIndex : List TxFrame → Nat → Option (Nat × Nat) → Option Nat
  | [], _, best => best.map Prod.fst
  | f :: rest, i, best =>
    nextIndex rest (i + 1)
      (match best with
        | some (j, k) => if f.key < k then some (i, f.key) else some (j, k)
        | none => some (i, f.key))

/-- A frame of the column is being transmitted (R154). -/
def State.transmitting (s : State) : Bool := s.liu.tx.any (fun f => f.sending)

/-- The frame being transmitted. -/
def State.sending? (s : State) : Option TxFrame := s.liu.tx.find? (fun f => f.sending)

/-- Replaces the transmit queue. -/
def State.setTx (s : State) (q : List TxFrame) : State := s.setLiu { s.liu with tx := q }

/-- The frame is a PULSE_NOTE. -/
def TxFrame.isNote (f : TxFrame) : Bool :=
  match f.body with
  | .pulseNote _ _ _ => true
  | _ => false

/-- The frame is a PLACE_OFFER for the ticket. -/
def TxFrame.isOfferFor (t : Ticket) (f : TxFrame) : Bool :=
  match f.body with
  | .placeOffer u _ _ => u == t
  | _ => false

end Sys2Proof.Machine
end

