-- ==== Sys2Proof/Machine/Operands.lean ====
section
/-! DEFINITION. Frames and payloads: the check word, the kinds, the role check, the payload layouts of Table 11-2 both
ways, and the bits of a transmission. -/

namespace Sys2Proof.Machine

/-! ## The check word (R153) -/

/-- One bit into the check: generator x^16 + x^15 + x^2 + 1. -/
def crcBit (c : BitVec 16) (b : Bool) : BitVec 16 :=
  let shifted := c <<< 1
  if c.msb != b then shifted ^^^ 0x8005 else shifted

/-- The check over bits in the order sent: initial value all ones (R153). -/
def crcBits (bits : List Bool) : BitVec 16 := bits.foldl crcBit 0xFFFF

/-- The bits of a word, most significant first. -/
def bitsOf {n : Nat} (v : BitVec n) : List Bool := (List.range n).map (fun i => v.getMsbD i)

/-- The bits of bytes in the order sent. -/
def bitsOfBytes (bs : List Byte) : List Bool := bs.flatMap bitsOf

/-- The check word of stored bytes (R15, R172): computed as the frame check is. -/
def crcBytes (bs : List Byte) : BitVec 16 := crcBits (bitsOfBytes bs)

/-- The check word of a retained value (R15): the frame check over its bytes in the order stored. -/
def checkWord {α : Type} (what : Config.Retained) (value : α) : BitVec 16 := crcBytes (Config.storedBytes what value)

/-- The check word of a record copy (R15): over the slot number, the generation and the record contents. -/
def recordCheck (slot : Slot) (gen : BitVec 8) (content : CompRec) : BitVec 16 :=
  crcBytes (BitVec.ofNat 8 slot.val :: gen :: Config.storedBytes .record content)

/-- A record copy as a write of it that read back leaves it. -/
def RecCopy.written (slot : Slot) (gen : BitVec 8) (content : CompRec) : RecCopy :=
  { gen := gen, content := content, check := recordCheck slot gen content, ok := true }

/-- A count copy as a write of it that read back leaves it. -/
def CountCopy.written (what : Config.Retained) (value : Nat) : CountCopy :=
  { value := value, check := checkWord what value, ok := true }

/-- The stored cause set as a write of it that read back leaves it. -/
def CauseCopy.written (set : Causes) : CauseCopy := { set := set, check := checkWord .causes set, ok := true }

/-- The bits of a frame from the first class bit to the last payload bit (Table 11-1). -/
def headerBits (cls : BitVec 3) (rank : BitVec 8) (station kind dest : BitVec 6) (length : BitVec 5) : List Bool :=
  bitsOf cls ++ bitsOf rank ++ bitsOf station ++ bitsOf kind ++ bitsOf dest ++ bitsOf length

/-- The bits the check of a received frame covers. -/
def frameBits (f : Frame) : List Bool :=
  headerBits f.cls f.rank f.station f.kind f.dest f.length ++ bitsOfBytes f.payload

/-- The longest payload (R153). -/
def maxPayload : Nat := 20

/-- A receiver finds the frame good: length 0 to 20 and the check agrees (R155). -/
def frameGood (f : Frame) : Bool := decide (f.length.toNat ≤ maxPayload) && crcBits (frameBits f) == f.check

/-! ## Kinds and the role check (R158) -/

/-- What a kind number names (Table 11-4): an answer is any kind of class 2. -/
inductive LineKind where
  | pulseNote
  | powerState
  | placeOffer
  | answer
  | request (k : RequestKind)
deriving DecidableEq, Repr

/-- The kind of a kind number (Table 11-4). -/
def lineKind (k : BitVec 6) : Option LineKind :=
  match k.toNat with
  | 1 => some .pulseNote
  | 2 => some .powerState
  | 4 => some .placeOffer
  | 8 | 9 | 10 | 11 | 12 | 13 | 14 | 15 | 16 | 17 | 18 | 19 => some .answer
  | 24 => some (.request .placeCall)
  | 25 => some (.request .placeDetail)
  | 26 => some (.request .collectCall)
  | 27 => some (.request .payNote)
  | 28 => some (.request .collectGo)
  | 29 => some (.request .sweepCall)
  | 30 => some (.request .sweepGo)
  | 31 => some (.request .freeQuery)
  | 32 => some (.request .statusQuery)
  | 33 => some (.request .slotQuery)
  | 34 => some (.request .countQuery)
  | 35 => some (.request .countClear)
  | 36 => some (.request .outputSet)
  | 40 => some (.request .time)
  | 48 => some (.request .serviceOpen)
  | 49 => some (.request .serviceClear)
  | 50 => some (.request .serviceRetire)
  | 51 => some (.request .serviceRestore)
  | 52 => some (.request .serviceRestart)
  | 53 => some (.request .alertClear)
  | _ => none

/-- The class of a request's kind (Table 11-4). -/
def RequestKind.cls : RequestKind → Nat
  | .placeCall | .placeDetail | .collectCall | .payNote | .collectGo | .sweepCall | .sweepGo | .freeQuery
  | .statusQuery | .slotQuery | .countQuery | .countClear | .outputSet => 3
  | .time => 4
  | .serviceOpen | .serviceClear | .serviceRetire | .serviceRestore | .serviceRestart | .alertClear => 5

/-- The class of a kind (Table 11-4). -/
def LineKind.cls : LineKind → Nat
  | .pulseNote | .powerState => 0
  | .placeOffer => 1
  | .answer => 2
  | .request k => k.cls

/-- The sender is a terminal station: Tlo to Thi (Table 11-5). -/
def isTerminal (m : ConfigFields) (st : BitVec 6) : Bool :=
  st != 0 && decide (m.tlo.toNat ≤ st.toNat) && decide (st.toNat ≤ m.thi.toNat)

/-- The sender is the station a role field names; a field of 0 names none (R172). -/
def isRole (field st : BitVec 6) : Bool := st != 0 && st == field

/-- The sender is a service station named in the configuration. -/
def isService (m : ConfigFields) (st : BitVec 6) : Bool := isRole m.service1 st || isRole m.service2 st

/-- The role check of Table 11-5. A frame from station number 0 has no sender that is a station (entry 35). -/
def admitted (m : ConfigFields) (st : BitVec 6) : LineKind → Bool
  | .powerState => isRole m.supply st
  | .pulseNote | .placeOffer => st != 0 && !isTerminal m st && !isRole m.supply st && !isService m st
  | .answer => false
  | .request k =>
    match k.cls with
    | 3 => isTerminal m st
    | 4 => isRole m.time st
    | _ => isService m st

/-- What R158 decides of a frame taken by the line that another station sent. -/
inductive Verdict where
  | ignored
  | roleFailure
  | passed (k : LineKind)
deriving DecidableEq, Repr

/-- The tests of R158, in order, for a frame the column did not send. -/
def filterFrame (m : ConfigFields) (own : BitVec 6) (f : Frame) : Verdict :=
  if f.station = own then .roleFailure
  else
    match lineKind f.kind with
    | none => .ignored
    | some k =>
      if f.cls.toNat ≠ k.cls then .ignored
      else if f.dest ≠ 0 ∧ ¬(2 ≤ k.cls ∧ f.dest = own) then .ignored
      else if k.cls = 2 then .ignored
      else if admitted m f.station k then .passed k
      else .roleFailure

/-! ## Payload fields (R162) -/

/-- A byte of a payload. -/
def byteAt (p : List Byte) (i : Nat) : Nat := (p.getD i 0).toNat

/-- Two bytes, most significant first. -/
def wordAt (p : List Byte) (i : Nat) : Nat := byteAt p i * 256 + byteAt p (i + 1)

/-- Three bytes, most significant first. -/
def tripleAt (p : List Byte) (i : Nat) : Nat := wordAt p i * 256 + byteAt p (i + 2)

/-- Four bytes, most significant first. -/
def quadAt (p : List Byte) (i : Nat) : Nat := tripleAt p i * 256 + byteAt p (i + 3)

/-- The ticket number of a payload that begins with one. -/
def numberAt (p : List Byte) (i : Nat) : BitVec 16 := BitVec.ofNat 16 (wordAt p i)

/-- The ticket number a payload carries at its start, if it is long enough for one. -/
def number? (p : List Byte) : Option (BitVec 16) := if 2 ≤ p.length then some (numberAt p 0) else none

/-- The byte a payload carries at a place, if it is long enough. -/
def byte? (p : List Byte) (i : Nat) : Option Nat := (p[i]?).map (fun b => b.toNat)

/-- The parcel reference: 8 bytes, first byte sent most significant. -/
def refAt (p : List Byte) (i : Nat) : BitVec 64 := BitVec.ofNat 64 (quadAt p i * 4294967296 + quadAt p (i + 4))

/-- A POWER_STATE's level; above 3 is taken as 3 (R58). -/
def powerLevel (p : List Byte) : Option Nat := if 1 ≤ p.length then some (min (byteAt p 0) 3) else none

/-- The fields of a PULSE_NOTE (R65). -/
structure NoteFields where
  slot : BitVec 5
  duration : Nat
deriving DecidableEq, Repr

def decodeNote (p : List Byte) : Option NoteFields :=
  if 3 ≤ p.length then some { slot := BitVec.ofNat 5 (byteAt p 0), duration := byteAt p 1 } else none

/-- The ticket a PLACE_OFFER names (R96). -/
def decodeOffer (p : List Byte) : Option Ticket :=
  if 5 ≤ p.length then some { station := BitVec.ofNat 6 (byteAt p 0), number := numberAt p 1 } else none

/-- The fields of a PLACE_CALL (R92). -/
structure CallFields where
  number : BitVec 16
  size : Nat
  purpose : Nat
  carrier : Nat
deriving DecidableEq, Repr

def decodePlaceCall (p : List Byte) : Option CallFields :=
  if 5 ≤ p.length then
    some { number := numberAt p 0, size := byteAt p 2, purpose := byteAt p 3, carrier := byteAt p 4 }
  else none

/-- The fields of a PLACE_DETAIL (R103); the tariff class is the low 4 bits of its byte. -/
structure DetailFields where
  number : BitVec 16
  slot : Nat
  ref : BitVec 64
  code : Nat
  holding : Nat
  tariff : Nat
  cod : Nat
deriving DecidableEq, Repr

def decodePlaceDetail (p : List Byte) : Option DetailFields :=
  if 20 ≤ p.length then
    some { number := numberAt p 0, slot := byteAt p 2, ref := refAt p 3, code := tripleAt p 11, holding := wordAt p 14,
           tariff := byteAt p 16 % 16, cod := tripleAt p 17 }
  else none

/-- The fields of a PAY_NOTE (R128); the amount is the low 17 bits of its three bytes. -/
structure PayFields where
  number : BitVec 16
  slot : Nat
  quote : BitVec 16
  amount : Nat
deriving DecidableEq, Repr

def decodePayNote (p : List Byte) : Option PayFields :=
  if 8 ≤ p.length then
    some { number := numberAt p 0, slot := byteAt p 2, quote := numberAt p 3, amount := tripleAt p 5 % 131072 }
  else none

/-- The ticket and slots of a COLLECT_GO or SWEEP_GO: the slot count is the length minus 2 (R162). -/
structure GoFields where
  number : BitVec 16
  slots : List Nat
deriving DecidableEq, Repr

def decodeGo (p : List Byte) : Option GoFields :=
  if 2 ≤ p.length then some { number := numberAt p 0, slots := (p.drop 2).map (fun b => b.toNat) } else none

/-- A ticket with one further number: COLLECT_CALL's code, SWEEP_CALL's carrier, a service request's slot. -/
structure TicketValue where
  number : BitVec 16
  value : Nat
deriving DecidableEq, Repr

def decodeCollectCall (p : List Byte) : Option TicketValue :=
  if 5 ≤ p.length then some { number := numberAt p 0, value := tripleAt p 2 } else none

def decodeSweepCall (p : List Byte) : Option TicketValue :=
  if 3 ≤ p.length then some { number := numberAt p 0, value := byteAt p 2 } else none

def decodeService (p : List Byte) : Option TicketValue :=
  if 3 ≤ p.length then some { number := numberAt p 0, value := byteAt p 2 } else none

/-- The bank minute of a TIME frame (R111). -/
def decodeTime (p : List Byte) : Option Nat := if 4 ≤ p.length then some (quadAt p 0) else none

/-- The mask of an ALERT_CLEAR: positions beyond the fourteen are ignored (R165). -/
def decodeMask (p : List Byte) : Option (BitVec 14) :=
  if 2 ≤ p.length then some (BitVec.ofNat 14 (wordAt p 0)) else none

/-- The four settings of an OUTPUT_SET (R77). -/
def decodeOutputSet (p : List Byte) : Option (Vector Nat 4) :=
  if 4 ≤ p.length then some #v[byteAt p 0, byteAt p 1, byteAt p 2, byteAt p 3] else none

/-! ## Encoding (R162) and the bits of a transmission (R153) -/

/-- A number as two bytes, most significant first. -/
def bytes2 (n : Nat) : List Byte := [BitVec.ofNat 8 (n / 256), BitVec.ofNat 8 n]

/-- A number as three bytes, most significant first. -/
def bytes3 (n : Nat) : List Byte := BitVec.ofNat 8 (n / 65536) :: bytes2 n

/-- The door kind codes of R162. -/
def DoorKind.code : DoorKind → Nat
  | .deposit => 0
  | .collect => 1
  | .sweep => 2
  | .service => 3

/-- The payload of a frame whose layout Table 11-2 gives. -/
def knownPayload : Body → Option (List Byte)
  | .pulseNote slot duration kind =>
    some [BitVec.ofNat 8 slot.val, BitVec.ofNat 8 duration, BitVec.ofNat 8 kind.code]
  | .placeOffer t slot size =>
    some ([BitVec.ofNat 8 t.station.toNat] ++ bytes2 t.number.toNat ++ [BitVec.ofNat 8 slot.val, BitVec.ofNat 8 size])
  | .collectMatch number slot carrier quote due ahead lost estimated =>
    some (bytes2 number.toNat ++ [BitVec.ofNat 8 slot.val, BitVec.ofNat 8 carrier] ++ bytes2 quote.toNat ++ bytes3 due
      ++ bytes2 ahead ++ [BitVec.ofNat 8 (lost.toNat + 2 * estimated.toNat)])
  | _ => none

/-- The payload sent: as Table 11-2 lays it out, and where it gives no layout a free value of at most 20 bytes. -/
def payloadOf (b : Body) (free : Nat) : List Byte :=
  match knownPayload b with
  | some p => p
  | none => (Config.answerPayload b.kindNumber free).take maxPayload

/-- The bits of a transmission from the start bit to the check (Table 11-1): dominant, which stands for 0, is `false`. -/
def transmissionBits (own : BitVec 6) (f : TxFrame) (free : Nat) : List Bool :=
  let payload := payloadOf f.body free
  let covered :=
    headerBits (BitVec.ofNat 3 f.body.cls) (BitVec.ofNat 8 f.rank) own (BitVec.ofNat 6 f.body.kindNumber) f.dest
      (BitVec.ofNat 5 payload.length) ++ bitsOfBytes payload
  false :: (covered ++ bitsOf (crcBits covered))

end Sys2Proof.Machine
end

