-- ==== Sys2Proof/Machine/Flags.lean ====
section
/-! DEFINITION. The Report Unit's operations: conditions, attention and ALERT (R163, R164), placing a frame (R160), the
activity counters (R166), refusals; and the Output Unit's states (R76). -/

namespace Sys2Proof.Machine

/-! ## Conditions and attention -/

/-- The mask position of a condition (R165). -/
def Condition.pos : Condition → Nat
  | .forced => 0
  | .jam => 1
  | .bolt => 2
  | .latch => 3
  | .unsecure => 4
  | .store => 5
  | .foreign => 6
  | .presenceLost => 7
  | .ajar => 8
  | .lineDrop => 9
  | .overrun => 10
  | .txDiscard => 11
  | .timeFault => 12
  | .configClamp => 13

/-- The condition's bit of the set. -/
def Condition.bit (c : Condition) : BitVec 14 := 1#14 <<< c.pos

/-- Whether a condition is set. -/
def Rpt.isSet (r : Rpt) (c : Condition) : Bool := (r.conds &&& c.bit) != 0#14

/-- Attention: some condition is both set and enabled (R164). -/
def attentionOf (conds enables : BitVec 14) : Bool := (conds &&& enables) != 0#14

/-- Sets a condition, with its slot if it has one, and recomputes attention (R163, R164). -/
def State.mark (c : Condition) (slot : Option Slot) (s : State) : State :=
  let conds := s.rpt.conds ||| c.bit
  s.setRpt { s.rpt with
    conds := conds
    lastFault := match slot with | some x => some x | none => s.rpt.lastFault
    attention := attentionOf conds s.conf.enables }

/-- The ALERT as it stands now (R164). -/
def State.alertFrame (s : State) : TxFrame := TxFrame.fresh (.alert s.rpt.conds s.rpt.lastFault) 0 0

/-- Queues one ALERT if attention has risen from `before` (R164). A discard it makes sets TX_DISCARD; attention is true
already, so no further ALERT follows. -/
def State.alertIfRisen (before : Bool) (s : State) : State :=
  if !before && s.rpt.attention then
    let p := placeIn s.alertFrame s.liu.tx
    let s := s.setTx p.queue
    if p.discarded then s.mark .txDiscard none else s
  else s

/-- A block raises a condition, with a slot or without one (R163). -/
def State.raise (c : Condition) (slot : Option Slot) (s : State) : State :=
  (s.mark c slot).alertIfRisen s.rpt.attention

/-- Places a frame of class 2 in the transmit queue; a discard raises TX_DISCARD (R160). -/
def State.queueFrame (f : TxFrame) (s : State) : State :=
  let p := placeIn f s.liu.tx
  let s := s.setTx p.queue
  if p.discarded then s.raise .txDiscard none else s

/-- Queues an answer: class 2, rank 0, to one station (R153). -/
def State.answer (dest : BitVec 6) (b : Body) (s : State) : State := s.queueFrame (TxFrame.fresh b 0 dest)

/-! ## Activity counters (R166) -/

/-- The counter event kinds, in the order of Table 12-2. -/
inductive EventKind where
  | enterState
  | doorCycle
  | pulseFired
  | pulseDenied
  | offerMade
  | offerWon
  | refusal
  | lineError
deriving DecidableEq, Repr

/-- The configuration's number for an event kind: its place in Table 12-2 (entry 17). -/
def EventKind.number : EventKind → Nat
  | .enterState => 0
  | .doorCycle => 1
  | .pulseFired => 2
  | .pulseDenied => 3
  | .offerMade => 4
  | .offerWon => 5
  | .refusal => 6
  | .lineError => 7

/-- An event passes a counter's kind, mask and carrier filter (R166). -/
def counts (c : CounterSetting) (k : EventKind) (value : Option Nat) (carrier : Nat) : Bool :=
  c.kind == k.number
    && (match value with | some v => c.mask.getLsbD v | none => true)
    && (c.filter == 0 || c.filter == carrier)

/-- Gives an activity event to the counters (R166); a counter wraps. -/
def State.count (k : EventKind) (value : Option Nat) (carrier : Nat) (s : State) : State :=
  s.setRpt { s.rpt with
    counters := vzip (fun c n => if counts c k value carrier then n + 1 else n) s.conf.counters
      s.rpt.counters }

/-- The mask position of a refusal reason (R166). -/
def Reason.pos : Reason → Nat
  | .busy => 0
  | .noSuch => 1
  | .state => 2
  | .unpaid => 3
  | .expired => 4
  | .power => 5
  | .notSecure => 6
  | .stale => 7
  | .format => 8

/-- The mask position of an entered compartment state (R166). -/
def CompTag.pos : CompTag → Nat
  | .empty => 0
  | .offered => 1
  | .held => 2
  | .occupied => 3
  | .releasing => 4
  | .fault => 5
  | .retired => 6

/-- The mask position of EXPIRY (R166). -/
def expiryPos : Nat := 7

/-- The mask position of a door outcome, in the order of Table 4-3 (R166). -/
def Outcome.pos : Outcome → Nat
  | .securedPresent => 0
  | .securedAbsent => 1
  | .notOpenedJam => 2
  | .notOpenedBolt => 3
  | .abandoned => 4
  | .latchFault _ => 5
  | .forced => 6

/-- A refusal event without a frame (R166). -/
def State.refusalEvent (r : Reason) (carrier : Nat) (s : State) : State := s.count .refusal (some r.pos) carrier

/-- Queues a REFUSE to a station, with its REFUSAL event (R166). DESIGN CHOICE: the event is given also where the REFUSE finds a
full transmit queue and is itself discarded (entry 45). -/
def State.refuse (dest : BitVec 6) (number : Option (BitVec 16)) (slot : Option Nat) (r : Reason) (carrier : Nat)
    (s : State) : State :=
  (s.answer dest (.refuse number slot r)).refusalEvent r carrier

/-! ## Outputs (R76) -/

/-- An output is on while its demand is on and the bank level is below its shed level (R76). -/
def outputOn (demand : Bool) (level shed : Nat) : Bool := demand && decide (level < shed)

/-- Re-evaluates every lamp and auxiliary output (R76). -/
def State.refreshOutputs (s : State) : State :=
  s.setOut { s.out with
    lampActual := tmap (fun d => outputOn d s.bgu.level s.conf.lampShed) s.out.lampDemand
    auxActual := vzip (fun d sh => outputOn d s.bgu.level sh) s.out.auxDemand s.conf.auxShed }

/-- The Door Sequencer sets a slot's lamp demand (R55, R77). -/
def State.setLamp (slot : Slot) (on : Bool) (s : State) : State :=
  (s.setOut { s.out with lampDemand := tset s.out.lampDemand slot on }).refreshOutputs

end Sys2Proof.Machine
end

