-- ==== Sys2Proof/Machine/Table.lean ====
section
/-! DEFINITION. The Compartment Table and the write path to the custody store (chapter 2): a change of a record, the
write it makes, who waits for it, and the changes that other chapters ask for. -/

namespace Sys2Proof.Machine

/-! ## A change of a record -/

/-- The condition raised for a fault cause (Table 2-5). -/
def FaultCause.condition : FaultCause → Condition
  | .jam => .jam
  | .bolt => .bolt
  | .latch => .latch
  | .forced => .forced
  | .unsecure => .unsecure
  | .unresolved => .foreign
  | .store => .store
  | .foreign => .foreign

/-- The purpose of the parcel record a compartment holds. -/
def CompState.purpose? (c : CompState) : Option Purpose := c.parcel?.map (fun p => p.purpose)

/-- The ENTER_STATE value of a change, if it gives an event (R166): another state, another fault cause, or EXPIRY. -/
def enterValue (old new : CompState) : Option Nat :=
  if old.tag ≠ new.tag ∨ old.cause? ≠ new.cause? then some new.tag.pos
  else if old.purpose? = some .delivery ∧ new.purpose? = some .expired then some expiryPos
  else none

/-- The carrier of an ENTER_STATE event (R166): of the record before the change, else after it, else the call's for a
compartment that enters OFFERED or HELD. -/
def enterCarrier (old new : CompState) (call : Nat) : Nat :=
  match old.parcel? with
  | some p => p.carrier
  | none =>
    match new.parcel? with
    | some p => p.carrier
    | none => call

/-- The copy a write goes to, and the copy that stands beside it (R15): the one that is not current. A damaged record has
no current copy, and which copy is written is a free value (entry 13). -/
def SlotStore.target (x : SlotStore) (free : Nat) : Bool :=
  match x.current with
  | some isB => !isB
  | none => Config.damagedWritesB free

/-- The generation a write carries: that of the copy beside it plus 1, wrapping (R15). -/
def SlotStore.nextGen (x : SlotStore) (toB : Bool) : BitVec 8 := if toB then x.a.gen + 1 else x.b.gen + 1

/-- Begins a write of the slot's record as it stands (R15). -/
def State.beginWrite (slot : Slot) (waiters : List Waiter) (cause : WriteCause) (s : State) : State :=
  match s.rec? slot with
  | none => s
  | some r =>
    let x := s.store slot
    let toB := x.target s.free
    let w : RecWrite :=
      { toB := toB, gen := x.nextGen toB, content := r, second := false, cause := cause, waiters := waiters }
    (s.setStore slot { x with writing := some w, again := none }).setFree
      (if x.current.isNone then s.free + 1 else s.free)

/-- A change is written at once, or after the write in progress (R16). -/
def State.scheduleWrite (slot : Slot) (s : State) : State :=
  let x := s.store slot
  match x.writing with
  | none => s.beginWrite slot [] .change
  | some _ => s.setStore slot { x with again := some (x.again.getD []) }

/-- A unit waits for the last change of the slot to be written; `none` when no write is in progress (R16). -/
def State.attach (slot : Slot) (w : Waiter) (s : State) : Option State :=
  let x := s.store slot
  match x.again, x.writing with
  | some ws, _ => some (s.setStore slot { x with again := some (ws ++ [w]) })
  | none, some wr => some (s.setStore slot { x with writing := some { wr with waiters := wr.waiters ++ [w] } })
  | none, none => none

/-- The event an ENTER_STATE change gives. -/
def State.enterEvent (old new : CompState) (call : Nat) (s : State) : State :=
  match enterValue old new with
  | some v => s.count .enterState (some v) (enterCarrier old new call)
  | none => s

/-- The condition an entry into FAULT, or a change of cause, raises (R10). -/
def State.raiseCause (old new : CompState) (slot : Slot) (s : State) : State :=
  match new.cause? with
  | some c => if old.cause? = some c then s else s.raise c.condition (some slot)
  | none => s

/-- A change of a slot's record: the working table, its activity event, its condition, and its write (R10, R15, R166).
A record left as it was is no change, and makes no write (entry 50). -/
def State.change (slot : Slot) (new : CompRec) (call : Nat) (s : State) : State :=
  match s.rec? slot with
  | none => s
  | some old =>
    if old = new then s
    else
      (((s.setRec slot new).enterEvent old.state new.state call).raiseCause old.state new.state slot).scheduleWrite slot

/-! ## Records built from others -/

/-- EMPTY, the parcel record removed and with it the presence-lost flag (R2). -/
def CompRec.emptied (foreign : Bool) : CompRec := { state := .empty, foreign := foreign, lost := false }

/-- FAULT with a cause, keeping or removing the record; removing it clears the presence-lost flag (R2). -/
def CompRec.faulted (r : CompRec) (cause : FaultCause) (parcel : Option Parcel) : CompRec :=
  { state := .fault cause parcel, foreign := r.foreign, lost := r.lost && parcel.isSome }

/-- OCCUPIED with a record; the foreign flag is cleared (R13). -/
def CompRec.occupiedBy (r : CompRec) (p : Parcel) : CompRec := { state := .occupied p, foreign := false, lost := r.lost }

/-- A compartment goes back to EMPTY with the entry check of R37. -/
def State.emptyChecked (slot : Slot) (s : State) : State :=
  let on := (s.sense slot).presenceIsOn
  let s := s.change slot (CompRec.emptied on) 0
  if on then s.raise .foreign (some slot) else s

/-- A mapped change; entry into OCCUPIED makes the presence test of R38 after the fields are set. -/
def State.changeTested (slot : Slot) (new : CompRec) (s : State) : State :=
  match s.rec? slot with
  | none => s
  | some old =>
    if old.state.tag ≠ .occupied ∧ new.state.tag = .occupied ∧ (s.sense slot).presenceIsOff then
      (s.change slot { new with lost := true } 0).raise .presenceLost (some slot)
    else s.change slot new 0

/-- What a forced report to the Compartment Table makes of a record (R9). -/
def forcedRec (r : CompRec) : CompRec :=
  match r.state with
  | .empty | .offered _ | .held _ _ | .occupied _ => r.faulted .forced r.state.parcel?
  | .releasing _ | .fault _ _ | .retired => r

/-- A forced report taken by the Compartment Table (R9). -/
def State.forceTable (slot : Slot) (s : State) : State :=
  match s.rec? slot with
  | none => s
  | some r => s.change slot (forcedRec r) 0

/-! ## Expiry (R7, R114, R115) -/

/-- The minute has reached the parcel's expiry minute D + H, computed exactly (R114). -/
def Parcel.due (p : Parcel) (minute : Nat) : Bool :=
  match p.limit with
  | some h => decide (p.deposit + h ≤ minute)
  | none => false

/-- The parcel is treated as expired at a minute (R115). -/
def State.treatedExpired (s : State) (p : Parcel) (minute : Nat) : Bool :=
  match p.purpose with
  | .expired => true
  | .delivery => s.clk.synced && p.due minute
  | .carrierReturn => false

/-- Marks an OCCUPIED(DELIVERY) parcel EXPIRED; any other record is unchanged (R7). -/
def State.expire (slot : Slot) (s : State) : State :=
  match s.rec? slot with
  | none => s
  | some r =>
    match r.state with
    | .occupied p =>
      if p.purpose = .delivery then s.change slot { r with state := .occupied { p with purpose := .expired } } 0 else s
    | _ => s

/-! ## Lock-cycle counts (R14) and the reset-cause set (R19) -/

/-- The largest lock-cycle count and paid total. -/
def count24Max : Nat := 16777215

/-- The copy holding the older count; a copy that fails its check counts as the older. Equal copies: copy A (entry 16). -/
def Locks.olderIsB (x : Locks) : Bool :=
  if !x.a.ok then false else if !x.b.ok then true else decide (x.b.value < x.a.value)

/-- Begins the write of the count in force. -/
def Locks.begin (x : Locks) : Locks := { x with writing := some (x.olderIsB, x.count), again := false }

/-- One pulse fired: the count goes up by 1, saturating, and is written; nothing waits on the write (R14). DESIGN CHOICE: a
pulse fired while a write of the count is in progress lets that write end, and then the latest count is written, once
(entry 42). -/
def Locks.fired (x : Locks) : Locks :=
  let y := { x with count := min (x.count + 1) count24Max }
  if y.writing.isSome then { y with again := true } else y.begin

/-- The reset-cause set is composed and its write begun (R19). -/
def State.writeCauses (c : Causes) (s : State) : State :=
  s.setCts { s.cts with causes := c, causeWriting := some c }

/-- The union of two cause sets. -/
def causeUnion (x y : Causes) : Causes :=
  { power := x.power || y.power, brownout := x.brownout || y.brownout, pin := x.pin || y.pin,
    restart := x.restart || y.restart }

end Sys2Proof.Machine
end

