-- ==== Sys2Proof/Machine/Tariff.lean ====
section
/-! DEFINITION. The Tariff Engine (chapter 9): charge minute, storage charge, amount due, validity and quotes. All in
exact integers, so nothing wraps before a cap (section 9.2). -/

namespace Sys2Proof.Machine

/-- Minutes in a day. -/
def dayMinutes : Nat := 1440

/-- The quotient rounded up. -/
def ceilDiv (a b : Nat) : Nat := (a + b - 1) / b

/-- The tariff of a parcel's class (R120). -/
def tariffOf (m : ConfigFields) (p : Parcel) : Tariff :=
  if h : p.tariff < 8 then m.tariffs[p.tariff] else m.tariffs[0]

/-- The multiplier of a size class 1 to 4 (R120). -/
def multiplierOf (m : ConfigFields) (size : Nat) : Nat :=
  if h : size - 1 < 4 then m.multipliers[size - 1] else m.multipliers[0]

/-- The settlement grace is in force at minute T (R121, R131). -/
def graceInForce (m : ConfigFields) (p : Parcel) (t : Nat) : Bool :=
  match p.settled with
  | some z => decide (t < z + m.grace)
  | none => false

/-- A minute reduced to the expiry minute D + H if that is smaller (R121, R125). -/
def Parcel.capAtLimit (p : Parcel) (t : Nat) : Nat :=
  match p.limit with
  | some h => min t (p.deposit + h)
  | none => t

/-- The charge minute at T (R121). -/
def chargeMinute (m : ConfigFields) (p : Parcel) (t : Nat) : Nat :=
  p.capAtLimit (if graceInForce m p t then p.settled.getD t else t)

/-- The charge minute at T without the grace (R130, step 3). -/
def chargeMinuteNoGrace (p : Parcel) (t : Nat) : Nat := p.capAtLimit t

/-- The billable minutes b at a charge minute, 0 where they would be 0 or less (R122). -/
def billable (tf : Tariff) (p : Parcel) (charge : Nat) : Nat := charge - p.deposit - tf.free

/-- The sized step price (R122). -/
def sizedPrice (tf : Tariff) (mult : Nat) : Nat := (tf.price * mult + 4) / 8

/-- The day charge (R123, steps 1 and 2). -/
def dayCharge (tf : Tariff) (mult : Nat) : Nat := min tf.capDay (ceilDiv dayMinutes tf.step * sizedPrice tf mult)

/-- The charge of the remainder of a day (R123, step 3). -/
def remainderCharge (tf : Tariff) (mult rem : Nat) : Nat :=
  if rem = 0 then 0 else min tf.capDay (ceilDiv rem tf.step * sizedPrice tf mult)

/-- The storage charge for b billable minutes (R122, R123). -/
def storageFor (tf : Tariff) (mult b : Nat) : Nat :=
  if b = 0 then 0
  else min tf.capMax (b / dayMinutes * dayCharge tf mult + remainderCharge tf mult (b % dayMinutes))

/-- The storage charge of a parcel at a charge minute. -/
def storageAt (m : ConfigFields) (size : Nat) (p : Parcel) (charge : Nat) : Nat :=
  let tf := tariffOf m p
  storageFor tf (multiplierOf m size) (billable tf p charge)

/-- The amount due at a charge minute: storage plus COD less paid, or 0 (R124). -/
def dueAt (m : ConfigFields) (size : Nat) (p : Parcel) (charge : Nat) : Nat :=
  storageAt m size p charge + p.cod - p.paid

/-- The amount due of a parcel at T, with the grace (R124). -/
def amountDue (m : ConfigFields) (size : Nat) (p : Parcel) (t : Nat) : Nat := dueAt m size p (chargeMinute m p t)

/-- The amount due at T without the grace (R130, step 3). -/
def amountDueNoGrace (m : ConfigFields) (size : Nat) (p : Parcel) (t : Nat) : Nat :=
  dueAt m size p (chargeMinuteNoGrace p t)

/-- The valid-until minute before the holding limit, no grace in force (R125). -/
def validFrom (tf : Tariff) (p : Parcel) (t charge : Nat) : Nat :=
  let b := billable tf p charge
  if b = 0 then p.deposit + tf.free + 1
  else
    let rem := b % dayMinutes
    let r := rem % tf.step
    if r = 0 then t + 1 else t + 1 + min (tf.step - r) (dayMinutes - rem)

/-- The valid-until minute V of a quote at T (R125). -/
def validUntil (m : ConfigFields) (p : Parcel) (t : Nat) : Nat :=
  p.capAtLimit
    (if graceInForce m p t then p.settled.getD t + m.grace
     else validFrom (tariffOf m p) p t (chargeMinute m p t))

/-- The minutes ahead a frame carries: V − T, saturated at 65,535, and 0 when V is not after T (R126). -/
def minutesAhead (v t : Nat) : Nat := min (v - t) 65535

/-- The quote of a parcel in a slot at T with the number the counter holds (R125, R126). -/
def State.quoteFor (s : State) (slot : Slot) (p : Parcel) (t : Nat) : Quote :=
  { number := s.quoteCounter, due := amountDue s.conf (s.size slot) p t, valid := validUntil s.conf p t, minute := t }

/-- A quote becomes the slot's current quote in its COLLECT entry; a slot that is DONE has none (R126). DESIGN CHOICE: the
entry is found by its ticket, so a payment's quote whose own entry has ended becomes the current quote of an entry of the same
ticket that lists the slot by then (entry 55). -/
def State.keepQuote (j : Job) (slot : Slot) (q : Quote) (s : State) : State :=
  s.updEntry j (fun e => e.updSlot slot (fun x => if x.progress = .done then x else { x with quote := some q }))

/-- Issues a quote: it takes the counter's value, the counter goes up by 1, and the entry keeps it (R126). -/
def State.issueQuote (j : Job) (slot : Slot) (p : Parcel) (t : Nat) (s : State) : State :=
  (s.keepQuote j slot (s.quoteFor slot p t)).setQuoteCounter (s.quoteCounter + 1)

/-- The QUOTE frame of a quote (Table 9-4). The expired flag is judged at the quote's minute T, with the sync state as it stands
when the QUOTE is composed: for a payment's QUOTE, when its write has ended (DESIGN CHOICE, entry 27). -/
def State.quoteBody (s : State) (j : Job) (slot : Slot) (p : Parcel) (q : Quote) (excess : Nat) : Body :=
  .quote j.ticket.number slot q.number q.due (minutesAhead q.valid q.minute) excess p.paid
    (graceInForce s.conf p q.minute) (s.treatedExpired p q.minute)

end Sys2Proof.Machine
end

