-- ==== Sys2Proof/Machine/Requests.lean ====
section
/-! DEFINITION. The Open Request Table (chapter 6): creation, holds and their release, deferred expiry, ends of entries,
and the answers that wait for a write. -/

namespace Sys2Proof.Machine

/-! ## Entries -/

/-- The places of the Open Request Table (R79). -/
def ortPlaces : Nat := 8

/-- All entry places are in use (R82). -/
def State.ortFull (s : State) : Bool := decide (ortPlaces ≤ s.ort.length)

/-- A slot of an entry as it is created. -/
def EntrySlot.fresh (slot : Slot) : EntrySlot := { slot := slot, progress := .matched, quote := none, mark := false }

/-- An entry as it is created (R79): its kind, ticket and slots; the rest is filled in by its kind. -/
def Entry.fresh (j : Job) (slots : List Slot) (stage : EntryStage) : Entry :=
  { ticket := j.ticket, kind := j.kind, sub := none, slots := slots.map EntrySlot.fresh, stage := stage,
    timer := some 0, purpose := .delivery, carrier := 0, code := 0, more := false, ref := 0, ending := false }

/-- A new entry joins the table at the end of the arrival order (R79). -/
def State.addEntry (e : Entry) (s : State) : State := s.setOrt (s.ort ++ [e])

/-- Some slot is held by an entry or named by a waiting one: a new entry on it waits (R85). -/
def State.blocked (s : State) (slots : List Slot) : Bool :=
  slots.any (fun x => (s.holder? x).isSome || s.awaited x)

/-- Sets the stage of an entry and its lapse timer (R83, R87). -/
def Entry.toStage (stage : EntryStage) (timer : Option Nat) (e : Entry) : Entry := { e with stage := stage, timer := timer }

/-! ## Deferred expiry and release of holds (R84, R89, R118) -/

/-- The deferred expiry of a released slot, judged at once by Table 8-3 (R118). -/
def State.deferredExpiry (slot : Slot) (s : State) : State :=
  match s.parcel? slot with
  | none => s
  | some p => if s.clk.synced && p.due s.clk.minute && (s.holder? slot).isNone then s.expire slot else s

/-- The slots of an entry whose hold is released at its end and whose pending expiry mark is set. -/
def Entry.markedHeld (e : Entry) : List Slot :=
  if e.stage = .waiting then []
  else (e.slots.filter (fun x => x.mark && x.progress != .done)).map (fun x => x.slot)

/-- An entry ends: holds released, place freed, deferred expiries judged (R89). The eligibility test follows in `settle`: DESIGN
CHOICE, since R86 and R118 allow a deferred expiry and a re-evaluation after one release in either order (entry 43). -/
def State.finishEntry (j : Job) (s : State) : State :=
  match s.entry? j with
  | none => s
  | some e => e.markedHeld.foldl (fun s slot => s.deferredExpiry slot) (s.dropEntry j)

/-- The pending expiry mark of an entry's slot. -/
def State.markOf (s : State) (j : Job) (slot : Slot) : Bool :=
  match (s.entry? j).bind (fun e => e.slot? slot) with
  | some x => x.mark
  | none => false

/-- A slot becomes done: its hold is released, and a pending expiry mark goes to the clock (R84, R89), before any re-evaluation
(DESIGN CHOICE, entry 43). -/
def State.releaseSlot (j : Job) (slot : Slot) (s : State) : State :=
  let marked := s.markOf j slot
  let s := s.updEntry j (fun e => e.updSlot slot (fun x => { x with progress := .done, quote := none, mark := false }))
  if marked then s.deferredExpiry slot else s

/-- A slot is released and removed from the list, as a SWEEP_GO does (R84, R146), and a pending expiry mark goes to the clock
before any re-evaluation (DESIGN CHOICE, entry 43). -/
def State.removeSlot (j : Job) (slot : Slot) (s : State) : State :=
  let marked := s.markOf j slot
  let s := s.updEntry j (fun e => { e with slots := e.slots.filter (fun x => x.slot != slot) })
  if marked then s.deferredExpiry slot else s

/-- Every slot of the entry is done. -/
def Entry.allDone (e : Entry) : Bool := e.slots.all (fun x => x.progress == .done)

/-- Some slot of the entry is in DOOR. -/
def Entry.anyDoor (e : Entry) : Bool := e.slots.any (fun x => x.progress == .door)

/-- The collect lapse starts again from zero unless a slot is in DOOR (R87). -/
def Entry.restartLapse (e : Entry) : Entry := { e with timer := if e.anyDoor then none else some 0 }

/-- After a slot of a COLLECT or SWEEP entry is done: the entry ends when all are (R89); otherwise a COLLECT's lapse
starts again once no slot is in DOOR (R87). -/
def State.endIfDone (j : Job) (s : State) : State :=
  match s.entry? j with
  | none => s
  | some e =>
    if e.allDone then s.finishEntry j
    else if e.kind = .collect then s.updEntry j Entry.restartLapse
    else s

/-- A slot of a COLLECT or SWEEP entry is done (R144). -/
def State.slotDone (j : Job) (slot : Slot) (s : State) : State := (s.releaseSlot j slot).endIfDone j

/-- Sets the progress of an entry's slot; a slot whose hold has been released stays DONE (R84). -/
def State.setProgress (j : Job) (slot : Slot) (p : Progress) (s : State) : State :=
  s.updEntry j (fun e => e.updSlot slot (fun x => if x.progress = .done then x else { x with progress := p }))

/-! ## Answers that wait for a write -/

/-- The parcel reference an entry recorded from its detail. -/
def State.entryRef (s : State) (j : Job) : BitVec 64 :=
  match s.entry? j with
  | some e => e.ref
  | none => 0

/-- The parcel reference of the record a compartment holds, zeros without one (R144). -/
def State.parcelRef (s : State) (slot : Slot) : BitVec 64 :=
  match s.parcel? slot with
  | some p => p.ref
  | none => 0

/-- A PLACE entry's key. -/
def placeJob (t : Ticket) : Job := { kind := .place, ticket := t }

/-- A COLLECT entry's key. -/
def collectJob (t : Ticket) : Job := { kind := .collect, ticket := t }

/-- A SWEEP entry's key. -/
def sweepJob (t : Ticket) : Job := { kind := .sweep, ticket := t }

/-- A SERVICE entry's key. -/
def serviceJob (t : Ticket) : Job := { kind := .service, ticket := t }

/-- PLACE_DONE is queued and its entry ends (R107). -/
def State.placeDone (t : Ticket) (slot : Slot) (r : DepositResult) (s : State) : State :=
  (s.answer t.station (.placeDone t.number slot r (s.entryRef (placeJob t)))).finishEntry (placeJob t)

/-- What follows a door cycle's RELEASE_DONE: the slot is done, or the SERVICE entry ends (R144, R147). -/
def State.afterRelease (j : Job) (slot : Slot) (s : State) : State :=
  match j.kind with
  | .collect | .sweep => s.slotDone j slot
  | .service => s.finishEntry j
  | .place => s

/-- RELEASE_DONE of a door cycle is queued (R144). -/
def State.releaseDone (j : Job) (slot : Slot) (r : ReleaseResult) (ref : BitVec 64) (s : State) : State :=
  (s.answer j.ticket.station (.releaseDone j.ticket.number slot r ref)).afterRelease j slot

/-- The compartment is FAULT(STORE). -/
def State.storeFaulted (s : State) (slot : Slot) : Bool :=
  match s.rec? slot with
  | some r => r.storeFaulted
  | none => false

/-- RELEASE_DONE of a request carried out at once; a change whose write failed is answered FAULT (R149, R150). -/
def State.serviceDone (t : Ticket) (slot : Slot) (r : ReleaseResult) (ref : BitVec 64) (s : State) : State :=
  let result := if s.storeFaulted slot then ReleaseResult.fault else r
  (s.answer t.station (.releaseDone t.number slot result ref)).finishEntry (serviceJob t)

/-- The QUOTE that answers a payment (R130, step 6), computed from the record as it now stands; if the record is gone,
from the record as paid (entry 27). DESIGN CHOICE: the quote is kept by ticket, also in an entry of that ticket created after the
payment's own entry ended, with the payment's T as its minute (R126; entry 55). -/
def State.paymentQuote (t : Ticket) (slot : Slot) (excess minute : Nat) (paid : Parcel) (s : State) : State :=
  let p := (s.parcel? slot).getD paid
  let q := s.quoteFor slot p minute
  (s.issueQuote (collectJob t) slot p minute).answer t.station (s.quoteBody (collectJob t) slot p q excess)

/-- A unit that waits only to answer goes on (R16). The two waiters that ask for a door go on in `release`. -/
def State.releaseAnswer (slot : Slot) (w : Waiter) (s : State) : State :=
  match w with
  | .placeDone t r => s.placeDone t slot r
  | .releaseDone j r ref => s.releaseDone j slot r ref
  | .serviceDone t r ref => s.serviceDone t slot r ref
  | .payment t excess minute p => s.paymentQuote t slot excess minute p
  | .endEntry j => s.finishEntry j
  | .cycleStart => s
  | .detail _ => s

/-- Waits for the slot's last change to be written, or goes on at once when nothing is being written (R16). DESIGN CHOICE: an
outcome or a payment that changes no record waits for a write in progress of the slot too (entry 50). -/
def State.await (slot : Slot) (w : Waiter) (s : State) : State :=
  match s.attach slot w with
  | some s' => s'
  | none => s.releaseAnswer slot w

/-! ## The end of a promise (R5, R37, R88, R100, R101) -/

/-- The compartment still carries the ticket's promise, OFFERED, or HELD without a record. -/
def CompRec.promised (r : CompRec) (t : Ticket) : Bool :=
  match r.state with
  | .offered u => u == t
  | .held u none => u == t
  | _ => false

/-- A PLACE entry's work is over; it ends when the slot's write has ended (R89). -/
def State.closePlace (t : Ticket) (slot : Slot) (s : State) : State :=
  (s.updEntry (placeJob t) (fun e => { e with timer := none, ending := true })).await slot (.endEntry (placeJob t))

/-- A promise ends by loss, lapse or drop: the compartment returns to EMPTY with the entry check of R37 if it still carries
the promise, and the PLACE entry ends (R5, R6, R89). DESIGN CHOICE: where it no longer carries the promise the entry ends at once,
also while a write of the slot is in progress (entry 53). -/
def State.endPromise (t : Ticket) (slot : Slot) (s : State) : State :=
  match s.rec? slot with
  | some r => if r.promised t then (s.emptyChecked slot).closePlace t slot else s.finishEntry (placeJob t)
  | none => s.finishEntry (placeJob t)

/-- Takes an offer for the ticket out of the transmit queue; one being transmitted is removed when its transmission
ends (R101). -/
def State.withdrawOffer (t : Ticket) (s : State) : State :=
  s.setTx ((s.liu.tx.filter (fun f => !(f.isOfferFor t && !f.sending))).map
    (fun f => if f.isOfferFor t then { f with withdrawn := true } else f))

/-- The slot of a PLACE or SERVICE entry. -/
def Entry.firstSlot? (e : Entry) : Option Slot := e.slots.head?.map (fun x => x.slot)

/-- The promise of a dropped or withdrawn offer ends: its PLACE entry in PROMISED, if it is still in the table. -/
def State.endOffer (t : Ticket) (s : State) : State :=
  match s.entry? (placeJob t) with
  | none => s
  | some e =>
    match e.firstSlot? with
    | some slot => if e.stage = .promised ∧ e.ending = false then s.endPromise t slot else s
    | none => s

end Sys2Proof.Machine
end

