-- ==== Sys2Proof/Machine/Notes.lean ====
section
/-! DEFINITION. The Budget Unit (chapter 5): effective budget, rank, queue test, withdrawal, the end of a bound cycle, the
grant rule, and a change of the bank level. -/

namespace Sys2Proof.Machine

/-- The effective budget by level (Table 5-2). -/
def budgetAt (level k : Nat) : Nat :=
  match level with
  | 0 => k
  | 1 => max 1 (k / 2)
  | 2 => 1
  | _ => 0

/-- The effective budget in force (R62). -/
def State.budget (s : State) : Nat := budgetAt s.bgu.level s.conf.budget

/-- The rank bases (Table 5-5). -/
def DoorKind.base : DoorKind → Nat
  | .service => 8
  | .collect => 24
  | .sweep => 40
  | .deposit => 56

/-- The rank of a note: base minus floor(wait / 250), not less than 0 (R66). -/
def noteRank (k : DoorKind) (wait : Nat) : Nat := k.base - wait / 250

/-- The configured duration in units of 10 ms (R65). -/
def State.noteDuration (s : State) : Nat := s.conf.pulseLength / 10

/-- A note of the column is being transmitted, or has been taken by the line and not yet judged (R73, R74). -/
def State.noteBusy (s : State) : Bool :=
  s.liu.tx.any (fun f => f.isNote && f.sending) || (match s.liu.handover with | some f => f.isNote | none => false)

/-- Takes the column's note out of the transmit queue. -/
def State.removeNote (s : State) : State := s.setTx (s.liu.tx.filter (fun f => !f.isNote))

def State.setOwn (s : State) (o : OwnNote) : State := s.setBgu { s.bgu with own := o }

/-- A queued own note that is not being transmitted is withdrawn when the pulse list holds as many entries as the budget
(R73). -/
def State.withdrawIfFull (s : State) : State :=
  match s.bgu.own with
  | .queued slot _ => if s.budget ≤ s.bgu.pulses.length ∧ s.noteBusy = false then s.removeNote.setOwn (.deferred slot) else s
  | .none | .deferred _ => s

/-- A bound cycle has ended (R74). -/
def State.noteCycleEnded (slot : Slot) (s : State) : State :=
  match s.bgu.own with
  | .deferred x => if x = slot then s.setOwn .none else s
  | .queued x _ =>
    if x = slot then (if s.noteBusy then s.setOwn (.queued x true) else s.removeNote.setOwn .none) else s
  | .none => s

/-- The cycle the queue test is made for (R69). -/
def State.noteCandidate (s : State) : Option Slot :=
  match s.bgu.own with
  | .none => s.dsq.order.head?
  | .deferred slot => some slot
  | .queued _ _ => none

/-- The pulse list holds an entry of a station and slot. -/
def State.listed (s : State) (st : BitVec 6) (slot : BitVec 5) : Bool :=
  s.bgu.pulses.any (fun p => p.station == st && p.slot == slot)

/-- A slot as a PULSE_NOTE's 5-bit field. -/
def slotField (slot : Slot) : BitVec 5 := BitVec.ofNat 5 slot.val

/-- The conditions of the queue test, but for the cycle (R69). -/
def State.noteAllowed (s : State) (slot : Slot) : Bool :=
  s.liu.line == .active && s.bgu.basis != .byDefault && !s.restart && decide (s.bgu.pulses.length < s.budget)
    && !s.listed s.station (slotField slot)

/-- The note of a cycle, as it would be queued now (R65, R66). -/
def State.noteFrame (s : State) (c : Cycle) : TxFrame :=
  TxFrame.fresh (.pulseNote c.slot s.noteDuration c.kind) (noteRank c.kind c.wait) 0

/-- Places a cycle's note; in a transmit queue without a place for it the note stays deferred (R69, R160). -/
def State.placeNote (c : Cycle) (s : State) : State :=
  let p := placeIn (s.noteFrame c) s.liu.tx
  let s := s.setTx p.queue
  let s := if p.discarded then s.raise .txDiscard none else s
  s.setOwn (if p.placed then .queued c.slot false else .deferred c.slot)

/-- The queue test of R69. -/
def State.noteTest (s : State) : State :=
  match s.noteCandidate with
  | none => s
  | some slot =>
    match s.cycle? slot with
    | none => s
    | some c => if s.noteAllowed slot then s.placeNote c else s

/-! ## The grant rule (R67, R68) -/

/-- The guard of R67. -/
def guardTime : Nat := 20

/-- The drive a note stands for, in ms: a duration outside 10 to 80 is taken as 80 (R67). -/
def pulseTime (duration : Nat) : Nat := if 10 ≤ duration ∧ duration ≤ 80 then duration * 10 else 800

/-- The judgment of R68 on a note of a station and slot. -/
def State.granted (s : State) (st : BitVec 6) (slot : BitVec 5) : Bool :=
  !s.listed st slot && decide (s.bgu.pulses.length < s.budget)

/-- A granted note is added at the end of the list, with the time left to its end (R67, R68). -/
def State.addPulse (st : BitVec 6) (slot : BitVec 5) (duration : Nat) (s : State) : State :=
  s.setBgu { s.bgu with
    pulses := s.bgu.pulses ++ [{ station := st, slot := slot, left := pulseTime duration + guardTime }] }

/-- Another station's note (R68, R73). -/
def State.judgeOther (st : BitVec 6) (n : NoteFields) (s : State) : State :=
  if s.granted st n.slot then (s.addPulse st n.slot n.duration).withdrawIfFull else s

/-- A driver turned on for a time, or off (R70, R71). -/
def State.setDriver (slot : Slot) (t : Option Nat) (s : State) : State :=
  s.setBgu { s.bgu with drivers := tset s.bgu.drivers slot t }

/-- Some driver of the column is on. -/
def State.anyDrive (s : State) : Bool := allSlots.any (fun i => (tget s.bgu.drivers i).isSome)

/-! ## The bank level (R58 to R64) -/

/-- The tickets of the column's offers that wait in the transmit queue and are not being transmitted. -/
def State.queuedOffers (s : State) : List Ticket :=
  s.liu.tx.filterMap (fun f => match f.body with | .placeOffer t _ _ => if f.sending then none else some t | _ => none)

/-- Withdraws every queued offer; each ends its promise as a loss (R64). DESIGN CHOICE: in the order of the transmit queue
(entry 52). -/
def State.withdrawOffers (s : State) : State :=
  s.queuedOffers.foldl (fun s t => (s.withdrawOffer t).endOffer t) s

/-- The bank level changes, with the effects of R61 but the queue test, which `conclude` makes. -/
def State.changeLevel (level : Nat) (s : State) : State :=
  if level = s.bgu.level then s
  else
    let s := (s.setBgu { s.bgu with level := level }).withdrawIfFull
    let s := if 2 ≤ level then s.withdrawOffers else s
    s.refreshOutputs

/-- A POWER_STATE is taken (R58). -/
def State.takeLevel (level : Nat) (s : State) : State :=
  let s := s.changeLevel level
  s.setBgu { s.bgu with basis := .announced, age := some 0 }

/-- The level a fallback leaves (R59). -/
def fallbackLevel (level : Nat) : Nat := max level 1

/-- The fallback of R59. -/
def State.fallBack (s : State) : State :=
  let s := s.changeLevel (fallbackLevel s.bgu.level)
  s.setBgu { s.bgu with basis := .aged, age := none }

end Sys2Proof.Machine
end

