-- ==== Sys2Proof/Machine/Outcomes.lean ====
section
/-! DEFINITION. What a door outcome makes of a compartment: the deposit mapping (Table 7-3), the removal mapping
(Table 10-4), the service opening mapping (Table 10-6), the judgment of a collection and the start check (R141, R142). -/

namespace Sys2Proof.Machine

/-! ## The mappings -/

/-- The deposit outcome mapping (Table 7-3): the record and the outcome of PLACE_DONE. -/
def mapDeposit (r : CompRec) (o : Outcome) (presenceOn : Bool) : CompRec × DepositResult :=
  if r.storeFaulted then (r, .fault)
  else
    match o with
    | .securedPresent =>
      match r.state.parcel? with
      | some p => ({ state := .occupied p, foreign := false, lost := false }, .stored)
      | none => (r, .fault)
    | .securedAbsent => (CompRec.emptied false, .voidEmpty)
    | .notOpenedJam => (r.faulted .jam none, .fault)
    | .notOpenedBolt => (r.faulted .bolt none, .fault)
    | .abandoned => (CompRec.emptied presenceOn, .voidPower)
    | .latchFault on => (r.faulted .latch (if on then r.state.parcel? else none), .fault)
    | .forced => (r.faulted .forced r.state.parcel?, .fault)

/-- OCCUPIED again with the record it holds; a record that holds no parcel is left as it is. -/
def CompRec.reoccupied (r : CompRec) : CompRec :=
  match r.state.parcel? with
  | some p => r.occupiedBy p
  | none => r

/-- The removal outcome mapping (Table 10-4): the record and the outcome of RELEASE_DONE. -/
def mapRemoval (r : CompRec) (o : Outcome) : CompRec × ReleaseResult :=
  if r.storeFaulted then (r, .fault)
  else
    match o with
    | .securedPresent => (r.reoccupied, .untaken)
    | .securedAbsent => (CompRec.emptied false, .taken)
    | .notOpenedJam => (r.faulted .jam r.state.parcel?, .notOpened)
    | .notOpenedBolt => (r.faulted .bolt r.state.parcel?, .notOpened)
    | .abandoned => (r.reoccupied, .abandoned)
    | .latchFault on => (r.faulted .latch (if on then r.state.parcel? else none), .fault)
    | .forced => (r.faulted .forced r.state.parcel?, .fault)

/-- What a service opening's mapping gives: the record, the outcome of RELEASE_DONE, and whether FOREIGN is raised. -/
structure ServiceMapping where
  record : CompRec
  result : ReleaseResult
  raiseForeign : Bool
deriving DecidableEq, Repr

/-- A FAULT compartment keeps its cause and loses its record. -/
def CompRec.withoutParcel (r : CompRec) : CompRec :=
  match r.state with
  | .fault c _ => r.faulted c none
  | _ => r

/-- The result word of an opening of a FAULT compartment that was opened and closed. -/
def openedResult (r : CompRec) (withRecord : ReleaseResult) : ReleaseResult :=
  if r.state.parcel?.isSome then withRecord else .closed

/-- The service opening mapping for a compartment EMPTY at the start (Table 10-6). -/
def mapServiceEmpty (r : CompRec) (o : Outcome) (presenceOn : Bool) : ServiceMapping :=
  match o with
  | .securedPresent => { record := CompRec.emptied true, result := .closed, raiseForeign := true }
  | .securedAbsent => { record := CompRec.emptied false, result := .closed, raiseForeign := false }
  | .notOpenedJam => { record := r.faulted .jam none, result := .notOpened, raiseForeign := false }
  | .notOpenedBolt => { record := r.faulted .bolt none, result := .notOpened, raiseForeign := false }
  | .abandoned => { record := CompRec.emptied presenceOn, result := .abandoned, raiseForeign := false }
  | .latchFault _ => { record := r.faulted .latch none, result := .fault, raiseForeign := false }
  | .forced => { record := r.faulted .forced none, result := .fault, raiseForeign := false }

/-- The service opening mapping for a compartment FAULT at the start (Table 10-6). -/
def mapServiceFault (r : CompRec) (o : Outcome) : ServiceMapping :=
  match o with
  | .securedPresent => { record := r, result := openedResult r .untaken, raiseForeign := false }
  | .securedAbsent => { record := r.withoutParcel, result := openedResult r .taken, raiseForeign := false }
  | .notOpenedJam => { record := r.faulted .jam r.state.parcel?, result := .notOpened, raiseForeign := false }
  | .notOpenedBolt => { record := r.faulted .bolt r.state.parcel?, result := .notOpened, raiseForeign := false }
  | .abandoned => { record := r, result := .abandoned, raiseForeign := false }
  | .latchFault on =>
    { record := r.faulted .latch (if on then r.state.parcel? else none), result := .fault, raiseForeign := false }
  | .forced => { record := r, result := .fault, raiseForeign := false }

/-- The service opening mapping (Table 10-6), by the compartment's state at the start. -/
def mapService (st : StartState) (r : CompRec) (o : Outcome) (presenceOn : Bool) : ServiceMapping :=
  if r.storeFaulted then { record := r, result := .fault, raiseForeign := false }
  else
    match st with
    | .occupied => { record := (mapRemoval r o).1, result := (mapRemoval r o).2, raiseForeign := false }
    | .empty => mapServiceEmpty r o presenceOn
    | .fault => mapServiceFault r o
    | .other => { record := r, result := .fault, raiseForeign := false }

/-- The column of Table 10-6 a compartment state belongs to. -/
def CompState.startState : CompState → StartState
  | .occupied _ | .releasing _ => .occupied
  | .empty => .empty
  | .fault _ _ => .fault
  | .offered _ | .held _ _ | .retired => .other

/-! ## Judging a collection or a sweep -/

/-- What the judgment of one slot gives (R141, R142). -/
inductive Judgment where
  | pass
  | expired
  | unpaid
  | state
deriving DecidableEq, Repr

/-- A collection of a slot judged now (Table 10-3 from its third row; R142). -/
def State.judgeCollect (s : State) (slot : Slot) : Judgment :=
  match s.rec? slot with
  | none => .state
  | some r =>
    match r.state with
    | .occupied p =>
      if p.purpose = .carrierReturn then .state
      else if s.treatedExpired p s.clk.minute then .expired
      else if 0 < amountDue s.conf (s.size slot) p s.clk.minute then .unpaid
      else .pass
    | _ => .state

/-- The parcel can be swept for a carrier: RETURN or EXPIRED, or DELIVERY treated as expired (R145). -/
def State.sweepable (s : State) (p : Parcel) (carrier : Nat) : Bool :=
  p.carrier == carrier && (p.purpose == .carrierReturn || s.treatedExpired p s.clk.minute)

/-- A sweep of a slot judged at its start (R142). -/
def State.judgeSweep (s : State) (slot : Slot) (carrier : Nat) : Judgment :=
  match s.rec? slot with
  | none => .state
  | some r =>
    match r.state with
    | .occupied p => if s.sweepable p carrier then .pass else .state
    | _ => .state

/-- The carrier a SWEEP entry took from its call. -/
def State.entryCarrier (s : State) (j : Job) : Nat :=
  match s.entry? j with
  | some e => e.carrier
  | none => 0

/-- The start check of a door request by its kind (R142). DEPOSIT and SERVICE have none. -/
def State.startCheck (s : State) (r : DoorRequest) : Judgment :=
  match r.kind with
  | .collect => s.judgeCollect r.slot
  | .sweep => s.judgeSweep r.slot (s.entryCarrier r.job)
  | .deposit | .service => .pass

/-- REFUSE naming a slot of an entry's request, with the carrier of the slot's record (R141, R166). -/
def State.refuseSlot (t : Ticket) (slot : Slot) (r : Reason) (s : State) : State :=
  s.refuse t.station (some t.number) (some slot.val) r (s.carrierOf slot)

/-- REFUSE UNPAID and then a QUOTE carrying a new current quote, excess 0 (R141). -/
def State.refuseUnpaid (t : Ticket) (slot : Slot) (s : State) : State :=
  let s := s.refuseSlot t slot .unpaid
  match s.parcel? slot with
  | none => s
  | some p =>
    let minute := s.clk.minute
    let q := s.quoteFor slot p minute
    (s.issueQuote (collectJob t) slot p minute).answer t.station (s.quoteBody (collectJob t) slot p q 0)

/-- The answer to a failed start check (R142). -/
def State.answerStartCheck (j : Job) (slot : Slot) (v : Judgment) (s : State) : State :=
  match j.kind, v with
  | .collect, .expired => (s.refuseSlot j.ticket slot .expired).slotDone j slot
  | .collect, .unpaid =>
    ((s.refuseUnpaid j.ticket slot).setProgress j slot .matched).updEntry j Entry.restartLapse
  | .collect, .state => (s.refuseSlot j.ticket slot .state).slotDone j slot
  | .sweep, .expired | .sweep, .unpaid | .sweep, .state => (s.refuseSlot j.ticket slot .state).slotDone j slot
  | _, _ => s

/-! ## Returning an outcome to its job (R54, R106, R143, R148) -/

/-- What the Door Sequencer returns: the request's slot, kind, job and reference, the state at the start, and the verdict
of a failed start check, if that is what ended the cycle. -/
structure Returned where
  slot : Slot
  kind : DoorKind
  job : Job
  ref : BitVec 64
  startState : StartState
  failedCheck : Option Judgment
deriving DecidableEq, Repr

/-- The outcome of a DEPOSIT cycle is mapped and PLACE_DONE waits for the write (R106). DESIGN CHOICE: it carries the outcome of
the mapping also where that write then fails (R17; entry 44). -/
def State.depositOutcome (x : Returned) (o : Outcome) (s : State) : State :=
  match s.rec? x.slot with
  | none => s
  | some r =>
    let m := mapDeposit r o (s.sense x.slot).presenceIsOn
    (s.changeTested x.slot m.1).await x.slot (.placeDone x.job.ticket m.2)

/-- The outcome of a COLLECT or SWEEP cycle is mapped and RELEASE_DONE waits for the write (R143, R144). DESIGN CHOICE: it carries
the outcome of the mapping also where that write then fails (R17; entry 44). -/
def State.removalOutcome (x : Returned) (o : Outcome) (s : State) : State :=
  match s.rec? x.slot with
  | none => s
  | some r =>
    let m := mapRemoval r o
    (s.changeTested x.slot m.1).await x.slot (.releaseDone x.job m.2 x.ref)

/-- The outcome of a SERVICE cycle is mapped and RELEASE_DONE waits for the write (R148); what it carries where that write fails
is the DESIGN CHOICE of entry 44. -/
def State.serviceOutcome (x : Returned) (o : Outcome) (s : State) : State :=
  match s.rec? x.slot with
  | none => s
  | some r =>
    let m := mapService x.startState r o (s.sense x.slot).presenceIsOn
    let s := s.changeTested x.slot m.record
    let s := if m.raiseForeign then s.raise .foreign (some x.slot) else s
    s.await x.slot (.releaseDone x.job m.result x.ref)

/-- An outcome is returned: the DOOR_CYCLE event, then the job's mapping, or the answer to a failed start check. -/
def State.returnOutcome (x : Returned) (o : Outcome) (s : State) : State :=
  let s := s.count .doorCycle (some o.pos) (s.carrierOf x.slot)
  match x.failedCheck with
  | some v => s.answerStartCheck x.job x.slot v
  | none =>
    match x.kind with
    | .deposit => s.depositOutcome x o
    | .collect | .sweep => s.removalOutcome x o
    | .service => s.serviceOutcome x o

end Sys2Proof.Machine
end

