-- ==== Sys2Proof/Machine/Doors.lean ====
section
/-! DEFINITION. The Door Sequencer (chapter 4): door queue, start, pulse wait, stages, failed attempts, forced reports and
the end of a cycle; and the release of the units that wait for a record write. -/

namespace Sys2Proof.Machine

/-! ## The home-idle timer (R27) -/

/-- Both gates are high in the last sample. -/
def Sense.gatesHigh (x : Sense) : Bool := x.gates == some (true, true)

/-- The four conditions under which the home-idle timer runs (R27). -/
def State.idleRuns (s : State) (slot : Slot) : Bool :=
  let x := s.sense slot
  x.doorClosed && x.gatesHigh && decide (x.bolt ≤ 2) && !s.inCycle slot

/-- Starts or stops the home-idle timer as its conditions now stand (R27). -/
def State.refreshIdle (slot : Slot) (s : State) : State :=
  let x := s.sense slot
  s.setSense slot { x with homeIdle := if s.idleRuns slot then some (x.homeIdle.getD 0) else none }

/-! ## The end of a cycle (R54) -/

/-- What a cycle returns. -/
def Cycle.returned (c : Cycle) (failed : Option Judgment) : Returned :=
  { slot := c.slot, kind := c.kind, job := c.job, ref := c.ref, startState := c.startState, failedCheck := failed }

/-- Steps 1 to 4 of R54: window, lamp demand, pulse order and own note, cycle record. -/
def State.freeCycle (slot : Slot) (s : State) : State :=
  let s := s.setDsq { s.dsq with
    cycles := s.dsq.cycles.filter (fun d => d.slot != slot)
    order := s.dsq.order.filter (fun x => x != slot) }
  ((s.setLamp slot false).noteCycleEnded slot).refreshIdle slot

/-- A cycle in progress ends with an outcome (R54). The door queue is tested afterwards, in `settle`. -/
def State.endCycle (c : Cycle) (o : Outcome) (failed : Option Judgment) (s : State) : State :=
  (s.freeCycle c.slot).returnOutcome (c.returned failed) o

/-! ## Pulse wait (R44, R45) -/

/-- A cycle enters PULSE_WAIT at the tail of the pulse order; its limit timer starts at the first entry (R44, R45). -/
def State.enterPulseWait (c : Cycle) (s : State) : State :=
  let s := s.setCycle { c with stage := .pulseWait, wait := 0, limit := some (c.limit.getD 0) }
  s.setDsq { s.dsq with order := s.dsq.order ++ [c.slot] }

/-- The pulse wait limit (R45). -/
def pulseWaitLimitTime : Nat := 60000

/-- The outcome of a failed attempt that ends its cycle (R47). -/
def AttemptFailure.outcome : AttemptFailure → Outcome
  | .bolt => .notOpenedBolt
  | .jam => .notOpenedJam

/-- The pulse wait limit timer has reached 60 s. -/
def Cycle.limitReached (c : Cycle) : Bool :=
  match c.limit with
  | some t => decide (pulseWaitLimitTime ≤ t)
  | none => false

/-- An attempt fails (R47): a retry at the tail of the pulse order, or the end of the cycle. -/
def State.failAttempt (c : Cycle) (f : AttemptFailure) (s : State) : State :=
  let c := { c with lastFailure := some f, boltReached := false, doorOpened := false, pop := none }
  if 3 ≤ c.attempt ∨ c.limitReached = true then s.endCycle c f.outcome none
  else s.enterPulseWait { c with attempt := c.attempt + 1 }

/-! ## Starting a cycle (R42, R43) -/

/-- The cycle record at start (R43). -/
def DoorRequest.cycle (r : DoorRequest) (st : StartState) (ref : BitVec 64) : Cycle :=
  { slot := r.slot, kind := r.kind, job := r.job, ref := ref, stage := .starting, attempt := 1, lastFailure := none,
    boltReached := false, doorOpened := false, latchFault := false, forced := false, startState := st, limit := none,
    wait := 0, pop := none, ajar := none, latch := 0, settle := none }

/-- A cycle record is given to the request and its lamp demanded on (R43, R55). -/
def State.openCycle (c : Cycle) (s : State) : State :=
  let s := s.setDsq { s.dsq with cycles := s.dsq.cycles ++ [c] }
  (s.setLamp c.slot true).refreshIdle c.slot

/-- The start takes an OCCUPIED compartment to RELEASING, but for a DEPOSIT (R8, R43). -/
def releasingRec (k : DoorKind) (r : CompRec) : Option CompRec :=
  match k, r.state with
  | .deposit, _ => none
  | _, .occupied p => some { r with state := .releasing p }
  | _, _ => none

/-- Starts a request taken off the door queue (R43): the start check of R142, then RELEASING and STARTING, or PULSE_WAIT
in the same step. -/
def State.startRequest (r : DoorRequest) (s : State) : State :=
  match s.rec? r.slot with
  | none => s
  | some x =>
    let c := r.cycle x.state.startState (s.parcelRef r.slot)
    let v := s.startCheck r
    let s := s.openCycle c
    if v ≠ .pass then s.endCycle c .abandoned (some v)
    else
      match releasingRec r.kind x with
      | none => s.enterPulseWait c
      | some y =>
        match (s.change r.slot y 0).attach r.slot .cycleStart with
        | some s' => s'
        | none => s.enterPulseWait c

/-- The head of the door queue may start (R42). -/
def State.canStart (s : State) : Bool :=
  !s.dsq.queue.isEmpty && decide (s.dsq.cycles.length < s.conf.span)

/-- The test of R42: starts the head of the door queue if fewer than D cycles are in progress. -/
def State.tryStart (s : State) : State :=
  match s.dsq.queue with
  | [] => s
  | r :: rest =>
    if s.dsq.cycles.length < s.conf.span then (s.setDsq { s.dsq with queue := rest }).startRequest r else s

/-- The Door Sequencer takes a request (R41): queued, or answered ABANDONED where the slot has a door cycle. -/
def State.askDoor (r : DoorRequest) (s : State) : State :=
  if s.hasDoorCycle r.slot then
    s.returnOutcome
      { slot := r.slot, kind := r.kind, job := r.job, ref := r.ref,
        startState := (match s.rec? r.slot with | some x => x.state.startState | none => .other), failedCheck := none }
      .abandoned
  else (s.setDsq { s.dsq with queue := s.dsq.queue ++ [r] }).tryStart

/-! ## Forced reports to the Door Sequencer (R53) -/

/-- A request ended in the door queue returns FORCED (R53). -/
def State.forceQueued (r : DoorRequest) (s : State) : State :=
  (s.setDsq { s.dsq with queue := s.dsq.queue.filter (fun x => x.slot != r.slot) }).returnOutcome
    { slot := r.slot, kind := r.kind, job := r.job, ref := r.ref,
      startState := (match s.rec? r.slot with | some x => x.state.startState | none => .other), failedCheck := none }
    .forced

/-- A forced report for a cycle in STARTING or PULSE_WAIT (R53). In STARTING the cycle's lamp goes off at once and its
outcome is returned when the write has ended. -/
def State.forceCycle (c : Cycle) (s : State) : State :=
  match c.stage with
  | .starting => (s.setCycle { c with forced := true }).setLamp c.slot false
  | .pulseWait => s.endCycle c .forced none
  | _ => s

/-- A forced report (R34): to the Door Sequencer if the slot has a door cycle, else to the Compartment Table. -/
def State.forcedReport (slot : Slot) (s : State) : State :=
  match s.dsq.queue.find? (fun r => r.slot == slot) with
  | some r => s.forceQueued r
  | none =>
    match s.cycle? slot with
    | some c => s.forceCycle c
    | none => s.forceTable slot

/-! ## Stages from DRIVING on -/

/-- A pulse fired on a slot: counted and written (R14). -/
def State.pulseFired (slot : Slot) (s : State) : State := s.setLocks slot (s.locks slot).fired

/-- The cycle enters DRIVING; a bolt already at the threshold sets the mark (R44, R46). -/
def State.enterDriving (c : Cycle) (s : State) : State :=
  let s := s.setCycle { c with
    stage := .driving
    boltReached := decide (s.conf.threshold ≤ (s.sense c.slot).bolt)
    doorOpened := false }
  s.setDsq { s.dsq with order := s.dsq.order.filter (fun x => x != c.slot) }

/-- The cycle enters OPEN and its ajar timer starts (R49). -/
def Cycle.toOpened (c : Cycle) : Cycle :=
  { c with stage := .opened, ajar := some 0, pop := none, settle := none, latchFault := false }

/-- The cycle enters SETTLE: the settle timer starts (R52), with the latch-fault mark if a latch fault is declared (R51). -/
def Cycle.toSettle (c : Cycle) (latchFault : Bool) : Cycle :=
  { c with stage := .settle, settle := some 0, ajar := none, latchFault := latchFault }

/-- The cycle enters CLOSING, or SETTLE at once where the slot is secure already (R50, entry 28). -/
def Cycle.toClosing (c : Cycle) (secure : Bool) : Cycle :=
  let c := { c with stage := .closing, ajar := none, settle := none }
  if secure then c.toSettle false else c

/-- The next stage at driver off (R46). -/
def State.driverOffStage (c : Cycle) (s : State) : State :=
  let x := s.sense c.slot
  if x.door = some true then s.setCycle c.toOpened
  else if c.doorOpened then s.setCycle (c.toClosing x.secure)
  else if c.boltReached then s.setCycle { c with stage := .popWait, pop := some 0 }
  else s.failAttempt c .bolt

/-- DOOR_OPENED for a cycle whose window is open (R46, R48, R50, R51, R52). -/
def Cycle.onDoorOpened (c : Cycle) : Cycle :=
  match c.stage with
  | .driving => { c with doorOpened := true }
  | .popWait | .closing | .settle => c.toOpened
  | .starting | .pulseWait | .opened => c

/-- DOOR_CLOSED for a cycle (R49, R53): from OPEN it enters CLOSING with the latch timer at zero. -/
def Cycle.onDoorClosed (c : Cycle) (secure : Bool) : Cycle :=
  match c.stage with
  | .opened => { c with latch := 0 }.toClosing secure
  | _ => c

/-- The slot has become secure (R50). -/
def Cycle.onSecure (c : Cycle) : Cycle :=
  match c.stage with
  | .closing => c.toSettle false
  | _ => c

/-- A bolt step has ended secure with the door closed (R52): SETTLE without a latch fault returns to CLOSING. -/
def Cycle.onBoltOff (c : Cycle) : Cycle :=
  match c.stage with
  | .settle => if c.latchFault then c else { c with stage := .closing, settle := none }
  | _ => c

/-- A +1 step has taken the bolt to the threshold or beyond (R46). -/
def Cycle.onBoltReached (c : Cycle) : Cycle :=
  match c.stage with
  | .driving => { c with boltReached := true }
  | _ => c

/-- Applies a stage change to the cycle of a slot, if it has one. -/
def State.onCycle (slot : Slot) (f : Cycle → Cycle) (s : State) : State :=
  match s.cycle? slot with
  | some c => s.setCycle (f c)
  | none => s

/-! ## Units released by a record write (R16, R43, R105) -/

/-- The RELEASING write has completed or failed (R43, R53). -/
def State.releaseStart (slot : Slot) (s : State) : State :=
  match s.cycle? slot with
  | none => s
  | some c =>
    if c.stage ≠ .starting then s
    else if c.forced then s.endCycle c .forced none
    else if s.storeFaulted slot then s.endCycle c .abandoned none
    else s.enterPulseWait c

/-- The compartment is HELD with the ticket's promise (R105). -/
def State.heldFor (s : State) (slot : Slot) (t : Ticket) : Bool :=
  match s.rec? slot with
  | some r => r.state.tag == .held && r.state.promise? == some t
  | none => false

/-- The parcel record's write has ended (R105, step 3). -/
def State.releaseDetail (t : Ticket) (slot : Slot) (s : State) : State :=
  if s.heldFor slot t then
    s.askDoor { slot := slot, kind := .deposit, job := placeJob t, ref := s.parcelRef slot }
  else s.placeDone t slot .fault

/-- A unit that waited for a write of the slot goes on (R16, R17). -/
def State.release (slot : Slot) (w : Waiter) (s : State) : State :=
  match w with
  | .cycleStart => s.releaseStart slot
  | .detail t => s.releaseDetail t slot
  | .placeDone _ _ | .releaseDone _ _ _ | .serviceDone _ _ _ | .payment _ _ _ _ | .endEntry _ => s.releaseAnswer slot w

end Sys2Proof.Machine
end

