-- ==== Sys2Proof/Machine/Activate.lean ====
section
/-! DEFINITION. An entry becomes active (R137, R145, R148 to R150), the re-evaluation of waiting entries (R86, R139), and
what every command makes at its end: the eligibility test, the door queue's test and the queue test of the own note. -/

namespace Sys2Proof.Machine

/-! ## COLLECT (R136 to R139) -/

/-- The parcel with a release code in an OCCUPIED or RELEASING compartment (R136). -/
def State.codeParcel? (s : State) (code : Nat) (slot : Slot) : Option Parcel :=
  match s.rec? slot with
  | none => none
  | some r =>
    match r.state with
    | .occupied p | .releasing p => if p.code = some code then some p else none
    | _ => none

/-- The code search finds a parcel in the slot that is collectable (R136). -/
def State.collectable (s : State) (code : Nat) (slot : Slot) : Bool :=
  match s.codeParcel? code slot with
  | some p => !s.treatedExpired p s.clk.minute
  | none => false

/-- The code search finds a parcel in the slot that is treated as expired (R136). -/
def State.codeExpired (s : State) (code : Nat) (slot : Slot) : Bool :=
  match s.codeParcel? code slot with
  | some p => s.treatedExpired p s.clk.minute
  | none => false

/-- The compartment is OCCUPIED. -/
def State.occupied (s : State) (slot : Slot) : Bool :=
  match s.rec? slot with
  | some r => r.state.tag == .occupied
  | none => false

/-- One slot's quote at activation (R137, step 2). -/
def State.quoteSlot (j : Job) (slot : Slot) (s : State) : State :=
  match s.parcel? slot with
  | some p => s.issueQuote j slot p s.clk.minute
  | none => s

/-- The presence-lost flag of a slot's record. -/
def State.lostFlag (s : State) (slot : Slot) : Bool :=
  match s.rec? slot with
  | some r => r.lost
  | none => false

/-- The current quote of an entry's slot (R126). -/
def State.currentQuote (s : State) (j : Job) (slot : Slot) : Option Quote :=
  ((s.entry? j).bind (fun e => e.slot? slot)).bind (fun x => x.quote)

/-- One slot's COLLECT_MATCH, with its current quote (R137, step 3; Table 10-2). -/
def State.queueMatch (j : Job) (slot : Slot) (s : State) : State :=
  match s.parcel? slot, s.currentQuote j slot with
  | some p, some q =>
    s.answer j.ticket.station
      (.collectMatch j.ticket.number slot p.carrier q.number q.due (minutesAhead q.valid q.minute) (s.lostFlag slot)
        p.estimated)
  | _, _ => s

/-- A COLLECT entry becomes active on its slots (R137). -/
def State.activateCollect (j : Job) (slots : List Slot) (s : State) : State :=
  let s := s.updEntry j (fun e => { e with slots := slots.map EntrySlot.fresh, stage := .matched, timer := some 0 })
  let s := slots.foldl (fun s slot => s.quoteSlot j slot) s
  slots.foldl (fun s slot => s.queueMatch j slot) s

/-! ## SWEEP (R145) -/

/-- The carrier search's test of a slot: OCCUPIED or RELEASING, and to be swept for the carrier (R145). -/
def State.sweepMatch (s : State) (carrier : Nat) (slot : Slot) : Bool :=
  match s.rec? slot with
  | none => false
  | some r =>
    match r.state with
    | .occupied p | .releasing p => s.sweepable p carrier
    | _ => false

/-- The more flag of a SWEEP entry. -/
def State.entryMore (s : State) (j : Job) : Bool :=
  match s.entry? j with
  | some e => e.more
  | none => false

/-- A SWEEP entry becomes active: LISTED, with one SWEEP_LIST (R145). -/
def State.activateSweep (j : Job) (slots : List Slot) (s : State) : State :=
  let s := s.updEntry j (fun e => { e with slots := slots.map EntrySlot.fresh, stage := .listed, timer := some 0 })
  s.answer j.ticket.station (.sweepList j.ticket.number slots (s.entryMore j))

/-! ## SERVICE (R148 to R150) -/

/-- A refusal at activation ends the entry (R147). -/
def State.refuseService (j : Job) (slot : Slot) (r : Reason) (s : State) : State :=
  (s.refuseSlot j.ticket slot r).finishEntry j

/-- SERVICE_OPEN at activation (R148). -/
def State.activateOpen (j : Job) (slot : Slot) (r : CompRec) (s : State) : State :=
  if r.state = .retired then s.refuseService j slot .state
  else
    (s.updEntry j (Entry.toStage .door none)).askDoor
      { slot := slot, kind := .service, job := j, ref := s.parcelRef slot }

/-- What SERVICE_CLEAR makes of a FAULT compartment (Table 10-7). -/
def clearResult (r : CompRec) (presenceOn : Bool) : CompRec × ReleaseResult :=
  match r.state.parcel?, presenceOn with
  | some p, true => ({ state := .occupied p, foreign := false, lost := false }, .cleared)
  | some _, false => (CompRec.emptied false, .parcelMissing)
  | none, false => (CompRec.emptied false, .cleared)
  | none, true => (r.faulted .foreign none, .foreign)

/-- SERVICE_CLEAR at activation (R149). -/
def State.activateClear (j : Job) (slot : Slot) (r : CompRec) (s : State) : State :=
  if r.state.tag ≠ .fault then s.refuseService j slot .state
  else if (s.sense slot).secure = false then s.refuseService j slot .notSecure
  else
    let ref := s.parcelRef slot
    let m := clearResult r (s.sense slot).presenceIsOn
    let s := (s.updEntry j (Entry.toStage .immediate none)).changeTested slot m.1
    let s := if m.2 = .foreign then s.raise .foreign (some slot) else s
    s.await slot (.serviceDone j.ticket m.2 ref)

/-- SERVICE_RETIRE at activation (R150): EMPTY to RETIRED, keeping the foreign flag. -/
def State.activateRetire (j : Job) (slot : Slot) (r : CompRec) (s : State) : State :=
  if r.state ≠ .empty then s.refuseService j slot .state
  else
    ((s.updEntry j (Entry.toStage .immediate none)).change slot { r with state := .retired } 0).await slot
      (.serviceDone j.ticket .retired 0)

/-- SERVICE_RESTORE at activation (R150): RETIRED to EMPTY, with the entry check of R37. -/
def State.activateRestore (j : Job) (slot : Slot) (r : CompRec) (s : State) : State :=
  if r.state ≠ .retired then s.refuseService j slot .state
  else
    ((s.updEntry j (Entry.toStage .immediate none)).emptyChecked slot).await slot (.serviceDone j.ticket .restored 0)

/-- A SERVICE entry becomes active on its slot (R147). -/
def State.activateService (j : Job) (sub : ServiceKind) (slot : Slot) (s : State) : State :=
  match s.rec? slot with
  | none => s.finishEntry j
  | some r =>
    match sub with
    | .open => s.activateOpen j slot r
    | .clear => s.activateClear j slot r
    | .retire => s.activateRetire j slot r
    | .restore => s.activateRestore j slot r

/-! ## Re-evaluation (R86, R139) -/

/-- The slots an entry lists. -/
def Entry.slotList (e : Entry) : List Slot := e.slots.map (fun x => x.slot)

/-- A waiting COLLECT entry is re-evaluated (R139). -/
def State.reEvaluateCollect (e : Entry) (s : State) : State :=
  match e.slotList.filter (fun x => s.occupied x && s.collectable e.code x) with
  | x :: rest => s.activateCollect e.job (x :: rest)
  | [] =>
    match e.slotList.find? (fun x => s.codeExpired e.code x) with
    | some slot => (s.refuseSlot e.ticket slot .expired).finishEntry e.job
    | none => s.finishEntry e.job

/-- A waiting SWEEP entry is re-evaluated by the test of its search (R145). -/
def State.reEvaluateSweep (e : Entry) (s : State) : State :=
  match e.slotList.filter (fun x => s.sweepMatch e.carrier x) with
  | x :: rest => s.activateSweep e.job (x :: rest)
  | [] => s.finishEntry e.job

/-- A waiting SERVICE entry is re-evaluated: its state tests are made at activation (R147). -/
def State.reEvaluateService (e : Entry) (s : State) : State :=
  match e.sub, e.firstSlot? with
  | some sub, some slot => s.activateService e.job sub slot
  | _, _ => s.finishEntry e.job

/-- An eligible waiting entry is re-evaluated (R86). A PLACE entry does not wait (R83). -/
def State.reEvaluate (e : Entry) (s : State) : State :=
  match e.kind with
  | .collect => s.reEvaluateCollect e
  | .sweep => s.reEvaluateSweep e
  | .service => s.reEvaluateService e
  | .place => s.finishEntry e.job

/-- A waiting entry is eligible: for each of its slots, no active entry holds it and no older waiting entry names it. -/
def State.eligible (s : State) (older : List Entry) (e : Entry) : Bool :=
  e.stage == .waiting && e.slots.all (fun x => (s.holder? x.slot).isNone && !older.any (fun o => o.awaits x.slot))

/-- The first eligible entry in arrival order (R86). -/
def State.firstEligible (s : State) : List Entry → List Entry → Option Entry
  | _, [] => none
  | older, e :: rest => if s.eligible older e then some e else s.firstEligible (older ++ [e]) rest

/-- One thing that releases and returned outcomes leave to do: a re-evaluation, else a start from the door queue. -/
def State.settleOne (s : State) : Option State :=
  match s.firstEligible [] s.ort with
  | some e => some (s.reEvaluate e)
  | none => if s.canStart then some s.tryStart else none

/-- The eligibility test of R86 and the door queue's test of R42, until neither finds anything. -/
def State.settle : Nat → State → State
  | 0, s => s
  | n + 1, s =>
    match s.settleOne with
    | some s' => s'.settle n
    | none => s

/-- Enough rounds: each takes one of 8 entries out of WAITING or one of 24 requests out of the door queue. -/
def settleRounds : Nat := 64

/-- What a command makes at its end: the tests of R86, R42 and R69. -/
def State.conclude (s : State) : State := (s.settle settleRounds).noteTest

end Sys2Proof.Machine
end

