-- ==== Sys2Proof/Machine/Resets.lean ====
section
/-! DEFINITION. The four resets (R171, R151) and what they leave (Tables 2-6, 3-2, 4-4, 5-7, 6-3, 7-4, 8-4, 9-5, 10-8, 11-6,
12-4). -/

namespace Sys2Proof.Machine

/-! ## Writes in progress are abandoned (R15, R18, R19; entry 12) -/

/-- A record copy whose write was interrupted: it fails its check, or holds what it held. -/
def RecCopy.torn (c : RecCopy) (free : Nat) : RecCopy := if Config.tornFails free then { c with ok := false } else c

/-- A count copy whose write was interrupted or failed. -/
def CountCopy.torn (c : CountCopy) (free : Nat) : CountCopy := if Config.tornFails free then { c with ok := false } else c

/-- The cause copy whose write was interrupted or failed. -/
def CauseCopy.torn (c : CauseCopy) (free : Nat) : CauseCopy := if Config.tornFails free then { c with ok := false } else c

/-- A slot's record store after a reset: the write in progress abandoned, the current copy left. -/
def SlotStore.abandoned (x : SlotStore) (free : Nat) : SlotStore :=
  match x.writing with
  | none => { x with current := none, writing := none, again := none }
  | some w =>
    if w.toB then { x with b := x.b.torn free, current := none, writing := none, again := none }
    else { x with a := x.a.torn free, current := none, writing := none, again := none }

/-- A slot's lock-cycle store after a reset. -/
def Locks.abandoned (x : Locks) (free : Nat) : Locks :=
  match x.writing with
  | none => { x with count := 0, writing := none, again := false }
  | some w =>
    if w.1 then { x with b := x.b.torn free, count := 0, writing := none, again := false }
    else { x with a := x.a.torn free, count := 0, writing := none, again := false }

/-- The free values a reset may take: 24 record writes, 24 lock-count writes, the retained minute, the cause set. -/
def resetFreeValues : Nat := 50

/-- The custody store and table after a reset (Table 2-6). -/
def Cts.afterReset (x : Cts) (free : Nat) : Cts :=
  { table := tconst none
    store := tabulate (fun i => (tget x.store i).abandoned (free + i.val))
    locks := tabulate (fun i => (tget x.locks i).abandoned (free + 24 + i.val))
    minuteA := if x.minuteWrites.isEmpty || x.minuteNextB then x.minuteA else x.minuteA.torn (free + 48)
    minuteB := if x.minuteWrites.isEmpty || !x.minuteNextB then x.minuteB else x.minuteB.torn (free + 48)
    minuteNextB := false
    minuteWrites := []
    causeStore := if x.causeWriting.isNone then x.causeStore else x.causeStore.torn (free + 49)
    causes := Causes.none
    causeWriting := none
    markCheck := x.markCheck
    markOk := x.markOk }

/-- A reset with the causes active at its moment (R171). The custody store, the sensors' levels, the minute counter, the
values last loaded and the commands waiting stay; everything else is as after every reset. -/
def State.resetBy (causes : Causes) (s : State) : State :=
  { State.reset with
    pending := s.pending
    cfg := { s.cfg with state := .none }
    cts := s.cts.afterReset s.free
    pins := s.pins
    clk := { Clk.reset with minute := s.clk.minute }
    heldCauses := causes
    free := s.free + resetFreeValues }

/-- POWER_RESET (R171). -/
def execPowerReset (active : Causes) (s : State) : Host.Outcome State Fault Refusal :=
  .next (s.resetBy (causeUnion { Causes.none with power := true } active))

/-- BROWNOUT_RESET (R171). -/
def execBrownoutReset (active : Causes) (s : State) : Host.Outcome State Fault Refusal :=
  .next (s.resetBy (causeUnion { Causes.none with brownout := true } active))

/-- PIN_RESET (R171). -/
def execPinReset (active : Causes) (s : State) : Host.Outcome State Fault Refusal :=
  .next (s.resetBy (causeUnion { Causes.none with pin := true } active))

/-- A pending restart may reset the column: no drive on, no note in transmission (R71, R151). -/
def State.restartReady (s : State) : Bool := s.restart && !s.anyDrive && !s.noteBusy

/-- RESTART_RESET (R151). -/
def execRestartReset (active : Causes) (s : State) : Host.Outcome State Fault Refusal :=
  .next (if s.restartReady then s.resetBy (causeUnion { Causes.none with restart := true } active) else s)

end Sys2Proof.Machine
end

