-- ==== Sys2Proof/Machine/Startup.lean ====
section
/-! DEFINITION. Start-up (chapter 13, section 2.5): the configuration read with its checks, clamps and load, the reset-cause
write, the baseline readings and reconciliation. -/

namespace Sys2Proof.Machine

/-! ## Structural checks (R172) -/

/-- Checks 3 to 5 of R172 on the fields. -/
def structureOk (m : ConfigFields) : Bool :=
  decide (1 ≤ m.station) && decide (m.station ≤ 63)
    && !(decide (m.tlo.toNat ≤ m.station) && decide (m.station ≤ m.thi.toNat))
    && decide (m.station ≠ m.supply.toNat) && decide (m.station ≠ m.time.toNat)
    && decide (m.station ≠ m.service1.toNat) && decide (m.station ≠ m.service2.toNat)
    && allSlots.any (fun i => tget m.slotMap i != 0)

/-- The fields and check word of a read that passes every structural check. -/
def passedRead : ConfigRead → Option (ConfigFields × BitVec 16)
  | .noAnswer => none
  | .contents image fields check =>
    if crcBytes image = check ∧ structureOk fields = true then some (fields, check) else none

/-! ## Clamps (R173) -/

/-- A value clamped to a range. -/
def clampTo (lo hi x : Nat) : Nat := max lo (min hi x)

/-- A tariff clamped to the ranges of Table 9-1. -/
def clampTariff (t : Tariff) : Tariff :=
  { free := min t.free 10080, step := clampTo 15 1440 t.step, price := min t.price 9999, capDay := min t.capDay 99999,
    capMax := min t.capMax 99999 }

/-- A counter's settings clamped: a kind outside the eight becomes ENTER_STATE with an empty mask. -/
def clampCounter (c : CounterSetting) : CounterSetting :=
  { kind := if c.kind ≤ 7 then c.kind else 0, mask := if c.kind ≤ 7 then c.mask else 0, filter := min c.filter 63 }

/-- The fields clamped into their ranges (R173, Table 13-1). The station number and the role fields are not clamped. -/
def clampFields (m : ConfigFields) : ConfigFields :=
  { station := m.station
    tlo := m.tlo
    thi := m.thi
    supply := m.supply
    time := m.time
    service1 := m.service1
    service2 := m.service2
    slotMap := tmap (fun x => min x 4) m.slotMap
    edges := m.edges
    threshold := clampTo 6 12 m.threshold
    doorPolarity := m.doorPolarity
    presencePolarity := m.presencePolarity
    span := clampTo 1 4 m.span
    pulseLength := clampTo 100 800 m.pulseLength / 10 * 10
    ajarTime := clampTo 60 600 m.ajarTime
    budget := clampTo 1 8 m.budget
    lampShed := clampTo 1 4 m.lampShed
    auxShed := vmap (clampTo 1 4) m.auxShed
    auxDefault := m.auxDefault
    holdTime := clampTo 30 300 m.holdTime
    collectLapse := clampTo 30 600 m.collectLapse
    sweepLapse := clampTo 30 600 m.sweepLapse
    hmax := clampTo 60 20160 m.hmax
    hdef := clampTo 60 (clampTo 60 20160 m.hmax) m.hdef
    granularity := min m.granularity 4
    tariffs := vmap clampTariff m.tariffs
    multipliers := vmap (clampTo 4 32) m.multipliers
    grace := min m.grace 30
    enables := m.enables
    counters := vmap clampCounter m.counters }

/-! ## Load (R175, step 1) -/

/-- A slot's sensing state at configuration load: count 0, the first sample taken, the bolt-low timer taken as reached
(R28, R32). -/
def Sense.loaded (p : Pins) : Sense := { Sense.reset with gates := some (p.gateA, p.gateB), boltLow := some boltLowTime }

/-- The parcel record of a copy that passes its check. -/
def RecCopy.parcel? (c : RecCopy) : Option Parcel := if c.ok then c.content.state.parcel? else none

/-- The largest deposit or settlement minute of a copy's parcel record, 0 without one (R18). -/
def RecCopy.minute (c : RecCopy) : Nat :=
  match c.parcel? with
  | some p => max p.deposit (p.settled.getD 0)
  | none => 0

/-- The fallback of R18: the largest deposit or settlement minute among the parcel records that pass their check. -/
def Cts.minuteFallback (x : Cts) : Nat :=
  allSlots.foldl (fun n i => max n (max (tget x.store i).a.minute (tget x.store i).b.minute)) 0

/-- The minute the clock resumes: the larger copy that passes its check, else the fallback (R18). -/
def Cts.resumedMinute (x : Cts) : Nat :=
  if x.minuteA.ok ∨ x.minuteB.ok then
    max (if x.minuteA.ok then x.minuteA.value else 0) (if x.minuteB.ok then x.minuteB.value else 0)
  else x.minuteFallback

/-- Copy B holds the older retained minute, and the next write goes to it; equal copies: copy A (entry 16). -/
def Cts.minuteOlderIsB (x : Cts) : Bool :=
  if !x.minuteA.ok then false else if !x.minuteB.ok then true else decide (x.minuteB.value < x.minuteA.value)

/-- The minute counter resumes; with no copy passing, STORE is raised (R18, R110). -/
def State.resumeClock (s : State) : State :=
  let fails := !s.cts.minuteA.ok && !s.cts.minuteB.ok
  let s := (s.setClk { s.clk with minute := s.cts.resumedMinute, sub := 0 }).setCts
    { s.cts with minuteNextB := s.cts.minuteOlderIsB }
  if fails then s.raise .store none else s

/-- The auxiliary demands take their defaults and every output is evaluated (R78). -/
def State.loadOutputs (s : State) : State := (s.setOut { s.out with auxDemand := s.conf.auxDefault }).refreshOutputs

/-- Attention follows the report enables just loaded (R164). -/
def State.recomputeAttention (s : State) : State :=
  s.setRpt { s.rpt with attention := attentionOf s.rpt.conds s.conf.enables }

/-- The sensing state of every slot at configuration load: the inputs of a slot that is not fitted are not sampled (R24,
R28). -/
def State.loadSensing (s : State) : State :=
  s.setSen (tabulate (fun i => if s.fitted i then Sense.loaded (tget s.pins i) else Sense.reset))

/-- Step 1 of R175 for values clamped already. DESIGN CHOICE: the report enables are in force before the clock resumes, and
CONFIG_CLAMP is raised after STORE, since R175 does not order the blocks of the step (entry 51). -/
def State.load (m : ConfigFields) (clampedAny : Bool) (check : BitVec 16) (s : State) : State :=
  let s := (s.setCfg { state := if clampedAny then .clamped else .loaded, mem := m, check := check }).recomputeAttention
  let s := s.loadSensing.resumeClock
  let s := s.loadOutputs
  if clampedAny then s.raise .configClamp none else s

/-! ## The store's mark and format (R21) -/

/-- No copy of any of the 24 slots' records passes its check. -/
def Cts.noRecordPasses (x : Cts) : Bool := allSlots.all (fun i => !(tget x.store i).a.ok && !(tget x.store i).b.ok)

/-- A store that has never been used (R21). -/
def Cts.neverUsed (x : Cts) : Bool := !x.markOk && x.noRecordPasses

/-- A slot's store as it is formatted: an EMPTY record of generation 0 in copy A. -/
def SlotStore.formatted (slot : Slot) (x : SlotStore) : SlotStore :=
  { x with a := RecCopy.written slot 0 CompRec.blank }

/-- The lock-cycle copies of a slot as they are formatted. -/
def Locks.formatted (x : Locks) : Locks := { x with a := CountCopy.written .lockCount 0, b := CountCopy.written .lockCount 0 }

/-- The store mark written, with its check word (R21). -/
def Cts.marked (x : Cts) : Cts := { x with markCheck := checkWord .mark (), markOk := true }

/-- The store formatted (R21). -/
def Cts.formatted (x : Cts) : Cts :=
  { x.marked with
    store := tabulate (fun i => (tget x.store i).formatted i)
    locks := tmap Locks.formatted x.locks
    minuteA := CountCopy.written .minute 0
    minuteB := CountCopy.written .minute 0
    minuteNextB := false
    causeStore := CauseCopy.written Causes.none }

/-- The store formatted where it has never been used; otherwise its mark is rewritten if it fails (R21). DESIGN CHOICE: these writes
all succeed, at once, within the configuration read; the spec does not say what a write among them that fails its read-back, or
that a reset interrupts, would leave (entry 54). -/
def State.checkMark (s : State) : State :=
  if s.cts.neverUsed then s.setCts s.cts.formatted
  else if s.cts.markOk then s
  else s.setCts s.cts.marked

/-- The count a slot's lock-cycle count resumes at (R14). -/
def Locks.resumed (x : Locks) : Nat :=
  max (if x.a.ok then x.a.value else 0) (if x.b.ok then x.b.value else 0)

/-- Both lock-cycle copies of a slot fail their check. -/
def Locks.lost (x : Locks) : Bool := !x.a.ok && !x.b.ok

/-- The lock-cycle counts resume; a fitted slot whose copies both fail raises STORE (R14). -/
def State.resumeLocks (s : State) : State :=
  let lost := allSlots.any (fun i => s.fitted i && (s.locks i).lost)
  let s := s.setCts { s.cts with locks := tmap (fun y => { y with count := y.resumed }) s.cts.locks }
  if lost then s.raise .store none else s

/-- Step 2 of R175: the causes of this reset join the stored set, and the set's write begins (R19). -/
def State.composeCauses (s : State) : State :=
  let fails := !s.cts.causeStore.ok
  let s := if fails then s.raise .store none else s
  s.writeCauses (causeUnion (if fails then Causes.none else s.cts.causeStore.set) s.heldCauses)

/-- The column enters STANDBY (R174): the causes of the reset are not recorded. -/
def State.enterStandby (s : State) : State :=
  ((s.setPhase .standby).setCfg { s.cfg with state := .standby }).setHeldCauses Causes.none

/-- Clamp and load, the store's mark, the lock-cycle counts, and the reset causes (R175, steps 1 and 2). -/
def State.startUp (m : ConfigFields) (check : BitVec 16) (s : State) : State :=
  ((s.load (clampFields m) (decide (clampFields m ≠ m)) check).checkMark.resumeLocks.composeCauses).setPhase .causeWrite

/-- CONFIGURATION_READ (R172 to R175). -/
def execConfigurationRead (r : ConfigRead) (s : State) : Host.Outcome State Fault Refusal :=
  .next
    (if s.phase = .reading then
      match passedRead r with
      | some (m, check) => s.startUp m check
      | none => s.enterStandby
    else s)

/-! ## The reset-cause write (R19) -/

/-- The write of the cause set has ended. -/
def State.causeWriteEnded (c : Causes) (ok : Bool) (s : State) : State :=
  if ok then s.setCts { s.cts with causeStore := CauseCopy.written c, causeWriting := none }
  else
    ((s.setCts { s.cts with causeStore := s.cts.causeStore.torn s.free, causeWriting := none }).setFree
      (s.free + 1)).raise .store none

/-- Start-up goes on to reconciliation once its write has ended (R175). -/
def State.afterCauseWrite (s : State) : State :=
  if s.phase = .causeWrite then (s.setPhase .reconciling).setHeldCauses Causes.none else s

/-- RESET_CAUSE_WRITE (R19). -/
def execResetCauseWrite (ok : Bool) (s : State) : Host.Outcome State Fault Refusal :=
  .next
    (match s.cts.causeWriting with
    | none => s
    | some c => (s.causeWriteEnded c ok).afterCauseWrite)

/-! ## Baseline (R20, R31) -/

/-- The raw door level means open. -/
def levelOpen (m : ConfigFields) (raw : Bool) : Bool := raw != m.doorPolarity

/-- The raw presence level means on. -/
def levelOn (m : ConfigFields) (raw : Bool) : Bool := raw == m.presencePolarity

/-- A slot awaits its baseline. -/
def State.awaitsBaseline (s : State) (slot : Slot) : Bool :=
  s.loaded && s.fitted slot && (s.sense slot).baseline.isNone

/-- Replaces the levels at a slot's inputs. -/
def State.setPin (s : State) (slot : Slot) (f : Pins → Pins) : State :=
  s.setPins (tset s.pins slot (f (tget s.pins slot)))

/-- The baseline states of a slot are taken, without events (R20, R31). -/
def State.takeBaseline (slot : Slot) (doorOpen presenceOn : Bool) (s : State) : State :=
  (s.setSense slot { s.sense slot with
    door := some doorOpen, doorTimer := 0, presence := some presenceOn, presenceTimer := 0, baseTimer := 0,
    baseline := some (doorOpen, presenceOn) }).refreshIdle slot

/-- BASELINE_SETTLED: the raw levels the two inputs have held (R20). -/
def execBaselineSettled (slot : Slot) (door presence : Bool) (s : State) : Host.Outcome State Fault Refusal :=
  .next
    (if s.awaitsBaseline slot then
      (s.setPin slot (fun p => { p with door := door, presence := presence })).takeBaseline slot
        (levelOpen s.conf door) (levelOn s.conf presence)
    else s)

/-- BASELINE_TIMEOUT: an input that has not settled is taken as open or on (R20). -/
def execBaselineTimeout (slot : Slot) (door presence : Option Bool) (s : State) : Host.Outcome State Fault Refusal :=
  .next
    (if s.awaitsBaseline slot then
      (s.setPin slot (fun p => { p with door := door.getD p.door, presence := presence.getD p.presence })).takeBaseline slot
        ((door.map (levelOpen s.conf)).getD true) ((presence.map (levelOn s.conf)).getD true)
    else s)

/-! ## Reconciliation (R20 to R23) -/

/-- What the store holds of a slot's record (R21): which copy is current, or a damaged record. -/
def SlotStore.found (x : SlotStore) : Option Bool :=
  match x.a.ok, x.b.ok with
  | true, true => if x.b.gen = x.a.gen + 1 then some true else if x.a.gen = x.b.gen + 1 then some false else none
  | true, false => some false
  | false, true => some true
  | false, false => none

/-- The record in a copy. -/
def SlotStore.content (x : SlotStore) (isB : Bool) : CompRec := if isB then x.b.content else x.a.content

/-- Table 2-7 for a slot found secure. -/
def reconciledSecure (r : CompRec) (on : Bool) : CompRec :=
  match r.state with
  | .empty => CompRec.emptied on
  | .offered _ => CompRec.emptied on
  | .held _ none => if on then r.faulted .unresolved none else CompRec.emptied false
  | .held _ (some p) => if on then { state := .occupied p, foreign := false, lost := false } else CompRec.emptied false
  | .occupied p => { state := .occupied p, foreign := r.foreign, lost := !on }
  | .releasing p => if on then { state := .occupied p, foreign := false, lost := false } else CompRec.emptied false
  | .fault _ _ | .retired => r

/-- Table 2-7 for a slot found not secure. -/
def reconciledOpen (r : CompRec) : CompRec :=
  match r.state with
  | .empty | .offered _ | .held _ _ | .occupied _ | .releasing _ => r.faulted .unsecure r.state.parcel?
  | .fault _ _ | .retired => r

/-- Table 2-7. -/
def reconciled (r : CompRec) (doorOpen on : Bool) : CompRec :=
  if doorOpen then reconciledOpen r else reconciledSecure r on

/-- FAULT(STORE) without a record or flags: a damaged record (R21). -/
def CompRec.damaged : CompRec := { state := .fault .store none, foreign := false, lost := false }

/-- The conditions of R23 for a reconciled record. -/
def State.raiseReconciled (slot : Slot) (r : CompRec) (s : State) : State :=
  match r.state with
  | .fault c _ => s.raise c.condition (some slot)
  | .empty => if r.foreign then s.raise .foreign (some slot) else s
  | .occupied _ => if r.lost then s.raise .presenceLost (some slot) else s
  | .offered _ | .held _ _ | .releasing _ | .retired => s

/-- The event of a damaged record's reconciliation: an entry into FAULT (entry 24). -/
def State.damagedEvent (s : State) : State := s.count .enterState (some CompTag.fault.pos) 0

/-- A slot whose stored record is sound is reconciled (R22, R23). -/
def State.reconcileSound (slot : Slot) (isB doorOpen on : Bool) (s : State) : State :=
  let stored := (s.store slot).content isB
  let r := reconciled stored doorOpen on
  let s := ((s.setStore slot { s.store slot with current := some isB }).setRec slot r).enterEvent stored.state r.state 0
  let s := s.raiseReconciled slot r
  if r = stored then s else s.beginWrite slot [] .reconciliation

/-- A slot whose stored record is damaged is reconciled (R21, R23). -/
def State.reconcileDamaged (slot : Slot) (s : State) : State :=
  let s := ((s.setStore slot { s.store slot with current := none }).setRec slot CompRec.damaged).damagedEvent
  (s.raiseReconciled slot CompRec.damaged).beginWrite slot [] .reconciliation

/-- A slot is reconciled with its baseline states. -/
def State.reconcile (slot : Slot) (doorOpen on : Bool) (s : State) : State :=
  match (s.store slot).found with
  | some isB => s.reconcileSound slot isB doorOpen on
  | none => s.reconcileDamaged slot

/-- A slot is done with reconciliation: not fitted, or its record is in the working table. -/
def State.settledSlot (s : State) (slot : Slot) : Bool := !s.fitted slot || (s.rec? slot).isSome

/-- It is the slot's turn: fitted, not yet reconciled, and every lower slot done (R20). -/
def State.reconcileTurn (s : State) (slot : Slot) : Bool :=
  s.phase == .reconciling && s.fitted slot && (s.rec? slot).isNone
    && allSlots.all (fun i => decide (slot.val ≤ i.val) || s.settledSlot i)

/-- RECONCILIATION (R20 to R23). -/
def execReconciliation (slot : Slot) (s : State) : Host.Outcome State Fault Refusal :=
  .next
    (match (s.sense slot).baseline with
    | some (doorOpen, on) => if s.reconcileTurn slot then s.reconcile slot doorOpen on else s
    | none => s)

/-! ## JOINING (R157) -/

/-- A write that reconciliation made of the slot's record is in progress (R23). -/
def State.reconciliationWriting (s : State) (slot : Slot) : Bool :=
  match (s.store slot).writing with
  | some w => w.cause == .reconciliation
  | none => false

/-- Every fitted slot is reconciled, and every write that reconciliation made has completed or failed (R23, R175). DESIGN
CHOICE: the FAULT(STORE) write that follows a failed one is not waited for (entry 47). -/
def State.readyToJoin (s : State) : Bool :=
  s.phase == .reconciling && allSlots.all (fun i => s.settledSlot i && !s.reconciliationWriting i)

/-- JOINING_ENTRY (R157, R60). -/
def execJoiningEntry (s : State) : Host.Outcome State Fault Refusal :=
  .next
    (if s.readyToJoin then
      ((s.setPhase .running).setLiu { s.liu with line := .joining, timer := 0 }).setBgu { s.bgu with age := some 0 }
    else s)

/-- The ANNOUNCE as it stands now (R176). -/
def State.announceFrame (s : State) : TxFrame :=
  TxFrame.fresh
    (.announce s.cts.causes s.cfg.state s.cfg.check (allSlots.filter s.fitted).length
      (allSlots.filter (fun i => match s.rec? i with | some r => r.state.tag == .fault | none => false)).length
      s.clk.minute s.clk.synced) 0 0

/-- JOINING_END (R157): ANNOUNCE is queued and the state becomes ACTIVE. -/
def execJoiningEnd (s : State) : Host.Outcome State Fault Refusal :=
  .next
    (if s.liu.line = .joining then
      let s := s.queueFrame s.announceFrame
      (s.setLiu { s.liu with line := .active, timer := 0 }).conclude
    else s)

/-- QUIET_END (R157). -/
def execQuietEnd (s : State) : Host.Outcome State Fault Refusal :=
  .next (if s.liu.line = .quiet then s.setLiu { s.liu with line := .joining, timer := 0 } else s)

end Sys2Proof.Machine
end

