-- ==== Sys2Proof/Machine/Line.lean ====
section
/-! DEFINITION. The bank line (chapter 11): the column's own transmissions, their failure, drop and success, the frames taken
from the line, the notes (chapter 5) and offers (chapter 7) handled at their arrival, and the bank level's age. -/

namespace Sys2Proof.Machine

/-! ## Error counts (R161) -/

/-- The largest error count. -/
def errorCountMax : Nat := 65535

/-- An error count goes up by 1, saturating. -/
def errorUp (n : Nat) : Nat := min (n + 1) errorCountMax

/-- The LINE_ERROR event of an error count that stood at `n`: given where the count increases, and so not at its largest value
(R161, Table 12-2). -/
def State.lineError (n : Nat) (s : State) : State := if n < errorCountMax then s.count .lineError none 0 else s

/-- A check fault is counted. -/
def State.countCheckFault (s : State) : State :=
  (s.setLiu { s.liu with checkFaults := errorUp s.liu.checkFaults }).lineError s.liu.checkFaults

/-- A transmission failure is counted. -/
def State.countFailure (s : State) : State :=
  (s.setLiu { s.liu with failures := errorUp s.liu.failures }).lineError s.liu.failures

/-- A drop is counted. -/
def State.countDrop (s : State) : State :=
  (s.setLiu { s.liu with dropCount := errorUp s.liu.dropCount }).lineError s.liu.dropCount

/-- A role failure is counted. -/
def State.countRoleFailure (s : State) : State :=
  (s.setLiu { s.liu with roleFailures := errorUp s.liu.roleFailures }).lineError s.liu.roleFailures

/-! ## The column's own transmission (R154, R156) -/

/-- Applies a function to the frame being transmitted. -/
def State.mapSending (f : TxFrame → TxFrame) (s : State) : State :=
  s.setTx (s.liu.tx.map (fun x => if x.sending then f x else x))

/-- Takes the frame being transmitted out of the queue. -/
def State.dropSending (s : State) : State := s.setTx (s.liu.tx.filter (fun x => !x.sending))

/-- What the column drives in the echo and void slots of a frame that ends (R155, R156). -/
def State.setDrive (d : EndDrive) (s : State) : State := s.setLiu { s.liu with drive := d }

/-- The line carries no bit of the column. -/
def State.silent (s : State) : State := s.setLiu { s.liu with lineBits := [] }

/-- The own note's cycle has ended, or a restart is pending: the note leaves at the end of its transmission (R71, R74;
entry 29). -/
def State.noteCancelled (s : State) : Bool :=
  s.restart || (match s.bgu.own with | .queued _ ended => ended | .none | .deferred _ => false)

/-- The end of a transmission without arrival: an offer whose entry has lapsed, or a note no longer wanted, leaves the queue
(R71, R74, R101); any other frame stays at its place. -/
def State.keepOrRemove (f : TxFrame) (s : State) : State :=
  if f.withdrawn then s.dropSending
  else if f.isNote && s.noteCancelled then s.dropSending.setOwn .none
  else s.mapSending (fun x => { x with sending := false })

/-- The column's transmission ends because another station has the line (R154). -/
def State.yieldLine (s : State) : State :=
  match s.sending? with
  | none => s
  | some f => (s.keepOrRemove f).silent

/-- The own note is no longer in the queue (R74). -/
def State.noteLost (s : State) : State :=
  match s.bgu.own with
  | .queued _ _ => s.setOwn .none
  | .none | .deferred _ => s

/-- The owner of a frame that is lost learns of it (R156, R157). -/
def State.tellOwner (f : TxFrame) (s : State) : State :=
  match f.body with
  | .pulseNote _ _ _ => s.noteLost
  | .placeOffer t _ _ => s.endOffer t
  | _ => s

/-- Entry into QUIET: the transmit queue is emptied, the owners are told, and the own-note state becomes NONE, whatever it was
(R157, R74). DESIGN CHOICE: the owners are told in the order of the transmit queue (entry 52). -/
def State.enterQuiet (s : State) : State :=
  let lost := s.liu.tx
  let s := s.setLiu { s.liu with line := .quiet, timer := 0, tx := [], drops := 0 }
  (lost.foldl (fun s f => s.tellOwner f) s).setOwn .none

/-- The consecutive drops that lead to QUIET (R156). -/
def dropLimit : Nat := 3

/-- A frame is dropped (R156). -/
def State.dropFrame (f : TxFrame) (s : State) : State :=
  let s := (s.dropSending.raise .lineDrop none).countDrop.tellOwner f
  let s := s.setLiu { s.liu with drops := s.liu.drops + 1 }
  if dropLimit ≤ s.liu.drops then s.enterQuiet else s

/-- The failed transmissions that drop a frame (R156). -/
def retryLimit : Nat := 8

/-- What the column drives at the end of its own failed transmission: the void slot of a collided frame (R156). -/
def failureDrive : TxFailure → EndDrive
  | .noEcho | .voided => .neither
  | .collided => .void

/-- A transmission of the column has failed (R156). DESIGN CHOICE: the eighth failure drops the frame also where it is a note
that a pending restart or the end of its cycle, or an offer that the lapse of its entry, would have removed at its failure
(R71, R101; entry 29). -/
def State.failSending (f : TxFrame) (s : State) : State :=
  let s := (s.mapSending (fun x => { x with retries := x.retries + 1 })).silent.countFailure
  if retryLimit ≤ f.retries + 1 then s.dropFrame f else s.keepOrRemove f

/-- TRANSMISSION_FAILED (R156). -/
def execTransmissionFailed (how : TxFailure) (s : State) : Host.Outcome State Fault Refusal :=
  .next
    (match s.sending? with
    | none => s
    | some f => ((s.setDrive (failureDrive how)).failSending f).conclude)

/-- ARBITRATION_LOST (R154). -/
def execArbitrationLost (s : State) : Host.Outcome State Fault Refusal := .next (s.yieldLine.conclude)

/-! ## A note on arrival (R68 to R73) -/

/-- The cycle a note is bound to is still in PULSE_WAIT. -/
def State.pulseWaiting? (s : State) (slot : Slot) : Option Cycle :=
  match s.cycle? slot with
  | some c => if c.stage = .pulseWait then some c else none
  | none => none

/-- The note's cycle has ended meanwhile (R70, R74). -/
def State.noteEnded (s : State) (slot : Slot) : Bool :=
  (match s.bgu.own with | .queued _ ended => ended | .none | .deferred _ => false) || (s.pulseWaiting? slot).isNone

/-- The column's own granted note drives its lock (R70, R44). -/
def State.drive (c : Cycle) (duration : Nat) (kind : DoorKind) (s : State) : State :=
  let s := (s.setDriver c.slot (some (duration * 10))).enterDriving c
  ((s.pulseFired c.slot).count .pulseFired (some kind.code) (s.carrierOf c.slot)).setOwn .none

/-- The column's own note, granted (R70). -/
def State.ownGranted (slot : Slot) (duration : Nat) (kind : DoorKind) (s : State) : State :=
  let ended := s.noteEnded slot
  let s := s.addPulse s.station (slotField slot) duration
  match s.pulseWaiting? slot with
  | some c => if ended then s.setOwn .none else s.drive c duration kind
  | none => s.setOwn .none

/-- The column's own note, denied (R72). -/
def State.ownDenied (slot : Slot) (kind : DoorKind) (s : State) : State :=
  let ended := s.noteEnded slot
  (s.count .pulseDenied (some kind.code) (s.carrierOf slot)).setOwn (if ended then .none else .deferred slot)

/-- The column's own note is judged at its arrival (R68). -/
def State.judgeOwn (slot : Slot) (duration : Nat) (kind : DoorKind) (s : State) : State :=
  if s.granted s.station (slotField slot) then s.ownGranted slot duration kind else s.ownDenied slot kind

/-! ## An offer on arrival (R97 to R100) -/

/-- The carrier a PLACE entry took from its call. -/
def State.callCarrier (s : State) (t : Ticket) : Nat := s.entryCarrier (placeJob t)

/-- The award (R99). DESIGN CHOICE: an entry whose compartment no longer carries the promise ends at once, also where the write of
the change that took the promise is still in progress (R89; entry 53). -/
def State.award (t : Ticket) (slot : Slot) (s : State) : State :=
  match s.rec? slot with
  | none => s.finishEntry (placeJob t)
  | some r =>
    if r.state = .offered t then
      let carrier := s.callCarrier t
      ((s.change slot { r with state := .held t none } carrier).updEntry (placeJob t)
        (Entry.toStage .held (some 0))).count .offerWon none carrier
    else s.finishEntry (placeJob t)

/-- The column's own offer arrives (Table 7-1). -/
def State.ownOffer (t : Ticket) (s : State) : State :=
  match s.entry? (placeJob t) with
  | none => s
  | some e =>
    match e.firstSlot? with
    | none => s
    | some slot => if e.stage = .promised ∧ e.ending = false then s.award t slot else s

/-- The spoken-for mark on queued calls of a ticket (R97). -/
def State.markSpoken (t : Ticket) (s : State) : State :=
  s.setLiu { s.liu with
    rx := s.liu.rx.map (fun f =>
      if f.kind = .placeCall ∧ f.station = t.station ∧ number? f.payload = some t.number then { f with spoken := true }
      else f) }

/-- Another station's offer arrives (Table 7-1). -/
def State.otherOffer (t : Ticket) (s : State) : State :=
  match s.entry? (placeJob t) with
  | none => s.markSpoken t
  | some e =>
    match e.firstSlot? with
    | none => s
    | some slot => if e.stage = .promised ∧ e.ending = false then (s.withdrawOffer t).endPromise t slot else s

/-! ## The column's own frame has arrived (R156, R159) -/

/-- An own note or offer, taken by the line, is handled by its unit (R159). -/
def State.handleOwn (s : State) : State :=
  match s.liu.handover with
  | none => s
  | some f =>
    let s := s.setLiu { s.liu with handover := none }
    match f.body with
    | .pulseNote slot duration kind => s.judgeOwn slot duration kind
    | .placeOffer t _ _ => s.ownOffer t
    | _ => s

/-- An own frame taken and not yet handled is handled by its unit whole, with the tests its arrival makes: the units' handling is
complete before anything else of the line (R69, R70, R86, R159; entry 8). -/
def State.finishOwn (s : State) : State := if s.liu.handover.isSome then s.handleOwn.conclude else s

/-- The frame is an ANNOUNCE. -/
def Body.isAnnounce : Body → Bool
  | .announce _ _ _ _ _ _ _ => true
  | _ => false

/-- The column's frame is taken by the line (R156): an ANNOUNCE clears the cause set (R176); a note or an offer is handed to
its unit (R159; entry 8). -/
def State.succeed (f : TxFrame) (s : State) : State :=
  let s := s.dropSending.silent.setDrive .neither
  let s := s.setLiu { s.liu with drops := 0 }
  if f.body.isAnnounce then s.writeCauses Causes.none
  else if f.body.cls ≤ 1 then s.setLiu { s.liu with handover := some f }
  else s

/-- The column's own transmission, if one is under way, is taken by the line. -/
def State.succeedSending (s : State) : State :=
  match s.sending? with
  | none => s
  | some f => s.succeed f

/-- TRANSMISSION_SUCCEEDED (R156). -/
def execTransmissionSucceeded (s : State) : Host.Outcome State Fault Refusal := .next (s.succeedSending.conclude)

/-- The frame the column contends with next is started (R153, R154, R160). DESIGN CHOICE: payload bytes without a layout are a new
free value at each start, so a retry of the same frame need not repeat them (entry 11). -/
def State.startSending (s : State) : State :=
  match nextIndex s.liu.tx 0 none with
  | none => s
  | some i =>
    match s.liu.tx[i]? with
    | none => s
    | some f =>
      (s.setLiu { s.liu with
        tx := s.liu.tx.set i { f with sending := true }
        lineBits := transmissionBits s.station f s.free }).setFree
        (if (knownPayload f.body).isSome then s.free else s.free + 1)

/-- TRANSMISSION_START (R154). An own frame already taken is handled first, with the queue test of its arrival, so that the next
cycle's note can be the frame started (R70, R159). -/
def execTransmissionStart (s : State) : Host.Outcome State Fault Refusal :=
  .next
    (let s := s.finishOwn
    if s.liu.line = .active ∧ s.transmitting = false then s.startSending.conclude else s.conclude)

/-! ## A frame from another station (R155, R158, R159) -/

/-- The places of the receive queue (R159). -/
def rxPlaces : Nat := 6

/-- A request joins the receive queue, or is dropped with OVERRUN (R159). -/
def State.enqueue (k : RequestKind) (f : Frame) (s : State) : State :=
  if s.liu.rx.length < rxPlaces then
    s.setLiu { s.liu with rx := s.liu.rx ++ [{ kind := k, station := f.station, payload := f.payload, spoken := false }] }
  else s.raise .overrun none

/-- A frame that passes R158 is delivered by its class (R159). A note, level or offer too short for its layout is ignored
(entry 22). -/
def State.deliver (k : LineKind) (f : Frame) (s : State) : State :=
  match k with
  | .pulseNote =>
    match decodeNote f.payload with
    | some n => s.judgeOther f.station n
    | none => s
  | .powerState =>
    match powerLevel f.payload with
    | some level => s.takeLevel level
    | none => s
  | .placeOffer =>
    match decodeOffer f.payload with
    | some t => s.otherOffer t
    | none => s
  | .answer => s
  | .request r => s.enqueue r f

/-- A frame taken by the line is filtered and delivered (R158, R159). -/
def State.accept (f : Frame) (s : State) : State :=
  match filterFrame s.conf s.station f with
  | .ignored => s
  | .roleFailure => s.countRoleFailure
  | .passed k => s.deliver k f

/-- The column receives a frame: it is on the line and saw the frame's start bit (R155). -/
def State.receives (s : State) (f : Frame) : Bool := s.onLine && f.seen

/-- The column as it judges a frame of another station at its end: the unit of an own frame already taken is done first, the
tests of its arrival with it (R69, R70, R159), and a transmission of the column's own has lost the line (entry 9). -/
def State.listening (s : State) : State := s.finishOwn.yieldLine

/-- A frame the column finds bad: it drives the void slot and counts a check fault (R155). -/
def State.void (s : State) : State := (s.setDrive .void).countCheckFault

/-- A frame of another station comes to its end and is taken by the line (R155): the column drives the echo slot and filters
it. A frame that it does not find good is voided. Of a frame it does not receive it drives neither slot. -/
def State.arrive (f : Frame) (s : State) : State :=
  if s.receives f then
    let s := s.listening
    (if frameGood f then (s.setDrive .echo).accept f else s.void).conclude
  else s.setDrive .neither

/-- FRAME_TAKEN (R159). -/
def execFrameTaken (f : Frame) (s : State) : Host.Outcome State Fault Refusal := .next (s.arrive f)

/-- POWER_STATE (R58). -/
def execPowerState (f : Frame) (s : State) : Host.Outcome State Fault Refusal := .next (s.arrive f)

/-- The own frame that arrives: taken by the line just now, or before (R159; entry 8). -/
def State.arriveOwn (s : State) : State := (if s.liu.handover.isNone then s.succeedSending else s).handleOwn

/-- The column's own note is the one that arrives. -/
def State.noteArriving (s : State) : Bool := s.noteBusy

/-- The column's own offer is the one that arrives. -/
def State.offerArriving (s : State) : Bool :=
  s.liu.tx.any (fun f => f.body.cls == 1 && f.sending)
    || (match s.liu.handover with | some f => f.body.cls == 1 | none => false)

/-- PULSE_NOTE (R68). -/
def execPulseNote (a : Arrival) (s : State) : Host.Outcome State Fault Refusal :=
  .next
    (match a with
    | .own => if s.noteArriving then s.arriveOwn.conclude else s
    | .other f => s.arrive f)

/-- PLACE_OFFER (R98). -/
def execPlaceOffer (a : Arrival) (s : State) : Host.Outcome State Fault Refusal :=
  .next
    (match a with
    | .own => if s.offerArriving then s.arriveOwn.conclude else s
    | .other f => s.arrive f)

/-- FRAME_VOIDED (R155): the column drives the void slot of a frame it finds bad; a frame that another station voids it has
echoed, and it is discarded. Of a frame it does not receive it drives neither slot. -/
def execFrameVoided (f : Frame) (s : State) : Host.Outcome State Fault Refusal :=
  .next
    (if s.receives f then
      let s := s.listening
      (if frameGood f then s.setDrive .echo else s.void).conclude
    else s.setDrive .neither)

/-! ## Level age, pulse list and drives -/

/-- LEVEL_AGE_EXPIRY (R59). -/
def execLevelAgeExpiry (s : State) : Host.Outcome State Fault Refusal :=
  .next (if s.bgu.age.isSome then s.fallBack.conclude else s)

/-- The entry of a station and slot leaves the pulse list (R67). -/
def State.dropPulse (st : BitVec 6) (slot : BitVec 5) (s : State) : State :=
  s.setBgu { s.bgu with pulses := s.bgu.pulses.filter (fun p => !(p.station == st && p.slot == slot)) }

/-- PULSE_ENTRY_END (R67). -/
def execPulseEntryEnd (station : BitVec 6) (slot : BitVec 5) (s : State) : Host.Outcome State Fault Refusal :=
  .next ((s.dropPulse station slot).conclude)

/-- The driver-off report to the Door Sequencer (R46, R71). -/
def State.reportDriverOff (slot : Slot) (s : State) : State :=
  match s.cycle? slot with
  | some c => if c.stage = .driving then s.driverOffStage c else s
  | none => s

/-- DRIVER_OFF (R71). -/
def execDriverOff (slot : Slot) (s : State) : Host.Outcome State Fault Refusal :=
  .next
    (if (tget s.bgu.drivers slot).isSome then ((s.setDriver slot none).reportDriverOff slot).conclude else s)

end Sys2Proof.Machine
end

