-- ==== Sys2Proof/Machine/Placement.lean ====
section
/-! DEFINITION. Placement (chapter 7): the call, the choice, the offer and the parcel's detail; and the lapse of entries
(R88). -/

namespace Sys2Proof.Machine

/-- The head of the receive queue, if it is of the kind (R159; entry 7): the frame, and the state without it. -/
def State.takeHead (k : RequestKind) (s : State) : Option (RxFrame × State) :=
  match s.liu.rx with
  | f :: rest => if f.kind = k then some (f, s.setLiu { s.liu with rx := rest }) else none
  | [] => none

/-- A ticket of a frame: its sender and the number it carries (R79). -/
def RxFrame.ticket (f : RxFrame) (number : BitVec 16) : Ticket := { station := f.station, number := number }

/-- The reply to a frame whose payload is too short: FORMAT, naming the ticket and the slot as far as the payload carries
them, with the carrier of the slot's record (R162, R166; entry 22). -/
def State.refuseShort (f : RxFrame) (s : State) : State :=
  s.refuse f.station (number? f.payload) (byte? f.payload 2) .format
    (match byte? f.payload 2 with | some n => s.carrierAt n | none => 0)

/-! ## The call (R92 to R96) -/

/-- A carrier number (Table 1-2). -/
def isCarrier (n : Nat) : Bool := decide (1 ≤ n) && decide (n ≤ 63)

/-- The carrier of a refused call's event: the call's where it lies in 1 to 63 (R92). -/
def callEventCarrier (n : Nat) : Nat := if isCarrier n then n else 0

/-- Wanted size, purpose and carrier have the values of R92. -/
def CallFields.wellFormed (c : CallFields) : Bool :=
  decide (1 ≤ c.size) && decide (c.size ≤ 4) && decide (c.purpose ≤ 1) && isCarrier c.carrier

/-- The purpose of a purpose code (R162). -/
def purposeOf (n : Nat) : Purpose := if n = 0 then .delivery else .carrierReturn

/-- EMPTY with the foreign flag clear, neither held nor named by a waiting entry (R94, R168). -/
def State.offerable (s : State) (slot : Slot) : Bool :=
  match s.rec? slot with
  | none => false
  | some r => r.state == .empty && !r.foreign && (s.holder? slot).isNone && !s.awaited slot

/-- A candidate for a call of a size (R94). -/
def State.candidate (s : State) (want : Nat) (slot : Slot) : Bool := s.offerable slot && decide (want ≤ s.size slot)

/-- The order of choice: size, then lock cycles; slots are taken in rising order (R94). -/
def State.preferred (s : State) (x y : Slot) : Bool :=
  decide (s.size x < s.size y) || (s.size x == s.size y && decide ((s.locks x).count < (s.locks y).count))

/-- The better of the best slot so far and a higher one. -/
def State.better (s : State) (best : Option Slot) (x : Slot) : Option Slot :=
  match best with
  | none => some x
  | some y => if s.preferred x y then some x else some y

/-- The compartment chosen for a call (R94). -/
def State.choose (s : State) (want : Nat) : Option Slot := (allSlots.filter (s.candidate want)).foldl s.better none

/-- The OCCUPIED compartments of the column. -/
def State.occupiedCount (s : State) : Nat := (allSlots.filter s.occupied).length

/-- The rank of an offer (R95). -/
def offerRank (difference occupied cycles : Nat) : Nat := min 255 (64 * difference + 2 * occupied + 8 * cycles)

/-- A PLACE entry as a call creates it (R96, step 1). -/
def placeEntry (t : Ticket) (slot : Slot) (c : CallFields) : Entry :=
  { Entry.fresh (placeJob t) [slot] .promised with purpose := purposeOf c.purpose, carrier := c.carrier }

/-- An offer as it would be queued (R95, R96). -/
def State.offerFrame (s : State) (t : Ticket) (slot : Slot) (want : Nat) : TxFrame :=
  TxFrame.fresh (.placeOffer t slot (s.size slot))
    (offerRank (s.size slot - want) s.occupiedCount s.dsq.cycles.length) 0

/-- OFFERED with a promise. -/
def CompRec.offeredTo (t : Ticket) : CompRec := { state := .offered t, foreign := false, lost := false }

/-- The offer is made (R96); one that finds no place in the transmit queue ends its promise as a loss, with TX_DISCARD
(R160; entry 25). -/
def State.makeOffer (t : Ticket) (slot : Slot) (c : CallFields) (s : State) : State :=
  let f := s.offerFrame t slot c.size
  let s := (s.addEntry (placeEntry t slot c)).change slot (CompRec.offeredTo t) c.carrier
  let p := placeIn f s.liu.tx
  let s := s.setTx p.queue
  if p.placed then
    (if p.discarded then s.raise .txDiscard none else s).count .offerMade none c.carrier
  else (s.endPromise t slot).raise .txDiscard none

/-- The conditions of R93 but for the candidate. -/
def State.mayOffer (s : State) (f : RxFrame) : Bool :=
  s.liu.line == .active && decide (s.bgu.level ≤ 1) && !f.spoken

/-- A well-formed call (R92 to R96). -/
def State.takeCall (f : RxFrame) (c : CallFields) (s : State) : State :=
  if (s.entry? (placeJob (f.ticket c.number))).isSome then s
  else if s.mayOffer f = false then s
  else
    match s.choose c.size with
    | none => s
    | some slot => if s.ortFull then s.refusalEvent .busy 0 else s.makeOffer (f.ticket c.number) slot c

/-- PLACE_CALL (R92). -/
def execPlaceCall (s : State) : Host.Outcome State Fault Refusal :=
  .next
    (match s.takeHead .placeCall with
    | none => s
    | some (f, s) =>
      match decodePlaceCall f.payload with
      | none => (s.refusalEvent .format 0).conclude
      | some c =>
        if c.wellFormed then (s.takeCall f c).conclude
        else (s.refusalEvent .format (callEventCarrier c.carrier)).conclude)

/-! ## The detail (R103 to R105) -/

/-- A DELIVERY's detail has a field out of range (R104). -/
def DetailFields.malformed (d : DetailFields) : Bool :=
  decide (999999 < d.code) || decide (7 < d.tariff) || decide (99999 < d.cod)

/-- The holding limit of a requested holding time (R104). -/
def holdingLimit (m : ConfigFields) (request : Nat) : Nat :=
  if request = 0 then m.hdef else if request < 60 then 60 else if m.hmax < request then m.hmax else request

/-- The parcel record of an accepted detail (R2, R105). -/
def State.newParcel (s : State) (e : Entry) (d : DetailFields) : Parcel :=
  match e.purpose with
  | .carrierReturn =>
    { ref := d.ref, carrier := e.carrier, purpose := .carrierReturn, code := none, tariff := 0,
      deposit := s.clk.minute, limit := none, cod := 0, paid := 0, settled := none, estimated := !s.clk.synced }
  | .delivery | .expired =>
    { ref := d.ref, carrier := e.carrier, purpose := .delivery, code := some d.code, tariff := d.tariff,
      deposit := s.clk.minute, limit := some (holdingLimit s.conf d.holding), cod := d.cod, paid := 0, settled := none,
      estimated := !s.clk.synced }

/-- A detail is accepted (R105): record, stage, and the door once the record's write has ended. -/
def State.acceptDetail (e : Entry) (slot : Slot) (d : DetailFields) (s : State) : State :=
  match s.rec? slot with
  | none => s
  | some r =>
    let s := (s.change slot { r with state := .held e.ticket (some (s.newParcel e d)) } 0).updEntry e.job
      (fun e => { e with stage := .door, timer := none, ref := d.ref })
    match s.attach slot (.detail e.ticket) with
    | some s' => s'
    | none => s.releaseDetail e.ticket slot

/-- REFUSE STALE or FORMAT to a detail, naming its ticket and slot (R103, R104). -/
def State.refuseDetail (f : RxFrame) (d : DetailFields) (r : Reason) (s : State) : State :=
  s.refuse f.station (some d.number) (some d.slot) r (s.carrierAt d.slot)

/-- A detail whose entry is HELD and whose slot field is the entry's (Table 7-2). DESIGN CHOICE: where the compartment no longer
carries the promise the entry ends at once, also while a write of the slot is in progress (R89; entry 53). -/
def State.detailHeld (f : RxFrame) (e : Entry) (slot : Slot) (d : DetailFields) (s : State) : State :=
  if s.heldFor slot e.ticket = false then
    let s := s.refuseDetail f d .stale
    if e.ending then s else s.finishEntry e.job
  else if e.purpose ≠ .carrierReturn ∧ d.malformed = true then s.refuseDetail f d .format
  else s.acceptDetail e slot d

/-- A detail is judged against its entry (Table 7-2). -/
def State.takeDetail (f : RxFrame) (d : DetailFields) (s : State) : State :=
  match s.entry? (placeJob (f.ticket d.number)) with
  | none => s.refuseDetail f d .stale
  | some e =>
    match e.stage, e.firstSlot? with
    | .door, _ => s
    | .held, some slot => if d.slot = slot.val then s.detailHeld f e slot d else s.refuseDetail f d .stale
    | _, _ => s.refuseDetail f d .stale

/-- PLACE_DETAIL (R103). -/
def execPlaceDetail (s : State) : Host.Outcome State Fault Refusal :=
  .next
    (match s.takeHead .placeDetail with
    | none => s
    | some (f, s) =>
      match decodePlaceDetail f.payload with
      | none => (s.refuseShort f).conclude
      | some d => (s.takeDetail f d).conclude)

/-! ## Lapses (R88) -/

/-- The effect of a lapse by stage (R88). -/
def State.lapse (e : Entry) (s : State) : State :=
  match e.stage, e.firstSlot? with
  | .promised, some slot => (s.withdrawOffer e.ticket).endPromise e.ticket slot
  | .held, some slot => s.endPromise e.ticket slot
  | .promised, none | .held, none => s.finishEntry e.job
  | .matched, _ | .listed, _ | .waiting, _ => s.finishEntry e.job
  | .door, _ | .immediate, _ => s

/-- ENTRY_LAPSE (R88): an entry whose lapse timer runs. -/
def execEntryLapse (kind : EntryKind) (ticket : Ticket) (s : State) : Host.Outcome State Fault Refusal :=
  .next
    (match s.entry? { kind := kind, ticket := ticket } with
    | none => s
    | some e => if e.timer.isSome && !e.ending then (s.lapse e).conclude else s)

end Sys2Proof.Machine
end

