-- ==== Sys2Proof/Machine/Release.lean ====
section
/-! DEFINITION. Collection, payments and sweep (chapters 9 and 10): COLLECT_CALL, PAY_NOTE, COLLECT_GO, SWEEP_CALL and
SWEEP_GO. -/

namespace Sys2Proof.Machine

/-! ## COLLECT_CALL (R136, R137) -/

/-- A new entry on slots: active, or WAITING where a slot is held or awaited (R85). `active` makes it active. -/
def State.createEntry (e : Entry) (slots : List Slot) (active : State → State) (s : State) : State :=
  if s.blocked slots then s.addEntry { e with stage := .waiting } else active (s.addEntry e)

/-- REFUSE BUSY naming the ticket (R82). -/
def State.refuseBusy (t : Ticket) (s : State) : State := s.refuse t.station (some t.number) none .busy 0

/-- A COLLECT entry as its call creates it. -/
def collectEntry (t : Ticket) (slots : List Slot) (code : Nat) : Entry :=
  { Entry.fresh (collectJob t) slots .matched with code := code }

/-- The most slots of a COLLECT entry (R136). -/
def collectSlots : Nat := 4

/-- A well-formed COLLECT_CALL that is not a repeat (Table 10-1). -/
def State.searchCode (t : Ticket) (code : Nat) (s : State) : State :=
  match (allSlots.filter (s.collectable code)).take collectSlots with
  | x :: rest =>
    if s.ortFull then s.refuseBusy t
    else s.createEntry (collectEntry t (x :: rest) code) (x :: rest) (fun s => s.activateCollect (collectJob t) (x :: rest))
  | [] =>
    match allSlots.find? (s.codeExpired code) with
    | some slot => s.refuseSlot t slot .expired
    | none => s

/-- The largest release code (Table 1-2). -/
def codeMax : Nat := 999999

/-- COLLECT_CALL (R136). -/
def execCollectCall (s : State) : Host.Outcome State Fault Refusal :=
  .next
    (match s.takeHead .collectCall with
    | none => s
    | some (f, s) =>
      match decodeCollectCall f.payload with
      | none => (s.refusalEvent .format 0).conclude
      | some c =>
        if codeMax < c.value then (s.refusalEvent .format 0).conclude
        else if (s.entry? (collectJob (f.ticket c.number))).isSome then s
        else (s.searchCode (f.ticket c.number) c.value).conclude)

/-! ## PAY_NOTE (R128 to R130) -/

/-- The DELIVERY parcel record of an OCCUPIED or RELEASING compartment. -/
def CompState.payable? : CompState → Option Parcel
  | .occupied p => if p.purpose = .delivery then some p else none
  | .releasing p => if p.purpose = .delivery then some p else none
  | .empty | .offered _ | .held _ _ | .fault _ _ | .retired => none

/-- The state of a compartment with its parcel record replaced. -/
def CompState.withParcel (c : CompState) (p : Parcel) : CompState :=
  match c with
  | .occupied _ => .occupied p
  | .releasing _ => .releasing p
  | .held t _ => .held t (some p)
  | .fault k _ => .fault k (some p)
  | .empty => .empty
  | .offered t => .offered t
  | .retired => .retired

/-- The due before payment (R129). -/
def State.dueBefore (s : State) (j : Job) (slot : Slot) (p : Parcel) (quote : BitVec 16) : Nat :=
  let t := s.clk.minute
  match s.currentQuote j slot with
  | some q => if q.number = quote ∧ t < q.valid then q.due else amountDue s.conf (s.size slot) p t
  | none => amountDue s.conf (s.size slot) p t

/-- The parcel record with a payment added (R130, steps 1 and 3). -/
def State.paidParcel (s : State) (slot : Slot) (p : Parcel) (amount : Nat) : Parcel :=
  let q := { p with paid := min (p.paid + amount) count24Max }
  if amountDueNoGrace s.conf (s.size slot) q s.clk.minute = 0 then { q with settled := some s.clk.minute } else q

/-- A taken PAY_NOTE is recorded (R129, R130). DESIGN CHOICE: one that leaves the record as it was, the paid total at its largest and
the settlement minute at T already, makes no write, and its QUOTE waits only for a write in progress (entry 50). -/
def State.recordPayment (t : Ticket) (slot : Slot) (r : CompRec) (p : Parcel) (quote : BitVec 16) (amount : Nat)
    (s : State) : State :=
  let excess := amount - s.dueBefore (collectJob t) slot p quote
  let minute := s.clk.minute
  let q := s.paidParcel slot p amount
  let s := (s.change slot { r with state := r.state.withParcel q } 0).updEntry (collectJob t) Entry.restartLapse
  s.await slot (.payment t excess minute q)

/-- REFUSE to a PAY_NOTE, naming its ticket and slot (R128). -/
def State.refusePay (f : RxFrame) (d : PayFields) (r : Reason) (s : State) : State :=
  s.refuse f.station (some d.number) (some d.slot) r (s.carrierAt d.slot)

/-- The slot an active COLLECT entry of the ticket holds, if the note's slot is one (R128, first test). -/
def State.payTarget (s : State) (t : Ticket) (n : Nat) : Option Slot :=
  match s.entry? (collectJob t), slotOf n with
  | some e, some slot => if e.holds slot then some slot else none
  | _, _ => none

/-- The largest amount of a payment (R128). -/
def amountMax : Nat := 99999

/-- A PAY_NOTE is judged (R128). -/
def State.takePayment (f : RxFrame) (d : PayFields) (s : State) : State :=
  match s.payTarget (f.ticket d.number) d.slot with
  | none => s.refusePay f d .stale
  | some slot =>
    if d.amount = 0 ∨ amountMax < d.amount then s.refusePay f d .format
    else
      match s.rec? slot with
      | none => s.refusePay f d .state
      | some r =>
        match r.state.payable? with
        | none => s.refusePay f d .state
        | some p => s.recordPayment (f.ticket d.number) slot r p d.quote d.amount

/-- PAY_NOTE (R128). -/
def execPayNote (s : State) : Host.Outcome State Fault Refusal :=
  .next
    (match s.takeHead .payNote with
    | none => s
    | some (f, s) =>
      match decodePayNote f.payload with
      | none => (s.refuseShort f).conclude
      | some d => (s.takePayment f d).conclude)

/-! ## COLLECT_GO (R140, R141) -/

/-- A GO refused whole: the ticket, and the first slot its list names or slot 0, with carrier 0 (R140). -/
def State.refuseGo (f : RxFrame) (g : GoFields) (r : Reason) (s : State) : State :=
  s.refuse f.station (some g.number) (some (g.slots.headD 0)) r 0

/-- A GO too short to carry a ticket (R162): FORMAT, naming slot 0. -/
def State.refuseGoShort (f : RxFrame) (s : State) : State := s.refuse f.station none (some 0) .format 0

/-- A list names 1 to `most` slots, each from 0 to 23. -/
def goodList (slots : List Nat) (most : Nat) : Bool :=
  !slots.isEmpty && decide (slots.length ≤ most) && slots.all (fun n => decide (n < 24))

/-- The slots a list names, each once, in rising order. -/
def namedSlots (slots : List Nat) : List Slot := allSlots.filter (fun x => slots.contains x.val)

/-- A slot asked for is MATCHED and is judged (Table 10-3 from its third row). -/
def State.goMatched (j : Job) (slot : Slot) (s : State) : State :=
  match s.judgeCollect slot with
  | .state => (s.refuseSlot j.ticket slot .state).slotDone j slot
  | .expired => (s.refuseSlot j.ticket slot .expired).slotDone j slot
  | .unpaid => s.refuseUnpaid j.ticket slot
  | .pass =>
    ((s.setProgress j slot .door).updEntry j Entry.restartLapse).askDoor
      { slot := slot, kind := .collect, job := j, ref := s.parcelRef slot }

/-- The progress of an entry's slot. -/
def State.progressOf (s : State) (j : Job) (slot : Slot) : Option Progress :=
  ((s.entry? j).bind (fun e => e.slot? slot)).map (fun x => x.progress)

/-- One slot of a COLLECT_GO (Table 10-3), with the tests its releases call for. -/
def State.goSlot (j : Job) (s : State) (slot : Slot) : State :=
  (match s.progressOf j slot with
  | none | some .done => s.refuseSlot j.ticket slot .stale
  | some .door => s
  | some .matched => s.goMatched j slot).settle settleRounds

/-- A taken COLLECT_GO (R140, R141). -/
def State.goCollect (j : Job) (g : GoFields) (s : State) : State :=
  (namedSlots g.slots).foldl (fun s slot => s.goSlot j slot) (s.updEntry j Entry.restartLapse)

/-- An active entry of a kind carries the ticket. -/
def State.activeEntry (s : State) (j : Job) : Bool :=
  match s.entry? j with
  | some e => e.stage != .waiting
  | none => false

/-- A COLLECT_GO is judged as a whole (R140). -/
def State.takeCollectGo (f : RxFrame) (g : GoFields) (s : State) : State :=
  if s.activeEntry (collectJob (f.ticket g.number)) = false then s.refuseGo f g .stale
  else if goodList g.slots collectSlots = false then s.refuseGo f g .format
  else if 3 ≤ s.bgu.level then s.refuseGo f g .power
  else s.goCollect (collectJob (f.ticket g.number)) g

/-- COLLECT_GO (R140). -/
def execCollectGo (s : State) : Host.Outcome State Fault Refusal :=
  .next
    (match s.takeHead .collectGo with
    | none => s
    | some (f, s) =>
      match decodeGo f.payload with
      | none => (s.refuseGoShort f).conclude
      | some g => (s.takeCollectGo f g).conclude)

/-! ## SWEEP_CALL (R145) -/

/-- The most slots of a SWEEP entry (R145). -/
def sweepSlots : Nat := 12

/-- A SWEEP entry as its call creates it. -/
def sweepEntry (t : Ticket) (slots : List Slot) (carrier : Nat) (more : Bool) : Entry :=
  { Entry.fresh (sweepJob t) slots .listed with carrier := carrier, more := more }

/-- A well-formed SWEEP_CALL that is not a repeat (R145). -/
def State.searchCarrier (t : Ticket) (carrier : Nat) (s : State) : State :=
  let found := allSlots.filter (s.sweepMatch carrier)
  match found.take sweepSlots with
  | [] => s
  | x :: rest =>
    if s.ortFull then s.refuseBusy t
    else
      s.createEntry (sweepEntry t (x :: rest) carrier (decide (sweepSlots < found.length))) (x :: rest)
        (fun s => s.activateSweep (sweepJob t) (x :: rest))

/-- SWEEP_CALL (R145). -/
def execSweepCall (s : State) : Host.Outcome State Fault Refusal :=
  .next
    (match s.takeHead .sweepCall with
    | none => s
    | some (f, s) =>
      match decodeSweepCall f.payload with
      | none => (s.refusalEvent .format 0).conclude
      | some c =>
        if isCarrier c.value = false then (s.refusalEvent .format 0).conclude
        else if (s.entry? (sweepJob (f.ticket c.number))).isSome then s
        else (s.searchCarrier (f.ticket c.number) c.value).conclude)

/-! ## SWEEP_GO (R146) -/

/-- A named slot is accepted: in the entry's list and still matching (R146). -/
def State.sweepAccepts (s : State) (e : Entry) (slot : Slot) : Bool :=
  e.slotList.contains slot && s.sweepMatch e.carrier slot

/-- A sweep door is asked for (R146). -/
def State.askSweep (j : Job) (s : State) (slot : Slot) : State :=
  (s.setProgress j slot .door).askDoor { slot := slot, kind := .sweep, job := j, ref := s.parcelRef slot }

/-- A slot of a SWEEP entry is released and removed from its list, and the eligibility test is made (R84, R86, R89). -/
def State.dropSwept (j : Job) (s : State) (slot : Slot) : State := (s.removeSlot j slot).settle settleRounds

/-- The refused slots are answered together, and dropped (R146). -/
def State.refuseSwept (j : Job) (refused : List Slot) (s : State) : State :=
  match refused with
  | [] => s
  | x :: _ => refused.foldl (State.dropSwept j) (s.refuseSlot j.ticket x .state)

/-- The listed slots a GO does not name are released, and its entry enters DOOR (R146). -/
def State.releaseUnnamed (e : Entry) (named : List Slot) (s : State) : State :=
  (e.slotList.filter (fun x => !named.contains x)).foldl (State.dropSwept e.job)
    (s.updEntry e.job (Entry.toStage .door none))

/-- The slots a GO names are judged (R146): the refused are answered and dropped, then the accepted are asked for (entry 36);
without an accepted slot the entry ends. -/
def State.judgeNamed (e : Entry) (named : List Slot) (s : State) : State :=
  let accepted := named.filter (s.sweepAccepts e)
  let s := s.refuseSwept e.job (named.filter (fun x => !s.sweepAccepts e x))
  if accepted.isEmpty then s.finishEntry e.job else accepted.foldl (State.askSweep e.job) s

/-- A taken SWEEP_GO (R146). -/
def State.goSweep (e : Entry) (g : GoFields) (s : State) : State :=
  (s.releaseUnnamed e (namedSlots g.slots)).judgeNamed e (namedSlots g.slots)

/-- A SWEEP_GO is judged (R146). -/
def State.takeSweepGo (f : RxFrame) (g : GoFields) (s : State) : State :=
  match s.entry? (sweepJob (f.ticket g.number)) with
  | none => s.refuseGo f g .stale
  | some e =>
    if e.stage = .waiting then s.refuseGo f g .stale
    else if e.stage ≠ .listed then s
    else if goodList g.slots sweepSlots = false then s.refuseGo f g .format
    else if 2 ≤ s.bgu.level then s.refuseGo f g .power
    else s.goSweep e g

/-- SWEEP_GO (R146). -/
def execSweepGo (s : State) : Host.Outcome State Fault Refusal :=
  .next
    (match s.takeHead .sweepGo with
    | none => s
    | some (f, s) =>
      match decodeGo f.payload with
      | none => (s.refuseGoShort f).conclude
      | some g => (s.takeSweepGo f g).conclude)

end Sys2Proof.Machine
end

