-- ==== Sys2Proof/Machine/Queries.lean ====
section
/-! DEFINITION. Queries and their answers (section 12.3), OUTPUT_SET (R77), TIME (R111) and ALERT_CLEAR (R165). -/

namespace Sys2Proof.Machine

/-- REFUSE FORMAT to a query: carrier 0 (R168). It names the slot a SLOT_QUERY carries. -/
def State.refuseQuery (f : RxFrame) (slot : Option Nat) (s : State) : State := s.refuse f.station none slot .format 0

/-! ## FREE_QUERY -/

/-- The offerable compartments of a size class (R168). -/
def State.offerableCount (s : State) (size : Nat) : Nat :=
  (allSlots.filter (fun i => s.offerable i && s.size i == size)).length

/-- FREE_REPORT as it stands (R168). -/
def State.freeBody (s : State) : Body :=
  .freeReport #v[s.offerableCount 1, s.offerableCount 2, s.offerableCount 3, s.offerableCount 4] s.occupiedCount

/-- FREE_QUERY (R168). -/
def execFreeQuery (s : State) : Host.Outcome State Fault Refusal :=
  .next
    (match s.takeHead .freeQuery with
    | none => s
    | some (f, s) => (s.answer f.station s.freeBody).conclude)

/-! ## STATUS_QUERY (R169, R161) -/

/-- The compartments in a state, fitted slots only (R169). -/
def State.tagCount (s : State) (t : CompTag) : Nat :=
  (allSlots.filter (fun i => match s.rec? i with | some r => r.state.tag == t | none => false)).length

/-- The seven states in the order they are reported. -/
def allTags : List CompTag := [.empty, .offered, .held, .occupied, .releasing, .fault, .retired]

/-- Part 0 of STATUS (Table 12-3). -/
def State.statusMain (s : State) : StatusMain :=
  { line := s.liu.line, level := s.bgu.level, basis := s.bgu.basis, synced := s.clk.synced, minute := s.clk.minute,
    config := s.cfg.state, conds := s.rpt.conds, attention := s.rpt.attention, lastFault := s.rpt.lastFault,
    counts := allTags.map (fun t => (t, s.tagCount t)), places := s.ort.length,
    waiting := (s.ort.filter (fun e => e.stage == .waiting)).length, txEmpty := s.liu.tx.isEmpty,
    txIdle := s.liu.tx.all (fun f => !f.sending && f.retries == 0) }

/-- STATUS by part (Table 12-3). -/
def State.statusBody (s : State) (part : Nat) : Option Body :=
  match part with
  | 0 => some (.statusMain s.statusMain)
  | 1 =>
    some (.statusLine s.liu.checkFaults s.liu.failures s.liu.dropCount s.liu.roleFailures s.out.auxDemand
      s.out.auxActual)
  | 2 => some (.statusLamps s.out.lampDemand s.out.lampActual)
  | _ => none

/-- STATUS_QUERY (R169). -/
def execStatusQuery (s : State) : Host.Outcome State Fault Refusal :=
  .next
    (match s.takeHead .statusQuery with
    | none => s
    | some (f, s) =>
      match (byte? f.payload 0).bind s.statusBody with
      | some b => (s.answer f.station b).conclude
      | none => (s.refuseQuery f none).conclude)

/-! ## SLOT_QUERY (R170) -/

/-- Part 0 of SLOT_REPORT (R170). -/
def State.slotMain (s : State) (slot : Slot) (r : CompRec) : SlotMain :=
  let x := s.sense slot
  { size := s.size slot, tag := r.state.tag, purpose := r.state.purpose?, cause := r.state.cause?,
    promise := r.state.promise?, foreign := r.foreign, lost := r.lost, lockCycles := (s.locks slot).count,
    door := x.door, presence := x.presence, secure := x.secure, bolt := x.bolt,
    holder := (s.holder? slot).map Entry.job,
    waiting := (s.ort.filter (fun e => e.awaits slot)).length, queued := s.inDoorQueue slot,
    stage := (s.cycle? slot).map (fun c => (c.stage, c.attempt)) }

/-- Part 1 of SLOT_REPORT for a compartment without a parcel record. -/
def SlotParcel.zero : SlotParcel :=
  { ref := 0, carrier := 0, purpose := none, code := 0, tariff := 0, deposit := 0, limit := 0, estimated := false }

/-- Part 1 of SLOT_REPORT (R170). -/
def Parcel.report (p : Parcel) : SlotParcel :=
  { ref := p.ref, carrier := p.carrier, purpose := some p.purpose, code := p.code.getD 0, tariff := p.tariff,
    deposit := p.deposit, limit := p.limit.getD 0, estimated := p.estimated }

/-- Part 2 of SLOT_REPORT for a compartment without a parcel record. -/
def SlotMoney.zero : SlotMoney := { cod := 0, paid := 0, settled := 0, settledPresent := false }

/-- Part 2 of SLOT_REPORT (R170). -/
def Parcel.money (p : Parcel) : SlotMoney :=
  { cod := p.cod, paid := p.paid, settled := p.settled.getD 0, settledPresent := p.settled.isSome }

/-- SLOT_REPORT of a slot by part (R170). -/
def State.slotBody (s : State) (slot : Slot) (r : CompRec) (part : Nat) : Option Body :=
  match part with
  | 0 => some (.slotMain slot (s.slotMain slot r))
  | 1 =>
    some (match r.state.parcel? with
      | some p => .slotParcel slot true p.report
      | none => .slotParcel slot false SlotParcel.zero)
  | 2 =>
    some (match r.state.parcel? with
      | some p => .slotMoney slot true p.money
      | none => .slotMoney slot false SlotMoney.zero)
  | _ => none

/-- A SLOT_QUERY for a slot and a part (R168, R170). DESIGN CHOICE: the ranges are tested before the fitting, so a slot that is
not fitted with a part above 2 is answered FORMAT (entry 46). -/
def State.answerSlot (f : RxFrame) (n part : Nat) (s : State) : State :=
  match slotOf n with
  | none => s.refuseQuery f (some n)
  | some slot =>
    if 2 < part then s.refuseQuery f (some n)
    else
      match s.rec? slot with
      | none => s.refuse f.station none (some n) .noSuch 0
      | some r =>
        match s.slotBody slot r part with
        | some b => s.answer f.station b
        | none => s.refuseQuery f (some n)

/-- SLOT_QUERY (R170). -/
def execSlotQuery (s : State) : Host.Outcome State Fault Refusal :=
  .next
    (match s.takeHead .slotQuery with
    | none => s
    | some (f, s) =>
      match byte? f.payload 0, byte? f.payload 1 with
      | some n, some part => (s.answerSlot f n part).conclude
      | slot, _ => (s.refuseQuery f slot).conclude)

/-! ## COUNT_QUERY and COUNT_CLEAR (R167) -/

/-- COUNT_REPORT as it stands (R167). -/
def State.countBody (s : State) : Body := .countReport (vmap (fun c => c.kind) s.conf.counters) s.rpt.counters

/-- COUNT_QUERY (R167). -/
def execCountQuery (s : State) : Host.Outcome State Fault Refusal :=
  .next
    (match s.takeHead .countQuery with
    | none => s
    | some (f, s) => (s.answer f.station s.countBody).conclude)

/-- The four counters at zero (R167). -/
def State.clearCounters (s : State) : State := s.setRpt { s.rpt with counters := Vector.replicate 4 0 }

/-- COUNT_CLEAR (R167). -/
def execCountClear (s : State) : Host.Outcome State Fault Refusal :=
  .next
    (match s.takeHead .countClear with
    | none => s
    | some (f, s) => ((s.answer f.station s.countBody).clearCounters).conclude)

/-! ## OUTPUT_SET (R77) -/

/-- The demand a setting gives (R77). -/
def settingDemand (setting : Nat) (demand default : Bool) : Bool :=
  match setting with
  | 1 => true
  | 2 => false
  | 3 => default
  | _ => demand

/-- The four auxiliary demands set together (R77). -/
def State.setAux (v : Vector Nat 4) (s : State) : State :=
  (s.setOut { s.out with
    auxDemand := Vector.ofFn (fun i : Fin 4 => settingDemand v[i] s.out.auxDemand[i] s.conf.auxDefault[i]) }).refreshOutputs

/-- OUTPUT_SET (R77). -/
def execOutputSet (s : State) : Host.Outcome State Fault Refusal :=
  .next
    (match s.takeHead .outputSet with
    | none => s
    | some (f, s) =>
      match decodeOutputSet f.payload with
      | some v =>
        if vall (fun x => decide (x ≤ 3)) v then (s.setAux v).conclude else (s.refuseQuery f none).conclude
      | none => (s.refuseQuery f none).conclude)

/-! ## TIME (R111, R112) -/

/-- The value a tick or TIME frame is applied to: C, or the value of the last retained-minute write waiting (R109; entry
34). -/
def State.lastMinute (s : State) : Nat :=
  match s.cts.minuteWrites.getLast? with
  | some w => w.value
  | none => s.clk.minute

/-- A value of C goes to the retained minute (R18, R109). -/
def State.writeMinute (value : Nat) (tick : Bool) (s : State) : State :=
  s.setCts { s.cts with
    minuteWrites := s.cts.minuteWrites ++ [{ value := value, tick := tick, synced := s.clk.synced }] }

/-- A TIME frame is accepted with a hold count (Table 8-1). -/
def State.acceptTime (hold : Nat) (s : State) : State :=
  s.setClk { s.clk with hold := hold, sub := 0, synced := true, age := 0 }

/-- The most minutes the column may be ahead of the bank (R111). -/
def aheadMax : Nat := 1440

/-- A TIME frame with bank minute M (Table 8-1). -/
def State.takeTime (m : Nat) (s : State) : State :=
  let c := s.lastMinute
  if c < m then (s.writeMinute m false).acceptTime 0
  else if c - m ≤ aheadMax then s.acceptTime (c - m)
  else s.raise .timeFault none

/-- TIME (R111); a short one is ignored (R162). -/
def execTime (s : State) : Host.Outcome State Fault Refusal :=
  .next
    (match s.takeHead .time with
    | none => s
    | some (f, s) =>
      match decodeTime f.payload with
      | some m => (s.takeTime m).conclude
      | none => s)

/-! ## ALERT_CLEAR (R165) -/

/-- The named conditions are cleared and attention recomputed (R165). -/
def State.clearConds (mask : BitVec 14) (s : State) : State :=
  let conds := s.rpt.conds &&& ~~~mask
  s.setRpt { s.rpt with conds := conds, attention := attentionOf conds s.conf.enables }

/-- ALERT_CLEAR (R165); a short one is ignored (R162). -/
def execAlertClear (s : State) : Host.Outcome State Fault Refusal :=
  .next
    (match s.takeHead .alertClear with
    | none => s
    | some (f, s) =>
      match decodeMask f.payload with
      | some mask => (s.clearConds mask).conclude
      | none => s)

end Sys2Proof.Machine
end

