-- ==== Sys2Proof/Machine/Services.lean ====
section
/-! DEFINITION. The service requests (section 10.5). -/

namespace Sys2Proof.Machine

/-- A SERVICE entry as its request creates it (R147). -/
def serviceEntry (t : Ticket) (slot : Slot) (sub : ServiceKind) : Entry :=
  { Entry.fresh (serviceJob t) [slot] .immediate with sub := some sub }

/-- REFUSE NO_SUCH naming the slot (R147). -/
def State.refuseNoSuch (f : RxFrame) (d : TicketValue) (s : State) : State :=
  s.refuse f.station (some d.number) (some d.value) .noSuch 0

/-- A service request on a fitted slot: repeat, capacity, creation (R80, R147). -/
def State.newService (t : Ticket) (sub : ServiceKind) (slot : Slot) (s : State) : State :=
  if (s.entry? (serviceJob t)).isSome then s
  else if s.ortFull then s.refuseBusy t
  else s.createEntry (serviceEntry t slot sub) [slot] (fun s => s.activateService (serviceJob t) sub slot)

/-- A service request with its ticket and slot (R147). -/
def State.takeService (f : RxFrame) (sub : ServiceKind) (d : TicketValue) (s : State) : State :=
  match slotOf d.value with
  | none => s.refuseNoSuch f d
  | some slot => if s.fitted slot then s.newService (f.ticket d.number) sub slot else s.refuseNoSuch f d

/-- A service frame taken from the receive queue, its form checked (R147, R162). -/
def State.service (k : RequestKind) (sub : ServiceKind) (s : State) : State :=
  match s.takeHead k with
  | none => s
  | some (f, s) =>
    match decodeService f.payload with
    | none => (s.refuseShort f).conclude
    | some d => (s.takeService f sub d).conclude

/-- SERVICE_OPEN (R148). -/
def execServiceOpen (s : State) : Host.Outcome State Fault Refusal := .next (s.service .serviceOpen .open)

/-- SERVICE_CLEAR (R149). -/
def execServiceClear (s : State) : Host.Outcome State Fault Refusal := .next (s.service .serviceClear .clear)

/-- SERVICE_RETIRE (R150). -/
def execServiceRetire (s : State) : Host.Outcome State Fault Refusal := .next (s.service .serviceRetire .retire)

/-- SERVICE_RESTORE (R150). -/
def execServiceRestore (s : State) : Host.Outcome State Fault Refusal := .next (s.service .serviceRestore .restore)

/-- A pending restart withdraws a queued note that is not being transmitted (R71). -/
def State.withdrawForRestart (s : State) : State :=
  match s.bgu.own with
  | .queued _ _ => if s.noteBusy then s else s.removeNote.setOwn .none
  | .none | .deferred _ => s

/-- SERVICE_RESTART (R151). -/
def execServiceRestart (s : State) : Host.Outcome State Fault Refusal :=
  .next
    (match s.takeHead .serviceRestart with
    | none => s
    | some (_, s) => ((s.setRestart true).withdrawForRestart).conclude)

end Sys2Proof.Machine
end

