-- ==== Sys2Proof/Machine/Sensors.lean ====
section
/-! DEFINITION. Latch, door and presence sensing (chapter 3): what each sensor event does to the slot's sensing state, its
cycle and its record. -/

namespace Sys2Proof.Machine

/-- The slot's inputs are sampled: the configuration is loaded and the slot fitted (R24, R28). -/
def State.sampled (s : State) (slot : Slot) : Bool := s.loaded && s.fitted slot

/-! ## Latch gates (R24 to R26, R32, R34) -/

/-- The levels after a change of one gate. -/
def Pins.flip (p : Pins) : Gate → Pins
  | .a => { p with gateA := !p.gateA }
  | .b => { p with gateB := !p.gateB }

/-- The gate levels of a slot's inputs. -/
def Pins.gates (p : Pins) : Bool × Bool := (p.gateA, p.gateB)

/-- An edge's direction and enable (Table 3-1): the gate, its new level, and the other gate's level. -/
def edgeCase (e : EdgeEnables) (gate : Gate) (rising other : Bool) : Bool × Bool :=
  match gate, rising, other with
  | .a, true, false => (true, e.aRiseBLow)
  | .b, true, true => (true, e.bRiseAHigh)
  | .a, false, true => (true, e.aFallBHigh)
  | .b, false, false => (true, e.bFallALow)
  | .a, true, true => (false, e.aRiseBHigh)
  | .b, true, false => (false, e.bRiseALow)
  | .a, false, false => (false, e.aFallBLow)
  | .b, false, true => (false, e.bFallAHigh)

/-- The edge case of a gate's change to new levels. -/
def edgeOf (e : EdgeEnables) (gate : Gate) (now : Bool × Bool) : Bool × Bool :=
  match gate with
  | .a => edgeCase e .a now.1 now.2
  | .b => edgeCase e .b now.2 now.1

/-- The largest bolt count (R26). -/
def boltMax : Nat := 15

/-- The bolt count after a step up or down, saturating (R26). -/
def boltStep (up : Bool) (n : Nat) : Nat := if up then min (n + 1) boltMax else n - 1

/-- The bolt-low timer after a step to a count (R32). -/
def boltLowAfter (timer : Option Nat) (count : Nat) : Option Nat := if 2 ≤ count then none else some (timer.getD 0)

/-- A slot's sensing state after a counted step. -/
def Sense.stepped (x : Sense) (up : Bool) : Sense :=
  let n := boltStep up x.bolt
  { x with bolt := n, boltLow := boltLowAfter x.boltLow n }

/-- A counted step, with what the slot's cycle and the window check make of it (R32, R34, R46, R52). -/
def State.countStep (slot : Slot) (up : Bool) (s : State) : State :=
  let x := s.sense slot
  let y := x.stepped up
  let s := (s.setSense slot y).refreshIdle slot
  let s := if x.secure && !y.secure then s.onCycle slot Cycle.onBoltOff else s
  let s := if up && decide (s.conf.threshold ≤ y.bolt) then s.onCycle slot Cycle.onBoltReached else s
  if up && x.bolt + 1 == s.conf.threshold && y.bolt == s.conf.threshold && !s.windowOpen slot then s.forcedReport slot
  else s

/-- The new gate levels are those the next edge is classified against (R24). -/
def State.takeGates (slot : Slot) (now : Bool × Bool) (s : State) : State :=
  (s.setSense slot { s.sense slot with gates := some now }).refreshIdle slot

/-- An edge against an earlier sample (R25). A disabled case leaves the count. -/
def State.takeEdge (slot : Slot) (gate : Gate) (now : Bool × Bool) (s : State) : State :=
  let e := edgeOf s.conf.edges gate now
  let s := s.takeGates slot now
  if e.2 then s.countStep slot e.1 else s

/-- BOLT_STEP (R25): one gate of a slot changes. Without an earlier sample the levels are only taken (R28). -/
def execBoltStep (slot : Slot) (gate : Gate) (s : State) : Host.Outcome State Fault Refusal :=
  .next
    (let s := s.setPin slot (fun p => p.flip gate)
    let now := (tget s.pins slot).gates
    if s.sampled slot = false then s
    else if (s.sense slot).gates.isNone then (s.takeGates slot now).conclude
    else (s.takeEdge slot gate now).conclude)

/-- DOUBLE_GATE_CHANGE (R24): both gates change between two samples; nothing is counted. -/
def execDoubleGateChange (slot : Slot) (s : State) : Host.Outcome State Fault Refusal :=
  .next
    (let s := s.setPin slot (fun p => (p.flip .a).flip .b)
    if s.sampled slot then s.takeGates slot (tget s.pins slot).gates else s)

/-- A slot's sensing state after a home re-zero: the count 0, the home-idle timer from zero, the bolt-low timer running
(R27, R32). -/
def Sense.reZeroed (x : Sense) : Sense :=
  { x with bolt := 0, homeIdle := some 0, boltLow := some (x.boltLow.getD 0) }

/-- HOME_RE_ZERO (R27): the home-idle timer of the slot runs and has reached 10 s. -/
def execHomeReZero (slot : Slot) (s : State) : Host.Outcome State Fault Refusal :=
  .next
    (if s.sampled slot && (s.sense slot).homeIdle.isSome then s.setSense slot (s.sense slot).reZeroed else s)

/-! ## The door (R29, R33, R34) -/

/-- The debounced door state of a slot changes. -/
def State.setDoor (slot : Slot) (isOpen : Bool) (s : State) : State :=
  let s := s.setPin slot (fun p => { p with door := isOpen != s.conf.doorPolarity })
  (s.setSense slot { s.sense slot with door := some isOpen, doorTimer := 0 }).refreshIdle slot

/-- DOOR_OPENED (R29): to the cycle within the expected window, else a forced report (R34). -/
def execDoorOpened (slot : Slot) (s : State) : Host.Outcome State Fault Refusal :=
  .next
    (if s.sampled slot && (s.sense slot).door == some false then
      let s := s.setDoor slot true
      (if s.windowOpen slot then s.onCycle slot Cycle.onDoorOpened else s.forcedReport slot).conclude
    else s)

/-- DOOR_CLOSED (R29). -/
def execDoorClosed (slot : Slot) (s : State) : Host.Outcome State Fault Refusal :=
  .next
    (if s.sampled slot && (s.sense slot).door == some true then
      let s := s.setDoor slot false
      (s.onCycle slot (fun c => c.onDoorClosed (s.sense slot).secure)).conclude
    else s)

/-! ## Presence (R30, R36 to R39) -/

/-- The debounced presence state of a slot changes. -/
def State.setPresence (slot : Slot) (on : Bool) (s : State) : State :=
  let s := s.setPin slot (fun p => { p with presence := on == s.conf.presencePolarity })
  s.setSense slot { s.sense slot with presence := some on, presenceTimer := 0 }

/-- A presence event's flag change for a compartment without a door cycle in progress (R36, R38, R39). -/
def presenceRec (r : CompRec) (on : Bool) : CompRec :=
  match r.state with
  | .empty => { r with foreign := on }
  | .occupied _ => { r with lost := !on }
  | .offered _ | .held _ _ | .releasing _ | .fault _ _ | .retired => r

/-- The condition a presence event raises (R36, R38). -/
def presenceCondition (c : CompState) (on : Bool) : Option Condition :=
  match c, on with
  | .empty, true => some .foreign
  | .occupied _, false => some .presenceLost
  | _, _ => none

/-- The flag checks of a presence event (R36 to R39). -/
def State.flagCheck (slot : Slot) (on : Bool) (s : State) : State :=
  match s.rec? slot with
  | none => s
  | some r =>
    if s.inCycle slot then s
    else
      let s := s.change slot (presenceRec r on) 0
      match presenceCondition r.state on with
      | some c => s.raise c (some slot)
      | none => s

/-- PRESENCE_ON (R30, R36, R38). -/
def execPresenceOn (slot : Slot) (s : State) : Host.Outcome State Fault Refusal :=
  .next
    (if s.sampled slot && (s.sense slot).presence == some false then
      ((s.setPresence slot true).flagCheck slot true).conclude
    else s)

/-- PRESENCE_OFF (R30, R36, R38). -/
def execPresenceOff (slot : Slot) (s : State) : Host.Outcome State Fault Refusal :=
  .next
    (if s.sampled slot && (s.sense slot).presence == some true then
      ((s.setPresence slot false).flagCheck slot false).conclude
    else s)

/-! ## Secure (R32) -/

/-- SECURE (R32): the bolt-low timer of a slot with its door closed has reached 200 ms. -/
def execSecure (slot : Slot) (s : State) : Host.Outcome State Fault Refusal :=
  .next
    (let x := s.sense slot
    if s.sampled slot && x.doorClosed && x.boltLow.isSome then
      ((s.setSense slot { x with boltLow := some boltLowTime }).onCycle slot Cycle.onSecure).conclude
    else s)

/-! ## The timers of a door cycle (R45, R48, R49, R51, R52) -/

/-- The outcome of a cycle that its pulse wait limit ends (R45). -/
def Cycle.limitOutcome (c : Cycle) : Outcome :=
  match c.lastFailure with
  | some f => f.outcome
  | none => .abandoned

/-- The pulse wait limit timer of a cycle has reached 60 s (R45). -/
def State.limitReached (c : Cycle) (s : State) : State :=
  if c.stage = .pulseWait then s.endCycle c c.limitOutcome none
  else s.setCycle { c with limit := some pulseWaitLimitTime }

/-- PULSE_WAIT_LIMIT (R45). -/
def execPulseWaitLimit (slot : Slot) (s : State) : Host.Outcome State Fault Refusal :=
  .next
    (match s.cycle? slot with
    | none => s
    | some c => if c.limit.isSome then (s.limitReached c).conclude else s)

/-- POP_WINDOW_END (R48). -/
def execPopWindowEnd (slot : Slot) (s : State) : Host.Outcome State Fault Refusal :=
  .next
    (match s.cycle? slot with
    | none => s
    | some c => if c.stage = .popWait then (s.failAttempt c .jam).conclude else s)

/-- AJAR (R49). -/
def execAjar (slot : Slot) (s : State) : Host.Outcome State Fault Refusal :=
  .next
    (match s.cycle? slot with
    | none => s
    | some c =>
      if c.stage = .opened ∧ c.ajar.isSome = true then
        ((s.setCycle { c with ajar := none }).raise .ajar (some slot)).conclude
      else s)

/-- The latch timer's end (R51). -/
def latchTime : Nat := 2000

/-- LATCH_FAULT (R51). DESIGN CHOICE: given to a cycle in CLOSING it declares the fault whatever the latch timer and the bolt count,
also where the timer only holds because the count is 0 or 1 (R50; entry 3). -/
def execLatchFault (slot : Slot) (s : State) : Host.Outcome State Fault Refusal :=
  .next
    (match s.cycle? slot with
    | none => s
    | some c =>
      if c.stage = .closing then (s.setCycle ({ c with latch := latchTime }.toSettle true)).conclude else s)

/-- LATCH_FAULT_SETTLE_END (R51). -/
def execLatchFaultSettleEnd (slot : Slot) (s : State) : Host.Outcome State Fault Refusal :=
  .next
    (match s.cycle? slot with
    | none => s
    | some c =>
      if c.stage = .settle ∧ c.latchFault = true then
        (s.endCycle c (.latchFault (s.sense slot).presenceIsOn) none).conclude
      else s)

/-- The outcome of the presence sample (R52). -/
def securedOutcome (presenceOn : Bool) : Outcome := if presenceOn then .securedPresent else .securedAbsent

/-- SETTLE_TIMER_END (R52). -/
def execSettleTimerEnd (slot : Slot) (s : State) : Host.Outcome State Fault Refusal :=
  .next
    (match s.cycle? slot with
    | none => s
    | some c =>
      if c.stage = .settle ∧ c.latchFault = false ∧ (s.sense slot).secure = true then
        (s.endCycle c (securedOutcome (s.sense slot).presenceIsOn) none).conclude
      else s)

end Sys2Proof.Machine
end

