-- ==== Sys2Proof/Machine/StoreWrites.lean ====
section
/-! DEFINITION. The ends of the custody store's writes (R14, R15, R17, R18), the minute tick (R109) and the expiry scan
(R116, R117). -/

namespace Sys2Proof.Machine

/-! ## Record writes (R15 to R17) -/

/-- The units that waited go on (R16). DESIGN CHOICE: in the order in which they began to wait, each followed by the tests that its
release calls for (entry 48). -/
def State.releaseAll (slot : Slot) (ws : List Waiter) (s : State) : State :=
  ws.foldl (fun s w => (s.release slot w).settle settleRounds) s

/-- A store with its target copy replaced. -/
def SlotStore.setCopy (x : SlotStore) (toB : Bool) (c : RecCopy) : SlotStore :=
  if toB then { x with b := c } else { x with a := c }

/-- The copy a write goes to. -/
def SlotStore.copy (x : SlotStore) (isB : Bool) : RecCopy := if isB then x.b else x.a

/-- A change made while the write was in progress is written now (R16). -/
def State.writeAgain (slot : Slot) (s : State) : State :=
  match (s.store slot).again with
  | some ws => s.beginWrite slot ws .change
  | none => s

/-- The read-back matches: the write is complete (R15). -/
def State.writeMatched (slot : Slot) (w : RecWrite) (s : State) : State :=
  let x := (s.store slot).setCopy w.toB (RecCopy.written slot w.gen w.content)
  let s := s.setStore slot { x with current := some w.toB, writing := none }
  (s.writeAgain slot).releaseAll slot w.waiters

/-- The copy of a write that has failed, and the free value it takes (entry 12). -/
def State.tearTarget (slot : Slot) (w : RecWrite) (s : State) : State :=
  let x := s.store slot
  (s.setStore slot { x.setCopy w.toB ((x.copy w.toB).torn s.free) with writing := none }).setFree (s.free + 1)

/-- The compartment goes to FAULT(STORE), keeping any parcel record (R17). -/
def State.storeFault (slot : Slot) (s : State) : State :=
  match s.rec? slot with
  | none => s
  | some r =>
    let new := r.faulted .store r.state.parcel?
    ((s.setRec slot new).enterEvent r.state new.state 0).raise .store (some slot)

/-- The write has failed (R17): FAULT(STORE), its one write, and the units released. -/
def State.writeFailed (slot : Slot) (w : RecWrite) (s : State) : State :=
  let later := (s.store slot).again.getD []
  (((s.tearTarget slot w).storeFault slot).beginWrite slot later .storeFault).releaseAll slot w.waiters

/-- The FAULT(STORE) write has failed: it is not retried (R17); a later change is still written (entry 26). -/
def State.faultWriteFailed (slot : Slot) (w : RecWrite) (s : State) : State :=
  ((s.tearTarget slot w).writeAgain slot).releaseAll slot w.waiters

/-- The read-back of a write has ended. -/
def State.writeEnded (slot : Slot) (w : RecWrite) (matched : Bool) (s : State) : State :=
  if matched then s.writeMatched slot w
  else if w.second = false then s.setStore slot { s.store slot with writing := some { w with second := true } }
  else if w.cause = .storeFault then s.faultWriteFailed slot w
  else s.writeFailed slot w

/-- RECORD_WRITE_COMPLETE (R15). -/
def execRecordWriteComplete (slot : Slot) (matched : Bool) (s : State) : Host.Outcome State Fault Refusal :=
  .next
    (match (s.store slot).writing with
    | none => s
    | some w => (s.writeEnded slot w matched).conclude)

/-! ## Lock-cycle counts (R14) -/

/-- A lock-cycle count write has ended. -/
def Locks.ended (x : Locks) (toB : Bool) (value : Nat) (ok : Bool) (free : Nat) : Locks :=
  let c : CountCopy := if ok then CountCopy.written .lockCount value else (if toB then x.b else x.a).torn free
  let y := if toB then { x with b := c, writing := none } else { x with a := c, writing := none }
  if y.again then y.begin else y

/-- LOCK_COUNT_WRITE (R14). -/
def execLockCountWrite (slot : Slot) (ok : Bool) (s : State) : Host.Outcome State Fault Refusal :=
  .next
    (match (s.locks slot).writing with
    | none => s
    | some (toB, value) =>
      let s' := s.setLocks slot ((s.locks slot).ended toB value ok s.free)
      if ok then s' else ((s'.setFree (s.free + 1)).raise .store none).conclude)

/-! ## The minute tick (R109, R113) -/

/-- The largest minute count. -/
def minuteMax : Nat := 4294967295

/-- The largest sync age (R113). -/
def syncAgeMax : Nat := 2880

/-- The sync age goes up by 1; at 2,880 sync is lost (R113). -/
def Clk.aged (c : Clk) : Clk :=
  let age := min (c.age + 1) syncAgeMax
  { c with age := age, synced := c.synced && decide (age < syncAgeMax) }

/-- The value C is to take at a tick (R109). -/
def tickValue (hold base : Nat) : Nat := if 0 < hold then base else min (base + 1) minuteMax

/-- A minute tick (R109). -/
def State.minuteTick (s : State) : State :=
  let s := s.writeMinute (tickValue s.clk.hold s.lastMinute) true
  s.setClk ({ s.clk with sub := 0, hold := s.clk.hold - 1 }.aged)

/-- MINUTE_TICK (R109): the sub-minute count runs from the load on. -/
def execMinuteTick (s : State) : Host.Outcome State Fault Refusal := .next (if s.loaded then s.minuteTick else s)

/-- SYNC_LOST (R113): the sync age has reached 2,880. -/
def execSyncLost (s : State) : Host.Outcome State Fault Refusal :=
  .next (if s.loaded then s.setClk { s.clk with age := syncAgeMax, synced := false } else s)

/-! ## The expiry scan (R116, R117) -/

/-- The pending expiry mark of a slot is set in an entry (R117). -/
def State.markExpiry (j : Job) (slot : Slot) (s : State) : State :=
  s.updEntry j (fun e => e.updSlot slot (fun x => { x with mark := true }))

/-- The scan at one slot (Table 8-2). -/
def State.scanSlot (s : State) (slot : Slot) : State :=
  match s.rec? slot with
  | none => s
  | some r =>
    match r.state with
    | .occupied p =>
      if p.purpose = .delivery ∧ p.due s.clk.minute = true then
        match s.holder? slot with
        | some e => s.markExpiry e.job slot
        | none => s.expire slot
      else s
    | _ => s

/-- The expiry scan (R116): the fitted slots in rising order. -/
def State.scan (s : State) : State := allSlots.foldl State.scanSlot s

/-- Bit g of two values of C differs (R116). -/
def bitDiffers (g old new : Nat) : Bool := old.testBit g != new.testBit g

/-- The scan runs at this value of C (R116). -/
def State.scanRuns (s : State) (w : MinuteWrite) : Bool :=
  w.tick && w.synced && s.clk.synced && bitDiffers s.conf.granularity s.clk.minute w.value

/-- The copy of the retained minute that a write went to, as its end leaves it (R18; entry 12). -/
def minuteCopyEnded (c : CountCopy) (value : Nat) (ok : Bool) (free : Nat) : CountCopy :=
  if ok then CountCopy.written .minute value else c.torn free

/-- The store's part of the end of a retained-minute write (R18). -/
def Cts.minuteEnded (x : Cts) (w : MinuteWrite) (rest : List MinuteWrite) (ok : Bool) (free : Nat) : Cts :=
  if x.minuteNextB then
    { x with minuteB := minuteCopyEnded x.minuteB w.value ok free, minuteNextB := !ok, minuteWrites := rest }
  else { x with minuteA := minuteCopyEnded x.minuteA w.value ok free, minuteNextB := ok, minuteWrites := rest }

/-- C takes the value, and the scan runs where it is due (R18, R116). -/
def State.takeMinute (w : MinuteWrite) (s : State) : State :=
  let runs := s.scanRuns w
  let s := s.setClk { s.clk with minute := w.value }
  if runs then s.scan else s

/-- RETAINED_MINUTE_WRITE (R18). -/
def execRetainedMinuteWrite (ok : Bool) (s : State) : Host.Outcome State Fault Refusal :=
  .next
    (match s.cts.minuteWrites with
    | [] => s
    | w :: rest =>
      let s' := s.setCts (s.cts.minuteEnded w rest ok s.free)
      let s' := if ok then s' else (s'.setFree (s.free + 1)).raise .store none
      (s'.takeMinute w).conclude)

end Sys2Proof.Machine
end

