-- ==== Sys2Proof/Machine/Time.lean ====
section
/-! DEFINITION. What the column does of itself (entry 2): the event that is due, and the passing of one millisecond. -/

namespace Sys2Proof.Machine

/-! ## What is due -/

/-- The command of a request at the head of the receive queue. -/
def RequestKind.command : RequestKind → Instr
  | .placeCall => .placeCall
  | .placeDetail => .placeDetail
  | .collectCall => .collectCall
  | .payNote => .payNote
  | .collectGo => .collectGo
  | .sweepCall => .sweepCall
  | .sweepGo => .sweepGo
  | .freeQuery => .freeQuery
  | .statusQuery => .statusQuery
  | .slotQuery => .slotQuery
  | .countQuery => .countQuery
  | .countClear => .countClear
  | .outputSet => .outputSet
  | .time => .time
  | .serviceOpen => .serviceOpen
  | .serviceClear => .serviceClear
  | .serviceRetire => .serviceRetire
  | .serviceRestore => .serviceRestore
  | .serviceRestart => .serviceRestart
  | .alertClear => .alertClear

/-- A command where a condition holds. -/
def dueIf (b : Bool) (i : Instr) : Option Instr := if b then some i else none

/-- A timer has reached a time. -/
def reached (t : Option Nat) (limit : Nat) : Bool :=
  match t with
  | some n => decide (limit ≤ n)
  | none => false

/-- An own note or offer taken by the line and not yet handled (R159). -/
def State.dueHandover (s : State) : Option Instr :=
  match s.liu.handover with
  | some f => if f.isNote then some (.pulseNote .own) else some (.placeOffer .own)
  | none => none

/-- The head of the receive queue is taken at once (R159). -/
def State.dueRequest (s : State) : Option Instr := s.liu.rx.head?.map (fun f => f.kind.command)

/-- The next slot to be reconciled (R20). -/
def State.dueReconciliation (s : State) : Option Instr :=
  (allSlots.find? (fun i => s.reconcileTurn i && (s.sense i).baseline.isSome)).map Instr.reconciliation

/-- The baseline of a slot whose inputs have held their levels for 200 ms (R20). -/
def State.dueBaseline (s : State) (i : Slot) : Option Instr :=
  dueIf (s.awaitsBaseline i && decide (200 ≤ (s.sense i).baseTimer))
    (.baselineSettled i (tget s.pins i).door (tget s.pins i).presence)

/-- A slot's debounce, idle and secure events (R27, R29, R30, R32). -/
def State.dueSensor (s : State) (i : Slot) : List (Option Instr) :=
  let x := s.sense i
  [s.dueBaseline i,
   dueIf (decide (40 ≤ x.doorTimer)) (if x.door = some true then .doorClosed i else .doorOpened i),
   dueIf (decide (200 ≤ x.presenceTimer)) (if x.presence = some true then .presenceOff i else .presenceOn i),
   dueIf (reached x.homeIdle 10000) (.homeReZero i)]

/-- The events of a slot's door cycle (R45, R48, R49, R50, R51, R52). -/
def State.dueCycle (s : State) (c : Cycle) : List (Option Instr) :=
  let secure := (s.sense c.slot).secure
  [dueIf (c.stage == .closing && secure) (.secure c.slot),
   dueIf (c.stage == .pulseWait && reached c.limit pulseWaitLimitTime) (.pulseWaitLimit c.slot),
   dueIf (c.stage == .popWait && reached c.pop 1000) (.popWindowEnd c.slot),
   dueIf (c.stage == .opened && reached c.ajar (s.conf.ajarTime * 1000)) (.ajar c.slot),
   dueIf (c.stage == .closing && decide (latchTime ≤ c.latch)) (.latchFault c.slot),
   dueIf (c.stage == .settle && c.latchFault && reached c.settle 500) (.latchFaultSettleEnd c.slot),
   dueIf (c.stage == .settle && !c.latchFault && secure && reached c.settle 500) (.settleTimerEnd c.slot)]

/-- The drives that have lasted their duration (R71). -/
def State.dueDriver (s : State) (i : Slot) : Option Instr :=
  dueIf (tget s.bgu.drivers i == some 0) (.driverOff i)

/-- The pulse entries that have reached their end (R67). -/
def duePulse (p : PulseEntry) : Option Instr := dueIf (p.left == 0) (.pulseEntryEnd p.station p.slot)

/-- The lapse of an entry in milliseconds, by kind and stage (R87). -/
def lapseTime (m : ConfigFields) (e : Entry) : Nat :=
  match e.kind, e.stage with
  | .place, .promised => 5000
  | .place, _ => m.holdTime * 1000
  | .collect, _ => m.collectLapse * 1000
  | .sweep, _ | .service, _ => m.sweepLapse * 1000

/-- The entries whose lapse timer has reached its lapse (R88). -/
def State.dueLapse (s : State) (e : Entry) : Option Instr :=
  dueIf (!e.ending && reached e.timer (lapseTime s.conf e)) (.entryLapse e.kind e.ticket)

/-- The line's timers (R157). -/
def State.dueLine (s : State) : List (Option Instr) :=
  [dueIf (s.liu.line == .joining && decide (1000 ≤ s.liu.timer)) .joiningEnd,
   dueIf (s.liu.line == .quiet && decide (2000 ≤ s.liu.timer)) .quietEnd]

/-- Everything that may be due, in the order the model takes it (entry 6). -/
def State.dueAll (s : State) : List (Option Instr) :=
  [s.dueHandover, dueIf s.restartReady (.restartReset Causes.none), s.dueRequest, s.dueReconciliation,
   dueIf s.readyToJoin .joiningEntry]
    ++ allSlots.map s.dueDriver
    ++ s.bgu.pulses.map duePulse
    ++ [dueIf (reached s.bgu.age 30000) .levelAgeExpiry]
    ++ s.dueLine
    ++ s.ort.map s.dueLapse
    ++ allSlots.flatMap s.dueSensor
    ++ s.dsq.cycles.flatMap s.dueCycle
    ++ [dueIf (s.loaded && decide (60000 ≤ s.clk.sub)) .minuteTick]

/-- The first event that is due. -/
def State.due (s : State) : Option Instr := (s.dueAll.filterMap id).head?

/-! ## One millisecond (entry 2) -/

/-- A running timer advances. -/
def advance (t : Option Nat) : Option Nat := t.map (fun n => n + 1)

/-- A debounce timer's next value: it advances while the level differs from the debounced state (R29, R30). -/
def debounce (state : Option Bool) (level : Bool) (timer : Nat) : Nat :=
  match state with
  | some b => if b = level then 0 else timer + 1
  | none => 0

/-- A slot's sensing state a millisecond on. -/
def Sense.passed (x : Sense) (m : ConfigFields) (p : Pins) : Sense :=
  { x with
    homeIdle := advance x.homeIdle
    boltLow := x.boltLow.map (fun n => min (n + 1) boltLowTime)
    doorTimer := debounce x.door (levelOpen m p.door) x.doorTimer
    presenceTimer := debounce x.presence (levelOn m p.presence) x.presenceTimer
    baseTimer := if x.baseline.isNone then x.baseTimer + 1 else 0 }

/-- A cycle a millisecond on: the latch timer advances in CLOSING with the bolt at 2 or more (R50). -/
def Cycle.passed (c : Cycle) (bolt : Nat) : Cycle :=
  { c with
    limit := advance c.limit
    wait := if c.stage = .pulseWait then c.wait + 1 else c.wait
    pop := advance c.pop
    ajar := advance c.ajar
    latch := if c.stage = .closing ∧ 2 ≤ bolt then c.latch + 1 else c.latch
    settle := advance c.settle }

/-- The Budget Unit a millisecond on. -/
def Bgu.passed (b : Bgu) : Bgu :=
  { b with
    age := advance b.age
    pulses := b.pulses.map (fun p => { p with left := p.left - 1 })
    drivers := tmap (fun d => d.map (fun n => n - 1)) b.drivers }

/-- The column a millisecond on, its configuration loaded. -/
def State.passMs (s : State) : State :=
  { s with
    sen := tabulate (fun i => if s.fitted i then (s.sense i).passed s.conf (tget s.pins i) else s.sense i)
    dsq := { s.dsq with cycles := s.dsq.cycles.map (fun c => c.passed (s.sense c.slot).bolt) }
    bgu := s.bgu.passed
    ort := s.ort.map (fun e => { e with timer := advance e.timer })
    clk := { s.clk with sub := s.clk.sub + 1 }
    liu := { s.liu with
      timer := (match s.liu.line with | .joining | .quiet => s.liu.timer + 1 | .off | .active => s.liu.timer) } }

/-- One millisecond passes. Before the load, and in STANDBY, nothing runs (R109, R174). -/
def State.tick (s : State) : State := if s.loaded then s.passMs else s

end Sys2Proof.Machine
end

