-- ==== Sys2Proof/Machine/Dispatch.lean ====
section
/-! DEFINITION. One arm per command: each calls the meaning of its row. -/

namespace Sys2Proof.Machine

def exec (i : Instr) (s : State) : Host.Outcome State Fault Refusal :=
  match i with
  | .powerReset active => Sys2Proof.Machine.execPowerReset active s
  | .brownoutReset active => Sys2Proof.Machine.execBrownoutReset active s
  | .pinReset active => Sys2Proof.Machine.execPinReset active s
  | .restartReset active => Sys2Proof.Machine.execRestartReset active s
  | .configurationRead r => Sys2Proof.Machine.execConfigurationRead r s
  | .resetCauseWrite ok => Sys2Proof.Machine.execResetCauseWrite ok s
  | .baselineSettled slot door presence => Sys2Proof.Machine.execBaselineSettled slot door presence s
  | .baselineTimeout slot door presence => Sys2Proof.Machine.execBaselineTimeout slot door presence s
  | .reconciliation slot => Sys2Proof.Machine.execReconciliation slot s
  | .joiningEntry => Sys2Proof.Machine.execJoiningEntry s
  | .joiningEnd => Sys2Proof.Machine.execJoiningEnd s
  | .quietEnd => Sys2Proof.Machine.execQuietEnd s
  | .transmissionStart => Sys2Proof.Machine.execTransmissionStart s
  | .arbitrationLost => Sys2Proof.Machine.execArbitrationLost s
  | .transmissionFailed how => Sys2Proof.Machine.execTransmissionFailed how s
  | .transmissionSucceeded => Sys2Proof.Machine.execTransmissionSucceeded s
  | .frameTaken f => Sys2Proof.Machine.execFrameTaken f s
  | .pulseNote a => Sys2Proof.Machine.execPulseNote a s
  | .powerState f => Sys2Proof.Machine.execPowerState f s
  | .levelAgeExpiry => Sys2Proof.Machine.execLevelAgeExpiry s
  | .pulseEntryEnd station slot => Sys2Proof.Machine.execPulseEntryEnd station slot s
  | .driverOff slot => Sys2Proof.Machine.execDriverOff slot s
  | .placeOffer a => Sys2Proof.Machine.execPlaceOffer a s
  | .placeCall => Sys2Proof.Machine.execPlaceCall s
  | .placeDetail => Sys2Proof.Machine.execPlaceDetail s
  | .collectCall => Sys2Proof.Machine.execCollectCall s
  | .payNote => Sys2Proof.Machine.execPayNote s
  | .collectGo => Sys2Proof.Machine.execCollectGo s
  | .sweepCall => Sys2Proof.Machine.execSweepCall s
  | .sweepGo => Sys2Proof.Machine.execSweepGo s
  | .freeQuery => Sys2Proof.Machine.execFreeQuery s
  | .statusQuery => Sys2Proof.Machine.execStatusQuery s
  | .slotQuery => Sys2Proof.Machine.execSlotQuery s
  | .countQuery => Sys2Proof.Machine.execCountQuery s
  | .countClear => Sys2Proof.Machine.execCountClear s
  | .outputSet => Sys2Proof.Machine.execOutputSet s
  | .time => Sys2Proof.Machine.execTime s
  | .serviceOpen => Sys2Proof.Machine.execServiceOpen s
  | .serviceClear => Sys2Proof.Machine.execServiceClear s
  | .serviceRetire => Sys2Proof.Machine.execServiceRetire s
  | .serviceRestore => Sys2Proof.Machine.execServiceRestore s
  | .serviceRestart => Sys2Proof.Machine.execServiceRestart s
  | .alertClear => Sys2Proof.Machine.execAlertClear s
  | .entryLapse kind ticket => Sys2Proof.Machine.execEntryLapse kind ticket s
  | .boltStep slot gate => Sys2Proof.Machine.execBoltStep slot gate s
  | .homeReZero slot => Sys2Proof.Machine.execHomeReZero slot s
  | .doorOpened slot => Sys2Proof.Machine.execDoorOpened slot s
  | .doorClosed slot => Sys2Proof.Machine.execDoorClosed slot s
  | .presenceOn slot => Sys2Proof.Machine.execPresenceOn slot s
  | .presenceOff slot => Sys2Proof.Machine.execPresenceOff slot s
  | .secure slot => Sys2Proof.Machine.execSecure slot s
  | .pulseWaitLimit slot => Sys2Proof.Machine.execPulseWaitLimit slot s
  | .popWindowEnd slot => Sys2Proof.Machine.execPopWindowEnd slot s
  | .ajar slot => Sys2Proof.Machine.execAjar slot s
  | .latchFault slot => Sys2Proof.Machine.execLatchFault slot s
  | .latchFaultSettleEnd slot => Sys2Proof.Machine.execLatchFaultSettleEnd slot s
  | .settleTimerEnd slot => Sys2Proof.Machine.execSettleTimerEnd slot s
  | .recordWriteComplete slot matched => Sys2Proof.Machine.execRecordWriteComplete slot matched s
  | .lockCountWrite slot ok => Sys2Proof.Machine.execLockCountWrite slot ok s
  | .minuteTick => Sys2Proof.Machine.execMinuteTick s
  | .retainedMinuteWrite ok => Sys2Proof.Machine.execRetainedMinuteWrite ok s
  | .syncLost => Sys2Proof.Machine.execSyncLost s
  | .frameVoided f => Sys2Proof.Machine.execFrameVoided f s
  | .doubleGateChange slot => Sys2Proof.Machine.execDoubleGateChange slot s

end Sys2Proof.Machine
end

