-- ==== Sys2Proof/Safety.lean ====
section
/-! DEFINITION. The terms in which statements about the column are made: its state part by part, what a command leaves
unchanged, and the invariants of its runs. -/

namespace Sys2Proof.Machine

/-! ## Parts of the state -/

/-- The parts of the state that a frame names. -/
inductive Part where
  | pending
  | phase
  | config
  | records
  | store
  | locks
  | minutes
  | causes
  | mark
  | pins
  | sensing
  | doors
  | level
  | pulses
  | note
  | drivers
  | requests
  | clock
  | quotes
  | outputs
  | conditions
  | counters
  | line
  | drive
  | errors
  | transmit
  | receive
  | restart
  | held
  | free
deriving DecidableEq, Repr

/-- Two states have the same contents in a part. -/
def Part.same (p : Part) (s t : State) : Prop :=
  match p with
  | .pending => t.pending = s.pending
  | .phase => t.phase = s.phase
  | .config => t.cfg = s.cfg
  | .records => t.cts.table = s.cts.table
  | .store => t.cts.store = s.cts.store
  | .locks => t.cts.locks = s.cts.locks
  | .minutes =>
    t.cts.minuteA = s.cts.minuteA ∧ t.cts.minuteB = s.cts.minuteB ∧ t.cts.minuteNextB = s.cts.minuteNextB
      ∧ t.cts.minuteWrites = s.cts.minuteWrites
  | .causes =>
    t.cts.causeStore = s.cts.causeStore ∧ t.cts.causes = s.cts.causes ∧ t.cts.causeWriting = s.cts.causeWriting
  | .mark => t.cts.markCheck = s.cts.markCheck ∧ t.cts.markOk = s.cts.markOk
  | .pins => t.pins = s.pins
  | .sensing => t.sen = s.sen
  | .doors => t.dsq = s.dsq
  | .level => t.bgu.level = s.bgu.level ∧ t.bgu.basis = s.bgu.basis ∧ t.bgu.age = s.bgu.age
  | .pulses => t.bgu.pulses = s.bgu.pulses
  | .note => t.bgu.own = s.bgu.own
  | .drivers => t.bgu.drivers = s.bgu.drivers
  | .requests => t.ort = s.ort
  | .clock => t.clk = s.clk
  | .quotes => t.quoteCounter = s.quoteCounter
  | .outputs => t.out = s.out
  | .conditions =>
    t.rpt.conds = s.rpt.conds ∧ t.rpt.lastFault = s.rpt.lastFault ∧ t.rpt.attention = s.rpt.attention
  | .counters => t.rpt.counters = s.rpt.counters
  | .line =>
    t.liu.line = s.liu.line ∧ t.liu.timer = s.liu.timer ∧ t.liu.drops = s.liu.drops ∧ t.liu.handover = s.liu.handover
      ∧ t.liu.lineBits = s.liu.lineBits
  | .drive => t.liu.drive = s.liu.drive
  | .errors =>
    t.liu.checkFaults = s.liu.checkFaults ∧ t.liu.failures = s.liu.failures ∧ t.liu.dropCount = s.liu.dropCount
      ∧ t.liu.roleFailures = s.liu.roleFailures
  | .transmit => t.liu.tx = s.liu.tx
  | .receive => t.liu.rx = s.liu.rx
  | .restart => t.restart = s.restart
  | .held => t.heldCauses = s.heldCauses
  | .free => t.free = s.free

/-- Everything but the named parts is unchanged. -/
def UnchangedBut (ps : List Part) (s t : State) : Prop := ∀ p, p ∉ ps → p.same s t

/-! ## Parcel records (R3) -/

/-- A parcel record later: the fields given at creation stand, the paid total has not decreased (up to its saturation), the
purpose is the same or has gone from DELIVERY to EXPIRED, and a settlement minute once set is still present (R3). -/
structure SameParcel (p q : Parcel) : Prop where
  ref : q.ref = p.ref
  carrier : q.carrier = p.carrier
  code : q.code = p.code
  tariff : q.tariff = p.tariff
  deposit : q.deposit = p.deposit
  limit : q.limit = p.limit
  cod : q.cod = p.cod
  estimated : q.estimated = p.estimated
  paid : min p.paid 16777215 ≤ q.paid
  purpose : q.purpose = p.purpose ∨ (p.purpose = .delivery ∧ q.purpose = .expired)
  settled : p.settled.isSome = true → q.settled.isSome = true

/-- Every parcel record now held was held before in the same slot. -/
def ParcelsKept (s t : State) : Prop :=
  ∀ slot q, t.parcel? slot = some q → ∃ p, s.parcel? slot = some p ∧ SameParcel p q

/-! ## What the tests at a command's end may do -/

/-- The parts that the tests of R42, R69 and R86 may change. -/
def workParts : List Part :=
  [.records, .store, .sensing, .doors, .note, .requests, .quotes, .outputs, .conditions, .counters, .transmit, .free]

/-- What has come about between two states when nothing but the column's own work was done: re-evaluations of waiting
entries, starts from the door queue, answers, refusals and notes queued. -/
structure Follows (s t : State) : Prop where
  frame : UnchangedBut workParts s t
  /-- Sensing state changes in the home-idle timers only. -/
  sensing : ∀ slot, { t.sense slot with homeIdle := none } = { s.sense slot with homeIdle := none }
  auxDemand : t.out.auxDemand = s.out.auxDemand
  /-- A condition once set stays set. -/
  conditions : ∀ c : Condition, s.rpt.isSet c = true → t.rpt.isSet c = true
  attention : s.rpt.attention = attentionOf s.rpt.conds s.conf.enables →
    t.rpt.attention = attentionOf t.rpt.conds t.conf.enables
  parcels : ParcelsKept s t
  reconciled : ∀ slot, (t.rec? slot).isSome = (s.rec? slot).isSome
  /-- No entry arises. -/
  entries : ∀ e ∈ t.ort, ∃ d ∈ s.ort, d.job = e.job
  places : t.ort.length ≤ s.ort.length
  cycles : t.dsq.cycles.length ≤ max s.dsq.cycles.length s.conf.span
  transmit : t.liu.tx.length ≤ max s.liu.tx.length 8

/-- Nothing is left to do at a command's end: no waiting entry is eligible, no request can start, no note can be queued. -/
structure AtRest (s : State) : Prop where
  noneEligible : s.firstEligible [] s.ort = none
  noStart : s.canStart = false
  noNote : ∀ slot c, s.noteCandidate = some slot → s.cycle? slot = some c → s.noteAllowed slot = false

/-! ## Words for statements -/

/-- A change of a record goes to a slot's store (R15, R16), the units `ws` waiting for its write: where nothing was being
written, a write has begun, to the copy that is not current and with the generation after the current copy's; where a
write was in progress, it goes on and the record is written again after it. -/
def WriteOf (r : CompRec) (ws : List Waiter) (x y : SlotStore) : Prop :=
  y.a = x.a ∧ y.b = x.b ∧ y.current = x.current ∧
    match x.writing with
    | none =>
      y.again = none ∧ ∃ w, y.writing = some w ∧ w.content = r ∧ w.second = false ∧ w.cause = .change ∧ w.waiters = ws
        ∧ ∀ isB, x.current = some isB → w.toB = !isB ∧ w.gen = (if isB then x.b.gen else x.a.gen) + 1
    | some w => y.writing = some w ∧ y.again = some (x.again.getD [] ++ ws)

/-- The record of a slot becomes `r`, and no other slot's record or store changes. A record that was `r` already is not
written (R10, R15). -/
structure Changed (slot : Slot) (r : CompRec) (ws : List Waiter) (s t : State) : Prop where
  record : t.rec? slot = some r
  records : ∀ i, i ≠ slot → t.rec? i = s.rec? i
  stores : ∀ i, i ≠ slot → t.store i = s.store i
  written : s.rec? slot ≠ some r → WriteOf r ws (s.store slot) (t.store slot)

/-- A condition is raised (R163): it is set, the conditions set before stay set, and no other condition but TX_DISCARD, of
the ALERT, becomes set; the last fault slot is the raise's, if it carries one. -/
structure Raised (c : Condition) (slot : Option Slot) (s t : State) : Prop where
  isSet : t.rpt.isSet c = true
  kept : ∀ d, s.rpt.isSet d = true → t.rpt.isSet d = true
  only : ∀ d, d ≠ c → d ≠ .txDiscard → t.rpt.isSet d = s.rpt.isSet d
  lastFault : t.rpt.lastFault = (match slot with | some x => some x | none => s.rpt.lastFault)

/-- An answer is placed in the transmit queue (R153, R160): with room it stands at the queue's end, class 2 and rank 0, and
nothing else changes; with 8 frames queued one is discarded and TX_DISCARD is set, but no frame of class 0 or 1 and none being
transmitted. -/
structure Answered (b : Body) (dest : BitVec 6) (s t : State) : Prop where
  room : s.liu.tx.length < 8 → t.liu.tx = s.liu.tx ++ [TxFrame.fresh b 0 dest] ∧ t.rpt.conds = s.rpt.conds
  full : 8 ≤ s.liu.tx.length →
    t.rpt.isSet .txDiscard = true
      ∧ ∀ f ∈ s.liu.tx, (f.body.cls < 2 ∨ f.sending = true) → f ∈ t.liu.tx

/-- A counter event (R166): each counter whose settings the event passes goes up by 1, wrapping; the others stand. -/
def Counted (k : EventKind) (value : Option Nat) (carrier : Nat) (s t : State) : Prop :=
  ∀ i : Fin 4, t.rpt.counters[i] =
    if counts s.conf.counters[i] k value carrier = true then s.rpt.counters[i] + 1 else s.rpt.counters[i]

/-- An activity event: its kind, its value if it has one, and its carrier (Table 12-2). -/
abbrev Event := EventKind × Option Nat × Nat

/-- The counter events of a list and no others (R166): each counter goes up by the number of them that its settings pass,
wrapping. -/
def CountedAll (events : List Event) (s t : State) : Prop :=
  ∀ i : Fin 4, t.rpt.counters[i] = s.rpt.counters[i]
    + BitVec.ofNat 24 (events.filter (fun e => counts s.conf.counters[i] e.1 e.2.1 e.2.2)).length

/-- The ENTER_STATE event of a change between compartment states (R166): given for another state or another fault cause. -/
def entryEvents (old new : CompState) (carrier : Nat) : List Event :=
  if new.tag ≠ old.tag ∨ new.cause? ≠ old.cause? then [(.enterState, some new.tag.pos, carrier)] else []

/-- The LINE_ERROR event of an error count that stood at `n` (R161, Table 12-2): given where the count increases, and not where
it stands at its largest value. -/
def LineErrorCounted (n : Nat) (s t : State) : Prop :=
  (n < 65535 → Counted .lineError none 0 s t) ∧ (65535 ≤ n → t.rpt.counters = s.rpt.counters)

/-- A value clamped to a range (R173): in the range it stands, outside it takes the nearer end. -/
def NearerEnd (lo hi x y : Nat) : Prop := (x < lo → y = lo) ∧ (lo ≤ x → x ≤ hi → y = x) ∧ (hi < x → y = hi)

/-- A unit waits on a slot (R16): on the write that follows the one in progress, if a change made meanwhile calls for one, else
on the write in progress; nothing else of the slot's store changes. -/
def WaitsFor (slot : Slot) (u : Waiter) (s t : State) : Prop :=
  (∀ ws, (s.store slot).again = some ws → t.store slot = { s.store slot with again := some (ws ++ [u]) })
    ∧ (∀ w, (s.store slot).again = none → (s.store slot).writing = some w →
        t.store slot = { s.store slot with writing := some { w with waiters := w.waiters ++ [u] } })

/-- Something is being written of a slot's record, or waits to be. -/
def Writing (slot : Slot) (s : State) : Prop := (s.store slot).writing ≠ none ∨ (s.store slot).again ≠ none

/-- The head of the receive queue is a request of the kind. -/
def Heads (k : RequestKind) (f : RxFrame) (rest : List RxFrame) (s : State) : Prop := s.liu.rx = f :: rest ∧ f.kind = k

/-! ## Start-up (sections 2.5 and 13.2) -/

/-- The command is a reset (R171). -/
def IsReset (c : Instr) : Prop :=
  ∃ active, c = .powerReset active ∨ c = .brownoutReset active ∨ c = .pinReset active ∨ c = .restartReset active

/-- Checks 3 to 5 of R172: a station number, no role of its own number, and a slot fitted. -/
structure StructurallySound (m : ConfigFields) : Prop where
  station : 1 ≤ m.station ∧ m.station ≤ 63
  terminals : ¬(m.tlo.toNat ≤ m.station ∧ m.station ≤ m.thi.toNat)
  roles : m.station ≠ m.supply.toNat ∧ m.station ≠ m.time.toNat ∧ m.station ≠ m.service1.toNat
    ∧ m.station ≠ m.service2.toNat
  slots : ∃ i, tget m.slotMap i ≠ 0

/-- Copy A or copy B is the stored record (R21): it passes its check and, if the other passes too, its generation is the
other's plus 1. -/
def IsStoredRecord (x : SlotStore) (isB : Bool) : Prop :=
  if isB then x.b.ok = true ∧ (x.a.ok = true → x.b.gen = x.a.gen + 1)
  else x.a.ok = true ∧ (x.b.ok = true → x.a.gen = x.b.gen + 1)

/-- The result Table 2-7 gives for a stored record, by the door and presence found. -/
def Table27 (c : CompRec) (doorOpen on : Bool) (r : CompRec) : Prop :=
  match c.state with
  | .empty | .offered _ =>
    if doorOpen then r.state = .fault .unsecure none else r = { state := .empty, foreign := on, lost := false }
  | .held _ none =>
    if doorOpen then r.state = .fault .unsecure none
    else if on then r.state = .fault .unresolved none
    else r = { state := .empty, foreign := false, lost := false }
  | .held _ (some p) | .releasing p =>
    if doorOpen then r.state = .fault .unsecure (some p)
    else if on then r = { state := .occupied p, foreign := false, lost := false }
    else r = { state := .empty, foreign := false, lost := false }
  | .occupied p =>
    if doorOpen then r.state = .fault .unsecure (some p) else r.state = .occupied p ∧ r.lost = !on
  | .fault _ _ | .retired => r = c

/-- It is the slot's turn to be reconciled (R20): start-up has come to reconciliation, the slot is fitted and not yet
reconciled, and every fitted slot below it is. -/
def TurnToReconcile (s : State) (slot : Slot) : Prop :=
  s.phase = .reconciling ∧ s.fitted slot = true ∧ s.rec? slot = none
    ∧ ∀ i, i < slot → s.fitted i = true → (s.rec? i).isSome = true

/-! ## The line (chapter 11) -/

/-- The command brings the end of a frame of another station that no station voided (R155, R159). -/
def Brings (c : Instr) (f : Frame) : Prop :=
  c = .frameTaken f ∨ c = .powerState f ∨ c = .pulseNote (.other f) ∨ c = .placeOffer (.other f)

/-- The column receives a good frame of another station, none of its own being transmitted or waiting for its unit. -/
structure Hears (f : Frame) (s : State) : Prop where
  line : s.liu.line ≠ .off
  seen : f.seen = true
  handover : s.liu.handover = none
  silent : s.transmitting = false
  good : frameGood f = true
  sender : f.station ≠ s.station ∧ f.station ≠ 0

/-- The sender may send notes and offers (Table 11-5): no terminal, not the supply station, no service station. -/
def FromAColumn (f : Frame) (s : State) : Prop :=
  ¬(s.conf.tlo.toNat ≤ f.station.toNat ∧ f.station.toNat ≤ s.conf.thi.toNat) ∧ f.station ≠ s.conf.supply
    ∧ f.station ≠ s.conf.service1 ∧ f.station ≠ s.conf.service2

/-- The column's own frame of class 0 or 1 arrives: it was taken by the line before and waits for its unit, or it is taken
at this moment. `q` is the transmit queue without it. -/
def OwnArrives (f : TxFrame) (q : List TxFrame) (s : State) : Prop :=
  (s.liu.handover = some f ∧ q = s.liu.tx)
    ∨ (s.liu.handover = none ∧ s.sending? = some f ∧ q = s.liu.tx.filter (fun x => !x.sending))

/-- The column has an offer for the ticket outstanding: its PLACE entry is PROMISED for the slot. -/
def Promised (tk : Ticket) (slot : Slot) (s : State) : Prop :=
  ∃ e, s.entry? (placeJob tk) = some e ∧ e.firstSlot? = some slot ∧ e.stage = .promised ∧ e.ending = false

/-- The promise of an offer ends by loss, lapse or drop (R5, R37, R101): the compartment is EMPTY again under the entry check,
its entry ends when that is written, and the entry's timer has stopped. -/
structure PromiseEnded (tk : Ticket) (slot : Slot) (s t : State) : Prop where
  record : t.rec? slot = some { state := .empty, foreign := (s.sense slot).presenceIsOn, lost := false }
  written : WriteOf { state := .empty, foreign := (s.sense slot).presenceIsOn, lost := false } [.endEntry (placeJob tk)]
    (s.store slot) (t.store slot)
  entry : ∀ e, s.entry? (placeJob tk) = some e →
    t.entry? (placeJob tk) = some { e with timer := none, ending := true }
  foreign : (s.sense slot).presenceIsOn = true → t.rpt.isSet .foreign = true

/-! ## Requests (chapters 6 to 10) -/

/-- A parcel is treated as expired now (R115): marked EXPIRED, or a DELIVERY at or past its expiry minute while the clock is
SYNCED. -/
def ExpiredNow (p : Parcel) (s : State) : Prop :=
  p.purpose = .expired
    ∨ (p.purpose = .delivery ∧ s.clk.synced = true ∧ ∃ h, p.limit = some h ∧ p.deposit + h ≤ s.clk.minute)

/-- The code search finds a parcel in a slot (R136): OCCUPIED or RELEASING, with the release code. -/
def FoundByCode (code : Nat) (slot : Slot) (p : Parcel) (s : State) : Prop :=
  ∃ r, s.rec? slot = some r ∧ (r.state = .occupied p ∨ r.state = .releasing p) ∧ p.code = some code

/-- The carrier search finds a parcel in a slot (R145): OCCUPIED or RELEASING, of the carrier, a RETURN or treated as
expired. -/
def FoundForCarrier (carrier : Nat) (slot : Slot) (s : State) : Prop :=
  ∃ r p, s.rec? slot = some r ∧ (r.state = .occupied p ∨ r.state = .releasing p) ∧ p.carrier = carrier
    ∧ (p.purpose = .carrierReturn ∨ ExpiredNow p s)

/-- A candidate for a call of a size (R94): EMPTY, its foreign flag clear, large enough, neither held nor awaited. -/
def Candidate (want : Nat) (slot : Slot) (s : State) : Prop :=
  ∃ r, s.rec? slot = some r ∧ r.state = .empty ∧ r.foreign = false ∧ want ≤ s.size slot
    ∧ ∀ e ∈ s.ort, e.holds slot = false ∧ e.awaits slot = false

/-- No slot of a list is held or awaited, so an entry on them is active from its creation (R85). -/
def Unblocked (slots : List Slot) (s : State) : Prop :=
  ∀ slot ∈ slots, ∀ e ∈ s.ort, e.holds slot = false ∧ e.awaits slot = false

/-- A request is refused (R166): a REFUSE with its REFUSAL event. -/
def Refused (dest : BitVec 6) (number : Option (BitVec 16)) (slot : Option Nat) (reason : Reason) (carrier : Nat)
    (s t : State) : Prop :=
  Answered (.refuse number slot reason) dest s t ∧ Counted .refusal (some reason.pos) carrier s t

/-- A request leaves the receive queue and does nothing else. -/
def TakenInSilence (rest : List RxFrame) (s t : State) : Prop := t.liu.rx = rest ∧ UnchangedBut [.receive] s t

/-- No pending expiry mark is set in an entry (R117). -/
def NoMarks (e : Entry) : Prop := ∀ x ∈ e.slots, x.mark = false

/-- The four service requests, with the kind of their frames and of their entries (R147). -/
def ServiceCommand (c : Instr) (k : RequestKind) (sub : ServiceKind) : Prop :=
  (c = .serviceOpen ∧ k = .serviceOpen ∧ sub = .open) ∨ (c = .serviceClear ∧ k = .serviceClear ∧ sub = .clear)
    ∨ (c = .serviceRetire ∧ k = .serviceRetire ∧ sub = .retire)
    ∨ (c = .serviceRestore ∧ k = .serviceRestore ∧ sub = .restore)

/-- A service request that becomes active at once (R80, R85, R147): at the head of the queue, on a fitted slot with a record,
no repeat, with a place in the table, its slot neither held nor awaited. -/
structure ServiceTaken (k : RequestKind) (f : RxFrame) (rest : List RxFrame) (d : TicketValue) (slot : Slot) (r : CompRec)
    (s : State) : Prop where
  heads : Heads k f rest s
  fields : decodeService f.payload = some d
  names : d.value = slot.val
  fitted : s.fitted slot = true
  record : s.rec? slot = some r
  new : s.entry? (serviceJob (f.ticket d.number)) = none
  room : s.ort.length < 8
  free : Unblocked [slot] s

/-- The one entry a service request made (R79, R147). -/
def ServiceEntry (j : Job) (slot : Slot) (stage : EntryStage) (s t : State) : Prop :=
  ∃ e, t.ort = s.ort ++ [e] ∧ e.job = j ∧ e.slotList = [slot] ∧ e.stage = stage ∧ e.timer = none ∧ e.ending = false

/-- A slot of a COLLECT entry has become DONE (R84, R87, R89): the entry ends when no other slot of it is left, and stands
without holding the slot otherwise. -/
structure SlotFreed (j : Job) (slot : Slot) (e : Entry) (t : State) : Prop where
  last : (∀ x ∈ e.slots, x.slot = slot ∨ x.progress = .done) → t.entry? j = none
  others : (∃ x ∈ e.slots, x.slot ≠ slot ∧ x.progress ≠ .done) →
    ∃ d, t.entry? j = some d ∧ d.holds slot = false ∧ ∀ i, i ≠ slot → d.slot? i = e.slot? i

/-! ## Door cycles (chapter 4) -/

/-- A door request waits at the end of the door queue: `span` cycles are in progress, so it does not start (R42). -/
def Queued (q : DoorRequest) (s t : State) : Prop := t.dsq = { s.dsq with queue := s.dsq.queue ++ [q] }

/-- A door request has started a cycle on an idle slot (R42, R43): the cycle record, attempt 1, and the lamp demanded on. -/
structure Started (q : DoorRequest) (stage : Stage) (s t : State) : Prop where
  queue : t.dsq.queue = s.dsq.queue
  cycle : ∃ c, t.dsq.cycles = s.dsq.cycles ++ [c] ∧ c.slot = q.slot ∧ c.kind = q.kind ∧ c.job = q.job ∧ c.ref = q.ref
    ∧ c.stage = stage ∧ c.attempt = 1 ∧ c.lastFailure = none ∧ c.forced = false
    ∧ c.limit = (if stage = .pulseWait then some 0 else none)
  order : t.dsq.order = if stage = .pulseWait then s.dsq.order ++ [q.slot] else s.dsq.order
  lamp : tget t.out.lampDemand q.slot = true ∧ ∀ i, i ≠ q.slot → tget t.out.lampDemand i = tget s.out.lampDemand i

/-- A door cycle has ended (R54): no cycle record, no place in the pulse order, the lamp not demanded; the door queue and the
cycles of other slots stand. -/
structure CycleGone (slot : Slot) (s t : State) : Prop where
  queue : t.dsq.queue = s.dsq.queue
  cycles : t.dsq.cycles = s.dsq.cycles.filter (fun d => d.slot != slot)
  order : t.dsq.order = s.dsq.order.filter (fun x => x != slot)
  lamp : tget t.out.lampDemand slot = false ∧ ∀ i, i ≠ slot → tget t.out.lampDemand i = tget s.out.lampDemand i

/-- A forced report to the Compartment Table (R9): EMPTY, OFFERED, HELD and OCCUPIED go to FAULT(FORCED), keeping any parcel
record, and raise FORCED, with an ENTER_STATE event; RELEASING, FAULT and RETIRED stand. -/
def ForcedOnTable (slot : Slot) (r : CompRec) (s t : State) : Prop :=
  (r.state.tag = .empty ∨ r.state.tag = .offered ∨ r.state.tag = .held ∨ r.state.tag = .occupied →
    Changed slot { state := .fault .forced r.state.parcel?, foreign := r.foreign,
                   lost := r.lost && r.state.parcel?.isSome } [] s t
      ∧ Raised .forced (some slot) s t ∧ CountedAll [(.enterState, some 5, s.carrierOf slot)] s t)
  ∧ (r.state.tag = .releasing ∨ r.state.tag = .fault ∨ r.state.tag = .retired →
    t.rec? slot = some r ∧ t.rpt = s.rpt)

/-- The result Table 7-3 gives for a DEPOSIT cycle's outcome. -/
def Table73 (p : Parcel) (presenceOn : Bool) (o : Outcome) (new : CompRec) (result : DepositResult) : Prop :=
  match o with
  | .securedPresent => new = { state := .occupied p, foreign := false, lost := false } ∧ result = .stored
  | .securedAbsent => new = { state := .empty, foreign := false, lost := false } ∧ result = .voidEmpty
  | .notOpenedJam => new.state = .fault .jam none ∧ new.lost = false ∧ result = .fault
  | .notOpenedBolt => new.state = .fault .bolt none ∧ new.lost = false ∧ result = .fault
  | .abandoned => new = { state := .empty, foreign := presenceOn, lost := false } ∧ result = .voidPower
  | .latchFault on => new.state = .fault .latch (if on then some p else none) ∧ result = .fault
  | .forced => new.state = .fault .forced (some p) ∧ result = .fault

/-- The result Table 10-4 gives for a COLLECT or SWEEP cycle's outcome; Table 10-6 gives the same for a compartment OCCUPIED at
the start of a SERVICE cycle. An entry into OCCUPIED with presence off sets the presence-lost flag (R38). -/
def Table104 (p : Parcel) (lost presenceOff : Bool) (o : Outcome) (new : CompRec) (result : ReleaseResult) : Prop :=
  match o with
  | .securedPresent => new = { state := .occupied p, foreign := false, lost := lost } ∧ result = .untaken
  | .securedAbsent => new = { state := .empty, foreign := false, lost := false } ∧ result = .taken
  | .notOpenedJam => new.state = .fault .jam (some p) ∧ result = .notOpened
  | .notOpenedBolt => new.state = .fault .bolt (some p) ∧ result = .notOpened
  | .abandoned => new = { state := .occupied p, foreign := false, lost := lost || presenceOff } ∧ result = .abandoned
  | .latchFault on => new.state = .fault .latch (if on then some p else none) ∧ result = .fault
  | .forced => new.state = .fault .forced (some p) ∧ result = .fault

/-- The result Table 10-6 gives for a SERVICE cycle's outcome on a compartment EMPTY at its start. -/
def Table106Empty (presenceOn : Bool) (o : Outcome) (new : CompRec) (result : ReleaseResult) : Prop :=
  match o with
  | .securedPresent => new = { state := .empty, foreign := true, lost := false } ∧ result = .closed
  | .securedAbsent => new = { state := .empty, foreign := false, lost := false } ∧ result = .closed
  | .notOpenedJam => new.state = .fault .jam none ∧ result = .notOpened
  | .notOpenedBolt => new.state = .fault .bolt none ∧ result = .notOpened
  | .abandoned => new = { state := .empty, foreign := presenceOn, lost := false } ∧ result = .abandoned
  | .latchFault _ => new.state = .fault .latch none ∧ result = .fault
  | .forced => new.state = .fault .forced none ∧ result = .fault

/-- The result Table 10-6 gives for a SERVICE cycle's outcome on a compartment in FAULT at its start. -/
def Table106Fault (r : CompRec) (cause : FaultCause) (p : Option Parcel) (o : Outcome) (new : CompRec)
    (result : ReleaseResult) : Prop :=
  match o with
  | .securedPresent => new = r ∧ result = (if p.isSome then .untaken else .closed)
  | .securedAbsent => new.state = .fault cause none ∧ result = (if p.isSome then .taken else .closed)
  | .notOpenedJam => new.state = .fault .jam p ∧ result = .notOpened
  | .notOpenedBolt => new.state = .fault .bolt p ∧ result = .notOpened
  | .abandoned => new = r ∧ result = .abandoned
  | .latchFault on => new.state = .fault .latch (if on then p else none) ∧ result = .fault
  | .forced => new = r ∧ result = .fault

/-- A slot's door cycle ends: the parts that its end and its outcome's mapping may change. -/
def endParts : List Part :=
  [.records, .store, .sensing, .doors, .note, .requests, .outputs, .conditions, .counters, .transmit, .free]

/-- An outcome's mapping has given a record and a unit that answers it (R10, R16, R54): a record that changes is written and the
unit waits for that; one that stands lets the unit wait on whatever is being written of it. Until then no entry changes, and the
events are the cycle's DOOR_CYCLE and the ENTER_STATE of the change (R166). -/
structure MappedTo (slot : Slot) (r new : CompRec) (u : Waiter) (o : Outcome) (s t : State) : Prop where
  record : t.rec? slot = some new
  change : r ≠ new → Changed slot new [u] s t
  waits : r = new → Writing slot s → WaitsFor slot u s t
  pending : r ≠ new ∨ Writing slot s → t.ort = s.ort
    ∧ CountedAll ((.doorCycle, some o.pos, s.carrierOf slot) :: entryEvents r.state new.state (s.carrierOf slot)) s t

/-- The unit's RELEASE_DONE is answered at once where nothing is being written of the slot (R16, R148): the SERVICE entry ends,
and with room the frame is queued. -/
def AnsweredAtOnce (job : Job) (slot : Slot) (result : ReleaseResult) (ref : BitVec 64) (s t : State) : Prop :=
  ¬Writing slot s → job.kind = .service → t.entry? job = none
    ∧ (s.liu.tx.length + 2 ≤ 8 →
        TxFrame.fresh (.releaseDone job.ticket.number slot result ref) 0 job.ticket.station ∈ t.liu.tx)

/-- An outcome is mapped by the table of its kind and job (R54, R106, R143, R148): Table 7-3, 10-4 or 10-6. An entry into FAULT
raises its condition (R10), OCCUPIED again with presence off raises PRESENCE_LOST (R38), and a compartment in FAULT(STORE) stays
so and is answered FAULT (R17). -/
def OutcomeMapped (slot : Slot) (kind : DoorKind) (job : Job) (ref : BitVec 64) (start : StartState) (o : Outcome)
    (s t : State) : Prop :=
  ∀ r, s.rec? slot = some r →
    (r.storeFaulted = false →
      (∀ p, kind = .deposit → r.state = .held job.ticket (some p) →
        ∃ new result, Table73 p (s.sense slot).presenceIsOn o new result
          ∧ MappedTo slot r new (.placeDone job.ticket result) o s t
          ∧ (∀ k q, new.state = .fault k q → Raised k.condition (some slot) s t))
      ∧ (∀ p, kind = .collect ∨ kind = .sweep ∨ (kind = .service ∧ start = .occupied) →
        r.state = .releasing p ∨ (o = .forced ∧ r.state = .occupied p) →
        ∃ new result, Table104 p r.lost (s.sense slot).presenceIsOff o new result
          ∧ MappedTo slot r new (.releaseDone job result ref) o s t
          ∧ (o = .abandoned → (s.sense slot).presenceIsOff = true → Raised .presenceLost (some slot) s t)
          ∧ (∀ k q, new.state = .fault k q → Raised k.condition (some slot) s t))
      ∧ (kind = .service → start = .empty → r.state = .empty →
        ∃ new result, Table106Empty (s.sense slot).presenceIsOn o new result
          ∧ MappedTo slot r new (.releaseDone job result ref) o s t
          ∧ (r = new → AnsweredAtOnce job slot result ref s t)
          ∧ (o = .securedPresent → Raised .foreign (some slot) s t)
          ∧ (∀ k q, new.state = .fault k q → Raised k.condition (some slot) s t))
      ∧ (∀ k p, kind = .service → start = .fault → r.state = .fault k p →
        ∃ new result, Table106Fault r k p o new result
          ∧ MappedTo slot r new (.releaseDone job result ref) o s t
          ∧ (r = new → AnsweredAtOnce job slot result ref s t)
          ∧ (∀ j q, new.state = .fault j q → j ≠ k → Raised j.condition (some slot) s t)))
    ∧ (r.storeFaulted = true →
      (kind = .deposit → MappedTo slot r r (.placeDone job.ticket .fault) o s t)
      ∧ (kind ≠ .deposit → MappedTo slot r r (.releaseDone job .fault ref) o s t
        ∧ AnsweredAtOnce job slot .fault ref s t))

/-- A door cycle ends with an outcome (R54): the cycle is gone, the outcome is mapped by its kind's table, and only the parts
`ps` change. -/
def EndMapped (c : Cycle) (o : Outcome) (ps : List Part) (s t : State) : Prop :=
  CycleGone c.slot s t ∧ OutcomeMapped c.slot c.kind c.job c.ref c.startState o s t ∧ UnchangedBut ps s t

/-- A command ends a door cycle with an outcome. -/
def EndsWith (c : Cycle) (o : Outcome) (i : Instr) (ps : List Part) (s : State) : Prop :=
  ∃ t, exec i s = .next t.conclude ∧ EndMapped c o ps s t

/-- A forced report falls on a slot's door cycle (R53): a cycle in STARTING is marked and its lamp goes off, one in PULSE_WAIT ends
FORCED, and a request leaves the door queue with FORCED. `t` is the state the command `i` leaves. -/
structure ForcedOnRequest (slot : Slot) (i : Instr) (s t : State) : Prop where
  starting : ∀ c, s.inDoorQueue slot = false → s.cycle? slot = some c → c.stage = .starting →
    t.cycle? slot = some { c with forced := true } ∧ tget t.out.lampDemand slot = false
      ∧ UnchangedBut [.pins, .sensing, .doors, .outputs] s t
  pulseWait : ∀ c, s.inDoorQueue slot = false → s.cycle? slot = some c → c.stage = .pulseWait →
    EndsWith c .forced i (.pins :: endParts) s
  queued : ∀ q r, s.dsq.queue.find? (fun x => x.slot == slot) = some q → s.inCycle slot = false → s.rec? slot = some r →
    t.dsq = { s.dsq with queue := s.dsq.queue.filter (fun x => x.slot != slot) }
      ∧ OutcomeMapped slot q.kind q.job q.ref r.state.startState .forced s t
      ∧ UnchangedBut [.records, .store, .pins, .sensing, .doors, .requests, .conditions, .counters, .transmit, .free] s t

/-! ## What a command's end does (R42, R69, R86) -/

/-- A waiting entry is eligible (R86): no active entry holds a slot of its list, and no older waiting entry names one. -/
def Eligible (older : List Entry) (e : Entry) (s : State) : Prop :=
  e.stage = .waiting
    ∧ ∀ slot ∈ e.slotList, (∀ d ∈ s.ort, d.holds slot = false) ∧ ∀ d ∈ older, d.awaits slot = false

/-- A COLLECT entry `e` is active on its slots (R126, R137): MATCHED with a fresh lapse, a current quote for each slot, the
numbers following one another, and, with room for them, a COLLECT_MATCH for each. -/
structure CollectActive (j : Job) (slots : List Slot) (e : Entry) (s t : State) : Prop where
  stage : e.slotList = slots ∧ e.stage = .matched ∧ e.timer = some 0
  counter : t.quoteCounter = s.quoteCounter + BitVec.ofNat 16 slots.length
  quoted : ∀ (k : Nat) (slot : Slot) (r : CompRec) (p : Parcel), slots[k]? = some slot → s.rec? slot = some r →
    r.state.parcel? = some p →
    (∃ x, e.slot? slot = some x ∧ x.progress = .matched ∧ x.mark = false
      ∧ x.quote = some { number := s.quoteCounter + BitVec.ofNat 16 k, due := amountDue s.conf (s.size slot) p s.clk.minute,
                         valid := validUntil s.conf p s.clk.minute, minute := s.clk.minute })
    ∧ (s.liu.tx.length + slots.length ≤ 8 →
        TxFrame.fresh (.collectMatch j.ticket.number slot p.carrier (s.quoteCounter + BitVec.ofNat 16 k)
          (amountDue s.conf (s.size slot) p s.clk.minute) (min (validUntil s.conf p s.clk.minute - s.clk.minute) 65535)
          r.lost p.estimated) 0 j.ticket.station ∈ t.liu.tx)

/-- A parcel that the code search of a call found may still be collected from a slot (R139): the slot is OCCUPIED, its parcel
carries the code and is not treated as expired. -/
def Qualifies (code : Nat) (slot : Slot) (s : State) : Prop :=
  ∃ r p, s.rec? slot = some r ∧ r.state = .occupied p ∧ p.code = some code ∧ ¬ExpiredNow p s

/-- What SERVICE_CLEAR makes of a FAULT compartment (Table 10-7), with the reference its RELEASE_DONE carries. -/
def Table107 (r : CompRec) (presenceOn : Bool) (new : CompRec) (result : ReleaseResult) (ref : BitVec 64) : Prop :=
  match r.state.parcel?, presenceOn with
  | some p, true => new = { state := .occupied p, foreign := false, lost := false } ∧ result = .cleared ∧ ref = p.ref
  | some p, false => new = { state := .empty, foreign := false, lost := false } ∧ result = .parcelMissing ∧ ref = p.ref
  | none, false => new = { state := .empty, foreign := false, lost := false } ∧ result = .cleared ∧ ref = 0
  | none, true =>
    new = { state := .fault .foreign none, foreign := r.foreign, lost := false } ∧ result = .foreign ∧ ref = 0

/-- A service request cannot be carried out on a compartment (R147 to R150): RETIRED for an opening, not FAULT for a clear, not
EMPTY for a retirement, not RETIRED for a restoration. -/
def ServiceUnfit (sub : ServiceKind) (r : CompRec) : Prop :=
  match sub with
  | .open => r.state = .retired
  | .clear => ∀ k p, r.state ≠ .fault k p
  | .retire => r.state ≠ .empty
  | .restore => r.state ≠ .retired

/-- An eligible COLLECT entry has been re-evaluated (R139): active on the slots that still qualify; with none, ended with REFUSE
EXPIRED naming the first that holds an expired match, or in silence. -/
def CollectTakenUp (e : Entry) (s t : State) : Prop :=
  ∃ slots : List Slot, slots = e.slotList.filter (fun i => s.occupied i && s.collectable e.code i)
    ∧ (∀ i, i ∈ slots ↔ i ∈ e.slotList ∧ Qualifies e.code i s)
    ∧ (slots ≠ [] → ∃ d, t.entry? e.job = some d ∧ d.code = e.code ∧ CollectActive e.job slots d s t
      ∧ UnchangedBut [.requests, .quotes, .conditions, .transmit] s t)
    ∧ (slots = [] → t.entry? e.job = none
      ∧ (∀ before slot after p, e.slotList = before ++ slot :: after → FoundByCode e.code slot p s → ExpiredNow p s →
          (∀ i ∈ before, ∀ q, FoundByCode e.code i q s → ¬ExpiredNow q s) →
          Refused e.ticket.station (some e.ticket.number) (some slot.val) .expired p.carrier s t
            ∧ UnchangedBut [.requests, .conditions, .counters, .transmit] s t)
      ∧ ((∀ slot ∈ e.slotList, ∀ p, FoundByCode e.code slot p s → ¬ExpiredNow p s) → UnchangedBut [.requests] s t))

/-- An eligible SWEEP entry has been re-evaluated (R145): LISTED on the slots that still match, with one SWEEP_LIST; with none,
ended in silence. -/
def SweepTakenUp (e : Entry) (s t : State) : Prop :=
  ∃ slots : List Slot, slots = e.slotList.filter (fun i => s.sweepMatch e.carrier i)
    ∧ (∀ i, i ∈ slots ↔ i ∈ e.slotList ∧ FoundForCarrier e.carrier i s)
    ∧ (slots ≠ [] → (∃ d, t.entry? e.job = some d ∧ d.slotList = slots ∧ d.stage = .listed ∧ d.timer = some 0)
      ∧ Answered (.sweepList e.ticket.number slots e.more) e.ticket.station s t
      ∧ UnchangedBut [.requests, .conditions, .transmit] s t)
    ∧ (slots = [] → t.entry? e.job = none ∧ UnchangedBut [.requests] s t)

/-- An eligible SERVICE entry has become active on its slot (R86, R147 to R150): refused where its compartment is unfit, or asking
for the door, or with its change made and its RELEASE_DONE waiting for the write. -/
def ServiceTakenUp (e : Entry) (sub : ServiceKind) (slot : Slot) (r : CompRec) (s t : State) : Prop :=
  (∀ reason, (reason = .state ∧ ServiceUnfit sub r)
      ∨ (reason = .notSecure ∧ sub = .clear ∧ ¬ServiceUnfit sub r ∧ (s.sense slot).secure = false) →
    t.entry? e.job = none
      ∧ Refused e.ticket.station (some e.ticket.number) (some slot.val) reason (s.carrierOf slot) s t
      ∧ UnchangedBut [.requests, .conditions, .counters, .transmit] s t)
  ∧ (sub = .open → r.state ≠ .retired → s.hasDoorCycle slot = false → s.conf.span ≤ s.dsq.cycles.length →
    t.entry? e.job = some { e with stage := .door, timer := none }
      ∧ Queued { slot := slot, kind := .service, job := e.job, ref := s.parcelRef slot } s t
      ∧ UnchangedBut [.doors, .requests] s t)
  ∧ (sub = .retire → r.state = .empty →
    t.entry? e.job = some { e with stage := .immediate, timer := none }
      ∧ Changed slot { r with state := .retired } [.serviceDone e.ticket .retired 0] s t
      ∧ UnchangedBut [.records, .store, .requests, .counters, .free] s t)
  ∧ (sub = .restore → r.state = .retired →
    t.entry? e.job = some { e with stage := .immediate, timer := none }
      ∧ Changed slot { state := .empty, foreign := (s.sense slot).presenceIsOn, lost := false }
          [.serviceDone e.ticket .restored 0] s t
      ∧ UnchangedBut [.records, .store, .requests, .conditions, .counters, .transmit, .free] s t)
  ∧ (∀ k p, sub = .clear → r.state = .fault k p → (s.sense slot).secure = true →
    ∃ new result ref, Table107 r (s.sense slot).presenceIsOn new result ref
      ∧ (r ≠ new → t.entry? e.job = some { e with stage := .immediate, timer := none }
        ∧ Changed slot new [.serviceDone e.ticket result ref] s t)
      ∧ UnchangedBut [.records, .store, .requests, .conditions, .counters, .transmit, .free] s t)

/-- The request at the head of the door queue passes the start check that precedes RELEASING (R142), its compartment holding the
parcel: a collection nothing is due for, a sweep of a RETURN or an expired parcel, a service opening. -/
def PassesStart (q : DoorRequest) (p : Parcel) (s : State) : Prop :=
  (q.kind = .collect ∧ p.purpose = .delivery ∧ ¬ExpiredNow p s ∧ amountDue s.conf (s.size q.slot) p s.clk.minute = 0)
    ∨ (q.kind = .sweep ∧ ∃ e, s.entry? q.job = some e ∧ p.carrier = e.carrier
        ∧ (p.purpose = .carrierReturn ∨ ExpiredNow p s))
    ∨ q.kind = .service

/-- A start check fails (R142): no cycle stays, and the slot is answered as the check found it, with a DOOR_CYCLE event of
ABANDONED. -/
structure StartRefused (q : DoorRequest) (rest : List DoorRequest) (reason : Reason) (s t : State) : Prop where
  doors : t.dsq = { queue := rest, cycles := s.dsq.cycles, order := s.dsq.order.filter (fun x => x != q.slot) }
  lamp : tget t.out.lampDemand q.slot = false
  frame : reason = .unpaid → UnchangedBut [.sensing, .doors, .note, .requests, .quotes, .outputs, .conditions, .counters,
    .transmit] s t
  answer : reason ≠ .unpaid →
    Answered (.refuse (some q.job.ticket.number) (some q.slot.val) reason) q.job.ticket.station s t
  freed : reason ≠ .unpaid → ∀ e, s.entry? q.job = some e → SlotFreed q.job q.slot e t
    ∧ (NoMarks e → CountedAll [(.doorCycle, some 4, s.carrierOf q.slot), (.refusal, some reason.pos, s.carrierOf q.slot)] s t
        ∧ UnchangedBut [.sensing, .doors, .note, .requests, .outputs, .conditions, .counters, .transmit] s t)

/-- The request at the head of the door queue has been started on its compartment (R42, R43, R142): RELEASING and STARTING, or
PULSE_WAIT for a DEPOSIT and for a service opening of a compartment that is not OCCUPIED; a COLLECT or SWEEP whose start check
fails is answered. -/
def StartTried (q : DoorRequest) (rest : List DoorRequest) (r : CompRec) (s t : State) : Prop :=
  (∀ p, r.state = .occupied p → PassesStart q p s →
    Started { q with ref := s.parcelRef q.slot } .starting (s.setDsq { s.dsq with queue := rest }) t
      ∧ Changed q.slot { r with state := .releasing p } [.cycleStart] s t
      ∧ CountedAll [(.enterState, some 4, p.carrier)] s t
      ∧ UnchangedBut [.records, .store, .sensing, .doors, .outputs, .counters, .free] s t)
  ∧ (q.kind = .deposit ∨ (q.kind = .service ∧ ∀ p, r.state ≠ .occupied p) →
    Started { q with ref := s.parcelRef q.slot } .pulseWait (s.setDsq { s.dsq with queue := rest }) t
      ∧ UnchangedBut [.sensing, .doors, .outputs] s t)
  ∧ ((∀ ended, s.bgu.own ≠ .queued q.slot ended) →
    (q.kind = .collect → q.job.kind = .collect →
      ((∃ p, r.state = .occupied p ∧ ExpiredNow p s) → StartRefused q rest .expired s t)
      ∧ ((∀ p, r.state = .occupied p → p.purpose = .carrierReturn) → StartRefused q rest .state s t)
      ∧ (∀ p e x, r.state = .occupied p → p.purpose = .delivery → ¬ExpiredNow p s →
          0 < amountDue s.conf (s.size q.slot) p s.clk.minute → s.entry? q.job = some e → e.slot? q.slot = some x →
          x.progress = .door → StartRefused q rest .unpaid s t ∧ t.quoteCounter = s.quoteCounter + 1
          ∧ (∃ d, t.entry? q.job = some d ∧ d.slot? q.slot = some { x with
              progress := .matched
              quote := some { number := s.quoteCounter, due := amountDue s.conf (s.size q.slot) p s.clk.minute,
                              valid := validUntil s.conf p s.clk.minute, minute := s.clk.minute } }
            ∧ d.timer = (if d.anyDoor then none else some 0))
          ∧ CountedAll [(.doorCycle, some 4, p.carrier), (.refusal, some 3, p.carrier)] s t))
    ∧ (∀ e, q.kind = .sweep → q.job.kind = .sweep → s.entry? q.job = some e →
      (∀ p, r.state = .occupied p → ¬PassesStart q p s) → StartRefused q rest .state s t))

/-- The cycle that the queue test is made for (R69): in NONE that at the head of the pulse order, in DEFERRED the note's. -/
def NoteCycle (slot : Slot) (s : State) : Prop :=
  (s.bgu.own = .none ∧ s.dsq.order.head? = some slot) ∨ s.bgu.own = .deferred slot

/-- The conditions under which the column queues its note (R69). -/
structure NoteMay (slot : Slot) (s : State) : Prop where
  line : s.liu.line = .active
  basis : s.bgu.basis ≠ .byDefault
  restart : s.restart = false
  budget : s.bgu.pulses.length < s.budget
  listed : ∀ p ∈ s.bgu.pulses, ¬(p.station = s.station ∧ p.slot = BitVec.ofNat 5 slot.val)

/-- The queue test (R69, R160): the note is placed and the own-note state is QUEUED. In a full transmit queue a frame is discarded
for it; with none to discard the note is deferred. -/
def NoteTested (s t : State) : Prop :=
  (∀ slot c, NoteCycle slot s → s.cycle? slot = some c → NoteMay slot s →
    (s.liu.tx.length < 8 → t.bgu.own = .queued slot false ∧ t.liu.tx = s.liu.tx ++ [s.noteFrame c] ∧ t.rpt = s.rpt)
    ∧ (8 ≤ s.liu.tx.length → (∃ g ∈ s.liu.tx, 2 ≤ g.body.cls ∧ g.sending = false) →
        t.bgu.own = .queued slot false ∧ s.noteFrame c ∈ t.liu.tx ∧ t.rpt.isSet .txDiscard = true)
    ∧ (8 ≤ s.liu.tx.length → (∀ g ∈ s.liu.tx, g.body.cls < 2 ∨ g.sending = true) →
        t.bgu.own = .deferred slot ∧ t.liu.tx = s.liu.tx ∧ t.rpt = s.rpt)
    ∧ UnchangedBut [.note, .conditions, .transmit] s t)
  ∧ ((∀ slot, NoteCycle slot s → s.cycle? slot = none ∨ ¬NoteMay slot s) → t = s)

/-! ## Invariants -/

/-- The lock-cycle count of a slot and its copies lie in their range (R14). -/
def Locks.bounded (x : Locks) : Prop :=
  x.count ≤ 16777215 ∧ x.a.value ≤ 16777215 ∧ x.b.value ≤ 16777215 ∧ ∀ w, x.writing = some w → w.2 ≤ 16777215

/-- The minutes of a record's parcel lie in the range of the minute counter (R109). -/
def CompRec.inTime (r : CompRec) : Prop :=
  ∀ p, r.state.parcel? = some p → p.deposit ≤ 4294967295 ∧ ∀ z, p.settled = some z → z ≤ 4294967295

/-- The minute counter, its copies, its writes in progress, and the parcels' minutes lie in its range (R18, R109). -/
structure MinutesBounded (s : State) : Prop where
  minute : s.clk.minute ≤ 4294967295
  copies : s.cts.minuteA.value ≤ 4294967295 ∧ s.cts.minuteB.value ≤ 4294967295
  writes : ∀ w ∈ s.cts.minuteWrites, w.value ≤ 4294967295
  records : ∀ slot r, s.rec? slot = some r → r.inTime
  stores : ∀ slot, (s.store slot).a.content.inTime ∧ (s.store slot).b.content.inTime
    ∧ ∀ w, (s.store slot).writing = some w → w.content.inTime

/-- A retained copy that passes its check carries the check word of what it holds (R14, R15, R18, R19, R21). -/
structure ChecksAgree (x : Cts) : Prop where
  records : ∀ slot isB, ((tget x.store slot).copy isB).ok = true → ((tget x.store slot).copy isB).check
    = recordCheck slot ((tget x.store slot).copy isB).gen ((tget x.store slot).copy isB).content
  locks : ∀ slot, ((tget x.locks slot).a.ok = true →
      (tget x.locks slot).a.check = checkWord .lockCount (tget x.locks slot).a.value)
    ∧ ((tget x.locks slot).b.ok = true → (tget x.locks slot).b.check = checkWord .lockCount (tget x.locks slot).b.value)
  minutes : (x.minuteA.ok = true → x.minuteA.check = checkWord .minute x.minuteA.value)
    ∧ (x.minuteB.ok = true → x.minuteB.check = checkWord .minute x.minuteB.value)
  causes : x.causeStore.ok = true → x.causeStore.check = checkWord .causes x.causeStore.set
  mark : x.markOk = true → x.markCheck = checkWord .mark ()

/-- The column's volatile state is as a reset leaves it, and nothing is being written (R171, R174). -/
structure QuietSinceReset (s : State) : Prop where
  requests : s.ort = []
  doors : s.dsq = Dsq.reset
  budget : s.bgu = Bgu.reset
  line : s.liu = Liu.reset
  outputs : s.out = Out.reset
  report : s.rpt = Rpt.reset
  sensing : s.sen = tconst Sense.reset
  restart : s.restart = false
  records : ∀ slot, (s.store slot).writing = none ∧ (s.locks slot).writing = none
  minutes : s.cts.minuteWrites = []
  causes : s.cts.causeWriting = none

/-- The queues hold no more than their places, the counts and minutes lie in their ranges, the pulse list holds at most 8 entries,
at most one door cycle of a slot is queued or in progress and no more than the door span are in progress, attention is true exactly
while a condition is both set and enabled, retained copies carry their check words, and before the configuration is loaded nothing
runs. -/
structure Bounded (s : State) : Prop where
  transmit : s.liu.tx.length ≤ 8
  receive : s.liu.rx.length ≤ 6
  places : s.ort.length ≤ 8
  bolt : ∀ slot, (s.sense slot).bolt ≤ 15
  level : s.bgu.level ≤ 3
  errors : s.liu.checkFaults ≤ 65535 ∧ s.liu.failures ≤ 65535 ∧ s.liu.dropCount ≤ 65535 ∧ s.liu.roleFailures ≤ 65535
  hold : s.clk.hold ≤ 1440
  age : s.clk.age ≤ 2880
  locks : ∀ slot, (s.locks slot).bounded
  minutes : MinutesBounded s
  pulses : s.bgu.pulses.length ≤ 8
  span : s.dsq.cycles.length ≤ s.conf.span
  cycles : (s.dsq.queue.map DoorRequest.slot ++ s.dsq.cycles.map Cycle.slot).Nodup
  config : s.conf.budget ≤ 8 ∧ s.conf.span ≤ 4
  checks : ChecksAgree s.cts
  unloaded : s.loaded = false → QuietSinceReset s
  attention : s.rpt.attention = attentionOf s.rpt.conds s.conf.enables

/-- Each ticket and kind has at most one entry (R81), and no two entries hold the same compartment (R84). -/
def HoldsApart (s : State) : Prop :=
  s.ort.Pairwise (fun e f => e.job ≠ f.job ∧ ∀ slot, ¬(e.holds slot = true ∧ f.holds slot = true))

/-! ## Configuration ranges (Table 13-1) -/

/-- The ranges of a tariff (Table 9-1). -/
def tariffInRange (t : Tariff) : Prop :=
  t.free ≤ 10080 ∧ 15 ≤ t.step ∧ t.step ≤ 1440 ∧ t.price ≤ 9999 ∧ t.capDay ≤ 99999 ∧ t.capMax ≤ 99999

/-- The ranges of Table 13-1 for the fields that are clamped (R173). -/
structure InRange (m : ConfigFields) : Prop where
  slots : ∀ i, tget m.slotMap i ≤ 4
  threshold : 6 ≤ m.threshold ∧ m.threshold ≤ 12
  span : 1 ≤ m.span ∧ m.span ≤ 4
  pulse : 100 ≤ m.pulseLength ∧ m.pulseLength ≤ 800 ∧ m.pulseLength % 10 = 0
  ajar : 60 ≤ m.ajarTime ∧ m.ajarTime ≤ 600
  budget : 1 ≤ m.budget ∧ m.budget ≤ 8
  lampShed : 1 ≤ m.lampShed ∧ m.lampShed ≤ 4
  auxShed : ∀ i : Fin 4, 1 ≤ m.auxShed[i] ∧ m.auxShed[i] ≤ 4
  hold : 30 ≤ m.holdTime ∧ m.holdTime ≤ 300
  collect : 30 ≤ m.collectLapse ∧ m.collectLapse ≤ 600
  sweep : 30 ≤ m.sweepLapse ∧ m.sweepLapse ≤ 600
  hmax : 60 ≤ m.hmax ∧ m.hmax ≤ 20160
  hdef : 60 ≤ m.hdef ∧ m.hdef ≤ m.hmax
  granularity : m.granularity ≤ 4
  tariffs : ∀ i : Fin 8, tariffInRange m.tariffs[i]
  multipliers : ∀ i : Fin 4, 4 ≤ m.multipliers[i] ∧ m.multipliers[i] ≤ 32
  grace : m.grace ≤ 30
  counters : ∀ i : Fin 4, m.counters[i].kind ≤ 7 ∧ m.counters[i].filter ≤ 63

end Sys2Proof.Machine
end

