-- ==== Sys2Proof/Certificates/Slice0/Obligations.lean ====
section
/-! DEFINITION. The statements about the column for the provers. In a statement of a command's effect, `t` is the state the
command itself leaves, and the next state is `t.conclude`: what the tests at a command's end then do is
`Obligations.ConcludingOnlyDoesTheColumnsOwnWork`. Entry n is notes/assumptions/n.md. `Heads`, in a statement of a request command,
is the reading of entry 7. -/

open Sys2Proof Sys2Proof.Machine

/-! ## Steps -/

/-- A step runs the command at the front of the queue on the state with the queue's rest (entry 1). -/
def Obligations.StepRunsTheFrontCommand : Prop :=
  ∀ (s : State) (c : Instr) (rest : List Instr), s.pending = c :: rest → step s = exec c (s.setPending rest)

/-- On an empty queue the column carries out the event that is due; with none due, one millisecond passes once the
configuration is loaded, and nothing changes before that (entry 2, the model's choice). In a millisecond every running timer
advances: the clock's sub-minute count, the drives and pulse entries towards their end, the level's age, the sensing timers of the
fitted slots, the timers of door cycles, the lapse timers and the line's timer. -/
def Obligations.IdleStepTakesWhatIsDueOrOneMillisecond : Prop :=
  ∀ s : State, s.pending = [] →
    (∀ c, s.due = some c → step s = exec c s)
    ∧ (s.due = none → s.loaded = false → step s = .next s)
    ∧ (s.due = none → s.loaded = true →
        ∃ t, step s = .next t ∧ t.clk = { s.clk with sub := s.clk.sub + 1 }
          ∧ t.bgu.pulses = s.bgu.pulses.map (fun p => { p with left := p.left - 1 })
          ∧ (∀ i, tget t.bgu.drivers i = (tget s.bgu.drivers i).map (fun n => n - 1))
          ∧ t.bgu.age = s.bgu.age.map (fun n => n + 1) ∧ t.bgu.level = s.bgu.level ∧ t.bgu.basis = s.bgu.basis
          ∧ (∀ i, s.fitted i = false → t.sense i = s.sense i)
          ∧ (∀ i, s.fitted i = true → ∃ door presence, t.sense i = { s.sense i with
              homeIdle := (s.sense i).homeIdle.map (fun n => n + 1)
              boltLow := (s.sense i).boltLow.map (fun n => min (n + 1) 200)
              doorTimer := door
              presenceTimer := presence
              baseTimer := if (s.sense i).baseline = none then (s.sense i).baseTimer + 1 else 0 }
            ∧ (∀ isOpen, (s.sense i).door = some isOpen →
                door = if ((tget s.pins i).door != s.conf.doorPolarity) = isOpen then 0 else (s.sense i).doorTimer + 1)
            ∧ (∀ on, (s.sense i).presence = some on → presence
                = if ((tget s.pins i).presence == s.conf.presencePolarity) = on then 0 else (s.sense i).presenceTimer + 1))
          ∧ t.dsq.queue = s.dsq.queue ∧ t.dsq.order = s.dsq.order
          ∧ (∀ i, t.cycle? i = (s.cycle? i).map (fun c => { c with
              limit := c.limit.map (fun n => n + 1)
              wait := if c.stage = .pulseWait then c.wait + 1 else c.wait
              pop := c.pop.map (fun n => n + 1)
              ajar := c.ajar.map (fun n => n + 1)
              latch := if c.stage = .closing ∧ 2 ≤ (s.sense i).bolt then c.latch + 1 else c.latch
              settle := c.settle.map (fun n => n + 1) }))
          ∧ t.ort = s.ort.map (fun e => { e with timer := e.timer.map (fun n => n + 1) })
          ∧ t.liu = { s.liu with
              timer := if s.liu.line = .joining ∨ s.liu.line = .quiet then s.liu.timer + 1 else s.liu.timer }
          ∧ UnchangedBut [.sensing, .doors, .level, .pulses, .drivers, .requests, .clock, .line] s t)

/-! ## Resets and start-up -/

/-- A reset of any cause leaves the tables of state after reset and holds its causes for the write of the set (R171). The commands
waiting, the levels at the inputs and the minute counter stand: the model's choices, entries 1, 5 and 18, and so are the debounce
timers at zero, entry 49. -/
def Obligations.ResetsLeaveTheStateAfterReset : Prop :=
  ∀ (s : State) (active : Causes) (c : Instr) (own : Causes),
    (c = .powerReset active ∧ own = { Causes.none with power := true }
      ∨ c = .brownoutReset active ∧ own = { Causes.none with brownout := true }
      ∨ c = .pinReset active ∧ own = { Causes.none with pin := true }
      ∨ c = .restartReset active ∧ own = { Causes.none with restart := true } ∧ s.restart = true
        ∧ (∀ i, tget s.bgu.drivers i = none) ∧ s.noteBusy = false) →
    ∃ t, exec c s = .next t ∧ t.phase = .reading ∧ t.cfg.state = .none ∧ QuietSinceReset t
      ∧ t.clk = { minute := s.clk.minute, sub := 0, hold := 0, age := 0, synced := false } ∧ t.quoteCounter = 0
      ∧ (∀ i, t.rec? i = none) ∧ t.heldCauses = causeUnion own active ∧ t.pins = s.pins ∧ t.pending = s.pending

/-- A reset leaves the custody store as it was, but for the copy that a write was going to, which may now fail its check (R15,
R171, Table 2-6). That such a copy either holds what it held or fails its check is the model's reading, entry 12. -/
def Obligations.ResetAbandonsOnlyWritesInProgress : Prop :=
  ∀ (s : State) (active : Causes) (c : Instr),
    c = .powerReset active ∨ c = .brownoutReset active ∨ c = .pinReset active →
    ∃ t, exec c s = .next t ∧ t.cts.markOk = s.cts.markOk ∧ t.cts.markCheck = s.cts.markCheck
      ∧ (∀ i, (∀ w, (s.store i).writing = some w → w.toB = true) → (t.store i).a = (s.store i).a)
      ∧ (∀ i, (∀ w, (s.store i).writing = some w → w.toB = false) → (t.store i).b = (s.store i).b)
      ∧ (∀ i, (t.store i).a = (s.store i).a ∨ (t.store i).a = { (s.store i).a with ok := false })
      ∧ (∀ i, (t.store i).b = (s.store i).b ∨ (t.store i).b = { (s.store i).b with ok := false })
      ∧ (∀ i, (∀ w, (s.locks i).writing = some w → w.1 = true) → (t.locks i).a = (s.locks i).a)
      ∧ (∀ i, (∀ w, (s.locks i).writing = some w → w.1 = false) → (t.locks i).b = (s.locks i).b)
      ∧ (s.cts.minuteWrites = [] ∨ s.cts.minuteNextB = true → t.cts.minuteA = s.cts.minuteA)
      ∧ (s.cts.minuteWrites = [] ∨ s.cts.minuteNextB = false → t.cts.minuteB = s.cts.minuteB)
      ∧ (s.cts.causeWriting = none → t.cts.causeStore = s.cts.causeStore)

/-- A read that does not complete, whose check word disagrees, or whose fields fail a structural check puts the column in STANDBY,
and nothing but the configuration state and the held causes changes. In STANDBY only a reset has an effect: any other command
changes at most the levels at the inputs, and no event falls due (R172, R174). That the held causes are dropped is the model's
reading, entry 39; that a command whose event cannot arise changes nothing is its choice, entry 4. That the read brings the stored
bytes and the field values beside each other is its choice, entry 17. -/
def Obligations.FailedReadStandsByUntilAReset : Prop :=
  (∀ (s : State) (r : ConfigRead), s.phase = .reading →
    (∀ image m check, r = .contents image m check → ¬(crcBytes image = check ∧ StructurallySound m)) →
    ∃ t, exec (.configurationRead r) s = .next t ∧ t.phase = .standby ∧ t.cfg = { s.cfg with state := .standby }
      ∧ t.heldCauses = Causes.none ∧ UnchangedBut [.phase, .config, .held] s t)
  ∧ (∀ s : State, s.phase = .standby → QuietSinceReset s →
    (∀ c, IsReset c ∨ ∃ t, exec c s = .next t ∧ UnchangedBut [.pins] s t) ∧ (s.pending = [] → step s = .next s))

/-- A read that passes the structural checks is clamped and loaded, and the causes of the reset join the stored set, whose write
begins; the store has been used before, and its mark is written again where it fails. The gates of the fitted slots alone are
sampled (R173, R175 steps 1 and 2, R14, R18, R19, R21, R24, R28). That the read brings the stored bytes and the field values
beside each other is the model's choice, entry 17; the bytes under a check word are a free value, entry 11. That the write of the
mark succeeds at once is its choice too, entry 54. -/
def Obligations.PassedReadLoadsTheConfiguration : Prop :=
  ∀ (s : State) (image : List Byte) (m : ConfigFields) (check : BitVec 16), s.phase = .reading → crcBytes image = check →
    StructurallySound m → s.cts.neverUsed = false →
    ∃ t, exec (.configurationRead (.contents image m check)) s = .next t ∧ t.phase = .causeWrite
      ∧ t.cfg.mem = clampFields m ∧ t.cfg.check = check
      ∧ (clampFields m = m → t.cfg.state = .loaded)
      ∧ (clampFields m ≠ m → t.cfg.state = .clamped ∧ t.rpt.isSet .configClamp = true)
      ∧ (∀ i, (t.sense i).bolt = 0 ∧ (t.sense i).door = none ∧ (t.sense i).presence = none
          ∧ (t.sense i).homeIdle = none ∧ (t.sense i).baseline = none)
      ∧ (∀ i, t.fitted i = true → (t.sense i).gates = some ((tget s.pins i).gateA, (tget s.pins i).gateB)
          ∧ (t.sense i).boltLow = some 200)
      ∧ (∀ i, t.fitted i = false → (t.sense i).gates = none)
      ∧ (s.cts.minuteA.ok = true → s.cts.minuteB.ok = true →
          t.clk.minute = max s.cts.minuteA.value s.cts.minuteB.value)
      ∧ (s.cts.minuteA.ok = true → s.cts.minuteB.ok = false → t.clk.minute = s.cts.minuteA.value)
      ∧ (s.cts.minuteA.ok = false → s.cts.minuteB.ok = true → t.clk.minute = s.cts.minuteB.value)
      ∧ (s.cts.minuteA.ok = false → s.cts.minuteB.ok = false →
          t.clk.minute = s.cts.minuteFallback ∧ t.rpt.isSet .store = true)
      ∧ t.clk.sub = 0 ∧ t.out.auxDemand = (clampFields m).auxDefault
      ∧ (∀ i, (t.locks i).count = max (if (s.locks i).a.ok then (s.locks i).a.value else 0)
          (if (s.locks i).b.ok then (s.locks i).b.value else 0))
      ∧ (∀ i, t.fitted i = true → (s.locks i).a.ok = false → (s.locks i).b.ok = false → t.rpt.isSet .store = true)
      ∧ t.cts.causes
          = causeUnion (if s.cts.causeStore.ok then s.cts.causeStore.set else Causes.none) s.heldCauses
      ∧ t.cts.causeWriting = some t.cts.causes
      ∧ (s.cts.causeStore.ok = false → t.rpt.isSet .store = true) ∧ t.cts.markOk = true
      ∧ (s.cts.markOk = true → t.cts.markCheck = s.cts.markCheck)
      ∧ (s.cts.markOk = false → t.cts.markCheck = checkWord .mark ())
      ∧ UnchangedBut [.phase, .config, .locks, .minutes, .causes, .mark, .sensing, .clock, .outputs, .conditions,
          .transmit] s t

/-- Every field of Table 13-1 that is clamped lies in its range afterwards; each by itself stands where it lies in its range and
takes the nearer end outside it. The pulse length is besides rounded down to 10 ms, the default holding time has its upper end at
the greatest one as clamped, and a counter kind outside the eight counts nothing. The station number, the role fields, the edge
enables, the polarities, the auxiliary defaults and the report enables are not clamped (R173). The model's own are: the numbers of
the event kinds, entry 17, and that a mask's stray bits stand, entry 19. -/
def Obligations.ClampingPutsEveryFieldInRange : Prop :=
  ∀ m : ConfigFields, InRange (clampFields m) ∧ (InRange m → clampFields m = m)
    ∧ (∀ i, NearerEnd 0 4 (tget m.slotMap i) (tget (clampFields m).slotMap i))
    ∧ NearerEnd 6 12 m.threshold (clampFields m).threshold ∧ NearerEnd 1 4 m.span (clampFields m).span
    ∧ (m.pulseLength < 100 → (clampFields m).pulseLength = 100)
    ∧ (100 ≤ m.pulseLength → m.pulseLength ≤ 800 → (clampFields m).pulseLength = m.pulseLength / 10 * 10)
    ∧ (800 < m.pulseLength → (clampFields m).pulseLength = 800)
    ∧ NearerEnd 60 600 m.ajarTime (clampFields m).ajarTime ∧ NearerEnd 1 8 m.budget (clampFields m).budget
    ∧ NearerEnd 1 4 m.lampShed (clampFields m).lampShed
    ∧ (∀ i : Fin 4, NearerEnd 1 4 m.auxShed[i] (clampFields m).auxShed[i])
    ∧ NearerEnd 30 300 m.holdTime (clampFields m).holdTime
    ∧ NearerEnd 30 600 m.collectLapse (clampFields m).collectLapse
    ∧ NearerEnd 30 600 m.sweepLapse (clampFields m).sweepLapse
    ∧ NearerEnd 60 20160 m.hmax (clampFields m).hmax ∧ NearerEnd 60 (clampFields m).hmax m.hdef (clampFields m).hdef
    ∧ NearerEnd 0 4 m.granularity (clampFields m).granularity
    ∧ (∀ i : Fin 8, NearerEnd 0 10080 m.tariffs[i].free (clampFields m).tariffs[i].free
        ∧ NearerEnd 15 1440 m.tariffs[i].step (clampFields m).tariffs[i].step
        ∧ NearerEnd 0 9999 m.tariffs[i].price (clampFields m).tariffs[i].price
        ∧ NearerEnd 0 99999 m.tariffs[i].capDay (clampFields m).tariffs[i].capDay
        ∧ NearerEnd 0 99999 m.tariffs[i].capMax (clampFields m).tariffs[i].capMax)
    ∧ (∀ i : Fin 4, NearerEnd 4 32 m.multipliers[i] (clampFields m).multipliers[i])
    ∧ NearerEnd 0 30 m.grace (clampFields m).grace
    ∧ (∀ i : Fin 4, NearerEnd 0 63 m.counters[i].filter (clampFields m).counters[i].filter
        ∧ (m.counters[i].kind ≤ 7 → (clampFields m).counters[i].kind = m.counters[i].kind
            ∧ (clampFields m).counters[i].mask = m.counters[i].mask)
        ∧ (7 < m.counters[i].kind → (clampFields m).counters[i].kind = 0 ∧ (clampFields m).counters[i].mask = 0))
    ∧ (clampFields m).station = m.station ∧ (clampFields m).tlo = m.tlo ∧ (clampFields m).thi = m.thi
    ∧ (clampFields m).supply = m.supply ∧ (clampFields m).time = m.time ∧ (clampFields m).service1 = m.service1
    ∧ (clampFields m).service2 = m.service2 ∧ (clampFields m).edges = m.edges
    ∧ (clampFields m).doorPolarity = m.doorPolarity ∧ (clampFields m).presencePolarity = m.presencePolarity
    ∧ (clampFields m).auxDefault = m.auxDefault ∧ (clampFields m).enables = m.enables

/-- A store whose mark fails and none of whose 48 record copies passes is formatted, every value written with its check word,
before this reset's causes are added (R15, R21). The layout of the bytes under a check word is a free value, entry 11. That the
read brings the stored bytes and the field values beside each other is the model's choice, entry 17. That all these writes
succeed, at once, within the read is its choice too, entry 54. -/
def Obligations.UnusedStoreIsFormatted : Prop :=
  ∀ (s : State) (image : List Byte) (m : ConfigFields) (check : BitVec 16), s.phase = .reading → crcBytes image = check →
    StructurallySound m → s.cts.markOk = false → (∀ i, (s.store i).a.ok = false ∧ (s.store i).b.ok = false) →
    ∃ t, exec (.configurationRead (.contents image m check)) s = .next t ∧ t.cts.markOk = true
      ∧ t.cts.markCheck = checkWord .mark ()
      ∧ (∀ i, (t.store i).a = RecCopy.written i 0 { state := .empty, foreign := false, lost := false }
          ∧ (t.store i).b = (s.store i).b)
      ∧ (∀ i, (t.locks i).a = CountCopy.written .lockCount 0 ∧ (t.locks i).b = CountCopy.written .lockCount 0
          ∧ (t.locks i).count = 0)
      ∧ t.cts.minuteA = CountCopy.written .minute 0 ∧ t.cts.minuteB = CountCopy.written .minute 0
      ∧ t.cts.causeStore = CauseCopy.written Causes.none
      ∧ t.cts.causes = s.heldCauses ∧ t.cts.causeWriting = some s.heldCauses

/-- The write of the cause set ends: completed, it is stored; failed twice, STORE is raised and the column goes on with the set as
composed. At start-up reconciliation follows. A lock-cycle count's write ends the same way, and a count that has gone up meanwhile
is then written to the copy with the older count, once: the model's choice, entry 42 (R14, R19, R175). That copy A counts as the
older of two equal copies is its choice too, entry 16; the bytes under a check word are a free value, entry 11. -/
def Obligations.CauseAndLockCountWritesEnd : Prop :=
  (∀ (s : State) (c : Causes) (ok : Bool), s.cts.causeWriting = some c →
    ∃ t, exec (.resetCauseWrite ok) s = .next t ∧ t.cts.causeWriting = none ∧ t.cts.causes = s.cts.causes
      ∧ (ok = true → t.cts.causeStore = CauseCopy.written c ∧ t.rpt = s.rpt)
      ∧ (ok = false → Raised .store none s t)
      ∧ (s.phase = .causeWrite → t.phase = .reconciling ∧ t.heldCauses = Causes.none)
      ∧ (s.phase ≠ .causeWrite → t.phase = s.phase ∧ t.heldCauses = s.heldCauses)
      ∧ UnchangedBut [.phase, .causes, .conditions, .transmit, .held, .free] s t)
  ∧ (∀ (s : State) (slot : Slot) (toB : Bool) (n : Nat), (s.locks slot).writing = some (toB, n) →
    (∃ t, exec (.lockCountWrite slot true) s = .next t
      ∧ (if toB then (t.locks slot).b else (t.locks slot).a) = CountCopy.written .lockCount n
      ∧ (if toB then (t.locks slot).a else (t.locks slot).b) = (if toB then (s.locks slot).a else (s.locks slot).b)
      ∧ (t.locks slot).count = (s.locks slot).count
      ∧ ((s.locks slot).again = false → (t.locks slot).writing = none)
      ∧ ((s.locks slot).again = true → (t.locks slot).writing = some ((t.locks slot).olderIsB, (s.locks slot).count))
      ∧ (∀ i, i ≠ slot → t.locks i = s.locks i) ∧ UnchangedBut [.locks] s t)
    ∧ (∃ t, exec (.lockCountWrite slot false) s = .next t.conclude ∧ Raised .store none s t
      ∧ (t.locks slot).count = (s.locks slot).count
      ∧ ((s.locks slot).again = false → (t.locks slot).writing = none)
      ∧ (∀ i, i ≠ slot → t.locks i = s.locks i) ∧ UnchangedBut [.locks, .conditions, .transmit, .free] s t))

/-- The baseline states of a fitted slot are the levels its inputs have held, with the polarities; an input that has not settled
is taken as open or on; the pair is what reconciliation reads; the baseline gives no event (R20, R22, R31). The commands are
carried out whenever the slot awaits its baseline, and leave the input's level: the model's choices, entries 3 and 5. -/
def Obligations.BaselineIsTakenWithoutEvents : Prop :=
  ∀ (s : State) (slot : Slot), s.loaded = true → s.fitted slot = true → (s.sense slot).baseline = none →
    (∀ door presence : Bool, ∃ t, exec (.baselineSettled slot door presence) s = .next t
      ∧ (t.sense slot).door = some (door != s.conf.doorPolarity)
      ∧ (t.sense slot).presence = some (presence == s.conf.presencePolarity)
      ∧ (t.sense slot).baseline = some (door != s.conf.doorPolarity, presence == s.conf.presencePolarity)
      ∧ (t.sense slot).bolt = (s.sense slot).bolt ∧ (∀ i, i ≠ slot → t.sense i = s.sense i)
      ∧ (∀ i, i ≠ slot → tget t.pins i = tget s.pins i) ∧ UnchangedBut [.pins, .sensing] s t)
    ∧ (∀ door presence : Option Bool, ∃ t, exec (.baselineTimeout slot door presence) s = .next t
      ∧ (∀ d, door = some d → (t.sense slot).door = some (d != s.conf.doorPolarity))
      ∧ (door = none → (t.sense slot).door = some true)
      ∧ (∀ p, presence = some p → (t.sense slot).presence = some (p == s.conf.presencePolarity))
      ∧ (presence = none → (t.sense slot).presence = some true)
      ∧ (∀ isOpen on, (t.sense slot).door = some isOpen → (t.sense slot).presence = some on →
          (t.sense slot).baseline = some (isOpen, on))
      ∧ (t.sense slot).bolt = (s.sense slot).bolt ∧ (∀ i, i ≠ slot → t.sense i = s.sense i)
      ∧ (∀ i, i ≠ slot → tget t.pins i = tget s.pins i) ∧ UnchangedBut [.pins, .sensing] s t)

/-- A slot with an undamaged stored record takes the result Table 2-7 gives for its stored state and its sensors; a result
that differs is written, and its fault, foreign flag or presence-lost flag raises its condition (R22, R23). The sensors are
those of the baseline: the model's reading, entry 30. -/
def Obligations.ReconciliationTakesTheTablesResult : Prop :=
  ∀ (s : State) (slot : Slot) (isB doorOpen on : Bool), TurnToReconcile s slot →
    (s.sense slot).baseline = some (doorOpen, on) → IsStoredRecord (s.store slot) isB →
    ∃ t r, exec (.reconciliation slot) s = .next t ∧ t.rec? slot = some r
      ∧ Table27 ((s.store slot).content isB) doorOpen on r
      ∧ (r = (s.store slot).content isB → t.store slot = { s.store slot with current := some isB })
      ∧ (r ≠ (s.store slot).content isB → ∃ w, (t.store slot).writing = some w ∧ w.content = r ∧ w.toB = !isB
          ∧ w.gen = (if isB then (s.store slot).b.gen else (s.store slot).a.gen) + 1 ∧ w.second = false
          ∧ w.cause = .reconciliation ∧ w.waiters = []
          ∧ (t.store slot).a = (s.store slot).a ∧ (t.store slot).b = (s.store slot).b
          ∧ (t.store slot).current = some isB)
      ∧ (∀ c p, r.state = .fault c p → Raised c.condition (some slot) s t)
      ∧ (r.state = .empty → r.foreign = true → Raised .foreign (some slot) s t)
      ∧ (∀ p, r.state = .occupied p → r.lost = true → Raised .presenceLost (some slot) s t)
      ∧ (∀ i, i ≠ slot → t.rec? i = s.rec? i ∧ t.store i = s.store i)
      ∧ UnchangedBut [.records, .store, .conditions, .counters, .transmit] s t

/-- A record both of whose copies fail, or pass with neither one ahead of the other, reconciles to FAULT(STORE) without a
parcel record or flags, whatever the sensors show, and STORE is raised (R21). -/
def Obligations.DamagedRecordReconcilesToStoreFault : Prop :=
  ∀ (s : State) (slot : Slot) (b : Bool × Bool), TurnToReconcile s slot → (s.sense slot).baseline = some b →
    (∀ isB, ¬IsStoredRecord (s.store slot) isB) →
    ∃ t, exec (.reconciliation slot) s = .next t
      ∧ t.rec? slot = some { state := .fault .store none, foreign := false, lost := false }
      ∧ Raised .store (some slot) s t
      ∧ (∃ w, (t.store slot).writing = some w ∧ w.cause = .reconciliation
          ∧ w.content = { state := .fault .store none, foreign := false, lost := false })
      ∧ (t.store slot).a = (s.store slot).a ∧ (t.store slot).b = (s.store slot).b
      ∧ (∀ i, i ≠ slot → t.rec? i = s.rec? i ∧ t.store i = s.store i)
      ∧ UnchangedBut [.records, .store, .conditions, .counters, .transmit, .free] s t

/-- The line enters JOINING once every fitted slot is reconciled and every write that reconciliation made has ended, and not
before, with the level age timer started; any other write is not waited for (entry 47). JOINING ends with an ANNOUNCE and ACTIVE;
QUIET ends with JOINING (R23, R60, R157, R176). The line's timers are not asked for: the model's choice, entry 3. That a
JOINING_ENTRY that cannot arise changes nothing is its choice too, entry 4. -/
def Obligations.LineStatesFollowOneAnother : Prop :=
  (∀ s : State, s.phase = .reconciling →
    (∀ i, (s.fitted i = true → (s.rec? i).isSome = true)
      ∧ ∀ w, (s.store i).writing = some w → w.cause ≠ .reconciliation) →
    ∃ t, exec .joiningEntry s = .next t ∧ t.phase = .running ∧ t.liu.line = .joining ∧ t.liu.timer = 0
      ∧ t.bgu.age = some 0 ∧ t.bgu.level = s.bgu.level ∧ t.bgu.basis = s.bgu.basis
      ∧ UnchangedBut [.phase, .line, .level] s t)
  ∧ (∀ s : State, s.phase ≠ .reconciling ∨ (∃ i, s.fitted i = true ∧ s.rec? i = none)
      ∨ (∃ i w, (s.store i).writing = some w ∧ w.cause = .reconciliation) → exec .joiningEntry s = .next s)
  ∧ (∀ s : State, s.liu.line = .joining →
    ∃ t, exec .joiningEnd s = .next t.conclude ∧ t.liu.line = .active
      ∧ Answered (.announce s.cts.causes s.cfg.state s.cfg.check (allSlots.filter s.fitted).length (s.tagCount .fault)
          s.clk.minute s.clk.synced) 0 s t
      ∧ UnchangedBut [.line, .conditions, .transmit] s t)
  ∧ (∀ s : State, s.liu.line = .quiet →
    ∃ t, exec .quietEnd s = .next t ∧ t.liu.line = .joining ∧ t.liu.timer = 0 ∧ UnchangedBut [.line] s t)

/-! ## The bank line -/

/-- The column starts the frame of lowest key, among equal keys the one placed earliest, and sends its bits. A frame placed in a
queue of fewer than 8 joins its end; in a fuller queue the candidate of highest key, among equal keys the one placed latest, is
discarded, and with no candidate the new frame is not placed (R153, R154, R160). That a start which cannot arise starts nothing is
the model's choice, entry 4. That payload bytes without a layout are a new free value at each start is its choice too, entry 11.
-/
def Obligations.TheTransmitQueueGoesByKey : Prop :=
  (∀ s : State, s.liu.handover = none →
    (s.liu.line = .active → s.transmitting = false → s.liu.tx ≠ [] →
      ∃ t i f, exec .transmissionStart s = .next t.conclude ∧ s.liu.tx[i]? = some f
        ∧ (∀ (j : Nat) (g : TxFrame), s.liu.tx[j]? = some g → f.key < g.key ∨ (f.key = g.key ∧ i ≤ j))
        ∧ t.liu.tx = s.liu.tx.set i { f with sending := true }
        ∧ t.liu.lineBits = transmissionBits s.station f s.free ∧ t.liu.line = .active ∧ t.liu.drops = s.liu.drops
        ∧ UnchangedBut [.line, .transmit, .free] s t)
    ∧ (s.liu.line ≠ .active ∨ s.transmitting = true ∨ s.liu.tx = [] → exec .transmissionStart s = .next s.conclude))
  ∧ (∀ (f : TxFrame) (q : List TxFrame),
    (q.length < 8 →
      (placeIn f q).queue = q ++ [f] ∧ (placeIn f q).discarded = false ∧ (placeIn f q).placed = true)
    ∧ (8 ≤ q.length → (∀ g ∈ q ++ [f], g.body.cls < 2 ∨ g.sending = true) →
        (placeIn f q).queue = q ∧ (placeIn f q).discarded = false ∧ (placeIn f q).placed = false)
    ∧ (8 ≤ q.length → (∃ g ∈ q ++ [f], 2 ≤ g.body.cls ∧ g.sending = false) →
        ∃ i g, (q ++ [f])[i]? = some g ∧ 2 ≤ g.body.cls ∧ g.sending = false
          ∧ (∀ (j : Nat) (h : TxFrame), (q ++ [f])[j]? = some h → 2 ≤ h.body.cls → h.sending = false →
              h.key < g.key ∨ (h.key = g.key ∧ j ≤ i))
          ∧ (placeIn f q).queue = (q ++ [f]).eraseIdx i ∧ (placeIn f q).discarded = true
          ∧ ((placeIn f q).placed = true ↔ i ≠ q.length)))

/-- Every frame the column sends is one that a receiver finds good, and its notes and offers read back as composed; bits that
differ from those of a frame in exactly one place never have its check (R153, R155, R162). Payload bytes without a layout are
a free value, entry 11. -/
def Obligations.SentFramesAreGoodAndReadBack : Prop :=
  (∀ (own : BitVec 6) (f : TxFrame) (free : Nat),
    ∃ g : Frame, transmissionBits own f free = false :: (frameBits g ++ bitsOf g.check) ∧ frameGood g = true
      ∧ g.station = own ∧ g.cls.toNat = f.body.cls ∧ g.kind.toNat = f.body.kindNumber ∧ g.dest = f.dest
      ∧ (f.rank < 256 → g.rank.toNat = f.rank) ∧ g.length.toNat = g.payload.length
      ∧ (∀ slot duration kind, f.body = .pulseNote slot duration kind → duration < 256 →
          decodeNote g.payload = some { slot := BitVec.ofNat 5 slot.val, duration := duration })
      ∧ (∀ tk slot size, f.body = .placeOffer tk slot size → decodeOffer g.payload = some tk))
  ∧ (∀ (before after : List Bool) (b : Bool), crcBits (before ++ b :: after) ≠ crcBits (before ++ (!b) :: after))

/-- A frame that loses arbitration stays at its place with its retry count; a failed transmission advances the count and the error
count, with LINE_ERROR where that increases, and of a collided frame the column drives the void slot; an offer being withdrawn, or
a note no longer wanted, leaves the queue at the end of its transmission (R154, R156, R161, R101). That a note no longer wanted
leaves at a lost arbitration too, and that the three failures are otherwise alike, are the model's readings, entries 29 and 10.
That the drive at a frame's end is held until the next frame ends is its choice, entry 32. -/
def Obligations.LossKeepsAFrameAndFailureCountsIt : Prop :=
  ∀ (s : State) (f : TxFrame), s.sending? = some f →
    (f.withdrawn = false → ¬(f.isNote = true ∧ s.noteCancelled = true) →
      (∃ t, exec .arbitrationLost s = .next t.conclude
        ∧ t.liu.tx = s.liu.tx.map (fun x => if x.sending then { x with sending := false } else x)
        ∧ t.liu = { s.liu with tx := t.liu.tx, lineBits := [] } ∧ UnchangedBut [.line, .transmit] s t)
      ∧ (f.retries + 1 < 8 → ∀ how, ∃ t, exec (.transmissionFailed how) s = .next t.conclude
        ∧ t.liu.tx
            = s.liu.tx.map (fun x => if x.sending then { x with retries := x.retries + 1, sending := false } else x)
        ∧ t.liu = { s.liu with
            tx := t.liu.tx, lineBits := [], failures := min (s.liu.failures + 1) 65535
            drive := if how = .collided then .void else .neither }
        ∧ LineErrorCounted s.liu.failures s t ∧ UnchangedBut [.line, .drive, .transmit, .errors, .counters] s t))
    ∧ (f.withdrawn = true ∨ (f.isNote = true ∧ s.noteCancelled = true) →
      (∃ t, exec .arbitrationLost s = .next t.conclude ∧ t.liu.tx = s.liu.tx.filter (fun x => !x.sending)
        ∧ (f.withdrawn = false → t.bgu.own = .none) ∧ UnchangedBut [.line, .transmit, .note] s t)
      ∧ (f.retries + 1 < 8 → ∀ how, ∃ t, exec (.transmissionFailed how) s = .next t.conclude
        ∧ t.liu.tx = s.liu.tx.filter (fun x => !x.sending) ∧ t.liu.failures = min (s.liu.failures + 1) 65535
        ∧ t.liu.drive = (if how = .collided then .void else .neither) ∧ LineErrorCounted s.liu.failures s t
        ∧ (f.withdrawn = false → t.bgu.own = .none)
        ∧ UnchangedBut [.line, .drive, .transmit, .note, .errors, .counters] s t))

/-- The eighth failed transmission drops the frame: LINE_DROP, the drop count, the owner told, a LINE_ERROR event for each of the
two error counts that increases; the third drop in a row leads to QUIET with an empty transmit queue, in which only an ALERT of
its own raises can stand, and the own-note state NONE. The compartments of the offers so lost return to EMPTY (R156, R157, R161,
R74, R101). That the eighth failure drops also a note no longer wanted, or an offer whose entry has lapsed, is the model's choice,
entry 29. That a collision counts no check fault is its reading, entry 10; that the entry of an ended promise keeps its place
until the write has ended, entry 20; that the drive is held until the next frame ends, its choice, entry 32. -/
def Obligations.EighthFailureDropsTheFrame : Prop :=
  ∀ (s : State) (f : TxFrame) (how : TxFailure), s.sending? = some f → 8 ≤ f.retries + 1 →
    ∃ t, exec (.transmissionFailed how) s = .next t.conclude ∧ t.rpt.isSet .lineDrop = true
      ∧ t.liu.failures = min (s.liu.failures + 1) 65535 ∧ t.liu.dropCount = min (s.liu.dropCount + 1) 65535
      ∧ (∀ g ∈ t.liu.tx, g.sending = false)
      ∧ (s.liu.drops + 1 < 3 → t.liu.line = s.liu.line ∧ t.liu.drops = s.liu.drops + 1)
      ∧ (3 ≤ s.liu.drops + 1 → t.liu.line = .quiet ∧ t.liu.timer = 0 ∧ t.liu.drops = 0
          ∧ ∀ g ∈ t.liu.tx, ∃ conds slot, g.body = .alert conds slot)
      ∧ (f.isNote = true → ∀ slot ended, s.bgu.own = .queued slot ended → t.bgu.own = .none)
      ∧ (3 ≤ s.liu.drops + 1 → t.bgu.own = .none)
      ∧ (s.liu.drops + 1 < 3 → f.isNote = false → t.bgu.own = s.bgu.own)
      ∧ t.liu.drive = (if how = .collided then .void else .neither)
      ∧ (∀ g tk x y slot r, g ∈ s.liu.tx → g = f ∨ (g.sending = false ∧ 3 ≤ s.liu.drops + 1) → g.body = .placeOffer tk x y →
          Promised tk slot s → s.rec? slot = some r → r.state = .offered tk → PromiseEnded tk slot s t)
      ∧ ((∀ g ∈ s.liu.tx, g.body.cls ≠ 1) → ∀ i : Fin 4, t.rpt.counters[i] = s.rpt.counters[i]
          + (if counts s.conf.counters[i] .lineError none 0 = true
             then (if s.liu.failures < 65535 then 1 else 0) + (if s.liu.dropCount < 65535 then 1 else 0) else 0))
      ∧ UnchangedBut [.records, .store, .note, .requests, .conditions, .counters, .line, .drive, .errors, .transmit, .free] s t

/-- A transmission that succeeds takes the frame out of the queue and clears the drop count; an ANNOUNCE clears the reset-cause
set, and a note or an offer goes to its unit. A frame of another station that is voided is discarded, the column having echoed it;
one the column finds bad, whoever sent it, it voids and counts as a check fault; and of one whose start it has not seen, or that
comes while it is off the line, it drives neither slot and takes nothing. A note or an offer taken and not yet handled is handled
by its unit, with every test that its arrival makes, before the next transmission starts and before another frame that the column
receives is judged: so the next cycle's note is in the queue by then (R69, R70, R155, R156, R159, R161, R176). That a note or
offer first waits for its unit is the model's choice, entry 8. That what the column drove in the slots of a frame is held until
the next frame ends, and that the frame says whether its start was seen, is its choice too, entry 32. -/
def Obligations.FramesAreTakenOrVoided : Prop :=
  (∀ (s : State) (f : TxFrame), s.sending? = some f →
    ∃ t, exec .transmissionSucceeded s = .next t.conclude ∧ t.liu.tx = s.liu.tx.filter (fun x => !x.sending)
      ∧ t.liu.drops = 0 ∧ t.liu.line = s.liu.line ∧ t.liu.lineBits = [] ∧ t.liu.drive = .neither
      ∧ (f.body.isAnnounce = true → t.cts.causes = Causes.none ∧ t.cts.causeWriting = some Causes.none)
      ∧ (f.body.isAnnounce = false → t.cts = s.cts)
      ∧ (f.body.cls ≤ 1 → t.liu.handover = some f) ∧ (2 ≤ f.body.cls → t.liu.handover = s.liu.handover)
      ∧ UnchangedBut [.causes, .line, .drive, .transmit] s t)
  ∧ (∀ (s : State) (f : Frame) (c : Instr), c = .frameVoided f ∨ Brings c f →
    (s.liu.line = .off ∨ f.seen = false →
      ∃ t, exec c s = .next t ∧ t.liu = { s.liu with drive := .neither } ∧ UnchangedBut [.drive] s t)
    ∧ (s.liu.line ≠ .off → f.seen = true → s.liu.handover = none → s.transmitting = false →
      (c = .frameVoided f → frameGood f = true →
        ∃ t, exec c s = .next t.conclude ∧ t.liu = { s.liu with drive := .echo } ∧ UnchangedBut [.drive] s t)
      ∧ (frameGood f = false → ∃ t, exec c s = .next t.conclude
        ∧ t.liu = { s.liu with checkFaults := min (s.liu.checkFaults + 1) 65535, drive := .void }
        ∧ LineErrorCounted s.liu.checkFaults s t ∧ UnchangedBut [.drive, .errors, .counters] s t)))
  ∧ (∀ (s t : State) (f : TxFrame), s.liu.handover = some f →
    (f.isNote = true ∧ exec (.pulseNote .own) s = .next t) ∨ (f.body.cls = 1 ∧ exec (.placeOffer .own) s = .next t) →
    t.liu.handover = none ∧ exec .transmissionStart s = exec .transmissionStart t
    ∧ ∀ (g : Frame) (c : Instr), c = .frameVoided g ∨ Brings c g → s.liu.line ≠ .off → g.seen = true → exec c s = exec c t)

/-- A good frame that the line takes is echoed and filtered by sender, kind, destination and role; a request of classes 3 to 5
joins the receive queue, or is dropped with OVERRUN when six wait. The role check is the same for a POWER_STATE, a PULSE_NOTE and
a PLACE_OFFER, which go to their units at once (R155, R158, R159, R161, Tables 11-4 and 11-5). That the drive is held until the
next frame ends is the model's choice, entry 32. -/
def Obligations.TakenRequestsJoinTheReceiveQueue : Prop :=
  ∀ (s : State) (f : Frame) (c : Instr), Brings c f → s.liu.line ≠ .off → f.seen = true → s.liu.handover = none →
    s.transmitting = false → frameGood f = true →
    (f.station = s.station
        ∨ (f.kind = 2 ∧ f.cls = 0 ∧ f.dest = 0 ∧ f.station ≠ s.conf.supply)
        ∨ (f.kind = 1 ∧ f.cls = 0 ∧ f.dest = 0 ∧ ¬FromAColumn f s)
        ∨ (f.kind = 4 ∧ f.cls = 1 ∧ f.dest = 0 ∧ ¬FromAColumn f s)
        ∨ (∃ k, lineKind f.kind = some (.request k) ∧ f.cls.toNat = k.cls ∧ (f.dest = 0 ∨ f.dest = s.station)
            ∧ (k.cls = 3 → ¬(s.conf.tlo.toNat ≤ f.station.toNat ∧ f.station.toNat ≤ s.conf.thi.toNat))
            ∧ (k.cls = 4 → f.station ≠ s.conf.time)
            ∧ (k.cls = 5 → f.station ≠ s.conf.service1 ∧ f.station ≠ s.conf.service2)) →
      ∃ t, exec c s = .next t.conclude
        ∧ t.liu = { s.liu with roleFailures := min (s.liu.roleFailures + 1) 65535, drive := .echo }
        ∧ LineErrorCounted s.liu.roleFailures s t ∧ UnchangedBut [.drive, .errors, .counters] s t)
    ∧ (f.station ≠ s.station →
      (∀ k, lineKind f.kind = some k → f.cls.toNat ≠ k.cls ∨ (f.dest ≠ 0 ∧ (k.cls < 2 ∨ f.dest ≠ s.station)) ∨ k.cls = 2) →
      ∃ t, exec c s = .next t.conclude ∧ t.liu = { s.liu with drive := .echo } ∧ UnchangedBut [.drive] s t)
    ∧ (∀ k, f.station ≠ s.station → lineKind f.kind = some (.request k) → f.cls.toNat = k.cls →
        f.dest = 0 ∨ f.dest = s.station → f.station ≠ 0 →
        (k.cls = 3 → s.conf.tlo.toNat ≤ f.station.toNat ∧ f.station.toNat ≤ s.conf.thi.toNat) →
        (k.cls = 4 → f.station = s.conf.time) →
        (k.cls = 5 → f.station = s.conf.service1 ∨ f.station = s.conf.service2) →
        (s.liu.rx.length < 6 → ∃ t, exec c s = .next t.conclude
          ∧ t.liu.rx = s.liu.rx ++ [{ kind := k, station := f.station, payload := f.payload, spoken := false }]
          ∧ t.liu.drive = .echo ∧ UnchangedBut [.drive, .receive] s t)
        ∧ (6 ≤ s.liu.rx.length → ∃ t, exec c s = .next t.conclude ∧ t.liu.rx = s.liu.rx ∧ t.liu.drive = .echo
          ∧ Raised .overrun none s t ∧ UnchangedBut [.drive, .conditions, .transmit] s t))

/-! ## Levels, notes and drives -/

/-- The effective budget is the one Table 5-2 derives from the level and K, and never exceeds 8; the rank of a note is its
kind's base less one for each 250 ms waited, and not below 0 (R62, R65, R66, Table 5-5). -/
def Obligations.BudgetAndRankFollowTheirTables : Prop :=
  (∀ s : State, 1 ≤ s.conf.budget → s.conf.budget ≤ 8 →
    (s.bgu.level = 0 → s.budget = s.conf.budget) ∧ (s.bgu.level = 1 → s.budget = max 1 (s.conf.budget / 2))
    ∧ (s.bgu.level = 2 → s.budget = 1) ∧ (s.bgu.level = 3 → s.budget = 0) ∧ s.budget ≤ 8
    ∧ (∀ level, (s.changeLevel level).budget
        = (if level = 0 then s.conf.budget else if level = 1 then max 1 (s.conf.budget / 2)
           else if level = 2 then 1 else 0)))
  ∧ (∀ (s : State) (c : Cycle),
    (s.noteFrame c).rank
      = (match c.kind with | .service => 8 | .collect => 24 | .sweep => 40 | .deposit => 56) - c.wait / 250
    ∧ (s.noteFrame c).body = .pulseNote c.slot (s.conf.pulseLength / 10) c.kind ∧ (s.noteFrame c).dest = 0)

/-- A POWER_STATE gives the level, the basis ANNOUNCED and a fresh age timer; a change of level withdraws the queued offers at 2
and 3, whose compartments return to EMPTY, defers a queued note the budget no longer admits, and re-evaluates the outputs (R58,
R61, R64, R73, R76). That the entry of an ended promise keeps its place until the write has ended is the model's reading, entry
20; that the drive is held until the next frame ends, its choice, entry 32. -/
def Obligations.PowerStateSetsTheLevel : Prop :=
  ∀ (s : State) (f : Frame) (b : Byte) (rest : List Byte), Hears f s → f.kind = 2 → f.cls = 0 → f.dest = 0 →
    f.station = s.conf.supply → f.payload = b :: rest →
    ∃ t, exec (.powerState f) s = .next t.conclude ∧ t.bgu.level = min b.toNat 3 ∧ t.bgu.basis = .announced
      ∧ t.bgu.age = some 0 ∧ t.out.lampDemand = s.out.lampDemand ∧ t.out.auxDemand = s.out.auxDemand
      ∧ t.liu.drive = .echo
      ∧ (min b.toNat 3 = s.bgu.level → UnchangedBut [.level, .drive] s t)
      ∧ (min b.toNat 3 ≠ s.bgu.level →
          (∀ i, tget t.out.lampActual i = (tget s.out.lampDemand i && decide (t.bgu.level < s.conf.lampShed)))
          ∧ (∀ i : Fin 4, t.out.auxActual[i] = (s.out.auxDemand[i] && decide (t.bgu.level < s.conf.auxShed[i])))
          ∧ (2 ≤ b.toNat → (∀ g ∈ t.liu.tx, g.body.cls ≠ 1)
              ∧ ∀ g tk x y slot r, g ∈ s.liu.tx → g.body = .placeOffer tk x y → Promised tk slot s → s.rec? slot = some r →
                  r.state = .offered tk → PromiseEnded tk slot s t)
          ∧ (∀ slot ended, s.bgu.own = .queued slot ended → t.budget ≤ s.bgu.pulses.length →
              t.bgu.own = .deferred slot ∧ ∀ g ∈ t.liu.tx, g.isNote = false))
      ∧ UnchangedBut [.records, .store, .level, .note, .requests, .outputs, .conditions, .counters, .drive, .transmit, .free] s t

/-- When the level age timer reaches 30 s, level 0 becomes 1, any other level is kept, the basis becomes AGED and the timer
stops (R59). The timer's value is not asked for: the model's choice, entry 3. -/
def Obligations.LevelAgeFallsBack : Prop :=
  ∀ s : State, s.bgu.age.isSome = true →
    ∃ t, exec .levelAgeExpiry s = .next t.conclude ∧ t.bgu.level = max s.bgu.level 1 ∧ t.bgu.basis = .aged
      ∧ t.bgu.age = none
      ∧ (s.bgu.level ≠ 0 → UnchangedBut [.level] s t)
      ∧ (s.bgu.level = 0 →
          ∀ i, tget t.out.lampActual i = (tget s.out.lampDemand i && decide (1 < s.conf.lampShed)))
      ∧ t.out.lampDemand = s.out.lampDemand ∧ t.out.auxDemand = s.out.auxDemand
      ∧ UnchangedBut [.level, .note, .outputs, .transmit] s t

/-- Another station's note is granted exactly when its pair is not listed and the list is below the budget; a granted note adds
its entry and defers a queued own note that has no room left; a denied one changes nothing. An entry leaves the list at its end
(R67, R68, R73). That PULSE_ENTRY_END ends the entry whether or not its time has run out is the model's choice, entry 3; that the
drive is held until the next frame ends is its choice, entry 32. -/
def Obligations.NotesAreGrantedWithinTheBudget : Prop :=
  (∀ (s : State) (f : Frame) (n : NoteFields), Hears f s → FromAColumn f s → f.kind = 1 → f.cls = 0 → f.dest = 0 →
    decodeNote f.payload = some n →
    ((∀ p ∈ s.bgu.pulses, ¬(p.station = f.station ∧ p.slot = n.slot)) → s.bgu.pulses.length < s.budget →
      ∃ t, exec (.pulseNote (.other f)) s = .next t.conclude
        ∧ t.bgu.pulses = s.bgu.pulses
            ++ [{ station := f.station, slot := n.slot,
                  left := (if 10 ≤ n.duration ∧ n.duration ≤ 80 then n.duration * 10 else 800) + 20 }]
        ∧ (∀ slot ended, s.bgu.own = .queued slot ended → s.budget ≤ s.bgu.pulses.length + 1 →
            t.bgu.own = .deferred slot ∧ t.liu.tx = s.liu.tx.filter (fun g => !g.isNote))
        ∧ (s.bgu.pulses.length + 1 < s.budget ∨ (∀ slot ended, s.bgu.own ≠ .queued slot ended) →
            t.bgu.own = s.bgu.own ∧ t.liu.tx = s.liu.tx)
        ∧ t.liu.drive = .echo ∧ UnchangedBut [.pulses, .note, .drive, .transmit] s t)
    ∧ ((∃ p ∈ s.bgu.pulses, p.station = f.station ∧ p.slot = n.slot) ∨ s.budget ≤ s.bgu.pulses.length →
      ∃ t, exec (.pulseNote (.other f)) s = .next t.conclude ∧ t.liu.drive = .echo ∧ UnchangedBut [.drive] s t))
  ∧ (∀ (s : State) (station : BitVec 6) (slot : BitVec 5),
    ∃ t, exec (.pulseEntryEnd station slot) s = .next t.conclude
      ∧ t.bgu.pulses = s.bgu.pulses.filter (fun p => decide (¬(p.station = station ∧ p.slot = slot)))
      ∧ UnchangedBut [.pulses] s t)

/-- The column's own note, granted while its cycle waits, drives the lock for the note's duration, counts the pulse and takes the
cycle into DRIVING; where the cycle has ended meanwhile only the list's entry stands (R70, R44, R14, R74). How the own frame comes
to its unit is the model's choice, entry 8; that a count write in progress ends before the latest count is written, once, is its
choice too, entry 42. That copy A is written where the two copies are equal, or both fail their check, is its choice, entry 16. -/
def Obligations.OwnGrantedNoteDrivesItsLock : Prop :=
  ∀ (s : State) (f : TxFrame) (q : List TxFrame) (slot : Slot) (duration : Nat) (kind : DoorKind) (ended : Bool),
    OwnArrives f q s → f.body = .pulseNote slot duration kind → s.bgu.own = .queued slot ended →
    (∀ p ∈ s.bgu.pulses, ¬(p.station = s.station ∧ p.slot = BitVec.ofNat 5 slot.val)) →
    s.bgu.pulses.length < s.budget →
    ∃ t, exec (.pulseNote .own) s = .next t.conclude ∧ t.liu.tx = q ∧ t.liu.handover = none ∧ t.bgu.own = .none
      ∧ t.bgu.pulses = s.bgu.pulses
          ++ [{ station := s.station, slot := BitVec.ofNat 5 slot.val,
                left := (if 10 ≤ duration ∧ duration ≤ 80 then duration * 10 else 800) + 20 }]
      ∧ (∀ c, ended = false → s.cycle? slot = some c → c.stage = .pulseWait →
          tget t.bgu.drivers slot = some (duration * 10)
          ∧ (∀ i, i ≠ slot → tget t.bgu.drivers i = tget s.bgu.drivers i)
          ∧ t.cycle? slot = some { c with
              stage := .driving, boltReached := decide (s.conf.threshold ≤ (s.sense slot).bolt), doorOpened := false }
          ∧ t.dsq.order = s.dsq.order.filter (fun x => x != slot)
          ∧ (t.locks slot).count = min ((s.locks slot).count + 1) 16777215
          ∧ ((s.locks slot).writing = none → ∃ toB, (t.locks slot).writing = some (toB, (t.locks slot).count)
              ∧ ((s.locks slot).a.ok = true → (s.locks slot).b.ok = true →
                  toB = decide ((s.locks slot).b.value < (s.locks slot).a.value))
              ∧ ((s.locks slot).a.ok = false → toB = false)
              ∧ ((s.locks slot).a.ok = true → (s.locks slot).b.ok = false → toB = true))
          ∧ (∀ w, (s.locks slot).writing = some w →
              (t.locks slot).writing = some w ∧ (t.locks slot).again = true)
          ∧ Counted .pulseFired (some kind.code) (s.carrierOf slot) s t
          ∧ UnchangedBut [.locks, .doors, .pulses, .note, .drivers, .counters, .line, .drive, .transmit] s t)
      ∧ (ended = true ∨ (∀ c, s.cycle? slot = some c → c.stage ≠ .pulseWait) →
          UnchangedBut [.pulses, .note, .line, .drive, .transmit] s t)

/-- The column's own note, denied, leaves its cycle in PULSE_WAIT and is deferred, with a PULSE_DENIED event; where the cycle
has ended meanwhile the own-note state becomes NONE (R72, R74). How the own frame comes to its unit is the model's choice,
entry 8; that the event is given also for an ended cycle is its reading, entry 38. -/
def Obligations.OwnDeniedNoteIsDeferred : Prop :=
  ∀ (s : State) (f : TxFrame) (q : List TxFrame) (slot : Slot) (duration : Nat) (kind : DoorKind) (ended : Bool),
    OwnArrives f q s → f.body = .pulseNote slot duration kind → s.bgu.own = .queued slot ended →
    (∃ p ∈ s.bgu.pulses, p.station = s.station ∧ p.slot = BitVec.ofNat 5 slot.val) ∨ s.budget ≤ s.bgu.pulses.length →
    ∃ t, exec (.pulseNote .own) s = .next t.conclude ∧ t.liu.tx = q ∧ t.liu.handover = none
      ∧ (∀ c, ended = false → s.cycle? slot = some c → c.stage = .pulseWait → t.bgu.own = .deferred slot)
      ∧ (ended = true ∨ (∀ c, s.cycle? slot = some c → c.stage ≠ .pulseWait) → t.bgu.own = .none)
      ∧ Counted .pulseDenied (some kind.code) (s.carrierOf slot) s t
      ∧ UnchangedBut [.note, .counters, .line, .drive, .transmit] s t

/-- At driver off the driver turns off, and the cycle in DRIVING goes to OPEN, CLOSING, POP_WAIT or a failed attempt by its door
state and its two marks; the third failed attempt ends it with NOT_OPENED_BOLT, mapped by the table of its kind (R46, R47, R54,
R71); a slot secure at once goes on to SETTLE (entry 28). The drive's time is not asked for: the model's choice, entry 3. The
answer keeps the mapping's outcome where its write fails, and waits for a write in progress also where no record changes: entries
44 and 50. -/
def Obligations.DriverOffDecidesTheNextStage : Prop :=
  ∀ (s : State) (slot : Slot), (tget s.bgu.drivers slot).isSome = true →
    ∃ t, exec (.driverOff slot) s = .next t.conclude ∧ tget t.bgu.drivers slot = none
      ∧ (∀ i, i ≠ slot → tget t.bgu.drivers i = tget s.bgu.drivers i)
      ∧ ((∀ c, s.cycle? slot = some c → c.stage ≠ .driving) → UnchangedBut [.drivers] s t)
      ∧ (∀ c, s.cycle? slot = some c → c.stage = .driving →
          ((s.sense slot).door = some true →
            t.cycle? slot = some { c with stage := .opened, ajar := some 0, pop := none, settle := none, latchFault := false }
            ∧ UnchangedBut [.drivers, .doors] s t)
          ∧ ((s.sense slot).door ≠ some true → c.doorOpened = true →
            (∃ c', t.cycle? slot = some c'
              ∧ ((s.sense slot).secure = false → c' = { c with stage := .closing, ajar := none, settle := none })
              ∧ ((s.sense slot).secure = true →
                  c' = { c with stage := .settle, ajar := none, settle := some 0, latchFault := false }))
            ∧ UnchangedBut [.drivers, .doors] s t)
          ∧ ((s.sense slot).door ≠ some true → c.doorOpened = false → c.boltReached = true →
            t.cycle? slot = some { c with stage := .popWait, pop := some 0 } ∧ UnchangedBut [.drivers, .doors] s t)
          ∧ ((s.sense slot).door ≠ some true → c.doorOpened = false → c.boltReached = false → c.attempt < 3 →
            c.limitReached = false →
            (∃ c', t.cycle? slot = some c' ∧ c'.stage = .pulseWait ∧ c'.attempt = c.attempt + 1
              ∧ c'.lastFailure = some .bolt ∧ c'.wait = 0 ∧ c'.boltReached = false ∧ c'.doorOpened = false)
            ∧ t.dsq.order = s.dsq.order ++ [slot] ∧ UnchangedBut [.drivers, .doors] s t)
          ∧ ((s.sense slot).door ≠ some true → c.doorOpened = false → c.boltReached = false →
            3 ≤ c.attempt ∨ c.limitReached = true →
              EndsWith c .notOpenedBolt (.driverOff slot) (.drivers :: endParts) s))

/-! ## Offers -/

/-- The arrival of the column's own offer is the award: the compartment goes from OFFERED to HELD with its promise and the entry
to HELD with a fresh hold time, with the events ENTER_STATE and OFFER_WON of the call's carrier; a compartment that no longer
carries the promise ends the entry (R5, R98, R99, R166). How the own frame comes to its unit is the model's choice, entry 8. That
an entry whose work is over keeps its place until its write has ended, and takes no award, is its reading, entry 20. That an entry
without its promise ends at once, also while a write of the slot is in progress, is its choice, entry 53. -/
def Obligations.OwnOfferArrivingIsTheAward : Prop :=
  ∀ (s : State) (f : TxFrame) (q : List TxFrame) (tk : Ticket) (x : Slot) (size : Nat),
    OwnArrives f q s → f.body = .placeOffer tk x size →
    ∃ t, exec (.placeOffer .own) s = .next t.conclude ∧ t.liu.tx = q ∧ t.liu.handover = none
      ∧ (s.entry? (placeJob tk) = none → UnchangedBut [.line, .drive, .transmit] s t)
      ∧ (∀ e, s.entry? (placeJob tk) = some e → e.stage ≠ .promised ∨ e.ending = true →
          UnchangedBut [.line, .drive, .transmit] s t)
      ∧ (∀ e slot r, s.entry? (placeJob tk) = some e → e.firstSlot? = some slot → e.stage = .promised → e.ending = false →
          s.rec? slot = some r →
          (r.state = .offered tk → Changed slot { r with state := .held tk none } [] s t
            ∧ t.entry? (placeJob tk) = some { e with stage := .held, timer := some 0 }
            ∧ CountedAll [(.enterState, some 2, e.carrier), (.offerWon, none, e.carrier)] s t)
          ∧ (r.state ≠ .offered tk → t.entry? (placeJob tk) = none
            ∧ (t.rec? slot = some r ∨ (∃ p, r.state = .occupied p))))
      ∧ UnchangedBut [.records, .store, .requests, .counters, .line, .drive, .transmit, .free] s t

/-- Another station's offer for a ticket the column has promised is a loss: the own offer leaves the queue and the compartment
returns to EMPTY with the entry check; for any other ticket the queued calls of it are spoken for (R97, R98, R100, R37). That the
entry keeps its place until the write has ended is the model's reading, entry 20. The carrier 0 of its ENTER_STATE event is its
reading, entry 24; that the drive is held until the next frame ends is its choice, entry 32. -/
def Obligations.OtherStationsOfferIsTheLoss : Prop :=
  ∀ (s : State) (f : Frame) (tk : Ticket), Hears f s → FromAColumn f s → f.kind = 4 → f.cls = 1 → f.dest = 0 →
    decodeOffer f.payload = some tk →
    (s.entry? (placeJob tk) = none →
      ∃ t, exec (.placeOffer (.other f)) s = .next t.conclude
        ∧ t.liu.rx = s.liu.rx.map (fun g =>
            if g.kind = .placeCall ∧ g.station = tk.station ∧ number? g.payload = some tk.number
            then { g with spoken := true } else g)
        ∧ t.liu.drive = .echo ∧ UnchangedBut [.drive, .receive] s t)
    ∧ (∀ slot r, Promised tk slot s → s.rec? slot = some r → r.state = .offered tk →
        ∃ t, exec (.placeOffer (.other f)) s = .next t.conclude
          ∧ (∀ g ∈ t.liu.tx, g.isOfferFor tk = false)
          ∧ Changed slot { state := .empty, foreign := (s.sense slot).presenceIsOn, lost := false }
              [.endEntry (placeJob tk)] s t
          ∧ ((s.sense slot).presenceIsOn = true → Raised .foreign (some slot) s t)
          ∧ ((s.sense slot).presenceIsOn = false → t.rpt.conds = s.rpt.conds)
          ∧ PromiseEnded tk slot s t ∧ CountedAll [(.enterState, some 0, 0)] s t ∧ t.liu.drive = .echo
          ∧ UnchangedBut [.records, .store, .requests, .conditions, .counters, .drive, .transmit, .free] s t)
    ∧ (∀ e, s.entry? (placeJob tk) = some e → e.stage ≠ .promised ∨ e.ending = true →
        ∃ t, exec (.placeOffer (.other f)) s = .next t.conclude ∧ t.liu.drive = .echo ∧ UnchangedBut [.drive] s t)

/-! ## Placement -/

/-- The compartment chosen for a call is a candidate that no other candidate precedes by size, then lock cycles, then slot
number; none is chosen exactly when there is no candidate (R94). -/
def Obligations.TheSmallestLeastUsedCandidateIsChosen : Prop :=
  ∀ (s : State) (want : Nat),
    (∀ slot, s.choose want = some slot → Candidate want slot s
      ∧ ∀ other, Candidate want other s →
          s.size slot < s.size other
          ∨ (s.size slot = s.size other ∧ (s.locks slot).count < (s.locks other).count)
          ∨ (s.size slot = s.size other ∧ (s.locks slot).count = (s.locks other).count ∧ slot ≤ other))
    ∧ (s.choose want = none ↔ ∀ slot, ¬Candidate want slot s)

/-- A PLACE_CALL is answered by silence where it is too short, malformed, a repeat, or finds no offer to make, is refused silently
with BUSY where the table is full, and otherwise makes the offer of the chosen compartment, with the events ENTER_STATE and
OFFER_MADE of its carrier (R81, R82, R92 to R96, R162, R166). A full transmit queue gives up a frame for the offer; that an offer
without a place ends its promise as a loss and gives no OFFER_MADE is the model's choice, entry 25. The model's readings are also:
the REFUSAL event of a call too short, entry 22; the carrier 0 of the event of EMPTY, entry 24; and that the entry of an ended
promise keeps its place until the write has ended, entry 20. -/
def Obligations.PlaceCallMakesAnOffer : Prop :=
  ∀ (s : State) (f : RxFrame) (rest : List RxFrame), Heads .placeCall f rest s →
    (f.payload.length < 5 → ∃ t, exec .placeCall s = .next t.conclude ∧ t.liu.rx = rest
      ∧ Counted .refusal (some 8) 0 s t ∧ UnchangedBut [.counters, .receive] s t)
    ∧ (∀ c, decodePlaceCall f.payload = some c →
      (c.size = 0 ∨ 4 < c.size ∨ 1 < c.purpose ∨ c.carrier = 0 ∨ 63 < c.carrier →
        ∃ t, exec .placeCall s = .next t.conclude ∧ t.liu.rx = rest
          ∧ Counted .refusal (some 8) (if 1 ≤ c.carrier ∧ c.carrier ≤ 63 then c.carrier else 0) s t
          ∧ UnchangedBut [.counters, .receive] s t)
      ∧ (1 ≤ c.size → c.size ≤ 4 → c.purpose ≤ 1 → 1 ≤ c.carrier → c.carrier ≤ 63 →
        ((s.entry? (placeJob (f.ticket c.number))).isSome = true ∨ s.liu.line ≠ .active ∨ 2 ≤ s.bgu.level
            ∨ f.spoken = true ∨ s.choose c.size = none →
          ∃ t, exec .placeCall s = .next t.conclude ∧ TakenInSilence rest s t)
        ∧ (∀ slot, s.entry? (placeJob (f.ticket c.number)) = none → s.liu.line = .active → s.bgu.level ≤ 1 →
            f.spoken = false → s.choose c.size = some slot →
            (8 ≤ s.ort.length → ∃ t, exec .placeCall s = .next t.conclude ∧ t.liu.rx = rest
              ∧ Counted .refusal (some 0) 0 s t ∧ UnchangedBut [.counters, .receive] s t)
            ∧ (s.ort.length < 8 → ∃ t e offer, exec .placeCall s = .next t.conclude ∧ t.liu.rx = rest
              ∧ t.ort = s.ort ++ [e] ∧ e.job = placeJob (f.ticket c.number) ∧ e.slotList = [slot] ∧ e.stage = .promised
              ∧ e.purpose = (if c.purpose = 0 then .delivery else .carrierReturn) ∧ e.carrier = c.carrier
              ∧ offer = TxFrame.fresh (.placeOffer (f.ticket c.number) slot (s.size slot))
                  (min 255 (64 * (s.size slot - c.size) + 2 * s.occupiedCount + 8 * s.dsq.cycles.length)) 0
              ∧ (s.liu.tx.length < 8 ∨ (∃ g ∈ s.liu.tx, 2 ≤ g.body.cls ∧ g.sending = false) →
                e.timer = some 0 ∧ e.ending = false
                ∧ Changed slot { state := .offered (f.ticket c.number), foreign := false, lost := false } [] s t
                ∧ CountedAll [(.enterState, some 1, c.carrier), (.offerMade, none, c.carrier)] s t
                ∧ (s.liu.tx.length < 8 → t.liu.tx = s.liu.tx ++ [offer]
                  ∧ UnchangedBut [.records, .store, .requests, .counters, .transmit, .receive, .free] s t)
                ∧ (8 ≤ s.liu.tx.length → offer ∈ t.liu.tx ∧ t.rpt.isSet .txDiscard = true))
              ∧ (8 ≤ s.liu.tx.length → (∀ g ∈ s.liu.tx, g.body.cls < 2 ∨ g.sending = true) →
                e.timer = none ∧ e.ending = true ∧ t.liu.tx = s.liu.tx ∧ t.rpt.isSet .txDiscard = true
                ∧ t.rec? slot = some { state := .empty, foreign := (s.sense slot).presenceIsOn, lost := false }
                ∧ (∃ ws, (t.store slot).again = some (ws ++ [.endEntry e.job]))
                ∧ CountedAll [(.enterState, some 1, c.carrier), (.enterState, some 0, 0)] s t)
              ∧ UnchangedBut [.records, .store, .requests, .conditions, .counters, .transmit, .receive, .free] s t))))

/-- A PLACE_DETAIL is refused FORMAT where it is too short, naming what it carries of its ticket and slot (entry 22), and STALE
where no HELD entry of the ticket names its slot, is ignored in DOOR, ends an entry whose compartment no longer carries the
promise, is refused FORMAT where a DELIVERY's field is out of range, and is otherwise accepted, which makes the parcel record and
asks for the door once that is written (R2, R103 to R105, R162). The model's own are also: that the REFUSAL event is given also
for a REFUSE without a place, entry 45; and that an entry whose work is over keeps its place until its write has ended, entry 20.
That an entry without its promise ends at once, also while a write of the slot is in progress, is its choice, entry 53. -/
def Obligations.PlaceDetailMakesTheParcelRecord : Prop :=
  (∀ (s : State) (f : RxFrame) (rest : List RxFrame), Heads .placeDetail f rest s → f.payload.length < 20 →
    ∃ t, exec .placeDetail s = .next t.conclude ∧ t.liu.rx = rest
      ∧ Refused f.station (number? f.payload) (byte? f.payload 2) .format (((byte? f.payload 2).map s.carrierAt).getD 0) s t
      ∧ UnchangedBut [.conditions, .counters, .transmit, .receive] s t)
  ∧ (∀ (s : State) (f : RxFrame) (rest : List RxFrame) (d : DetailFields), Heads .placeDetail f rest s →
    decodePlaceDetail f.payload = some d →
    ((∀ e, s.entry? (placeJob (f.ticket d.number)) = some e →
        e.stage ≠ .door ∧ (e.stage = .held → ∃ slot, e.firstSlot? = some slot ∧ slot.val ≠ d.slot)) →
      ∃ t, exec .placeDetail s = .next t.conclude ∧ t.liu.rx = rest
        ∧ Refused f.station (some d.number) (some d.slot) .stale (s.carrierAt d.slot) s t
        ∧ UnchangedBut [.conditions, .counters, .transmit, .receive] s t)
    ∧ (∀ e, s.entry? (placeJob (f.ticket d.number)) = some e → e.stage = .door →
      ∃ t, exec .placeDetail s = .next t.conclude ∧ TakenInSilence rest s t)
    ∧ (∀ e slot r, s.entry? (placeJob (f.ticket d.number)) = some e → e.stage = .held → e.firstSlot? = some slot →
        d.slot = slot.val → s.rec? slot = some r →
        (e.ending = false → (∀ p, r.state ≠ .held (f.ticket d.number) p) →
          ∃ t, exec .placeDetail s = .next t.conclude ∧ t.liu.rx = rest
            ∧ Answered (.refuse (some d.number) (some d.slot) .stale) f.station s t
            ∧ t.entry? (placeJob (f.ticket d.number)) = none
            ∧ UnchangedBut [.records, .store, .requests, .conditions, .counters, .transmit, .receive, .free] s t)
        ∧ (r.state = .held (f.ticket d.number) none → e.purpose ≠ .carrierReturn →
            999999 < d.code ∨ 7 < d.tariff ∨ 99999 < d.cod →
            ∃ t, exec .placeDetail s = .next t.conclude ∧ t.liu.rx = rest
              ∧ Refused f.station (some d.number) (some d.slot) .format 0 s t
              ∧ UnchangedBut [.conditions, .counters, .transmit, .receive] s t)
        ∧ (r.state = .held (f.ticket d.number) none →
            e.purpose = .carrierReturn ∨ (d.code ≤ 999999 ∧ d.tariff ≤ 7 ∧ d.cod ≤ 99999) →
            ∃ t p, exec .placeDetail s = .next t.conclude ∧ t.liu.rx = rest
              ∧ Changed slot { r with state := .held (f.ticket d.number) (some p) } [.detail e.ticket] s t
              ∧ p.ref = d.ref ∧ p.carrier = e.carrier ∧ p.deposit = s.clk.minute ∧ p.paid = 0 ∧ p.settled = none
              ∧ p.estimated = !s.clk.synced
              ∧ (e.purpose = .carrierReturn → p.purpose = .carrierReturn ∧ p.code = none ∧ p.limit = none
                  ∧ p.tariff = 0 ∧ p.cod = 0)
              ∧ (e.purpose ≠ .carrierReturn → p.purpose = .delivery ∧ p.code = some d.code ∧ p.tariff = d.tariff
                  ∧ p.cod = d.cod ∧ (d.holding = 0 → p.limit = some s.conf.hdef)
                  ∧ (1 ≤ d.holding → d.holding ≤ 59 → p.limit = some 60)
                  ∧ (60 ≤ d.holding → p.limit = some (min d.holding s.conf.hmax)))
              ∧ t.entry? (placeJob (f.ticket d.number)) = some { e with stage := .door, timer := none, ref := d.ref }
              ∧ UnchangedBut [.records, .store, .requests, .receive, .free] s t)))

/-- A lapse ends the entry: in MATCHED, LISTED or WAITING at once; in PROMISED or HELD with the compartment returned to EMPTY
under the entry check, and a promised offer withdrawn; other stages do not lapse (R88, R89, R101, R108). The lapse's time is not
asked for, and an entry keeps its place until its write has ended: entries 3 and 20. That a lapse which cannot arise changes
nothing is the model's choice, entry 4; the carrier 0 of the event of EMPTY is its reading, entry 24. -/
def Obligations.LapsesEndTheirEntries : Prop :=
  ∀ (s : State) (e : Entry), s.entry? e.job = some e →
    (e.timer = none ∨ e.ending = true → exec (.entryLapse e.kind e.ticket) s = .next s)
    ∧ (e.timer.isSome = true → e.ending = false → e.stage = .matched ∨ e.stage = .listed ∨ e.stage = .waiting →
      ∃ t, exec (.entryLapse e.kind e.ticket) s = .next t.conclude ∧ t.entry? e.job = none
        ∧ (∀ d ∈ s.ort, d.job ≠ e.job → d ∈ t.ort) ∧ (e.stage = .waiting ∨ NoMarks e → UnchangedBut [.requests] s t)
        ∧ UnchangedBut [.records, .store, .requests, .counters, .free] s t)
    ∧ (∀ slot r, e.timer.isSome = true → e.ending = false → e.kind = .place → e.firstSlot? = some slot →
        s.rec? slot = some r →
        (e.stage = .promised ∧ r.state = .offered e.ticket) ∨ (e.stage = .held ∧ r.state = .held e.ticket none) →
        ∃ t, exec (.entryLapse e.kind e.ticket) s = .next t.conclude
          ∧ Changed slot { state := .empty, foreign := (s.sense slot).presenceIsOn, lost := false } [.endEntry e.job] s t
          ∧ ((s.sense slot).presenceIsOn = true → Raised .foreign (some slot) s t)
          ∧ (e.stage = .promised → ∀ g ∈ t.liu.tx, g.isOfferFor e.ticket = true → g.sending = true ∧ g.withdrawn = true)
          ∧ t.entry? e.job = some { e with timer := none, ending := true } ∧ CountedAll [(.enterState, some 0, 0)] s t
          ∧ UnchangedBut [.records, .store, .requests, .conditions, .counters, .transmit, .free] s t)

/-! ## The tariff -/

/-- The storage charge is that of the whole days and the remainder, each begun step at the sized step price, with the day
cap and the overall cap; the amount due is the greater of 0 and storage plus COD less paid (R122, R123). -/
def Obligations.StorageChargeAndAmountDue : Prop :=
  ∀ (m : ConfigFields) (size : Nat) (p : Parcel) (charge minute : Nat), 0 < (tariffOf m p).step →
    (charge ≤ p.deposit + (tariffOf m p).free → storageAt m size p charge = 0)
    ∧ (p.deposit + (tariffOf m p).free < charge → ∃ days rest daySteps restSteps price : Nat,
        charge - (p.deposit + (tariffOf m p).free) = 1440 * days + rest ∧ rest < 1440
        ∧ 8 * price ≤ (tariffOf m p).price * multiplierOf m size + 4
        ∧ (tariffOf m p).price * multiplierOf m size + 4 < 8 * price + 8
        ∧ 1440 ≤ daySteps * (tariffOf m p).step ∧ daySteps * (tariffOf m p).step < 1440 + (tariffOf m p).step
        ∧ rest ≤ restSteps * (tariffOf m p).step ∧ restSteps * (tariffOf m p).step < rest + (tariffOf m p).step
        ∧ storageAt m size p charge = min (tariffOf m p).capMax
            (days * min (tariffOf m p).capDay (daySteps * price) + min (tariffOf m p).capDay (restSteps * price)))
    ∧ storageAt m size p charge ≤ (tariffOf m p).capMax
    ∧ (amountDue m size p minute : Int)
        = max 0 ((storageAt m size p (chargeMinute m p minute) : Int) + (p.cod : Int) - (p.paid : Int))
    ∧ (∀ z h, p.settled = some z → p.limit = some h →
        chargeMinute m p minute = min (if minute < z + m.grace then z else minute) (p.deposit + h))
    ∧ (∀ h, p.settled = none → p.limit = some h → chargeMinute m p minute = min minute (p.deposit + h))
    ∧ ((tariffOf m p).capMax ≤ 99999 → p.cod ≤ 99999 → amountDue m size p minute ≤ 199998)

/-- A quote stands until its valid-until minute: at every minute from T up to but not including V the amount due is what it
was at T (R125, R129). -/
def Obligations.AmountDueStandsUntilTheValidUntilMinute : Prop :=
  ∀ (m : ConfigFields) (size : Nat) (p : Parcel) (minute later : Nat), 0 < (tariffOf m p).step → minute ≤ later →
    later < validUntil m p minute → amountDue m size p later = amountDue m size p minute

/-! ## Collections and payments -/

/-- A COLLECT_CALL finds the parcels with its code in OCCUPIED and RELEASING compartments: none found, or a call too short, is
silence, all expired is REFUSE EXPIRED, and otherwise the four lowest collectable slots make an entry, active with a quote and a
COLLECT_MATCH for each, or waiting (R136, R137, R82, R85, R126, R162). The model's own are: the REFUSAL event of a call too short,
entry 22; and that the REFUSAL event is given also for a REFUSE without a place, entry 45. -/
def Obligations.CollectCallMatchesByCode : Prop :=
  (∀ (s : State) (f : RxFrame) (rest : List RxFrame), Heads .collectCall f rest s → f.payload.length < 5 →
    ∃ t, exec .collectCall s = .next t.conclude ∧ t.liu.rx = rest
      ∧ Counted .refusal (some 8) 0 s t ∧ UnchangedBut [.counters, .receive] s t)
  ∧ (∀ (s : State) (f : RxFrame) (rest : List RxFrame) (c : TicketValue), Heads .collectCall f rest s →
    decodeCollectCall f.payload = some c →
    (999999 < c.value → ∃ t, exec .collectCall s = .next t.conclude ∧ t.liu.rx = rest
      ∧ Counted .refusal (some 8) 0 s t ∧ UnchangedBut [.counters, .receive] s t)
    ∧ (c.value ≤ 999999 → (s.entry? (collectJob (f.ticket c.number))).isSome = true →
      ∃ t, exec .collectCall s = .next t ∧ TakenInSilence rest s t)
    ∧ (c.value ≤ 999999 → s.entry? (collectJob (f.ticket c.number)) = none →
      ((∀ slot p, ¬FoundByCode c.value slot p s) → ∃ t, exec .collectCall s = .next t.conclude ∧ TakenInSilence rest s t)
      ∧ (∀ slot p, FoundByCode c.value slot p s → (∀ i q, FoundByCode c.value i q s → ExpiredNow q s ∧ slot ≤ i) →
        ∃ t, exec .collectCall s = .next t.conclude ∧ t.liu.rx = rest
          ∧ Refused f.station (some c.number) (some slot.val) .expired p.carrier s t
          ∧ UnchangedBut [.conditions, .counters, .transmit, .receive] s t)
      ∧ (∀ slots, slots = (allSlots.filter (s.collectable c.value)).take 4 → slots ≠ [] →
        (∀ i, s.collectable c.value i = true ↔ ∃ p, FoundByCode c.value i p s ∧ ¬ExpiredNow p s)
        ∧ (8 ≤ s.ort.length → ∃ t, exec .collectCall s = .next t.conclude ∧ t.liu.rx = rest
          ∧ Refused f.station (some c.number) none .busy 0 s t
          ∧ UnchangedBut [.conditions, .counters, .transmit, .receive] s t)
        ∧ (s.ort.length < 8 → ¬Unblocked slots s → ∃ t e, exec .collectCall s = .next t.conclude ∧ t.liu.rx = rest
          ∧ t.ort = s.ort ++ [e] ∧ e.job = collectJob (f.ticket c.number) ∧ e.slotList = slots ∧ e.stage = .waiting
          ∧ e.timer = some 0 ∧ e.code = c.value ∧ UnchangedBut [.requests, .receive] s t)
        ∧ (s.ort.length < 8 → Unblocked slots s → ∃ t e, exec .collectCall s = .next t.conclude ∧ t.liu.rx = rest
          ∧ t.ort = s.ort ++ [e] ∧ e.job = collectJob (f.ticket c.number) ∧ e.code = c.value
          ∧ CollectActive (collectJob (f.ticket c.number)) slots e s t
          ∧ UnchangedBut [.requests, .quotes, .conditions, .transmit, .receive] s t))))

/-- A payment too short is refused FORMAT, naming what it carries of its ticket and slot (entry 22); another is refused STALE,
FORMAT or STATE by the tests in order and then changes nothing; a taken payment adds to the paid total, saturating, sets the
settlement minute where the due without the grace is 0, restarts the collect lapse, and waits for its write with its excess over
the due before it (R128, R129, R130, R162). The model's own are also: that the ticket is the sender's with the number carried,
entry 21; and that the REFUSAL event is given also for a REFUSE without a place, entry 45. -/
def Obligations.PayNoteRecordsThePayment : Prop :=
  (∀ (s : State) (f : RxFrame) (rest : List RxFrame), Heads .payNote f rest s → f.payload.length < 8 →
    ∃ t, exec .payNote s = .next t.conclude ∧ t.liu.rx = rest
      ∧ Refused f.station (number? f.payload) (byte? f.payload 2) .format (((byte? f.payload 2).map s.carrierAt).getD 0) s t
      ∧ UnchangedBut [.conditions, .counters, .transmit, .receive] s t)
  ∧ (∀ (s : State) (f : RxFrame) (rest : List RxFrame) (d : PayFields), Heads .payNote f rest s →
    decodePayNote f.payload = some d →
    ((∀ e slot, s.entry? (collectJob (f.ticket d.number)) = some e → d.slot = slot.val → e.holds slot = false) →
      ∃ t, exec .payNote s = .next t.conclude ∧ t.liu.rx = rest
        ∧ Refused f.station (some d.number) (some d.slot) .stale (s.carrierAt d.slot) s t
        ∧ UnchangedBut [.conditions, .counters, .transmit, .receive] s t)
    ∧ (∀ (e : Entry) (slot : Slot), s.entry? (collectJob (f.ticket d.number)) = some e → d.slot = slot.val →
        e.holds slot = true →
        (d.amount = 0 ∨ 99999 < d.amount → ∃ t, exec .payNote s = .next t.conclude ∧ t.liu.rx = rest
          ∧ Refused f.station (some d.number) (some d.slot) .format (s.carrierOf slot) s t
          ∧ UnchangedBut [.conditions, .counters, .transmit, .receive] s t)
        ∧ (∀ r, 1 ≤ d.amount → d.amount ≤ 99999 → s.rec? slot = some r →
          ((∀ p, p.purpose = .delivery → r.state ≠ .occupied p ∧ r.state ≠ .releasing p) →
            ∃ t, exec .payNote s = .next t.conclude ∧ t.liu.rx = rest
              ∧ Refused f.station (some d.number) (some d.slot) .state (s.carrierOf slot) s t
              ∧ UnchangedBut [.conditions, .counters, .transmit, .receive] s t)
          ∧ (∀ p before, p.purpose = .delivery → r.state = .occupied p ∨ r.state = .releasing p →
            p.paid < 16777215 →
            (∀ q, s.currentQuote (collectJob (f.ticket d.number)) slot = some q → q.number = d.quote →
              s.clk.minute < q.valid → before = q.due) →
            ((∀ q, s.currentQuote (collectJob (f.ticket d.number)) slot = some q → q.number = d.quote →
              ¬s.clk.minute < q.valid) → before = amountDue s.conf (s.size slot) p s.clk.minute) →
            ∃ t q, exec .payNote s = .next t.conclude ∧ t.liu.rx = rest
              ∧ q.paid = min (p.paid + d.amount) 16777215
              ∧ (amountDueNoGrace s.conf (s.size slot) { p with paid := q.paid } s.clk.minute = 0 →
                  q = { p with paid := q.paid, settled := some s.clk.minute })
              ∧ (amountDueNoGrace s.conf (s.size slot) { p with paid := q.paid } s.clk.minute ≠ 0 →
                  q = { p with paid := q.paid })
              ∧ Changed slot { r with state := (if r.state = .occupied p then .occupied q else .releasing q) }
                  [.payment (f.ticket d.number) (d.amount - before) s.clk.minute q] s t
              ∧ t.entry? (collectJob (f.ticket d.number))
                  = some { e with timer := if e.anyDoor then none else some 0 }
              ∧ UnchangedBut [.records, .store, .requests, .receive, .free] s t))))

/-- A COLLECT_GO is refused whole with STALE, FORMAT or POWER, naming the first slot of its list, or slot 0; otherwise its slots
are judged one by one in rising order: STALE for a slot not held, silence in DOOR, REFUSE STATE or EXPIRED which free the slot,
REFUSE UNPAID with a new QUOTE, and for a slot that passes the door (R140, R141, R42, R43, R118, R162). That the slots are judged
in rising order, each once, is the model's reading, entry 36. The model's own are also: that a GO too short names slot 0, entry
22; that the deferred expiry of a freed slot is judged before any re-evaluation, entry 43; and that the REFUSAL event is given
also for a REFUSE without a place, entry 45. -/
def Obligations.CollectGoJudgesItsSlots : Prop :=
  (∀ (s : State) (f : RxFrame) (rest : List RxFrame), Heads .collectGo f rest s → f.payload.length < 2 →
    ∃ t, exec .collectGo s = .next t.conclude ∧ t.liu.rx = rest ∧ Refused f.station none (some 0) .format 0 s t
      ∧ UnchangedBut [.conditions, .counters, .transmit, .receive] s t)
  ∧ (∀ (s : State) (f : RxFrame) (rest : List RxFrame) (g : GoFields) (j : Job), Heads .collectGo f rest s →
    decodeGo f.payload = some g → j = collectJob (f.ticket g.number) →
    ((∀ e, s.entry? j = some e → e.stage = .waiting) → ∃ t, exec .collectGo s = .next t.conclude ∧ t.liu.rx = rest
      ∧ Refused f.station (some g.number) (some (g.slots.headD 0)) .stale 0 s t
      ∧ UnchangedBut [.conditions, .counters, .transmit, .receive] s t)
    ∧ (∀ e, s.entry? j = some e → e.stage ≠ .waiting →
      (g.slots = [] ∨ 4 < g.slots.length ∨ (∃ n ∈ g.slots, 24 ≤ n) →
        ∃ t, exec .collectGo s = .next t.conclude ∧ t.liu.rx = rest
          ∧ Refused f.station (some g.number) (some (g.slots.headD 0)) .format 0 s t
          ∧ UnchangedBut [.conditions, .counters, .transmit, .receive] s t)
      ∧ (g.slots ≠ [] → g.slots.length ≤ 4 → (∀ n ∈ g.slots, n < 24) →
        (3 ≤ s.bgu.level → ∃ t, exec .collectGo s = .next t.conclude ∧ t.liu.rx = rest
          ∧ Refused f.station (some g.number) (some (g.slots.headD 0)) .power 0 s t
          ∧ UnchangedBut [.conditions, .counters, .transmit, .receive] s t)
        ∧ (s.bgu.level < 3 → ∃ (t : State) (slots : List Slot), exec .collectGo s = .next (slots.foldl (State.goSlot j) t).conclude
          ∧ slots.Pairwise (· < ·) ∧ (∀ i : Slot, i ∈ slots ↔ i.val ∈ g.slots) ∧ t.liu.rx = rest
          ∧ t.entry? j = some { e with timer := if e.anyDoor then none else some 0 }
          ∧ UnchangedBut [.requests, .receive] s t))))
  ∧ (∀ (s : State) (j : Job) (slot : Slot) (e : Entry), j.kind = .collect → s.entry? j = some e →
    ((∀ x, e.slot? slot = some x → x.progress = .done) → ∃ t, s.goSlot j slot = t.settle settleRounds
      ∧ Refused j.ticket.station (some j.ticket.number) (some slot.val) .stale (s.carrierOf slot) s t
      ∧ UnchangedBut [.conditions, .counters, .transmit] s t)
    ∧ (∀ x, e.slot? slot = some x → x.progress = .door → s.goSlot j slot = s.settle settleRounds)
    ∧ (∀ x, e.slot? slot = some x → x.progress = .matched →
      (∀ reason, (reason = .state ∧ ∀ r p, s.rec? slot = some r → r.state = .occupied p → p.purpose = .carrierReturn)
          ∨ (reason = .expired ∧ ∃ r p, s.rec? slot = some r ∧ r.state = .occupied p ∧ ExpiredNow p s) →
        ∃ t, s.goSlot j slot = t.settle settleRounds
          ∧ Answered (.refuse (some j.ticket.number) (some slot.val) reason) j.ticket.station s t ∧ SlotFreed j slot e t
          ∧ (NoMarks e → Counted .refusal (some reason.pos) (s.carrierOf slot) s t
              ∧ UnchangedBut [.requests, .conditions, .counters, .transmit] s t)
          ∧ UnchangedBut [.records, .store, .requests, .conditions, .counters, .transmit, .free] s t
          ∧ (∀ r p, s.rec? slot = some r → r.state = .occupied p → p.purpose = .delivery → ExpiredNow p s →
              x.mark = true → (∀ d ∈ s.ort, d.job ≠ j → d.holds slot = false) →
              t.rec? slot = some { r with state := .occupied { p with purpose := .expired } }))
      ∧ (∀ r p, s.rec? slot = some r → r.state = .occupied p → p.purpose = .delivery → ¬ExpiredNow p s →
        (0 < amountDue s.conf (s.size slot) p s.clk.minute → ∃ t d, s.goSlot j slot = t.settle settleRounds
          ∧ t.entry? j = some d ∧ d.stage = e.stage ∧ d.timer = e.timer
          ∧ d.slot? slot = some { x with quote := some (Quote.mk s.quoteCounter
              (amountDue s.conf (s.size slot) p s.clk.minute) (validUntil s.conf p s.clk.minute) s.clk.minute) }
          ∧ t.quoteCounter = s.quoteCounter + 1
          ∧ (s.liu.tx.length + 2 ≤ 8 → t.liu.tx = s.liu.tx
              ++ [TxFrame.fresh (.refuse (some j.ticket.number) (some slot.val) .unpaid) 0 j.ticket.station,
                  TxFrame.fresh (.quote j.ticket.number slot s.quoteCounter
                    (amountDue s.conf (s.size slot) p s.clk.minute)
                    (min (validUntil s.conf p s.clk.minute - s.clk.minute) 65535) 0 p.paid
                    (graceInForce s.conf p s.clk.minute) false) 0 j.ticket.station])
          ∧ Counted .refusal (some 3) p.carrier s t
          ∧ UnchangedBut [.requests, .quotes, .conditions, .counters, .transmit] s t)
        ∧ (amountDue s.conf (s.size slot) p s.clk.minute = 0 → s.hasDoorCycle slot = false →
          (s.conf.span ≤ s.dsq.cycles.length → ∃ t d, s.goSlot j slot = t.settle settleRounds
            ∧ Queued { slot := slot, kind := .collect, job := j, ref := p.ref } s t ∧ t.entry? j = some d
            ∧ d.slot? slot = some { x with progress := .door } ∧ d.timer = none ∧ UnchangedBut [.doors, .requests] s t)
          ∧ (s.dsq.cycles.length < s.conf.span → s.dsq.queue = [] → ∃ t d, s.goSlot j slot = t.settle settleRounds
            ∧ Started { slot := slot, kind := .collect, job := j, ref := p.ref } .starting s t
            ∧ Changed slot { r with state := .releasing p } [.cycleStart] s t ∧ t.entry? j = some d
            ∧ CountedAll [(.enterState, some 4, p.carrier)] s t
            ∧ d.slot? slot = some { x with progress := .door } ∧ d.timer = none
            ∧ UnchangedBut [.records, .store, .sensing, .doors, .requests, .outputs, .counters, .free] s t)))))

/-! ## Sweeps -/

/-- A SWEEP_CALL finds the carrier's RETURN and expired parcels: none found, or a call too short, is silence, and otherwise up to
twelve slots make an entry, LISTED with one SWEEP_LIST and its more flag, or waiting (R145, R82, R85, R162). The model's own are:
the REFUSAL event of a call too short, entry 22; and that the REFUSAL event is given also for a REFUSE without a place, entry 45.
-/
def Obligations.SweepCallListsTheCarriersParcels : Prop :=
  (∀ (s : State) (f : RxFrame) (rest : List RxFrame), Heads .sweepCall f rest s → f.payload.length < 3 →
    ∃ t, exec .sweepCall s = .next t.conclude ∧ t.liu.rx = rest
      ∧ Counted .refusal (some 8) 0 s t ∧ UnchangedBut [.counters, .receive] s t)
  ∧ (∀ (s : State) (f : RxFrame) (rest : List RxFrame) (c : TicketValue), Heads .sweepCall f rest s →
    decodeSweepCall f.payload = some c →
    (c.value = 0 ∨ 63 < c.value → ∃ t, exec .sweepCall s = .next t.conclude ∧ t.liu.rx = rest
      ∧ Counted .refusal (some 8) 0 s t ∧ UnchangedBut [.counters, .receive] s t)
    ∧ (1 ≤ c.value → c.value ≤ 63 → (s.entry? (sweepJob (f.ticket c.number))).isSome = true →
      ∃ t, exec .sweepCall s = .next t ∧ TakenInSilence rest s t)
    ∧ (1 ≤ c.value → c.value ≤ 63 → s.entry? (sweepJob (f.ticket c.number)) = none →
      ∃ found : List Slot, found.Pairwise (· < ·) ∧ (∀ i, i ∈ found ↔ FoundForCarrier c.value i s)
        ∧ (found = [] → ∃ t, exec .sweepCall s = .next t.conclude ∧ TakenInSilence rest s t)
        ∧ (found ≠ [] → 8 ≤ s.ort.length → ∃ t, exec .sweepCall s = .next t.conclude ∧ t.liu.rx = rest
          ∧ Refused f.station (some c.number) none .busy 0 s t
          ∧ UnchangedBut [.conditions, .counters, .transmit, .receive] s t)
        ∧ (found ≠ [] → s.ort.length < 8 → ∃ t e, exec .sweepCall s = .next t.conclude ∧ t.liu.rx = rest
          ∧ t.ort = s.ort ++ [e] ∧ e.job = sweepJob (f.ticket c.number) ∧ e.slotList = found.take 12
          ∧ e.timer = some 0 ∧ e.carrier = c.value ∧ e.more = decide (12 < found.length) ∧ NoMarks e
          ∧ (¬Unblocked (found.take 12) s → e.stage = .waiting ∧ UnchangedBut [.requests, .receive] s t)
          ∧ (Unblocked (found.take 12) s → e.stage = .listed
            ∧ Answered (.sweepList c.number (found.take 12) (decide (12 < found.length))) f.station s t
            ∧ UnchangedBut [.requests, .conditions, .transmit, .receive] s t))))

/-- A SWEEP_GO is refused whole with STALE, FORMAT or POWER, and ignored in DOOR. Of a taken one the listed slots it does not name
are released, then the named ones are judged: the refused are answered together with STATE and released, the accepted are asked
for in rising order, and with none accepted the entry ends. Each release is followed by the tests it calls for (R146, R84, R86,
R42, R43, R162). That the REFUSE names the lowest refused slot, and that the refused are dropped before the accepted are asked
for, are the model's readings, entry 36. The model's own are also: that a GO too short names slot 0, entry 22; that the deferred
expiry of a dropped slot is judged before any re-evaluation, entry 43; and that the REFUSAL event is given also for a REFUSE
without a place, entry 45. -/
def Obligations.SweepGoAsksForTheAcceptedDoors : Prop :=
  (∀ (s : State) (f : RxFrame) (rest : List RxFrame), Heads .sweepGo f rest s → f.payload.length < 2 →
    ∃ t, exec .sweepGo s = .next t.conclude ∧ t.liu.rx = rest ∧ Refused f.station none (some 0) .format 0 s t
      ∧ UnchangedBut [.conditions, .counters, .transmit, .receive] s t)
  ∧ (∀ (s : State) (f : RxFrame) (rest : List RxFrame) (g : GoFields) (j : Job), Heads .sweepGo f rest s →
    decodeGo f.payload = some g → j = sweepJob (f.ticket g.number) →
    ((∀ e, s.entry? j = some e → e.stage = .waiting) → ∃ t, exec .sweepGo s = .next t.conclude ∧ t.liu.rx = rest
      ∧ Refused f.station (some g.number) (some (g.slots.headD 0)) .stale 0 s t
      ∧ UnchangedBut [.conditions, .counters, .transmit, .receive] s t)
    ∧ (∀ e, s.entry? j = some e → e.stage ≠ .waiting → e.stage ≠ .listed →
      ∃ t, exec .sweepGo s = .next t.conclude ∧ TakenInSilence rest s t)
    ∧ (∀ e, s.entry? j = some e → e.stage = .listed →
      (g.slots = [] ∨ 12 < g.slots.length ∨ (∃ n ∈ g.slots, 24 ≤ n) →
        ∃ t, exec .sweepGo s = .next t.conclude ∧ t.liu.rx = rest
          ∧ Refused f.station (some g.number) (some (g.slots.headD 0)) .format 0 s t
          ∧ UnchangedBut [.conditions, .counters, .transmit, .receive] s t)
      ∧ (g.slots ≠ [] → g.slots.length ≤ 12 → (∀ n ∈ g.slots, n < 24) →
        (2 ≤ s.bgu.level → ∃ t, exec .sweepGo s = .next t.conclude ∧ t.liu.rx = rest
          ∧ Refused f.station (some g.number) (some (g.slots.headD 0)) .power 0 s t
          ∧ UnchangedBut [.conditions, .counters, .transmit, .receive] s t)
        ∧ (s.bgu.level < 2 → ∃ (t : State) (named : List Slot),
          exec .sweepGo s
              = .next (((e.slotList.filter (fun i => !named.contains i)).foldl (State.dropSwept j) t).judgeNamed e named).conclude
          ∧ named.Pairwise (· < ·) ∧ (∀ i, i ∈ named ↔ i.val ∈ g.slots) ∧ t.liu.rx = rest
          ∧ t.entry? j = some { e with stage := .door, timer := none } ∧ UnchangedBut [.requests, .receive] s t))))
  ∧ (∀ (s : State) (j : Job) (slot : Slot) (e : Entry), s.entry? j = some e →
    ∃ t, State.dropSwept j s slot = t.settle settleRounds
      ∧ t.entry? j = some { e with slots := e.slots.filter (fun x => x.slot != slot) }
      ∧ ((∀ x, e.slot? slot = some x → x.mark = false) → UnchangedBut [.requests] s t)
      ∧ (∀ x r p, e.slot? slot = some x → x.mark = true → s.rec? slot = some r → r.state = .occupied p →
          p.purpose = .delivery → ExpiredNow p s → (∀ d ∈ s.ort, d.job ≠ j → d.holds slot = false) →
          t.rec? slot = some { r with state := .occupied { p with purpose := .expired } })
      ∧ UnchangedBut [.records, .store, .requests, .counters, .free] s t)
  ∧ (∀ (s : State) (e : Entry) (named : List Slot), ∃ (t : State) (accepted refused : List Slot),
    accepted = named.filter (s.sweepAccepts e) ∧ refused = named.filter (fun i => !s.sweepAccepts e i)
      ∧ (∀ i, i ∈ accepted ↔ i ∈ named ∧ i ∈ e.slotList ∧ FoundForCarrier e.carrier i s)
      ∧ (refused = [] → t = s)
      ∧ (∀ first more, refused = first :: more →
          Refused e.ticket.station (some e.ticket.number) (some first.val) .state (s.carrierOf first) s t
          ∧ UnchangedBut [.conditions, .counters, .transmit] s t)
      ∧ (accepted = [] → s.judgeNamed e named = (refused.foldl (State.dropSwept e.job) t).finishEntry e.job
          ∧ (s.judgeNamed e named).entry? e.job = none)
      ∧ (accepted ≠ [] →
          s.judgeNamed e named = accepted.foldl (State.askSweep e.job) (refused.foldl (State.dropSwept e.job) t)))
  ∧ (∀ (s : State) (j : Job) (slot : Slot) (e : Entry) (x : EntrySlot), s.entry? j = some e → e.slot? slot = some x →
    x.progress ≠ .done → s.hasDoorCycle slot = false →
    (s.conf.span ≤ s.dsq.cycles.length →
      Queued { slot := slot, kind := .sweep, job := j, ref := s.parcelRef slot } s (s.askSweep j slot)
      ∧ (∃ d, (s.askSweep j slot).entry? j = some d ∧ d.slot? slot = some { x with progress := .door })
      ∧ UnchangedBut [.doors, .requests] s (s.askSweep j slot))
    ∧ (∀ r p, s.dsq.cycles.length < s.conf.span → s.dsq.queue = [] → s.rec? slot = some r → r.state = .occupied p →
      FoundForCarrier e.carrier slot s →
      Started { slot := slot, kind := .sweep, job := j, ref := p.ref } .starting s (s.askSweep j slot)
      ∧ Changed slot { r with state := .releasing p } [.cycleStart] s (s.askSweep j slot)
      ∧ (∃ d, (s.askSweep j slot).entry? j = some d ∧ d.slot? slot = some { x with progress := .door })
      ∧ CountedAll [(.enterState, some 4, p.carrier)] s (s.askSweep j slot)
      ∧ UnchangedBut [.records, .store, .sensing, .doors, .requests, .outputs, .counters, .free] s (s.askSweep j slot)))

/-! ## Service (section 10.5) -/

/-- A service request is refused FORMAT where it is too short and NO_SUCH where its slot is not fitted, ignored as a repeat,
refused BUSY where the table is full, and waits where its slot is held or awaited (R80, R82, R85, R147, R162). The model's own
are: that the REFUSE to a short payload names the ticket as far as the payload carries it, and no slot, entry 22; and that the
REFUSAL event is given also for a REFUSE without a place, entry 45. -/
def Obligations.ServiceRequestsAreAdmitted : Prop :=
  ∀ (s : State) (f : RxFrame) (rest : List RxFrame) (c : Instr) (k : RequestKind) (sub : ServiceKind),
    ServiceCommand c k sub → Heads k f rest s →
    (decodeService f.payload = none → ∃ t, exec c s = .next t.conclude ∧ t.liu.rx = rest
      ∧ Refused f.station (number? f.payload) none .format 0 s t
      ∧ UnchangedBut [.conditions, .counters, .transmit, .receive] s t)
    ∧ (∀ d, decodeService f.payload = some d →
      ((∀ slot : Slot, slot.val = d.value → s.fitted slot = false) → ∃ t, exec c s = .next t.conclude ∧ t.liu.rx = rest
        ∧ Refused f.station (some d.number) (some d.value) .noSuch 0 s t
        ∧ UnchangedBut [.conditions, .counters, .transmit, .receive] s t)
      ∧ (∀ slot : Slot, slot.val = d.value → s.fitted slot = true →
        ((s.entry? (serviceJob (f.ticket d.number))).isSome = true →
          ∃ t, exec c s = .next t.conclude ∧ TakenInSilence rest s t)
        ∧ (s.entry? (serviceJob (f.ticket d.number)) = none → 8 ≤ s.ort.length →
          ∃ t, exec c s = .next t.conclude ∧ t.liu.rx = rest ∧ Refused f.station (some d.number) none .busy 0 s t
            ∧ UnchangedBut [.conditions, .counters, .transmit, .receive] s t)
        ∧ (s.entry? (serviceJob (f.ticket d.number)) = none → s.ort.length < 8 → ¬Unblocked [slot] s →
          ∃ t e, exec c s = .next t.conclude ∧ t.liu.rx = rest ∧ t.ort = s.ort ++ [e]
            ∧ e.job = serviceJob (f.ticket d.number) ∧ e.sub = some sub ∧ e.slotList = [slot] ∧ e.stage = .waiting
            ∧ e.timer = some 0 ∧ UnchangedBut [.requests, .receive] s t)))

/-- An active SERVICE_OPEN is refused STATE for a RETIRED compartment, and otherwise asks for the door; a cycle that starts at
once takes an OCCUPIED compartment to RELEASING, and leaves an EMPTY or FAULT one as it is (R8, R42, R43, R148). The model's own
is that the REFUSAL event is given also for a REFUSE without a place, entry 45. -/
def Obligations.ServiceOpenAsksForTheDoor : Prop :=
  ∀ (s : State) (f : RxFrame) (rest : List RxFrame) (d : TicketValue) (slot : Slot) (r : CompRec) (j : Job),
    ServiceTaken .serviceOpen f rest d slot r s → j = serviceJob (f.ticket d.number) →
    (r.state = .retired → ∃ t, exec .serviceOpen s = .next t.conclude ∧ t.liu.rx = rest
      ∧ Refused f.station (some d.number) (some slot.val) .state 0 s t
      ∧ UnchangedBut [.conditions, .counters, .transmit, .receive] s t)
    ∧ (r.state ≠ .retired → s.hasDoorCycle slot = false → s.conf.span ≤ s.dsq.cycles.length →
      ∃ t, exec .serviceOpen s = .next t.conclude ∧ t.liu.rx = rest ∧ ServiceEntry j slot .door s t
        ∧ Queued { slot := slot, kind := .service, job := j, ref := s.parcelRef slot } s t
        ∧ UnchangedBut [.doors, .requests, .receive] s t)
    ∧ (s.hasDoorCycle slot = false → s.dsq.queue = [] → s.dsq.cycles.length < s.conf.span →
      (∀ p, r.state = .occupied p → ∃ t, exec .serviceOpen s = .next t.conclude ∧ t.liu.rx = rest
        ∧ ServiceEntry j slot .door s t
        ∧ Started { slot := slot, kind := .service, job := j, ref := p.ref } .starting s t
        ∧ Changed slot { r with state := .releasing p } [.cycleStart] s t
        ∧ CountedAll [(.enterState, some 4, p.carrier)] s t
        ∧ UnchangedBut [.records, .store, .sensing, .doors, .requests, .outputs, .counters, .receive, .free] s t)
      ∧ (r.state = .empty ∨ (∃ c p, r.state = .fault c p) → ∃ t, exec .serviceOpen s = .next t.conclude
        ∧ t.liu.rx = rest ∧ ServiceEntry j slot .door s t
        ∧ Started { slot := slot, kind := .service, job := j, ref := s.parcelRef slot } .pulseWait s t
        ∧ UnchangedBut [.sensing, .doors, .requests, .outputs, .receive] s t))

/-- An active SERVICE_CLEAR, SERVICE_RETIRE or SERVICE_RESTORE is refused STATE, or NOT_SECURE, where its compartment is not as it
must be; otherwise it changes the record, and its RELEASE_DONE waits for the write (R12, R37, R149, R150, Table 10-7). The model's
own are: that the REFUSAL event is given also for a REFUSE without a place, entry 45; and that a clear which changes no record
waits for a write in progress, entry 50. -/
def Obligations.ServiceClearRetireRestoreChangeTheRecord : Prop :=
  ∀ (s : State) (f : RxFrame) (rest : List RxFrame) (d : TicketValue) (slot : Slot) (r : CompRec) (j : Job),
    j = serviceJob (f.ticket d.number) →
    (ServiceTaken .serviceClear f rest d slot r s →
      (∀ reason, (reason = .state ∧ ∀ c p, r.state ≠ .fault c p)
          ∨ (reason = .notSecure ∧ (∃ c p, r.state = .fault c p) ∧ (s.sense slot).secure = false) →
        ∃ t, exec .serviceClear s = .next t.conclude ∧ t.liu.rx = rest
          ∧ Refused f.station (some d.number) (some slot.val) reason (s.carrierOf slot) s t
          ∧ UnchangedBut [.conditions, .counters, .transmit, .receive] s t)
      ∧ (∀ c p, r.state = .fault c p → (s.sense slot).secure = true →
          ∃ t new result ref, exec .serviceClear s = .next t.conclude ∧ t.liu.rx = rest
            ∧ Table107 r (s.sense slot).presenceIsOn new result ref ∧ t.rec? slot = some new
            ∧ (r ≠ new → ServiceEntry j slot .immediate s t ∧ Changed slot new [.serviceDone j.ticket result ref] s t)
            ∧ (r = new → Writing slot s → ServiceEntry j slot .immediate s t
                ∧ WaitsFor slot (.serviceDone j.ticket result ref) s t)
            ∧ (r = new → ¬Writing slot s → t.ort = s.ort ∧ (s.liu.tx.length + 2 ≤ 8 →
                TxFrame.fresh (.releaseDone d.number slot (if r.storeFaulted then .fault else result) ref) 0 f.station
                  ∈ t.liu.tx))
            ∧ (result = .foreign → Raised .foreign (some slot) s t)
            ∧ (result ≠ .foreign → t.rpt.conds = s.rpt.conds ∧ t.liu.tx = s.liu.tx)
            ∧ (r ≠ new → CountedAll (entryEvents r.state new.state (s.carrierOf slot)) s t)
            ∧ UnchangedBut [.records, .store, .requests, .conditions, .counters, .transmit, .receive, .free] s t))
    ∧ (ServiceTaken .serviceRetire f rest d slot r s →
      (r.state ≠ .empty → ∃ t, exec .serviceRetire s = .next t.conclude ∧ t.liu.rx = rest
        ∧ Refused f.station (some d.number) (some slot.val) .state (s.carrierOf slot) s t
        ∧ UnchangedBut [.conditions, .counters, .transmit, .receive] s t)
      ∧ (r.state = .empty → ∃ t, exec .serviceRetire s = .next t.conclude ∧ t.liu.rx = rest
        ∧ ServiceEntry j slot .immediate s t
        ∧ Changed slot { r with state := .retired } [.serviceDone j.ticket .retired 0] s t
        ∧ CountedAll [(.enterState, some 6, 0)] s t
        ∧ UnchangedBut [.records, .store, .requests, .counters, .receive, .free] s t))
    ∧ (ServiceTaken .serviceRestore f rest d slot r s →
      (r.state ≠ .retired → ∃ t, exec .serviceRestore s = .next t.conclude ∧ t.liu.rx = rest
        ∧ Refused f.station (some d.number) (some slot.val) .state (s.carrierOf slot) s t
        ∧ UnchangedBut [.conditions, .counters, .transmit, .receive] s t)
      ∧ (r.state = .retired → ∃ t, exec .serviceRestore s = .next t.conclude ∧ t.liu.rx = rest
        ∧ ServiceEntry j slot .immediate s t
        ∧ Changed slot { state := .empty, foreign := (s.sense slot).presenceIsOn, lost := false }
            [.serviceDone j.ticket .restored 0] s t ∧ CountedAll [(.enterState, some 0, 0)] s t
        ∧ ((s.sense slot).presenceIsOn = true → Raised .foreign (some slot) s t)
        ∧ UnchangedBut [.records, .store, .requests, .conditions, .counters, .transmit, .receive, .free] s t))

/-- A SERVICE_RESTART leaves a restart pending and withdraws a queued note that is not being transmitted; while it is pending no
note is queued, and the column is not reset while a drive is on or a note is being transmitted (R71, R151). That a RESTART_RESET
which cannot arise changes nothing is the model's choice, entry 4. -/
def Obligations.RestartWaitsForDrivesAndNotes : Prop :=
  (∀ (s : State) (f : RxFrame) (rest : List RxFrame), Heads .serviceRestart f rest s →
    ∃ t, exec .serviceRestart s = .next t.conclude ∧ t.liu.rx = rest ∧ t.restart = true
      ∧ (∀ slot ended, s.bgu.own = .queued slot ended → s.noteBusy = false →
          t.bgu.own = .none ∧ t.liu.tx = s.liu.tx.filter (fun g => !g.isNote))
      ∧ ((∀ slot ended, s.bgu.own ≠ .queued slot ended) ∨ s.noteBusy = true →
          t.bgu.own = s.bgu.own ∧ t.liu.tx = s.liu.tx)
      ∧ UnchangedBut [.restart, .note, .transmit, .receive] s t)
  ∧ (∀ s : State, s.restart = true → s.noteTest = s)
  ∧ (∀ (s : State) (active : Causes), s.restart = false ∨ s.noteBusy = true ∨ (∃ i, (tget s.bgu.drivers i).isSome = true) →
    exec (.restartReset active) s = .next s)

/-! ## Queries, outputs, conditions and time -/

/-- Each query is answered from the state as it stands: FREE_REPORT, STATUS by part, SLOT_REPORT by part, COUNT_REPORT; a part or
slot that does not exist is refused FORMAT, a slot without a record NO_SUCH; COUNT_CLEAR reports the counters and sets them to 0
(R167 to R170, Table 12-3). The model's own are: that a part above 2 of a slot not fitted is answered FORMAT, entry 46; that the
REFUSE to a short SLOT_QUERY names the slot it carries, entry 22; and that the REFUSAL event is given also for a REFUSE without a
place, entry 45. -/
def Obligations.QueriesAreAnswered : Prop :=
  ∀ (s : State) (f : RxFrame) (rest : List RxFrame),
    (Heads .freeQuery f rest s → ∃ t v n, exec .freeQuery s = .next t.conclude ∧ t.liu.rx = rest
      ∧ Answered (.freeReport v n) f.station s t
      ∧ (∀ k : Fin 4, v[k] = (allSlots.filter (fun i => s.offerable i && decide (s.size i = k.val + 1))).length)
      ∧ (∀ i, s.offerable i = true ↔ Candidate 0 i s) ∧ n = s.tagCount .occupied
      ∧ UnchangedBut [.conditions, .transmit, .receive] s t)
    ∧ (Heads .statusQuery f rest s →
      (∀ b more, f.payload = b :: more → b.toNat ≤ 2 → ∃ t answer, exec .statusQuery s = .next t.conclude
        ∧ t.liu.rx = rest ∧ Answered answer f.station s t
        ∧ (b = 0 → ∃ m, answer = .statusMain m ∧ m.line = s.liu.line ∧ m.level = s.bgu.level ∧ m.basis = s.bgu.basis
            ∧ m.synced = s.clk.synced ∧ m.minute = s.clk.minute ∧ m.config = s.cfg.state ∧ m.conds = s.rpt.conds
            ∧ m.attention = s.rpt.attention ∧ m.lastFault = s.rpt.lastFault ∧ m.places = s.ort.length
            ∧ m.waiting = (s.ort.filter (fun e => decide (e.stage = .waiting))).length
            ∧ (m.txEmpty = true ↔ s.liu.tx = [])
            ∧ (m.txIdle = true ↔ ∀ g ∈ s.liu.tx, g.sending = false ∧ g.retries = 0)
            ∧ m.counts.map Prod.fst = [.empty, .offered, .held, .occupied, .releasing, .fault, .retired]
            ∧ ∀ tag n, (tag, n) ∈ m.counts → n = s.tagCount tag)
        ∧ (b = 1 → answer = .statusLine s.liu.checkFaults s.liu.failures s.liu.dropCount s.liu.roleFailures
            s.out.auxDemand s.out.auxActual)
        ∧ (b = 2 → answer = .statusLamps s.out.lampDemand s.out.lampActual)
        ∧ UnchangedBut [.conditions, .transmit, .receive] s t)
      ∧ ((∀ b more, f.payload = b :: more → 2 < b.toNat) → ∃ t, exec .statusQuery s = .next t.conclude ∧ t.liu.rx = rest
        ∧ Refused f.station none none .format 0 s t ∧ UnchangedBut [.conditions, .counters, .transmit, .receive] s t))
    ∧ (Heads .slotQuery f rest s →
      (f.payload.length < 2 → ∃ t, exec .slotQuery s = .next t.conclude ∧ t.liu.rx = rest
        ∧ Refused f.station none (byte? f.payload 0) .format 0 s t
        ∧ UnchangedBut [.conditions, .counters, .transmit, .receive] s t)
      ∧ (∀ n part more, f.payload = n :: part :: more →
        (24 ≤ n.toNat ∨ 2 < part.toNat → ∃ t, exec .slotQuery s = .next t.conclude ∧ t.liu.rx = rest
          ∧ Refused f.station none (some n.toNat) .format 0 s t
          ∧ UnchangedBut [.conditions, .counters, .transmit, .receive] s t)
        ∧ (∀ slot : Slot, slot.val = n.toNat → part.toNat ≤ 2 →
          (s.rec? slot = none → ∃ t, exec .slotQuery s = .next t.conclude ∧ t.liu.rx = rest
            ∧ Refused f.station none (some n.toNat) .noSuch 0 s t
            ∧ UnchangedBut [.conditions, .counters, .transmit, .receive] s t)
          ∧ (∀ r, s.rec? slot = some r → ∃ t answer, exec .slotQuery s = .next t.conclude ∧ t.liu.rx = rest
            ∧ Answered answer f.station s t
            ∧ (part = 0 → ∃ m, answer = .slotMain slot m ∧ m.size = s.size slot ∧ m.tag = r.state.tag
                ∧ m.purpose = r.state.purpose? ∧ m.cause = r.state.cause? ∧ m.promise = r.state.promise?
                ∧ m.foreign = r.foreign ∧ m.lost = r.lost ∧ m.lockCycles = (s.locks slot).count
                ∧ m.door = (s.sense slot).door ∧ m.presence = (s.sense slot).presence
                ∧ m.secure = (s.sense slot).secure ∧ m.bolt = (s.sense slot).bolt
                ∧ m.holder = (s.holder? slot).map Entry.job
                ∧ m.waiting = (s.ort.filter (fun e => e.awaits slot)).length ∧ m.queued = s.inDoorQueue slot
                ∧ m.stage = (s.cycle? slot).map (fun c => (c.stage, c.attempt)))
            ∧ (part = 1 → (∀ p, r.state.parcel? = some p → ∃ m, answer = .slotParcel slot true m ∧ m.ref = p.ref
                ∧ m.carrier = p.carrier ∧ m.purpose = some p.purpose ∧ m.code = p.code.getD 0 ∧ m.tariff = p.tariff
                ∧ m.deposit = p.deposit ∧ m.limit = p.limit.getD 0 ∧ m.estimated = p.estimated)
              ∧ (r.state.parcel? = none → ∃ m, answer = .slotParcel slot false m ∧ m.ref = 0 ∧ m.code = 0))
            ∧ (part = 2 → (∀ p, r.state.parcel? = some p → ∃ m, answer = .slotMoney slot true m ∧ m.cod = p.cod
                ∧ m.paid = p.paid ∧ m.settled = p.settled.getD 0 ∧ m.settledPresent = p.settled.isSome)
              ∧ (r.state.parcel? = none → ∃ m, answer = .slotMoney slot false m ∧ m.cod = 0 ∧ m.paid = 0))
            ∧ UnchangedBut [.conditions, .transmit, .receive] s t))))
    ∧ (Heads .countQuery f rest s → ∃ t kinds, exec .countQuery s = .next t.conclude ∧ t.liu.rx = rest
      ∧ Answered (.countReport kinds s.rpt.counters) f.station s t
      ∧ (∀ i : Fin 4, kinds[i] = s.conf.counters[i].kind) ∧ UnchangedBut [.conditions, .transmit, .receive] s t)
    ∧ (Heads .countClear f rest s → ∃ t kinds, exec .countClear s = .next t.conclude ∧ t.liu.rx = rest
      ∧ Answered (.countReport kinds s.rpt.counters) f.station s t
      ∧ (∀ i : Fin 4, kinds[i] = s.conf.counters[i].kind) ∧ (∀ i : Fin 4, t.rpt.counters[i] = 0)
      ∧ UnchangedBut [.conditions, .counters, .transmit, .receive] s t)

/-- An OUTPUT_SET whose four settings are 0 to 3 sets the four demands together, an output being on while its demand is on and the
level below its shed level; any other is refused FORMAT. An ALERT_CLEAR clears exactly the conditions its mask names and
recomputes attention (R76, R77, R164, R165). The model's own are: that a short ALERT_CLEAR is ignored, entry 22; that mask bits
beyond the conditions are ignored, entry 19; and that the REFUSAL event is given also for a REFUSE without a place, entry 45. -/
def Obligations.OutputsAndConditionsAreSetAndCleared : Prop :=
  ∀ (s : State) (f : RxFrame) (rest : List RxFrame),
    (Heads .outputSet f rest s →
      (∀ v, decodeOutputSet f.payload = some v → (∀ i : Fin 4, v[i] ≤ 3) →
        ∃ t, exec .outputSet s = .next t.conclude ∧ t.liu.rx = rest
          ∧ (∀ i : Fin 4, (v[i] = 0 → t.out.auxDemand[i] = s.out.auxDemand[i]) ∧ (v[i] = 1 → t.out.auxDemand[i] = true)
            ∧ (v[i] = 2 → t.out.auxDemand[i] = false) ∧ (v[i] = 3 → t.out.auxDemand[i] = s.conf.auxDefault[i])
            ∧ t.out.auxActual[i] = (t.out.auxDemand[i] && decide (s.bgu.level < s.conf.auxShed[i])))
          ∧ t.out.lampDemand = s.out.lampDemand
          ∧ (∀ i, tget t.out.lampActual i = (tget s.out.lampDemand i && decide (s.bgu.level < s.conf.lampShed)))
          ∧ UnchangedBut [.outputs, .receive] s t)
      ∧ ((∀ v, decodeOutputSet f.payload = some v → ∃ i : Fin 4, 3 < v[i]) →
        ∃ t, exec .outputSet s = .next t.conclude ∧ t.liu.rx = rest ∧ Refused f.station none none .format 0 s t
          ∧ UnchangedBut [.conditions, .counters, .transmit, .receive] s t))
    ∧ (Heads .alertClear f rest s →
      (∀ mask, decodeMask f.payload = some mask → ∃ t, exec .alertClear s = .next t.conclude ∧ t.liu.rx = rest
        ∧ (∀ c : Condition, t.rpt.isSet c = (s.rpt.isSet c && !mask.getLsbD c.pos))
        ∧ t.rpt.attention = attentionOf t.rpt.conds s.conf.enables ∧ t.rpt.lastFault = s.rpt.lastFault
        ∧ UnchangedBut [.conditions, .receive] s t)
      ∧ (decodeMask f.payload = none → ∃ t, exec .alertClear s = .next t ∧ TakenInSilence rest s t))

/-- A TIME frame is compared with C, or with the last minute waiting to be written: ahead of it, it is written and no hold is
kept; up to 1440 behind, the hold count takes the difference; further behind, TIME_FAULT. A minute tick writes the next minute,
held or saturated, and ages the sync; at 2,880 sync is lost (R109, R111, R113, Table 8-1). The chain of writes and the separate
loss of sync are the model's, entries 34 and 31; a tick is taken whenever it is given, entry 3. That a short TIME is ignored is
its reading, entry 22. -/
def Obligations.TimeFramesAndTicksMoveTheClock : Prop :=
  (∀ s : State, (s.cts.minuteWrites = [] → s.lastMinute = s.clk.minute)
    ∧ ∀ ws w, s.cts.minuteWrites = ws ++ [w] → s.lastMinute = w.value)
  ∧ (∀ (s : State) (f : RxFrame) (rest : List RxFrame), Heads .time f rest s →
    (decodeTime f.payload = none → ∃ t, exec .time s = .next t ∧ TakenInSilence rest s t)
    ∧ (∀ m, decodeTime f.payload = some m →
      (s.lastMinute < m → ∃ t, exec .time s = .next t.conclude ∧ t.liu.rx = rest
        ∧ t.clk = { s.clk with hold := 0, sub := 0, synced := true, age := 0 }
        ∧ t.cts = { s.cts with minuteWrites := (s.cts.minuteWrites
            ++ [{ value := m, tick := false, synced := s.clk.synced }]) }
        ∧ UnchangedBut [.minutes, .clock, .receive] s t)
      ∧ (m ≤ s.lastMinute → s.lastMinute ≤ m + 1440 → ∃ t, exec .time s = .next t.conclude ∧ t.liu.rx = rest
        ∧ t.clk = { s.clk with hold := s.lastMinute - m, sub := 0, synced := true, age := 0 }
        ∧ UnchangedBut [.clock, .receive] s t)
      ∧ (m + 1440 < s.lastMinute → ∃ t, exec .time s = .next t.conclude ∧ t.liu.rx = rest ∧ Raised .timeFault none s t
        ∧ UnchangedBut [.conditions, .transmit, .receive] s t)))
  ∧ (∀ s : State, s.loaded = true →
    (∃ t, exec .minuteTick s = .next t ∧ t.clk.minute = s.clk.minute ∧ t.clk.sub = 0 ∧ t.clk.hold = s.clk.hold - 1
      ∧ t.clk.age = min (s.clk.age + 1) 2880 ∧ t.clk.synced = (s.clk.synced && decide (s.clk.age + 1 < 2880))
      ∧ t.cts = { s.cts with minuteWrites := (s.cts.minuteWrites
          ++ [{ value := (if 0 < s.clk.hold then s.lastMinute else min (s.lastMinute + 1) 4294967295), tick := true,
                synced := s.clk.synced }]) }
      ∧ UnchangedBut [.minutes, .clock] s t)
    ∧ (∃ t, exec .syncLost s = .next t ∧ t.clk = { s.clk with age := 2880, synced := false }
      ∧ UnchangedBut [.clock] s t))

/-- When a retained-minute write ends, C takes its value, whether it completed or failed with STORE raised; where the write was a
tick's and bit g of C has changed while SYNCED, the expiry scan marks each parcel that is due, or, where an entry holds it, sets
that entry's expiry mark (R18, R116, R117, R7, Table 8-2). That SYNCED is asked for at the tick and at its write's end is the
model's reading, entry 41. The bytes under a check word are a free value, entry 11. -/
def Obligations.MinuteWritesMoveTheMinuteAndScan : Prop :=
  ∀ (s : State) (w : MinuteWrite) (more : List MinuteWrite) (ok : Bool), s.cts.minuteWrites = w :: more →
    ∃ t, exec (.retainedMinuteWrite ok) s = .next t.conclude ∧ t.clk = { s.clk with minute := w.value }
      ∧ t.cts.minuteWrites = more
      ∧ (s.cts.minuteNextB = false → t.cts.minuteB = s.cts.minuteB
          ∧ (ok = true → t.cts.minuteA = CountCopy.written .minute w.value ∧ t.cts.minuteNextB = true))
      ∧ (s.cts.minuteNextB = true → t.cts.minuteA = s.cts.minuteA
          ∧ (ok = true → t.cts.minuteB = CountCopy.written .minute w.value ∧ t.cts.minuteNextB = false))
      ∧ (ok = false → Raised .store none s t ∧ t.cts.minuteNextB = s.cts.minuteNextB)
      ∧ (ok = true → t.rpt.conds = s.rpt.conds ∧ t.liu.tx = s.liu.tx)
      ∧ (¬(w.tick = true ∧ w.synced = true ∧ s.clk.synced = true
            ∧ s.clk.minute.testBit s.conf.granularity ≠ w.value.testBit s.conf.granularity) →
          UnchangedBut [.minutes, .clock, .conditions, .transmit, .free] s t)
      ∧ (w.tick = true → w.synced = true → s.clk.synced = true →
          s.clk.minute.testBit s.conf.granularity ≠ w.value.testBit s.conf.granularity →
          (∀ slot r p h, s.rec? slot = some r → r.state = .occupied p → p.purpose = .delivery → p.limit = some h →
            p.deposit + h ≤ w.value →
            ((∀ e ∈ s.ort, e.holds slot = false) →
              t.rec? slot = some { r with state := .occupied { p with purpose := .expired } }
              ∧ WriteOf { r with state := .occupied { p with purpose := .expired } } [] (s.store slot) (t.store slot))
            ∧ (∀ e, s.holder? slot = some e → t.rec? slot = s.rec? slot ∧ t.store slot = s.store slot
              ∧ ∃ d ∈ t.ort, d.job = e.job ∧ d.holds slot = true ∧ ∃ x, d.slot? slot = some x ∧ x.mark = true))
          ∧ (∀ slot, (∀ r p h, s.rec? slot = some r → r.state = .occupied p → p.purpose = .delivery → p.limit = some h →
              w.value < p.deposit + h) → t.rec? slot = s.rec? slot ∧ t.store slot = s.store slot)
          ∧ UnchangedBut [.records, .store, .minutes, .clock, .requests, .conditions, .counters, .transmit, .free] s t)

/-! ## Sensing (chapter 3) -/

/-- A gate's change steps the bolt count by Table 3-1 where its case is enabled, saturating at 0 and 15, and the new levels are
taken in every case; a step to 2 or more ends secure, marks a drive that reaches the threshold, and, taken to the threshold
outside the expected window, is a forced report: to the Compartment Table without a door cycle, to a waiting request or a cycle in
STARTING or PULSE_WAIT otherwise. Two gates changing together count nothing, and the home re-zero sets the count to 0 (R24 to R28,
R32, R34, R53, R9). The home-idle timer's value is not asked for: the model's choice, entry 3. The model's own are also: the
levels at the inputs, which a step changes also where the slot is not sampled, entries 4 and 5; that a cycle forced in STARTING is
marked, its lamp off, and keeps its place until its write has ended, entry 40; that an answer keeps its mapping's outcome where
its write fails, and waits for a write in progress also where no record changes, entries 44 and 50; and the carrier 0 of a forced
compartment without a record, entry 24. -/
def Obligations.BoltStepsFollowTable31 : Prop :=
  (∀ (s : State) (slot : Slot) (gate : Gate), ∃ t : State,
    tget t.pins slot = (tget s.pins slot).flip gate ∧ (∀ i, i ≠ slot → tget t.pins i = tget s.pins i)
    ∧ (∀ i, i ≠ slot → t.sense i = s.sense i)
    ∧ (s.loaded = false ∨ s.fitted slot = false →
        exec (.boltStep slot gate) s = .next t ∧ UnchangedBut [.pins] s t)
    ∧ (s.loaded = true → s.fitted slot = true → exec (.boltStep slot gate) s = .next t.conclude
      ∧ (t.sense slot).gates = some ((tget t.pins slot).gateA, (tget t.pins slot).gateB)
      ∧ ((s.sense slot).gates = none → (t.sense slot).bolt = (s.sense slot).bolt ∧ UnchangedBut [.pins, .sensing] s t)
      ∧ ((s.sense slot).gates.isSome = true → ∀ up enabled,
        up = (match gate with
          | .a => (tget t.pins slot).gateA != (tget t.pins slot).gateB
          | .b => (tget t.pins slot).gateA == (tget t.pins slot).gateB) →
        enabled = (edgeOf s.conf.edges gate ((tget t.pins slot).gateA, (tget t.pins slot).gateB)).2 →
        (s.conf.edges = EdgeEnables.all → enabled = true)
        ∧ (enabled = false → (t.sense slot).bolt = (s.sense slot).bolt
            ∧ (t.sense slot).boltLow = (s.sense slot).boltLow ∧ UnchangedBut [.pins, .sensing] s t)
        ∧ (enabled = true →
          (t.sense slot).bolt = (if up then min ((s.sense slot).bolt + 1) 15 else (s.sense slot).bolt - 1)
          ∧ (2 ≤ (t.sense slot).bolt → (t.sense slot).boltLow = none)
          ∧ ((t.sense slot).bolt < 2 → (t.sense slot).boltLow = some ((s.sense slot).boltLow.getD 0))
          ∧ (∀ c, s.cycle? slot = some c → c.stage = .driving → up = true →
              s.conf.threshold ≤ (t.sense slot).bolt → t.cycle? slot = some { c with boltReached := true })
          ∧ (∀ c, s.cycle? slot = some c → c.stage = .settle → c.latchFault = false →
              (s.sense slot).secure = true → 2 ≤ (t.sense slot).bolt →
              t.cycle? slot = some { c with stage := .closing, settle := none })
          ∧ (up = false ∨ (s.sense slot).bolt + 1 ≠ s.conf.threshold ∨ s.windowOpen slot = true →
              UnchangedBut [.pins, .sensing, .doors] s t)
          ∧ (∀ r, up = true → (s.sense slot).bolt + 1 = s.conf.threshold → s.conf.threshold ≤ 15 →
              s.hasDoorCycle slot = false → s.rec? slot = some r → ForcedOnTable slot r s t)
          ∧ (up = true → (s.sense slot).bolt + 1 = s.conf.threshold → s.conf.threshold ≤ 15 →
              ForcedOnRequest slot (.boltStep slot gate) s t)
          ∧ (s.hasDoorCycle slot = false →
              UnchangedBut [.records, .store, .pins, .sensing, .conditions, .counters, .transmit, .free] s t)))))
  ∧ (∀ (s : State) (slot : Slot), ∃ t, exec (.doubleGateChange slot) s = .next t
    ∧ tget t.pins slot = { tget s.pins slot with gateA := !(tget s.pins slot).gateA, gateB := !(tget s.pins slot).gateB }
    ∧ (∀ i, i ≠ slot → tget t.pins i = tget s.pins i ∧ t.sense i = s.sense i)
    ∧ (t.sense slot).bolt = (s.sense slot).bolt
    ∧ (s.loaded = true → s.fitted slot = true →
        (t.sense slot).gates = some ((tget t.pins slot).gateA, (tget t.pins slot).gateB))
    ∧ UnchangedBut [.pins, .sensing] s t)
  ∧ (∀ (s : State) (slot : Slot), s.loaded = true → s.fitted slot = true → (s.sense slot).homeIdle.isSome = true →
    ∃ t, exec (.homeReZero slot) s = .next t ∧ (t.sense slot).bolt = 0 ∧ (t.sense slot).homeIdle = some 0
      ∧ (t.sense slot).boltLow = some ((s.sense slot).boltLow.getD 0) ∧ (t.sense slot).gates = (s.sense slot).gates
      ∧ (t.sense slot).door = (s.sense slot).door ∧ (t.sense slot).presence = (s.sense slot).presence
      ∧ (∀ i, i ≠ slot → t.sense i = s.sense i) ∧ UnchangedBut [.sensing] s t)

/-- A door that opens in its cycle's expected window moves the cycle on; outside it the opening is a forced report: to the
Compartment Table without a door cycle, to a waiting request of any kind or a cycle in STARTING or PULSE_WAIT otherwise. A door
that closes takes a cycle from OPEN to CLOSING with a fresh latch timer, or to SETTLE where the slot is secure (R9, R29, R34, R46,
R48 to R53; entry 28). That a cycle forced in STARTING stays until its write has ended is the model's reading, entry 40; the
debounce timers are not asked for, entry 3. The model's own are also: that the event sets the level at the input, entry 5; that an
answer keeps its mapping's outcome where its write fails, and waits for a write in progress also where no record changes, entries
44 and 50; and the carrier 0 of a forced compartment without a record, entry 24. -/
def Obligations.DoorEventsMoveTheCycleOrForce : Prop :=
  ∀ (s : State) (slot : Slot), s.loaded = true → s.fitted slot = true →
    ((s.sense slot).door = some false → ∃ t, exec (.doorOpened slot) s = .next t.conclude
      ∧ (t.sense slot).door = some true ∧ (t.sense slot).doorTimer = 0 ∧ (t.sense slot).bolt = (s.sense slot).bolt
      ∧ (tget t.pins slot).door = (true != s.conf.doorPolarity) ∧ (∀ i, i ≠ slot → tget t.pins i = tget s.pins i)
      ∧ (∀ i, i ≠ slot → t.sense i = s.sense i)
      ∧ (∀ c, s.inDoorQueue slot = false → s.cycle? slot = some c →
        (c.stage = .driving → t.cycle? slot = some { c with doorOpened := true }
          ∧ UnchangedBut [.pins, .sensing, .doors] s t)
        ∧ (c.stage = .popWait ∨ c.stage = .closing ∨ c.stage = .settle →
          t.cycle? slot
              = some { c with stage := .opened, ajar := some 0, pop := none, settle := none, latchFault := false }
          ∧ UnchangedBut [.pins, .sensing, .doors] s t)
        ∧ (c.stage = .opened → t.cycle? slot = some c ∧ UnchangedBut [.pins, .sensing, .doors] s t))
      ∧ ForcedOnRequest slot (.doorOpened slot) s t
      ∧ (∀ r, s.hasDoorCycle slot = false → s.rec? slot = some r → ForcedOnTable slot r s t
        ∧ UnchangedBut [.records, .store, .pins, .sensing, .conditions, .counters, .transmit, .free] s t))
    ∧ ((s.sense slot).door = some true → ∃ t, exec (.doorClosed slot) s = .next t.conclude
      ∧ (t.sense slot).door = some false ∧ (t.sense slot).doorTimer = 0 ∧ (t.sense slot).bolt = (s.sense slot).bolt
      ∧ (tget t.pins slot).door = (false != s.conf.doorPolarity) ∧ (∀ i, i ≠ slot → tget t.pins i = tget s.pins i)
      ∧ (∀ i, i ≠ slot → t.sense i = s.sense i)
      ∧ (∀ c, s.cycle? slot = some c →
        (c.stage = .opened → ((t.sense slot).secure = false →
            t.cycle? slot = some { c with stage := .closing, ajar := none, settle := none, latch := 0 })
          ∧ ((t.sense slot).secure = true → t.cycle? slot
              = some { c with stage := .settle, ajar := none, settle := some 0, latch := 0, latchFault := false }))
        ∧ (c.stage ≠ .opened → t.cycle? slot = some c))
      ∧ UnchangedBut [.pins, .sensing, .doors] s t)

/-- With no door cycle in progress on the slot, presence on sets the foreign flag of an EMPTY compartment and raises FOREIGN, and
clears the presence-lost flag of an OCCUPIED one; presence off does the opposite and raises PRESENCE_LOST. In a cycle, and for any
other compartment, no flag changes (R30, R36, R38, R39). The debounce timer is not asked for: the model's choice, entry 3. That
the event sets the level at the input is its choice, entry 5; that it changes no flag before reconciliation is its reading, entry
30. -/
def Obligations.PresenceEventsChangeTheFlags : Prop :=
  ∀ (s : State) (slot : Slot) (on : Bool), s.loaded = true → s.fitted slot = true →
    (s.sense slot).presence = some (!on) →
    ∃ t, exec (if on then .presenceOn slot else .presenceOff slot) s = .next t.conclude
      ∧ (t.sense slot).presence = some on ∧ (t.sense slot).presenceTimer = 0
      ∧ (tget t.pins slot).presence = (on == s.conf.presencePolarity)
      ∧ (∀ i, i ≠ slot → tget t.pins i = tget s.pins i ∧ t.sense i = s.sense i)
      ∧ (t.sense slot).door = (s.sense slot).door ∧ (t.sense slot).bolt = (s.sense slot).bolt
      ∧ (∀ r, s.rec? slot = some r → s.inCycle slot = false → r.state = .empty →
          Changed slot { r with foreign := on } [] s t ∧ (on = true → Raised .foreign (some slot) s t)
          ∧ (on = false → t.rpt.conds = s.rpt.conds))
      ∧ (∀ r p, s.rec? slot = some r → s.inCycle slot = false → r.state = .occupied p →
          Changed slot { r with lost := !on } [] s t ∧ (on = false → Raised .presenceLost (some slot) s t)
          ∧ (on = true → t.rpt.conds = s.rpt.conds))
      ∧ (s.inCycle slot = true ∨ s.rec? slot = none
            ∨ (∃ r, s.rec? slot = some r ∧ r.state ≠ .empty ∧ ∀ p, r.state ≠ .occupied p) →
          UnchangedBut [.pins, .sensing] s t)
      ∧ UnchangedBut [.records, .store, .pins, .sensing, .conditions, .counters, .transmit, .free] s t

/-! ## Door cycles (chapter 4) -/

/-- The timers of a cycle take it on: secure to SETTLE, a missed pop to a retry, an ajar door to AJAR while the cycle stays in
OPEN, the latch time to SETTLE with a latch fault; the pulse wait limit only waits where the cycle is not in PULSE_WAIT (R32, R45,
R47 to R51). The timers' values are not asked for: the model's choice, entry 3. Nor is it asked of LATCH_FAULT that the bolt
stands off home, where alone the latch timer advances: entry 3 too. -/
def Obligations.CycleTimersMoveTheStages : Prop :=
  ∀ (s : State) (slot : Slot),
    (s.loaded = true → s.fitted slot = true → (s.sense slot).door = some false → (s.sense slot).boltLow.isSome = true →
      ∃ t, exec (.secure slot) s = .next t.conclude ∧ t.sense slot = { s.sense slot with boltLow := some 200 }
        ∧ (t.sense slot).secure = true ∧ (∀ i, i ≠ slot → t.sense i = s.sense i)
        ∧ (∀ c, s.cycle? slot = some c → c.stage = .closing → t.cycle? slot
            = some { c with stage := .settle, settle := some 0, ajar := none, latchFault := false })
        ∧ ((∀ c, s.cycle? slot = some c → c.stage ≠ .closing) → t.cycle? slot = s.cycle? slot)
        ∧ UnchangedBut [.sensing, .doors] s t)
    ∧ (∀ c, s.cycle? slot = some c → c.limit.isSome = true → c.stage ≠ .pulseWait →
      ∃ t, exec (.pulseWaitLimit slot) s = .next t.conclude ∧ t.cycle? slot = some { c with limit := some 60000 }
        ∧ UnchangedBut [.doors] s t)
    ∧ (∀ c, s.cycle? slot = some c → c.stage = .popWait → c.attempt < 3 → c.limitReached = false →
      ∃ t, exec (.popWindowEnd slot) s = .next t.conclude
        ∧ t.cycle? slot = some { c with stage := .pulseWait, attempt := c.attempt + 1, lastFailure := some .jam, wait := 0,
                                        limit := some (c.limit.getD 0), boltReached := false, doorOpened := false,
                                        pop := none }
        ∧ t.dsq.order = s.dsq.order ++ [slot] ∧ UnchangedBut [.doors] s t)
    ∧ (∀ c, s.cycle? slot = some c → c.stage = .opened → c.ajar.isSome = true →
      ∃ t, exec (.ajar slot) s = .next t.conclude ∧ t.cycle? slot = some { c with ajar := none }
        ∧ Raised .ajar (some slot) s t ∧ UnchangedBut [.doors, .conditions, .transmit] s t)
    ∧ (∀ c, s.cycle? slot = some c → c.stage = .closing →
      ∃ t, exec (.latchFault slot) s = .next t.conclude
        ∧ t.cycle? slot = some { c with stage := .settle, settle := some 0, ajar := none, latch := 2000, latchFault := true }
        ∧ UnchangedBut [.doors] s t)

/-- A cycle ends with the outcome of its presence sample, its latch fault, its pulse wait limit or its last failed attempt, and
the outcome is mapped by the table of its kind, with the events DOOR_CYCLE and ENTER_STATE (R45, R47, R48, R51, R52, R54, R106,
R143, R148, R166). The timers' values are not asked for: the model's choice, entry 3. The answer keeps the mapping's outcome where
its write fails, and waits for a write in progress also where no record changes: entries 44 and 50. -/
def Obligations.CyclesEndWithTheMappedOutcome : Prop :=
  ∀ (s : State) (slot : Slot) (c : Cycle), s.cycle? slot = some c →
    (c.stage = .settle → c.latchFault = false → (s.sense slot).secure = true →
      EndsWith c (if (s.sense slot).presenceIsOn then .securedPresent else .securedAbsent) (.settleTimerEnd slot) endParts s)
    ∧ (c.stage = .settle → c.latchFault = true →
      EndsWith c (.latchFault (s.sense slot).presenceIsOn) (.latchFaultSettleEnd slot) endParts s)
    ∧ (c.stage = .pulseWait → c.limit.isSome = true →
      EndsWith c (match c.lastFailure with | some .bolt => .notOpenedBolt | some .jam => .notOpenedJam | none => .abandoned)
        (.pulseWaitLimit slot) endParts s)
    ∧ (c.stage = .popWait → 3 ≤ c.attempt ∨ c.limitReached = true →
      EndsWith c .notOpenedJam (.popWindowEnd slot) endParts s)

/-! ## The custody store (section 2.4) -/

/-- A record write whose read-back matches makes its copy current, with the check word over slot number, generation and contents,
and a change made meanwhile is written next; one that does not match is tried once more; a second failure takes the compartment to
FAULT(STORE), keeping its parcel record, and makes one write of that. Then the units that waited go on, one after another (R15,
R16, R17). The layout of the contents under the check word is a free value, entry 11. That the units go on in the order in which
they began to wait, with the tests of R86 and R42 after each, is the model's choice, entry 48; the carrier 0 of the event of a
compartment without a record is its reading, entry 24. -/
def Obligations.RecordWritesEndAndReleaseTheirUnits : Prop :=
  ∀ (s : State) (slot : Slot) (w : RecWrite), (s.store slot).writing = some w →
    (∃ t, exec (.recordWriteComplete slot true) s = .next (t.releaseAll slot w.waiters).conclude
      ∧ (t.store slot).current = some w.toB
      ∧ (t.store slot).copy w.toB = RecCopy.written slot w.gen w.content
      ∧ (t.store slot).copy (!w.toB) = (s.store slot).copy (!w.toB) ∧ (∀ i, i ≠ slot → t.store i = s.store i)
      ∧ ((s.store slot).again = none → (t.store slot).writing = none ∧ (t.store slot).again = none)
      ∧ (∀ ws r, (s.store slot).again = some ws → s.rec? slot = some r →
          (t.store slot).writing = some { toB := !w.toB, gen := w.gen + 1, content := r, second := false,
                                          cause := .change, waiters := ws } ∧ (t.store slot).again = none)
      ∧ UnchangedBut [.store] s t)
    ∧ (w.second = false → ∃ t, exec (.recordWriteComplete slot false) s = .next t.conclude
      ∧ t.store slot = { s.store slot with writing := some { w with second := true } }
      ∧ (∀ i, i ≠ slot → t.store i = s.store i) ∧ UnchangedBut [.store] s t)
    ∧ (∀ r, w.second = true → w.cause ≠ .storeFault → s.rec? slot = some r →
      ∃ t, exec (.recordWriteComplete slot false) s = .next (t.releaseAll slot w.waiters).conclude
        ∧ t.rec? slot = some { state := .fault .store r.state.parcel?, foreign := r.foreign,
                               lost := r.lost && r.state.parcel?.isSome }
        ∧ (∀ i, i ≠ slot → t.rec? i = s.rec? i ∧ t.store i = s.store i) ∧ Raised .store (some slot) s t
        ∧ CountedAll (entryEvents r.state (.fault .store r.state.parcel?) (s.carrierOf slot)) s t
        ∧ (∃ v, (t.store slot).writing = some v ∧ some v.content = t.rec? slot ∧ v.second = false ∧ v.cause = .storeFault
            ∧ v.waiters = (s.store slot).again.getD [])
        ∧ (t.store slot).again = none ∧ (t.store slot).current = (s.store slot).current
        ∧ (t.store slot).copy (!w.toB) = (s.store slot).copy (!w.toB)
        ∧ UnchangedBut [.records, .store, .conditions, .counters, .transmit, .free] s t)
    ∧ (w.second = true → w.cause = .storeFault → (s.store slot).again = none →
      ∃ t, exec (.recordWriteComplete slot false) s = .next (t.releaseAll slot w.waiters).conclude
        ∧ (t.store slot).writing = none ∧ (t.store slot).again = none
        ∧ (t.store slot).copy (!w.toB) = (s.store slot).copy (!w.toB) ∧ (∀ i, i ≠ slot → t.store i = s.store i)
        ∧ UnchangedBut [.store, .free] s t)

/-- What waited for a write goes on when it has ended: a cycle's start enters PULSE_WAIT, or ends FORCED or, its compartment gone
to FAULT(STORE), ABANDONED, mapped by the table of its kind; an accepted detail asks for the door, or, its compartment gone to
FAULT, answers PLACE_DONE FAULT; the answers are queued and their entries or slots are done; a payment is answered by a QUOTE,
which is the slot's current quote from then on (R16, R17, R43, R53, R54, R105, R107, R126, R130, R144, R147, R149, R150). The
model's own are: that a forced cycle ends here, entry 40; the record, the minute and the sync state a late QUOTE is computed from,
entry 27; that the answer of a door cycle keeps the outcome of its mapping where the write of the change fails, entry 44; that a
payment's quote is kept by ticket, also in an entry created after the payment's own had ended, entry 55; and that an answer waits
for a write in progress also where no record changes, entry 50. -/
def Obligations.UnitsGoOnWhenTheirWriteEnds : Prop :=
  ∀ (s : State) (slot : Slot),
    (∀ c, s.cycle? slot = some c → c.stage = .starting →
      (c.forced = false → s.storeFaulted slot = false → ∃ t, s.release slot .cycleStart = t
        ∧ t.cycle? slot = some { c with stage := .pulseWait, wait := 0, limit := some (c.limit.getD 0) }
        ∧ t.dsq.order = s.dsq.order ++ [slot] ∧ t.dsq.queue = s.dsq.queue ∧ UnchangedBut [.doors] s t)
      ∧ (c.forced = true → EndMapped c .forced endParts s (s.release slot .cycleStart))
      ∧ (c.forced = false → s.storeFaulted slot = true → EndMapped c .abandoned endParts s (s.release slot .cycleStart)))
    ∧ (∀ tk p, (∃ r, s.rec? slot = some r ∧ r.state = .held tk (some p)) → s.hasDoorCycle slot = false →
      s.conf.span ≤ s.dsq.cycles.length → ∃ t, s.release slot (.detail tk) = t
        ∧ Queued { slot := slot, kind := .deposit, job := placeJob tk, ref := p.ref } s t ∧ UnchangedBut [.doors] s t)
    ∧ (∀ tk p, (∃ r, s.rec? slot = some r ∧ r.state = .held tk (some p)) → s.hasDoorCycle slot = false →
      s.dsq.queue = [] → s.dsq.cycles.length < s.conf.span → ∃ t, s.release slot (.detail tk) = t
        ∧ Started { slot := slot, kind := .deposit, job := placeJob tk, ref := p.ref } .pulseWait s t
        ∧ UnchangedBut [.sensing, .doors, .outputs] s t)
    ∧ (∀ tk result e, s.entry? (placeJob tk) = some e →
      ∃ t, s.release slot (.placeDone tk result) = t ∧ t.entry? (placeJob tk) = none
        ∧ Answered (.placeDone tk.number slot result e.ref) tk.station s t
        ∧ (NoMarks e → UnchangedBut [.requests, .conditions, .transmit] s t)
        ∧ UnchangedBut [.records, .store, .requests, .conditions, .counters, .transmit, .free] s t)
    ∧ (∀ tk, s.heldFor slot tk = false → s.release slot (.detail tk) = s.release slot (.placeDone tk .fault))
    ∧ (∀ j result ref e, j.kind = .collect ∨ j.kind = .sweep → s.entry? j = some e →
      ∃ t, s.release slot (.releaseDone j result ref) = t
        ∧ Answered (.releaseDone j.ticket.number slot result ref) j.ticket.station s t
        ∧ ((∀ x ∈ e.slots, x.slot = slot ∨ x.progress = .done) → t.entry? j = none)
        ∧ ((∃ x ∈ e.slots, x.slot ≠ slot ∧ x.progress ≠ .done) → ∃ d, t.entry? j = some d ∧ d.holds slot = false)
        ∧ (NoMarks e → UnchangedBut [.requests, .conditions, .transmit] s t)
        ∧ UnchangedBut [.records, .store, .requests, .conditions, .counters, .transmit, .free] s t)
    ∧ (∀ j result ref, j.kind = .service → ∃ t, s.release slot (.releaseDone j result ref) = t ∧ t.entry? j = none
        ∧ Answered (.releaseDone j.ticket.number slot result ref) j.ticket.station s t
        ∧ ((∀ e, s.entry? j = some e → NoMarks e) → UnchangedBut [.requests, .conditions, .transmit] s t)
        ∧ UnchangedBut [.records, .store, .requests, .conditions, .counters, .transmit, .free] s t)
    ∧ (∀ tk result ref, ∃ t, s.release slot (.serviceDone tk result ref) = t ∧ t.entry? (serviceJob tk) = none
      ∧ Answered (.releaseDone tk.number slot (if s.storeFaulted slot then .fault else result) ref) tk.station s t
      ∧ UnchangedBut [.records, .store, .requests, .conditions, .counters, .transmit, .free] s t)
    ∧ (∀ tk excess minute paid p, p = (s.parcel? slot).getD paid →
      ∃ t, s.release slot (.payment tk excess minute paid) = t ∧ t.quoteCounter = s.quoteCounter + 1
        ∧ Answered (.quote tk.number slot s.quoteCounter (amountDue s.conf (s.size slot) p minute)
            (min (validUntil s.conf p minute - minute) 65535) excess p.paid (graceInForce s.conf p minute)
            (s.treatedExpired p minute)) tk.station s t
        ∧ (∀ e x, s.entry? (collectJob tk) = some e → e.slot? slot = some x → x.progress ≠ .done →
            ∃ d, t.entry? (collectJob tk) = some d ∧ d.slot? slot = some { x with
              quote := some { number := s.quoteCounter, due := amountDue s.conf (s.size slot) p minute,
                              valid := validUntil s.conf p minute, minute := minute } })
        ∧ UnchangedBut [.requests, .quotes, .conditions, .transmit] s t)
    ∧ (∀ j, (s.release slot (.endEntry j)).entry? j = none
      ∧ UnchangedBut [.records, .store, .requests, .counters, .free] s (s.release slot (.endEntry j)))

/-! ## Invariants -/

/-- What every command does at its end is the column's own work and nothing else, and all of it: afterwards no waiting entry is
eligible and no request can start. It takes up the first eligible entry in arrival order, else starts the request at the head of
the door queue where fewer cycles are in progress than the door span, again and again, and then makes the queue test of the own
note; with nothing to do, nothing changes (R42, R43, R69, R86, R139, R142, R145, R147, R160; that the entries come before the door
queue, and the note last, is the model's choice, entry 6; the note in a full transmit queue is entry 25). That a waiting COLLECT
whose expired match lies in a FAULT compartment ends in silence is its reading, entry 37; that the REFUSAL event is given also for
a REFUSE without a place, entry 45 (its choice). -/
def Obligations.ConcludingOnlyDoesTheColumnsOwnWork : Prop :=
  (∀ s : State, Follows s s.conclude ∧ (AtRest s → s.conclude = s) ∧ s.conclude = (s.settle settleRounds).noteTest
    ∧ (s.ort.length ≤ 8 → s.dsq.queue.length ≤ 24 →
      (∀ older e later, s.conclude.ort = older ++ e :: later → ¬Eligible older e s.conclude)
      ∧ (s.conclude.dsq.queue = [] ∨ s.conf.span ≤ s.conclude.dsq.cycles.length)))
  ∧ (∀ (s : State) (older later : List Entry) (e : Entry) (n : Nat), s.ort = older ++ e :: later → Eligible older e s →
    (∀ before d after, older = before ++ d :: after → ¬Eligible before d s) →
    s.settle (n + 1) = (s.reEvaluate e).settle n
    ∧ (s.entry? e.job = some e →
      (e.kind = .collect → e.slotList.Nodup → CollectTakenUp e s (s.reEvaluate e))
      ∧ (e.kind = .sweep → SweepTakenUp e s (s.reEvaluate e))
      ∧ (∀ sub slot r, e.kind = .service → e.sub = some sub → e.firstSlot? = some slot → s.rec? slot = some r →
          ServiceTakenUp e sub slot r s (s.reEvaluate e))))
  ∧ (∀ (s : State) (q : DoorRequest) (rest : List DoorRequest) (n : Nat),
    (∀ older e later, s.ort = older ++ e :: later → ¬Eligible older e s) → s.dsq.queue = q :: rest →
    s.dsq.cycles.length < s.conf.span →
    s.settle (n + 1) = s.tryStart.settle n
    ∧ (∀ r, s.rec? q.slot = some r → s.inCycle q.slot = false → StartTried q rest r s s.tryStart))
  ∧ (∀ s : State, NoteTested s s.noteTest)

/-- A parcel record keeps the fields given at its creation, never loses a payment, goes from DELIVERY only to EXPIRED, and
keeps its settlement, under every command but the PLACE_DETAIL that creates it (R3, R6, R131). -/
def Obligations.ParcelRecordsKeepTheirFields : Prop :=
  ∀ (s t : State) (c : Instr) (slot : Slot) (p q : Parcel), c ≠ .placeDetail → exec c s = .next t →
    s.parcel? slot = some p → t.parcel? slot = some q → SameParcel p q

/-- A driver turns on only for the column's own note of that slot, granted by the pulse list as it stood, for the note's
duration, while its cycle waits for the pulse (R44, R68, R70). -/
def Obligations.DriversFireOnlyOnAnOwnGrantedNote : Prop :=
  ∀ (s t : State) (c : Instr) (slot : Slot) (n : Nat), exec c s = .next t → tget s.bgu.drivers slot = none →
    tget t.bgu.drivers slot = some n →
    s.bgu.pulses.length < s.budget ∧ (∀ p ∈ s.bgu.pulses, ¬(p.station = s.station ∧ p.slot = BitVec.ofNat 5 slot.val))
    ∧ (∃ d, s.cycle? slot = some d ∧ d.stage = .pulseWait)
    ∧ ∃ f duration kind, (s.liu.handover = some f ∨ s.sending? = some f) ∧ f.body = .pulseNote slot duration kind
        ∧ n = duration * 10

/-- The state after reset is within its bounds, and no compartment is held twice (Tables 2-6, 3-2, 5-7, 6-3, 8-4, 11-6, 12-4). The
reset state is that over a store never used: entry 14. That the debounce timers
are zero is the model's choice, entry 49. -/
def Obligations.TheInvariantsHoldAfterReset : Prop := Bounded State.reset ∧ HoldsApart State.reset ∧ QuietSinceReset State.reset

/-- Every step keeps the queues, the pulse list and the door cycles within their places, the counts and minutes within their
ranges, attention true exactly while a condition is set and enabled, every retained copy that passes its check in agreement with
its check word, and everything at rest while no configuration is loaded (R14, R15, R18, R26, R42, R67, R79, R109, R159, R160,
R161, R164, R174). That the debounce timers rest at zero while nothing is loaded is the model's choice, entry 49. -/
def Obligations.EveryStepKeepsTheBounds : Prop := ∀ s t : State, Bounded s → step s = .next t → Bounded t

/-- Every step keeps each ticket and kind to one entry, and each compartment to one holder (R81, R84). -/
def Obligations.EveryStepKeepsOneHolderPerCompartment : Prop :=
  ∀ s t : State, HoldsApart s → step s = .next t → HoldsApart t
end

