-- ==== Sys2Proof/Laws/State.lean ====
section
/-! SUPPORT. The small lemmas of the state: what a table reads after a change, and each field after each named update. -/

namespace Sys2Proof

/-! ## Tables -/

@[simp] theorem tget_tset_same {α : Type} (t : Table α) (i : Slot) (x : α) : tget (tset t i x) i = x := by
  simp [tget, tset]

theorem tget_tset_ne {α : Type} (t : Table α) {i j : Slot} (x : α) (h : i ≠ j) : tget (tset t i x) j = tget t j := by
  simp only [tget, tset, Fin.getElem_fin]
  exact Vector.getElem_set_ne _ _ (fun e => h (Fin.ext e))

theorem tget_tset {α : Type} (t : Table α) (i j : Slot) (x : α) :
    tget (tset t i x) j = if i = j then x else tget t j := by
  split
  · rename_i h; subst h; simp
  · rename_i h; exact tget_tset_ne t x h

@[simp] theorem tget_tconst {α : Type} (x : α) (i : Slot) : tget (tconst x) i = x := by simp [tget, tconst]

@[simp] theorem tget_tabulate {α : Type} (f : Slot → α) (i : Slot) : tget (tabulate f) i = f i := by
  simp [tget, tabulate]

@[simp] theorem tget_tmap {α β : Type} (f : α → β) (t : Table α) (i : Slot) : tget (tmap f t) i = f (tget t i) := by
  simp [tmap]

theorem table_ext {α : Type} {t u : Table α} (h : ∀ i, tget t i = tget u i) : t = u := by
  apply Vector.ext
  intro i hi
  exact h ⟨i, hi⟩

@[simp] theorem tset_tget_self {α : Type} (t : Table α) (i : Slot) : tset t i (tget t i) = t := by
  apply table_ext
  intro j
  rw [tget_tset]
  split
  · rename_i h; rw [h]
  · rfl

@[simp] theorem mem_allSlots (i : Slot) : i ∈ allSlots := List.mem_finRange i

end Sys2Proof

namespace Sys2Proof.Machine

/-! ## Each field after each update of one block -/

@[simp] theorem State.setPending_pending (s : State) (x : List Instr) : (s.setPending x).pending = x := rfl
@[simp] theorem State.setPending_phase (s : State) (x : List Instr) : (s.setPending x).phase = s.phase := rfl
@[simp] theorem State.setPending_cfg (s : State) (x : List Instr) : (s.setPending x).cfg = s.cfg := rfl
@[simp] theorem State.setPending_cts (s : State) (x : List Instr) : (s.setPending x).cts = s.cts := rfl
@[simp] theorem State.setPending_pins (s : State) (x : List Instr) : (s.setPending x).pins = s.pins := rfl
@[simp] theorem State.setPending_sen (s : State) (x : List Instr) : (s.setPending x).sen = s.sen := rfl
@[simp] theorem State.setPending_dsq (s : State) (x : List Instr) : (s.setPending x).dsq = s.dsq := rfl
@[simp] theorem State.setPending_bgu (s : State) (x : List Instr) : (s.setPending x).bgu = s.bgu := rfl
@[simp] theorem State.setPending_ort (s : State) (x : List Instr) : (s.setPending x).ort = s.ort := rfl
@[simp] theorem State.setPending_clk (s : State) (x : List Instr) : (s.setPending x).clk = s.clk := rfl
@[simp] theorem State.setPending_quoteCounter (s : State) (x : List Instr) : (s.setPending x).quoteCounter = s.quoteCounter := rfl
@[simp] theorem State.setPending_out (s : State) (x : List Instr) : (s.setPending x).out = s.out := rfl
@[simp] theorem State.setPending_rpt (s : State) (x : List Instr) : (s.setPending x).rpt = s.rpt := rfl
@[simp] theorem State.setPending_liu (s : State) (x : List Instr) : (s.setPending x).liu = s.liu := rfl
@[simp] theorem State.setPending_restart (s : State) (x : List Instr) : (s.setPending x).restart = s.restart := rfl
@[simp] theorem State.setPending_heldCauses (s : State) (x : List Instr) : (s.setPending x).heldCauses = s.heldCauses := rfl
@[simp] theorem State.setPending_free (s : State) (x : List Instr) : (s.setPending x).free = s.free := rfl

@[simp] theorem State.setPhase_pending (s : State) (x : Phase) : (s.setPhase x).pending = s.pending := rfl
@[simp] theorem State.setPhase_phase (s : State) (x : Phase) : (s.setPhase x).phase = x := rfl
@[simp] theorem State.setPhase_cfg (s : State) (x : Phase) : (s.setPhase x).cfg = s.cfg := rfl
@[simp] theorem State.setPhase_cts (s : State) (x : Phase) : (s.setPhase x).cts = s.cts := rfl
@[simp] theorem State.setPhase_pins (s : State) (x : Phase) : (s.setPhase x).pins = s.pins := rfl
@[simp] theorem State.setPhase_sen (s : State) (x : Phase) : (s.setPhase x).sen = s.sen := rfl
@[simp] theorem State.setPhase_dsq (s : State) (x : Phase) : (s.setPhase x).dsq = s.dsq := rfl
@[simp] theorem State.setPhase_bgu (s : State) (x : Phase) : (s.setPhase x).bgu = s.bgu := rfl
@[simp] theorem State.setPhase_ort (s : State) (x : Phase) : (s.setPhase x).ort = s.ort := rfl
@[simp] theorem State.setPhase_clk (s : State) (x : Phase) : (s.setPhase x).clk = s.clk := rfl
@[simp] theorem State.setPhase_quoteCounter (s : State) (x : Phase) : (s.setPhase x).quoteCounter = s.quoteCounter := rfl
@[simp] theorem State.setPhase_out (s : State) (x : Phase) : (s.setPhase x).out = s.out := rfl
@[simp] theorem State.setPhase_rpt (s : State) (x : Phase) : (s.setPhase x).rpt = s.rpt := rfl
@[simp] theorem State.setPhase_liu (s : State) (x : Phase) : (s.setPhase x).liu = s.liu := rfl
@[simp] theorem State.setPhase_restart (s : State) (x : Phase) : (s.setPhase x).restart = s.restart := rfl
@[simp] theorem State.setPhase_heldCauses (s : State) (x : Phase) : (s.setPhase x).heldCauses = s.heldCauses := rfl
@[simp] theorem State.setPhase_free (s : State) (x : Phase) : (s.setPhase x).free = s.free := rfl

@[simp] theorem State.setCfg_pending (s : State) (x : Cfg) : (s.setCfg x).pending = s.pending := rfl
@[simp] theorem State.setCfg_phase (s : State) (x : Cfg) : (s.setCfg x).phase = s.phase := rfl
@[simp] theorem State.setCfg_cfg (s : State) (x : Cfg) : (s.setCfg x).cfg = x := rfl
@[simp] theorem State.setCfg_cts (s : State) (x : Cfg) : (s.setCfg x).cts = s.cts := rfl
@[simp] theorem State.setCfg_pins (s : State) (x : Cfg) : (s.setCfg x).pins = s.pins := rfl
@[simp] theorem State.setCfg_sen (s : State) (x : Cfg) : (s.setCfg x).sen = s.sen := rfl
@[simp] theorem State.setCfg_dsq (s : State) (x : Cfg) : (s.setCfg x).dsq = s.dsq := rfl
@[simp] theorem State.setCfg_bgu (s : State) (x : Cfg) : (s.setCfg x).bgu = s.bgu := rfl
@[simp] theorem State.setCfg_ort (s : State) (x : Cfg) : (s.setCfg x).ort = s.ort := rfl
@[simp] theorem State.setCfg_clk (s : State) (x : Cfg) : (s.setCfg x).clk = s.clk := rfl
@[simp] theorem State.setCfg_quoteCounter (s : State) (x : Cfg) : (s.setCfg x).quoteCounter = s.quoteCounter := rfl
@[simp] theorem State.setCfg_out (s : State) (x : Cfg) : (s.setCfg x).out = s.out := rfl
@[simp] theorem State.setCfg_rpt (s : State) (x : Cfg) : (s.setCfg x).rpt = s.rpt := rfl
@[simp] theorem State.setCfg_liu (s : State) (x : Cfg) : (s.setCfg x).liu = s.liu := rfl
@[simp] theorem State.setCfg_restart (s : State) (x : Cfg) : (s.setCfg x).restart = s.restart := rfl
@[simp] theorem State.setCfg_heldCauses (s : State) (x : Cfg) : (s.setCfg x).heldCauses = s.heldCauses := rfl
@[simp] theorem State.setCfg_free (s : State) (x : Cfg) : (s.setCfg x).free = s.free := rfl

@[simp] theorem State.setCts_pending (s : State) (x : Cts) : (s.setCts x).pending = s.pending := rfl
@[simp] theorem State.setCts_phase (s : State) (x : Cts) : (s.setCts x).phase = s.phase := rfl
@[simp] theorem State.setCts_cfg (s : State) (x : Cts) : (s.setCts x).cfg = s.cfg := rfl
@[simp] theorem State.setCts_cts (s : State) (x : Cts) : (s.setCts x).cts = x := rfl
@[simp] theorem State.setCts_pins (s : State) (x : Cts) : (s.setCts x).pins = s.pins := rfl
@[simp] theorem State.setCts_sen (s : State) (x : Cts) : (s.setCts x).sen = s.sen := rfl
@[simp] theorem State.setCts_dsq (s : State) (x : Cts) : (s.setCts x).dsq = s.dsq := rfl
@[simp] theorem State.setCts_bgu (s : State) (x : Cts) : (s.setCts x).bgu = s.bgu := rfl
@[simp] theorem State.setCts_ort (s : State) (x : Cts) : (s.setCts x).ort = s.ort := rfl
@[simp] theorem State.setCts_clk (s : State) (x : Cts) : (s.setCts x).clk = s.clk := rfl
@[simp] theorem State.setCts_quoteCounter (s : State) (x : Cts) : (s.setCts x).quoteCounter = s.quoteCounter := rfl
@[simp] theorem State.setCts_out (s : State) (x : Cts) : (s.setCts x).out = s.out := rfl
@[simp] theorem State.setCts_rpt (s : State) (x : Cts) : (s.setCts x).rpt = s.rpt := rfl
@[simp] theorem State.setCts_liu (s : State) (x : Cts) : (s.setCts x).liu = s.liu := rfl
@[simp] theorem State.setCts_restart (s : State) (x : Cts) : (s.setCts x).restart = s.restart := rfl
@[simp] theorem State.setCts_heldCauses (s : State) (x : Cts) : (s.setCts x).heldCauses = s.heldCauses := rfl
@[simp] theorem State.setCts_free (s : State) (x : Cts) : (s.setCts x).free = s.free := rfl

@[simp] theorem State.setPins_pending (s : State) (x : Table Pins) : (s.setPins x).pending = s.pending := rfl
@[simp] theorem State.setPins_phase (s : State) (x : Table Pins) : (s.setPins x).phase = s.phase := rfl
@[simp] theorem State.setPins_cfg (s : State) (x : Table Pins) : (s.setPins x).cfg = s.cfg := rfl
@[simp] theorem State.setPins_cts (s : State) (x : Table Pins) : (s.setPins x).cts = s.cts := rfl
@[simp] theorem State.setPins_pins (s : State) (x : Table Pins) : (s.setPins x).pins = x := rfl
@[simp] theorem State.setPins_sen (s : State) (x : Table Pins) : (s.setPins x).sen = s.sen := rfl
@[simp] theorem State.setPins_dsq (s : State) (x : Table Pins) : (s.setPins x).dsq = s.dsq := rfl
@[simp] theorem State.setPins_bgu (s : State) (x : Table Pins) : (s.setPins x).bgu = s.bgu := rfl
@[simp] theorem State.setPins_ort (s : State) (x : Table Pins) : (s.setPins x).ort = s.ort := rfl
@[simp] theorem State.setPins_clk (s : State) (x : Table Pins) : (s.setPins x).clk = s.clk := rfl
@[simp] theorem State.setPins_quoteCounter (s : State) (x : Table Pins) : (s.setPins x).quoteCounter = s.quoteCounter := rfl
@[simp] theorem State.setPins_out (s : State) (x : Table Pins) : (s.setPins x).out = s.out := rfl
@[simp] theorem State.setPins_rpt (s : State) (x : Table Pins) : (s.setPins x).rpt = s.rpt := rfl
@[simp] theorem State.setPins_liu (s : State) (x : Table Pins) : (s.setPins x).liu = s.liu := rfl
@[simp] theorem State.setPins_restart (s : State) (x : Table Pins) : (s.setPins x).restart = s.restart := rfl
@[simp] theorem State.setPins_heldCauses (s : State) (x : Table Pins) : (s.setPins x).heldCauses = s.heldCauses := rfl
@[simp] theorem State.setPins_free (s : State) (x : Table Pins) : (s.setPins x).free = s.free := rfl

@[simp] theorem State.setSen_pending (s : State) (x : Table Sense) : (s.setSen x).pending = s.pending := rfl
@[simp] theorem State.setSen_phase (s : State) (x : Table Sense) : (s.setSen x).phase = s.phase := rfl
@[simp] theorem State.setSen_cfg (s : State) (x : Table Sense) : (s.setSen x).cfg = s.cfg := rfl
@[simp] theorem State.setSen_cts (s : State) (x : Table Sense) : (s.setSen x).cts = s.cts := rfl
@[simp] theorem State.setSen_pins (s : State) (x : Table Sense) : (s.setSen x).pins = s.pins := rfl
@[simp] theorem State.setSen_sen (s : State) (x : Table Sense) : (s.setSen x).sen = x := rfl
@[simp] theorem State.setSen_dsq (s : State) (x : Table Sense) : (s.setSen x).dsq = s.dsq := rfl
@[simp] theorem State.setSen_bgu (s : State) (x : Table Sense) : (s.setSen x).bgu = s.bgu := rfl
@[simp] theorem State.setSen_ort (s : State) (x : Table Sense) : (s.setSen x).ort = s.ort := rfl
@[simp] theorem State.setSen_clk (s : State) (x : Table Sense) : (s.setSen x).clk = s.clk := rfl
@[simp] theorem State.setSen_quoteCounter (s : State) (x : Table Sense) : (s.setSen x).quoteCounter = s.quoteCounter := rfl
@[simp] theorem State.setSen_out (s : State) (x : Table Sense) : (s.setSen x).out = s.out := rfl
@[simp] theorem State.setSen_rpt (s : State) (x : Table Sense) : (s.setSen x).rpt = s.rpt := rfl
@[simp] theorem State.setSen_liu (s : State) (x : Table Sense) : (s.setSen x).liu = s.liu := rfl
@[simp] theorem State.setSen_restart (s : State) (x : Table Sense) : (s.setSen x).restart = s.restart := rfl
@[simp] theorem State.setSen_heldCauses (s : State) (x : Table Sense) : (s.setSen x).heldCauses = s.heldCauses := rfl
@[simp] theorem State.setSen_free (s : State) (x : Table Sense) : (s.setSen x).free = s.free := rfl

@[simp] theorem State.setDsq_pending (s : State) (x : Dsq) : (s.setDsq x).pending = s.pending := rfl
@[simp] theorem State.setDsq_phase (s : State) (x : Dsq) : (s.setDsq x).phase = s.phase := rfl
@[simp] theorem State.setDsq_cfg (s : State) (x : Dsq) : (s.setDsq x).cfg = s.cfg := rfl
@[simp] theorem State.setDsq_cts (s : State) (x : Dsq) : (s.setDsq x).cts = s.cts := rfl
@[simp] theorem State.setDsq_pins (s : State) (x : Dsq) : (s.setDsq x).pins = s.pins := rfl
@[simp] theorem State.setDsq_sen (s : State) (x : Dsq) : (s.setDsq x).sen = s.sen := rfl
@[simp] theorem State.setDsq_dsq (s : State) (x : Dsq) : (s.setDsq x).dsq = x := rfl
@[simp] theorem State.setDsq_bgu (s : State) (x : Dsq) : (s.setDsq x).bgu = s.bgu := rfl
@[simp] theorem State.setDsq_ort (s : State) (x : Dsq) : (s.setDsq x).ort = s.ort := rfl
@[simp] theorem State.setDsq_clk (s : State) (x : Dsq) : (s.setDsq x).clk = s.clk := rfl
@[simp] theorem State.setDsq_quoteCounter (s : State) (x : Dsq) : (s.setDsq x).quoteCounter = s.quoteCounter := rfl
@[simp] theorem State.setDsq_out (s : State) (x : Dsq) : (s.setDsq x).out = s.out := rfl
@[simp] theorem State.setDsq_rpt (s : State) (x : Dsq) : (s.setDsq x).rpt = s.rpt := rfl
@[simp] theorem State.setDsq_liu (s : State) (x : Dsq) : (s.setDsq x).liu = s.liu := rfl
@[simp] theorem State.setDsq_restart (s : State) (x : Dsq) : (s.setDsq x).restart = s.restart := rfl
@[simp] theorem State.setDsq_heldCauses (s : State) (x : Dsq) : (s.setDsq x).heldCauses = s.heldCauses := rfl
@[simp] theorem State.setDsq_free (s : State) (x : Dsq) : (s.setDsq x).free = s.free := rfl

@[simp] theorem State.setBgu_pending (s : State) (x : Bgu) : (s.setBgu x).pending = s.pending := rfl
@[simp] theorem State.setBgu_phase (s : State) (x : Bgu) : (s.setBgu x).phase = s.phase := rfl
@[simp] theorem State.setBgu_cfg (s : State) (x : Bgu) : (s.setBgu x).cfg = s.cfg := rfl
@[simp] theorem State.setBgu_cts (s : State) (x : Bgu) : (s.setBgu x).cts = s.cts := rfl
@[simp] theorem State.setBgu_pins (s : State) (x : Bgu) : (s.setBgu x).pins = s.pins := rfl
@[simp] theorem State.setBgu_sen (s : State) (x : Bgu) : (s.setBgu x).sen = s.sen := rfl
@[simp] theorem State.setBgu_dsq (s : State) (x : Bgu) : (s.setBgu x).dsq = s.dsq := rfl
@[simp] theorem State.setBgu_bgu (s : State) (x : Bgu) : (s.setBgu x).bgu = x := rfl
@[simp] theorem State.setBgu_ort (s : State) (x : Bgu) : (s.setBgu x).ort = s.ort := rfl
@[simp] theorem State.setBgu_clk (s : State) (x : Bgu) : (s.setBgu x).clk = s.clk := rfl
@[simp] theorem State.setBgu_quoteCounter (s : State) (x : Bgu) : (s.setBgu x).quoteCounter = s.quoteCounter := rfl
@[simp] theorem State.setBgu_out (s : State) (x : Bgu) : (s.setBgu x).out = s.out := rfl
@[simp] theorem State.setBgu_rpt (s : State) (x : Bgu) : (s.setBgu x).rpt = s.rpt := rfl
@[simp] theorem State.setBgu_liu (s : State) (x : Bgu) : (s.setBgu x).liu = s.liu := rfl
@[simp] theorem State.setBgu_restart (s : State) (x : Bgu) : (s.setBgu x).restart = s.restart := rfl
@[simp] theorem State.setBgu_heldCauses (s : State) (x : Bgu) : (s.setBgu x).heldCauses = s.heldCauses := rfl
@[simp] theorem State.setBgu_free (s : State) (x : Bgu) : (s.setBgu x).free = s.free := rfl

@[simp] theorem State.setOrt_pending (s : State) (x : List Entry) : (s.setOrt x).pending = s.pending := rfl
@[simp] theorem State.setOrt_phase (s : State) (x : List Entry) : (s.setOrt x).phase = s.phase := rfl
@[simp] theorem State.setOrt_cfg (s : State) (x : List Entry) : (s.setOrt x).cfg = s.cfg := rfl
@[simp] theorem State.setOrt_cts (s : State) (x : List Entry) : (s.setOrt x).cts = s.cts := rfl
@[simp] theorem State.setOrt_pins (s : State) (x : List Entry) : (s.setOrt x).pins = s.pins := rfl
@[simp] theorem State.setOrt_sen (s : State) (x : List Entry) : (s.setOrt x).sen = s.sen := rfl
@[simp] theorem State.setOrt_dsq (s : State) (x : List Entry) : (s.setOrt x).dsq = s.dsq := rfl
@[simp] theorem State.setOrt_bgu (s : State) (x : List Entry) : (s.setOrt x).bgu = s.bgu := rfl
@[simp] theorem State.setOrt_ort (s : State) (x : List Entry) : (s.setOrt x).ort = x := rfl
@[simp] theorem State.setOrt_clk (s : State) (x : List Entry) : (s.setOrt x).clk = s.clk := rfl
@[simp] theorem State.setOrt_quoteCounter (s : State) (x : List Entry) : (s.setOrt x).quoteCounter = s.quoteCounter := rfl
@[simp] theorem State.setOrt_out (s : State) (x : List Entry) : (s.setOrt x).out = s.out := rfl
@[simp] theorem State.setOrt_rpt (s : State) (x : List Entry) : (s.setOrt x).rpt = s.rpt := rfl
@[simp] theorem State.setOrt_liu (s : State) (x : List Entry) : (s.setOrt x).liu = s.liu := rfl
@[simp] theorem State.setOrt_restart (s : State) (x : List Entry) : (s.setOrt x).restart = s.restart := rfl
@[simp] theorem State.setOrt_heldCauses (s : State) (x : List Entry) : (s.setOrt x).heldCauses = s.heldCauses := rfl
@[simp] theorem State.setOrt_free (s : State) (x : List Entry) : (s.setOrt x).free = s.free := rfl

@[simp] theorem State.setClk_pending (s : State) (x : Clk) : (s.setClk x).pending = s.pending := rfl
@[simp] theorem State.setClk_phase (s : State) (x : Clk) : (s.setClk x).phase = s.phase := rfl
@[simp] theorem State.setClk_cfg (s : State) (x : Clk) : (s.setClk x).cfg = s.cfg := rfl
@[simp] theorem State.setClk_cts (s : State) (x : Clk) : (s.setClk x).cts = s.cts := rfl
@[simp] theorem State.setClk_pins (s : State) (x : Clk) : (s.setClk x).pins = s.pins := rfl
@[simp] theorem State.setClk_sen (s : State) (x : Clk) : (s.setClk x).sen = s.sen := rfl
@[simp] theorem State.setClk_dsq (s : State) (x : Clk) : (s.setClk x).dsq = s.dsq := rfl
@[simp] theorem State.setClk_bgu (s : State) (x : Clk) : (s.setClk x).bgu = s.bgu := rfl
@[simp] theorem State.setClk_ort (s : State) (x : Clk) : (s.setClk x).ort = s.ort := rfl
@[simp] theorem State.setClk_clk (s : State) (x : Clk) : (s.setClk x).clk = x := rfl
@[simp] theorem State.setClk_quoteCounter (s : State) (x : Clk) : (s.setClk x).quoteCounter = s.quoteCounter := rfl
@[simp] theorem State.setClk_out (s : State) (x : Clk) : (s.setClk x).out = s.out := rfl
@[simp] theorem State.setClk_rpt (s : State) (x : Clk) : (s.setClk x).rpt = s.rpt := rfl
@[simp] theorem State.setClk_liu (s : State) (x : Clk) : (s.setClk x).liu = s.liu := rfl
@[simp] theorem State.setClk_restart (s : State) (x : Clk) : (s.setClk x).restart = s.restart := rfl
@[simp] theorem State.setClk_heldCauses (s : State) (x : Clk) : (s.setClk x).heldCauses = s.heldCauses := rfl
@[simp] theorem State.setClk_free (s : State) (x : Clk) : (s.setClk x).free = s.free := rfl

@[simp] theorem State.setQuoteCounter_pending (s : State) (x : BitVec 16) : (s.setQuoteCounter x).pending = s.pending := rfl
@[simp] theorem State.setQuoteCounter_phase (s : State) (x : BitVec 16) : (s.setQuoteCounter x).phase = s.phase := rfl
@[simp] theorem State.setQuoteCounter_cfg (s : State) (x : BitVec 16) : (s.setQuoteCounter x).cfg = s.cfg := rfl
@[simp] theorem State.setQuoteCounter_cts (s : State) (x : BitVec 16) : (s.setQuoteCounter x).cts = s.cts := rfl
@[simp] theorem State.setQuoteCounter_pins (s : State) (x : BitVec 16) : (s.setQuoteCounter x).pins = s.pins := rfl
@[simp] theorem State.setQuoteCounter_sen (s : State) (x : BitVec 16) : (s.setQuoteCounter x).sen = s.sen := rfl
@[simp] theorem State.setQuoteCounter_dsq (s : State) (x : BitVec 16) : (s.setQuoteCounter x).dsq = s.dsq := rfl
@[simp] theorem State.setQuoteCounter_bgu (s : State) (x : BitVec 16) : (s.setQuoteCounter x).bgu = s.bgu := rfl
@[simp] theorem State.setQuoteCounter_ort (s : State) (x : BitVec 16) : (s.setQuoteCounter x).ort = s.ort := rfl
@[simp] theorem State.setQuoteCounter_clk (s : State) (x : BitVec 16) : (s.setQuoteCounter x).clk = s.clk := rfl
@[simp] theorem State.setQuoteCounter_quoteCounter (s : State) (x : BitVec 16) : (s.setQuoteCounter x).quoteCounter = x := rfl
@[simp] theorem State.setQuoteCounter_out (s : State) (x : BitVec 16) : (s.setQuoteCounter x).out = s.out := rfl
@[simp] theorem State.setQuoteCounter_rpt (s : State) (x : BitVec 16) : (s.setQuoteCounter x).rpt = s.rpt := rfl
@[simp] theorem State.setQuoteCounter_liu (s : State) (x : BitVec 16) : (s.setQuoteCounter x).liu = s.liu := rfl
@[simp] theorem State.setQuoteCounter_restart (s : State) (x : BitVec 16) : (s.setQuoteCounter x).restart = s.restart := rfl
@[simp] theorem State.setQuoteCounter_heldCauses (s : State) (x : BitVec 16) : (s.setQuoteCounter x).heldCauses = s.heldCauses := rfl
@[simp] theorem State.setQuoteCounter_free (s : State) (x : BitVec 16) : (s.setQuoteCounter x).free = s.free := rfl

@[simp] theorem State.setOut_pending (s : State) (x : Out) : (s.setOut x).pending = s.pending := rfl
@[simp] theorem State.setOut_phase (s : State) (x : Out) : (s.setOut x).phase = s.phase := rfl
@[simp] theorem State.setOut_cfg (s : State) (x : Out) : (s.setOut x).cfg = s.cfg := rfl
@[simp] theorem State.setOut_cts (s : State) (x : Out) : (s.setOut x).cts = s.cts := rfl
@[simp] theorem State.setOut_pins (s : State) (x : Out) : (s.setOut x).pins = s.pins := rfl
@[simp] theorem State.setOut_sen (s : State) (x : Out) : (s.setOut x).sen = s.sen := rfl
@[simp] theorem State.setOut_dsq (s : State) (x : Out) : (s.setOut x).dsq = s.dsq := rfl
@[simp] theorem State.setOut_bgu (s : State) (x : Out) : (s.setOut x).bgu = s.bgu := rfl
@[simp] theorem State.setOut_ort (s : State) (x : Out) : (s.setOut x).ort = s.ort := rfl
@[simp] theorem State.setOut_clk (s : State) (x : Out) : (s.setOut x).clk = s.clk := rfl
@[simp] theorem State.setOut_quoteCounter (s : State) (x : Out) : (s.setOut x).quoteCounter = s.quoteCounter := rfl
@[simp] theorem State.setOut_out (s : State) (x : Out) : (s.setOut x).out = x := rfl
@[simp] theorem State.setOut_rpt (s : State) (x : Out) : (s.setOut x).rpt = s.rpt := rfl
@[simp] theorem State.setOut_liu (s : State) (x : Out) : (s.setOut x).liu = s.liu := rfl
@[simp] theorem State.setOut_restart (s : State) (x : Out) : (s.setOut x).restart = s.restart := rfl
@[simp] theorem State.setOut_heldCauses (s : State) (x : Out) : (s.setOut x).heldCauses = s.heldCauses := rfl
@[simp] theorem State.setOut_free (s : State) (x : Out) : (s.setOut x).free = s.free := rfl

@[simp] theorem State.setRpt_pending (s : State) (x : Rpt) : (s.setRpt x).pending = s.pending := rfl
@[simp] theorem State.setRpt_phase (s : State) (x : Rpt) : (s.setRpt x).phase = s.phase := rfl
@[simp] theorem State.setRpt_cfg (s : State) (x : Rpt) : (s.setRpt x).cfg = s.cfg := rfl
@[simp] theorem State.setRpt_cts (s : State) (x : Rpt) : (s.setRpt x).cts = s.cts := rfl
@[simp] theorem State.setRpt_pins (s : State) (x : Rpt) : (s.setRpt x).pins = s.pins := rfl
@[simp] theorem State.setRpt_sen (s : State) (x : Rpt) : (s.setRpt x).sen = s.sen := rfl
@[simp] theorem State.setRpt_dsq (s : State) (x : Rpt) : (s.setRpt x).dsq = s.dsq := rfl
@[simp] theorem State.setRpt_bgu (s : State) (x : Rpt) : (s.setRpt x).bgu = s.bgu := rfl
@[simp] theorem State.setRpt_ort (s : State) (x : Rpt) : (s.setRpt x).ort = s.ort := rfl
@[simp] theorem State.setRpt_clk (s : State) (x : Rpt) : (s.setRpt x).clk = s.clk := rfl
@[simp] theorem State.setRpt_quoteCounter (s : State) (x : Rpt) : (s.setRpt x).quoteCounter = s.quoteCounter := rfl
@[simp] theorem State.setRpt_out (s : State) (x : Rpt) : (s.setRpt x).out = s.out := rfl
@[simp] theorem State.setRpt_rpt (s : State) (x : Rpt) : (s.setRpt x).rpt = x := rfl
@[simp] theorem State.setRpt_liu (s : State) (x : Rpt) : (s.setRpt x).liu = s.liu := rfl
@[simp] theorem State.setRpt_restart (s : State) (x : Rpt) : (s.setRpt x).restart = s.restart := rfl
@[simp] theorem State.setRpt_heldCauses (s : State) (x : Rpt) : (s.setRpt x).heldCauses = s.heldCauses := rfl
@[simp] theorem State.setRpt_free (s : State) (x : Rpt) : (s.setRpt x).free = s.free := rfl

@[simp] theorem State.setLiu_pending (s : State) (x : Liu) : (s.setLiu x).pending = s.pending := rfl
@[simp] theorem State.setLiu_phase (s : State) (x : Liu) : (s.setLiu x).phase = s.phase := rfl
@[simp] theorem State.setLiu_cfg (s : State) (x : Liu) : (s.setLiu x).cfg = s.cfg := rfl
@[simp] theorem State.setLiu_cts (s : State) (x : Liu) : (s.setLiu x).cts = s.cts := rfl
@[simp] theorem State.setLiu_pins (s : State) (x : Liu) : (s.setLiu x).pins = s.pins := rfl
@[simp] theorem State.setLiu_sen (s : State) (x : Liu) : (s.setLiu x).sen = s.sen := rfl
@[simp] theorem State.setLiu_dsq (s : State) (x : Liu) : (s.setLiu x).dsq = s.dsq := rfl
@[simp] theorem State.setLiu_bgu (s : State) (x : Liu) : (s.setLiu x).bgu = s.bgu := rfl
@[simp] theorem State.setLiu_ort (s : State) (x : Liu) : (s.setLiu x).ort = s.ort := rfl
@[simp] theorem State.setLiu_clk (s : State) (x : Liu) : (s.setLiu x).clk = s.clk := rfl
@[simp] theorem State.setLiu_quoteCounter (s : State) (x : Liu) : (s.setLiu x).quoteCounter = s.quoteCounter := rfl
@[simp] theorem State.setLiu_out (s : State) (x : Liu) : (s.setLiu x).out = s.out := rfl
@[simp] theorem State.setLiu_rpt (s : State) (x : Liu) : (s.setLiu x).rpt = s.rpt := rfl
@[simp] theorem State.setLiu_liu (s : State) (x : Liu) : (s.setLiu x).liu = x := rfl
@[simp] theorem State.setLiu_restart (s : State) (x : Liu) : (s.setLiu x).restart = s.restart := rfl
@[simp] theorem State.setLiu_heldCauses (s : State) (x : Liu) : (s.setLiu x).heldCauses = s.heldCauses := rfl
@[simp] theorem State.setLiu_free (s : State) (x : Liu) : (s.setLiu x).free = s.free := rfl

@[simp] theorem State.setRestart_pending (s : State) (x : Bool) : (s.setRestart x).pending = s.pending := rfl
@[simp] theorem State.setRestart_phase (s : State) (x : Bool) : (s.setRestart x).phase = s.phase := rfl
@[simp] theorem State.setRestart_cfg (s : State) (x : Bool) : (s.setRestart x).cfg = s.cfg := rfl
@[simp] theorem State.setRestart_cts (s : State) (x : Bool) : (s.setRestart x).cts = s.cts := rfl
@[simp] theorem State.setRestart_pins (s : State) (x : Bool) : (s.setRestart x).pins = s.pins := rfl
@[simp] theorem State.setRestart_sen (s : State) (x : Bool) : (s.setRestart x).sen = s.sen := rfl
@[simp] theorem State.setRestart_dsq (s : State) (x : Bool) : (s.setRestart x).dsq = s.dsq := rfl
@[simp] theorem State.setRestart_bgu (s : State) (x : Bool) : (s.setRestart x).bgu = s.bgu := rfl
@[simp] theorem State.setRestart_ort (s : State) (x : Bool) : (s.setRestart x).ort = s.ort := rfl
@[simp] theorem State.setRestart_clk (s : State) (x : Bool) : (s.setRestart x).clk = s.clk := rfl
@[simp] theorem State.setRestart_quoteCounter (s : State) (x : Bool) : (s.setRestart x).quoteCounter = s.quoteCounter := rfl
@[simp] theorem State.setRestart_out (s : State) (x : Bool) : (s.setRestart x).out = s.out := rfl
@[simp] theorem State.setRestart_rpt (s : State) (x : Bool) : (s.setRestart x).rpt = s.rpt := rfl
@[simp] theorem State.setRestart_liu (s : State) (x : Bool) : (s.setRestart x).liu = s.liu := rfl
@[simp] theorem State.setRestart_restart (s : State) (x : Bool) : (s.setRestart x).restart = x := rfl
@[simp] theorem State.setRestart_heldCauses (s : State) (x : Bool) : (s.setRestart x).heldCauses = s.heldCauses := rfl
@[simp] theorem State.setRestart_free (s : State) (x : Bool) : (s.setRestart x).free = s.free := rfl

@[simp] theorem State.setHeldCauses_pending (s : State) (x : Causes) : (s.setHeldCauses x).pending = s.pending := rfl
@[simp] theorem State.setHeldCauses_phase (s : State) (x : Causes) : (s.setHeldCauses x).phase = s.phase := rfl
@[simp] theorem State.setHeldCauses_cfg (s : State) (x : Causes) : (s.setHeldCauses x).cfg = s.cfg := rfl
@[simp] theorem State.setHeldCauses_cts (s : State) (x : Causes) : (s.setHeldCauses x).cts = s.cts := rfl
@[simp] theorem State.setHeldCauses_pins (s : State) (x : Causes) : (s.setHeldCauses x).pins = s.pins := rfl
@[simp] theorem State.setHeldCauses_sen (s : State) (x : Causes) : (s.setHeldCauses x).sen = s.sen := rfl
@[simp] theorem State.setHeldCauses_dsq (s : State) (x : Causes) : (s.setHeldCauses x).dsq = s.dsq := rfl
@[simp] theorem State.setHeldCauses_bgu (s : State) (x : Causes) : (s.setHeldCauses x).bgu = s.bgu := rfl
@[simp] theorem State.setHeldCauses_ort (s : State) (x : Causes) : (s.setHeldCauses x).ort = s.ort := rfl
@[simp] theorem State.setHeldCauses_clk (s : State) (x : Causes) : (s.setHeldCauses x).clk = s.clk := rfl
@[simp] theorem State.setHeldCauses_quoteCounter (s : State) (x : Causes) : (s.setHeldCauses x).quoteCounter = s.quoteCounter := rfl
@[simp] theorem State.setHeldCauses_out (s : State) (x : Causes) : (s.setHeldCauses x).out = s.out := rfl
@[simp] theorem State.setHeldCauses_rpt (s : State) (x : Causes) : (s.setHeldCauses x).rpt = s.rpt := rfl
@[simp] theorem State.setHeldCauses_liu (s : State) (x : Causes) : (s.setHeldCauses x).liu = s.liu := rfl
@[simp] theorem State.setHeldCauses_restart (s : State) (x : Causes) : (s.setHeldCauses x).restart = s.restart := rfl
@[simp] theorem State.setHeldCauses_heldCauses (s : State) (x : Causes) : (s.setHeldCauses x).heldCauses = x := rfl
@[simp] theorem State.setHeldCauses_free (s : State) (x : Causes) : (s.setHeldCauses x).free = s.free := rfl

@[simp] theorem State.setFree_pending (s : State) (x : Nat) : (s.setFree x).pending = s.pending := rfl
@[simp] theorem State.setFree_phase (s : State) (x : Nat) : (s.setFree x).phase = s.phase := rfl
@[simp] theorem State.setFree_cfg (s : State) (x : Nat) : (s.setFree x).cfg = s.cfg := rfl
@[simp] theorem State.setFree_cts (s : State) (x : Nat) : (s.setFree x).cts = s.cts := rfl
@[simp] theorem State.setFree_pins (s : State) (x : Nat) : (s.setFree x).pins = s.pins := rfl
@[simp] theorem State.setFree_sen (s : State) (x : Nat) : (s.setFree x).sen = s.sen := rfl
@[simp] theorem State.setFree_dsq (s : State) (x : Nat) : (s.setFree x).dsq = s.dsq := rfl
@[simp] theorem State.setFree_bgu (s : State) (x : Nat) : (s.setFree x).bgu = s.bgu := rfl
@[simp] theorem State.setFree_ort (s : State) (x : Nat) : (s.setFree x).ort = s.ort := rfl
@[simp] theorem State.setFree_clk (s : State) (x : Nat) : (s.setFree x).clk = s.clk := rfl
@[simp] theorem State.setFree_quoteCounter (s : State) (x : Nat) : (s.setFree x).quoteCounter = s.quoteCounter := rfl
@[simp] theorem State.setFree_out (s : State) (x : Nat) : (s.setFree x).out = s.out := rfl
@[simp] theorem State.setFree_rpt (s : State) (x : Nat) : (s.setFree x).rpt = s.rpt := rfl
@[simp] theorem State.setFree_liu (s : State) (x : Nat) : (s.setFree x).liu = s.liu := rfl
@[simp] theorem State.setFree_restart (s : State) (x : Nat) : (s.setFree x).restart = s.restart := rfl
@[simp] theorem State.setFree_heldCauses (s : State) (x : Nat) : (s.setFree x).heldCauses = s.heldCauses := rfl
@[simp] theorem State.setFree_free (s : State) (x : Nat) : (s.setFree x).free = x := rfl

/-! ## Each field after an update of one entry or one sub-block -/

@[simp] theorem State.setRec_pending (s : State) (slot : Slot) (r : CompRec) : (s.setRec slot r).pending = s.pending := rfl
@[simp] theorem State.setRec_phase (s : State) (slot : Slot) (r : CompRec) : (s.setRec slot r).phase = s.phase := rfl
@[simp] theorem State.setRec_cfg (s : State) (slot : Slot) (r : CompRec) : (s.setRec slot r).cfg = s.cfg := rfl
@[simp] theorem State.setRec_pins (s : State) (slot : Slot) (r : CompRec) : (s.setRec slot r).pins = s.pins := rfl
@[simp] theorem State.setRec_sen (s : State) (slot : Slot) (r : CompRec) : (s.setRec slot r).sen = s.sen := rfl
@[simp] theorem State.setRec_dsq (s : State) (slot : Slot) (r : CompRec) : (s.setRec slot r).dsq = s.dsq := rfl
@[simp] theorem State.setRec_bgu (s : State) (slot : Slot) (r : CompRec) : (s.setRec slot r).bgu = s.bgu := rfl
@[simp] theorem State.setRec_ort (s : State) (slot : Slot) (r : CompRec) : (s.setRec slot r).ort = s.ort := rfl
@[simp] theorem State.setRec_clk (s : State) (slot : Slot) (r : CompRec) : (s.setRec slot r).clk = s.clk := rfl
@[simp] theorem State.setRec_quoteCounter (s : State) (slot : Slot) (r : CompRec) : (s.setRec slot r).quoteCounter = s.quoteCounter := rfl
@[simp] theorem State.setRec_out (s : State) (slot : Slot) (r : CompRec) : (s.setRec slot r).out = s.out := rfl
@[simp] theorem State.setRec_rpt (s : State) (slot : Slot) (r : CompRec) : (s.setRec slot r).rpt = s.rpt := rfl
@[simp] theorem State.setRec_liu (s : State) (slot : Slot) (r : CompRec) : (s.setRec slot r).liu = s.liu := rfl
@[simp] theorem State.setRec_restart (s : State) (slot : Slot) (r : CompRec) : (s.setRec slot r).restart = s.restart := rfl
@[simp] theorem State.setRec_heldCauses (s : State) (slot : Slot) (r : CompRec) : (s.setRec slot r).heldCauses = s.heldCauses := rfl
@[simp] theorem State.setRec_free (s : State) (slot : Slot) (r : CompRec) : (s.setRec slot r).free = s.free := rfl

@[simp] theorem State.setStore_pending (s : State) (slot : Slot) (x : SlotStore) : (s.setStore slot x).pending = s.pending := rfl
@[simp] theorem State.setStore_phase (s : State) (slot : Slot) (x : SlotStore) : (s.setStore slot x).phase = s.phase := rfl
@[simp] theorem State.setStore_cfg (s : State) (slot : Slot) (x : SlotStore) : (s.setStore slot x).cfg = s.cfg := rfl
@[simp] theorem State.setStore_pins (s : State) (slot : Slot) (x : SlotStore) : (s.setStore slot x).pins = s.pins := rfl
@[simp] theorem State.setStore_sen (s : State) (slot : Slot) (x : SlotStore) : (s.setStore slot x).sen = s.sen := rfl
@[simp] theorem State.setStore_dsq (s : State) (slot : Slot) (x : SlotStore) : (s.setStore slot x).dsq = s.dsq := rfl
@[simp] theorem State.setStore_bgu (s : State) (slot : Slot) (x : SlotStore) : (s.setStore slot x).bgu = s.bgu := rfl
@[simp] theorem State.setStore_ort (s : State) (slot : Slot) (x : SlotStore) : (s.setStore slot x).ort = s.ort := rfl
@[simp] theorem State.setStore_clk (s : State) (slot : Slot) (x : SlotStore) : (s.setStore slot x).clk = s.clk := rfl
@[simp] theorem State.setStore_quoteCounter (s : State) (slot : Slot) (x : SlotStore) : (s.setStore slot x).quoteCounter = s.quoteCounter := rfl
@[simp] theorem State.setStore_out (s : State) (slot : Slot) (x : SlotStore) : (s.setStore slot x).out = s.out := rfl
@[simp] theorem State.setStore_rpt (s : State) (slot : Slot) (x : SlotStore) : (s.setStore slot x).rpt = s.rpt := rfl
@[simp] theorem State.setStore_liu (s : State) (slot : Slot) (x : SlotStore) : (s.setStore slot x).liu = s.liu := rfl
@[simp] theorem State.setStore_restart (s : State) (slot : Slot) (x : SlotStore) : (s.setStore slot x).restart = s.restart := rfl
@[simp] theorem State.setStore_heldCauses (s : State) (slot : Slot) (x : SlotStore) : (s.setStore slot x).heldCauses = s.heldCauses := rfl
@[simp] theorem State.setStore_free (s : State) (slot : Slot) (x : SlotStore) : (s.setStore slot x).free = s.free := rfl

@[simp] theorem State.setLocks_pending (s : State) (slot : Slot) (x : Locks) : (s.setLocks slot x).pending = s.pending := rfl
@[simp] theorem State.setLocks_phase (s : State) (slot : Slot) (x : Locks) : (s.setLocks slot x).phase = s.phase := rfl
@[simp] theorem State.setLocks_cfg (s : State) (slot : Slot) (x : Locks) : (s.setLocks slot x).cfg = s.cfg := rfl
@[simp] theorem State.setLocks_pins (s : State) (slot : Slot) (x : Locks) : (s.setLocks slot x).pins = s.pins := rfl
@[simp] theorem State.setLocks_sen (s : State) (slot : Slot) (x : Locks) : (s.setLocks slot x).sen = s.sen := rfl
@[simp] theorem State.setLocks_dsq (s : State) (slot : Slot) (x : Locks) : (s.setLocks slot x).dsq = s.dsq := rfl
@[simp] theorem State.setLocks_bgu (s : State) (slot : Slot) (x : Locks) : (s.setLocks slot x).bgu = s.bgu := rfl
@[simp] theorem State.setLocks_ort (s : State) (slot : Slot) (x : Locks) : (s.setLocks slot x).ort = s.ort := rfl
@[simp] theorem State.setLocks_clk (s : State) (slot : Slot) (x : Locks) : (s.setLocks slot x).clk = s.clk := rfl
@[simp] theorem State.setLocks_quoteCounter (s : State) (slot : Slot) (x : Locks) : (s.setLocks slot x).quoteCounter = s.quoteCounter := rfl
@[simp] theorem State.setLocks_out (s : State) (slot : Slot) (x : Locks) : (s.setLocks slot x).out = s.out := rfl
@[simp] theorem State.setLocks_rpt (s : State) (slot : Slot) (x : Locks) : (s.setLocks slot x).rpt = s.rpt := rfl
@[simp] theorem State.setLocks_liu (s : State) (slot : Slot) (x : Locks) : (s.setLocks slot x).liu = s.liu := rfl
@[simp] theorem State.setLocks_restart (s : State) (slot : Slot) (x : Locks) : (s.setLocks slot x).restart = s.restart := rfl
@[simp] theorem State.setLocks_heldCauses (s : State) (slot : Slot) (x : Locks) : (s.setLocks slot x).heldCauses = s.heldCauses := rfl
@[simp] theorem State.setLocks_free (s : State) (slot : Slot) (x : Locks) : (s.setLocks slot x).free = s.free := rfl

@[simp] theorem State.setSense_pending (s : State) (slot : Slot) (x : Sense) : (s.setSense slot x).pending = s.pending := rfl
@[simp] theorem State.setSense_phase (s : State) (slot : Slot) (x : Sense) : (s.setSense slot x).phase = s.phase := rfl
@[simp] theorem State.setSense_cfg (s : State) (slot : Slot) (x : Sense) : (s.setSense slot x).cfg = s.cfg := rfl
@[simp] theorem State.setSense_cts (s : State) (slot : Slot) (x : Sense) : (s.setSense slot x).cts = s.cts := rfl
@[simp] theorem State.setSense_pins (s : State) (slot : Slot) (x : Sense) : (s.setSense slot x).pins = s.pins := rfl
@[simp] theorem State.setSense_dsq (s : State) (slot : Slot) (x : Sense) : (s.setSense slot x).dsq = s.dsq := rfl
@[simp] theorem State.setSense_bgu (s : State) (slot : Slot) (x : Sense) : (s.setSense slot x).bgu = s.bgu := rfl
@[simp] theorem State.setSense_ort (s : State) (slot : Slot) (x : Sense) : (s.setSense slot x).ort = s.ort := rfl
@[simp] theorem State.setSense_clk (s : State) (slot : Slot) (x : Sense) : (s.setSense slot x).clk = s.clk := rfl
@[simp] theorem State.setSense_quoteCounter (s : State) (slot : Slot) (x : Sense) : (s.setSense slot x).quoteCounter = s.quoteCounter := rfl
@[simp] theorem State.setSense_out (s : State) (slot : Slot) (x : Sense) : (s.setSense slot x).out = s.out := rfl
@[simp] theorem State.setSense_rpt (s : State) (slot : Slot) (x : Sense) : (s.setSense slot x).rpt = s.rpt := rfl
@[simp] theorem State.setSense_liu (s : State) (slot : Slot) (x : Sense) : (s.setSense slot x).liu = s.liu := rfl
@[simp] theorem State.setSense_restart (s : State) (slot : Slot) (x : Sense) : (s.setSense slot x).restart = s.restart := rfl
@[simp] theorem State.setSense_heldCauses (s : State) (slot : Slot) (x : Sense) : (s.setSense slot x).heldCauses = s.heldCauses := rfl
@[simp] theorem State.setSense_free (s : State) (slot : Slot) (x : Sense) : (s.setSense slot x).free = s.free := rfl

@[simp] theorem State.setTx_pending (s : State) (q : List TxFrame) : (s.setTx q).pending = s.pending := rfl
@[simp] theorem State.setTx_phase (s : State) (q : List TxFrame) : (s.setTx q).phase = s.phase := rfl
@[simp] theorem State.setTx_cfg (s : State) (q : List TxFrame) : (s.setTx q).cfg = s.cfg := rfl
@[simp] theorem State.setTx_cts (s : State) (q : List TxFrame) : (s.setTx q).cts = s.cts := rfl
@[simp] theorem State.setTx_pins (s : State) (q : List TxFrame) : (s.setTx q).pins = s.pins := rfl
@[simp] theorem State.setTx_sen (s : State) (q : List TxFrame) : (s.setTx q).sen = s.sen := rfl
@[simp] theorem State.setTx_dsq (s : State) (q : List TxFrame) : (s.setTx q).dsq = s.dsq := rfl
@[simp] theorem State.setTx_bgu (s : State) (q : List TxFrame) : (s.setTx q).bgu = s.bgu := rfl
@[simp] theorem State.setTx_ort (s : State) (q : List TxFrame) : (s.setTx q).ort = s.ort := rfl
@[simp] theorem State.setTx_clk (s : State) (q : List TxFrame) : (s.setTx q).clk = s.clk := rfl
@[simp] theorem State.setTx_quoteCounter (s : State) (q : List TxFrame) : (s.setTx q).quoteCounter = s.quoteCounter := rfl
@[simp] theorem State.setTx_out (s : State) (q : List TxFrame) : (s.setTx q).out = s.out := rfl
@[simp] theorem State.setTx_rpt (s : State) (q : List TxFrame) : (s.setTx q).rpt = s.rpt := rfl
@[simp] theorem State.setTx_restart (s : State) (q : List TxFrame) : (s.setTx q).restart = s.restart := rfl
@[simp] theorem State.setTx_heldCauses (s : State) (q : List TxFrame) : (s.setTx q).heldCauses = s.heldCauses := rfl
@[simp] theorem State.setTx_free (s : State) (q : List TxFrame) : (s.setTx q).free = s.free := rfl

@[simp] theorem State.setOwn_pending (s : State) (o : OwnNote) : (s.setOwn o).pending = s.pending := rfl
@[simp] theorem State.setOwn_phase (s : State) (o : OwnNote) : (s.setOwn o).phase = s.phase := rfl
@[simp] theorem State.setOwn_cfg (s : State) (o : OwnNote) : (s.setOwn o).cfg = s.cfg := rfl
@[simp] theorem State.setOwn_cts (s : State) (o : OwnNote) : (s.setOwn o).cts = s.cts := rfl
@[simp] theorem State.setOwn_pins (s : State) (o : OwnNote) : (s.setOwn o).pins = s.pins := rfl
@[simp] theorem State.setOwn_sen (s : State) (o : OwnNote) : (s.setOwn o).sen = s.sen := rfl
@[simp] theorem State.setOwn_dsq (s : State) (o : OwnNote) : (s.setOwn o).dsq = s.dsq := rfl
@[simp] theorem State.setOwn_ort (s : State) (o : OwnNote) : (s.setOwn o).ort = s.ort := rfl
@[simp] theorem State.setOwn_clk (s : State) (o : OwnNote) : (s.setOwn o).clk = s.clk := rfl
@[simp] theorem State.setOwn_quoteCounter (s : State) (o : OwnNote) : (s.setOwn o).quoteCounter = s.quoteCounter := rfl
@[simp] theorem State.setOwn_out (s : State) (o : OwnNote) : (s.setOwn o).out = s.out := rfl
@[simp] theorem State.setOwn_rpt (s : State) (o : OwnNote) : (s.setOwn o).rpt = s.rpt := rfl
@[simp] theorem State.setOwn_liu (s : State) (o : OwnNote) : (s.setOwn o).liu = s.liu := rfl
@[simp] theorem State.setOwn_restart (s : State) (o : OwnNote) : (s.setOwn o).restart = s.restart := rfl
@[simp] theorem State.setOwn_heldCauses (s : State) (o : OwnNote) : (s.setOwn o).heldCauses = s.heldCauses := rfl
@[simp] theorem State.setOwn_free (s : State) (o : OwnNote) : (s.setOwn o).free = s.free := rfl

@[simp] theorem State.setCycle_pending (s : State) (c : Cycle) : (s.setCycle c).pending = s.pending := rfl
@[simp] theorem State.setCycle_phase (s : State) (c : Cycle) : (s.setCycle c).phase = s.phase := rfl
@[simp] theorem State.setCycle_cfg (s : State) (c : Cycle) : (s.setCycle c).cfg = s.cfg := rfl
@[simp] theorem State.setCycle_cts (s : State) (c : Cycle) : (s.setCycle c).cts = s.cts := rfl
@[simp] theorem State.setCycle_pins (s : State) (c : Cycle) : (s.setCycle c).pins = s.pins := rfl
@[simp] theorem State.setCycle_sen (s : State) (c : Cycle) : (s.setCycle c).sen = s.sen := rfl
@[simp] theorem State.setCycle_bgu (s : State) (c : Cycle) : (s.setCycle c).bgu = s.bgu := rfl
@[simp] theorem State.setCycle_ort (s : State) (c : Cycle) : (s.setCycle c).ort = s.ort := rfl
@[simp] theorem State.setCycle_clk (s : State) (c : Cycle) : (s.setCycle c).clk = s.clk := rfl
@[simp] theorem State.setCycle_quoteCounter (s : State) (c : Cycle) : (s.setCycle c).quoteCounter = s.quoteCounter := rfl
@[simp] theorem State.setCycle_out (s : State) (c : Cycle) : (s.setCycle c).out = s.out := rfl
@[simp] theorem State.setCycle_rpt (s : State) (c : Cycle) : (s.setCycle c).rpt = s.rpt := rfl
@[simp] theorem State.setCycle_liu (s : State) (c : Cycle) : (s.setCycle c).liu = s.liu := rfl
@[simp] theorem State.setCycle_restart (s : State) (c : Cycle) : (s.setCycle c).restart = s.restart := rfl
@[simp] theorem State.setCycle_heldCauses (s : State) (c : Cycle) : (s.setCycle c).heldCauses = s.heldCauses := rfl
@[simp] theorem State.setCycle_free (s : State) (c : Cycle) : (s.setCycle c).free = s.free := rfl

@[simp] theorem State.updEntry_pending (s : State) (j : Job) (f : Entry → Entry) : (s.updEntry j f).pending = s.pending := rfl
@[simp] theorem State.updEntry_phase (s : State) (j : Job) (f : Entry → Entry) : (s.updEntry j f).phase = s.phase := rfl
@[simp] theorem State.updEntry_cfg (s : State) (j : Job) (f : Entry → Entry) : (s.updEntry j f).cfg = s.cfg := rfl
@[simp] theorem State.updEntry_cts (s : State) (j : Job) (f : Entry → Entry) : (s.updEntry j f).cts = s.cts := rfl
@[simp] theorem State.updEntry_pins (s : State) (j : Job) (f : Entry → Entry) : (s.updEntry j f).pins = s.pins := rfl
@[simp] theorem State.updEntry_sen (s : State) (j : Job) (f : Entry → Entry) : (s.updEntry j f).sen = s.sen := rfl
@[simp] theorem State.updEntry_dsq (s : State) (j : Job) (f : Entry → Entry) : (s.updEntry j f).dsq = s.dsq := rfl
@[simp] theorem State.updEntry_bgu (s : State) (j : Job) (f : Entry → Entry) : (s.updEntry j f).bgu = s.bgu := rfl
@[simp] theorem State.updEntry_clk (s : State) (j : Job) (f : Entry → Entry) : (s.updEntry j f).clk = s.clk := rfl
@[simp] theorem State.updEntry_quoteCounter (s : State) (j : Job) (f : Entry → Entry) : (s.updEntry j f).quoteCounter = s.quoteCounter := rfl
@[simp] theorem State.updEntry_out (s : State) (j : Job) (f : Entry → Entry) : (s.updEntry j f).out = s.out := rfl
@[simp] theorem State.updEntry_rpt (s : State) (j : Job) (f : Entry → Entry) : (s.updEntry j f).rpt = s.rpt := rfl
@[simp] theorem State.updEntry_liu (s : State) (j : Job) (f : Entry → Entry) : (s.updEntry j f).liu = s.liu := rfl
@[simp] theorem State.updEntry_restart (s : State) (j : Job) (f : Entry → Entry) : (s.updEntry j f).restart = s.restart := rfl
@[simp] theorem State.updEntry_heldCauses (s : State) (j : Job) (f : Entry → Entry) : (s.updEntry j f).heldCauses = s.heldCauses := rfl
@[simp] theorem State.updEntry_free (s : State) (j : Job) (f : Entry → Entry) : (s.updEntry j f).free = s.free := rfl

@[simp] theorem State.dropEntry_pending (s : State) (j : Job) : (s.dropEntry j).pending = s.pending := rfl
@[simp] theorem State.dropEntry_phase (s : State) (j : Job) : (s.dropEntry j).phase = s.phase := rfl
@[simp] theorem State.dropEntry_cfg (s : State) (j : Job) : (s.dropEntry j).cfg = s.cfg := rfl
@[simp] theorem State.dropEntry_cts (s : State) (j : Job) : (s.dropEntry j).cts = s.cts := rfl
@[simp] theorem State.dropEntry_pins (s : State) (j : Job) : (s.dropEntry j).pins = s.pins := rfl
@[simp] theorem State.dropEntry_sen (s : State) (j : Job) : (s.dropEntry j).sen = s.sen := rfl
@[simp] theorem State.dropEntry_dsq (s : State) (j : Job) : (s.dropEntry j).dsq = s.dsq := rfl
@[simp] theorem State.dropEntry_bgu (s : State) (j : Job) : (s.dropEntry j).bgu = s.bgu := rfl
@[simp] theorem State.dropEntry_clk (s : State) (j : Job) : (s.dropEntry j).clk = s.clk := rfl
@[simp] theorem State.dropEntry_quoteCounter (s : State) (j : Job) : (s.dropEntry j).quoteCounter = s.quoteCounter := rfl
@[simp] theorem State.dropEntry_out (s : State) (j : Job) : (s.dropEntry j).out = s.out := rfl
@[simp] theorem State.dropEntry_rpt (s : State) (j : Job) : (s.dropEntry j).rpt = s.rpt := rfl
@[simp] theorem State.dropEntry_liu (s : State) (j : Job) : (s.dropEntry j).liu = s.liu := rfl
@[simp] theorem State.dropEntry_restart (s : State) (j : Job) : (s.dropEntry j).restart = s.restart := rfl
@[simp] theorem State.dropEntry_heldCauses (s : State) (j : Job) : (s.dropEntry j).heldCauses = s.heldCauses := rfl
@[simp] theorem State.dropEntry_free (s : State) (j : Job) : (s.dropEntry j).free = s.free := rfl

@[simp] theorem State.addEntry_pending (s : State) (e : Entry) : (s.addEntry e).pending = s.pending := rfl
@[simp] theorem State.addEntry_phase (s : State) (e : Entry) : (s.addEntry e).phase = s.phase := rfl
@[simp] theorem State.addEntry_cfg (s : State) (e : Entry) : (s.addEntry e).cfg = s.cfg := rfl
@[simp] theorem State.addEntry_cts (s : State) (e : Entry) : (s.addEntry e).cts = s.cts := rfl
@[simp] theorem State.addEntry_pins (s : State) (e : Entry) : (s.addEntry e).pins = s.pins := rfl
@[simp] theorem State.addEntry_sen (s : State) (e : Entry) : (s.addEntry e).sen = s.sen := rfl
@[simp] theorem State.addEntry_dsq (s : State) (e : Entry) : (s.addEntry e).dsq = s.dsq := rfl
@[simp] theorem State.addEntry_bgu (s : State) (e : Entry) : (s.addEntry e).bgu = s.bgu := rfl
@[simp] theorem State.addEntry_clk (s : State) (e : Entry) : (s.addEntry e).clk = s.clk := rfl
@[simp] theorem State.addEntry_quoteCounter (s : State) (e : Entry) : (s.addEntry e).quoteCounter = s.quoteCounter := rfl
@[simp] theorem State.addEntry_out (s : State) (e : Entry) : (s.addEntry e).out = s.out := rfl
@[simp] theorem State.addEntry_rpt (s : State) (e : Entry) : (s.addEntry e).rpt = s.rpt := rfl
@[simp] theorem State.addEntry_liu (s : State) (e : Entry) : (s.addEntry e).liu = s.liu := rfl
@[simp] theorem State.addEntry_restart (s : State) (e : Entry) : (s.addEntry e).restart = s.restart := rfl
@[simp] theorem State.addEntry_heldCauses (s : State) (e : Entry) : (s.addEntry e).heldCauses = s.heldCauses := rfl
@[simp] theorem State.addEntry_free (s : State) (e : Entry) : (s.addEntry e).free = s.free := rfl

@[simp] theorem State.setDriver_pending (s : State) (slot : Slot) (t : Option Nat) : (s.setDriver slot t).pending = s.pending := rfl
@[simp] theorem State.setDriver_phase (s : State) (slot : Slot) (t : Option Nat) : (s.setDriver slot t).phase = s.phase := rfl
@[simp] theorem State.setDriver_cfg (s : State) (slot : Slot) (t : Option Nat) : (s.setDriver slot t).cfg = s.cfg := rfl
@[simp] theorem State.setDriver_cts (s : State) (slot : Slot) (t : Option Nat) : (s.setDriver slot t).cts = s.cts := rfl
@[simp] theorem State.setDriver_pins (s : State) (slot : Slot) (t : Option Nat) : (s.setDriver slot t).pins = s.pins := rfl
@[simp] theorem State.setDriver_sen (s : State) (slot : Slot) (t : Option Nat) : (s.setDriver slot t).sen = s.sen := rfl
@[simp] theorem State.setDriver_dsq (s : State) (slot : Slot) (t : Option Nat) : (s.setDriver slot t).dsq = s.dsq := rfl
@[simp] theorem State.setDriver_ort (s : State) (slot : Slot) (t : Option Nat) : (s.setDriver slot t).ort = s.ort := rfl
@[simp] theorem State.setDriver_clk (s : State) (slot : Slot) (t : Option Nat) : (s.setDriver slot t).clk = s.clk := rfl
@[simp] theorem State.setDriver_quoteCounter (s : State) (slot : Slot) (t : Option Nat) : (s.setDriver slot t).quoteCounter = s.quoteCounter := rfl
@[simp] theorem State.setDriver_out (s : State) (slot : Slot) (t : Option Nat) : (s.setDriver slot t).out = s.out := rfl
@[simp] theorem State.setDriver_rpt (s : State) (slot : Slot) (t : Option Nat) : (s.setDriver slot t).rpt = s.rpt := rfl
@[simp] theorem State.setDriver_liu (s : State) (slot : Slot) (t : Option Nat) : (s.setDriver slot t).liu = s.liu := rfl
@[simp] theorem State.setDriver_restart (s : State) (slot : Slot) (t : Option Nat) : (s.setDriver slot t).restart = s.restart := rfl
@[simp] theorem State.setDriver_heldCauses (s : State) (slot : Slot) (t : Option Nat) : (s.setDriver slot t).heldCauses = s.heldCauses := rfl
@[simp] theorem State.setDriver_free (s : State) (slot : Slot) (t : Option Nat) : (s.setDriver slot t).free = s.free := rfl

@[simp] theorem State.addPulse_pending (s : State) (st : BitVec 6) (slot : BitVec 5) (d : Nat) : (s.addPulse st slot d).pending = s.pending := rfl
@[simp] theorem State.addPulse_phase (s : State) (st : BitVec 6) (slot : BitVec 5) (d : Nat) : (s.addPulse st slot d).phase = s.phase := rfl
@[simp] theorem State.addPulse_cfg (s : State) (st : BitVec 6) (slot : BitVec 5) (d : Nat) : (s.addPulse st slot d).cfg = s.cfg := rfl
@[simp] theorem State.addPulse_cts (s : State) (st : BitVec 6) (slot : BitVec 5) (d : Nat) : (s.addPulse st slot d).cts = s.cts := rfl
@[simp] theorem State.addPulse_pins (s : State) (st : BitVec 6) (slot : BitVec 5) (d : Nat) : (s.addPulse st slot d).pins = s.pins := rfl
@[simp] theorem State.addPulse_sen (s : State) (st : BitVec 6) (slot : BitVec 5) (d : Nat) : (s.addPulse st slot d).sen = s.sen := rfl
@[simp] theorem State.addPulse_dsq (s : State) (st : BitVec 6) (slot : BitVec 5) (d : Nat) : (s.addPulse st slot d).dsq = s.dsq := rfl
@[simp] theorem State.addPulse_ort (s : State) (st : BitVec 6) (slot : BitVec 5) (d : Nat) : (s.addPulse st slot d).ort = s.ort := rfl
@[simp] theorem State.addPulse_clk (s : State) (st : BitVec 6) (slot : BitVec 5) (d : Nat) : (s.addPulse st slot d).clk = s.clk := rfl
@[simp] theorem State.addPulse_quoteCounter (s : State) (st : BitVec 6) (slot : BitVec 5) (d : Nat) : (s.addPulse st slot d).quoteCounter = s.quoteCounter := rfl
@[simp] theorem State.addPulse_out (s : State) (st : BitVec 6) (slot : BitVec 5) (d : Nat) : (s.addPulse st slot d).out = s.out := rfl
@[simp] theorem State.addPulse_rpt (s : State) (st : BitVec 6) (slot : BitVec 5) (d : Nat) : (s.addPulse st slot d).rpt = s.rpt := rfl
@[simp] theorem State.addPulse_liu (s : State) (st : BitVec 6) (slot : BitVec 5) (d : Nat) : (s.addPulse st slot d).liu = s.liu := rfl
@[simp] theorem State.addPulse_restart (s : State) (st : BitVec 6) (slot : BitVec 5) (d : Nat) : (s.addPulse st slot d).restart = s.restart := rfl
@[simp] theorem State.addPulse_heldCauses (s : State) (st : BitVec 6) (slot : BitVec 5) (d : Nat) : (s.addPulse st slot d).heldCauses = s.heldCauses := rfl
@[simp] theorem State.addPulse_free (s : State) (st : BitVec 6) (slot : BitVec 5) (d : Nat) : (s.addPulse st slot d).free = s.free := rfl

@[simp] theorem State.count_pending (s : State) (k : EventKind) (v : Option Nat) (c : Nat) : (s.count k v c).pending = s.pending := rfl
@[simp] theorem State.count_phase (s : State) (k : EventKind) (v : Option Nat) (c : Nat) : (s.count k v c).phase = s.phase := rfl
@[simp] theorem State.count_cfg (s : State) (k : EventKind) (v : Option Nat) (c : Nat) : (s.count k v c).cfg = s.cfg := rfl
@[simp] theorem State.count_cts (s : State) (k : EventKind) (v : Option Nat) (c : Nat) : (s.count k v c).cts = s.cts := rfl
@[simp] theorem State.count_pins (s : State) (k : EventKind) (v : Option Nat) (c : Nat) : (s.count k v c).pins = s.pins := rfl
@[simp] theorem State.count_sen (s : State) (k : EventKind) (v : Option Nat) (c : Nat) : (s.count k v c).sen = s.sen := rfl
@[simp] theorem State.count_dsq (s : State) (k : EventKind) (v : Option Nat) (c : Nat) : (s.count k v c).dsq = s.dsq := rfl
@[simp] theorem State.count_bgu (s : State) (k : EventKind) (v : Option Nat) (c : Nat) : (s.count k v c).bgu = s.bgu := rfl
@[simp] theorem State.count_ort (s : State) (k : EventKind) (v : Option Nat) (c : Nat) : (s.count k v c).ort = s.ort := rfl
@[simp] theorem State.count_clk (s : State) (k : EventKind) (v : Option Nat) (c : Nat) : (s.count k v c).clk = s.clk := rfl
@[simp] theorem State.count_quoteCounter (s : State) (k : EventKind) (v : Option Nat) (c : Nat) : (s.count k v c).quoteCounter = s.quoteCounter := rfl
@[simp] theorem State.count_out (s : State) (k : EventKind) (v : Option Nat) (c : Nat) : (s.count k v c).out = s.out := rfl
@[simp] theorem State.count_liu (s : State) (k : EventKind) (v : Option Nat) (c : Nat) : (s.count k v c).liu = s.liu := rfl
@[simp] theorem State.count_restart (s : State) (k : EventKind) (v : Option Nat) (c : Nat) : (s.count k v c).restart = s.restart := rfl
@[simp] theorem State.count_heldCauses (s : State) (k : EventKind) (v : Option Nat) (c : Nat) : (s.count k v c).heldCauses = s.heldCauses := rfl
@[simp] theorem State.count_free (s : State) (k : EventKind) (v : Option Nat) (c : Nat) : (s.count k v c).free = s.free := rfl

@[simp] theorem State.setPin_pending (s : State) (slot : Slot) (f : Pins → Pins) : (s.setPin slot f).pending = s.pending := rfl
@[simp] theorem State.setPin_phase (s : State) (slot : Slot) (f : Pins → Pins) : (s.setPin slot f).phase = s.phase := rfl
@[simp] theorem State.setPin_cfg (s : State) (slot : Slot) (f : Pins → Pins) : (s.setPin slot f).cfg = s.cfg := rfl
@[simp] theorem State.setPin_cts (s : State) (slot : Slot) (f : Pins → Pins) : (s.setPin slot f).cts = s.cts := rfl
@[simp] theorem State.setPin_sen (s : State) (slot : Slot) (f : Pins → Pins) : (s.setPin slot f).sen = s.sen := rfl
@[simp] theorem State.setPin_dsq (s : State) (slot : Slot) (f : Pins → Pins) : (s.setPin slot f).dsq = s.dsq := rfl
@[simp] theorem State.setPin_bgu (s : State) (slot : Slot) (f : Pins → Pins) : (s.setPin slot f).bgu = s.bgu := rfl
@[simp] theorem State.setPin_ort (s : State) (slot : Slot) (f : Pins → Pins) : (s.setPin slot f).ort = s.ort := rfl
@[simp] theorem State.setPin_clk (s : State) (slot : Slot) (f : Pins → Pins) : (s.setPin slot f).clk = s.clk := rfl
@[simp] theorem State.setPin_quoteCounter (s : State) (slot : Slot) (f : Pins → Pins) : (s.setPin slot f).quoteCounter = s.quoteCounter := rfl
@[simp] theorem State.setPin_out (s : State) (slot : Slot) (f : Pins → Pins) : (s.setPin slot f).out = s.out := rfl
@[simp] theorem State.setPin_rpt (s : State) (slot : Slot) (f : Pins → Pins) : (s.setPin slot f).rpt = s.rpt := rfl
@[simp] theorem State.setPin_liu (s : State) (slot : Slot) (f : Pins → Pins) : (s.setPin slot f).liu = s.liu := rfl
@[simp] theorem State.setPin_restart (s : State) (slot : Slot) (f : Pins → Pins) : (s.setPin slot f).restart = s.restart := rfl
@[simp] theorem State.setPin_heldCauses (s : State) (slot : Slot) (f : Pins → Pins) : (s.setPin slot f).heldCauses = s.heldCauses := rfl
@[simp] theorem State.setPin_free (s : State) (slot : Slot) (f : Pins → Pins) : (s.setPin slot f).free = s.free := rfl

@[simp] theorem State.writeCauses_pending (s : State) (c : Causes) : (s.writeCauses c).pending = s.pending := rfl
@[simp] theorem State.writeCauses_phase (s : State) (c : Causes) : (s.writeCauses c).phase = s.phase := rfl
@[simp] theorem State.writeCauses_cfg (s : State) (c : Causes) : (s.writeCauses c).cfg = s.cfg := rfl
@[simp] theorem State.writeCauses_pins (s : State) (c : Causes) : (s.writeCauses c).pins = s.pins := rfl
@[simp] theorem State.writeCauses_sen (s : State) (c : Causes) : (s.writeCauses c).sen = s.sen := rfl
@[simp] theorem State.writeCauses_dsq (s : State) (c : Causes) : (s.writeCauses c).dsq = s.dsq := rfl
@[simp] theorem State.writeCauses_bgu (s : State) (c : Causes) : (s.writeCauses c).bgu = s.bgu := rfl
@[simp] theorem State.writeCauses_ort (s : State) (c : Causes) : (s.writeCauses c).ort = s.ort := rfl
@[simp] theorem State.writeCauses_clk (s : State) (c : Causes) : (s.writeCauses c).clk = s.clk := rfl
@[simp] theorem State.writeCauses_quoteCounter (s : State) (c : Causes) : (s.writeCauses c).quoteCounter = s.quoteCounter := rfl
@[simp] theorem State.writeCauses_out (s : State) (c : Causes) : (s.writeCauses c).out = s.out := rfl
@[simp] theorem State.writeCauses_rpt (s : State) (c : Causes) : (s.writeCauses c).rpt = s.rpt := rfl
@[simp] theorem State.writeCauses_liu (s : State) (c : Causes) : (s.writeCauses c).liu = s.liu := rfl
@[simp] theorem State.writeCauses_restart (s : State) (c : Causes) : (s.writeCauses c).restart = s.restart := rfl
@[simp] theorem State.writeCauses_heldCauses (s : State) (c : Causes) : (s.writeCauses c).heldCauses = s.heldCauses := rfl
@[simp] theorem State.writeCauses_free (s : State) (c : Causes) : (s.writeCauses c).free = s.free := rfl

@[simp] theorem State.writeMinute_pending (s : State) (v : Nat) (t : Bool) : (s.writeMinute v t).pending = s.pending := rfl
@[simp] theorem State.writeMinute_phase (s : State) (v : Nat) (t : Bool) : (s.writeMinute v t).phase = s.phase := rfl
@[simp] theorem State.writeMinute_cfg (s : State) (v : Nat) (t : Bool) : (s.writeMinute v t).cfg = s.cfg := rfl
@[simp] theorem State.writeMinute_pins (s : State) (v : Nat) (t : Bool) : (s.writeMinute v t).pins = s.pins := rfl
@[simp] theorem State.writeMinute_sen (s : State) (v : Nat) (t : Bool) : (s.writeMinute v t).sen = s.sen := rfl
@[simp] theorem State.writeMinute_dsq (s : State) (v : Nat) (t : Bool) : (s.writeMinute v t).dsq = s.dsq := rfl
@[simp] theorem State.writeMinute_bgu (s : State) (v : Nat) (t : Bool) : (s.writeMinute v t).bgu = s.bgu := rfl
@[simp] theorem State.writeMinute_ort (s : State) (v : Nat) (t : Bool) : (s.writeMinute v t).ort = s.ort := rfl
@[simp] theorem State.writeMinute_clk (s : State) (v : Nat) (t : Bool) : (s.writeMinute v t).clk = s.clk := rfl
@[simp] theorem State.writeMinute_quoteCounter (s : State) (v : Nat) (t : Bool) : (s.writeMinute v t).quoteCounter = s.quoteCounter := rfl
@[simp] theorem State.writeMinute_out (s : State) (v : Nat) (t : Bool) : (s.writeMinute v t).out = s.out := rfl
@[simp] theorem State.writeMinute_rpt (s : State) (v : Nat) (t : Bool) : (s.writeMinute v t).rpt = s.rpt := rfl
@[simp] theorem State.writeMinute_liu (s : State) (v : Nat) (t : Bool) : (s.writeMinute v t).liu = s.liu := rfl
@[simp] theorem State.writeMinute_restart (s : State) (v : Nat) (t : Bool) : (s.writeMinute v t).restart = s.restart := rfl
@[simp] theorem State.writeMinute_heldCauses (s : State) (v : Nat) (t : Bool) : (s.writeMinute v t).heldCauses = s.heldCauses := rfl
@[simp] theorem State.writeMinute_free (s : State) (v : Nat) (t : Bool) : (s.writeMinute v t).free = s.free := rfl

@[simp] theorem State.removeNote_pending (s : State) : (s.removeNote).pending = s.pending := rfl
@[simp] theorem State.removeNote_phase (s : State) : (s.removeNote).phase = s.phase := rfl
@[simp] theorem State.removeNote_cfg (s : State) : (s.removeNote).cfg = s.cfg := rfl
@[simp] theorem State.removeNote_cts (s : State) : (s.removeNote).cts = s.cts := rfl
@[simp] theorem State.removeNote_pins (s : State) : (s.removeNote).pins = s.pins := rfl
@[simp] theorem State.removeNote_sen (s : State) : (s.removeNote).sen = s.sen := rfl
@[simp] theorem State.removeNote_dsq (s : State) : (s.removeNote).dsq = s.dsq := rfl
@[simp] theorem State.removeNote_bgu (s : State) : (s.removeNote).bgu = s.bgu := rfl
@[simp] theorem State.removeNote_ort (s : State) : (s.removeNote).ort = s.ort := rfl
@[simp] theorem State.removeNote_clk (s : State) : (s.removeNote).clk = s.clk := rfl
@[simp] theorem State.removeNote_quoteCounter (s : State) : (s.removeNote).quoteCounter = s.quoteCounter := rfl
@[simp] theorem State.removeNote_out (s : State) : (s.removeNote).out = s.out := rfl
@[simp] theorem State.removeNote_rpt (s : State) : (s.removeNote).rpt = s.rpt := rfl
@[simp] theorem State.removeNote_restart (s : State) : (s.removeNote).restart = s.restart := rfl
@[simp] theorem State.removeNote_heldCauses (s : State) : (s.removeNote).heldCauses = s.heldCauses := rfl
@[simp] theorem State.removeNote_free (s : State) : (s.removeNote).free = s.free := rfl

@[simp] theorem State.withdrawOffer_pending (s : State) (t : Ticket) : (s.withdrawOffer t).pending = s.pending := rfl
@[simp] theorem State.withdrawOffer_phase (s : State) (t : Ticket) : (s.withdrawOffer t).phase = s.phase := rfl
@[simp] theorem State.withdrawOffer_cfg (s : State) (t : Ticket) : (s.withdrawOffer t).cfg = s.cfg := rfl
@[simp] theorem State.withdrawOffer_cts (s : State) (t : Ticket) : (s.withdrawOffer t).cts = s.cts := rfl
@[simp] theorem State.withdrawOffer_pins (s : State) (t : Ticket) : (s.withdrawOffer t).pins = s.pins := rfl
@[simp] theorem State.withdrawOffer_sen (s : State) (t : Ticket) : (s.withdrawOffer t).sen = s.sen := rfl
@[simp] theorem State.withdrawOffer_dsq (s : State) (t : Ticket) : (s.withdrawOffer t).dsq = s.dsq := rfl
@[simp] theorem State.withdrawOffer_bgu (s : State) (t : Ticket) : (s.withdrawOffer t).bgu = s.bgu := rfl
@[simp] theorem State.withdrawOffer_ort (s : State) (t : Ticket) : (s.withdrawOffer t).ort = s.ort := rfl
@[simp] theorem State.withdrawOffer_clk (s : State) (t : Ticket) : (s.withdrawOffer t).clk = s.clk := rfl
@[simp] theorem State.withdrawOffer_quoteCounter (s : State) (t : Ticket) : (s.withdrawOffer t).quoteCounter = s.quoteCounter := rfl
@[simp] theorem State.withdrawOffer_out (s : State) (t : Ticket) : (s.withdrawOffer t).out = s.out := rfl
@[simp] theorem State.withdrawOffer_rpt (s : State) (t : Ticket) : (s.withdrawOffer t).rpt = s.rpt := rfl
@[simp] theorem State.withdrawOffer_restart (s : State) (t : Ticket) : (s.withdrawOffer t).restart = s.restart := rfl
@[simp] theorem State.withdrawOffer_heldCauses (s : State) (t : Ticket) : (s.withdrawOffer t).heldCauses = s.heldCauses := rfl
@[simp] theorem State.withdrawOffer_free (s : State) (t : Ticket) : (s.withdrawOffer t).free = s.free := rfl

@[simp] theorem State.markSpoken_pending (s : State) (t : Ticket) : (s.markSpoken t).pending = s.pending := rfl
@[simp] theorem State.markSpoken_phase (s : State) (t : Ticket) : (s.markSpoken t).phase = s.phase := rfl
@[simp] theorem State.markSpoken_cfg (s : State) (t : Ticket) : (s.markSpoken t).cfg = s.cfg := rfl
@[simp] theorem State.markSpoken_cts (s : State) (t : Ticket) : (s.markSpoken t).cts = s.cts := rfl
@[simp] theorem State.markSpoken_pins (s : State) (t : Ticket) : (s.markSpoken t).pins = s.pins := rfl
@[simp] theorem State.markSpoken_sen (s : State) (t : Ticket) : (s.markSpoken t).sen = s.sen := rfl
@[simp] theorem State.markSpoken_dsq (s : State) (t : Ticket) : (s.markSpoken t).dsq = s.dsq := rfl
@[simp] theorem State.markSpoken_bgu (s : State) (t : Ticket) : (s.markSpoken t).bgu = s.bgu := rfl
@[simp] theorem State.markSpoken_ort (s : State) (t : Ticket) : (s.markSpoken t).ort = s.ort := rfl
@[simp] theorem State.markSpoken_clk (s : State) (t : Ticket) : (s.markSpoken t).clk = s.clk := rfl
@[simp] theorem State.markSpoken_quoteCounter (s : State) (t : Ticket) : (s.markSpoken t).quoteCounter = s.quoteCounter := rfl
@[simp] theorem State.markSpoken_out (s : State) (t : Ticket) : (s.markSpoken t).out = s.out := rfl
@[simp] theorem State.markSpoken_rpt (s : State) (t : Ticket) : (s.markSpoken t).rpt = s.rpt := rfl
@[simp] theorem State.markSpoken_restart (s : State) (t : Ticket) : (s.markSpoken t).restart = s.restart := rfl
@[simp] theorem State.markSpoken_heldCauses (s : State) (t : Ticket) : (s.markSpoken t).heldCauses = s.heldCauses := rfl
@[simp] theorem State.markSpoken_free (s : State) (t : Ticket) : (s.markSpoken t).free = s.free := rfl

@[simp] theorem State.clearConds_pending (s : State) (m : BitVec 14) : (s.clearConds m).pending = s.pending := rfl
@[simp] theorem State.clearConds_phase (s : State) (m : BitVec 14) : (s.clearConds m).phase = s.phase := rfl
@[simp] theorem State.clearConds_cfg (s : State) (m : BitVec 14) : (s.clearConds m).cfg = s.cfg := rfl
@[simp] theorem State.clearConds_cts (s : State) (m : BitVec 14) : (s.clearConds m).cts = s.cts := rfl
@[simp] theorem State.clearConds_pins (s : State) (m : BitVec 14) : (s.clearConds m).pins = s.pins := rfl
@[simp] theorem State.clearConds_sen (s : State) (m : BitVec 14) : (s.clearConds m).sen = s.sen := rfl
@[simp] theorem State.clearConds_dsq (s : State) (m : BitVec 14) : (s.clearConds m).dsq = s.dsq := rfl
@[simp] theorem State.clearConds_bgu (s : State) (m : BitVec 14) : (s.clearConds m).bgu = s.bgu := rfl
@[simp] theorem State.clearConds_ort (s : State) (m : BitVec 14) : (s.clearConds m).ort = s.ort := rfl
@[simp] theorem State.clearConds_clk (s : State) (m : BitVec 14) : (s.clearConds m).clk = s.clk := rfl
@[simp] theorem State.clearConds_quoteCounter (s : State) (m : BitVec 14) : (s.clearConds m).quoteCounter = s.quoteCounter := rfl
@[simp] theorem State.clearConds_out (s : State) (m : BitVec 14) : (s.clearConds m).out = s.out := rfl
@[simp] theorem State.clearConds_liu (s : State) (m : BitVec 14) : (s.clearConds m).liu = s.liu := rfl
@[simp] theorem State.clearConds_restart (s : State) (m : BitVec 14) : (s.clearConds m).restart = s.restart := rfl
@[simp] theorem State.clearConds_heldCauses (s : State) (m : BitVec 14) : (s.clearConds m).heldCauses = s.heldCauses := rfl
@[simp] theorem State.clearConds_free (s : State) (m : BitVec 14) : (s.clearConds m).free = s.free := rfl

@[simp] theorem State.clearCounters_pending (s : State) : (s.clearCounters).pending = s.pending := rfl
@[simp] theorem State.clearCounters_phase (s : State) : (s.clearCounters).phase = s.phase := rfl
@[simp] theorem State.clearCounters_cfg (s : State) : (s.clearCounters).cfg = s.cfg := rfl
@[simp] theorem State.clearCounters_cts (s : State) : (s.clearCounters).cts = s.cts := rfl
@[simp] theorem State.clearCounters_pins (s : State) : (s.clearCounters).pins = s.pins := rfl
@[simp] theorem State.clearCounters_sen (s : State) : (s.clearCounters).sen = s.sen := rfl
@[simp] theorem State.clearCounters_dsq (s : State) : (s.clearCounters).dsq = s.dsq := rfl
@[simp] theorem State.clearCounters_bgu (s : State) : (s.clearCounters).bgu = s.bgu := rfl
@[simp] theorem State.clearCounters_ort (s : State) : (s.clearCounters).ort = s.ort := rfl
@[simp] theorem State.clearCounters_clk (s : State) : (s.clearCounters).clk = s.clk := rfl
@[simp] theorem State.clearCounters_quoteCounter (s : State) : (s.clearCounters).quoteCounter = s.quoteCounter := rfl
@[simp] theorem State.clearCounters_out (s : State) : (s.clearCounters).out = s.out := rfl
@[simp] theorem State.clearCounters_liu (s : State) : (s.clearCounters).liu = s.liu := rfl
@[simp] theorem State.clearCounters_restart (s : State) : (s.clearCounters).restart = s.restart := rfl
@[simp] theorem State.clearCounters_heldCauses (s : State) : (s.clearCounters).heldCauses = s.heldCauses := rfl
@[simp] theorem State.clearCounters_free (s : State) : (s.clearCounters).free = s.free := rfl

@[simp] theorem State.pulseFired_pending (s : State) (slot : Slot) : (s.pulseFired slot).pending = s.pending := rfl
@[simp] theorem State.pulseFired_phase (s : State) (slot : Slot) : (s.pulseFired slot).phase = s.phase := rfl
@[simp] theorem State.pulseFired_cfg (s : State) (slot : Slot) : (s.pulseFired slot).cfg = s.cfg := rfl
@[simp] theorem State.pulseFired_pins (s : State) (slot : Slot) : (s.pulseFired slot).pins = s.pins := rfl
@[simp] theorem State.pulseFired_sen (s : State) (slot : Slot) : (s.pulseFired slot).sen = s.sen := rfl
@[simp] theorem State.pulseFired_dsq (s : State) (slot : Slot) : (s.pulseFired slot).dsq = s.dsq := rfl
@[simp] theorem State.pulseFired_bgu (s : State) (slot : Slot) : (s.pulseFired slot).bgu = s.bgu := rfl
@[simp] theorem State.pulseFired_ort (s : State) (slot : Slot) : (s.pulseFired slot).ort = s.ort := rfl
@[simp] theorem State.pulseFired_clk (s : State) (slot : Slot) : (s.pulseFired slot).clk = s.clk := rfl
@[simp] theorem State.pulseFired_quoteCounter (s : State) (slot : Slot) : (s.pulseFired slot).quoteCounter = s.quoteCounter := rfl
@[simp] theorem State.pulseFired_out (s : State) (slot : Slot) : (s.pulseFired slot).out = s.out := rfl
@[simp] theorem State.pulseFired_rpt (s : State) (slot : Slot) : (s.pulseFired slot).rpt = s.rpt := rfl
@[simp] theorem State.pulseFired_liu (s : State) (slot : Slot) : (s.pulseFired slot).liu = s.liu := rfl
@[simp] theorem State.pulseFired_restart (s : State) (slot : Slot) : (s.pulseFired slot).restart = s.restart := rfl
@[simp] theorem State.pulseFired_heldCauses (s : State) (slot : Slot) : (s.pulseFired slot).heldCauses = s.heldCauses := rfl
@[simp] theorem State.pulseFired_free (s : State) (slot : Slot) : (s.pulseFired slot).free = s.free := rfl

@[simp] theorem State.refreshIdle_pending (s : State) (slot : Slot) : (s.refreshIdle slot).pending = s.pending := rfl
@[simp] theorem State.refreshIdle_phase (s : State) (slot : Slot) : (s.refreshIdle slot).phase = s.phase := rfl
@[simp] theorem State.refreshIdle_cfg (s : State) (slot : Slot) : (s.refreshIdle slot).cfg = s.cfg := rfl
@[simp] theorem State.refreshIdle_cts (s : State) (slot : Slot) : (s.refreshIdle slot).cts = s.cts := rfl
@[simp] theorem State.refreshIdle_pins (s : State) (slot : Slot) : (s.refreshIdle slot).pins = s.pins := rfl
@[simp] theorem State.refreshIdle_dsq (s : State) (slot : Slot) : (s.refreshIdle slot).dsq = s.dsq := rfl
@[simp] theorem State.refreshIdle_bgu (s : State) (slot : Slot) : (s.refreshIdle slot).bgu = s.bgu := rfl
@[simp] theorem State.refreshIdle_ort (s : State) (slot : Slot) : (s.refreshIdle slot).ort = s.ort := rfl
@[simp] theorem State.refreshIdle_clk (s : State) (slot : Slot) : (s.refreshIdle slot).clk = s.clk := rfl
@[simp] theorem State.refreshIdle_quoteCounter (s : State) (slot : Slot) : (s.refreshIdle slot).quoteCounter = s.quoteCounter := rfl
@[simp] theorem State.refreshIdle_out (s : State) (slot : Slot) : (s.refreshIdle slot).out = s.out := rfl
@[simp] theorem State.refreshIdle_rpt (s : State) (slot : Slot) : (s.refreshIdle slot).rpt = s.rpt := rfl
@[simp] theorem State.refreshIdle_liu (s : State) (slot : Slot) : (s.refreshIdle slot).liu = s.liu := rfl
@[simp] theorem State.refreshIdle_restart (s : State) (slot : Slot) : (s.refreshIdle slot).restart = s.restart := rfl
@[simp] theorem State.refreshIdle_heldCauses (s : State) (slot : Slot) : (s.refreshIdle slot).heldCauses = s.heldCauses := rfl
@[simp] theorem State.refreshIdle_free (s : State) (slot : Slot) : (s.refreshIdle slot).free = s.free := rfl

@[simp] theorem State.refreshOutputs_pending (s : State) : (s.refreshOutputs).pending = s.pending := by
  simp only [State.refreshOutputs, State.setOut_pending]
@[simp] theorem State.refreshOutputs_phase (s : State) : (s.refreshOutputs).phase = s.phase := by
  simp only [State.refreshOutputs, State.setOut_phase]
@[simp] theorem State.refreshOutputs_cfg (s : State) : (s.refreshOutputs).cfg = s.cfg := by
  simp only [State.refreshOutputs, State.setOut_cfg]
@[simp] theorem State.refreshOutputs_cts (s : State) : (s.refreshOutputs).cts = s.cts := by
  simp only [State.refreshOutputs, State.setOut_cts]
@[simp] theorem State.refreshOutputs_pins (s : State) : (s.refreshOutputs).pins = s.pins := by
  simp only [State.refreshOutputs, State.setOut_pins]
@[simp] theorem State.refreshOutputs_sen (s : State) : (s.refreshOutputs).sen = s.sen := by
  simp only [State.refreshOutputs, State.setOut_sen]
@[simp] theorem State.refreshOutputs_dsq (s : State) : (s.refreshOutputs).dsq = s.dsq := by
  simp only [State.refreshOutputs, State.setOut_dsq]
@[simp] theorem State.refreshOutputs_bgu (s : State) : (s.refreshOutputs).bgu = s.bgu := by
  simp only [State.refreshOutputs, State.setOut_bgu]
@[simp] theorem State.refreshOutputs_ort (s : State) : (s.refreshOutputs).ort = s.ort := by
  simp only [State.refreshOutputs, State.setOut_ort]
@[simp] theorem State.refreshOutputs_clk (s : State) : (s.refreshOutputs).clk = s.clk := by
  simp only [State.refreshOutputs, State.setOut_clk]
@[simp] theorem State.refreshOutputs_quoteCounter (s : State) : (s.refreshOutputs).quoteCounter = s.quoteCounter := by
  simp only [State.refreshOutputs, State.setOut_quoteCounter]
@[simp] theorem State.refreshOutputs_rpt (s : State) : (s.refreshOutputs).rpt = s.rpt := by
  simp only [State.refreshOutputs, State.setOut_rpt]
@[simp] theorem State.refreshOutputs_liu (s : State) : (s.refreshOutputs).liu = s.liu := by
  simp only [State.refreshOutputs, State.setOut_liu]
@[simp] theorem State.refreshOutputs_restart (s : State) : (s.refreshOutputs).restart = s.restart := by
  simp only [State.refreshOutputs, State.setOut_restart]
@[simp] theorem State.refreshOutputs_heldCauses (s : State) : (s.refreshOutputs).heldCauses = s.heldCauses := by
  simp only [State.refreshOutputs, State.setOut_heldCauses]
@[simp] theorem State.refreshOutputs_free (s : State) : (s.refreshOutputs).free = s.free := by
  simp only [State.refreshOutputs, State.setOut_free]

@[simp] theorem State.setLamp_pending (s : State) (slot : Slot) (on : Bool) : (s.setLamp slot on).pending = s.pending := by
  simp only [State.setLamp, State.refreshOutputs_pending, State.setOut_pending]
@[simp] theorem State.setLamp_phase (s : State) (slot : Slot) (on : Bool) : (s.setLamp slot on).phase = s.phase := by
  simp only [State.setLamp, State.refreshOutputs_phase, State.setOut_phase]
@[simp] theorem State.setLamp_cfg (s : State) (slot : Slot) (on : Bool) : (s.setLamp slot on).cfg = s.cfg := by
  simp only [State.setLamp, State.refreshOutputs_cfg, State.setOut_cfg]
@[simp] theorem State.setLamp_cts (s : State) (slot : Slot) (on : Bool) : (s.setLamp slot on).cts = s.cts := by
  simp only [State.setLamp, State.refreshOutputs_cts, State.setOut_cts]
@[simp] theorem State.setLamp_pins (s : State) (slot : Slot) (on : Bool) : (s.setLamp slot on).pins = s.pins := by
  simp only [State.setLamp, State.refreshOutputs_pins, State.setOut_pins]
@[simp] theorem State.setLamp_sen (s : State) (slot : Slot) (on : Bool) : (s.setLamp slot on).sen = s.sen := by
  simp only [State.setLamp, State.refreshOutputs_sen, State.setOut_sen]
@[simp] theorem State.setLamp_dsq (s : State) (slot : Slot) (on : Bool) : (s.setLamp slot on).dsq = s.dsq := by
  simp only [State.setLamp, State.refreshOutputs_dsq, State.setOut_dsq]
@[simp] theorem State.setLamp_bgu (s : State) (slot : Slot) (on : Bool) : (s.setLamp slot on).bgu = s.bgu := by
  simp only [State.setLamp, State.refreshOutputs_bgu, State.setOut_bgu]
@[simp] theorem State.setLamp_ort (s : State) (slot : Slot) (on : Bool) : (s.setLamp slot on).ort = s.ort := by
  simp only [State.setLamp, State.refreshOutputs_ort, State.setOut_ort]
@[simp] theorem State.setLamp_clk (s : State) (slot : Slot) (on : Bool) : (s.setLamp slot on).clk = s.clk := by
  simp only [State.setLamp, State.refreshOutputs_clk, State.setOut_clk]
@[simp] theorem State.setLamp_quoteCounter (s : State) (slot : Slot) (on : Bool) : (s.setLamp slot on).quoteCounter = s.quoteCounter := by
  simp only [State.setLamp, State.refreshOutputs_quoteCounter, State.setOut_quoteCounter]
@[simp] theorem State.setLamp_rpt (s : State) (slot : Slot) (on : Bool) : (s.setLamp slot on).rpt = s.rpt := by
  simp only [State.setLamp, State.refreshOutputs_rpt, State.setOut_rpt]
@[simp] theorem State.setLamp_liu (s : State) (slot : Slot) (on : Bool) : (s.setLamp slot on).liu = s.liu := by
  simp only [State.setLamp, State.refreshOutputs_liu, State.setOut_liu]
@[simp] theorem State.setLamp_restart (s : State) (slot : Slot) (on : Bool) : (s.setLamp slot on).restart = s.restart := by
  simp only [State.setLamp, State.refreshOutputs_restart, State.setOut_restart]
@[simp] theorem State.setLamp_heldCauses (s : State) (slot : Slot) (on : Bool) : (s.setLamp slot on).heldCauses = s.heldCauses := by
  simp only [State.setLamp, State.refreshOutputs_heldCauses, State.setOut_heldCauses]
@[simp] theorem State.setLamp_free (s : State) (slot : Slot) (on : Bool) : (s.setLamp slot on).free = s.free := by
  simp only [State.setLamp, State.refreshOutputs_free, State.setOut_free]

@[simp] theorem State.mark_pending (s : State) (c : Condition) (slot : Option Slot) : (s.mark c slot).pending = s.pending := rfl
@[simp] theorem State.mark_phase (s : State) (c : Condition) (slot : Option Slot) : (s.mark c slot).phase = s.phase := rfl
@[simp] theorem State.mark_cfg (s : State) (c : Condition) (slot : Option Slot) : (s.mark c slot).cfg = s.cfg := rfl
@[simp] theorem State.mark_cts (s : State) (c : Condition) (slot : Option Slot) : (s.mark c slot).cts = s.cts := rfl
@[simp] theorem State.mark_pins (s : State) (c : Condition) (slot : Option Slot) : (s.mark c slot).pins = s.pins := rfl
@[simp] theorem State.mark_sen (s : State) (c : Condition) (slot : Option Slot) : (s.mark c slot).sen = s.sen := rfl
@[simp] theorem State.mark_dsq (s : State) (c : Condition) (slot : Option Slot) : (s.mark c slot).dsq = s.dsq := rfl
@[simp] theorem State.mark_bgu (s : State) (c : Condition) (slot : Option Slot) : (s.mark c slot).bgu = s.bgu := rfl
@[simp] theorem State.mark_ort (s : State) (c : Condition) (slot : Option Slot) : (s.mark c slot).ort = s.ort := rfl
@[simp] theorem State.mark_clk (s : State) (c : Condition) (slot : Option Slot) : (s.mark c slot).clk = s.clk := rfl
@[simp] theorem State.mark_quoteCounter (s : State) (c : Condition) (slot : Option Slot) : (s.mark c slot).quoteCounter = s.quoteCounter := rfl
@[simp] theorem State.mark_out (s : State) (c : Condition) (slot : Option Slot) : (s.mark c slot).out = s.out := rfl
@[simp] theorem State.mark_liu (s : State) (c : Condition) (slot : Option Slot) : (s.mark c slot).liu = s.liu := rfl
@[simp] theorem State.mark_restart (s : State) (c : Condition) (slot : Option Slot) : (s.mark c slot).restart = s.restart := rfl
@[simp] theorem State.mark_heldCauses (s : State) (c : Condition) (slot : Option Slot) : (s.mark c slot).heldCauses = s.heldCauses := rfl
@[simp] theorem State.mark_free (s : State) (c : Condition) (slot : Option Slot) : (s.mark c slot).free = s.free := rfl

@[simp] theorem State.refusalEvent_pending (s : State) (r : Reason) (c : Nat) : (s.refusalEvent r c).pending = s.pending := rfl
@[simp] theorem State.refusalEvent_phase (s : State) (r : Reason) (c : Nat) : (s.refusalEvent r c).phase = s.phase := rfl
@[simp] theorem State.refusalEvent_cfg (s : State) (r : Reason) (c : Nat) : (s.refusalEvent r c).cfg = s.cfg := rfl
@[simp] theorem State.refusalEvent_cts (s : State) (r : Reason) (c : Nat) : (s.refusalEvent r c).cts = s.cts := rfl
@[simp] theorem State.refusalEvent_pins (s : State) (r : Reason) (c : Nat) : (s.refusalEvent r c).pins = s.pins := rfl
@[simp] theorem State.refusalEvent_sen (s : State) (r : Reason) (c : Nat) : (s.refusalEvent r c).sen = s.sen := rfl
@[simp] theorem State.refusalEvent_dsq (s : State) (r : Reason) (c : Nat) : (s.refusalEvent r c).dsq = s.dsq := rfl
@[simp] theorem State.refusalEvent_bgu (s : State) (r : Reason) (c : Nat) : (s.refusalEvent r c).bgu = s.bgu := rfl
@[simp] theorem State.refusalEvent_ort (s : State) (r : Reason) (c : Nat) : (s.refusalEvent r c).ort = s.ort := rfl
@[simp] theorem State.refusalEvent_clk (s : State) (r : Reason) (c : Nat) : (s.refusalEvent r c).clk = s.clk := rfl
@[simp] theorem State.refusalEvent_quoteCounter (s : State) (r : Reason) (c : Nat) : (s.refusalEvent r c).quoteCounter = s.quoteCounter := rfl
@[simp] theorem State.refusalEvent_out (s : State) (r : Reason) (c : Nat) : (s.refusalEvent r c).out = s.out := rfl
@[simp] theorem State.refusalEvent_liu (s : State) (r : Reason) (c : Nat) : (s.refusalEvent r c).liu = s.liu := rfl
@[simp] theorem State.refusalEvent_restart (s : State) (r : Reason) (c : Nat) : (s.refusalEvent r c).restart = s.restart := rfl
@[simp] theorem State.refusalEvent_heldCauses (s : State) (r : Reason) (c : Nat) : (s.refusalEvent r c).heldCauses = s.heldCauses := rfl
@[simp] theorem State.refusalEvent_free (s : State) (r : Reason) (c : Nat) : (s.refusalEvent r c).free = s.free := rfl

@[simp] theorem State.keepQuote_pending (s : State) (j : Job) (slot : Slot) (q : Quote) : (s.keepQuote j slot q).pending = s.pending := rfl
@[simp] theorem State.keepQuote_phase (s : State) (j : Job) (slot : Slot) (q : Quote) : (s.keepQuote j slot q).phase = s.phase := rfl
@[simp] theorem State.keepQuote_cfg (s : State) (j : Job) (slot : Slot) (q : Quote) : (s.keepQuote j slot q).cfg = s.cfg := rfl
@[simp] theorem State.keepQuote_cts (s : State) (j : Job) (slot : Slot) (q : Quote) : (s.keepQuote j slot q).cts = s.cts := rfl
@[simp] theorem State.keepQuote_pins (s : State) (j : Job) (slot : Slot) (q : Quote) : (s.keepQuote j slot q).pins = s.pins := rfl
@[simp] theorem State.keepQuote_sen (s : State) (j : Job) (slot : Slot) (q : Quote) : (s.keepQuote j slot q).sen = s.sen := rfl
@[simp] theorem State.keepQuote_dsq (s : State) (j : Job) (slot : Slot) (q : Quote) : (s.keepQuote j slot q).dsq = s.dsq := rfl
@[simp] theorem State.keepQuote_bgu (s : State) (j : Job) (slot : Slot) (q : Quote) : (s.keepQuote j slot q).bgu = s.bgu := rfl
@[simp] theorem State.keepQuote_clk (s : State) (j : Job) (slot : Slot) (q : Quote) : (s.keepQuote j slot q).clk = s.clk := rfl
@[simp] theorem State.keepQuote_quoteCounter (s : State) (j : Job) (slot : Slot) (q : Quote) : (s.keepQuote j slot q).quoteCounter = s.quoteCounter := rfl
@[simp] theorem State.keepQuote_out (s : State) (j : Job) (slot : Slot) (q : Quote) : (s.keepQuote j slot q).out = s.out := rfl
@[simp] theorem State.keepQuote_rpt (s : State) (j : Job) (slot : Slot) (q : Quote) : (s.keepQuote j slot q).rpt = s.rpt := rfl
@[simp] theorem State.keepQuote_liu (s : State) (j : Job) (slot : Slot) (q : Quote) : (s.keepQuote j slot q).liu = s.liu := rfl
@[simp] theorem State.keepQuote_restart (s : State) (j : Job) (slot : Slot) (q : Quote) : (s.keepQuote j slot q).restart = s.restart := rfl
@[simp] theorem State.keepQuote_heldCauses (s : State) (j : Job) (slot : Slot) (q : Quote) : (s.keepQuote j slot q).heldCauses = s.heldCauses := rfl
@[simp] theorem State.keepQuote_free (s : State) (j : Job) (slot : Slot) (q : Quote) : (s.keepQuote j slot q).free = s.free := rfl

@[simp] theorem State.setProgress_pending (s : State) (j : Job) (slot : Slot) (p : Progress) : (s.setProgress j slot p).pending = s.pending := rfl
@[simp] theorem State.setProgress_phase (s : State) (j : Job) (slot : Slot) (p : Progress) : (s.setProgress j slot p).phase = s.phase := rfl
@[simp] theorem State.setProgress_cfg (s : State) (j : Job) (slot : Slot) (p : Progress) : (s.setProgress j slot p).cfg = s.cfg := rfl
@[simp] theorem State.setProgress_cts (s : State) (j : Job) (slot : Slot) (p : Progress) : (s.setProgress j slot p).cts = s.cts := rfl
@[simp] theorem State.setProgress_pins (s : State) (j : Job) (slot : Slot) (p : Progress) : (s.setProgress j slot p).pins = s.pins := rfl
@[simp] theorem State.setProgress_sen (s : State) (j : Job) (slot : Slot) (p : Progress) : (s.setProgress j slot p).sen = s.sen := rfl
@[simp] theorem State.setProgress_dsq (s : State) (j : Job) (slot : Slot) (p : Progress) : (s.setProgress j slot p).dsq = s.dsq := rfl
@[simp] theorem State.setProgress_bgu (s : State) (j : Job) (slot : Slot) (p : Progress) : (s.setProgress j slot p).bgu = s.bgu := rfl
@[simp] theorem State.setProgress_clk (s : State) (j : Job) (slot : Slot) (p : Progress) : (s.setProgress j slot p).clk = s.clk := rfl
@[simp] theorem State.setProgress_quoteCounter (s : State) (j : Job) (slot : Slot) (p : Progress) : (s.setProgress j slot p).quoteCounter = s.quoteCounter := rfl
@[simp] theorem State.setProgress_out (s : State) (j : Job) (slot : Slot) (p : Progress) : (s.setProgress j slot p).out = s.out := rfl
@[simp] theorem State.setProgress_rpt (s : State) (j : Job) (slot : Slot) (p : Progress) : (s.setProgress j slot p).rpt = s.rpt := rfl
@[simp] theorem State.setProgress_liu (s : State) (j : Job) (slot : Slot) (p : Progress) : (s.setProgress j slot p).liu = s.liu := rfl
@[simp] theorem State.setProgress_restart (s : State) (j : Job) (slot : Slot) (p : Progress) : (s.setProgress j slot p).restart = s.restart := rfl
@[simp] theorem State.setProgress_heldCauses (s : State) (j : Job) (slot : Slot) (p : Progress) : (s.setProgress j slot p).heldCauses = s.heldCauses := rfl
@[simp] theorem State.setProgress_free (s : State) (j : Job) (slot : Slot) (p : Progress) : (s.setProgress j slot p).free = s.free := rfl

/-! ## What the column drives at a frame's end, and copies as a write leaves them -/

@[simp] theorem State.setDrive_pending (s : State) (d : EndDrive) : (s.setDrive d).pending = s.pending := rfl
@[simp] theorem State.setDrive_phase (s : State) (d : EndDrive) : (s.setDrive d).phase = s.phase := rfl
@[simp] theorem State.setDrive_cfg (s : State) (d : EndDrive) : (s.setDrive d).cfg = s.cfg := rfl
@[simp] theorem State.setDrive_cts (s : State) (d : EndDrive) : (s.setDrive d).cts = s.cts := rfl
@[simp] theorem State.setDrive_pins (s : State) (d : EndDrive) : (s.setDrive d).pins = s.pins := rfl
@[simp] theorem State.setDrive_sen (s : State) (d : EndDrive) : (s.setDrive d).sen = s.sen := rfl
@[simp] theorem State.setDrive_dsq (s : State) (d : EndDrive) : (s.setDrive d).dsq = s.dsq := rfl
@[simp] theorem State.setDrive_bgu (s : State) (d : EndDrive) : (s.setDrive d).bgu = s.bgu := rfl
@[simp] theorem State.setDrive_ort (s : State) (d : EndDrive) : (s.setDrive d).ort = s.ort := rfl
@[simp] theorem State.setDrive_clk (s : State) (d : EndDrive) : (s.setDrive d).clk = s.clk := rfl
@[simp] theorem State.setDrive_quoteCounter (s : State) (d : EndDrive) : (s.setDrive d).quoteCounter = s.quoteCounter := rfl
@[simp] theorem State.setDrive_out (s : State) (d : EndDrive) : (s.setDrive d).out = s.out := rfl
@[simp] theorem State.setDrive_rpt (s : State) (d : EndDrive) : (s.setDrive d).rpt = s.rpt := rfl
@[simp] theorem State.setDrive_restart (s : State) (d : EndDrive) : (s.setDrive d).restart = s.restart := rfl
@[simp] theorem State.setDrive_heldCauses (s : State) (d : EndDrive) : (s.setDrive d).heldCauses = s.heldCauses := rfl
@[simp] theorem State.setDrive_free (s : State) (d : EndDrive) : (s.setDrive d).free = s.free := rfl
@[simp] theorem State.setDrive_drive (s : State) (d : EndDrive) : (s.setDrive d).liu.drive = d := rfl
@[simp] theorem State.setDrive_line (s : State) (d : EndDrive) : (s.setDrive d).liu.line = s.liu.line := rfl
@[simp] theorem State.setDrive_timer (s : State) (d : EndDrive) : (s.setDrive d).liu.timer = s.liu.timer := rfl
@[simp] theorem State.setDrive_tx (s : State) (d : EndDrive) : (s.setDrive d).liu.tx = s.liu.tx := rfl
@[simp] theorem State.setDrive_rx (s : State) (d : EndDrive) : (s.setDrive d).liu.rx = s.liu.rx := rfl
@[simp] theorem State.setDrive_drops (s : State) (d : EndDrive) : (s.setDrive d).liu.drops = s.liu.drops := rfl
@[simp] theorem State.setDrive_checkFaults (s : State) (d : EndDrive) : (s.setDrive d).liu.checkFaults = s.liu.checkFaults := rfl
@[simp] theorem State.setDrive_failures (s : State) (d : EndDrive) : (s.setDrive d).liu.failures = s.liu.failures := rfl
@[simp] theorem State.setDrive_dropCount (s : State) (d : EndDrive) : (s.setDrive d).liu.dropCount = s.liu.dropCount := rfl
@[simp] theorem State.setDrive_roleFailures (s : State) (d : EndDrive) : (s.setDrive d).liu.roleFailures = s.liu.roleFailures := rfl
@[simp] theorem State.setDrive_handover (s : State) (d : EndDrive) : (s.setDrive d).liu.handover = s.liu.handover := rfl
@[simp] theorem State.setDrive_lineBits (s : State) (d : EndDrive) : (s.setDrive d).liu.lineBits = s.liu.lineBits := rfl

@[simp] theorem RecCopy.written_ok (slot : Slot) (g : BitVec 8) (r : CompRec) : (RecCopy.written slot g r).ok = true := rfl
@[simp] theorem RecCopy.written_gen (slot : Slot) (g : BitVec 8) (r : CompRec) : (RecCopy.written slot g r).gen = g := rfl
@[simp] theorem RecCopy.written_content (slot : Slot) (g : BitVec 8) (r : CompRec) :
    (RecCopy.written slot g r).content = r := rfl
@[simp] theorem RecCopy.written_check (slot : Slot) (g : BitVec 8) (r : CompRec) :
    (RecCopy.written slot g r).check = recordCheck slot g r := by simp only [RecCopy.written]
@[simp] theorem CountCopy.written_ok (what : Config.Retained) (n : Nat) : (CountCopy.written what n).ok = true := rfl
@[simp] theorem CountCopy.written_value (what : Config.Retained) (n : Nat) : (CountCopy.written what n).value = n := rfl
@[simp] theorem CountCopy.written_check (what : Config.Retained) (n : Nat) :
    (CountCopy.written what n).check = checkWord what n := by simp only [CountCopy.written]
@[simp] theorem CauseCopy.written_ok (c : Causes) : (CauseCopy.written c).ok = true := rfl
@[simp] theorem CauseCopy.written_set (c : Causes) : (CauseCopy.written c).set = c := rfl
@[simp] theorem CauseCopy.written_check (c : Causes) : (CauseCopy.written c).check = checkWord .causes c := by
  simp only [CauseCopy.written]

/-- A copy whose write did not succeed holds what it held, and passes its check only if it did before (entry 12). -/
theorem RecCopy.torn_holds (c : RecCopy) (n : Nat) :
    (c.torn n).gen = c.gen ∧ (c.torn n).content = c.content ∧ (c.torn n).check = c.check ∧ ((c.torn n).ok = true → c.ok = true) := by
  unfold RecCopy.torn; split <;> simp

theorem CountCopy.torn_holds (c : CountCopy) (n : Nat) :
    (c.torn n).value = c.value ∧ (c.torn n).check = c.check ∧ ((c.torn n).ok = true → c.ok = true) := by
  unfold CountCopy.torn; split <;> simp

end Sys2Proof.Machine
end

