-- ==== Sys2Proof/Laws/Frames.lean ====
section
/-! SUPPORT. Frames of the named updates, and the general lemmas of `UnchangedBut` and `Follows`. -/

namespace Sys2Proof.Machine

/-! ## UnchangedBut -/

theorem Part.same_refl (p : Part) (s : State) : p.same s s := by cases p <;> simp [Part.same]

theorem Part.same_trans {p : Part} {s t u : State} (h : p.same s t) (k : p.same t u) : p.same s u := by
  cases p <;> simp_all [Part.same]

theorem UnchangedBut.refl (ps : List Part) (s : State) : UnchangedBut ps s s := fun p _ => p.same_refl s

theorem UnchangedBut.trans {ps : List Part} {s t u : State} (h : UnchangedBut ps s t) (k : UnchangedBut ps t u) :
    UnchangedBut ps s u := fun p hp => Part.same_trans (h p hp) (k p hp)

theorem UnchangedBut.mono {ps qs : List Part} {s t : State} (h : UnchangedBut ps s t) (hq : ∀ p ∈ ps, p ∈ qs) :
    UnchangedBut qs s t := fun p hp => h p (fun hc => hp (hq p hc))

/-- The parts miss nothing of the state. -/
theorem eq_of_unchangedBut_nil {s t : State} (h : UnchangedBut [] s t) : t = s := by
  have k : ∀ p, Part.same p s t := fun p => h p (by simp)
  have e1 := k .pending; have e2 := k .phase; have e3 := k .config; have e4 := k .records; have e5 := k .store
  have e6 := k .locks; have e7 := k .minutes; have e8 := k .causes; have e9 := k .mark; have e10 := k .pins
  have e11 := k .sensing; have e12 := k .doors; have e13 := k .level; have e14 := k .pulses; have e15 := k .note
  have e16 := k .drivers; have e17 := k .requests; have e18 := k .clock; have e19 := k .quotes; have e20 := k .outputs
  have e21 := k .conditions; have e22 := k .counters; have e23 := k .line; have e24 := k .errors
  have e25 := k .transmit; have e26 := k .receive; have e27 := k .restart; have e28 := k .held; have e29 := k .free
  have e30 := k .drive
  simp only [Part.same] at *
  obtain ⟨a1, a2, a3, a4, a5, a6, a7, a8, a9, a10, a11, a12, a13, a14, a15, a16, a17⟩ := s
  obtain ⟨b1, b2, b3, b4, b5, b6, b7, b8, b9, b10, b11, b12, b13, b14, b15, b16, b17⟩ := t
  obtain ⟨c1, c2, c3, c4, c5, c6, c7, c8, c9, c10, c11, c12⟩ := a4
  obtain ⟨d1, d2, d3, d4, d5, d6, d7, d8, d9, d10, d11, d12⟩ := b4
  obtain ⟨g1, g2, g3, g4, g5, g6⟩ := a8
  obtain ⟨i1, i2, i3, i4, i5, i6⟩ := b8
  obtain ⟨l1, l2, l3, l4⟩ := a13
  obtain ⟨m1, m2, m3, m4⟩ := b13
  obtain ⟨n1, n2, n3, n4, n5, n6, n7, n8, n9, n10, n11, n12⟩ := a14
  obtain ⟨o1, o2, o3, o4, o5, o6, o7, o8, o9, o10, o11, o12⟩ := b14
  simp_all

/-! ## Frames of the updates of one block -/

theorem frame_setTx (s : State) (q : List TxFrame) : UnchangedBut [.transmit] s (s.setTx q) := by
  intro p hp; cases p <;> simp_all [Part.same, State.setTx]

theorem frame_setDrive (s : State) (d : EndDrive) : UnchangedBut [.drive] s (s.setDrive d) := by
  intro p hp; cases p <;> simp_all [Part.same, State.setDrive]

theorem frame_setOwn (s : State) (o : OwnNote) : UnchangedBut [.note] s (s.setOwn o) := by
  intro p hp; cases p <;> simp_all [Part.same, State.setOwn]

theorem frame_setDsq (s : State) (x : Dsq) : UnchangedBut [.doors] s (s.setDsq x) := by
  intro p hp; cases p <;> simp_all [Part.same]

theorem frame_setOrt (s : State) (x : List Entry) : UnchangedBut [.requests] s (s.setOrt x) := by
  intro p hp; cases p <;> simp_all [Part.same]

theorem frame_setSen (s : State) (x : Table Sense) : UnchangedBut [.sensing] s (s.setSen x) := by
  intro p hp; cases p <;> simp_all [Part.same]

theorem frame_setOut (s : State) (x : Out) : UnchangedBut [.outputs] s (s.setOut x) := by
  intro p hp; cases p <;> simp_all [Part.same]

theorem frame_setQuoteCounter (s : State) (x : BitVec 16) : UnchangedBut [.quotes] s (s.setQuoteCounter x) := by
  intro p hp; cases p <;> simp_all [Part.same]

theorem frame_setFree (s : State) (x : Nat) : UnchangedBut [.free] s (s.setFree x) := by
  intro p hp; cases p <;> simp_all [Part.same]

theorem frame_setRec (s : State) (slot : Slot) (r : CompRec) : UnchangedBut [.records] s (s.setRec slot r) := by
  intro p hp; cases p <;> simp_all [Part.same, State.setRec]

theorem frame_setStore (s : State) (slot : Slot) (x : SlotStore) : UnchangedBut [.store] s (s.setStore slot x) := by
  intro p hp; cases p <;> simp_all [Part.same, State.setStore]

theorem frame_setLocks (s : State) (slot : Slot) (x : Locks) : UnchangedBut [.locks] s (s.setLocks slot x) := by
  intro p hp; cases p <;> simp_all [Part.same, State.setLocks]

theorem frame_count (s : State) (k : EventKind) (v : Option Nat) (c : Nat) :
    UnchangedBut [.counters] s (s.count k v c) := by
  intro p hp; cases p <;> simp_all [Part.same, State.count]

theorem frame_mark (s : State) (c : Condition) (slot : Option Slot) : UnchangedBut [.conditions] s (s.mark c slot) := by
  intro p hp; cases p <;> simp_all [Part.same, State.mark]

theorem frame_refreshIdle (s : State) (slot : Slot) : UnchangedBut [.sensing] s (s.refreshIdle slot) :=
  frame_setSen s _

theorem frame_refreshOutputs (s : State) : UnchangedBut [.outputs] s s.refreshOutputs := frame_setOut s _

theorem frame_setLamp (s : State) (slot : Slot) (on : Bool) : UnchangedBut [.outputs] s (s.setLamp slot on) :=
  (frame_setOut s _).trans (frame_refreshOutputs _)

/-! ## Follows -/

theorem SameParcel.refl (p : Parcel) : SameParcel p p :=
  ⟨rfl, rfl, rfl, rfl, rfl, rfl, rfl, rfl, Nat.min_le_left _ _, .inl rfl, id⟩

theorem SameParcel.trans {p q r : Parcel} (h : SameParcel p q) (k : SameParcel q r) : SameParcel p r where
  ref := k.ref.trans h.ref
  carrier := k.carrier.trans h.carrier
  code := k.code.trans h.code
  tariff := k.tariff.trans h.tariff
  deposit := k.deposit.trans h.deposit
  limit := k.limit.trans h.limit
  cod := k.cod.trans h.cod
  estimated := k.estimated.trans h.estimated
  paid := by have := h.paid; have := k.paid; omega
  purpose := by
    rcases h.purpose with a | ⟨a, b⟩ <;> rcases k.purpose with c | ⟨c, d⟩
    · exact .inl (c.trans a)
    · exact .inr ⟨a ▸ c, d⟩
    · exact .inr ⟨a, c.trans b⟩
    · exact .inr ⟨a, d⟩
  settled := fun a => k.settled (h.settled a)

theorem ParcelsKept.refl (s : State) : ParcelsKept s s := fun _ q h => ⟨q, h, .refl q⟩

theorem ParcelsKept.trans {s t u : State} (h : ParcelsKept s t) (k : ParcelsKept t u) : ParcelsKept s u := by
  intro slot q hq
  obtain ⟨r, hr, sr⟩ := k slot q hq
  obtain ⟨p, hp, sp⟩ := h slot r hr
  exact ⟨p, hp, sp.trans sr⟩

theorem ParcelsKept.of_records {s t : State} (h : t.cts.table = s.cts.table) : ParcelsKept s t := by
  intro slot q hq
  exact ⟨q, by simpa [State.parcel?, State.rec?, h] using hq, .refl q⟩

theorem Follows.refl (s : State) : Follows s s where
  frame := .refl _ s
  sensing := fun _ => rfl
  auxDemand := rfl
  conditions := fun _ h => h
  attention := id
  parcels := .refl s
  reconciled := fun _ => rfl
  entries := fun e h => ⟨e, h, rfl⟩
  places := Nat.le_refl _
  cycles := Nat.le_max_left _ _
  transmit := Nat.le_max_left _ _

theorem Follows.config {s t : State} (h : Follows s t) : t.cfg = s.cfg := h.frame .config (by decide)

theorem Follows.conf {s t : State} (h : Follows s t) : t.conf = s.conf := by simp [State.conf, h.config]

theorem Follows.trans {s t u : State} (h : Follows s t) (k : Follows t u) : Follows s u where
  frame := h.frame.trans k.frame
  sensing := fun i => (k.sensing i).trans (h.sensing i)
  auxDemand := k.auxDemand.trans h.auxDemand
  conditions := fun c x => k.conditions c (h.conditions c x)
  attention := fun x => k.attention (h.attention x)
  parcels := h.parcels.trans k.parcels
  reconciled := fun i => (k.reconciled i).trans (h.reconciled i)
  entries := by
    intro e he
    obtain ⟨d, hd, x⟩ := k.entries e he
    obtain ⟨c, hc, y⟩ := h.entries d hd
    exact ⟨c, hc, y.trans x⟩
  places := Nat.le_trans k.places h.places
  cycles := by have := h.cycles; have := k.cycles; rw [h.conf] at this; omega
  transmit := by have := h.transmit; have := k.transmit; omega

/-- The parts of the work that carry no further promise of `Follows`. -/
def lightParts : List Part := [.store, .note, .quotes, .counters, .free]

/-- A change of light parts only. -/
theorem Follows.light {s t : State} (h : UnchangedBut lightParts s t) : Follows s t := by
  have e1 : t.cts.table = s.cts.table := h .records (by decide)
  have e2 : t.sen = s.sen := h .sensing (by decide)
  have e3 : t.dsq = s.dsq := h .doors (by decide)
  have e4 : t.ort = s.ort := h .requests (by decide)
  have e5 : t.out = s.out := h .outputs (by decide)
  have e6 : t.rpt.conds = s.rpt.conds ∧ t.rpt.lastFault = s.rpt.lastFault ∧ t.rpt.attention = s.rpt.attention :=
    h .conditions (by decide)
  have e7 : t.liu.tx = s.liu.tx := h .transmit (by decide)
  have e8 : t.cfg = s.cfg := h .config (by decide)
  exact
    { frame := h.mono (by decide)
      sensing := fun i => by simp [State.sense, e2]
      auxDemand := by rw [e5]
      conditions := fun c x => by simpa [Rpt.isSet, e6.1] using x
      attention := fun x => by rw [e6.1, e6.2.2, State.conf, e8]; exact x
      parcels := .of_records e1
      reconciled := fun i => by simp [State.rec?, e1]
      entries := fun e x => ⟨e, e4 ▸ x, rfl⟩
      places := by rw [e4]
      cycles := by rw [e3]; exact Nat.le_max_left _ _
      transmit := by rw [e7]; exact Nat.le_max_left _ _ }

end Sys2Proof.Machine
end

