-- ==== Sys2Proof/WellFormed.lean ====
section
/-! DEFINITION. When a command is well formed: its operands are ones that the row's event can have. -/

namespace Sys2Proof

/-- A frame on the line has a sender from 1 to 63 and as many payload bytes as its length says, or 20 where the length
is above 20 (R153, R155). -/
def Frame.wellFormed (f : Frame) : Bool :=
  f.station != 0 && f.payload.length == min f.length.toNat 20

/-- A ticket's station is a station number, 1 to 63 (Table 6-1). -/
def Ticket.wellFormed (t : Ticket) : Bool := t.station != 0

/-- The kind numbers of the frames of class 0 and 1 (Table 11-4). -/
def pulseNoteKind : BitVec 6 := 1
def powerStateKind : BitVec 6 := 2
def placeOfferKind : BitVec 6 := 4

/-- An arrival of a frame of class 0 or 1 whose kind is the given one. -/
def Arrival.wellFormed (k : BitVec 6) : Arrival → Bool
  | .own => true
  | .other f => f.wellFormed && f.kind == k

/-- A command whose operands fit its row. -/
def Instr.wellFormed : Instr → Bool
  | .powerReset _ => true
  | .brownoutReset _ => true
  | .pinReset _ => true
  | .restartReset _ => true
  | .configurationRead _ => true
  | .resetCauseWrite _ => true
  | .baselineSettled _ _ _ => true
  | .baselineTimeout _ door presence => door.isNone || presence.isNone
  | .reconciliation _ => true
  | .joiningEntry => true
  | .joiningEnd => true
  | .quietEnd => true
  | .transmissionStart => true
  | .arbitrationLost => true
  | .transmissionFailed _ => true
  | .transmissionSucceeded => true
  | .frameTaken f => f.wellFormed && decide (2 ≤ f.cls.toNat)
  | .pulseNote a => a.wellFormed pulseNoteKind
  | .powerState f => f.wellFormed && f.kind == powerStateKind
  | .levelAgeExpiry => true
  | .pulseEntryEnd station _ => station != 0
  | .driverOff _ => true
  | .placeOffer a => a.wellFormed placeOfferKind
  | .placeCall => true
  | .placeDetail => true
  | .collectCall => true
  | .payNote => true
  | .collectGo => true
  | .sweepCall => true
  | .sweepGo => true
  | .freeQuery => true
  | .statusQuery => true
  | .slotQuery => true
  | .countQuery => true
  | .countClear => true
  | .outputSet => true
  | .time => true
  | .serviceOpen => true
  | .serviceClear => true
  | .serviceRetire => true
  | .serviceRestore => true
  | .serviceRestart => true
  | .alertClear => true
  | .entryLapse _ ticket => ticket.wellFormed
  | .boltStep _ _ => true
  | .homeReZero _ => true
  | .doorOpened _ => true
  | .doorClosed _ => true
  | .presenceOn _ => true
  | .presenceOff _ => true
  | .secure _ => true
  | .pulseWaitLimit _ => true
  | .popWindowEnd _ => true
  | .ajar _ => true
  | .latchFault _ => true
  | .latchFaultSettleEnd _ => true
  | .settleTimerEnd _ => true
  | .recordWriteComplete _ _ => true
  | .lockCountWrite _ _ => true
  | .minuteTick => true
  | .retainedMinuteWrite _ => true
  | .syncLost => true
  | .frameVoided f => f.wellFormed
  | .doubleGateChange _ => true

end Sys2Proof
end

