-- ==== Sys2Proof/Laws/PerInstr.lean ====
section
/-! SUPPORT. The per-command family `Syntax`: what the check of well-formedness says of each command, in words. -/

namespace Sys2Proof.Laws.Syntax

/-- A frame that can stand on the line (R153, R155): a sender from 1 to 63, and as many payload bytes as its length says, or 20
where the length is above 20. -/
def OnTheLine (f : Frame) : Prop := f.station ≠ 0 ∧ f.payload.length = min f.length.toNat 20

/-- What a command's operands must satisfy for its row's event to be possible. -/
def Fits : Instr → Prop
  | .powerReset _ => True
  | .brownoutReset _ => True
  | .pinReset _ => True
  | .restartReset _ => True
  | .configurationRead _ => True
  | .resetCauseWrite _ => True
  | .baselineSettled _ _ _ => True
  | .baselineTimeout _ door presence => door = none ∨ presence = none
  | .reconciliation _ => True
  | .joiningEntry => True
  | .joiningEnd => True
  | .quietEnd => True
  | .transmissionStart => True
  | .arbitrationLost => True
  | .transmissionFailed _ => True
  | .transmissionSucceeded => True
  | .frameTaken f => OnTheLine f ∧ 2 ≤ f.cls.toNat
  | .pulseNote a => ∀ f, a = .other f → OnTheLine f ∧ f.kind = 1
  | .powerState f => OnTheLine f ∧ f.kind = 2
  | .levelAgeExpiry => True
  | .pulseEntryEnd station _ => station ≠ 0
  | .driverOff _ => True
  | .placeOffer a => ∀ f, a = .other f → OnTheLine f ∧ f.kind = 4
  | .placeCall => True
  | .placeDetail => True
  | .collectCall => True
  | .payNote => True
  | .collectGo => True
  | .sweepCall => True
  | .sweepGo => True
  | .freeQuery => True
  | .statusQuery => True
  | .slotQuery => True
  | .countQuery => True
  | .countClear => True
  | .outputSet => True
  | .time => True
  | .serviceOpen => True
  | .serviceClear => True
  | .serviceRetire => True
  | .serviceRestore => True
  | .serviceRestart => True
  | .alertClear => True
  | .entryLapse _ ticket => ticket.station ≠ 0
  | .boltStep _ _ => True
  | .homeReZero _ => True
  | .doorOpened _ => True
  | .doorClosed _ => True
  | .presenceOn _ => True
  | .presenceOff _ => True
  | .secure _ => True
  | .pulseWaitLimit _ => True
  | .popWindowEnd _ => True
  | .ajar _ => True
  | .latchFault _ => True
  | .latchFaultSettleEnd _ => True
  | .settleTimerEnd _ => True
  | .recordWriteComplete _ _ => True
  | .lockCountWrite _ _ => True
  | .minuteTick => True
  | .retainedMinuteWrite _ => True
  | .syncLost => True
  | .frameVoided f => OnTheLine f
  | .doubleGateChange _ => True

/-- The check of well-formedness decides exactly that. -/
def Statement (i : Instr) : Prop := i.wellFormed = true ↔ Fits i

theorem powerReset (active : Causes) : Statement (.powerReset active) := iff_of_true rfl trivial

theorem brownoutReset (active : Causes) : Statement (.brownoutReset active) := iff_of_true rfl trivial

theorem pinReset (active : Causes) : Statement (.pinReset active) := iff_of_true rfl trivial

theorem restartReset (active : Causes) : Statement (.restartReset active) := iff_of_true rfl trivial

theorem configurationRead (r : ConfigRead) : Statement (.configurationRead r) := iff_of_true rfl trivial

theorem resetCauseWrite (ok : Bool) : Statement (.resetCauseWrite ok) := iff_of_true rfl trivial

theorem baselineSettled (slot : Slot) (door presence : Bool) : Statement (.baselineSettled slot door presence) :=
  iff_of_true rfl trivial

theorem baselineTimeout (slot : Slot) (door presence : Option Bool) : Statement (.baselineTimeout slot door presence) := by
  simp [Statement, Fits, Instr.wellFormed]

theorem reconciliation (slot : Slot) : Statement (.reconciliation slot) := iff_of_true rfl trivial

theorem joiningEntry : Statement .joiningEntry := iff_of_true rfl trivial

theorem joiningEnd : Statement .joiningEnd := iff_of_true rfl trivial

theorem quietEnd : Statement .quietEnd := iff_of_true rfl trivial

theorem transmissionStart : Statement .transmissionStart := iff_of_true rfl trivial

theorem arbitrationLost : Statement .arbitrationLost := iff_of_true rfl trivial

theorem transmissionFailed (how : TxFailure) : Statement (.transmissionFailed how) := iff_of_true rfl trivial

theorem transmissionSucceeded : Statement .transmissionSucceeded := iff_of_true rfl trivial

theorem frameTaken (f : Frame) : Statement (.frameTaken f) := by
  simp [Statement, Fits, Instr.wellFormed, OnTheLine, Frame.wellFormed]

theorem pulseNote (a : Arrival) : Statement (.pulseNote a) := by
  cases a with
  | own => simp [Statement, Fits, Instr.wellFormed, Arrival.wellFormed]
  | other f => simp [Statement, Fits, Instr.wellFormed, Arrival.wellFormed, OnTheLine, Frame.wellFormed, pulseNoteKind]

theorem powerState (f : Frame) : Statement (.powerState f) := by
  simp [Statement, Fits, Instr.wellFormed, OnTheLine, Frame.wellFormed, powerStateKind]

theorem levelAgeExpiry : Statement .levelAgeExpiry := iff_of_true rfl trivial

theorem pulseEntryEnd (station : BitVec 6) (slot : BitVec 5) : Statement (.pulseEntryEnd station slot) := by
  simp [Statement, Fits, Instr.wellFormed]

theorem driverOff (slot : Slot) : Statement (.driverOff slot) := iff_of_true rfl trivial

theorem placeOffer (a : Arrival) : Statement (.placeOffer a) := by
  cases a with
  | own => simp [Statement, Fits, Instr.wellFormed, Arrival.wellFormed]
  | other f => simp [Statement, Fits, Instr.wellFormed, Arrival.wellFormed, OnTheLine, Frame.wellFormed, placeOfferKind]

theorem placeCall : Statement .placeCall := iff_of_true rfl trivial

theorem placeDetail : Statement .placeDetail := iff_of_true rfl trivial

theorem collectCall : Statement .collectCall := iff_of_true rfl trivial

theorem payNote : Statement .payNote := iff_of_true rfl trivial

theorem collectGo : Statement .collectGo := iff_of_true rfl trivial

theorem sweepCall : Statement .sweepCall := iff_of_true rfl trivial

theorem sweepGo : Statement .sweepGo := iff_of_true rfl trivial

theorem freeQuery : Statement .freeQuery := iff_of_true rfl trivial

theorem statusQuery : Statement .statusQuery := iff_of_true rfl trivial

theorem slotQuery : Statement .slotQuery := iff_of_true rfl trivial

theorem countQuery : Statement .countQuery := iff_of_true rfl trivial

theorem countClear : Statement .countClear := iff_of_true rfl trivial

theorem outputSet : Statement .outputSet := iff_of_true rfl trivial

theorem time : Statement .time := iff_of_true rfl trivial

theorem serviceOpen : Statement .serviceOpen := iff_of_true rfl trivial

theorem serviceClear : Statement .serviceClear := iff_of_true rfl trivial

theorem serviceRetire : Statement .serviceRetire := iff_of_true rfl trivial

theorem serviceRestore : Statement .serviceRestore := iff_of_true rfl trivial

theorem serviceRestart : Statement .serviceRestart := iff_of_true rfl trivial

theorem alertClear : Statement .alertClear := iff_of_true rfl trivial

theorem entryLapse (kind : EntryKind) (ticket : Ticket) : Statement (.entryLapse kind ticket) := by
  simp [Statement, Fits, Instr.wellFormed, Ticket.wellFormed]

theorem boltStep (slot : Slot) (gate : Gate) : Statement (.boltStep slot gate) := iff_of_true rfl trivial

theorem homeReZero (slot : Slot) : Statement (.homeReZero slot) := iff_of_true rfl trivial

theorem doorOpened (slot : Slot) : Statement (.doorOpened slot) := iff_of_true rfl trivial

theorem doorClosed (slot : Slot) : Statement (.doorClosed slot) := iff_of_true rfl trivial

theorem presenceOn (slot : Slot) : Statement (.presenceOn slot) := iff_of_true rfl trivial

theorem presenceOff (slot : Slot) : Statement (.presenceOff slot) := iff_of_true rfl trivial

theorem secure (slot : Slot) : Statement (.secure slot) := iff_of_true rfl trivial

theorem pulseWaitLimit (slot : Slot) : Statement (.pulseWaitLimit slot) := iff_of_true rfl trivial

theorem popWindowEnd (slot : Slot) : Statement (.popWindowEnd slot) := iff_of_true rfl trivial

theorem ajar (slot : Slot) : Statement (.ajar slot) := iff_of_true rfl trivial

theorem latchFault (slot : Slot) : Statement (.latchFault slot) := iff_of_true rfl trivial

theorem latchFaultSettleEnd (slot : Slot) : Statement (.latchFaultSettleEnd slot) := iff_of_true rfl trivial

theorem settleTimerEnd (slot : Slot) : Statement (.settleTimerEnd slot) := iff_of_true rfl trivial

theorem recordWriteComplete (slot : Slot) (matched : Bool) : Statement (.recordWriteComplete slot matched) :=
  iff_of_true rfl trivial

theorem lockCountWrite (slot : Slot) (ok : Bool) : Statement (.lockCountWrite slot ok) := iff_of_true rfl trivial

theorem minuteTick : Statement .minuteTick := iff_of_true rfl trivial

theorem retainedMinuteWrite (ok : Bool) : Statement (.retainedMinuteWrite ok) := iff_of_true rfl trivial

theorem syncLost : Statement .syncLost := iff_of_true rfl trivial

theorem frameVoided (f : Frame) : Statement (.frameVoided f) := by
  simp [Statement, Fits, Instr.wellFormed, OnTheLine, Frame.wellFormed]

theorem doubleGateChange (slot : Slot) : Statement (.doubleGateChange slot) := iff_of_true rfl trivial

end Sys2Proof.Laws.Syntax
end

