-- ==== Sys2Proof/Laws/Work.lean ====
section
/-! SUPPORT. What the shared operations may do, one lemma per operation: each operation that the tests at a command's end
use is a `Follows` step. -/

namespace Sys2Proof.Machine

/-! ## The transmit queue (R160) -/

theorem discardIndex_isSome (q : List TxFrame) (i : Nat) (best : Option (Nat × Nat)) (h : best.isSome = true) :
    (discardIndex q i best).isSome = true := by
  induction q generalizing i best with
  | nil => simpa [discardIndex] using h
  | cons f rest ih =>
    simp only [discardIndex]
    apply ih
    cases best with
    | none => simp at h
    | some b => obtain ⟨j, k⟩ := b; dsimp only; split <;> (try split) <;> rfl

theorem discardIndex_lt (q : List TxFrame) (i : Nat) (best : Option (Nat × Nat)) (j : Nat)
    (hb : ∀ b, best = some b → b.1 < i + q.length) (h : discardIndex q i best = some j) : j < i + q.length := by
  induction q generalizing i best with
  | nil =>
    simp only [discardIndex, Option.map_eq_some_iff] at h
    obtain ⟨b, hb', rfl⟩ := h
    exact hb b hb'
  | cons f rest ih =>
    simp only [discardIndex] at h
    have := ih (i + 1) _ ?_ h
    · simp only [List.length_cons] at *; omega
    · intro b hb'
      simp only [List.length_cons] at hb
      split at hb'
      · split at hb'
        · split at hb' <;> simp only [Option.some.injEq] at hb' <;> subst hb'
          · simp only []; omega
          · have := hb _ rfl; simp only [] at *; omega
        · simp only [Option.some.injEq] at hb'; subst hb'; simp only []; omega
      · have := hb b hb'; omega

/-- The queue after a placing has at most 8 frames, or as many as before (R160). -/
theorem placeIn_length (f : TxFrame) (q : List TxFrame) : (placeIn f q).queue.length ≤ max q.length 8 := by
  simp only [placeIn]
  split
  · simp [txPlaces] at *; omega
  · split
    · rename_i i h
      have := discardIndex_lt _ _ _ _ (by simp) h
      simp only [Nat.zero_add, List.length_append, List.length_singleton] at this
      simp [List.length_eraseIdx, this]
    · simp

/-! ## Follows: the primitive updates -/

theorem Follows.setTx (s : State) (q : List TxFrame) (h : q.length ≤ max s.liu.tx.length 8) : Follows s (s.setTx q) where
  frame := (frame_setTx s q).mono (by decide)
  sensing := fun i => by simp [State.sense, State.setTx]
  auxDemand := rfl
  conditions := fun c x => x
  attention := id
  parcels := .of_records rfl
  reconciled := fun i => rfl
  entries := fun e x => ⟨e, x, rfl⟩
  places := Nat.le_refl _
  cycles := Nat.le_max_left _ _
  transmit := h

theorem isSet_or (conds : BitVec 14) (c d : Condition) (r : Rpt) (hr : r.conds = conds ||| c.bit)
    (h : (conds &&& d.bit) ≠ 0#14) : r.isSet d = true := by
  simp only [Rpt.isSet, hr, bne_iff_ne]
  intro hz
  apply h
  have : (conds ||| c.bit) &&& d.bit = (conds &&& d.bit) ||| (c.bit &&& d.bit) := by
    ext i; simp [Bool.and_or_distrib_right]
  rw [this, BitVec.or_eq_zero_iff] at hz
  exact hz.1

theorem isSet_mark_same (s : State) (c : Condition) (slot : Option Slot) : (s.mark c slot).rpt.isSet c = true := by
  have hc : c.bit ≠ 0#14 := by cases c <;> decide
  simp only [Rpt.isSet, State.mark, State.setRpt_rpt, bne_iff_ne]
  intro hz
  apply hc
  have : (s.rpt.conds ||| c.bit) &&& c.bit = c.bit := by ext i; simp; intro h; exact .inr h
  rwa [this] at hz

theorem Follows.mark (s : State) (c : Condition) (slot : Option Slot) : Follows s (s.mark c slot) where
  frame := (frame_mark s c slot).mono (by decide)
  sensing := fun i => by simp [State.sense, State.mark]
  auxDemand := rfl
  conditions := fun d h => isSet_or s.rpt.conds c d _ rfl (by simpa [Rpt.isSet] using h)
  attention := fun _ => rfl
  parcels := .of_records rfl
  reconciled := fun i => rfl
  entries := fun e x => ⟨e, x, rfl⟩
  places := Nat.le_refl _
  cycles := Nat.le_max_left _ _
  transmit := Nat.le_max_left _ _

/-- Every parcel record of the second state was in the first. -/
def KeepsParcel (c d : CompState) : Prop := ∀ q, d.parcel? = some q → ∃ p, c.parcel? = some p ∧ SameParcel p q

theorem KeepsParcel.of_eq {c d : CompState} (h : d.parcel? = c.parcel?) : KeepsParcel c d :=
  fun q hq => ⟨q, h ▸ hq, .refl q⟩

theorem KeepsParcel.of_none {c d : CompState} (h : d.parcel? = none) : KeepsParcel c d := fun q hq => by simp [h] at hq

theorem Follows.setRec (s : State) (slot : Slot) (r old : CompRec) (h : s.rec? slot = some old)
    (hk : KeepsParcel old.state r.state) : Follows s (s.setRec slot r) where
  frame := (frame_setRec s slot r).mono (by decide)
  sensing := fun i => by simp [State.sense, State.setRec]
  auxDemand := rfl
  conditions := fun d h => h
  attention := id
  parcels := by
    intro i q hq
    simp only [State.parcel?, State.rec?, State.setRec, State.setCts_cts, tget_tset] at hq
    by_cases e : slot = i
    · subst e
      simp only [if_true, Option.bind_some] at hq
      obtain ⟨p, hp, hs⟩ := hk q hq
      exact ⟨p, by simp [State.parcel?, h, hp], hs⟩
    · simp only [if_neg e] at hq
      exact ⟨q, hq, .refl q⟩
  reconciled := by
    intro i
    simp only [State.rec?, State.setRec, State.setCts_cts, tget_tset]
    split
    · rename_i e; subst e; simp only [State.rec?] at h; simp [h]
    · rfl
  entries := fun e x => ⟨e, x, rfl⟩
  places := Nat.le_refl _
  cycles := Nat.le_max_left _ _
  transmit := Nat.le_max_left _ _

theorem Follows.setOrt (s : State) (x : List Entry) (h : ∀ e ∈ x, ∃ d ∈ s.ort, d.job = e.job)
    (hl : x.length ≤ s.ort.length) : Follows s (s.setOrt x) where
  frame := (frame_setOrt s x).mono (by decide)
  sensing := fun i => by simp [State.sense]
  auxDemand := rfl
  conditions := fun d h => h
  attention := id
  parcels := .of_records rfl
  reconciled := fun i => rfl
  entries := h
  places := hl
  cycles := Nat.le_max_left _ _
  transmit := Nat.le_max_left _ _

theorem Follows.setDsq (s : State) (x : Dsq) (h : x.cycles.length ≤ max s.dsq.cycles.length s.conf.span) :
    Follows s (s.setDsq x) where
  frame := (frame_setDsq s x).mono (by decide)
  sensing := fun i => by simp [State.sense]
  auxDemand := rfl
  conditions := fun d h => h
  attention := id
  parcels := .of_records rfl
  reconciled := fun i => rfl
  entries := fun e x => ⟨e, x, rfl⟩
  places := Nat.le_refl _
  cycles := h
  transmit := Nat.le_max_left _ _

theorem Follows.refreshIdle (s : State) (slot : Slot) : Follows s (s.refreshIdle slot) where
  frame := (frame_refreshIdle s slot).mono (by decide)
  sensing := by
    intro i
    simp only [State.refreshIdle, State.setSense, State.sense, State.setSen_sen, tget_tset]
    split
    · rename_i e; subst e; rfl
    · rfl
  auxDemand := rfl
  conditions := fun d h => h
  attention := id
  parcels := .of_records rfl
  reconciled := fun i => rfl
  entries := fun e x => ⟨e, x, rfl⟩
  places := Nat.le_refl _
  cycles := Nat.le_max_left _ _
  transmit := Nat.le_max_left _ _

theorem Follows.setLamp (s : State) (slot : Slot) (on : Bool) : Follows s (s.setLamp slot on) where
  frame := (frame_setLamp s slot on).mono (by decide)
  sensing := fun i => by simp [State.sense]
  auxDemand := rfl
  conditions := fun d h => by simpa using h
  attention := fun h => by simpa [State.conf] using h
  parcels := .of_records (by simp)
  reconciled := fun i => by simp [State.rec?]
  entries := fun e x => ⟨e, by simpa using x, rfl⟩
  places := by simp
  cycles := by simp
  transmit := by simp

theorem Follows.setOwn (s : State) (o : OwnNote) : Follows s (s.setOwn o) := .light ((frame_setOwn s o).mono (by decide))

theorem Follows.setStore (s : State) (slot : Slot) (x : SlotStore) : Follows s (s.setStore slot x) :=
  .light ((frame_setStore s slot x).mono (by decide))

theorem Follows.setFree (s : State) (n : Nat) : Follows s (s.setFree n) := .light ((frame_setFree s n).mono (by decide))

theorem Follows.setQuoteCounter (s : State) (n : BitVec 16) : Follows s (s.setQuoteCounter n) :=
  .light ((frame_setQuoteCounter s n).mono (by decide))

theorem Follows.count (s : State) (k : EventKind) (v : Option Nat) (c : Nat) : Follows s (s.count k v c) :=
  .light ((frame_count s k v c).mono (by decide))

/-- A `Follows` step over each member of a list. -/
theorem Follows.foldl {α : Type} (f : State → α → State) (h : ∀ s x, Follows s (f s x)) (xs : List α) (s : State) :
    Follows s (xs.foldl f s) := by
  induction xs generalizing s with
  | nil => exact .refl s
  | cons x xs ih => exact (h s x).trans (ih _)

/-! ## Conditions, answers and refusals -/

theorem Follows.placed (s : State) (f : TxFrame) : Follows s (s.setTx (placeIn f s.liu.tx).queue) :=
  .setTx s _ (placeIn_length f _)

theorem Follows.alertIfRisen (s : State) (b : Bool) : Follows s (s.alertIfRisen b) := by
  unfold State.alertIfRisen
  split
  · dsimp only
    split
    · exact (Follows.placed s _).trans (.mark _ _ _)
    · exact .placed s _
  · exact .refl s

theorem Follows.raise (s : State) (c : Condition) (slot : Option Slot) : Follows s (s.raise c slot) :=
  (Follows.mark s c slot).trans (.alertIfRisen _ _)

/-- A condition that is raised is set. -/
theorem isSet_raise_same (s : State) (c : Condition) (slot : Option Slot) : (s.raise c slot).rpt.isSet c = true :=
  (Follows.alertIfRisen (s.mark c slot) s.rpt.attention).conditions c (isSet_mark_same s c slot)

theorem Follows.queueFrame (s : State) (f : TxFrame) : Follows s (s.queueFrame f) := by
  unfold State.queueFrame
  dsimp only
  split
  · exact (Follows.placed s f).trans (.raise _ _ _)
  · exact .placed s f

theorem Follows.answer (s : State) (d : BitVec 6) (b : Body) : Follows s (s.answer d b) := .queueFrame s _

theorem Follows.refusalEvent (s : State) (r : Reason) (c : Nat) : Follows s (s.refusalEvent r c) := .count s _ _ _

theorem Follows.refuse (s : State) (d : BitVec 6) (n : Option (BitVec 16)) (slot : Option Nat) (r : Reason) (c : Nat) :
    Follows s (s.refuse d n slot r c) := (Follows.answer s d _).trans (.refusalEvent _ _ _)

theorem Follows.refuseSlot (s : State) (t : Ticket) (slot : Slot) (r : Reason) : Follows s (s.refuseSlot t slot r) :=
  .refuse s _ _ _ _ _

/-! ## A change of a record and its write (R15, R16) -/

theorem Follows.beginWrite (s : State) (slot : Slot) (ws : List Waiter) (b : WriteCause) :
    Follows s (s.beginWrite slot ws b) := by
  unfold State.beginWrite
  split
  · exact .refl s
  · exact (Follows.setStore s slot _).trans (.setFree _ _)

theorem Follows.scheduleWrite (s : State) (slot : Slot) : Follows s (s.scheduleWrite slot) := by
  unfold State.scheduleWrite
  dsimp only
  split
  · exact .beginWrite s _ _ _
  · exact .setStore s _ _

theorem Follows.attach {s s' : State} {slot : Slot} {w : Waiter} (h : s.attach slot w = some s') : Follows s s' := by
  unfold State.attach at h
  dsimp only at h
  split at h
  · cases h; exact .setStore s _ _
  · cases h; exact .setStore s _ _
  · cases h

theorem Follows.enterEvent (s : State) (c d : CompState) (n : Nat) : Follows s (s.enterEvent c d n) := by
  unfold State.enterEvent
  split
  · exact .count s _ _ _
  · exact .refl s

theorem Follows.raiseCause (s : State) (c d : CompState) (slot : Slot) : Follows s (s.raiseCause c d slot) := by
  unfold State.raiseCause
  split
  · split
    · exact .refl s
    · exact .raise s _ _
  · exact .refl s

/-- A change of a record that keeps or removes its parcel record (R3). -/
theorem Follows.change (s : State) (slot : Slot) (new : CompRec) (call : Nat)
    (hk : ∀ old, s.rec? slot = some old → KeepsParcel old.state new.state) : Follows s (s.change slot new call) := by
  unfold State.change
  split
  · exact .refl s
  · rename_i old h
    split
    · exact .refl s
    · exact (((Follows.setRec s slot new old h (hk old h)).trans (.enterEvent _ _ _ _)).trans
        (.raiseCause _ _ _ _)).trans (.scheduleWrite _ _)

theorem Follows.changeTested (s : State) (slot : Slot) (new : CompRec)
    (hk : ∀ old, s.rec? slot = some old → KeepsParcel old.state new.state) : Follows s (s.changeTested slot new) := by
  unfold State.changeTested
  split
  · exact .refl s
  · split
    · exact Follows.trans (.change s slot { new with lost := true } 0 hk) (.raise _ _ _)
    · exact .change s slot new 0 hk

theorem Follows.emptyChecked (s : State) (slot : Slot) : Follows s (s.emptyChecked slot) := by
  unfold State.emptyChecked
  dsimp only
  have h := Follows.change s slot (CompRec.emptied (s.sense slot).presenceIsOn) 0
    (fun _ _ => .of_none rfl)
  split
  · exact h.trans (.raise _ _ _)
  · exact h

theorem Follows.expire (s : State) (slot : Slot) : Follows s (s.expire slot) := by
  unfold State.expire
  split
  · exact .refl s
  · rename_i r h
    split
    · rename_i p hp
      split
      · rename_i hd
        apply Follows.change
        intro old ho
        rw [h] at ho; cases ho
        intro q hq
        simp only [CompState.parcel?, Option.some.injEq] at hq
        subst hq
        exact ⟨p, by rw [hp]; rfl, ⟨rfl, rfl, rfl, rfl, rfl, rfl, rfl, rfl, Nat.min_le_left _ _, .inr ⟨hd, rfl⟩, id⟩⟩
      · exact .refl s
    · exact .refl s

/-! ## Entries (R81, R84, R89) -/

theorem Follows.updEntry (s : State) (j : Job) (f : Entry → Entry) (h : ∀ e, (f e).job = e.job) :
    Follows s (s.updEntry j f) := by
  refine .setOrt s _ ?_ (by simp)
  intro e he
  simp only [List.mem_map] at he
  obtain ⟨d, hd, rfl⟩ := he
  refine ⟨d, hd, ?_⟩
  split
  · rw [h]
  · rfl

theorem Follows.dropEntry (s : State) (j : Job) : Follows s (s.dropEntry j) :=
  .setOrt s _ (fun e he => ⟨e, (List.mem_filter.mp he).1, rfl⟩) (List.length_filter_le _ _)

theorem Follows.deferredExpiry (s : State) (slot : Slot) : Follows s (s.deferredExpiry slot) := by
  unfold State.deferredExpiry
  split
  · exact .refl s
  · split
    · exact .expire s slot
    · exact .refl s

theorem Follows.finishEntry (s : State) (j : Job) : Follows s (s.finishEntry j) := by
  unfold State.finishEntry
  split
  · exact .refl s
  · exact (Follows.dropEntry s j).trans (.foldl _ (fun s x => .deferredExpiry s x) _ _)

theorem Follows.releaseSlot (s : State) (j : Job) (slot : Slot) : Follows s (s.releaseSlot j slot) := by
  unfold State.releaseSlot
  dsimp only
  split
  · refine Follows.trans ?_ (.deferredExpiry _ _)
    exact .updEntry s j _ (fun _ => rfl)
  · exact .updEntry s j _ (fun _ => rfl)

theorem Follows.removeSlot (s : State) (j : Job) (slot : Slot) : Follows s (s.removeSlot j slot) := by
  unfold State.removeSlot
  dsimp only
  split
  · refine Follows.trans ?_ (.deferredExpiry _ _)
    exact .updEntry s j _ (fun _ => rfl)
  · exact .updEntry s j _ (fun _ => rfl)

theorem Follows.endIfDone (s : State) (j : Job) : Follows s (s.endIfDone j) := by
  unfold State.endIfDone
  split
  · exact .refl s
  · split
    · exact .finishEntry s j
    · split
      · exact .updEntry s j _ (fun _ => rfl)
      · exact .refl s

theorem Follows.slotDone (s : State) (j : Job) (slot : Slot) : Follows s (s.slotDone j slot) :=
  (Follows.releaseSlot s j slot).trans (.endIfDone _ _)

theorem Follows.setProgress (s : State) (j : Job) (slot : Slot) (p : Progress) :
    Follows s (s.setProgress j slot p) := .updEntry s j _ (fun _ => rfl)

theorem Follows.issueQuote (s : State) (j : Job) (slot : Slot) (p : Parcel) (t : Nat) :
    Follows s (s.issueQuote j slot p t) := by
  refine Follows.trans ?_ (.setQuoteCounter _ _)
  exact .updEntry s j _ (fun _ => rfl)

/-! ## Answers that wait for a write -/

theorem Follows.placeDone (s : State) (t : Ticket) (slot : Slot) (r : DepositResult) :
    Follows s (s.placeDone t slot r) := (Follows.answer s _ _).trans (.finishEntry _ _)

theorem Follows.afterRelease (s : State) (j : Job) (slot : Slot) : Follows s (s.afterRelease j slot) := by
  unfold State.afterRelease
  split
  · exact .slotDone s j slot
  · exact .slotDone s j slot
  · exact .finishEntry s j
  · exact .refl s

theorem Follows.releaseDone (s : State) (j : Job) (slot : Slot) (r : ReleaseResult) (ref : BitVec 64) :
    Follows s (s.releaseDone j slot r ref) := (Follows.answer s _ _).trans (.afterRelease _ _ _)

theorem Follows.serviceDone (s : State) (t : Ticket) (slot : Slot) (r : ReleaseResult) (ref : BitVec 64) :
    Follows s (s.serviceDone t slot r ref) := (Follows.answer s _ _).trans (.finishEntry _ _)

theorem Follows.paymentQuote (s : State) (t : Ticket) (slot : Slot) (x m : Nat) (p : Parcel) :
    Follows s (s.paymentQuote t slot x m p) := (Follows.issueQuote s _ _ _ _).trans (.answer _ _ _)

theorem Follows.releaseAnswer (s : State) (slot : Slot) (w : Waiter) : Follows s (s.releaseAnswer slot w) := by
  cases w with
  | placeDone t r => exact .placeDone s t slot r
  | releaseDone j r ref => exact .releaseDone s j slot r ref
  | serviceDone t r ref => exact .serviceDone s t slot r ref
  | payment t x m p => exact .paymentQuote s t slot x m p
  | endEntry j => exact .finishEntry s j
  | cycleStart => exact .refl s
  | detail t => exact .refl s

theorem Follows.await (s : State) (slot : Slot) (w : Waiter) : Follows s (s.await slot w) := by
  unfold State.await
  split
  · rename_i h; exact .attach h
  · exact .releaseAnswer s slot w

/-! ## The own note (R69, R74) -/

theorem Follows.removeNote (s : State) : Follows s s.removeNote :=
  .setTx s _ (Nat.le_trans (List.length_filter_le _ _) (Nat.le_max_left _ _))

theorem Follows.noteCycleEnded (s : State) (slot : Slot) : Follows s (s.noteCycleEnded slot) := by
  unfold State.noteCycleEnded
  split
  · split
    · exact .setOwn s _
    · exact .refl s
  · split
    · split
      · exact .setOwn s _
      · exact (Follows.removeNote s).trans (.setOwn _ _)
    · exact .refl s
  · exact .refl s

theorem Follows.placeNote (s : State) (c : Cycle) : Follows s (s.placeNote c) := by
  unfold State.placeNote
  dsimp only
  split
  · exact ((Follows.placed s _).trans (.raise _ _ _)).trans (.setOwn _ _)
  · exact (Follows.placed s _).trans (.setOwn _ _)

theorem Follows.noteTest (s : State) : Follows s s.noteTest := by
  unfold State.noteTest
  split
  · exact .refl s
  · split
    · exact .refl s
    · split
      · exact .placeNote s _
      · exact .refl s

/-! ## What an outcome makes of a record (Tables 7-3, 10-4, 10-6) -/

theorem mapDeposit_keeps (r : CompRec) (o : Outcome) (on : Bool) : KeepsParcel r.state (mapDeposit r o on).1.state := by
  unfold mapDeposit
  split
  · exact .of_eq rfl
  · split
    · split
      · rename_i p h; exact .of_eq (by rw [h]; rfl)
      · exact .of_eq rfl
    · exact .of_none rfl
    · exact .of_none rfl
    · exact .of_none rfl
    · exact .of_none rfl
    · rename_i b; cases b
      · exact .of_none rfl
      · exact .of_eq rfl
    · exact .of_eq rfl

theorem reoccupied_keeps (r : CompRec) : KeepsParcel r.state r.reoccupied.state := by
  unfold CompRec.reoccupied
  split
  · rename_i p h; exact .of_eq (by rw [h]; rfl)
  · exact .of_eq rfl

theorem mapRemoval_keeps (r : CompRec) (o : Outcome) : KeepsParcel r.state (mapRemoval r o).1.state := by
  unfold mapRemoval
  split
  · exact .of_eq rfl
  · split
    · exact reoccupied_keeps r
    · exact .of_none rfl
    · exact .of_eq rfl
    · exact .of_eq rfl
    · exact reoccupied_keeps r
    · rename_i b; cases b
      · exact .of_none rfl
      · exact .of_eq rfl
    · exact .of_eq rfl

theorem mapService_keeps (st : StartState) (r : CompRec) (o : Outcome) (on : Bool) :
    KeepsParcel r.state (mapService st r o on).record.state := by
  unfold mapService
  split
  · exact .of_eq rfl
  · split
    · exact mapRemoval_keeps r o
    · cases o <;> exact .of_none rfl
    · cases o with
      | securedPresent => exact .of_eq rfl
      | securedAbsent =>
        simp only [mapServiceFault, CompRec.withoutParcel]
        split
        · exact .of_none rfl
        · exact .of_eq rfl
      | notOpenedJam => exact .of_eq rfl
      | notOpenedBolt => exact .of_eq rfl
      | abandoned => exact .of_eq rfl
      | latchFault b =>
        cases b
        · exact .of_none rfl
        · exact .of_eq rfl
      | forced => exact .of_eq rfl
    · exact .of_eq rfl

theorem clearResult_keeps (r : CompRec) (on : Bool) : KeepsParcel r.state (clearResult r on).1.state := by
  unfold clearResult
  split
  · rename_i h; exact .of_eq (by rw [h]; rfl)
  · exact .of_none rfl
  · exact .of_none rfl
  · exact .of_none rfl

/-- RELEASING keeps the record (R8). -/
theorem releasingRec_keeps {k : DoorKind} {r y : CompRec} (h : releasingRec k r = some y) :
    KeepsParcel r.state y.state := by
  unfold releasingRec at h
  split at h
  · cases h
  · rename_i hp; cases h; exact .of_eq (by rw [hp]; rfl)
  · cases h

/-! ## Outcomes returned (R54) -/

theorem Follows.depositOutcome (s : State) (x : Returned) (o : Outcome) : Follows s (s.depositOutcome x o) := by
  unfold State.depositOutcome
  split
  · exact .refl s
  · rename_i r h
    refine (Follows.changeTested s _ _ ?_).trans (.await _ _ _)
    intro old ho; rw [h] at ho; cases ho; exact mapDeposit_keeps _ _ _

theorem Follows.removalOutcome (s : State) (x : Returned) (o : Outcome) : Follows s (s.removalOutcome x o) := by
  unfold State.removalOutcome
  split
  · exact .refl s
  · rename_i r h
    refine (Follows.changeTested s _ _ ?_).trans (.await _ _ _)
    intro old ho; rw [h] at ho; cases ho; exact mapRemoval_keeps _ _

theorem Follows.serviceOutcome (s : State) (x : Returned) (o : Outcome) : Follows s (s.serviceOutcome x o) := by
  unfold State.serviceOutcome
  split
  · exact .refl s
  · rename_i r h
    have hc := Follows.changeTested s x.slot (mapService x.startState r o (s.sense x.slot).presenceIsOn).record
      (by intro old ho; rw [h] at ho; cases ho; exact mapService_keeps _ _ _ _)
    dsimp only
    split
    · exact (hc.trans (.raise _ _ _)).trans (.await _ _ _)
    · exact hc.trans (.await _ _ _)

theorem Follows.refuseUnpaid (s : State) (t : Ticket) (slot : Slot) : Follows s (s.refuseUnpaid t slot) := by
  unfold State.refuseUnpaid
  dsimp only
  split
  · exact .refuseSlot s _ _ _
  · exact ((Follows.refuseSlot s _ _ _).trans (.issueQuote _ _ _ _ _)).trans (.answer _ _ _)

theorem Follows.answerStartCheck (s : State) (j : Job) (slot : Slot) (v : Judgment) :
    Follows s (s.answerStartCheck j slot v) := by
  unfold State.answerStartCheck
  split
  · exact (Follows.refuseSlot s _ _ _).trans (.slotDone _ _ _)
  · exact ((Follows.refuseUnpaid s _ _).trans (.setProgress _ _ _ _)).trans (.updEntry _ _ _ (fun _ => rfl))
  · exact (Follows.refuseSlot s _ _ _).trans (.slotDone _ _ _)
  · exact (Follows.refuseSlot s _ _ _).trans (.slotDone _ _ _)
  · exact (Follows.refuseSlot s _ _ _).trans (.slotDone _ _ _)
  · exact (Follows.refuseSlot s _ _ _).trans (.slotDone _ _ _)
  · exact .refl s

theorem Follows.returnOutcome (s : State) (x : Returned) (o : Outcome) : Follows s (s.returnOutcome x o) := by
  unfold State.returnOutcome
  dsimp only
  split
  · exact (Follows.count s _ _ _).trans (.answerStartCheck _ _ _ _)
  · split
    · exact (Follows.count s _ _ _).trans (.depositOutcome _ _ _)
    · exact (Follows.count s _ _ _).trans (.removalOutcome _ _ _)
    · exact (Follows.count s _ _ _).trans (.removalOutcome _ _ _)
    · exact (Follows.count s _ _ _).trans (.serviceOutcome _ _ _)

/-! ## The end and the start of a cycle (R42, R43, R54) -/

theorem Follows.freeCycle (s : State) (slot : Slot) : Follows s (s.freeCycle slot) := by
  unfold State.freeCycle
  dsimp only
  exact (((Follows.setDsq s _ (Nat.le_trans (List.length_filter_le _ _) (Nat.le_max_left _ _))).trans
    (.setLamp _ _ _)).trans (.noteCycleEnded _ _)).trans (.refreshIdle _ _)

theorem Follows.endCycle (s : State) (c : Cycle) (o : Outcome) (v : Option Judgment) : Follows s (s.endCycle c o v) :=
  (Follows.freeCycle s _).trans (.returnOutcome _ _ _)

theorem Follows.setCycle (s : State) (c : Cycle) : Follows s (s.setCycle c) := .setDsq s _ (by simp)

theorem Follows.enterPulseWait (s : State) (c : Cycle) : Follows s (s.enterPulseWait c) :=
  (Follows.setCycle s _).trans (.setDsq _ _ (Nat.le_max_left _ _))

theorem Follows.openCycle (s : State) (c : Cycle) (h : s.dsq.cycles.length < s.conf.span) : Follows s (s.openCycle c) := by
  unfold State.openCycle
  dsimp only
  exact ((Follows.setDsq s _ (by simp only [List.length_append, List.length_singleton]; omega)).trans
    (.setLamp _ _ _)).trans (.refreshIdle _ _)

/-- A start from the door queue, made while fewer than D cycles are in progress (R42, R43). -/
theorem Follows.startRequest (s : State) (r : DoorRequest) (h : s.dsq.cycles.length < s.conf.span) :
    Follows s (s.startRequest r) := by
  unfold State.startRequest
  split
  · exact .refl s
  · rename_i x hx
    have ho := Follows.openCycle s (r.cycle x.state.startState (s.parcelRef r.slot)) h
    dsimp only
    split
    · exact ho.trans (.endCycle _ _ _ _)
    · split
      · exact ho.trans (.enterPulseWait _ _)
      · rename_i y hy
        have hc := ho.trans (Follows.change (s.openCycle (r.cycle x.state.startState (s.parcelRef r.slot))) r.slot y 0
          (by
            intro old hold
            have he : (s.openCycle (r.cycle x.state.startState (s.parcelRef r.slot))).rec? r.slot = some x := by
              rw [← hx]; simp [State.openCycle, State.rec?, State.refreshIdle, State.setSense]
            rw [he] at hold; cases hold
            exact releasingRec_keeps hy))
        split
        · rename_i s' hs; exact hc.trans (.attach hs)
        · exact ho.trans (.enterPulseWait _ _)

theorem Follows.tryStart (s : State) : Follows s s.tryStart := by
  unfold State.tryStart
  split
  · exact .refl s
  · split
    · rename_i h
      refine Follows.trans ?_ (.startRequest _ _ h)
      exact .setDsq s _ (Nat.le_max_left _ _)
    · exact .refl s

theorem Follows.askDoor (s : State) (r : DoorRequest) : Follows s (s.askDoor r) := by
  unfold State.askDoor
  split
  · exact .returnOutcome s _ _
  · refine Follows.trans ?_ (.tryStart _)
    exact .setDsq s _ (Nat.le_max_left _ _)

/-! ## Entries that become active (R137, R145, R147 to R150) -/

theorem Follows.quoteSlot (s : State) (j : Job) (slot : Slot) : Follows s (s.quoteSlot j slot) := by
  unfold State.quoteSlot
  split
  · exact .issueQuote s _ _ _ _
  · exact .refl s

theorem Follows.queueMatch (s : State) (j : Job) (slot : Slot) : Follows s (s.queueMatch j slot) := by
  unfold State.queueMatch
  split
  · exact .answer s _ _
  · exact .refl s

theorem Follows.activateCollect (s : State) (j : Job) (slots : List Slot) : Follows s (s.activateCollect j slots) := by
  unfold State.activateCollect
  dsimp only
  refine Follows.trans (Follows.trans ?_ (.foldl _ (fun s x => .quoteSlot s j x) _ _))
    (.foldl _ (fun s x => .queueMatch s j x) _ _)
  exact .updEntry s j _ (fun _ => rfl)

theorem Follows.activateSweep (s : State) (j : Job) (slots : List Slot) : Follows s (s.activateSweep j slots) := by
  unfold State.activateSweep
  dsimp only
  refine Follows.trans ?_ (.answer _ _ _)
  exact .updEntry s j _ (fun _ => rfl)

theorem Follows.refuseService (s : State) (j : Job) (slot : Slot) (r : Reason) : Follows s (s.refuseService j slot r) :=
  (Follows.refuseSlot s _ _ _).trans (.finishEntry _ _)

theorem Follows.toStage (s : State) (j : Job) (stage : EntryStage) (t : Option Nat) :
    Follows s (s.updEntry j (Entry.toStage stage t)) := .updEntry s j _ (fun _ => rfl)

theorem Follows.activateOpen (s : State) (j : Job) (slot : Slot) (r : CompRec) : Follows s (s.activateOpen j slot r) := by
  unfold State.activateOpen
  split
  · exact .refuseService s _ _ _
  · exact (Follows.toStage s _ _ _).trans (.askDoor _ _)

theorem Follows.activateClear (s : State) (j : Job) (slot : Slot) (r : CompRec) (h : s.rec? slot = some r) :
    Follows s (s.activateClear j slot r) := by
  unfold State.activateClear
  split
  · exact .refuseService s _ _ _
  · split
    · exact .refuseService s _ _ _
    · dsimp only
      have hc := (Follows.toStage s j .immediate none).trans (Follows.changeTested _ slot
        (clearResult r (s.sense slot).presenceIsOn).1 (by
          intro old ho
          simp only [State.updEntry, State.rec?, State.setOrt_cts] at ho h
          rw [h] at ho; cases ho; exact clearResult_keeps _ _))
      split
      · exact (hc.trans (.raise _ _ _)).trans (.await _ _ _)
      · exact hc.trans (.await _ _ _)

theorem Follows.activateRetire (s : State) (j : Job) (slot : Slot) (r : CompRec) :
    Follows s (s.activateRetire j slot r) := by
  unfold State.activateRetire
  split
  · exact .refuseService s _ _ _
  · exact ((Follows.toStage s _ _ _).trans (.change _ _ _ _ (fun _ _ => .of_none rfl))).trans (.await _ _ _)

theorem Follows.activateRestore (s : State) (j : Job) (slot : Slot) (r : CompRec) :
    Follows s (s.activateRestore j slot r) := by
  unfold State.activateRestore
  split
  · exact .refuseService s _ _ _
  · exact ((Follows.toStage s _ _ _).trans (.emptyChecked _ _)).trans (.await _ _ _)

theorem Follows.activateService (s : State) (j : Job) (sub : ServiceKind) (slot : Slot) :
    Follows s (s.activateService j sub slot) := by
  unfold State.activateService
  split
  · exact .finishEntry s _
  · rename_i r h
    cases sub
    · exact .activateOpen s _ _ _
    · exact .activateClear s _ _ _ h
    · exact .activateRetire s _ _ _
    · exact .activateRestore s _ _ _

theorem Follows.reEvaluate (s : State) (e : Entry) : Follows s (s.reEvaluate e) := by
  unfold State.reEvaluate
  split
  · unfold State.reEvaluateCollect
    split
    · exact .activateCollect s _ _
    · split
      · exact (Follows.refuseSlot s _ _ _).trans (.finishEntry _ _)
      · exact .finishEntry s _
  · unfold State.reEvaluateSweep
    split
    · exact .activateSweep s _ _
    · exact .finishEntry s _
  · unfold State.reEvaluateService
    split
    · exact .activateService s _ _ _
    · exact .finishEntry s _
  · exact .finishEntry s _

/-- One round of the tests of R86 and R42. -/
theorem Follows.settleOne {s s' : State} (h : s.settleOne = some s') : Follows s s' := by
  unfold State.settleOne at h
  split at h
  · cases h; exact .reEvaluate s _
  · split at h
    · cases h; exact .tryStart s
    · cases h

/-! ## An own frame that waits for its unit (R159) -/

theorem State.finishOwn_of_none {s : State} (h : s.liu.handover = none) : s.finishOwn = s := by simp [State.finishOwn, h]

theorem State.finishOwn_of_some {s : State} {f : TxFrame} (h : s.liu.handover = some f) :
    s.finishOwn = s.handleOwn.conclude := by simp [State.finishOwn, h]

end Sys2Proof.Machine
end

