-- ==== Sys2Proof/Tests/Slice0.lean ====
section
/-! SUPPORT. Tests: the well-formedness checks, the worked values of the spec, one step of each command, and for every statement
with hypotheses a concrete state and operands that meet them. -/

namespace Sys2Proof.Tests

open Sys2Proof.Machine

/- The check word of a frame folds over all its bits. -/
set_option maxRecDepth 5000

/-! ## Fixtures -/

/-- A loaded configuration: station 20, terminals 1 to 9, slots 0 to 3 of sizes 1, 2, 3 and 2, the tariff of section 9.2. -/
def conf : ConfigFields :=
  { ConfigFields.unread with
    station := 20, tlo := 1, thi := 9, supply := 60, time := 61, service1 := 62
    slotMap := tset (tset (tset (tset (tconst 0) 0 1) 1 2) 2 3) 3 2
    tariffs := Vector.replicate 8 { free := 1440, step := 60, price := 50, capDay := 600, capMax := 3000 }
    multipliers := #v[8, 12, 16, 20], enables := 0x3FFF }

/-- The parcel of the worked charge (section 9.2): D = 100,000, H = 10,080, A = 2,490. -/
def parcel : Parcel :=
  { ref := 7, carrier := 5, purpose := .delivery, code := some 123456, tariff := 0, deposit := 100000,
    limit := some 10080, cod := 2490, paid := 0, settled := none, estimated := false }

/-- The parcel with its due paid, and one that has expired. -/
def paidParcel : Parcel := { parcel with paid := 3690 }
def oldParcel : Parcel := { parcel with purpose := .expired }

/-- A record without flags. -/
def plain (c : CompState) : CompRec := { state := c, foreign := false, lost := false }

/-- A slot's sensors: bolt home, door closed, presence off. -/
def calm : Sense :=
  { Sense.reset with
    gates := some (true, true), boltLow := some 200, door := some false, presence := some false
    baseline := some (false, false) }

/-- A running column, ACTIVE and SYNCED at minute 104,010, slot 1 OCCUPIED, slots 0, 2 and 3 EMPTY. -/
def base : State :=
  { State.reset with
    phase := .running
    cfg := { state := .loaded, mem := conf, check := 0 }
    cts := { Cts.unused with
      table := tset (tset (tset (tset (tconst none) 0 (some (plain .empty))) 1 (some (plain (.occupied parcel)))) 2
        (some (plain .empty))) 3 (some (plain .empty)) }
    sen := tconst calm
    bgu := { Bgu.reset with level := 0, basis := .announced, age := some 0 }
    clk := { minute := 104010, sub := 0, hold := 0, age := 0, synced := true }
    liu := { Liu.reset with line := .active } }

/-- The state a command leaves. -/
def after (c : Instr) (s : State) : State :=
  match exec c s with
  | .next t => t
  | _ => s

/-- A request of station 3 at the head of the receive queue. -/
def request (k : RequestKind) (p : List Byte) : RxFrame := { kind := k, station := 3, payload := p, spoken := false }
def asked (k : RequestKind) (p : List Byte) (s : State) : State := s.setLiu { s.liu with rx := [request k p] }

/-- A slot with another record, and the name of a slot's state. -/
def having (slot : Slot) (c : CompState) (s : State) : State := s.setRec slot (plain c)
def tag? (s : State) (slot : Slot) : Option CompTag := (s.rec? slot).map (fun r => r.state.tag)

/-- A frame of another station with a good check. -/
def frame (cls : BitVec 3) (station kind dest : BitVec 6) (p : List Byte) : Frame :=
  let f : Frame :=
    { cls := cls, rank := 0, station := station, kind := kind, dest := dest, length := BitVec.ofNat 5 p.length,
      payload := p, check := 0, seen := true }
  { f with check := crcBits (frameBits f) }

/-- The ticket of station 3 with number 9, and entries and a cycle on it. -/
def tk : Ticket := { station := 3, number := 9 }
def entry (j : Job) (slots : List Slot) (stage : EntryStage) : Entry := Entry.fresh j slots stage
def withEntry (e : Entry) (s : State) : State := s.setOrt [e]
def cycle (stage : Stage) (kind : DoorKind) (j : Job) : Cycle :=
  { slot := 1, kind := kind, job := j, ref := 7, stage := stage, attempt := 1, lastFailure := none, boltReached := false,
    doorOpened := false, latchFault := false, forced := false, startState := .occupied, limit := some 0, wait := 0,
    pop := none, ajar := none, latch := 0, settle := none }
def withCycle (c : Cycle) (s : State) : State := s.setDsq { s.dsq with cycles := [c] }
def collecting (stage : Stage) : Cycle := cycle stage .collect (collectJob tk)
def withTx (q : List TxFrame) (s : State) : State := s.setTx q
def sendingFrame (b : Body) : TxFrame := { TxFrame.fresh b 0 0 with sending := true }
def withOwn (o : OwnNote) (s : State) : State := s.setBgu { s.bgu with own := o }
def withSense (slot : Slot) (x : Sense) (s : State) : State := s.setSense slot x

/-! ## Well-formedness: each check refuses an ill-formed command -/

theorem test_timeout_needs_an_unsettled_input :
    (Instr.baselineTimeout 0 (some true) (some false)).wellFormed = false := by decide
theorem test_frame_needs_a_sender : (Instr.frameTaken (frame 3 0 24 0 [])).wellFormed = false := by decide
theorem test_frame_length_agrees :
    (Instr.frameVoided { frame 3 3 24 0 [1] with length := 2 }).wellFormed = false := by decide
theorem test_taken_frame_is_class_two_or_above : (Instr.frameTaken (frame 1 30 4 0 [])).wellFormed = false := by decide
theorem test_pulse_note_kind : (Instr.pulseNote (.other (frame 0 30 4 0 []))).wellFormed = false := by decide
theorem test_power_state_kind : (Instr.powerState (frame 0 60 1 0 [])).wellFormed = false := by decide
theorem test_offer_kind : (Instr.placeOffer (.other (frame 1 30 1 0 []))).wellFormed = false := by decide
theorem test_pulse_entry_station : (Instr.pulseEntryEnd 0 1).wellFormed = false := by decide
theorem test_lapse_station : (Instr.entryLapse .place { station := 0, number := 1 }).wellFormed = false := by decide
theorem test_well_formed_frame : (Instr.frameTaken (frame 3 3 24 0 [0, 9, 1, 0, 5])).wellFormed = true := by decide

/-! ## Worked values of the spec -/

/-- Table 9-2. -/
theorem test_sized_step_price :
    [(50, 12), (50, 8), (45, 9), (5, 5), (1, 4), (9999, 32)].map
        (fun x => sizedPrice { free := 0, step := 15, price := x.1, capDay := 0, capMax := 0 } x.2)
      = [75, 50, 51, 3, 1, 39996] := by decide
/-- Table 9-3 and the text after it: the amount due of the worked parcel. -/
theorem test_worked_charge :
    [101440, 104010, 104320, 104321, 107201, 107621].map (amountDue conf 2 parcel)
      = [2490, 3690, 3690, 3765, 4965, 5490] := by decide
/-- The table of valid-until minutes after R125. -/
theorem test_valid_until :
    [101440, 101441, 104010, 104320].map (validUntil conf parcel) = [101441, 101501, 104021, 104321] := by decide
/-- Table 5-3. -/
theorem test_effective_budget :
    [1, 2, 3, 4, 5, 6, 7, 8].map (fun k => [0, 1, 2, 3].map (fun level => budgetAt level k))
      = [[1, 1, 1, 0], [2, 1, 1, 0], [3, 1, 1, 0], [4, 2, 1, 0], [5, 2, 1, 0], [6, 3, 1, 0], [7, 3, 1, 0],
         [8, 4, 1, 0]] := by decide
/-- Table 5-5 and R66. -/
theorem test_note_rank :
    [noteRank .service 0, noteRank .collect 249, noteRank .collect 250, noteRank .deposit 14000, noteRank .deposit 60000]
      = [8, 24, 23, 0, 0] := by decide
/-- R95: the rank is capped at 255. -/
theorem test_offer_rank : [offerRank 0 3 1, offerRank 3 23 4] = [14, 255] := by decide
/-- R94's example: of EMPTY slots 3 (M, 412 cycles), 6 (M, 210) and 14 (L, 8), a call for M is given slot 6. -/
theorem test_choice_example :
    (({ base with
        cfg := { base.cfg with mem := { conf with slotMap := tset (tset (tset (tconst 0) 3 2) 6 2) 14 3 } }
        cts := { base.cts with
          table := tset (tset (tset (tconst none) 3 (some (plain .empty))) 6 (some (plain .empty))) 14
            (some (plain .empty))
          locks := tset (tset (tset base.cts.locks 3 { Locks.unused with count := 412 }) 6
            { Locks.unused with count := 210 }) 14 { Locks.unused with count := 8 } } } : State).choose 2)
      = some 6 := by decide
/-- Table 2-7, secure: HELD with a record and presence on is OCCUPIED, RELEASING with presence off is EMPTY, OCCUPIED with
presence off keeps its state with the presence-lost flag; not secure: any of them is FAULT(UNSECURE). -/
theorem test_reconciliation_table :
    [reconciled (plain (.held tk (some parcel))) false true, reconciled (plain (.releasing parcel)) false false,
     reconciled (plain (.occupied parcel)) false false, reconciled (plain (.occupied parcel)) true true]
      = [plain (.occupied parcel), plain .empty, { plain (.occupied parcel) with lost := true },
         plain (.fault .unsecure (some parcel))] := by decide
/-- Table 13-1's ranges: values outside go to the nearer end, a pulse length to a step of 10. -/
theorem test_clamps :
    ((clampFields { conf with span := 9, pulseLength := 305, hmax := 30, granularity := 7 }).span,
     (clampFields { conf with span := 9, pulseLength := 305, hmax := 30, granularity := 7 }).pulseLength,
     (clampFields { conf with span := 9, pulseLength := 305, hmax := 30, granularity := 7 }).hdef) = (4, 300, 60) := by
  decide

/-! ## One step of each command -/

/-- R171: the level is 1 by default, the causes are held. -/
theorem test_pin_reset : (after (.pinReset Causes.none) base).bgu.level = 1 := rfl
theorem test_power_reset : (after (.powerReset Causes.none) base).heldCauses.power = true := rfl
theorem test_brownout_reset_joins_causes :
    (after (.brownoutReset { Causes.none with pin := true }) base).heldCauses
      = { power := false, brownout := true, pin := true, restart := false } := rfl
/-- R151: no restart while a drive is on. -/
theorem test_restart_waits :
    (after (.restartReset Causes.none) (base.setRestart true |>.setDriver 1 (some 10))).phase = .running := by decide
theorem test_restart : (after (.restartReset Causes.none) (base.setRestart true)).phase = .reading := by decide
/-- R172: no answer on the port is STANDBY; R173: a sound image is loaded. -/
theorem test_configuration_no_answer : (after (.configurationRead .noAnswer) State.reset).cfg.state = .standby := by decide
theorem test_configuration_load :
    (after (.configurationRead (.contents [] { conf with span := 9 } 0xFFFF)) State.reset).cfg.state = .clamped := rfl
/-- R24: the gates of a slot of size class 0 are not sampled at load. -/
theorem test_load_samples_fitted_slots :
    ((after (.configurationRead (.contents [] conf 0xFFFF)) State.reset).sense 0).gates = some (true, true)
    ∧ ((after (.configurationRead (.contents [] conf 0xFFFF)) State.reset).sense 23).gates = none := ⟨rfl, rfl⟩
/-- R19. -/
theorem test_cause_write :
    (after (.resetCauseWrite true) (base.writeCauses { Causes.none with pin := true })).cts.causeStore
      = CauseCopy.written { Causes.none with pin := true } := rfl
/-- A slot that awaits its baseline; R20: an input not settled is open or on. -/
def unsettled : State := withSense 0 { calm with door := none, presence := none, baseline := none } base
theorem test_baseline : ((after (.baselineSettled 0 true false) unsettled).sense 0).baseline = some (false, false) := by decide
theorem test_baseline_timeout : ((after (.baselineTimeout 0 none none) unsettled).sense 0).baseline = some (true, true) := by
  decide
/-- A column whose slot 0 is to be reconciled, copy A of its store current. -/
def starting : State :=
  ({ base with
      phase := .reconciling
      cts := { base.cts with
        table := tconst none
        store := tset base.cts.store 0 { SlotStore.unused with a := RecCopy.written 0 4 (plain .empty) } } } :
    State)
/-- R22: EMPTY, secure, presence off, stays EMPTY; R21: a damaged record is FAULT(STORE). -/
theorem test_reconciliation : tag? (after (.reconciliation 0) starting) 0 = some .empty := by decide
theorem test_reconciliation_damaged :
    ((after (.reconciliation 1) (starting.setRec 0 (plain .empty))).rec? 1).map (fun r => r.state.cause?)
      = some (some .store) := by decide
/-- R157. -/
theorem test_joining_entry : (after .joiningEntry { base with phase := .reconciling }).liu.line = .joining := by decide
theorem test_joining_end :
    ((after .joiningEnd (base.setLiu { base.liu with line := .joining })).liu.tx.map (fun f => f.body.isAnnounce))
      = [true] := by decide
theorem test_quiet_end : (after .quietEnd (base.setLiu { base.liu with line := .quiet })).liu.line = .joining := by decide
/-- R160: the frame of lowest key starts. -/
def offer : TxFrame := TxFrame.fresh (.placeOffer tk 2 3) 14 0
def answerFrame : TxFrame := TxFrame.fresh (.refuse (some 9) none .busy) 0 3
theorem test_transmission_start :
    ((after .transmissionStart (withTx [answerFrame, offer] base)).liu.tx.map (fun f => f.sending)) = [false, true] := by
  decide
/-- R154, R156. -/
theorem test_arbitration_lost :
    (after .arbitrationLost (withTx [{ offer with sending := true, retries := 2 }] base)).liu.tx
      = [{ offer with retries := 2 }] := by decide
theorem test_transmission_failed :
    ((after (.transmissionFailed .noEcho) (withTx [{ answerFrame with sending := true }] base)).liu.tx,
     (after (.transmissionFailed .noEcho) (withTx [{ answerFrame with sending := true }] base)).liu.failures)
      = ([{ answerFrame with retries := 1 }], 1) := by decide
theorem test_eighth_failure :
    ((after (.transmissionFailed .voided) (withTx [{ answerFrame with sending := true, retries := 7 }] base)).liu.dropCount,
     (after (.transmissionFailed .voided)
        (withTx [{ answerFrame with sending := true, retries := 7 }] base)).rpt.isSet .lineDrop) = (1, true) := by decide
theorem test_transmission_succeeded :
    (after .transmissionSucceeded (withTx [{ offer with sending := true }] base)).liu.handover
      = some { offer with sending := true } := by decide
/-- R158, R159: a PLACE_CALL of a terminal is queued; R161: from another station it is a role failure. -/
theorem test_frame_taken :
    ((after (.frameTaken (frame 3 3 24 0 [0, 9, 1, 0, 5])) base).liu.rx.map (fun f => f.kind)) = [.placeCall] := by decide
theorem test_role_failure : (after (.frameTaken (frame 3 40 24 0 [0, 9, 1, 0, 5])) base).liu.roleFailures = 1 := by decide
theorem test_frame_voided :
    (after (.frameVoided { frame 3 3 24 0 [1] with check := 0 }) base).liu.checkFaults = 1 := by decide
/-- R161, Table 12-2: a failure at the count's largest value gives no LINE_ERROR event; R156: of a collided frame the column drives the
void slot dominant. -/
def countingErrors (n : Nat) : State :=
  { withTx [{ answerFrame with sending := true }] base with
    cfg := { base.cfg with mem := { conf with counters := Vector.replicate 4 ⟨7, 0, 0⟩ } }
    liu := { (withTx [{ answerFrame with sending := true }] base).liu with failures := n } }
theorem test_line_error_only_at_an_increase :
    [65534, 65535].map (fun n => (after (.transmissionFailed .collided) (countingErrors n)).rpt.counters[0]) = [1, 0]
    ∧ (after (.transmissionFailed .collided) (countingErrors 65534)).liu.drive = .void := by decide
/-- R155: a good frame of another station is echoed; one whose start came before JOINING is not received. -/
theorem test_echo_and_unseen :
    (after (.frameTaken (frame 3 3 24 0 [0, 9, 1, 0, 5])) base).liu.drive = .echo
    ∧ (let s := base.setLiu { base.liu with line := .joining, drive := .echo }
       (after (.frameTaken { frame 3 3 24 0 [0, 9, 1, 0, 5] with seen := false }) s).liu = { s.liu with drive := .neither }) := by
  decide
/-- R157, R74: the third drop in a row enters QUIET, and an own note DEFERRED becomes NONE. -/
theorem test_quiet_ends_the_own_note :
    (after (.transmissionFailed .voided) (withOwn (.deferred 1) ((withTx [{ answerFrame with sending := true, retries := 7 }]
      base).setLiu { (withTx [{ answerFrame with sending := true, retries := 7 }] base).liu with drops := 2 }))).bgu.own
      = .none := by decide
/-- R67, R68: another station's note of 300 ms is listed for 320 ms. -/
theorem test_pulse_note_other :
    (after (.pulseNote (.other (frame 0 30 1 0 [5, 30, 1]))) base).bgu.pulses = [{ station := 30, slot := 5, left := 320 }] := by
  decide
/-- A column whose own note for the cycle on slot 1 has been taken by the line. -/
def noted : State :=
  let s := withOwn (.queued 1 false) (withCycle (collecting .pulseWait) (having 1 (.releasing parcel) base))
  (s.setDsq { s.dsq with order := [1] }).setLiu { s.liu with handover := some (sendingFrame (.pulseNote 1 30 .collect)) }
/-- A second cycle waits for its pulse behind it. -/
def notedTwice : State :=
  noted.setDsq { noted.dsq with
    cycles := [collecting .pulseWait, { collecting .pulseWait with slot := 2 }], order := [1, 2] }
/-- R70: the own note, granted, turns its driver on for 300 ms. -/
theorem test_pulse_note_own :
    (tget (after (.pulseNote .own) noted).bgu.drivers 1, ((after (.pulseNote .own) noted).cycle? 1).map (fun c => c.stage))
      = (some 300, some .driving) := by decide
/-- R70, R159: the own note taken by the line is handled before the next start, and the next cycle's note is what is sent. -/
theorem test_next_note_is_started :
    ((after .transmissionStart notedTwice).liu.tx.map (fun f => (f.body, f.sending)))
      = [(.pulseNote 2 30 .collect, true)] := by decide
/-- R58: a level above 3 is taken as 3; R59. -/
theorem test_power_state : (after (.powerState (frame 0 60 2 0 [9])) base).bgu.level = 3 := by decide
theorem test_level_age : ((after .levelAgeExpiry base).bgu.level, (after .levelAgeExpiry base).bgu.basis) = (1, .aged) := by
  decide
theorem test_pulse_entry_end :
    (after (.pulseEntryEnd 30 5) (base.setBgu { base.bgu with pulses := [⟨30, 5, 0⟩, ⟨31, 5, 9⟩] })).bgu.pulses
      = [⟨31, 5, 9⟩] := by decide
/-- R46: at driver off with the bolt reached, POP_WAIT. -/
theorem test_driver_off :
    ((after (.driverOff 1) ((withCycle { collecting .driving with boltReached := true } base).setDriver 1 (some 0))).cycle? 1).map
      (fun c => c.stage) = some .popWait := by decide
/-- A PLACE entry PROMISED on slot 2, its offer queued. -/
def promised : State :=
  withTx [offer] (withEntry (entry (placeJob tk) [2] .promised) (having 2 (.offered tk) base))
/-- R99: the own offer's arrival makes HELD; R100: another station's makes EMPTY and withdraws the offer. -/
theorem test_place_offer_own :
    tag? (after (.placeOffer .own) (withTx [{ offer with sending := true }] promised)) 2 = some .held := by decide
theorem test_place_offer_other :
    (tag? (after (.placeOffer (.other (frame 1 30 4 0 [3, 0, 9, 4, 1]))) promised) 2,
     (after (.placeOffer (.other (frame 1 30 4 0 [3, 0, 9, 4, 1]))) promised).liu.tx) = (some .empty, []) := by decide
/-- R96: an offer of the chosen compartment; R92: a wanted size of 0 is refused without a frame. -/
theorem test_place_call :
    (tag? (after .placeCall (asked .placeCall [0, 9, 3, 0, 5] base)) 2,
     (after .placeCall (asked .placeCall [0, 9, 3, 0, 5] base)).liu.tx.map (fun f => f.body))
      = (some .offered, [.placeOffer tk 2 3]) := by decide
theorem test_place_call_malformed : (after .placeCall (asked .placeCall [0, 9, 0, 0, 5] base)).liu.tx = [] := by decide
/-- A PLACE entry HELD on slot 2 and a detail for it: reference 1, code 123456, 600 minutes, tariff 0, COD 0. -/
def heldOn2 : State := withEntry (entry (placeJob tk) [2] .held) (having 2 (.held tk none) base)
def detail : List Byte := [0, 9, 2, 0, 0, 0, 0, 0, 0, 0, 1, 1, 0xE2, 0x40, 2, 0x58, 0, 0, 0, 0]
/-- R105: D is the minute now, the holding limit as asked for. -/
theorem test_place_detail :
    ((after .placeDetail (asked .placeDetail detail heldOn2)).parcel? 2).map (fun p => (p.code, p.deposit, p.limit))
      = some (some 123456, 104010, some 600) := by decide
/-- R137: one COLLECT_MATCH with the amount due and the minutes to V. -/
def codeBytes : List Byte := [0, 9, 1, 0xE2, 0x40]
theorem test_collect_call :
    ((after .collectCall (asked .collectCall codeBytes base)).liu.tx.map (fun f => f.body))
      = [.collectMatch 9 1 5 0 3690 11 false false] := by decide
/-- A COLLECT entry MATCHED on slot 1. -/
def matchedOn1 : State := withEntry { entry (collectJob tk) [1] .matched with code := 123456 } base
/-- R130: the payment is added to the paid total. -/
theorem test_pay_note :
    ((after .payNote (asked .payNote [0, 9, 1, 0, 0, 0, 0x0E, 0x6A] matchedOn1)).parcel? 1).map (fun p => (p.paid, p.settled))
      = some (3690, some 104010) := by decide
/-- R141: an amount due is answered UNPAID and QUOTE; a paid parcel's door starts. -/
theorem test_collect_go_unpaid :
    ((after .collectGo (asked .collectGo [0, 9, 1] matchedOn1)).liu.tx.map (fun f => f.body))
      = [.refuse (some 9) (some 1) .unpaid, .quote 9 1 0 3690 11 0 0 false false] := by decide
theorem test_collect_go_starts :
    tag? (after .collectGo (asked .collectGo [0, 9, 1] (having 1 (.occupied paidParcel) matchedOn1))) 1
      = some .releasing := by decide
/-- R145, R146. -/
theorem test_sweep_call :
    ((after .sweepCall (asked .sweepCall [0, 9, 5] (having 1 (.occupied oldParcel) base))).liu.tx.map (fun f => f.body))
      = [.sweepList 9 [1] false] := by decide
def listedOn1 : State :=
  withEntry { entry (sweepJob tk) [1] .listed with carrier := 5 } (having 1 (.occupied oldParcel) base)
theorem test_sweep_go : tag? (after .sweepGo (asked .sweepGo [0, 9, 1] listedOn1)) 1 = some .releasing := by decide
/-- R168: slots 0, 2 and 3 are offerable, sizes 1, 3 and 2; slot 1 is OCCUPIED. -/
theorem test_free_query :
    ((after .freeQuery (asked .freeQuery [] base)).liu.tx.map (fun f => f.body)) = [.freeReport #v[1, 1, 1, 0] 1] := by decide
theorem test_status_query :
    ((after .statusQuery (asked .statusQuery [1] base)).liu.tx.map (fun f => f.body))
      = [.statusLine 0 0 0 0 (Vector.replicate 4 false) (Vector.replicate 4 false)] := by decide
theorem test_slot_query :
    ((after .slotQuery (asked .slotQuery [1, 2] base)).liu.tx.map (fun f => f.body))
      = [.slotMoney 1 true { cod := 2490, paid := 0, settled := 0, settledPresent := false }] := by decide
theorem test_slot_query_not_fitted :
    ((after .slotQuery (asked .slotQuery [9, 0] base)).liu.tx.map (fun f => f.body))
      = [.refuse none (some 9) .noSuch] := by decide
def counted : State := base.setRpt { base.rpt with counters := #v[1, 2, 3, 4] }
theorem test_count_query :
    ((after .countQuery (asked .countQuery [] counted)).liu.tx.map (fun f => f.body))
      = [.countReport #v[0, 0, 0, 0] #v[1, 2, 3, 4]] := by decide
/-- R167: the report carries the values before the clear. -/
theorem test_count_clear :
    ((after .countClear (asked .countClear [] counted)).liu.tx.map (fun f => f.body),
     (after .countClear (asked .countClear [] counted)).rpt.counters)
      = ([.countReport #v[0, 0, 0, 0] #v[1, 2, 3, 4]], #v[0, 0, 0, 0]) := by decide
/-- R77: settings 1 on, 2 off, 3 default, 0 kept. -/
theorem test_output_set :
    (after .outputSet (asked .outputSet [1, 2, 3, 0] base)).out.auxDemand = #v[true, false, false, false] := by decide
/-- Table 8-1: ten minutes behind, the hold count is 10; 1,441 behind, TIME_FAULT. -/
theorem test_time_behind : (after .time (asked .time [0, 1, 0x96, 0x40] base)).clk.hold = 10 := by decide
theorem test_time_fault : (after .time (asked .time [0, 1, 0x90, 0xA9] base)).rpt.isSet .timeFault = true := by decide
/-- R148 to R150. -/
theorem test_service_open : tag? (after .serviceOpen (asked .serviceOpen [0, 9, 1] base)) 1 = some .releasing := by decide
theorem test_service_clear :
    (tag? (after .serviceClear (asked .serviceClear [0, 9, 0] (having 0 (.fault .jam none) base))) 0,
     tag? (after .serviceClear (asked .serviceClear [0, 9, 1] (having 1 (.fault .jam (some parcel)) base))) 1)
      = (some .empty, some .empty) := by decide
theorem test_service_retire : tag? (after .serviceRetire (asked .serviceRetire [0, 9, 0] base)) 0 = some .retired := by decide
theorem test_service_restore :
    tag? (after .serviceRestore (asked .serviceRestore [0, 9, 0] (having 0 .retired base))) 0 = some .empty := by decide
theorem test_service_restart : (after .serviceRestart (asked .serviceRestart [] base)).restart = true := by decide
/-- R165: position 1 is JAM. -/
theorem test_alert_clear :
    (after .alertClear (asked .alertClear [0, 2] ((base.raise .jam (some 1)).raise .store none))).rpt.conds
      = Condition.store.bit := by decide
/-- R88, R101: a lapsed promise goes back to EMPTY and its offer leaves the queue. -/
theorem test_entry_lapse :
    (tag? (after (.entryLapse .place tk) promised) 2, (after (.entryLapse .place tk) promised).liu.tx) = (some .empty, []) := by
  decide
/-- Table 3-1: from both high, A falling with B high is a step up; R26: the count stops at 15. -/
theorem test_bolt_step : ((after (.boltStep 0 .a) base).sense 0).bolt = 1 := by decide
theorem test_bolt_saturates : ((after (.boltStep 0 .a) (withSense 0 { calm with bolt := 15 } base)).sense 0).bolt = 15 := by
  decide
theorem test_double_gate_change :
    (((after (.doubleGateChange 0) base).sense 0).bolt, ((after (.doubleGateChange 0) base).sense 0).gates)
      = (0, some (false, false)) := by decide
theorem test_home_re_zero :
    ((after (.homeReZero 0) (withSense 0 { calm with bolt := 2, homeIdle := some 9999 } base)).sense 0).bolt = 0 := by decide
/-- R34, R9: a door that opens outside any cycle is FORCED; section 3.7. -/
theorem test_door_opened_is_forced :
    ((after (.doorOpened 1) base).rec? 1).map (fun r => r.state) = some (.fault .forced (some parcel)) := by decide
theorem test_door_opened_in_pop_wait :
    ((after (.doorOpened 1) (withCycle (collecting .popWait) base)).cycle? 1).map (fun c => c.stage) = some .opened := by decide
theorem test_door_closed :
    ((after (.doorClosed 1) (withSense 1 { calm with door := some true, boltLow := none, bolt := 9 }
      (withCycle (collecting .opened) base))).cycle? 1).map (fun c => c.stage) = some .closing := by decide
/-- R36, R38. -/
theorem test_presence_on : ((after (.presenceOn 0) base).rec? 0) = some { plain .empty with foreign := true } := by decide
theorem test_presence_off :
    ((after (.presenceOff 1) (withSense 1 { calm with presence := some true } base)).rec? 1).map (fun r => r.lost)
      = some true := by decide
theorem test_secure :
    ((after (.secure 1) (withCycle (collecting .closing) base)).cycle? 1).map (fun c => c.stage) = some .settle := by decide
/-- R45, R48: without a failed attempt ABANDONED, the parcel kept; a third missed pop is NOT_OPENED_JAM. -/
theorem test_pulse_wait_limit :
    tag? (after (.pulseWaitLimit 1) (withCycle (collecting .pulseWait) (having 1 (.releasing parcel) base))) 1
      = some .occupied := by decide
theorem test_third_pop_window :
    ((after (.popWindowEnd 1) (withCycle { collecting .popWait with attempt := 3 }
      (having 1 (.releasing parcel) base))).rec? 1).map (fun r => r.state) = some (.fault .jam (some parcel)) := by decide
theorem test_ajar :
    (after (.ajar 1) (withCycle { collecting .opened with ajar := some 180000 } base)).rpt.isSet .ajar = true := by decide
theorem test_latch_fault :
    ((after (.latchFault 1) (withCycle (collecting .closing) base)).cycle? 1).map (fun c => (c.stage, c.latchFault))
      = some (.settle, true) := by decide
theorem test_latch_fault_settle_end :
    ((after (.latchFaultSettleEnd 1) (withCycle { collecting .settle with latchFault := true }
      (having 1 (.releasing parcel) base))).rec? 1).map (fun r => r.state) = some (.fault .latch none) := by decide
/-- R52: presence off is SECURED_ABSENT, the parcel taken. -/
theorem test_settle_timer_end :
    tag? (after (.settleTimerEnd 1) (withCycle (collecting .settle) (having 1 (.releasing parcel) base))) 1
      = some .empty := by decide
/-- A write of slot 0's record to copy B in progress. -/
def writing (second storeFault : Bool) (again : Option (List Waiter)) (ws : List Waiter) : State :=
  base.setStore 0
    { SlotStore.unused with
      a := RecCopy.written 0 4 (plain .empty), current := some false, again := again
      writing := some { toB := true, gen := 5, content := plain .retired, second := second,
                        cause := if storeFault then .storeFault else .change, waiters := ws } }
/-- R15, R17. -/
theorem test_record_write_matches :
    (((after (.recordWriteComplete 0 true) (writing false false none [])).store 0).current,
     ((after (.recordWriteComplete 0 true) (writing false false none [])).store 0).b.gen) = (some true, 5) := by decide
theorem test_record_write_fails_twice :
    ((after (.recordWriteComplete 0 false) (writing true false none [])).rec? 0).map (fun r => r.state)
      = some (.fault .store none) := by decide
theorem test_lock_count_write :
    ((after (.lockCountWrite 0 true) (base.setLocks 0 { Locks.unused with count := 7, writing := some (true, 7) })).locks 0).b
      = CountCopy.written .lockCount 7 := rfl
/-- R109, R18, R116: a tick's write, its end, and the scan that finds the parcel of slot 1 due. -/
theorem test_minute_tick :
    (after .minuteTick base).cts.minuteWrites = [{ value := 104011, tick := true, synced := true }] := by decide
def ticked (n : Nat) (s : State) : State :=
  s.setCts { s.cts with minuteWrites := [{ value := n, tick := true, synced := true }] }
theorem test_expiry_scan :
    ((after (.retainedMinuteWrite true) (ticked 110081 base)).parcel? 1).map (fun p => p.purpose) = some .expired := by
  decide
theorem test_sync_lost : (after .syncLost base).clk.synced = false := by decide

/-! ## Witnesses: for each statement with hypotheses, a state and operands that meet them together, clause by clause -/

/-! ### Steps, resets and start-up -/

theorem witness_StepRunsTheFrontCommand : (base.setPending [.minuteTick]).pending = [.minuteTick] := rfl

/-- An entry of the pulse list at its end; a column after reset; a running one with nothing due. -/
theorem witness_IdleStepTakesWhatIsDueOrOneMillisecond :
    ((base.setBgu { base.bgu with pulses := [⟨30, 5, 0⟩] }).pending = []
      ∧ (base.setBgu { base.bgu with pulses := [⟨30, 5, 0⟩] }).due = some (.pulseEntryEnd 30 5))
    ∧ (State.reset.pending = [] ∧ State.reset.due = none ∧ State.reset.loaded = false)
    ∧ (base.pending = [] ∧ base.due = none ∧ base.loaded = true) := by decide

theorem witness_ResetsLeaveTheStateAfterReset :
    (base.setRestart true).restart = true ∧ (∀ i, tget (base.setRestart true).bgu.drivers i = none)
      ∧ (base.setRestart true).noteBusy = false := by decide

/-- Slot 0 writes to its copy B, and no other write is in progress; a count's write to copy A; a minute's write to copy B. -/
theorem witness_ResetAbandonsOnlyWritesInProgress :
    (∀ i, ∀ w ∈ ((writing false false none []).store i).writing, w.toB = true)
    ∧ (∀ i, ∀ w ∈ ((base.setLocks 3 { Locks.unused with writing := some (false, 7) }).locks i).writing, w.1 = false)
    ∧ (base.cts.minuteWrites = [] ∧ base.cts.causeWriting = none)
    ∧ ({ (ticked 104011 base).cts with minuteNextB := true }.minuteWrites ≠ []
        ∧ { (ticked 104011 base).cts with minuteNextB := true }.minuteNextB = true) := by decide

/-- The configuration passes the structural checks. -/
theorem conf_sound : StructurallySound conf := ⟨by decide, by decide, by decide, by decide⟩

theorem reset_quiet : QuietSinceReset State.reset :=
  ⟨rfl, rfl, rfl, rfl, rfl, rfl, rfl, rfl, by decide, rfl, rfl⟩

theorem reset_apart : HoldsApart State.reset := by unfold HoldsApart; decide

/-- No record and no copy holds a parcel after reset. -/
theorem reset_minutes : MinutesBounded State.reset := by
  have records : ∀ i : Slot, State.reset.rec? i = none := by decide
  have a : ∀ i : Slot, (State.reset.store i).a.content.state.parcel? = none := by decide
  have b : ∀ i : Slot, (State.reset.store i).b.content.state.parcel? = none := by decide
  have w : ∀ i : Slot, (State.reset.store i).writing = none := by decide
  refine ⟨by decide, by decide, by decide, fun slot r h => ?_, fun slot => ⟨fun p h => ?_, fun p h => ?_, fun v h => ?_⟩⟩
  · rw [records] at h; cases h
  · rw [a] at h; cases h
  · rw [b] at h; cases h
  · rw [w] at h; cases h

/-- Every copy fails its check after reset. -/
theorem reset_checks : ChecksAgree State.reset.cts := by
  refine ⟨fun slot isB h => absurd h ?_, fun slot => ⟨fun h => absurd h ?_, fun h => absurd h ?_⟩,
    ⟨fun h => (nomatch h), fun h => (nomatch h)⟩, fun h => (nomatch h), fun h => (nomatch h)⟩ <;> decide +revert

theorem reset_bounded : Bounded State.reset :=
  ⟨by decide, by decide, by decide, by decide, by decide, by decide, by decide, by decide,
   fun _ => ⟨by decide +revert, by decide +revert, by decide +revert, fun _ h => by revert h; decide +revert⟩, reset_minutes,
   by decide, by decide, by decide, by decide, reset_checks, fun _ => reset_quiet, by decide⟩

/-- No answer on the port; a check word that disagrees; station number 0. -/
theorem witness_FailedReadStandsByUntilAReset :
    (State.reset.phase = .reading
      ∧ (∀ image m check, ConfigRead.noAnswer = .contents image m check → ¬(crcBytes image = check ∧ StructurallySound m))
      ∧ crcBytes [] ≠ 0 ∧ ¬StructurallySound { conf with station := 0 })
    ∧ (State.reset.setPhase .standby).phase = .standby ∧ QuietSinceReset (State.reset.setPhase .standby) :=
  ⟨⟨rfl, fun _ _ _ h => (nomatch h), by decide, fun h => absurd h.station (by decide)⟩, rfl,
   ⟨rfl, rfl, rfl, rfl, rfl, rfl, rfl, rfl, by decide, rfl, rfl⟩⟩

/-- A column that reads, with a store used before and its minute copies as given. -/
def reading (a b : CountCopy) : State :=
  { State.reset with cts := { State.reset.cts with markOk := true, minuteA := a, minuteB := b } }

/-- Both minute copies pass, A alone, B alone, neither. -/
theorem witness_PassedReadLoadsTheConfiguration :
    [(reading ⟨5, 0, true⟩ ⟨6, 0, true⟩), reading ⟨5, 0, true⟩ ⟨6, 0, false⟩, reading ⟨5, 0, false⟩ ⟨6, 0, true⟩,
      reading ⟨5, 0, false⟩ ⟨6, 0, false⟩].all
        (fun s => s.phase == .reading && !s.cts.neverUsed && crcBytes [] == 0xFFFF) = true
    ∧ StructurallySound conf := ⟨by decide, conf_sound⟩

/-- Each clause at a value next to its range's end; a configuration in range. -/
theorem witness_ClampingPutsEveryFieldInRange :
    InRange (clampFields conf) ∧ ({ conf with threshold := 5 }.threshold < 6 ∧ 12 < { conf with threshold := 13 }.threshold)
      ∧ { conf with span := 0 }.span = 0 ∧ 4 < { conf with span := 5 }.span
      ∧ ({ conf with pulseLength := 99 }.pulseLength < 100 ∧ 800 < { conf with pulseLength := 801 }.pulseLength)
      ∧ (100 ≤ conf.pulseLength ∧ conf.pulseLength ≤ 800)
      ∧ (clampFields { conf with hmax := 60, hdef := 61 }).hmax < { conf with hmax := 60, hdef := 61 }.hdef
      ∧ { conf with counters := Vector.replicate 4 ⟨7, 0, 64⟩ }.counters[0].kind ≤ 7
      ∧ 7 < { conf with counters := Vector.replicate 4 ⟨8, 0, 0⟩ }.counters[0].kind :=
  ⟨⟨by decide, by decide, by decide, by decide, by decide, by decide, by decide, by decide, by decide, by decide, by decide,
    by decide, by decide, by decide, by unfold tariffInRange; decide, by decide, by decide, by decide⟩, by decide⟩

theorem witness_UnusedStoreIsFormatted :
    (State.reset.phase = .reading ∧ crcBytes [] = 0xFFFF ∧ State.reset.cts.markOk = false
      ∧ ∀ i, (State.reset.store i).a.ok = false ∧ (State.reset.store i).b.ok = false)
    ∧ StructurallySound conf := ⟨by decide, conf_sound⟩

/-- A write of the cause set at start-up and one while running; a count's write, with and without another to follow. -/
theorem witness_CauseAndLockCountWritesEnd :
    (base.writeCauses Causes.none).cts.causeWriting = some Causes.none
    ∧ ((base.writeCauses Causes.none).setPhase .causeWrite).phase = .causeWrite
    ∧ ((base.setLocks 0 { Locks.unused with count := 7, writing := some (true, 7) }).locks 0).writing = some (true, 7)
    ∧ ((base.setLocks 0 { Locks.unused with count := 8, writing := some (false, 7), again := true }).locks 0).again = true := by
  decide

theorem witness_BaselineIsTakenWithoutEvents :
    unsettled.loaded = true ∧ unsettled.fitted 0 = true ∧ (unsettled.sense 0).baseline = none := by decide

/-- The store of slot 0 with the content, copy A or copy B current; slot 0's baseline as given. -/
def storing (c : CompRec) (isB doorOpen on : Bool) : State :=
  (withSense 0 { calm with baseline := some (doorOpen, on) } starting).setStore 0
    { SlotStore.unused with
      a := RecCopy.written 0 4 (if isB then plain .retired else c)
      b := RecCopy.written 0 (if isB then 5 else 3) (if isB then c else plain .retired) }

/-- Every row of Table 2-7, the stored copy being A and being B. -/
theorem witness_ReconciliationTakesTheTablesResult :
    (∀ x ∈ [plain .empty, plain (.offered tk), plain (.held tk none), plain (.held tk (some parcel)),
        plain (.releasing parcel), plain (.occupied parcel), plain (.fault .jam none), plain .retired],
      ∀ isB doorOpen on : Bool,
        ((storing x isB doorOpen on).phase = .reconciling ∧ (storing x isB doorOpen on).fitted 0 = true
          ∧ (storing x isB doorOpen on).rec? 0 = none)
        ∧ ((storing x isB doorOpen on).sense 0).baseline = some (doorOpen, on)
        ∧ ((storing x isB doorOpen on).store 0).content isB = x)
    ∧ ∀ x isB doorOpen on, IsStoredRecord ((storing x isB doorOpen on).store 0) isB :=
  ⟨by decide, fun _ isB _ _ => by cases isB <;> exact ⟨rfl, fun _ => rfl⟩⟩

/-- Slot 1 with neither copy passing, slot 0 reconciled before it. -/
theorem witness_DamagedRecordReconcilesToStoreFault :
    TurnToReconcile (starting.setRec 0 (plain .empty)) 1
      ∧ ((starting.setRec 0 (plain .empty)).sense 1).baseline = some (false, false)
      ∧ ∀ isB, ¬IsStoredRecord ((starting.setRec 0 (plain .empty)).store 1) isB :=
  ⟨⟨rfl, by decide, by decide, by decide⟩, by decide, by unfold IsStoredRecord; decide⟩

/-- Every slot reconciled, and a write in progress that reconciliation did not make; slots not reconciled; a write that it made. -/
theorem witness_LineStatesFollowOneAnother :
    (let s := (writing false false none []).setPhase .reconciling
     s.phase = .reconciling
      ∧ (∀ i, (s.fitted i = true → (s.rec? i).isSome = true)
          ∧ ∀ w ∈ (s.store i).writing, w.cause ≠ .reconciliation)
      ∧ (s.store 0).writing ≠ none)
    ∧ (starting.fitted 0 = true ∧ starting.rec? 0 = none)
    ∧ (((base.setStore 0 { SlotStore.unused with
          writing := some { toB := true, gen := 5, content := plain .empty, second := false, cause := .reconciliation,
                            waiters := [] } }).store 0).writing.map (fun w => w.cause)) = some .reconciliation
    ∧ (base.setLiu { base.liu with line := .joining }).liu.line = .joining
    ∧ (base.setLiu { base.liu with line := .quiet }).liu.line = .quiet := by decide

/-! ### The bank line -/

/-- An idle line with frames queued; a line in QUIET, a frame being sent, an empty queue; a queue of 7, of 8 without a
candidate to discard, and of 8 with one. -/
theorem witness_TheTransmitQueueGoesByKey :
    ((withTx [answerFrame, offer] base).liu.handover = none ∧ (withTx [answerFrame, offer] base).liu.line = .active
      ∧ (withTx [answerFrame, offer] base).transmitting = false ∧ (withTx [answerFrame, offer] base).liu.tx ≠ [])
    ∧ (base.setLiu { base.liu with line := .quiet }).liu.line ≠ .active
    ∧ (withTx [{ offer with sending := true }] base).transmitting = true ∧ base.liu.tx = []
    ∧ (List.replicate 7 answerFrame).length < 8
    ∧ (∀ g ∈ List.replicate 8 offer ++ [offer], g.body.cls < 2 ∨ g.sending = true)
    ∧ (∃ g ∈ List.replicate 8 offer ++ [answerFrame], 2 ≤ g.body.cls ∧ g.sending = false) := by decide

theorem witness_SentFramesAreGoodAndReadBack :
    (TxFrame.fresh (.pulseNote 23 80 .service) 255 0).rank < 256 ∧ offer.body = .placeOffer tk 2 3 := by decide

/-- The frame of a withdrawn offer, and a note whose cycle has ended; a seventh failure. -/
theorem witness_LossKeepsAFrameAndFailureCountsIt :
    (let f := { offer with sending := true, retries := 6 }
     (withTx [f] base).sending? = some f ∧ f.withdrawn = false
      ∧ ¬(f.isNote = true ∧ (withTx [f] base).noteCancelled = true) ∧ f.retries + 1 < 8)
    ∧ (let f := { offer with sending := true, withdrawn := true }
       (withTx [f] base).sending? = some f ∧ f.withdrawn = true)
    ∧ (let f := sendingFrame (.pulseNote 1 30 .collect)
       (withOwn (.queued 1 true) (withTx [f] base)).sending? = some f ∧ f.isNote = true
        ∧ (withOwn (.queued 1 true) (withTx [f] base)).noteCancelled = true) := by decide

/-- An eighth failure of a note, of an offer, and of an answer with an offer queued behind it; the second drop and the third. -/
theorem witness_EighthFailureDropsTheFrame :
    (let f := { sendingFrame (.pulseNote 1 30 .collect) with retries := 7 }
     let s := withOwn (.queued 1 true) (withTx [f] base)
     s.sending? = some f ∧ 8 ≤ f.retries + 1 ∧ f.isNote = true ∧ s.bgu.own = .queued 1 true)
    ∧ (let f := { offer with sending := true, retries := 7 }
       (withTx [f] promised).sending? = some f ∧ 8 ≤ f.retries + 1 ∧ f.body = .placeOffer tk 2 3
        ∧ (promised.rec? 2).map (fun r => r.state) = some (.offered tk))
    ∧ (let f := { answerFrame with sending := true, retries := 7 }
       let s := withTx [f, offer] promised
       s.sending? = some f ∧ offer ∈ s.liu.tx ∧ offer.sending = false ∧ offer.body = .placeOffer tk 2 3)
    ∧ (∀ g ∈ (withTx [{ answerFrame with sending := true, retries := 7 }] base).liu.tx, g.body.cls ≠ 1)
    ∧ (base.liu.failures < 65535 ∧ base.liu.dropCount < 65535)
    ∧ (base.setLiu { base.liu with drops := 1 }).liu.drops + 1 < 3
    ∧ 3 ≤ (base.setLiu { base.liu with drops := 2 }).liu.drops + 1 := by decide

/-- An entry PROMISED. -/
theorem promised_tk : Promised tk 2 promised := ⟨entry (placeJob tk) [2] .promised, by decide, by decide, by decide, by decide⟩

/-- An ANNOUNCE, an answer and an offer on the line; a frame not seen from its start; good and bad frames of another station; an
own note and an own offer that wait for their unit. -/
theorem witness_FramesAreTakenOrVoided :
    (let f := sendingFrame (.announce Causes.none .loaded 0 4 0 104010 true)
     (withTx [f] base).sending? = some f ∧ f.body.isAnnounce = true)
    ∧ (withTx [{ offer with sending := true }] base).sending? = some { offer with sending := true } ∧ offer.body.cls ≤ 1
    ∧ (withTx [{ answerFrame with sending := true }] base).sending? = some { answerFrame with sending := true }
    ∧ 2 ≤ answerFrame.body.cls
    ∧ (∀ f, Brings (.frameTaken f) f ∧ Brings (.pulseNote (.other f)) f)
    ∧ (State.reset.liu.line = .off ∧ { frame 3 3 24 0 [1] with seen := false }.seen = false)
    ∧ (base.liu.line ≠ .off ∧ base.liu.handover = none ∧ base.transmitting = false)
    ∧ (frame 3 3 24 0 [1]).seen = true
    ∧ (frameGood (frame 3 3 24 0 [1]) = true ∧ frameGood { frame 3 3 24 0 [1] with check := 0 } = false)
    ∧ (let f := sendingFrame (.pulseNote 1 30 .collect)
       noted.liu.handover = some f ∧ f.isNote = true ∧ exec (.pulseNote .own) noted = .next (after (.pulseNote .own) noted)
        ∧ noted.liu.line ≠ .off)
    ∧ (let s := promised.setLiu { promised.liu with tx := [], handover := some offer }
       s.liu.handover = some offer ∧ offer.body.cls = 1 ∧ exec (.placeOffer .own) s = .next (after (.placeOffer .own) s)
        ∧ s.liu.line ≠ .off) :=
  ⟨by decide, by decide, by decide, by decide, by decide, fun _ => ⟨.inl rfl, .inr (.inr (.inl rfl))⟩, by decide, by decide,
   by decide, by decide, ⟨by decide, by decide, rfl, by decide⟩, ⟨by decide, by decide, rfl, by decide⟩⟩

/-- A frame with the column's own number; a POWER_STATE of the time station, a PULSE_NOTE of the last terminal, a PLACE_OFFER of a
service station; one of another class; a terminal's request from station 9, the last terminal, and
from station 10; one of the time station and of the service station; five and six frames waiting. -/
theorem witness_TakenRequestsJoinTheReceiveQueue :
    (base.liu.line ≠ .off ∧ base.liu.handover = none ∧ base.transmitting = false)
    ∧ (Brings (.frameTaken (frame 3 20 24 0 [])) (frame 3 20 24 0 []) ∧ (frame 3 20 24 0 []).seen = true)
    ∧ (frameGood (frame 3 20 24 0 []) = true ∧ (frame 3 20 24 0 []).station = base.station)
    ∧ (let f := frame 0 61 2 0 [3]
       frameGood f = true ∧ f.kind = 2 ∧ f.cls = 0 ∧ f.dest = 0 ∧ f.station ≠ base.conf.supply ∧ f.station ≠ base.station)
    ∧ (let f := frame 0 9 1 0 [5, 30, 1]
       frameGood f = true ∧ f.kind = 1 ∧ f.cls = 0 ∧ f.dest = 0 ∧ ¬FromAColumn f base)
    ∧ (let f := frame 1 62 4 0 [3, 0, 9, 4, 1]
       frameGood f = true ∧ f.kind = 4 ∧ f.cls = 1 ∧ f.dest = 0 ∧ ¬FromAColumn f base)
    ∧ (frameGood (frame 5 3 24 0 []) = true ∧ (frame 5 3 24 0 []).station ≠ base.station
        ∧ ∀ k, lineKind (frame 5 3 24 0 []).kind = some k → (frame 5 3 24 0 []).cls.toNat ≠ k.cls)
    ∧ (let f := frame 3 9 24 20 []
       frameGood f = true ∧ f.station ≠ base.station ∧ lineKind f.kind = some (.request .placeCall)
        ∧ f.cls.toNat = RequestKind.cls .placeCall ∧ f.dest = base.station ∧ f.station ≠ 0
        ∧ base.conf.tlo.toNat ≤ f.station.toNat ∧ f.station.toNat ≤ base.conf.thi.toNat)
    ∧ (let f := frame 3 10 24 0 []
       frameGood f = true ∧ f.station ≠ base.station ∧ f.cls.toNat = RequestKind.cls .placeCall
        ∧ ¬(base.conf.tlo.toNat ≤ f.station.toNat ∧ f.station.toNat ≤ base.conf.thi.toNat))
    ∧ (frameGood (frame 4 61 40 0 []) = true ∧ (frame 4 61 40 0 []).station = base.conf.time
        ∧ lineKind (frame 4 61 40 0 []).kind = some (.request .time))
    ∧ (frameGood (frame 5 62 52 0 []) = true ∧ (frame 5 62 52 0 []).station = base.conf.service1
        ∧ lineKind (frame 5 62 52 0 []).kind = some (.request .serviceRestart))
    ∧ (base.setLiu { base.liu with rx := List.replicate 5 (request .time []) }).liu.rx.length < 6
    ∧ 6 ≤ (base.setLiu { base.liu with rx := List.replicate 6 (request .time []) }).liu.rx.length := by
  refine ⟨by decide, ⟨.inl rfl, rfl⟩, by decide, by decide, by unfold FromAColumn; decide, by unfold FromAColumn; decide,
    ⟨by decide, by decide, fun k h => ?_⟩, by decide, by decide, by decide, by decide, by decide, by decide⟩
  cases (show some _ = some k from h); decide

/-! ### Levels, notes and drives -/

theorem witness_BudgetAndRankFollowTheirTables :
    1 ≤ base.conf.budget ∧ base.conf.budget ≤ 8
      ∧ ∀ level ∈ [0, 1, 2, 3], (base.setBgu { base.bgu with level := level }).bgu.level = level := by decide

/-- The supply station's frame, an offer queued and an own note waiting: level 0 stands, level 3 is a change. -/
theorem witness_PowerStateSetsTheLevel :
    (∀ b ∈ [0, 3], Hears (frame 0 60 2 0 [b]) (withOwn (.queued 1 false) promised))
    ∧ (∀ b ∈ [0, 3], (frame 0 60 2 0 [b]).kind = 2 ∧ (frame 0 60 2 0 [b]).cls = 0 ∧ (frame 0 60 2 0 [b]).dest = 0
        ∧ (frame 0 60 2 0 [b]).station = (withOwn (.queued 1 false) promised).conf.supply
        ∧ (frame 0 60 2 0 [b]).payload = [b])
    ∧ min (0 : Byte).toNat 3 = (withOwn (.queued 1 false) promised).bgu.level
    ∧ min (3 : Byte).toNat 3 ≠ (withOwn (.queued 1 false) promised).bgu.level ∧ 2 ≤ (3 : Byte).toNat
    ∧ (withOwn (.queued 1 false) promised).bgu.own = .queued 1 false
    ∧ ((withOwn (.queued 1 false) promised).changeLevel 3).budget ≤ (withOwn (.queued 1 false) promised).bgu.pulses.length
    ∧ offer ∈ (withOwn (.queued 1 false) promised).liu.tx ∧ Promised tk 2 (withOwn (.queued 1 false) promised)
    ∧ (withOwn (.queued 1 false) promised).rec? 2 = some (plain (.offered tk)) := by
  refine ⟨fun b hb => ?_, by decide, by decide, by decide, by decide, by decide, by decide, by decide, promised_tk, by decide⟩
  have h : frameGood (frame 0 60 2 0 [b]) = true := by revert b; decide
  exact ⟨by decide, rfl, rfl, by decide, h, show (60 : BitVec 6) ≠ promised.station by decide, show (60 : BitVec 6) ≠ 0 by decide⟩

theorem witness_LevelAgeFallsBack :
    base.bgu.age.isSome = true ∧ base.bgu.level = 0 ∧ (base.setBgu { base.bgu with level := 1 }).bgu.level ≠ 0 := by decide

/-- A good note of a column, and a list of the given entries; the budget is 3. -/
def listing (ps : List PulseEntry) : State := base.setBgu { base.bgu with pulses := ps, own := .queued 1 false }
def noteFrame30 : Frame := frame 0 30 1 0 [5, 30, 1]

theorem note_heard (ps : List PulseEntry) : Hears noteFrame30 (listing ps) :=
  ⟨show base.liu.line ≠ .off by decide, rfl, rfl, show base.transmitting = false by decide, by decide,
   show noteFrame30.station ≠ base.station ∧ noteFrame30.station ≠ 0 by decide⟩

theorem note_of_a_column (ps : List PulseEntry) : FromAColumn noteFrame30 (listing ps) := by
  show FromAColumn noteFrame30 base; unfold FromAColumn; decide

/-- One entry and room for two more, two entries and room for one; the pair listed; the list full. -/
theorem witness_NotesAreGrantedWithinTheBudget :
    (noteFrame30.kind = 1 ∧ noteFrame30.cls = 0 ∧ noteFrame30.dest = 0
      ∧ decodeNote noteFrame30.payload = some { slot := 5, duration := 30 })
    ∧ (∀ ps ∈ [[⟨30, 4, 9⟩], [⟨30, 4, 9⟩, ⟨31, 5, 9⟩]],
        (∀ p ∈ (listing ps).bgu.pulses, ¬(p.station = noteFrame30.station ∧ p.slot = 5))
          ∧ (listing ps).bgu.pulses.length < (listing ps).budget)
    ∧ (listing [⟨30, 4, 9⟩]).bgu.pulses.length + 1 < (listing [⟨30, 4, 9⟩]).budget
    ∧ (listing [⟨30, 4, 9⟩, ⟨31, 5, 9⟩]).budget ≤ (listing [⟨30, 4, 9⟩, ⟨31, 5, 9⟩]).bgu.pulses.length + 1
    ∧ (∃ p ∈ (listing [⟨30, 5, 9⟩]).bgu.pulses, p.station = noteFrame30.station ∧ p.slot = 5)
    ∧ (listing [⟨30, 4, 9⟩, ⟨31, 5, 9⟩, ⟨32, 5, 9⟩]).budget
        ≤ (listing [⟨30, 4, 9⟩, ⟨31, 5, 9⟩, ⟨32, 5, 9⟩]).bgu.pulses.length := by decide

/-- An own note of slot 1 at hand, the cycle's stage and the note's end as given, the list as given. -/
def noting (stage : Stage) (ended : Bool) (ps : List PulseEntry) : State :=
  let s := withOwn (.queued 1 ended) (withCycle (collecting stage) noted)
  s.setBgu { s.bgu with pulses := ps }

/-- The own note taken before, or at this moment; two entries of three; each case of the lock count's copies. -/
theorem witness_OwnGrantedNoteDrivesItsLock :
    OwnArrives (sendingFrame (.pulseNote 1 30 .collect)) [] (noting .pulseWait false [⟨30, 1, 9⟩, ⟨31, 1, 9⟩])
    ∧ OwnArrives (sendingFrame (.pulseNote 1 30 .collect)) []
        (withOwn (.queued 1 false) (withTx [sendingFrame (.pulseNote 1 30 .collect)] base))
    ∧ ((noting .pulseWait false [⟨30, 1, 9⟩, ⟨31, 1, 9⟩]).bgu.own = .queued 1 false
        ∧ (∀ p ∈ (noting .pulseWait false [⟨30, 1, 9⟩, ⟨31, 1, 9⟩]).bgu.pulses, ¬(p.station = base.station ∧ p.slot = 1))
        ∧ (noting .pulseWait false [⟨30, 1, 9⟩, ⟨31, 1, 9⟩]).bgu.pulses.length
            < (noting .pulseWait false [⟨30, 1, 9⟩, ⟨31, 1, 9⟩]).budget
        ∧ (noting .pulseWait false [⟨30, 1, 9⟩, ⟨31, 1, 9⟩]).cycle? 1 = some (collecting .pulseWait)
        ∧ ((noting .pulseWait false []).locks 1).writing = none)
    ∧ (∀ a b : Bool, (((noting .pulseWait false []).setLocks 1
        { Locks.unused with a := ⟨6, 0, a⟩, b := ⟨5, 0, b⟩ }).locks 1).writing = none)
    ∧ (((noting .pulseWait false []).setLocks 1 { Locks.unused with writing := some (true, 7) }).locks 1).writing
        = some (true, 7)
    ∧ ((noting .starting true []).bgu.own = .queued 1 true ∧ ¬(collecting .starting).stage = .pulseWait) :=
  ⟨.inl ⟨rfl, rfl⟩, .inr ⟨rfl, by decide, by decide⟩, by decide, by decide, by decide, by decide⟩

/-- The own pair listed; the list full; the cycle ended. -/
theorem witness_OwnDeniedNoteIsDeferred :
    OwnArrives (sendingFrame (.pulseNote 1 30 .collect)) [] (noting .pulseWait false [⟨20, 1, 9⟩])
    ∧ ((noting .pulseWait false [⟨20, 1, 9⟩]).bgu.own = .queued 1 false
        ∧ (∃ p ∈ (noting .pulseWait false [⟨20, 1, 9⟩]).bgu.pulses, p.station = base.station ∧ p.slot = 1)
        ∧ (noting .pulseWait false [⟨20, 1, 9⟩]).cycle? 1 = some (collecting .pulseWait))
    ∧ (noting .pulseWait true [⟨30, 1, 9⟩, ⟨31, 1, 9⟩, ⟨32, 1, 9⟩]).budget
        ≤ (noting .pulseWait true [⟨30, 1, 9⟩, ⟨31, 1, 9⟩, ⟨32, 1, 9⟩]).bgu.pulses.length :=
  ⟨.inl ⟨rfl, rfl⟩, by decide, by decide⟩

/-- Slot 1's driver at its end, its cycle and its sensors as given. -/
def driven (c : Cycle) (x : Sense) : State := (withSense 1 x (withCycle c base)).setDriver 1 (some 0)

/-- The door open; it has opened and closed, secure or not; the bolt reached; neither, at attempts 2 and 3. -/
theorem witness_DriverOffDecidesTheNextStage :
    (∀ c x, (tget (driven c x).bgu.drivers 1).isSome = true)
    ∧ (driven (collecting .popWait) calm).cycle? 1 = some (collecting .popWait)
    ∧ ((driven (collecting .driving) { calm with door := some true }).sense 1).door = some true
    ∧ (driven (collecting .driving) calm).cycle? 1 = some (collecting .driving)
    ∧ ((driven { collecting .driving with doorOpened := true } calm).sense 1).secure = true
    ∧ ((driven { collecting .driving with doorOpened := true } { calm with boltLow := none, bolt := 2 }).sense 1).secure = false
    ∧ (driven { collecting .driving with boltReached := true } calm).cycle? 1
        = some { collecting .driving with boltReached := true }
    ∧ (driven { collecting .driving with attempt := 2 } calm).cycle? 1 = some { collecting .driving with attempt := 2 }
    ∧ (let s := having 1 (.releasing parcel) (driven { collecting .driving with attempt := 3 } calm)
       s.cycle? 1 = some { collecting .driving with attempt := 3 } ∧ s.rec? 1 = some (plain (.releasing parcel)))
    ∧ Cycle.limitReached (collecting .driving) = false
    ∧ Cycle.limitReached { collecting .driving with limit := some 60000 } = true :=
  ⟨fun _ _ => rfl, by decide, by decide, by decide, by decide, by decide, by decide, by decide, by decide, by decide, by decide⟩

/-! ### Offers and placement -/

/-- The own offer taken at this moment; its entry in another stage, ending, no entry; the compartment OFFERED, and OCCUPIED. -/
theorem witness_OwnOfferArrivingIsTheAward :
    OwnArrives { offer with sending := true } [] (withTx [{ offer with sending := true }] promised)
    ∧ offer.body = .placeOffer tk 2 3
    ∧ base.entry? (placeJob tk) = none
    ∧ (withEntry (entry (placeJob tk) [2] .held) base).entry? (placeJob tk) = some (entry (placeJob tk) [2] .held)
    ∧ (withEntry { entry (placeJob tk) [2] .promised with ending := true } base).entry? (placeJob tk)
        = some { entry (placeJob tk) [2] .promised with ending := true }
    ∧ (promised.entry? (placeJob tk) = some (entry (placeJob tk) [2] .promised)
        ∧ (entry (placeJob tk) [2] .promised).firstSlot? = some 2 ∧ (entry (placeJob tk) [2] .promised).ending = false
        ∧ promised.rec? 2 = some (plain (.offered tk)))
    ∧ (having 2 (.occupied parcel) promised).rec? 2 = some (plain (.occupied parcel)) :=
  ⟨.inr ⟨rfl, by decide, by decide⟩, by decide, by decide, by decide, by decide, by decide, by decide⟩

def offerFrame30 : Frame := frame 1 30 4 0 [3, 0, 9, 4, 1]

theorem offer_heard : Hears offerFrame30 base ∧ Hears offerFrame30 promised :=
  ⟨⟨by decide, rfl, rfl, by decide, by decide, by decide⟩, ⟨by decide, rfl, rfl, by decide, by decide, by decide⟩⟩

/-- No entry for the ticket; a HELD one; a promise of it, presence on and presence off. -/
theorem witness_OtherStationsOfferIsTheLoss :
    (Hears offerFrame30 base ∧ Hears offerFrame30 promised) ∧ FromAColumn offerFrame30 promised ∧ Promised tk 2 promised
    ∧ (offerFrame30.kind = 4 ∧ offerFrame30.cls = 1 ∧ offerFrame30.dest = 0 ∧ decodeOffer offerFrame30.payload = some tk)
    ∧ base.entry? (placeJob tk) = none ∧ promised.rec? 2 = some (plain (.offered tk))
    ∧ (Hears offerFrame30 heldOn2 ∧ heldOn2.entry? (placeJob tk) = some (entry (placeJob tk) [2] .held)
        ∧ (entry (placeJob tk) [2] .held).stage ≠ .promised)
    ∧ (promised.sense 2).presenceIsOn = false
    ∧ ((withSense 2 { calm with presence := some true } promised).sense 2).presenceIsOn = true :=
  ⟨offer_heard, by unfold FromAColumn; decide, promised_tk, by decide, by decide, by decide,
   ⟨⟨by decide, rfl, rfl, by decide, by decide, by decide⟩, by decide, by decide⟩, by decide, by decide⟩

/-- A choice, and none for the size. -/
theorem witness_TheSmallestLeastUsedCandidateIsChosen :
    base.choose 1 = some 0 ∧ (base.setCts { base.cts with table := tconst none }).choose 4 = none := by decide

/-- A wanted size of 5; a repeat; level 2; a call spoken for; a full table; seven entries; carriers 1 and 63; a transmit queue of 7,
of 8 with and without a frame to discard; four bytes. -/
theorem witness_PlaceCallMakesAnOffer :
    Heads .placeCall (request .placeCall [0, 9, 5, 0, 5]) [] (asked .placeCall [0, 9, 5, 0, 5] base)
    ∧ decodePlaceCall [0, 9, 5, 0, 5] = some { number := 9, size := 5, purpose := 0, carrier := 5 }
    ∧ decodePlaceCall [0, 9, 4, 1, 63] = some { number := 9, size := 4, purpose := 1, carrier := 63 }
    ∧ ((promised.entry? (placeJob tk)).isSome = true ∧ (request .placeCall [0, 9, 1, 1, 1]).ticket 9 = tk)
    ∧ 2 ≤ (base.setBgu { base.bgu with level := 2 }).bgu.level ∧ base.choose 4 = none
    ∧ (base.entry? (placeJob tk) = none ∧ base.liu.line = .active ∧ base.bgu.level ≤ 1
        ∧ (request .placeCall [0, 9, 3, 0, 5]).spoken = false ∧ base.choose 3 = some 2)
    ∧ 8 ≤ (base.setOrt (List.replicate 8 (entry (sweepJob tk) [1] .listed))).ort.length
    ∧ (base.setOrt (List.replicate 7 (entry (sweepJob tk) [1] .listed))).ort.length < 8
    ∧ (withTx (List.replicate 7 answerFrame) base).liu.tx.length < 8
    ∧ ((withTx (List.replicate 8 answerFrame) base).liu.tx.length = 8
        ∧ ∃ g ∈ (withTx (List.replicate 8 answerFrame) base).liu.tx, 2 ≤ g.body.cls ∧ g.sending = false)
    ∧ (8 ≤ (withTx (List.replicate 8 offer) base).liu.tx.length
        ∧ ∀ g ∈ (withTx (List.replicate 8 offer) base).liu.tx, g.body.cls < 2 ∨ g.sending = true)
    ∧ (request .placeCall [0, 9, 3, 0]).payload.length < 5 :=
  ⟨⟨rfl, rfl⟩, by decide, by decide, by decide, by decide, by decide, by decide, by decide, by decide, by decide, by decide, by decide⟩

/-- No entry; a slot other than the entry's; DOOR; a promise gone; a code of 1,000,000; a RETURN; holding 59 and 60; 19 bytes. -/
theorem witness_PlaceDetailMakesTheParcelRecord :
    Heads .placeDetail (request .placeDetail detail) [] (asked .placeDetail detail heldOn2)
    ∧ (decodePlaceDetail detail).map (fun d => (d.number, d.slot, d.code, d.holding)) = some (9, 2, 123456, 600)
    ∧ (decodePlaceDetail ([0, 9, 2] ++ List.replicate 8 0 ++ [15, 0x42, 0x40, 0, 59, 0, 0, 0, 0])).map
        (fun d => (d.code, d.holding)) = some (1000000, 59)
    ∧ base.entry? (placeJob tk) = none
    ∧ (heldOn2.entry? (placeJob tk) = some (entry (placeJob tk) [2] .held)
        ∧ (entry (placeJob tk) [2] .held).firstSlot? = some 2 ∧ (entry (placeJob tk) [2] .held).ending = false
        ∧ heldOn2.rec? 2 = some (plain (.held tk none)) ∧ (entry (placeJob tk) [2] .held).purpose ≠ .carrierReturn)
    ∧ (withEntry (entry (placeJob tk) [2] .door) base).entry? (placeJob tk) = some (entry (placeJob tk) [2] .door)
    ∧ (having 2 (.occupied parcel) heldOn2).rec? 2 = some (plain (.occupied parcel))
    ∧ (withEntry { entry (placeJob tk) [2] .held with purpose := .carrierReturn } heldOn2).entry? (placeJob tk)
        = some { entry (placeJob tk) [2] .held with purpose := .carrierReturn }
    ∧ (request .placeDetail (detail.take 19)).payload.length < 20 :=
  ⟨⟨rfl, rfl⟩, by decide, by decide, by decide, by decide, by decide, by decide, by decide, by decide⟩

/-- An entry without a timer; MATCHED; WAITING; PROMISED and HELD on slot 2. -/
theorem witness_LapsesEndTheirEntries :
    (let e := { entry (placeJob tk) [2] .door with timer := none }
     (withEntry e base).entry? e.job = some e ∧ e.timer = none)
    ∧ (matchedOn1.entry? (collectJob tk) = some { entry (collectJob tk) [1] .matched with code := 123456 }
        ∧ (entry (collectJob tk) [1] .matched).timer.isSome = true ∧ ∀ x ∈ (entry (collectJob tk) [1] .matched).slots, x.mark = false)
    ∧ (withEntry (entry (sweepJob tk) [1] .waiting) base).entry? (sweepJob tk) = some (entry (sweepJob tk) [1] .waiting)
    ∧ (promised.entry? (placeJob tk) = some (entry (placeJob tk) [2] .promised)
        ∧ promised.rec? 2 = some (plain (.offered tk)) ∧ (entry (placeJob tk) [2] .promised).timer.isSome = true)
    ∧ (heldOn2.entry? (placeJob tk) = some (entry (placeJob tk) [2] .held) ∧ heldOn2.rec? 2 = some (plain (.held tk none))) := by
  decide

/-! ### The tariff -/

/-- The tariff of section 9.2: the free time's last minute and the next, settled and not. -/
theorem witness_StorageChargeAndAmountDue :
    0 < (tariffOf conf parcel).step ∧ 101440 ≤ parcel.deposit + (tariffOf conf parcel).free
      ∧ parcel.deposit + (tariffOf conf parcel).free < 101441
      ∧ { parcel with settled := some 104010 }.settled = some 104010 ∧ parcel.limit = some 10080 ∧ parcel.settled = none
      ∧ (tariffOf conf parcel).capMax ≤ 99999 ∧ parcel.cod ≤ 99999 := by decide

/-- The last minute of the quote of minute 104,010. -/
theorem witness_AmountDueStandsUntilTheValidUntilMinute :
    0 < (tariffOf conf parcel).step ∧ 104010 ≤ 104020 ∧ 104020 < validUntil conf parcel 104010 := by decide

/-! ### Collections and payments -/

/-- The parcel of `base` is in slot 1 with code 123456; it is at its expiry minute at 110,080. -/
def atExpiry : State := { base with clk := { base.clk with minute := 110080 } }

theorem expired_there : ExpiredNow parcel atExpiry := .inr ⟨rfl, rfl, 10080, rfl, by decide⟩

theorem found_there : FoundByCode 123456 1 parcel base ∧ FoundByCode 123456 1 parcel atExpiry :=
  ⟨⟨plain (.occupied parcel), by decide, .inl rfl, rfl⟩, ⟨plain (.occupied parcel), by decide, .inl rfl, rfl⟩⟩

/-- Only slot 1 is found by the code, and nothing by another. -/
theorem found_only (code : Nat) (slot : Slot) (p : Parcel) (h : FoundByCode code slot p atExpiry) :
    slot = 1 ∧ p = parcel ∧ code = 123456 := by
  obtain ⟨r, hr, hs, hc⟩ := h
  have hall : ∀ i : Slot, atExpiry.rec? i = none ∨ i = 1 ∨ atExpiry.rec? i = some (plain .empty) := by decide
  rcases hall slot with h0 | h1 | h2
  · rw [h0] at hr; cases hr
  · subst h1
    have h1 : atExpiry.rec? 1 = some (plain (.occupied parcel)) := by decide
    rw [h1] at hr; cases hr
    rcases hs with hs | hs <;> cases hs
    exact ⟨rfl, rfl, by cases hc; rfl⟩
  · rw [h2] at hr; cases hr
    rcases hs with hs | hs <;> cases hs

/-- Codes 999,999 and 1,000,000; a repeat; none found; all found expired; a table of 8 entries and of 7; slot 1 free,
held; four bytes. -/
theorem witness_CollectCallMatchesByCode :
    Heads .collectCall (request .collectCall codeBytes) [] (asked .collectCall codeBytes base)
    ∧ decodeCollectCall codeBytes = some { number := 9, value := 123456 }
    ∧ [[0, 9, 0xF, 0x42, 0x3F], [0, 9, 0xF, 0x42, 0x40]].map decodeCollectCall
        = [some { number := 9, value := 999999 }, some { number := 9, value := 1000000 }]
    ∧ (matchedOn1.entry? (collectJob tk)).isSome = true ∧ base.entry? (collectJob tk) = none
    ∧ (∀ slot p, ¬FoundByCode 999999 slot p atExpiry)
    ∧ (FoundByCode 123456 1 parcel atExpiry ∧ ∀ i q, FoundByCode 123456 i q atExpiry → ExpiredNow q atExpiry ∧ 1 ≤ i)
    ∧ (allSlots.filter (base.collectable 123456)).take 4 = [1]
    ∧ 8 ≤ (base.setOrt (List.replicate 8 (entry (sweepJob tk) [0] .listed))).ort.length
    ∧ (base.setOrt (List.replicate 7 (entry (sweepJob tk) [0] .listed))).ort.length < 8
    ∧ Unblocked [1] base ∧ ¬Unblocked [1] matchedOn1
    ∧ (request .collectCall (codeBytes.take 4)).payload.length < 5 :=
  ⟨⟨rfl, rfl⟩, by decide, by decide, by decide, by decide,
   fun slot p h => absurd (found_only _ slot p h).2.2 (by decide),
   ⟨found_there.2, fun i q h => by obtain ⟨rfl, rfl, -⟩ := found_only _ i q h; exact ⟨expired_there, by decide⟩⟩,
   by decide, by decide, by decide, by unfold Unblocked; decide, by unfold Unblocked; decide, by decide⟩

/-- A matched entry whose slot has the current quote 7 of 3,690 valid until 104,021. -/
def quoted : Entry :=
  { entry (collectJob tk) [1] .matched with
    slots := [{ slot := 1, progress := .matched, quote := some (Quote.mk 7 3690 104021 104010), mark := false }] }

/-- A slot not held; amounts 0, 1, 99,999 and 100,000; a RETURN; the quote current at its last minute, and no longer at its
valid-until minute; a parcel in RELEASING; seven bytes. -/
theorem witness_PayNoteRecordsThePayment :
    Heads .payNote (request .payNote [0, 9, 1, 0, 7, 0, 0, 1]) [] (asked .payNote [0, 9, 1, 0, 7, 0, 0, 1] matchedOn1)
    ∧ ([[0, 9, 1, 0, 7, 0, 0, 0], [0, 9, 1, 0, 7, 0, 0, 1], [0, 9, 1, 0, 7, 1, 0x86, 0x9F], [0, 9, 2, 0, 7, 1, 0x86, 0xA0]].map
          decodePayNote).map (Option.map (fun d => (d.number, d.slot, d.quote, d.amount)))
        = [some (9, 1, 7, 0), some (9, 1, 7, 1), some (9, 1, 7, 99999), some (9, 2, 7, 100000)]
    ∧ (∀ e slot, base.entry? (collectJob tk) = some e → 1 = slot.val → e.holds slot = false)
    ∧ (withEntry quoted base).entry? (collectJob tk) = some quoted ∧ quoted.holds 1 = true
    ∧ (base.rec? 1 = some (plain (.occupied parcel)) ∧ parcel.purpose = .delivery ∧ parcel.paid < 16777215)
    ∧ (∀ p : Parcel, p.purpose = .delivery →
        (plain (.occupied oldParcel)).state ≠ .occupied p ∧ (plain (.occupied oldParcel)).state ≠ .releasing p)
    ∧ (having 1 (.releasing parcel) base).rec? 1 = some (plain (.releasing parcel))
    ∧ (withEntry quoted base).currentQuote (collectJob tk) 1 = some (Quote.mk 7 3690 104021 104010)
    ∧ { base.clk with minute := 104020 }.minute < 104021 ∧ ¬{ base.clk with minute := 104021 }.minute < 104021
    ∧ (request .payNote [0, 9, 1, 0, 7, 0, 0]).payload.length < 8 := by
  refine ⟨⟨rfl, rfl⟩, by decide, fun e slot h => ?_, by decide, by decide, by decide, fun p hp => ⟨?_, ?_⟩, by decide,
    by decide, by decide, by decide, by decide⟩
  · exact absurd h (by rw [show base.entry? (collectJob tk) = none from by decide]; simp)
  · intro h; cases h; exact absurd hp (by decide)
  · intro h; cases h

/-- A GO of one byte; one without an entry and to a waiting one; lists of none, of 4 slots up to 23, of 5, with slot 24; levels 2
and 3; a slot not held, in DOOR, MATCHED; a RETURN, an expired parcel under a mark, an amount due, a paid parcel with `span`
cycles in progress and with one fewer. -/
theorem witness_CollectGoJudgesItsSlots :
    (Heads .collectGo (request .collectGo [0, 9, 1]) [] (asked .collectGo [0, 9, 1] matchedOn1)
      ∧ (request .collectGo [0, 9, 1]).ticket 9 = tk)
    ∧ ([[0, 9], [0, 9, 0, 1, 2, 23], [0, 9, 0, 1, 2, 3, 4], [0, 9, 24]].map decodeGo).map (Option.map (fun g => g.slots))
        = [some [], some [0, 1, 2, 23], some [0, 1, 2, 3, 4], some [24]]
    ∧ base.entry? (collectJob tk) = none
    ∧ (withEntry (entry (collectJob tk) [1] .waiting) base).entry? (collectJob tk) = some (entry (collectJob tk) [1] .waiting)
    ∧ (matchedOn1.entry? (collectJob tk)).map (fun e => e.stage) = some .matched ∧ (collectJob tk).kind = .collect
    ∧ (∀ level ∈ [2, 3], (matchedOn1.setBgu { matchedOn1.bgu with level := level }).bgu.level = level)
    ∧ quoted.slot? 2 = none ∧ (quoted.slot? 1).map (fun x => x.progress) = some .matched
    ∧ (quoted.updSlot 1 (fun x => { x with progress := .door })).slots.map (fun x => x.progress) = [.door]
    ∧ (∀ r p, (having 1 (.occupied { parcel with purpose := .carrierReturn }) base).rec? 1 = some r → r.state = .occupied p →
        p.purpose = .carrierReturn)
    ∧ (ExpiredNow parcel atExpiry ∧ ¬ExpiredNow parcel base) ∧ 0 < amountDue conf 2 parcel base.clk.minute
    ∧ amountDue conf 2 paidParcel base.clk.minute = 0
    ∧ ¬ExpiredNow paidParcel (having 1 (.occupied paidParcel) base)
    ∧ (let s := base.setDsq
          { base.dsq with cycles := [{ collecting .opened with slot := 0 }, { collecting .opened with slot := 2 }] }
       s.conf.span ≤ s.dsq.cycles.length ∧ s.hasDoorCycle 1 = false)
    ∧ (base.hasDoorCycle 1 = false ∧ base.dsq.cycles.length < base.conf.span ∧ base.dsq.queue = [])
    ∧ (request .collectGo [0]).payload.length < 2 := by
  refine ⟨⟨⟨rfl, rfl⟩, rfl⟩, by decide, by decide, by decide, by decide, by decide, by decide, by decide, by decide, by decide,
    fun r p h hp => ?_, ⟨expired_there, ?_⟩, by decide, by decide, ?_, by decide, by decide, by decide⟩
  · have h1 : (having 1 (.occupied { parcel with purpose := .carrierReturn }) base).rec? 1
        = some (plain (.occupied { parcel with purpose := .carrierReturn })) := by decide
    rw [h1] at h; cases h; cases hp; rfl
  · rintro (h | ⟨-, -, h, hl, hm⟩)
    · exact absurd h (by decide)
    · cases hl; exact absurd hm (by decide)
  · rintro (h | ⟨-, -, h, hl, hm⟩)
    · exact absurd h (by decide)
    · cases hl; exact absurd hm (by decide)

/-! ### Sweeps and service -/

/-- An expired parcel in slot 1, and in every slot up to 12. -/
def oldIn1 : State := having 1 (.occupied oldParcel) base

theorem old_found : FoundForCarrier 5 1 oldIn1 := ⟨plain (.occupied oldParcel), oldParcel, by decide, .inl rfl, rfl, .inr (.inl rfl)⟩

/-- Two bytes; carriers 0, 63 and 64; a repeat; a parcel found, and none; the table full, and with a place; the slot free, and held. -/
theorem witness_SweepCallListsTheCarriersParcels :
    Heads .sweepCall (request .sweepCall [0, 9, 5]) [] (asked .sweepCall [0, 9, 5] oldIn1)
    ∧ ([[0, 9, 0], [0, 9, 63], [0, 9, 64], [0, 9, 5]].map decodeSweepCall).map (Option.map (fun c => c.value))
        = [some 0, some 63, some 64, some 5]
    ∧ (listedOn1.entry? (sweepJob tk)).isSome = true ∧ oldIn1.entry? (sweepJob tk) = none
    ∧ FoundForCarrier 5 1 oldIn1 ∧ (∀ i, State.reset.rec? i = none)
    ∧ 8 ≤ (oldIn1.setOrt (List.replicate 8 (entry (sweepJob tk) [0] .listed))).ort.length
    ∧ (oldIn1.setOrt (List.replicate 7 (entry (sweepJob tk) [0] .listed))).ort.length < 8
    ∧ Unblocked [1] oldIn1 ∧ ¬Unblocked [1] listedOn1 ∧ (request .sweepCall [0, 9]).payload.length < 3 :=
  ⟨⟨rfl, rfl⟩, by decide, by decide, by decide, old_found, by decide, by decide, by decide, by unfold Unblocked; decide,
   by unfold Unblocked; decide, by decide⟩

/-- A waiting entry; one in DOOR; a LISTED one; lists of none, of 12, of 13, with slot 24; levels 1 and 2; slot 1 accepted, slot 0
not; `span` cycles in progress, and none. -/
theorem witness_SweepGoAsksForTheAcceptedDoors :
    (Heads .sweepGo (request .sweepGo [0, 9, 1]) [] (asked .sweepGo [0, 9, 1] listedOn1)
      ∧ (request .sweepGo [0, 9, 1]).ticket 9 = tk)
    ∧ ([[0, 9], [0, 9, 0, 1], [0, 9, 1], [0, 9, 24]].map decodeGo).map (Option.map (fun g => g.slots))
        = [some [], some [0, 1], some [1], some [24]]
    ∧ (([12, 13].map (fun n => decodeGo ([0, 9] ++ List.replicate n 1))).map (Option.map (fun g => g.slots.length)))
        = [some 12, some 13]
    ∧ ((withEntry (entry (sweepJob tk) [1] .waiting) oldIn1).entry? (sweepJob tk)).map (fun e => e.stage) = some .waiting
    ∧ ((withEntry (entry (sweepJob tk) [1] .door) oldIn1).entry? (sweepJob tk)).map (fun e => e.stage) = some .door
    ∧ (listedOn1.entry? (sweepJob tk)).map (fun e => (e.stage, e.slotList, e.carrier)) = some (.listed, [1], 5)
    ∧ FoundForCarrier 5 1 listedOn1 ∧ ¬FoundForCarrier 5 0 listedOn1
    ∧ (∀ level ∈ [1, 2], (listedOn1.setBgu { listedOn1.bgu with level := level }).bgu.level = level)
    ∧ (listedOn1.hasDoorCycle 1 = false ∧ listedOn1.dsq.queue = [] ∧ listedOn1.dsq.cycles.length < listedOn1.conf.span)
    ∧ (listedOn1.setDsq { listedOn1.dsq with
          cycles := [{ collecting .opened with slot := 0 }, { collecting .opened with slot := 2 }] }).hasDoorCycle 1 = false
    ∧ (listedOn1.rec? 1 = some (plain (.occupied oldParcel)) ∧ NoMarks { entry (sweepJob tk) [1] .listed with carrier := 5 }) := by
  refine ⟨⟨⟨rfl, rfl⟩, rfl⟩, by decide, by decide, by decide, by decide, by decide,
    ⟨plain (.occupied oldParcel), oldParcel, by decide, .inl rfl, rfl, .inr (.inl rfl)⟩, ?_, by decide, by decide, by decide,
    by decide, by unfold NoMarks; decide⟩
  rintro ⟨r, p, hr, hs, -⟩
  have h0 : listedOn1.rec? 0 = some (plain .empty) := by decide
  rw [h0] at hr; cases hr
  rcases hs with hs | hs <;> cases hs

/-- A GO of one byte; slot 1 dropped, its mark clear and, with its parcel at its expiry minute, set; slots 0 and 1 named, none and slot 1
refused; slot 1 asked for with `span` cycles in progress and with none. -/
theorem witness_SweepGoReleasesAndJudges :
    (request .sweepGo [0]).payload.length < 2
    ∧ (let e := { entry (sweepJob tk) [1] .door with carrier := 5 }
       let s := withEntry e oldIn1
       s.entry? (sweepJob tk) = some e ∧ (e.slot? 1).map (fun x => (x.progress, x.mark)) = some (.matched, false)
        ∧ [1].filter (s.sweepAccepts e) = [1] ∧ [0].filter (s.sweepAccepts e) = [] ∧ [0].filter (fun i => !s.sweepAccepts e i) = [0]
        ∧ s.hasDoorCycle 1 = false ∧ s.dsq.cycles.length < s.conf.span ∧ s.dsq.queue = []
        ∧ s.rec? 1 = some (plain (.occupied oldParcel))
        ∧ s.conf.span ≤ [{ collecting .opened with slot := 0 }, { collecting .opened with slot := 2 }].length)
    ∧ FoundForCarrier 5 1 oldIn1
    ∧ (let e := (entry (sweepJob tk) [1] .listed).updSlot 1 (fun x => { x with mark := true })
       let s := withEntry e atExpiry
       s.entry? (sweepJob tk) = some e ∧ (e.slot? 1).map (fun x => x.mark) = some true
        ∧ s.rec? 1 = some (plain (.occupied parcel)) ∧ parcel.purpose = .delivery
        ∧ ∀ d ∈ s.ort, d.job ≠ sweepJob tk → d.holds 1 = false)
    ∧ ExpiredNow parcel atExpiry :=
  ⟨by decide, by decide, old_found, by decide, expired_there⟩

/-- A short payload, a slot not fitted, slot 3 fitted; a repeat; a full table; a slot held. -/
theorem witness_ServiceRequestsAreAdmitted :
    ServiceCommand .serviceOpen .serviceOpen .open ∧ ServiceCommand .serviceRestore .serviceRestore .restore
    ∧ Heads .serviceOpen (request .serviceOpen [0, 9, 3]) [] (asked .serviceOpen [0, 9, 3] base)
    ∧ decodeService [0, 9] = none
    ∧ ([[0, 9, 3], [0, 9, 4]].map decodeService) = [some { number := 9, value := 3 }, some { number := 9, value := 4 }]
    ∧ (∀ slot : Slot, slot.val = 4 → base.fitted slot = false) ∧ base.fitted 3 = true
    ∧ ((withEntry (entry (serviceJob tk) [3] .door) base).entry? (serviceJob tk)).isSome = true
    ∧ base.entry? (serviceJob tk) = none
    ∧ 8 ≤ (base.setOrt (List.replicate 8 (entry (sweepJob tk) [1] .listed))).ort.length
    ∧ ¬Unblocked [1] matchedOn1 :=
  ⟨.inl ⟨rfl, rfl, rfl⟩, .inr (.inr (.inr ⟨rfl, rfl, rfl⟩)), ⟨rfl, rfl⟩, by decide, by decide, by decide, by decide, by decide,
   by decide, by decide, by unfold Unblocked; decide⟩

/-- A service request for slot 1, whose compartment's state is given. -/
def serving (k : RequestKind) (c : CompState) : State := asked k [0, 9, 1] (having 1 c base)

theorem served (k : RequestKind) (c : CompState) :
    ServiceTaken k (request k [0, 9, 1]) [] { number := 9, value := 1 } 1 (plain c) (serving k c) :=
  ⟨⟨rfl, rfl⟩, by show decodeService [0, 9, 1] = _; decide, rfl, show base.fitted 1 = true by decide, rfl, rfl,
   show 0 < 8 by decide, fun _ _ e h => absurd h (List.not_mem_nil)⟩

/-- RETIRED; any other state with `span` cycles in progress; OCCUPIED, EMPTY and FAULT with a cycle to start. -/
theorem witness_ServiceOpenAsksForTheDoor :
    (∀ c, ServiceTaken .serviceOpen (request .serviceOpen [0, 9, 1]) [] { number := 9, value := 1 } 1 (plain c)
      (serving .serviceOpen c))
    ∧ (plain .retired).state = .retired ∧ (plain .empty).state ≠ .retired
    ∧ (∀ c ∈ [CompState.occupied parcel, .empty, .fault .jam none], (serving .serviceOpen c).hasDoorCycle 1 = false
        ∧ (serving .serviceOpen c).dsq.queue = [] ∧ (serving .serviceOpen c).dsq.cycles.length < conf.span)
    ∧ ((serving .serviceOpen .empty).setDsq { base.dsq with
          cycles := [{ collecting .opened with slot := 0 }, { collecting .opened with slot := 2 }] }).hasDoorCycle 1 = false :=
  ⟨served _, by decide, by decide, by decide, by decide⟩

/-- A compartment in FAULT with and without a parcel record, secure and not, presence on and off; one in FAULT(FOREIGN) with presence
on, nothing of it being written, and a slot being written; one not in FAULT; EMPTY and not;
RETIRED and not. -/
theorem witness_ServiceClearRetireRestoreChangeTheRecord :
    (∀ k c, ServiceTaken k (request k [0, 9, 1]) [] { number := 9, value := 1 } 1 (plain c) (serving k c))
    ∧ (∀ c p, CompState.empty ≠ .fault c p)
    ∧ ((serving .serviceClear (.fault .jam none)).sense 1).secure = true
    ∧ ((withSense 1 { calm with boltLow := some 199 } (serving .serviceClear (.fault .jam none))).sense 1).secure = false
    ∧ ((serving .serviceClear (.fault .jam none)).sense 1).presenceIsOn = false
    ∧ ((withSense 1 { calm with presence := some true } (serving .serviceClear (.fault .jam none))).sense 1).presenceIsOn = true
    ∧ plain (.fault .jam (some parcel)) ≠ plain (.occupied parcel) ∧ plain (.fault .jam none) ≠ plain (.fault .foreign none)
    ∧ Table107 (plain (.fault .foreign none)) true (plain (.fault .foreign none)) .foreign 0
    ∧ (¬Writing 1 (serving .serviceClear (.fault .foreign none))
        ∧ Writing 0 (writing false false none []) ∧ (serving .serviceClear (.fault .foreign none)).liu.tx.length + 2 ≤ 8)
    ∧ (plain .empty).state = .empty ∧ (plain .retired).state = .retired ∧ (plain .retired).state ≠ .empty :=
  ⟨served, fun _ _ h => (nomatch h), by decide, by decide, by decide, by decide, by decide, by decide, ⟨rfl, rfl, rfl⟩,
   by unfold Writing; decide, by decide, by decide, by decide⟩

/-- An own note queued and one on the line; a drive on. -/
theorem witness_RestartWaitsForDrivesAndNotes :
    Heads .serviceRestart (request .serviceRestart []) [] (asked .serviceRestart [] base)
    ∧ ((withOwn (.queued 1 false) base).bgu.own = .queued 1 false ∧ (withOwn (.queued 1 false) base).noteBusy = false)
    ∧ (withTx [sendingFrame (.pulseNote 1 30 .collect)] (base.setRestart true)).noteBusy = true
    ∧ (base.setRestart true).restart = true ∧ base.restart = false
    ∧ (∃ i, (tget ((base.setRestart true).setDriver 23 (some 10)).bgu.drivers i).isSome = true) :=
  ⟨⟨rfl, rfl⟩, by decide, by decide, by decide, by decide, by decide⟩

/-! ### Queries, outputs, conditions and time -/

/-- Parts 2 and 3 of a STATUS_QUERY; a SLOT_QUERY of one byte, of slots 23 and 24, of parts 2 and 3; a slot with a record, with and
without a parcel, and one without. -/
theorem witness_QueriesAreAnswered :
    (∀ k ∈ [RequestKind.freeQuery, .statusQuery, .slotQuery, .countQuery, .countClear],
      (asked k [2, 2] base).liu.rx = [request k [2, 2]])
    ∧ ((2 : Byte).toNat ≤ 2 ∧ 2 < (3 : Byte).toNat) ∧ (request .slotQuery [1]).payload.length < 2
    ∧ (24 ≤ (24 : Byte).toNat ∧ (23 : Slot).val = (23 : Byte).toNat)
    ∧ base.rec? 23 = none ∧ base.rec? 2 = some (plain .empty) ∧ base.rec? 1 = some (plain (.occupied parcel)) := by decide

/-- Settings 3 and 4, and too few; a mask, and none. -/
theorem witness_OutputsAndConditionsAreSetAndCleared :
    Heads .outputSet (request .outputSet [0, 1, 2, 3]) [] (asked .outputSet [0, 1, 2, 3] base)
    ∧ Heads .alertClear (request .alertClear [0, 2]) [] (asked .alertClear [0, 2] base)
    ∧ (decodeOutputSet [0, 1, 2, 3] = some #v[0, 1, 2, 3] ∧ ∀ i : Fin 4, (#v[0, 1, 2, 3] : Vector Nat 4)[i] ≤ 3)
    ∧ (decodeOutputSet [0, 1, 2, 4] = some #v[0, 1, 2, 4] ∧ decodeOutputSet [0] = none)
    ∧ (decodeMask [0, 2] = some 2 ∧ decodeMask [0] = none) :=
  ⟨⟨rfl, rfl⟩, ⟨rfl, rfl⟩, by decide, by decide, by decide⟩

/-- Minute 104,010 against a TIME of one more, of itself, of 1,440 less and of 1,441 less. -/
theorem witness_TimeFramesAndTicksMoveTheClock :
    Heads .time (request .time [0, 1, 0x96, 0x4B]) [] (asked .time [0, 1, 0x96, 0x4B] base)
    ∧ decodeTime [0] = none ∧ decodeTime [0, 1, 0x96, 0x4B] = some 104011
    ∧ decodeTime [0, 1, 0x96, 0x4A] = some 104010 ∧ decodeTime [0, 1, 0x90, 0xAA] = some 102570
    ∧ decodeTime [0, 1, 0x90, 0xA9] = some 102569
    ∧ (base.cts.minuteWrites = [] ∧ base.lastMinute = 104010) ∧ (ticked 110081 base).lastMinute = 110081
    ∧ base.loaded = true :=
  ⟨⟨rfl, rfl⟩, by decide, by decide, by decide, by decide, by decide, by decide, by decide, by decide⟩

/-- A tick's write to the expiry minute of slot 1's parcel, which changes bit 0, with the slot free and held; a TIME frame's. -/
theorem witness_MinuteWritesMoveTheMinuteAndScan :
    ((ticked 104011 base).cts.minuteWrites = [{ value := 104011, tick := true, synced := true }]
      ∧ (ticked 104011 base).cts.minuteNextB = false
      ∧ (ticked 104011 base).clk.synced = true
      ∧ (ticked 104011 base).clk.minute.testBit conf.granularity ≠ Nat.testBit 104011 conf.granularity)
    ∧ (∃ p, base.parcel? 1 = some p ∧ p.purpose = .delivery ∧ p.limit = some 10080 ∧ p.deposit + 10080 ≤ 110080
        ∧ 110079 < p.deposit + 10080)
    ∧ (Nat.testBit 110079 conf.granularity ≠ Nat.testBit 110080 conf.granularity)
    ∧ (∀ e ∈ base.ort, e.holds 1 = false) ∧ (matchedOn1.holder? 1).isSome = true
    ∧ (base.setCts { base.cts with minuteNextB := true }).cts.minuteNextB = true :=
  ⟨by decide, ⟨parcel, by decide, by decide, by decide, by decide, by decide⟩, by decide, by decide, by decide, by decide⟩

/-! ### Sensing and door cycles -/

/-- A column not loaded; a slot not fitted; a fitted one with its gates known and not; counts 8 to the threshold 9 and 9 to 8;
stages DRIVING and SETTLE; a door cycle and none. -/
theorem witness_BoltStepsFollowTable31 :
    State.reset.loaded = false ∧ base.fitted 23 = false ∧ (base.loaded = true ∧ base.fitted 1 = true)
    ∧ ((withSense 1 { calm with gates := none } base).sense 1).gates = none ∧ (base.sense 1).gates.isSome = true
    ∧ ((withSense 1 { calm with bolt := 8 } base).sense 1).bolt + 1 = base.conf.threshold ∧ base.conf.threshold ≤ 15
    ∧ (withCycle (collecting .driving) base).cycle? 1 = some (collecting .driving)
    ∧ (withSense 1 { calm with bolt := 1 } (withCycle (collecting .settle) base)).cycle? 1 = some (collecting .settle)
    ∧ (base.sense 1).secure = true ∧ base.hasDoorCycle 1 = false ∧ (base.rec? 1).isSome = true
    ∧ ((withSense 1 { calm with homeIdle := some 10000 } base).sense 1).homeIdle.isSome = true
    ∧ base.conf.edges = EdgeEnables.all
    ∧ (edgeOf { EdgeEnables.all with aFallBHigh := false } .a (false, true)).2 = false := by decide

/-- The door of slot 1 closed, in each stage; a slot without a door cycle; a waiting door request; the door open, in OPEN. -/
theorem witness_DoorEventsMoveTheCycleOrForce :
    (base.loaded = true ∧ base.fitted 1 = true)
    ∧ (∀ stage ∈ [Stage.starting, .pulseWait, .driving, .popWait, .opened, .closing, .settle],
        (withCycle (collecting stage) base).cycle? 1 = some (collecting stage)
          ∧ (withCycle (collecting stage) base).inDoorQueue 1 = false
          ∧ ((withCycle (collecting stage) base).sense 1).door = some false)
    ∧ (base.hasDoorCycle 1 = false ∧ base.rec? 1 = some (plain (.occupied parcel)))
    ∧ (let q : DoorRequest := { slot := 1, kind := .collect, job := collectJob tk, ref := 7 }
       (base.setDsq { base.dsq with queue := [q] }).dsq.queue.find? (fun x => x.slot == 1) = some q
        ∧ (base.setDsq { base.dsq with queue := [q] }).inCycle 1 = false)
    ∧ ((withSense 1 { calm with door := some true } (withCycle (collecting .opened) base)).sense 1).door = some true := by decide

/-- A door request on slot 1, of each kind, on the compartment given. -/
def asking (kind : DoorKind) (j : Job) (c : CompState) : State :=
  (having 1 c base).setDsq { base.dsq with queue := [{ slot := 1, kind := kind, job := j, ref := 7 }] }

/-- A cycle in STARTING and in PULSE_WAIT, and a queued request of each kind: a SERVICE's on an EMPTY, an OCCUPIED and a FAULT
compartment; a bolt one step below the threshold. -/
theorem witness_ForcedReportsFallOnRequests :
    (∀ stage ∈ [Stage.starting, .pulseWait],
      (withCycle (collecting stage) base).inDoorQueue 1 = false
        ∧ (withCycle (collecting stage) base).cycle? 1 = some (collecting stage)
        ∧ (withCycle (collecting stage) base).windowOpen 1 = false
        ∧ ((withCycle (collecting stage) (having 1 (.releasing parcel) base)).rec? 1).map CompRec.storeFaulted = some false)
    ∧ (∀ x ∈ [(DoorKind.deposit, placeJob tk, CompState.held tk (some parcel)), (.collect, collectJob tk, .occupied parcel),
          (.sweep, sweepJob tk, .occupied oldParcel), (.service, serviceJob tk, .empty), (.service, serviceJob tk, .occupied parcel),
          (.service, serviceJob tk, .fault .jam none)],
        ((asking x.1 x.2.1 x.2.2).dsq.queue.find? (fun q => q.slot == 1)).map (fun q => (q.kind, q.job)) = some (x.1, x.2.1)
          ∧ (asking x.1 x.2.1 x.2.2).inCycle 1 = false ∧ (asking x.1 x.2.1 x.2.2).rec? 1 = some (plain x.2.2))
    ∧ (let s := withSense 1 { calm with bolt := 8 } (asking .collect (collectJob tk) (.occupied parcel))
       (s.sense 1).bolt + 1 = s.conf.threshold ∧ s.conf.threshold ≤ 15 ∧ s.windowOpen 1 = false) := by decide

/-- Presence off and on; EMPTY, OCCUPIED and HELD; a cycle in progress; no record. -/
theorem witness_PresenceEventsChangeTheFlags :
    (base.loaded = true ∧ base.fitted 1 = true ∧ base.fitted 0 = true)
    ∧ (∀ on : Bool, ((withSense 1 { calm with presence := some (!on) } base).sense 1).presence = some (!on)
        ∧ ((withSense 0 { calm with presence := some (!on) } base).sense 0).presence = some (!on))
    ∧ (base.rec? 0 = some (plain .empty) ∧ base.inCycle 0 = false)
    ∧ (base.rec? 1 = some (plain (.occupied parcel)) ∧ base.inCycle 1 = false)
    ∧ (withCycle (collecting .settle) base).inCycle 1 = true ∧ State.reset.rec? 1 = none
    ∧ heldOn2.rec? 2 = some (plain (.held tk none)) := by decide

/-- A slot not yet secure in CLOSING and without a cycle; OPEN; POP_WAIT at attempt 2. -/
theorem witness_CycleTimersMoveTheStages :
    (base.loaded = true ∧ base.fitted 1 = true ∧ ((withSense 1 { calm with boltLow := some 199 } base).sense 1).door = some false
      ∧ ((withSense 1 { calm with boltLow := some 199 } base).sense 1).boltLow.isSome = true)
    ∧ (∀ stage ∈ [Stage.closing, .opened, .popWait],
        (withCycle (collecting stage) base).cycle? 1 = some (collecting stage))
    ∧ (let c := { collecting .popWait with attempt := 2, limit := some 59999 }
       (withCycle c base).cycle? 1 = some c ∧ c.limit.isSome = true ∧ c.stage ≠ .pulseWait ∧ c.attempt < 3
        ∧ c.limitReached = false)
    ∧ (let c := { collecting .opened with ajar := some 180000 }
       (withCycle c base).cycle? 1 = some c ∧ c.ajar.isSome = true)
    ∧ base.cycle? 1 = none := by decide

/-- A cycle of each kind on slot 1 in the stage, the compartment as its table's column begins. -/
def finishing (stage : Stage) : List (State × Cycle) :=
  [({ cycle stage .deposit (placeJob tk) with startState := .occupied }, CompState.held tk (some parcel)),
   (cycle stage .collect (collectJob tk), .releasing parcel), (cycle stage .sweep (sweepJob tk), .releasing parcel),
   (cycle stage .service (serviceJob tk), .releasing parcel),
   ({ cycle stage .service (serviceJob tk) with startState := .empty }, .empty),
   ({ cycle stage .service (serviceJob tk) with startState := .fault }, .fault .jam none)].map
    (fun x => (withCycle x.1 (having 1 x.2 base), x.1))

/-- SETTLE with and without a latch fault; PULSE_WAIT with each last failure; POP_WAIT at attempt 3 and past its limit. -/
theorem witness_CyclesEndWithTheMappedOutcome :
    (∀ stage ∈ [Stage.settle, .pulseWait, .popWait], ∀ x ∈ finishing stage,
      x.1.cycle? 1 = some x.2 ∧ x.2.stage = stage ∧ x.2.latchFault = false ∧ x.2.limit.isSome = true
        ∧ (x.1.sense x.2.slot).secure = true ∧ (x.1.rec? x.2.slot).isSome = true
        ∧ ((x.1.rec? x.2.slot).map CompRec.storeFaulted) = some false)
    ∧ (withCycle { collecting .settle with latchFault := true } base).cycle? 1
        = some { collecting .settle with latchFault := true }
    ∧ (withCycle { collecting .pulseWait with lastFailure := some .bolt } base).cycle? 1
        = some { collecting .pulseWait with lastFailure := some .bolt }
    ∧ 3 ≤ { collecting .popWait with attempt := 3 }.attempt
    ∧ Cycle.limitReached { collecting .popWait with limit := some 60000 } = true := by decide

/-! ### The custody store -/

/-- A write with and without another change behind it; a second attempt; a write of FAULT(STORE). -/
theorem witness_RecordWritesEndAndReleaseTheirUnits :
    (∀ second storeFault : Bool, (((writing second storeFault none [.cycleStart]).store 0).writing.map
      (fun w => (w.second, w.cause))) = some (second, if storeFault then .storeFault else .change))
    ∧ ((writing false false (some []) []).store 0).again = some [] ∧ ((writing true true none []).store 0).again = none
    ∧ (writing false false (some []) []).rec? 0 = some (plain .empty) := by decide

/-- A cycle that starts, undisturbed and forced; a detail with its compartment HELD, a cycle to start and `span` in progress, and
with it gone; entries of PLACE, COLLECT and SWEEP, with other slots and without. -/
theorem witness_UnitsGoOnWhenTheirWriteEnds :
    (let s := withCycle (collecting .starting) (having 1 (.releasing parcel) base)
     s.cycle? 1 = some (collecting .starting) ∧ (collecting .starting).forced = false ∧ s.storeFaulted 1 = false)
    ∧ (let c := { collecting .starting with forced := true }
       (withCycle c (having 1 (.releasing parcel) base)).cycle? 1 = some c
        ∧ (having 1 (.releasing parcel) base).rec? 1 = some (plain (.releasing parcel)))
    ∧ (let s := withCycle (collecting .starting) (having 1 (.fault .store (some parcel)) base)
       s.cycle? 1 = some (collecting .starting) ∧ s.storeFaulted 1 = true)
    ∧ ((serviceJob tk).kind = .service
        ∧ (withEntry (entry (serviceJob tk) [1] .door) base).entry? (serviceJob tk) = some (entry (serviceJob tk) [1] .door))
    ∧ (matchedOn1.parcel? 1 = some parcel ∧ (matchedOn1.entry? (collectJob tk)).map (fun e =>
        (e.slot? 1).map (fun x => x.progress)) = some (some .matched))
    ∧ (let s := withEntry (entry (placeJob tk) [2] .door) (having 2 (.held tk (some parcel)) base)
       s.rec? 2 = some (plain (.held tk (some parcel))) ∧ s.hasDoorCycle 2 = false ∧ s.dsq.queue = []
        ∧ s.dsq.cycles.length < s.conf.span ∧ s.entry? (placeJob tk) = some (entry (placeJob tk) [2] .door)
        ∧ ∀ x ∈ (entry (placeJob tk) [2] .door).slots, x.mark = false)
    ∧ (let s := (having 2 (.held tk (some parcel)) base).setDsq
          { base.dsq with cycles := [{ collecting .opened with slot := 0 }, collecting .opened] }
       s.conf.span ≤ s.dsq.cycles.length ∧ s.hasDoorCycle 2 = false)
    ∧ (having 2 (.fault .forced (some parcel)) base).heldFor 2 tk = false
    ∧ (matchedOn1.entry? (collectJob tk)).isSome = true ∧ (listedOn1.entry? (sweepJob tk)).isSome = true
    ∧ (∀ x ∈ (entry (collectJob tk) [1] .matched).slots, x.slot = 1 ∨ x.progress = .done)
    ∧ (∃ x ∈ (entry (collectJob tk) [1, 2] .matched).slots, x.slot ≠ 1 ∧ x.progress ≠ .done)
    ∧ (withEntry (entry (collectJob tk) [1, 2] .matched) base).entry? (collectJob tk)
        = some (entry (collectJob tk) [1, 2] .matched) := by decide

/-! ### Invariants -/

/-- Nothing is left to do in `base`. -/
theorem witness_ConcludingOnlyDoesTheColumnsOwnWork : AtRest base :=
  ⟨by decide, by decide, fun slot c h => absurd h (by rw [show base.noteCandidate = none from by decide]; simp)⟩

/-- A waiting COLLECT entry whose slot qualifies, and whose slot has gone; a waiting SWEEP entry whose slot matches, and whose slot has
gone; waiting SERVICE entries. -/
theorem witness_ConcludingTakesUpTheEligible :
    (∀ x ∈ [(collectJob tk, [(1 : Slot)]), (collectJob tk, [0]), (sweepJob tk, [1]), (sweepJob tk, [0]), (serviceJob tk, [1])],
      let e := { entry x.1 x.2 .waiting with code := 123456, carrier := 5, sub := some .retire }
      let s := withEntry e oldIn1
      s.ort = [] ++ e :: [] ∧ s.entry? e.job = some e ∧ e.slotList.Nodup ∧ (∀ d ∈ s.ort, ∀ i ∈ e.slotList, d.holds i = false)
        ∧ e.stage = .waiting ∧ e.slotList = x.2 ∧ (s.ort.length ≤ 8 ∧ s.dsq.queue.length ≤ 24))
    ∧ FoundForCarrier 5 1 oldIn1 ∧ Qualifies 123456 1 base
    ∧ (base.rec? 0 = some (plain .empty) ∧ ServiceUnfit .clear (plain .empty) ∧ ¬ServiceUnfit .retire (plain .empty)) := by
  refine ⟨by decide, old_found, ⟨plain (.occupied parcel), parcel, by decide, rfl, rfl, ?_⟩, by decide, fun _ _ h => (nomatch h),
    fun h => h rfl⟩
  rintro (h | ⟨-, -, h, hl, hm⟩)
  · exact absurd h (by decide)
  · cases hl; exact absurd hm (by decide)

/-- A COLLECT request of a paid parcel, of one with an amount due, of an expired one and of a RETURN; a SWEEP request; a SERVICE
request on an EMPTY compartment; the door span free. -/
theorem witness_ConcludingStartsTheHead :
    (∀ x ∈ [(DoorKind.collect, collectJob tk, CompState.occupied paidParcel), (.collect, collectJob tk, .occupied parcel),
          (.collect, collectJob tk, .occupied oldParcel), (.collect, collectJob tk, .occupied { parcel with purpose := .carrierReturn }),
          (.sweep, sweepJob tk, .occupied oldParcel), (.service, serviceJob tk, .empty)],
        let s := withEntry { entry x.2.1 [1] .door with carrier := 5 } (asking x.1 x.2.1 x.2.2)
        s.dsq.queue = [{ slot := 1, kind := x.1, job := x.2.1, ref := 7 }] ∧ s.dsq.cycles.length < s.conf.span
          ∧ s.rec? 1 = some (plain x.2.2) ∧ s.inCycle 1 = false ∧ s.bgu.own = .none
          ∧ (s.entry? x.2.1).map (fun e => e.carrier) = some 5 ∧ (∀ e ∈ s.ort, e.stage ≠ .waiting))
    ∧ amountDue conf 2 paidParcel base.clk.minute = 0 ∧ 0 < amountDue conf 2 parcel base.clk.minute
    ∧ ExpiredNow oldParcel base
    ∧ (((entry (collectJob tk) [1] .matched).updSlot 1 (fun x => { x with progress := .door })).slot? 1).map (fun x => x.progress)
        = some .door :=
  ⟨by decide, by decide, by decide, .inl rfl, by decide⟩

/-- The head of the pulse order waits for its pulse, and the note may be queued: with room, with a frame to discard, without one; the
pair is listed; the basis is DEFAULT. -/
theorem witness_ConcludingTestsTheNote :
    (let s := (withCycle (collecting .pulseWait) base).setDsq
        { (withCycle (collecting .pulseWait) base).dsq with order := [1] }
     NoteCycle 1 s ∧ s.cycle? 1 = some (collecting .pulseWait) ∧ NoteMay 1 s ∧ s.liu.tx.length < 8
      ∧ ¬NoteMay 1 (s.setBgu { s.bgu with basis := .byDefault }))
    ∧ (withTx (List.replicate 8 answerFrame) base).liu.tx.length = 8 ∧ 2 ≤ answerFrame.body.cls
    ∧ (∀ g ∈ (withTx (List.replicate 8 offer) base).liu.tx, g.body.cls < 2)
    ∧ NoteCycle 1 (withOwn (.deferred 1) base) :=
  ⟨⟨.inl ⟨by decide, by decide⟩, by decide, ⟨by decide, by decide, by decide, by decide, by decide⟩, by decide,
    fun h => h.basis rfl⟩, by decide, by decide, by decide, .inr rfl⟩

/-- A payment of the parcel in slot 1. -/
theorem witness_ParcelRecordsKeepTheirFields :
    Instr.payNote ≠ .placeDetail
    ∧ exec .payNote (asked .payNote [0, 9, 1, 0, 0, 0, 0x0E, 0x6A] matchedOn1)
        = .next (after .payNote (asked .payNote [0, 9, 1, 0, 0, 0, 0x0E, 0x6A] matchedOn1))
    ∧ (asked .payNote [0, 9, 1, 0, 0, 0, 0x0E, 0x6A] matchedOn1).parcel? 1 = some parcel
    ∧ ((after .payNote (asked .payNote [0, 9, 1, 0, 0, 0, 0x0E, 0x6A] matchedOn1)).parcel? 1).isSome = true :=
  ⟨by decide, rfl, by decide, by decide⟩

theorem witness_DriversFireOnlyOnAnOwnGrantedNote :
    exec (.pulseNote .own) noted = .next (after (.pulseNote .own) noted) ∧ tget noted.bgu.drivers 1 = none
      ∧ tget (after (.pulseNote .own) noted).bgu.drivers 1 = some 300 := ⟨rfl, by decide, by decide⟩

theorem witness_EveryStepKeepsTheBounds : Bounded State.reset ∧ ∃ t, step State.reset = .next t := ⟨reset_bounded, _, rfl⟩

theorem witness_EveryStepKeepsOneHolderPerCompartment :
    HoldsApart State.reset ∧ ∃ t, step State.reset = .next t := ⟨reset_apart, _, rfl⟩

end Sys2Proof.Tests
end

