-- ==== Sys2Proof/Proofs/Placement.lean ====
section
/-! SUPPORT. The proof of the statement about the compartment chosen for a call (R94): what a candidate is, the order the three
tests give, and that taking the better slot in rising order ends with the first slot of that order. -/

namespace Sys2Proof.Machine

/-! ## Candidates -/

theorem State.holder?_isNone_iff {s : State} {slot : Slot} :
    (s.holder? slot).isNone = true ↔ ∀ e ∈ s.ort, e.holds slot = false := by
  simp [State.holder?]

theorem State.awaited_eq_false_iff {s : State} {slot : Slot} :
    s.awaited slot = false ↔ ∀ e ∈ s.ort, e.awaits slot = false := by
  simp [State.awaited]

theorem State.offerable_iff {s : State} {slot : Slot} :
    s.offerable slot = true ↔ ∃ r, s.rec? slot = some r ∧ r.state = .empty ∧ r.foreign = false
      ∧ (s.holder? slot).isNone = true ∧ s.awaited slot = false := by
  unfold State.offerable
  cases s.rec? slot <;> simp [and_assoc]

theorem State.candidate_iff {s : State} {want : Nat} {slot : Slot} :
    s.candidate want slot = true ↔ Candidate want slot s := by
  simp only [State.candidate, Bool.and_eq_true, decide_eq_true_eq, State.offerable_iff, State.holder?_isNone_iff,
    State.awaited_eq_false_iff]
  constructor
  · rintro ⟨⟨r, hr, hempty, hforeign, hheld, hawaited⟩, hsize⟩
    exact ⟨r, hr, hempty, hforeign, hsize, fun e he => ⟨hheld e he, hawaited e he⟩⟩
  · rintro ⟨r, hr, hempty, hforeign, hsize, hfree⟩
    exact ⟨⟨r, hr, hempty, hforeign, fun e he => (hfree e he).1, fun e he => (hfree e he).2⟩, hsize⟩

theorem mem_candidates_iff {s : State} {want : Nat} {slot : Slot} :
    slot ∈ allSlots.filter (s.candidate want) ↔ Candidate want slot s := by
  simp [State.candidate_iff]

/-! ## The order of choice -/

/-- No later than another slot by size, then lock cycles, then slot number (R94). -/
def NoLater (s : State) (x y : Slot) : Prop :=
  s.size x < s.size y
    ∨ (s.size x = s.size y ∧ (s.locks x).count < (s.locks y).count)
    ∨ (s.size x = s.size y ∧ (s.locks x).count = (s.locks y).count ∧ x ≤ y)

theorem NoLater.refl (s : State) (x : Slot) : NoLater s x x := .inr (.inr ⟨rfl, rfl, le_rfl⟩)

theorem NoLater.trans {s : State} {x y z : Slot} (hxy : NoLater s x y) (hyz : NoLater s y z) : NoLater s x z := by
  simp only [NoLater, Fin.le_def] at hxy hyz ⊢
  omega

theorem State.preferred_iff {s : State} {x y : Slot} :
    s.preferred x y = true ↔ s.size x < s.size y ∨ (s.size x = s.size y ∧ (s.locks x).count < (s.locks y).count) := by
  simp [State.preferred]

theorem noLater_of_preferred {s : State} {x y : Slot} (h : s.preferred x y = true) : NoLater s x y :=
  (State.preferred_iff.mp h).imp_right .inl

theorem noLater_of_not_preferred {s : State} {x y : Slot} (hlt : x < y) (h : ¬s.preferred y x = true) : NoLater s x y := by
  simp only [State.preferred_iff, NoLater, Fin.le_def, Fin.lt_def] at h hlt ⊢
  omega

/-- The better of a slot and a higher one is one of the two and no later than either. -/
theorem better_some_noLater {s : State} {x y : Slot} (hlt : x < y) :
    ∃ z, s.better (some x) y = some z ∧ (z = x ∨ z = y) ∧ NoLater s z x ∧ NoLater s z y := by
  by_cases h : s.preferred y x = true
  · exact ⟨y, by simp [State.better, h], .inr rfl, noLater_of_preferred h, .refl s y⟩
  · exact ⟨x, by simp [State.better, h], .inl rfl, .refl s x, noLater_of_not_preferred hlt h⟩

/-! ## The choice -/

/-- Slots in rising order: the slot reached from the first of them is one of them and no later than any. -/
theorem foldl_better_noLater {s : State} {best : Slot} {rest : List Slot} (h : (best :: rest).Pairwise (· < ·)) :
    ∃ z, rest.foldl s.better (some best) = some z ∧ z ∈ best :: rest ∧ ∀ o ∈ best :: rest, NoLater s z o := by
  induction rest generalizing best with
  | nil => exact ⟨best, rfl, by simp, by simp [NoLater.refl]⟩
  | cons y rest ih =>
    simp only [List.pairwise_cons, List.forall_mem_cons] at h
    obtain ⟨⟨hbesty, hbest⟩, hy, hrest⟩ := h
    obtain ⟨w, hw, hwin, hwbest, hwy⟩ := better_some_noLater (s := s) hbesty
    have hsorted : (w :: rest).Pairwise (· < ·) := by
      rcases hwin with rfl | rfl
      · exact List.pairwise_cons.mpr ⟨hbest, hrest⟩
      · exact List.pairwise_cons.mpr ⟨hy, hrest⟩
    obtain ⟨z, hz, hzmem, hzmin⟩ := ih hsorted
    have hzw : NoLater s z w := hzmin w (by simp)
    refine ⟨z, by rw [List.foldl_cons, hw, hz], ?_, ?_⟩
    · rcases hwin with rfl | rfl
      · simp only [List.mem_cons] at hzmem ⊢; tauto
      · exact List.mem_cons_of_mem _ hzmem
    · simp only [List.forall_mem_cons] at hzmin ⊢
      exact ⟨hzw.trans hwbest, hzw.trans hwy, hzmin.2⟩

/-- The choice is none without candidates, and otherwise a candidate no later than any other. -/
theorem State.choose_cases (s : State) (want : Nat) :
    (s.choose want = none ∧ ∀ slot, ¬Candidate want slot s)
    ∨ ∃ z, s.choose want = some z ∧ Candidate want z s ∧ ∀ o, Candidate want o s → NoLater s z o := by
  have hsorted : (allSlots.filter (s.candidate want)).Pairwise (· < ·) := (List.pairwise_lt_finRange 24).filter _
  simp only [← mem_candidates_iff, State.choose]
  cases hcands : allSlots.filter (s.candidate want) with
  | nil => exact .inl ⟨rfl, by simp⟩
  | cons x rest =>
    rw [hcands] at hsorted
    exact .inr (foldl_better_noLater hsorted)

/-- Settles O29, by induction on the candidates in rising order. -/
theorem theSmallestLeastUsedCandidateIsChosen : Obligations.TheSmallestLeastUsedCandidateIsChosen := by
  intro s want
  rcases s.choose_cases want with ⟨hnone, hno⟩ | ⟨z, hz, hcand, hmin⟩
  · exact ⟨fun slot h => by simp [hnone] at h, fun _ => hno, fun _ => hnone⟩
  · refine ⟨fun slot h => ?_, fun h => by simp [hz] at h, fun h => absurd hcand (h z)⟩
    obtain rfl : z = slot := Option.some.inj (hz.symm.trans h)
    exact ⟨hcand, hmin⟩

end Sys2Proof.Machine
end

