-- ==== Sys2Proof/Proofs/Tariff.lean ====
section
/-! SUPPORT. The proof of the statement about the storage charge and the amount due (R121 to R124): what rounding up means, the
charge on each side of the free time and its overall cap, the charge minute of a delivery, and the amount due in integers. -/

namespace Sys2Proof.Machine

/-! ## Begun steps and prices -/

theorem le_ceilDiv_mul {a b : Nat} (hb : 0 < b) : a ≤ ceilDiv a b * b := by
  have hlt : a + b - 1 < ceilDiv a b * b + b := Nat.lt_div_mul_add hb
  omega

theorem ceilDiv_mul_lt {a b : Nat} (hb : 0 < b) : ceilDiv a b * b < a + b := by
  have hle : ceilDiv a b * b ≤ a + b - 1 := Nat.div_mul_le_self _ b
  omega

theorem ceilDiv_zero_left {b : Nat} (hb : 0 < b) : ceilDiv 0 b = 0 := Nat.div_eq_of_lt (by omega)

/-- Eight sized step prices lie within one of them of the scaled price, four added for the rounding. -/
theorem sizedPrice_bounds (tf : Tariff) (mult : Nat) :
    8 * sizedPrice tf mult ≤ tf.price * mult + 4 ∧ tf.price * mult + 4 < 8 * sizedPrice tf mult + 8 := by
  unfold sizedPrice
  omega

/-! ## The storage charge -/

/-- The empty remainder needs no case of its own: it has no begun step. -/
theorem remainderCharge_eq {tf : Tariff} (hstep : 0 < tf.step) (mult rem : Nat) :
    remainderCharge tf mult rem = min tf.capDay (ceilDiv rem tf.step * sizedPrice tf mult) := by
  rcases Nat.eq_zero_or_pos rem with rfl | hrem
  · simp [remainderCharge, ceilDiv_zero_left hstep]
  · simp [remainderCharge, hrem.ne']

theorem storageFor_zero (tf : Tariff) (mult : Nat) : storageFor tf mult 0 = 0 := rfl

theorem storageFor_pos {tf : Tariff} {b : Nat} (mult : Nat) (hb : 0 < b) :
    storageFor tf mult b
      = min tf.capMax (b / dayMinutes * dayCharge tf mult + remainderCharge tf mult (b % dayMinutes)) :=
  if_neg hb.ne'

theorem storageFor_le_capMax (tf : Tariff) (mult b : Nat) : storageFor tf mult b ≤ tf.capMax := by
  rcases Nat.eq_zero_or_pos b with rfl | hb
  · exact Nat.zero_le _
  · exact (storageFor_pos mult hb).trans_le (min_le_left _ _)

theorem billable_eq (tf : Tariff) (p : Parcel) (charge : Nat) : billable tf p charge = charge - (p.deposit + tf.free) :=
  Nat.sub_sub _ _ _

theorem storageAt_eq (m : ConfigFields) (size : Nat) (p : Parcel) (charge : Nat) :
    storageAt m size p charge
      = storageFor (tariffOf m p) (multiplierOf m size) (charge - (p.deposit + (tariffOf m p).free)) := by
  rw [← billable_eq]
  rfl

theorem storageAt_le_capMax (m : ConfigFields) (size : Nat) (p : Parcel) (charge : Nat) :
    storageAt m size p charge ≤ (tariffOf m p).capMax := storageFor_le_capMax _ _ _

theorem storageAt_of_free {m : ConfigFields} {p : Parcel} {charge : Nat} (size : Nat)
    (hfree : charge ≤ p.deposit + (tariffOf m p).free) : storageAt m size p charge = 0 := by
  rw [storageAt_eq, Nat.sub_eq_zero_of_le hfree, storageFor_zero]

/-- After the free time the charge is that of the whole days and of the begun steps of the remainder. -/
theorem storageAt_of_billable {m : ConfigFields} {p : Parcel} {charge : Nat} (size : Nat)
    (hstep : 0 < (tariffOf m p).step) (hbillable : p.deposit + (tariffOf m p).free < charge) :
    storageAt m size p charge
      = min (tariffOf m p).capMax
          ((charge - (p.deposit + (tariffOf m p).free)) / dayMinutes * dayCharge (tariffOf m p) (multiplierOf m size)
            + min (tariffOf m p).capDay
                (ceilDiv ((charge - (p.deposit + (tariffOf m p).free)) % dayMinutes) (tariffOf m p).step
                  * sizedPrice (tariffOf m p) (multiplierOf m size))) := by
  rw [storageAt_eq, storageFor_pos _ (Nat.sub_pos_of_lt hbillable), remainderCharge_eq hstep]

/-! ## The charge minute -/

theorem chargeMinute_of_settled {m : ConfigFields} {p : Parcel} {z h : Nat} (t : Nat) (hsettled : p.settled = some z)
    (hlimit : p.limit = some h) : chargeMinute m p t = min (if t < z + m.grace then z else t) (p.deposit + h) := by
  simp [chargeMinute, Parcel.capAtLimit, graceInForce, hsettled, hlimit]

theorem chargeMinute_of_unsettled {m : ConfigFields} {p : Parcel} {h : Nat} (t : Nat) (hsettled : p.settled = none)
    (hlimit : p.limit = some h) : chargeMinute m p t = min t (p.deposit + h) := by
  simp [chargeMinute, Parcel.capAtLimit, graceInForce, hsettled, hlimit]

/-! ## The amount due -/

/-- Subtraction of natural numbers stops at 0, which is the greater of 0 and the integer difference (R124). -/
theorem dueAt_eq_max (m : ConfigFields) (size : Nat) (p : Parcel) (charge : Nat) :
    (dueAt m size p charge : Int) = max 0 ((storageAt m size p charge : Int) + (p.cod : Int) - (p.paid : Int)) := by
  unfold dueAt
  omega

theorem dueAt_le (m : ConfigFields) (size : Nat) (p : Parcel) (charge : Nat) :
    dueAt m size p charge ≤ (tariffOf m p).capMax + p.cod :=
  (Nat.sub_le _ _).trans (Nat.add_le_add_right (storageAt_le_capMax m size p charge) p.cod)

/-- Settles O33: quotient and remainder by a day, and the begun steps of a day and of the remainder, are the numbers it asks
for. -/
theorem storageChargeAndAmountDue : Obligations.StorageChargeAndAmountDue := by
  intro m size p charge minute hstep
  obtain ⟨hprice_le, hprice_lt⟩ := sizedPrice_bounds (tariffOf m p) (multiplierOf m size)
  refine ⟨storageAt_of_free size, fun hbillable => ?days, storageAt_le_capMax m size p charge,
    dueAt_eq_max m size p (chargeMinute m p minute), fun _ _ => chargeMinute_of_settled minute,
    fun _ => chargeMinute_of_unsettled minute, fun hmax hcod => ?due⟩
  case days =>
    exact ⟨_, _, _, _, _, (Nat.div_add_mod _ dayMinutes).symm, Nat.mod_lt _ (by decide), hprice_le, hprice_lt,
      le_ceilDiv_mul hstep, ceilDiv_mul_lt hstep, le_ceilDiv_mul hstep, ceilDiv_mul_lt hstep,
      storageAt_of_billable size hstep hbillable⟩
  case due =>
    have hdue : amountDue m size p minute ≤ (tariffOf m p).capMax + p.cod := dueAt_le m size p _
    omega

end Sys2Proof.Machine
end

