-- ==== Sys2Proof/Proofs/FrameRules.lean ====
section
/- One theorem after another: side by side, their proofs ask for more threads than the check's memory limit allows. -/
set_option Elab.async false

/-! SUPPORT. The rules of `UnchangedBut`: joining two frames, and what each reading of the state becomes across a frame that
leaves its part alone. -/

namespace Sys2Proof.Machine

/-! ## Joining frames -/

/-- One frame after another, within a list of parts that names those of both. -/
theorem UnchangedBut.seq {ps qs rs : List Part} {s t u : State} (h : UnchangedBut ps s t) (k : UnchangedBut qs t u)
    (hp : ∀ p ∈ ps, p ∈ rs := by decide) (hq : ∀ p ∈ qs, p ∈ rs := by decide) : UnchangedBut rs s u :=
  (h.mono hp).trans (k.mono hq)

/-- A frame read with more parts. -/
theorem UnchangedBut.wide {ps rs : List Part} {s t : State} (h : UnchangedBut ps s t)
    (hp : ∀ p ∈ ps, p ∈ rs := by decide) : UnchangedBut rs s t := h.mono hp

/-- A frame of each step of a fold is one of the fold. -/
theorem UnchangedBut.foldl {α : Type} {ps : List Part} {f : State → α → State} (h : ∀ s x, UnchangedBut ps s (f s x))
    (xs : List α) (s : State) : UnchangedBut ps s (xs.foldl f s) := by
  induction xs generalizing s with
  | nil => exact .refl ps s
  | cons x xs ih => exact (h s x).trans (ih _)

/-- The frame of one part that stands. -/
theorem UnchangedBut.part {ps : List Part} {s t : State} (h : UnchangedBut ps s t) (p : Part) (hp : p ∉ ps := by decide) :
    p.same s t := h p hp

/-- Two parts' frames meet in the parts both name. -/
theorem UnchangedBut.inter {ps qs rs : List Part} {s t : State} (h : UnchangedBut ps s t) (k : UnchangedBut qs s t)
    (hr : ∀ p ∈ ps, p ∈ qs → p ∈ rs := by decide) : UnchangedBut rs s t := fun p hp => by
  by_cases hps : p ∈ ps
  · exact k p (fun hq => hp (hr p hps hq))
  · exact h p hps

/-! ## Readings across a frame -/

theorem Rpt.eq_of_fields {a b : Rpt} (hconds : a.conds = b.conds) (hlast : a.lastFault = b.lastFault)
    (hattention : a.attention = b.attention) (hcounters : a.counters = b.counters) : a = b := by
  cases a
  cases b
  simp_all

section Readings

variable {ps : List Part} {s t : State}

theorem UnchangedBut.conf (h : UnchangedBut ps s t) (hp : Part.config ∉ ps := by decide) : t.conf = s.conf :=
  congrArg Cfg.mem (h _ hp)

theorem UnchangedBut.station (h : UnchangedBut ps s t) (hp : Part.config ∉ ps := by decide) : t.station = s.station := by
  unfold State.station
  rw [h.conf hp]

theorem UnchangedBut.size (h : UnchangedBut ps s t) (i : Slot) (hp : Part.config ∉ ps := by decide) : t.size i = s.size i := by
  unfold State.size
  rw [h.conf hp]

theorem UnchangedBut.fitted (h : UnchangedBut ps s t) (i : Slot) (hp : Part.config ∉ ps := by decide) :
    t.fitted i = s.fitted i := by
  unfold State.fitted
  rw [h.size i hp]

theorem UnchangedBut.loaded (h : UnchangedBut ps s t) (hp : Part.phase ∉ ps := by decide) : t.loaded = s.loaded := by
  have hphase : t.phase = s.phase := h _ hp
  unfold State.loaded
  rw [hphase]

theorem UnchangedBut.rec? (h : UnchangedBut ps s t) (i : Slot) (hp : Part.records ∉ ps := by decide) : t.rec? i = s.rec? i :=
  congrArg (fun x => tget x i) (h _ hp)

theorem UnchangedBut.parcel? (h : UnchangedBut ps s t) (i : Slot) (hp : Part.records ∉ ps := by decide) :
    t.parcel? i = s.parcel? i := by
  unfold State.parcel?
  rw [h.rec? i hp]

theorem UnchangedBut.parcelRef (h : UnchangedBut ps s t) (i : Slot) (hp : Part.records ∉ ps := by decide) :
    t.parcelRef i = s.parcelRef i := by
  unfold State.parcelRef
  rw [h.parcel? i hp]

theorem UnchangedBut.carrierOf (h : UnchangedBut ps s t) (i : Slot) (hp : Part.records ∉ ps := by decide) :
    t.carrierOf i = s.carrierOf i := by
  unfold State.carrierOf
  rw [h.parcel? i hp]

theorem UnchangedBut.carrierAt (h : UnchangedBut ps s t) (n : Nat) (hp : Part.records ∉ ps := by decide) :
    t.carrierAt n = s.carrierAt n := by
  unfold State.carrierAt
  split
  · exact h.carrierOf _ hp
  · rfl

theorem UnchangedBut.storeFaulted (h : UnchangedBut ps s t) (i : Slot) (hp : Part.records ∉ ps := by decide) :
    t.storeFaulted i = s.storeFaulted i := by
  unfold State.storeFaulted
  rw [h.rec? i hp]

theorem UnchangedBut.storeOf (h : UnchangedBut ps s t) (i : Slot) (hp : Part.store ∉ ps := by decide) : t.store i = s.store i :=
  congrArg (fun x => tget x i) (h _ hp)

theorem UnchangedBut.locksOf (h : UnchangedBut ps s t) (i : Slot) (hp : Part.locks ∉ ps := by decide) : t.locks i = s.locks i :=
  congrArg (fun x => tget x i) (h _ hp)

theorem UnchangedBut.sense (h : UnchangedBut ps s t) (i : Slot) (hp : Part.sensing ∉ ps := by decide) : t.sense i = s.sense i :=
  congrArg (fun x => tget x i) (h _ hp)

theorem UnchangedBut.pin (h : UnchangedBut ps s t) (i : Slot) (hp : Part.pins ∉ ps := by decide) :
    tget t.pins i = tget s.pins i := congrArg (fun x => tget x i) (h _ hp)

theorem UnchangedBut.dsq (h : UnchangedBut ps s t) (hp : Part.doors ∉ ps := by decide) : t.dsq = s.dsq := h _ hp

theorem UnchangedBut.cycle? (h : UnchangedBut ps s t) (i : Slot) (hp : Part.doors ∉ ps := by decide) :
    t.cycle? i = s.cycle? i := by
  unfold State.cycle?
  rw [h.dsq hp]

theorem UnchangedBut.inCycle (h : UnchangedBut ps s t) (i : Slot) (hp : Part.doors ∉ ps := by decide) :
    t.inCycle i = s.inCycle i := by
  unfold State.inCycle
  rw [h.cycle? i hp]

theorem UnchangedBut.inDoorQueue (h : UnchangedBut ps s t) (i : Slot) (hp : Part.doors ∉ ps := by decide) :
    t.inDoorQueue i = s.inDoorQueue i := by
  unfold State.inDoorQueue
  rw [h.dsq hp]

theorem UnchangedBut.hasDoorCycle (h : UnchangedBut ps s t) (i : Slot) (hp : Part.doors ∉ ps := by decide) :
    t.hasDoorCycle i = s.hasDoorCycle i := by
  unfold State.hasDoorCycle
  rw [h.inCycle i hp, h.inDoorQueue i hp]

theorem UnchangedBut.windowOpen (h : UnchangedBut ps s t) (i : Slot) (hp : Part.doors ∉ ps := by decide) :
    t.windowOpen i = s.windowOpen i := by
  unfold State.windowOpen
  rw [h.cycle? i hp]

theorem UnchangedBut.ort (h : UnchangedBut ps s t) (hp : Part.requests ∉ ps := by decide) : t.ort = s.ort := h _ hp

theorem UnchangedBut.entry? (h : UnchangedBut ps s t) (j : Job) (hp : Part.requests ∉ ps := by decide) :
    t.entry? j = s.entry? j := by
  unfold State.entry?
  rw [h.ort hp]

theorem UnchangedBut.holder? (h : UnchangedBut ps s t) (i : Slot) (hp : Part.requests ∉ ps := by decide) :
    t.holder? i = s.holder? i := by
  unfold State.holder?
  rw [h.ort hp]

theorem UnchangedBut.awaited (h : UnchangedBut ps s t) (i : Slot) (hp : Part.requests ∉ ps := by decide) :
    t.awaited i = s.awaited i := by
  unfold State.awaited
  rw [h.ort hp]

theorem UnchangedBut.clk (h : UnchangedBut ps s t) (hp : Part.clock ∉ ps := by decide) : t.clk = s.clk := h _ hp

theorem UnchangedBut.treatedExpired (h : UnchangedBut ps s t) (p : Parcel) (m : Nat) (hp : Part.clock ∉ ps := by decide) :
    t.treatedExpired p m = s.treatedExpired p m := by
  unfold State.treatedExpired
  rw [h.clk hp]

theorem UnchangedBut.quoteCounter (h : UnchangedBut ps s t) (hp : Part.quotes ∉ ps := by decide) :
    t.quoteCounter = s.quoteCounter := h _ hp

theorem UnchangedBut.out (h : UnchangedBut ps s t) (hp : Part.outputs ∉ ps := by decide) : t.out = s.out := h _ hp

theorem UnchangedBut.own (h : UnchangedBut ps s t) (hp : Part.note ∉ ps := by decide) : t.bgu.own = s.bgu.own := h _ hp

theorem UnchangedBut.pulses (h : UnchangedBut ps s t) (hp : Part.pulses ∉ ps := by decide) : t.bgu.pulses = s.bgu.pulses := h _ hp

theorem UnchangedBut.drivers (h : UnchangedBut ps s t) (hp : Part.drivers ∉ ps := by decide) :
    t.bgu.drivers = s.bgu.drivers := h _ hp

theorem UnchangedBut.level (h : UnchangedBut ps s t) (hp : Part.level ∉ ps := by decide) : t.bgu.level = s.bgu.level := by
  obtain ⟨hlevel, -⟩ : Part.level.same s t := h _ hp
  exact hlevel

theorem UnchangedBut.budget (h : UnchangedBut ps s t) (hc : Part.config ∉ ps := by decide) (hp : Part.level ∉ ps := by decide) :
    t.budget = s.budget := by
  unfold State.budget
  rw [h.level hp, h.conf hc]

theorem UnchangedBut.conds (h : UnchangedBut ps s t) (hp : Part.conditions ∉ ps := by decide) : t.rpt.conds = s.rpt.conds := by
  obtain ⟨hconds, -⟩ : Part.conditions.same s t := h _ hp
  exact hconds

theorem UnchangedBut.isSet (h : UnchangedBut ps s t) (c : Condition) (hp : Part.conditions ∉ ps := by decide) :
    t.rpt.isSet c = s.rpt.isSet c := by
  unfold Rpt.isSet
  rw [h.conds hp]

theorem UnchangedBut.lastFault (h : UnchangedBut ps s t) (hp : Part.conditions ∉ ps := by decide) :
    t.rpt.lastFault = s.rpt.lastFault := by
  obtain ⟨-, hlast, -⟩ : Part.conditions.same s t := h _ hp
  exact hlast

theorem UnchangedBut.attention (h : UnchangedBut ps s t) (hp : Part.conditions ∉ ps := by decide) :
    t.rpt.attention = s.rpt.attention := by
  obtain ⟨-, -, hattention⟩ : Part.conditions.same s t := h _ hp
  exact hattention

theorem UnchangedBut.counters (h : UnchangedBut ps s t) (hp : Part.counters ∉ ps := by decide) :
    t.rpt.counters = s.rpt.counters := h _ hp

theorem UnchangedBut.tx (h : UnchangedBut ps s t) (hp : Part.transmit ∉ ps := by decide) : t.liu.tx = s.liu.tx := h _ hp

theorem UnchangedBut.rx (h : UnchangedBut ps s t) (hp : Part.receive ∉ ps := by decide) : t.liu.rx = s.liu.rx := h _ hp

theorem UnchangedBut.transmitting (h : UnchangedBut ps s t) (hp : Part.transmit ∉ ps := by decide) :
    t.transmitting = s.transmitting := by
  unfold State.transmitting
  rw [h.tx hp]

theorem UnchangedBut.sending? (h : UnchangedBut ps s t) (hp : Part.transmit ∉ ps := by decide) :
    t.sending? = s.sending? := by
  unfold State.sending?
  rw [h.tx hp]

theorem UnchangedBut.lineState (h : UnchangedBut ps s t) (hp : Part.line ∉ ps := by decide) : t.liu.line = s.liu.line := by
  obtain ⟨hline, -⟩ : Part.line.same s t := h _ hp
  exact hline

theorem UnchangedBut.handover (h : UnchangedBut ps s t) (hp : Part.line ∉ ps := by decide) :
    t.liu.handover = s.liu.handover := by
  obtain ⟨-, -, -, hhandover, -⟩ : Part.line.same s t := h _ hp
  exact hhandover

theorem UnchangedBut.noteBusy (h : UnchangedBut ps s t) (ht : Part.transmit ∉ ps := by decide)
    (hp : Part.line ∉ ps := by decide) : t.noteBusy = s.noteBusy := by
  unfold State.noteBusy
  rw [h.tx ht, h.handover hp]

theorem UnchangedBut.free (h : UnchangedBut ps s t) (hp : Part.free ∉ ps := by decide) : t.free = s.free := h _ hp

/-- The report block stands where conditions and counters do. -/
theorem UnchangedBut.bgu (h : UnchangedBut ps s t) (hl : Part.level ∉ ps := by decide) (hp : Part.pulses ∉ ps := by decide)
    (hn : Part.note ∉ ps := by decide) (hd : Part.drivers ∉ ps := by decide) : t.bgu = s.bgu := by
  obtain ⟨hlevel, hbasis, hage⟩ : Part.level.same s t := h _ hl
  have hpulses : t.bgu.pulses = s.bgu.pulses := h _ hp
  have hown : t.bgu.own = s.bgu.own := h _ hn
  have hdrivers : t.bgu.drivers = s.bgu.drivers := h _ hd
  cases hs : s.bgu
  cases ht : t.bgu
  simp_all

theorem UnchangedBut.liu (h : UnchangedBut ps s t) (hl : Part.line ∉ ps := by decide) (hd : Part.drive ∉ ps := by decide)
    (he : Part.errors ∉ ps := by decide) (hx : Part.transmit ∉ ps := by decide) (hr : Part.receive ∉ ps := by decide) :
    t.liu = s.liu := by
  obtain ⟨hline, htimer, hdrops, hhandover, hbits⟩ : Part.line.same s t := h _ hl
  obtain ⟨hcheck, hfail, hdrop, hrole⟩ : Part.errors.same s t := h _ he
  have hdrive : t.liu.drive = s.liu.drive := h _ hd
  have htx : t.liu.tx = s.liu.tx := h _ hx
  have hrx : t.liu.rx = s.liu.rx := h _ hr
  cases hs : s.liu
  cases ht : t.liu
  simp_all

theorem UnchangedBut.rpt (h : UnchangedBut ps s t) (hp : Part.conditions ∉ ps := by decide)
    (hq : Part.counters ∉ ps := by decide) : t.rpt = s.rpt := by
  have hconds := h.conds hp
  have hlast := h.lastFault hp
  have hattention := h.attention hp
  have hcounters := h.counters hq
  exact Rpt.eq_of_fields hconds hlast hattention hcounters

end Readings

end Sys2Proof.Machine
end

