-- ==== Sys2Proof/Proofs/OpFrames.lean ====
section
/- One theorem after another: side by side, their proofs ask for more threads than the check's memory limit allows. -/
set_option Elab.async false

/-! SUPPORT. The frame of each shared operation: the parts of the state it may change, in the order of the model's files. -/

namespace Sys2Proof.Machine

/-! ## Updates of one block -/

theorem frame_setPending (s : State) (x : List Instr) : UnchangedBut [.pending] s (s.setPending x) := by
  intro p hp; cases p <;> simp_all [Part.same]

theorem frame_setPhase (s : State) (x : Phase) : UnchangedBut [.phase] s (s.setPhase x) := by
  intro p hp; cases p <;> simp_all [Part.same]

theorem frame_setCfg (s : State) (x : Cfg) : UnchangedBut [.config] s (s.setCfg x) := by
  intro p hp; cases p <;> simp_all [Part.same]

theorem frame_setPins (s : State) (x : Table Pins) : UnchangedBut [.pins] s (s.setPins x) := by
  intro p hp; cases p <;> simp_all [Part.same]

theorem frame_setPin (s : State) (slot : Slot) (f : Pins → Pins) : UnchangedBut [.pins] s (s.setPin slot f) := frame_setPins s _

theorem frame_setClk (s : State) (x : Clk) : UnchangedBut [.clock] s (s.setClk x) := by
  intro p hp; cases p <;> simp_all [Part.same]

theorem frame_setRestart (s : State) (x : Bool) : UnchangedBut [.restart] s (s.setRestart x) := by
  intro p hp; cases p <;> simp_all [Part.same]

theorem frame_setHeldCauses (s : State) (x : Causes) : UnchangedBut [.held] s (s.setHeldCauses x) := by
  intro p hp; cases p <;> simp_all [Part.same]

theorem frame_setBgu (s : State) (x : Bgu) : UnchangedBut [.level, .pulses, .note, .drivers] s (s.setBgu x) := by
  intro p hp; cases p <;> simp_all [Part.same]

theorem frame_setCts (s : State) (x : Cts) :
    UnchangedBut [.records, .store, .locks, .minutes, .causes, .mark] s (s.setCts x) := by
  intro p hp; cases p <;> simp_all [Part.same]

theorem frame_setLiu (s : State) (x : Liu) :
    UnchangedBut [.line, .drive, .errors, .transmit, .receive] s (s.setLiu x) := by
  intro p hp; cases p <;> simp_all [Part.same]

theorem frame_setSense (s : State) (slot : Slot) (x : Sense) : UnchangedBut [.sensing] s (s.setSense slot x) := frame_setSen s _

/-! ## Conditions, counters and the transmit queue -/

theorem frame_alertIfRisen (s : State) (before : Bool) :
    UnchangedBut [.conditions, .transmit] s (s.alertIfRisen before) := by
  unfold State.alertIfRisen
  dsimp only
  split
  · split
    · exact (frame_setTx s _).seq (frame_mark _ _ _)
    · exact (frame_setTx s _).wide
  · exact .refl _ s

theorem frame_raise (s : State) (c : Condition) (slot : Option Slot) :
    UnchangedBut [.conditions, .transmit] s (s.raise c slot) := (frame_mark s c slot).seq (frame_alertIfRisen _ _)

theorem frame_queueFrame (s : State) (f : TxFrame) : UnchangedBut [.conditions, .transmit] s (s.queueFrame f) := by
  unfold State.queueFrame
  dsimp only
  split
  · exact (frame_setTx s _).seq (frame_raise _ _ _)
  · exact (frame_setTx s _).wide

theorem frame_answer (s : State) (d : BitVec 6) (b : Body) : UnchangedBut [.conditions, .transmit] s (s.answer d b) :=
  frame_queueFrame s _

theorem frame_refusalEvent (s : State) (r : Reason) (c : Nat) : UnchangedBut [.counters] s (s.refusalEvent r c) :=
  frame_count s _ _ _

theorem frame_refuse (s : State) (d : BitVec 6) (n : Option (BitVec 16)) (slot : Option Nat) (r : Reason) (c : Nat) :
    UnchangedBut [.conditions, .counters, .transmit] s (s.refuse d n slot r c) :=
  (frame_answer s d _).seq (frame_refusalEvent _ r c)

theorem frame_refuseSlot (s : State) (t : Ticket) (slot : Slot) (r : Reason) :
    UnchangedBut [.conditions, .counters, .transmit] s (s.refuseSlot t slot r) := frame_refuse s _ _ _ _ _

/-! ## A change of a record and its write -/

theorem frame_beginWrite (s : State) (slot : Slot) (ws : List Waiter) (c : WriteCause) :
    UnchangedBut [.store, .free] s (s.beginWrite slot ws c) := by
  unfold State.beginWrite
  split
  · exact .refl _ s
  · exact (frame_setStore s slot _).seq (frame_setFree _ _)

theorem frame_scheduleWrite (s : State) (slot : Slot) : UnchangedBut [.store, .free] s (s.scheduleWrite slot) := by
  unfold State.scheduleWrite
  dsimp only
  split
  · exact frame_beginWrite s _ _ _
  · exact (frame_setStore s _ _).wide

theorem frame_attach {s s' : State} {slot : Slot} {w : Waiter} (h : s.attach slot w = some s') : UnchangedBut [.store] s s' := by
  unfold State.attach at h
  dsimp only at h
  split at h
  · cases h; exact frame_setStore s _ _
  · cases h; exact frame_setStore s _ _
  · cases h

theorem frame_enterEvent (s : State) (c d : CompState) (n : Nat) : UnchangedBut [.counters] s (s.enterEvent c d n) := by
  unfold State.enterEvent
  split
  · exact frame_count s _ _ _
  · exact .refl _ s

theorem frame_raiseCause (s : State) (c d : CompState) (slot : Slot) :
    UnchangedBut [.conditions, .transmit] s (s.raiseCause c d slot) := by
  unfold State.raiseCause
  split
  · split
    · exact .refl _ s
    · exact frame_raise s _ _
  · exact .refl _ s

theorem State.raiseCause_of_none {s : State} {c d : CompState} {slot : Slot} (h : d.cause? = none) :
    s.raiseCause c d slot = s := by
  unfold State.raiseCause
  rw [h]

theorem frame_change (s : State) (slot : Slot) (new : CompRec) (call : Nat) :
    UnchangedBut [.records, .store, .conditions, .counters, .transmit, .free] s (s.change slot new call) := by
  unfold State.change
  split
  · exact .refl _ s
  · split
    · exact .refl _ s
    · exact ((((frame_setRec s slot new).seq (frame_enterEvent _ _ _ _)
        (rs := [.records, .counters])).seq (frame_raiseCause _ _ _ _)
        (rs := [.records, .counters, .conditions, .transmit]))).seq (frame_scheduleWrite _ _)

/-- A change into a state without a fault cause raises nothing. -/
theorem frame_change_causeless (s : State) (slot : Slot) {new : CompRec} (call : Nat) (h : new.state.cause? = none) :
    UnchangedBut [.records, .store, .counters, .free] s (s.change slot new call) := by
  unfold State.change
  split
  · exact .refl _ s
  · split
    · exact .refl _ s
    · rw [State.raiseCause_of_none h]
      exact ((frame_setRec s slot new).seq (frame_enterEvent _ _ _ _) (rs := [.records, .counters])).seq
        (frame_scheduleWrite _ _)

theorem frame_emptyChecked (s : State) (slot : Slot) :
    UnchangedBut [.records, .store, .conditions, .counters, .transmit, .free] s (s.emptyChecked slot) := by
  unfold State.emptyChecked
  dsimp only
  split
  · exact (frame_change s slot _ 0).seq (frame_raise _ _ _)
  · exact frame_change s slot _ 0

theorem frame_changeTested (s : State) (slot : Slot) (new : CompRec) :
    UnchangedBut [.records, .store, .conditions, .counters, .transmit, .free] s (s.changeTested slot new) := by
  unfold State.changeTested
  split
  · exact .refl _ s
  · split
    · exact (frame_change s slot _ 0).seq (frame_raise _ _ _)
    · exact frame_change s slot _ 0

theorem frame_forceTable (s : State) (slot : Slot) :
    UnchangedBut [.records, .store, .conditions, .counters, .transmit, .free] s (s.forceTable slot) := by
  unfold State.forceTable
  split
  · exact .refl _ s
  · exact frame_change s slot _ 0

theorem frame_expire (s : State) (slot : Slot) : UnchangedBut [.records, .store, .counters, .free] s (s.expire slot) := by
  unfold State.expire
  split
  · exact .refl _ s
  · split
    · split
      · exact frame_change_causeless s slot 0 rfl
      · exact .refl _ s
    · exact .refl _ s

theorem frame_writeCauses (s : State) (c : Causes) : UnchangedBut [.causes] s (s.writeCauses c) := by
  intro p hp; cases p <;> simp_all [Part.same, State.writeCauses]

/-! ## Entries and the answers that wait -/

theorem frame_addEntry (s : State) (e : Entry) : UnchangedBut [.requests] s (s.addEntry e) := frame_setOrt s _

theorem frame_updEntry (s : State) (j : Job) (f : Entry → Entry) : UnchangedBut [.requests] s (s.updEntry j f) := frame_setOrt s _

theorem frame_dropEntry (s : State) (j : Job) : UnchangedBut [.requests] s (s.dropEntry j) := frame_setOrt s _

theorem frame_setProgress (s : State) (j : Job) (slot : Slot) (p : Progress) :
    UnchangedBut [.requests] s (s.setProgress j slot p) := frame_updEntry s _ _

theorem frame_keepQuote (s : State) (j : Job) (slot : Slot) (q : Quote) : UnchangedBut [.requests] s (s.keepQuote j slot q) :=
  frame_updEntry s _ _

theorem frame_issueQuote (s : State) (j : Job) (slot : Slot) (p : Parcel) (m : Nat) :
    UnchangedBut [.requests, .quotes] s (s.issueQuote j slot p m) :=
  (frame_keepQuote s j slot _).seq (frame_setQuoteCounter _ _)

/-- The parts that a deferred expiry may change. -/
abbrev expiryParts : List Part := [.records, .store, .counters, .free]

theorem frame_deferredExpiry (s : State) (slot : Slot) : UnchangedBut expiryParts s (s.deferredExpiry slot) := by
  unfold State.deferredExpiry
  split
  · exact .refl _ s
  · split
    · exact frame_expire s slot
    · exact .refl _ s

theorem frame_finishEntry (s : State) (j : Job) : UnchangedBut (.requests :: expiryParts) s (s.finishEntry j) := by
  unfold State.finishEntry
  split
  · exact .refl _ s
  · exact (frame_dropEntry s j).seq (UnchangedBut.foldl (fun s x => frame_deferredExpiry s x) _ _)

theorem frame_releaseSlot (s : State) (j : Job) (slot : Slot) :
    UnchangedBut (.requests :: expiryParts) s (s.releaseSlot j slot) := by
  unfold State.releaseSlot
  dsimp only
  split
  · exact (frame_updEntry s j _).seq (frame_deferredExpiry _ _)
  · exact (frame_updEntry s j _).wide

theorem frame_removeSlot (s : State) (j : Job) (slot : Slot) :
    UnchangedBut (.requests :: expiryParts) s (s.removeSlot j slot) := by
  unfold State.removeSlot
  dsimp only
  split
  · exact (frame_updEntry s j _).seq (frame_deferredExpiry _ _)
  · exact (frame_updEntry s j _).wide

theorem frame_endIfDone (s : State) (j : Job) : UnchangedBut (.requests :: expiryParts) s (s.endIfDone j) := by
  unfold State.endIfDone
  split
  · exact .refl _ s
  · split
    · exact frame_finishEntry s j
    · split
      · exact (frame_updEntry s j _).wide
      · exact .refl _ s

theorem frame_slotDone (s : State) (j : Job) (slot : Slot) : UnchangedBut (.requests :: expiryParts) s (s.slotDone j slot) :=
  (frame_releaseSlot s j slot).trans (frame_endIfDone _ _)

/-- The parts that an answer, the end of its entry and what that releases may change. -/
abbrev answerParts : List Part := [.records, .store, .requests, .conditions, .counters, .transmit, .free]

theorem frame_placeDone (s : State) (t : Ticket) (slot : Slot) (r : DepositResult) :
    UnchangedBut answerParts s (s.placeDone t slot r) := (frame_answer s _ _).seq (frame_finishEntry _ _)

theorem frame_afterRelease (s : State) (j : Job) (slot : Slot) :
    UnchangedBut (.requests :: expiryParts) s (s.afterRelease j slot) := by
  unfold State.afterRelease
  split
  · exact frame_slotDone s j slot
  · exact frame_slotDone s j slot
  · exact frame_finishEntry s j
  · exact .refl _ s

theorem frame_releaseDone (s : State) (j : Job) (slot : Slot) (r : ReleaseResult) (ref : BitVec 64) :
    UnchangedBut answerParts s (s.releaseDone j slot r ref) := (frame_answer s _ _).seq (frame_afterRelease _ _ _)

theorem frame_serviceDone (s : State) (t : Ticket) (slot : Slot) (r : ReleaseResult) (ref : BitVec 64) :
    UnchangedBut answerParts s (s.serviceDone t slot r ref) := (frame_answer s _ _).seq (frame_finishEntry _ _)

theorem frame_paymentQuote (s : State) (t : Ticket) (slot : Slot) (x m : Nat) (p : Parcel) :
    UnchangedBut [.requests, .quotes, .conditions, .transmit] s (s.paymentQuote t slot x m p) :=
  (frame_issueQuote s _ _ _ _).seq (frame_answer _ _ _)

/-- The unit does not answer a payment, so it issues no quote. -/
def Waiter.quoteless : Waiter → Bool
  | .payment _ _ _ _ => false
  | _ => true

theorem frame_releaseAnswer (s : State) (slot : Slot) {w : Waiter} (h : w.quoteless = true) :
    UnchangedBut answerParts s (s.releaseAnswer slot w) := by
  cases w with
  | placeDone t r => exact frame_placeDone s t slot r
  | releaseDone j r ref => exact frame_releaseDone s j slot r ref
  | serviceDone t r ref => exact frame_serviceDone s t slot r ref
  | payment t x m p => cases h
  | endEntry j => exact (frame_finishEntry s j).wide
  | cycleStart => exact .refl _ s
  | detail t => exact .refl _ s

theorem frame_await (s : State) (slot : Slot) {w : Waiter} (h : w.quoteless = true) :
    UnchangedBut answerParts s (s.await slot w) := by
  unfold State.await
  split
  · rename_i hattach; exact (frame_attach hattach).wide
  · exact frame_releaseAnswer s slot h

/-- A unit that ends an entry without an answer queues nothing. -/
theorem frame_await_endEntry (s : State) (slot : Slot) (j : Job) :
    UnchangedBut (.requests :: expiryParts) s (s.await slot (.endEntry j)) := by
  unfold State.await
  split
  · rename_i hattach; exact (frame_attach hattach).wide
  · exact frame_finishEntry s j

theorem frame_closePlace (s : State) (t : Ticket) (slot : Slot) :
    UnchangedBut (.requests :: expiryParts) s (s.closePlace t slot) :=
  (frame_updEntry s _ _).seq (frame_await_endEntry _ _ _)

theorem frame_endPromise (s : State) (t : Ticket) (slot : Slot) : UnchangedBut answerParts s (s.endPromise t slot) := by
  unfold State.endPromise
  split
  · split
    · exact (frame_emptyChecked s slot).seq (frame_closePlace _ _ _)
    · exact (frame_finishEntry s _).wide
  · exact (frame_finishEntry s _).wide

theorem frame_withdrawOffer (s : State) (t : Ticket) : UnchangedBut [.transmit] s (s.withdrawOffer t) := frame_setTx s _

theorem frame_endOffer (s : State) (t : Ticket) : UnchangedBut answerParts s (s.endOffer t) := by
  unfold State.endOffer
  split
  · exact .refl _ s
  · split
    · split
      · exact frame_endPromise s _ _
      · exact .refl _ s
    · exact .refl _ s

/-! ## The Budget Unit -/

theorem frame_removeNote (s : State) : UnchangedBut [.transmit] s s.removeNote := frame_setTx s _

theorem frame_withdrawIfFull (s : State) : UnchangedBut [.note, .transmit] s s.withdrawIfFull := by
  unfold State.withdrawIfFull
  split
  · split
    · exact (frame_removeNote s).seq (frame_setOwn _ _)
    · exact .refl _ s
  · exact .refl _ s
  · exact .refl _ s

theorem frame_noteCycleEnded (s : State) (slot : Slot) : UnchangedBut [.note, .transmit] s (s.noteCycleEnded slot) := by
  unfold State.noteCycleEnded
  split
  · split
    · exact (frame_setOwn s _).wide
    · exact .refl _ s
  · split
    · split
      · exact (frame_setOwn s _).wide
      · exact (frame_removeNote s).seq (frame_setOwn _ _)
    · exact .refl _ s
  · exact .refl _ s

theorem frame_placeNote (s : State) (c : Cycle) : UnchangedBut [.note, .conditions, .transmit] s (s.placeNote c) := by
  unfold State.placeNote
  dsimp only
  split
  · exact ((frame_setTx s _).seq (frame_raise _ _ _) (rs := [.conditions, .transmit])).seq (frame_setOwn _ _)
  · exact (frame_setTx s _).seq (frame_setOwn _ _)

theorem frame_noteTest (s : State) : UnchangedBut [.note, .conditions, .transmit] s s.noteTest := by
  unfold State.noteTest
  split
  · exact .refl _ s
  · split
    · exact .refl _ s
    · split
      · exact frame_placeNote s _
      · exact .refl _ s

theorem frame_addPulse (s : State) (st : BitVec 6) (slot : BitVec 5) (d : Nat) :
    UnchangedBut [.pulses] s (s.addPulse st slot d) := by
  intro p hp; cases p <;> simp_all [Part.same, State.addPulse]

theorem frame_judgeOther (s : State) (st : BitVec 6) (n : NoteFields) :
    UnchangedBut [.pulses, .note, .transmit] s (s.judgeOther st n) := by
  unfold State.judgeOther
  split
  · exact (frame_addPulse s _ _ _).seq (frame_withdrawIfFull _)
  · exact .refl _ s

theorem frame_setDriver (s : State) (slot : Slot) (t : Option Nat) : UnchangedBut [.drivers] s (s.setDriver slot t) := by
  intro p hp; cases p <;> simp_all [Part.same, State.setDriver]

theorem frame_withdrawOffers (s : State) : UnchangedBut answerParts s s.withdrawOffers :=
  UnchangedBut.foldl (fun s t => (frame_withdrawOffer s t).seq (frame_endOffer _ _)) _ _

/-- A level set by itself. -/
theorem frame_setLevel (s : State) (level : Nat) : UnchangedBut [.level] s (s.setBgu { s.bgu with level := level }) := by
  intro p hp; cases p <;> simp_all [Part.same]

/-- Basis and age set. -/
theorem frame_setBasis (s : State) (b : Basis) (a : Option Nat) :
    UnchangedBut [.level] s (s.setBgu { s.bgu with basis := b, age := a }) := by
  intro p hp; cases p <;> simp_all [Part.same]

/-- The parts that a change of the bank level may change. -/
abbrev levelParts : List Part :=
  [.records, .store, .level, .note, .requests, .outputs, .conditions, .counters, .transmit, .free]

theorem frame_changeLevel (s : State) (level : Nat) : UnchangedBut levelParts s (s.changeLevel level) := by
  unfold State.changeLevel
  dsimp only
  have hset := (frame_setLevel s level).seq (frame_withdrawIfFull _) (rs := [.level, .note, .transmit])
  split
  · exact .refl _ s
  · split
    · exact (hset.seq (frame_withdrawOffers _) (rs := levelParts)).seq (frame_refreshOutputs _)
    · exact hset.seq (frame_refreshOutputs _)

theorem frame_takeLevel (s : State) (level : Nat) : UnchangedBut levelParts s (s.takeLevel level) :=
  (frame_changeLevel s level).seq (frame_setBasis _ _ _)

/-! ## Outcomes -/

theorem frame_depositOutcome (s : State) (x : Returned) (o : Outcome) : UnchangedBut answerParts s (s.depositOutcome x o) := by
  unfold State.depositOutcome
  split
  · exact .refl _ s
  · exact (frame_changeTested s _ _).seq (frame_await _ _ rfl)

theorem frame_removalOutcome (s : State) (x : Returned) (o : Outcome) : UnchangedBut answerParts s (s.removalOutcome x o) := by
  unfold State.removalOutcome
  split
  · exact .refl _ s
  · exact (frame_changeTested s _ _).seq (frame_await _ _ rfl)

theorem frame_serviceOutcome (s : State) (x : Returned) (o : Outcome) : UnchangedBut answerParts s (s.serviceOutcome x o) := by
  unfold State.serviceOutcome
  split
  · exact .refl _ s
  · dsimp only
    split
    · exact ((frame_changeTested s _ _).seq (frame_raise _ _ _) (rs := answerParts)).seq (frame_await _ _ rfl)
    · exact (frame_changeTested s _ _).seq (frame_await _ _ rfl)

theorem frame_refuseUnpaid (s : State) (t : Ticket) (slot : Slot) :
    UnchangedBut [.requests, .quotes, .conditions, .counters, .transmit] s (s.refuseUnpaid t slot) := by
  unfold State.refuseUnpaid
  dsimp only
  split
  · exact (frame_refuseSlot s _ _ _).wide
  · exact ((frame_refuseSlot s _ _ _).seq (frame_issueQuote _ _ _ _ _)
      (rs := [.requests, .quotes, .conditions, .counters, .transmit])).seq (frame_answer _ _ _)

theorem frame_refuse_slotDone (s : State) (t : Ticket) (j : Job) (slot : Slot) (r : Reason) :
    UnchangedBut answerParts s ((s.refuseSlot t slot r).slotDone j slot) :=
  (frame_refuseSlot s _ _ _).seq (frame_slotDone _ _ _)

theorem frame_answerStartCheck (s : State) (j : Job) (slot : Slot) (v : Judgment) :
    UnchangedBut (.quotes :: answerParts) s (s.answerStartCheck j slot v) := by
  unfold State.answerStartCheck
  split
  · exact (frame_refuse_slotDone s _ _ _ _).wide
  · exact ((frame_refuseUnpaid s _ _).seq (frame_setProgress _ _ _ _) (rs := .quotes :: answerParts)).seq
      (frame_updEntry _ _ _)
  · exact (frame_refuse_slotDone s _ _ _ _).wide
  · exact (frame_refuse_slotDone s _ _ _ _).wide
  · exact (frame_refuse_slotDone s _ _ _ _).wide
  · exact (frame_refuse_slotDone s _ _ _ _).wide
  · exact .refl _ s

/-- An outcome that maps a record, no start check having failed. -/
theorem frame_returnOutcome_mapped (s : State) {x : Returned} (o : Outcome) (h : x.failedCheck = none) :
    UnchangedBut answerParts s (s.returnOutcome x o) := by
  unfold State.returnOutcome
  dsimp only
  rw [h]
  dsimp only
  split
  · exact (frame_count s _ _ _).seq (frame_depositOutcome _ _ _)
  · exact (frame_count s _ _ _).seq (frame_removalOutcome _ _ _)
  · exact (frame_count s _ _ _).seq (frame_removalOutcome _ _ _)
  · exact (frame_count s _ _ _).seq (frame_serviceOutcome _ _ _)

theorem frame_returnOutcome (s : State) (x : Returned) (o : Outcome) :
    UnchangedBut (.quotes :: answerParts) s (s.returnOutcome x o) := by
  cases h : x.failedCheck with
  | none => exact (frame_returnOutcome_mapped s o h).wide
  | some v =>
    unfold State.returnOutcome
    dsimp only
    rw [h]
    exact (frame_count s _ _ _).seq (frame_answerStartCheck _ _ _ _)

/-! ## Door cycles -/

/-- The parts that freeing a cycle may change. -/
abbrev freeCycleParts : List Part := [.sensing, .doors, .note, .outputs, .transmit]

theorem frame_freeCycle (s : State) (slot : Slot) : UnchangedBut freeCycleParts s (s.freeCycle slot) := by
  unfold State.freeCycle
  dsimp only
  exact (((frame_setDsq s _).seq (frame_setLamp _ _ _) (rs := freeCycleParts)).seq (frame_noteCycleEnded _ _)
    (rs := freeCycleParts)).seq (frame_refreshIdle _ _)

theorem frame_endCycle_mapped (s : State) (c : Cycle) (o : Outcome) : UnchangedBut endParts s (s.endCycle c o none) :=
  (frame_freeCycle s _).seq (frame_returnOutcome_mapped _ o rfl)

theorem frame_endCycle (s : State) (c : Cycle) (o : Outcome) (v : Option Judgment) :
    UnchangedBut (.quotes :: endParts) s (s.endCycle c o v) := (frame_freeCycle s _).seq (frame_returnOutcome _ _ o)

theorem frame_setCycle (s : State) (c : Cycle) : UnchangedBut [.doors] s (s.setCycle c) := frame_setDsq s _

theorem frame_enterPulseWait (s : State) (c : Cycle) : UnchangedBut [.doors] s (s.enterPulseWait c) :=
  (frame_setCycle s _).trans (frame_setDsq _ _)

theorem frame_failAttempt (s : State) (c : Cycle) (f : AttemptFailure) : UnchangedBut endParts s (s.failAttempt c f) := by
  unfold State.failAttempt
  dsimp only
  split
  · exact frame_endCycle_mapped s _ _
  · exact (frame_enterPulseWait s _).wide

theorem frame_openCycle (s : State) (c : Cycle) : UnchangedBut [.sensing, .doors, .outputs] s (s.openCycle c) := by
  unfold State.openCycle
  dsimp only
  exact ((frame_setDsq s _).seq (frame_setLamp _ _ _) (rs := [.doors, .outputs])).seq (frame_refreshIdle _ _)

theorem frame_forceQueued (s : State) (r : DoorRequest) : UnchangedBut (.doors :: answerParts) s (s.forceQueued r) :=
  (frame_setDsq s _).seq (frame_returnOutcome_mapped _ _ rfl)

theorem frame_forceCycle (s : State) (c : Cycle) : UnchangedBut endParts s (s.forceCycle c) := by
  unfold State.forceCycle
  split
  · exact (frame_setCycle s _).seq (frame_setLamp _ _ _)
  · exact frame_endCycle_mapped s _ _
  · exact .refl _ s

theorem frame_forcedReport (s : State) (slot : Slot) : UnchangedBut endParts s (s.forcedReport slot) := by
  unfold State.forcedReport
  split
  · exact (frame_forceQueued s _).wide
  · split
    · exact frame_forceCycle s _
    · exact (frame_forceTable s slot).wide

theorem frame_pulseFired (s : State) (slot : Slot) : UnchangedBut [.locks] s (s.pulseFired slot) := frame_setLocks s _ _

theorem frame_enterDriving (s : State) (c : Cycle) : UnchangedBut [.doors] s (s.enterDriving c) :=
  (frame_setCycle s _).trans (frame_setDsq _ _)

theorem frame_driverOffStage (s : State) (c : Cycle) : UnchangedBut endParts s (s.driverOffStage c) := by
  unfold State.driverOffStage
  dsimp only
  split
  · exact (frame_setCycle s _).wide
  · split
    · exact (frame_setCycle s _).wide
    · split
      · exact (frame_setCycle s _).wide
      · exact frame_failAttempt s _ _

theorem frame_onCycle (s : State) (slot : Slot) (f : Cycle → Cycle) : UnchangedBut [.doors] s (s.onCycle slot f) := by
  unfold State.onCycle
  split
  · exact frame_setCycle s _
  · exact .refl _ s

theorem frame_releaseStart (s : State) (slot : Slot) : UnchangedBut endParts s (s.releaseStart slot) := by
  unfold State.releaseStart
  split
  · exact .refl _ s
  · split
    · exact .refl _ s
    · split
      · exact frame_endCycle_mapped s _ _
      · split
        · exact frame_endCycle_mapped s _ _
        · exact (frame_enterPulseWait s _).wide

/-! ## What the tests at a command's end may change -/

theorem Follows.settle (n : Nat) (s : State) : Follows s (s.settle n) := by
  induction n generalizing s with
  | zero => exact .refl s
  | succ n ih =>
    unfold State.settle
    split
    · rename_i h; exact (Follows.settleOne h).trans (ih _)
    · exact .refl s

/-- The tests at a command's end do the column's own work alone (R42, R69, R86). -/
theorem Follows.conclude (s : State) : Follows s s.conclude := (Follows.settle _ s).trans (.noteTest _)

theorem frame_settle (n : Nat) (s : State) : UnchangedBut workParts s (s.settle n) := (Follows.settle n s).frame

theorem frame_conclude (s : State) : UnchangedBut workParts s s.conclude := (Follows.conclude s).frame

theorem frame_startRequest (s : State) (r : DoorRequest) : UnchangedBut workParts s (s.startRequest r) := by
  unfold State.startRequest
  split
  · exact .refl _ s
  · dsimp only
    split
    · exact (frame_openCycle s _).seq (frame_endCycle _ _ _ _)
    · split
      · exact (frame_openCycle s _).seq (frame_enterPulseWait _ _)
      · split
        · rename_i h
          exact ((frame_openCycle s _).seq (frame_change _ _ _ _) (rs := workParts)).seq (frame_attach h)
        · exact (frame_openCycle s _).seq (frame_enterPulseWait _ _)

end Sys2Proof.Machine
end

