-- ==== Sys2Proof/Proofs/Bounds.lean ====
section
/- One theorem after another: side by side, their proofs ask for more threads than the check's memory limit allows. -/
set_option Elab.async false

/-! SUPPORT. The two invariants of a loaded column, and that every shared operation keeps them: the bounds of `Bounded` block by
block, and one entry per key with one holder per compartment. -/

namespace Sys2Proof.Machine

/-! ## The bounds, block by block -/

/-- Both copies of a slot's record carry their check words where they pass, and all its records lie in time. -/
structure SlotStore.Sound (slot : Slot) (x : SlotStore) : Prop where
  checks : ∀ isB, (x.copy isB).ok = true → (x.copy isB).check = recordCheck slot (x.copy isB).gen (x.copy isB).content
  copyA : x.a.content.inTime
  copyB : x.b.content.inTime
  writing : ∀ w, x.writing = some w → w.content.inTime

/-- A copy of a count carries its check word where it passes, and its value lies below a bound. -/
structure CountCopy.Sound (what : Config.Retained) (most : Nat) (c : CountCopy) : Prop where
  value : c.value ≤ most
  check : c.ok = true → c.check = checkWord what c.value

/-- The lock-cycle count of a slot and its copies. -/
structure Locks.Sound (x : Locks) : Prop where
  count : x.count ≤ 16777215
  copyA : x.a.Sound .lockCount 16777215
  copyB : x.b.Sound .lockCount 16777215
  writing : ∀ w, x.writing = some w → w.2 ≤ 16777215

/-- The retained minute: its copies and its writes in progress. -/
structure Cts.MinuteSound (x : Cts) : Prop where
  copyA : x.minuteA.Sound .minute 4294967295
  copyB : x.minuteB.Sound .minute 4294967295
  writes : ∀ w ∈ x.minuteWrites, w.value ≤ 4294967295

/-- The clock's counts. -/
structure Clk.Sound (c : Clk) : Prop where
  minute : c.minute ≤ 4294967295
  hold : c.hold ≤ 1440
  age : c.age ≤ 2880

/-- The line's queues and error counts. -/
structure Liu.Sound (l : Liu) : Prop where
  tx : l.tx.length ≤ 8
  rx : l.rx.length ≤ 6
  checkFaults : l.checkFaults ≤ 65535
  failures : l.failures ≤ 65535
  dropCount : l.dropCount ≤ 65535
  roleFailures : l.roleFailures ≤ 65535

/-- No slot is queued or in progress twice. -/
def Dsq.Apart (d : Dsq) : Prop := (d.queue.map DoorRequest.slot ++ d.cycles.map Cycle.slot).Nodup

/-- The bounds that hold whether or not a configuration is loaded. -/
structure LiveBounds (s : State) : Prop where
  liu : s.liu.Sound
  places : s.ort.length ≤ 8
  bolt : ∀ slot, (s.sense slot).bolt ≤ 15
  level : s.bgu.level ≤ 3
  pulses : s.bgu.pulses.length ≤ 8
  clk : s.clk.Sound
  locks : ∀ slot, (s.locks slot).Sound
  minutes : s.cts.MinuteSound
  records : ∀ slot r, s.rec? slot = some r → r.inTime
  stores : ∀ slot, (s.store slot).Sound slot
  span : s.dsq.cycles.length ≤ s.conf.span
  cycles : s.dsq.Apart
  config : s.conf.budget ≤ 8 ∧ s.conf.span ≤ 4
  causes : s.cts.causeStore.ok = true → s.cts.causeStore.check = checkWord .causes s.cts.causeStore.set
  mark : s.cts.markOk = true → s.cts.markCheck = checkWord .mark ()
  attention : s.rpt.attention = attentionOf s.rpt.conds s.conf.enables

theorem bounded_iff {s : State} : Bounded s ↔ LiveBounds s ∧ (s.loaded = false → QuietSinceReset s) := by
  constructor
  · intro h
    obtain ⟨hcheck, hfail, hdrop, hrole⟩ := h.errors
    obtain ⟨hminute, ⟨hmA, hmB⟩, hwrites, hrecords, hstores⟩ := h.minutes
    obtain ⟨crecords, clocks, ⟨cmA, cmB⟩, ccauses, cmark⟩ := h.checks
    refine ⟨⟨⟨h.transmit, h.receive, hcheck, hfail, hdrop, hrole⟩, h.places, h.bolt, h.level, h.pulses,
      ⟨hminute, h.hold, h.age⟩, fun slot => ?_, ⟨⟨hmA, cmA⟩, ⟨hmB, cmB⟩, hwrites⟩, hrecords, fun slot => ?_, h.span,
      h.cycles, h.config, ccauses, cmark, h.attention⟩, h.unloaded⟩
    · obtain ⟨hcount, hA, hB, hw⟩ := h.locks slot
      obtain ⟨cA, cB⟩ := clocks slot
      exact ⟨hcount, ⟨hA, cA⟩, ⟨hB, cB⟩, hw⟩
    · obtain ⟨hA, hB, hw⟩ := hstores slot
      exact ⟨crecords slot, hA, hB, hw⟩
  · rintro ⟨h, hquiet⟩
    exact
      { transmit := h.liu.tx
        receive := h.liu.rx
        places := h.places
        bolt := h.bolt
        level := h.level
        errors := ⟨h.liu.checkFaults, h.liu.failures, h.liu.dropCount, h.liu.roleFailures⟩
        hold := h.clk.hold
        age := h.clk.age
        locks := fun slot => ⟨(h.locks slot).count, (h.locks slot).copyA.value, (h.locks slot).copyB.value,
          (h.locks slot).writing⟩
        minutes := ⟨h.clk.minute, ⟨h.minutes.copyA.value, h.minutes.copyB.value⟩, h.minutes.writes, h.records,
          fun slot => ⟨(h.stores slot).copyA, (h.stores slot).copyB, (h.stores slot).writing⟩⟩
        pulses := h.pulses
        span := h.span
        cycles := h.cycles
        config := h.config
        checks := ⟨fun slot => (h.stores slot).checks, fun slot => ⟨(h.locks slot).copyA.check, (h.locks slot).copyB.check⟩,
          ⟨h.minutes.copyA.check, h.minutes.copyB.check⟩, h.causes, h.mark⟩
        unloaded := hquiet
        attention := h.attention }

/-! ## Entries apart -/

/-- Each key has at most one entry, and no two entries hold the same compartment. -/
def Apart (x : List Entry) : Prop :=
  x.Pairwise (fun e f => e.job ≠ f.job ∧ ∀ slot, ¬(e.holds slot = true ∧ f.holds slot = true))

theorem Entry.job_eq_iff {e : Entry} {j : Job} : e.job = j ↔ e.kind = j.kind ∧ e.ticket = j.ticket := by
  cases j
  simp [Entry.job]

theorem Apart.eq_of_job {x : List Entry} (h : Apart x) {e d : Entry} (he : e ∈ x) (hd : d ∈ x) (hj : e.job = d.job) : e = d := by
  by_contra hne
  have hsymm : Std.Symm (fun e f : Entry => e.job ≠ f.job ∧ ∀ slot, ¬(e.holds slot = true ∧ f.holds slot = true)) :=
    ⟨fun _ _ hab => ⟨Ne.symm hab.1, fun slot hb => hab.2 slot hb.symm⟩⟩
  exact (h.forall he hd hne).1 hj

theorem Apart.filter {x : List Entry} (h : Apart x) (p : Entry → Bool) : Apart (x.filter p) := List.Pairwise.filter p h

theorem Apart.concat {x : List Entry} (h : Apart x) {e : Entry} (hjob : ∀ d ∈ x, d.job ≠ e.job)
    (hholds : ∀ d ∈ x, ∀ slot, e.holds slot = true → d.holds slot = false) : Apart (x ++ [e]) := by
  refine List.pairwise_append.mpr ⟨h, List.pairwise_singleton _ _, fun d hd c hc => ?_⟩
  obtain rfl := List.mem_singleton.mp hc
  refine ⟨hjob d hd, fun slot ⟨hdh, hch⟩ => ?_⟩
  rw [hholds d hd slot hch] at hdh
  cases hdh

/-- An entry is replaced by one of its key, which holds only what it held or what none holds. -/
theorem Apart.update {x : List Entry} (h : Apart x) {j : Job} {f : Entry → Entry} (hjob : ∀ e, (f e).job = e.job)
    (hholds : ∀ e ∈ x, e.job = j → ∀ slot, (f e).holds slot = true → e.holds slot = true ∨ ∀ d ∈ x, d.holds slot = false) :
    Apart (x.map (fun e => if e.kind = j.kind ∧ e.ticket = j.ticket then f e else e)) := by
  refine List.pairwise_map.mpr (List.Pairwise.imp_of_mem (fun {e d} he hd hed => ?_) h)
  obtain ⟨hne, hslots⟩ := hed
  simp only [← Entry.job_eq_iff]
  by_cases hej : e.job = j <;> by_cases hdj : d.job = j
  · exact absurd (hej.trans hdj.symm) hne
  · rw [if_pos hej, if_neg hdj]
    refine ⟨by rwa [hjob], fun slot ⟨h1, h2⟩ => ?_⟩
    rcases hholds e he hej slot h1 with hh | hh
    · exact hslots slot ⟨hh, h2⟩
    · rw [hh d hd] at h2; cases h2
  · rw [if_neg hej, if_pos hdj]
    refine ⟨by rwa [hjob], fun slot ⟨h1, h2⟩ => ?_⟩
    rcases hholds d hd hdj slot h2 with hh | hh
    · exact hslots slot ⟨h1, hh⟩
    · rw [hh e he] at h1; cases h1
  · rw [if_neg hej, if_neg hdj]
    exact ⟨hne, hslots⟩

theorem State.entry?_some {s : State} {j : Job} {e : Entry} (h : s.entry? j = some e) : e ∈ s.ort ∧ e.job = j := by
  have hkey := List.find?_some h
  simp only [Bool.and_eq_true, beq_iff_eq] at hkey
  exact ⟨List.mem_of_find?_eq_some h, Entry.job_eq_iff.mpr hkey⟩

theorem State.entry?_none_iff {s : State} {j : Job} : s.entry? j = none ↔ ∀ e ∈ s.ort, e.job ≠ j := by
  simp [State.entry?, Entry.job_eq_iff]

/-- An entry holds the slots of its list that are not done, unless it waits. -/
theorem Entry.holds_iff {e : Entry} {slot : Slot} :
    e.holds slot = true ↔ e.stage ≠ .waiting ∧ ∃ x ∈ e.slots, x.slot = slot ∧ x.progress ≠ .done := by
  simp [Entry.holds]

theorem Entry.holds_of_updSlot {e : Entry} {slot i : Slot} {g : EntrySlot → EntrySlot} (hslot : ∀ x, (g x).slot = x.slot)
    (hdone : ∀ x, x.progress = .done → (g x).progress = .done) (h : (e.updSlot slot g).holds i = true) : e.holds i = true := by
  obtain ⟨hstage, y, hy, hyi, hyd⟩ := Entry.holds_iff.mp h
  obtain ⟨x, hx, rfl⟩ := List.mem_map.mp hy
  refine Entry.holds_iff.mpr ⟨hstage, x, hx, ?_⟩
  split at hyi
  · rw [if_pos ‹_›] at hyd
    exact ⟨(hslot x).symm.trans hyi, fun hd => hyd (hdone x hd)⟩
  · rw [if_neg ‹_›] at hyd
    exact ⟨hyi, hyd⟩

/-! ## Sound steps -/

/-- A step that keeps the bounds and the entries apart, and leaves the column loaded or not. -/
structure Sound (s t : State) : Prop where
  bounds : LiveBounds s → LiveBounds t
  apart : HoldsApart s → HoldsApart t
  loaded : t.loaded = s.loaded

theorem Sound.refl (s : State) : Sound s s := ⟨id, id, rfl⟩

theorem Sound.trans {s t u : State} (h : Sound s t) (k : Sound t u) : Sound s u :=
  ⟨k.bounds ∘ h.bounds, k.apart ∘ h.apart, k.loaded.trans h.loaded⟩

theorem Sound.foldl {α : Type} {f : State → α → State} (h : ∀ s x, Sound s (f s x)) (xs : List α) (s : State) :
    Sound s (xs.foldl f s) := by
  induction xs generalizing s with
  | nil => exact .refl s
  | cons x xs ih => exact (h s x).trans (ih _)

/-- The parts that no bound speaks of. -/
def unboundedParts : List Part :=
  [.pending, .pins, .note, .drivers, .quotes, .outputs, .counters, .line, .drive, .restart, .held, .free]

theorem Sound.light {s t : State} (h : UnchangedBut unboundedParts s t) : Sound s t where
  bounds hb := by
    obtain ⟨hcheck, hfail, hdrop, hrole⟩ : Part.errors.same s t := h _ (by decide)
    obtain ⟨hmA, hmB, -, hmw⟩ : Part.minutes.same s t := h _ (by decide)
    obtain ⟨hcs, -, -⟩ : Part.causes.same s t := h _ (by decide)
    obtain ⟨hmark, hmarkOk⟩ : Part.mark.same s t := h _ (by decide)
    obtain ⟨htx, hrx, hfaults, hfails, hdrops, hroles⟩ := hb.liu
    exact
      { liu := ⟨by rwa [h.tx], by rwa [h.rx], by rwa [hcheck], by rwa [hfail], by rwa [hdrop], by rwa [hrole]⟩
        places := by rw [h.ort]; exact hb.places
        bolt := fun i => by rw [h.sense]; exact hb.bolt i
        level := by rw [h.level]; exact hb.level
        pulses := by rw [h.pulses]; exact hb.pulses
        clk := by rw [h.clk]; exact hb.clk
        locks := fun i => by rw [h.locksOf]; exact hb.locks i
        minutes := ⟨by rw [hmA]; exact hb.minutes.copyA, by rw [hmB]; exact hb.minutes.copyB,
          by rw [hmw]; exact hb.minutes.writes⟩
        records := fun i r => by rw [h.rec?]; exact hb.records i r
        stores := fun i => by rw [h.storeOf]; exact hb.stores i
        span := by rw [h.dsq, h.conf]; exact hb.span
        cycles := by rw [h.dsq]; exact hb.cycles
        config := by rw [h.conf]; exact hb.config
        causes := by rw [hcs]; exact hb.causes
        mark := by rw [hmark, hmarkOk]; exact hb.mark
        attention := by rw [h.conds, h.attention, h.conf]; exact hb.attention }
  apart ha := by
    unfold HoldsApart
    rw [h.ort]
    exact ha
  loaded := h.loaded

/-! ## Updates of one block -/

theorem Sound.setOwn (s : State) (o : OwnNote) : Sound s (s.setOwn o) := .light ((frame_setOwn s o).mono (by decide))

theorem Sound.setFree (s : State) (n : Nat) : Sound s (s.setFree n) := .light ((frame_setFree s n).mono (by decide))

theorem Sound.count (s : State) (k : EventKind) (v : Option Nat) (c : Nat) : Sound s (s.count k v c) :=
  .light ((frame_count s k v c).mono (by decide))

theorem Sound.setLamp (s : State) (slot : Slot) (on : Bool) : Sound s (s.setLamp slot on) :=
  .light ((frame_setLamp s slot on).mono (by decide))

theorem Sound.refreshOutputs (s : State) : Sound s s.refreshOutputs := .light ((frame_refreshOutputs s).mono (by decide))

theorem Sound.setQuoteCounter (s : State) (x : BitVec 16) : Sound s (s.setQuoteCounter x) :=
  .light ((frame_setQuoteCounter s x).mono (by decide))

theorem Sound.setLiu (s : State) (x : Liu) (h : s.liu.Sound → x.Sound) : Sound s (s.setLiu x) where
  bounds hb := { hb with liu := h hb.liu }
  apart := id
  loaded := rfl

theorem Sound.setTx (s : State) (q : List TxFrame) (h : q.length ≤ max s.liu.tx.length 8) : Sound s (s.setTx q) :=
  .setLiu s _ (fun hl => { hl with tx := by have := hl.tx; change q.length ≤ 8; omega })

theorem Sound.mark (s : State) (c : Condition) (slot : Option Slot) : Sound s (s.mark c slot) where
  bounds hb := { hb with attention := rfl }
  apart := id
  loaded := rfl

theorem Sound.setOrt (s : State) (x : List Entry) (hl : x.length ≤ max s.ort.length 8) (ha : Apart s.ort → Apart x) :
    Sound s (s.setOrt x) where
  bounds hb := { hb with places := by have := hb.places; change x.length ≤ 8; omega }
  apart := ha
  loaded := rfl

theorem Sound.setDsq (s : State) (x : Dsq) (hl : x.cycles.length ≤ max s.dsq.cycles.length s.conf.span)
    (ha : s.dsq.Apart → x.Apart) : Sound s (s.setDsq x) where
  bounds hb := { hb with
    span := by have := hb.span; change x.cycles.length ≤ s.conf.span; omega
    cycles := ha hb.cycles }
  apart := id
  loaded := rfl

theorem Sound.setSense (s : State) (slot : Slot) (x : Sense) (h : (s.sense slot).bolt ≤ 15 → x.bolt ≤ 15) :
    Sound s (s.setSense slot x) where
  bounds hb := { hb with
    bolt := fun i => by
      change (tget (tset s.sen slot x) i).bolt ≤ 15
      rw [tget_tset]
      split
      · exact h (hb.bolt slot)
      · exact hb.bolt i }
  apart := id
  loaded := rfl

theorem Sound.refreshIdle (s : State) (slot : Slot) : Sound s (s.refreshIdle slot) := .setSense s slot _ id

theorem Sound.setRec (s : State) (slot : Slot) (r : CompRec) (h : LiveBounds s → r.inTime) : Sound s (s.setRec slot r) where
  bounds hb := { hb with
    minutes := ⟨hb.minutes.copyA, hb.minutes.copyB, hb.minutes.writes⟩
    records := fun i x => by
      change tget (tset s.cts.table slot (some r)) i = some x → x.inTime
      rw [tget_tset]
      split
      · intro hx; cases hx; exact h hb
      · exact hb.records i x }
  apart := id
  loaded := rfl

theorem Sound.setStore (s : State) (slot : Slot) (x : SlotStore) (h : LiveBounds s → x.Sound slot) :
    Sound s (s.setStore slot x) where
  bounds hb := { hb with
    minutes := ⟨hb.minutes.copyA, hb.minutes.copyB, hb.minutes.writes⟩
    stores := fun i => by
      change (tget (tset s.cts.store slot x) i).Sound i
      rw [tget_tset]
      split
      · rename_i hi; subst hi; exact h hb
      · exact hb.stores i }
  apart := id
  loaded := rfl

theorem Sound.setLocks (s : State) (slot : Slot) (x : Locks) (h : (s.locks slot).Sound → x.Sound) :
    Sound s (s.setLocks slot x) where
  bounds hb := { hb with
    minutes := ⟨hb.minutes.copyA, hb.minutes.copyB, hb.minutes.writes⟩
    locks := fun i => by
      change (tget (tset s.cts.locks slot x) i).Sound
      rw [tget_tset]
      split
      · exact h (hb.locks slot)
      · exact hb.locks i }
  apart := id
  loaded := rfl

theorem Sound.setClk (s : State) (x : Clk) (h : LiveBounds s → x.Sound) : Sound s (s.setClk x) where
  bounds hb := { hb with clk := h hb }
  apart := id
  loaded := rfl

theorem Sound.setBgu (s : State) (x : Bgu) (hl : s.bgu.level ≤ 3 → x.level ≤ 3)
    (hp : LiveBounds s → x.pulses.length ≤ 8) : Sound s (s.setBgu x) where
  bounds hb := { hb with level := hl hb.level, pulses := hp hb }
  apart := id
  loaded := rfl

/-! ## Conditions, answers and refusals -/

theorem Sound.placed (s : State) (f : TxFrame) : Sound s (s.setTx (placeIn f s.liu.tx).queue) := .setTx s _ (placeIn_length f _)

theorem Sound.alertIfRisen (s : State) (b : Bool) : Sound s (s.alertIfRisen b) := by
  unfold State.alertIfRisen
  dsimp only
  split
  · split
    · exact (Sound.placed s _).trans (.mark _ _ _)
    · exact .placed s _
  · exact .refl s

theorem Sound.raise (s : State) (c : Condition) (slot : Option Slot) : Sound s (s.raise c slot) :=
  (Sound.mark s c slot).trans (.alertIfRisen _ _)

theorem Sound.queueFrame (s : State) (f : TxFrame) : Sound s (s.queueFrame f) := by
  unfold State.queueFrame
  dsimp only
  split
  · exact (Sound.placed s f).trans (.raise _ _ _)
  · exact .placed s f

theorem Sound.answer (s : State) (d : BitVec 6) (b : Body) : Sound s (s.answer d b) := .queueFrame s _

theorem Sound.refusalEvent (s : State) (r : Reason) (c : Nat) : Sound s (s.refusalEvent r c) := .count s _ _ _

theorem Sound.refuse (s : State) (d : BitVec 6) (n : Option (BitVec 16)) (slot : Option Nat) (r : Reason) (c : Nat) :
    Sound s (s.refuse d n slot r c) := (Sound.answer s d _).trans (.refusalEvent _ _ _)

theorem Sound.refuseSlot (s : State) (t : Ticket) (slot : Slot) (r : Reason) : Sound s (s.refuseSlot t slot r) :=
  .refuse s _ _ _ _ _

/-! ## A change of a record and its write -/

/-- A state's parcel record is gone, or is the one it was. -/
def DropsOrKeeps (c d : CompState) : Prop := d.parcel? = none ∨ d.parcel? = c.parcel?

theorem CompRec.inTime_of_dropsOrKeeps {r y : CompRec} (h : DropsOrKeeps r.state y.state) (hr : r.inTime) : y.inTime := by
  intro p hp
  rcases h with hnone | hsame
  · rw [hnone] at hp; cases hp
  · exact hr p (hsame ▸ hp)

/-- What a store holds of a slot stands but for the units that wait. -/
theorem SlotStore.Sound.of_eq {slot : Slot} {x y : SlotStore} (h : x.Sound slot) (ha : y.a = x.a) (hb : y.b = x.b)
    (hw : ∀ w, y.writing = some w → w.content.inTime) : y.Sound slot where
  checks isB := by
    have hcopy : y.copy isB = x.copy isB := by unfold SlotStore.copy; rw [ha, hb]
    rw [hcopy]
    exact h.checks isB
  copyA := ha ▸ h.copyA
  copyB := hb ▸ h.copyB
  writing := hw

theorem Sound.beginWrite (s : State) (slot : Slot) (ws : List Waiter) (c : WriteCause) : Sound s (s.beginWrite slot ws c) := by
  unfold State.beginWrite
  split
  · exact .refl s
  · rename_i r hr
    refine Sound.trans (.setStore s slot _ fun hb => ?_) (.setFree _ _)
    exact (hb.stores slot).of_eq rfl rfl (fun w hw => by cases hw; exact hb.records slot r hr)

theorem Sound.scheduleWrite (s : State) (slot : Slot) : Sound s (s.scheduleWrite slot) := by
  unfold State.scheduleWrite
  dsimp only
  split
  · exact .beginWrite s _ _ _
  · exact .setStore s slot _ fun hb => (hb.stores slot).of_eq rfl rfl (hb.stores slot).writing

theorem Sound.attach {s s' : State} {slot : Slot} {w : Waiter} (h : s.attach slot w = some s') : Sound s s' := by
  unfold State.attach at h
  dsimp only at h
  split at h
  · cases h
    exact .setStore s slot _ fun hb => (hb.stores slot).of_eq rfl rfl (hb.stores slot).writing
  · rename_i wr _ hwr
    cases h
    exact .setStore s slot _ fun hb => (hb.stores slot).of_eq rfl rfl
      (fun v hv => by cases hv; exact (hb.stores slot).writing wr hwr)
  · cases h

theorem Sound.enterEvent (s : State) (c d : CompState) (n : Nat) : Sound s (s.enterEvent c d n) :=
  .light ((frame_enterEvent s c d n).mono (by decide))

theorem Sound.raiseCause (s : State) (c d : CompState) (slot : Slot) : Sound s (s.raiseCause c d slot) := by
  unfold State.raiseCause
  split
  · split
    · exact .refl s
    · exact .raise s _ _
  · exact .refl s

/-- A change to a record that lies in time where the record before it did. -/
theorem Sound.change (s : State) (slot : Slot) (new : CompRec) (call : Nat)
    (h : LiveBounds s → ∀ old, s.rec? slot = some old → old.inTime → new.inTime) : Sound s (s.change slot new call) := by
  unfold State.change
  split
  · exact .refl s
  · rename_i old hold
    split
    · exact .refl s
    · exact (((Sound.setRec s slot new fun hb => h hb old hold (hb.records slot old hold)).trans (.enterEvent _ _ _ _)).trans
        (.raiseCause _ _ _ _)).trans (.scheduleWrite _ _)

theorem Sound.change_parcel (s : State) (slot : Slot) (new : CompRec) (call : Nat)
    (h : ∀ old, s.rec? slot = some old → DropsOrKeeps old.state new.state) : Sound s (s.change slot new call) :=
  .change s slot new call fun _ old hold => CompRec.inTime_of_dropsOrKeeps (h old hold)

theorem Sound.changeTested (s : State) (slot : Slot) (new : CompRec)
    (h : ∀ old, s.rec? slot = some old → DropsOrKeeps old.state new.state) : Sound s (s.changeTested slot new) := by
  unfold State.changeTested
  split
  · exact .refl s
  · split
    · exact (Sound.change_parcel s slot { new with lost := true } 0 h).trans (.raise _ _ _)
    · exact .change_parcel s slot new 0 h

theorem Sound.emptyChecked (s : State) (slot : Slot) : Sound s (s.emptyChecked slot) := by
  unfold State.emptyChecked
  dsimp only
  have hchange := Sound.change_parcel s slot (CompRec.emptied (s.sense slot).presenceIsOn) 0 (fun _ _ => .inl rfl)
  split
  · exact hchange.trans (.raise _ _ _)
  · exact hchange

theorem forcedRec_dropsOrKeeps (r : CompRec) : DropsOrKeeps r.state (forcedRec r).state := by
  unfold forcedRec
  split <;> exact .inr rfl

theorem Sound.forceTable (s : State) (slot : Slot) : Sound s (s.forceTable slot) := by
  unfold State.forceTable
  split
  · exact .refl s
  · rename_i r hr
    exact .change_parcel s slot _ 0 (fun old hold => by rw [hr] at hold; cases hold; exact forcedRec_dropsOrKeeps r)

theorem Sound.expire (s : State) (slot : Slot) : Sound s (s.expire slot) := by
  unfold State.expire
  split
  · exact .refl s
  · rename_i r hr
    split
    · rename_i p hp
      split
      · refine .change s slot _ 0 fun _ old hold htime q hq => ?_
        rw [hr] at hold
        cases hold
        cases hq
        exact htime p (by rw [hp]; rfl)
      · exact .refl s
    · exact .refl s

theorem Sound.writeCauses (s : State) (c : Causes) : Sound s (s.writeCauses c) where
  bounds hb := { hb with minutes := ⟨hb.minutes.copyA, hb.minutes.copyB, hb.minutes.writes⟩ }
  apart := id
  loaded := rfl

/-! ## Entries -/

/-- An update of one entry that keeps its key, and takes no hold that another has. -/
theorem Sound.updEntry (s : State) (j : Job) (f : Entry → Entry) (hjob : ∀ e, (f e).job = e.job)
    (hholds : Apart s.ort → ∀ e ∈ s.ort, e.job = j → ∀ slot, (f e).holds slot = true →
      e.holds slot = true ∨ ∀ d ∈ s.ort, d.holds slot = false) : Sound s (s.updEntry j f) :=
  .setOrt s _ (by simp) (fun ha => ha.update hjob (hholds ha))

/-- An update of one entry that takes no hold at all. -/
theorem Sound.updEntry_holds (s : State) (j : Job) (f : Entry → Entry) (hjob : ∀ e, (f e).job = e.job)
    (hholds : ∀ e slot, (f e).holds slot = true → e.holds slot = true) : Sound s (s.updEntry j f) :=
  .updEntry s j f hjob (fun _ e _ _ slot h => .inl (hholds e slot h))

/-- An entry that is active already goes to another active stage. -/
theorem Sound.updEntry_active (s : State) {j : Job} {e : Entry} (he : s.entry? j = some e) (hactive : e.stage ≠ .waiting)
    (f : Entry → Entry) (hjob : ∀ e, (f e).job = e.job) (hslots : ∀ e, (f e).slots = e.slots) : Sound s (s.updEntry j f) := by
  refine .updEntry s j f hjob (fun ha d hd hdj slot h => .inl ?_)
  obtain ⟨hmem, hej⟩ := State.entry?_some he
  obtain rfl := ha.eq_of_job hd hmem (hdj.trans hej.symm)
  obtain ⟨-, x, hx, hxs⟩ := Entry.holds_iff.mp h
  exact Entry.holds_iff.mpr ⟨hactive, x, hslots d ▸ hx, hxs⟩

theorem Sound.dropEntry (s : State) (j : Job) : Sound s (s.dropEntry j) :=
  .setOrt s _ (Nat.le_trans (List.length_filter_le _ _) (Nat.le_max_left _ _)) (fun ha => ha.filter _)

/-- A new entry joins the table: there is a place, its key is new, and it holds what none holds. -/
theorem Sound.addEntry (s : State) (e : Entry) (hroom : s.ort.length < 8) (hjob : s.entry? e.job = none)
    (hholds : ∀ slot, e.holds slot = true → ∀ d ∈ s.ort, d.holds slot = false) : Sound s (s.addEntry e) :=
  .setOrt s _ (by simp only [List.length_append, List.length_singleton]; omega)
    (fun ha => ha.concat (State.entry?_none_iff.mp hjob) (fun d hd slot h => hholds slot h d hd))

theorem Sound.updSlot (s : State) (j : Job) (slot : Slot) (g : EntrySlot → EntrySlot) (hslot : ∀ x, (g x).slot = x.slot)
    (hdone : ∀ x, x.progress = .done → (g x).progress = .done) : Sound s (s.updEntry j (fun e => e.updSlot slot g)) :=
  .updEntry_holds s j _ (fun _ => rfl) (fun _ _ h => Entry.holds_of_updSlot hslot hdone h)

theorem Sound.keepQuote (s : State) (j : Job) (slot : Slot) (q : Quote) : Sound s (s.keepQuote j slot q) :=
  .updSlot s j slot _ (fun x => by split <;> rfl) (fun x h => by rw [if_pos h]; exact h)

theorem Sound.issueQuote (s : State) (j : Job) (slot : Slot) (p : Parcel) (m : Nat) : Sound s (s.issueQuote j slot p m) :=
  (Sound.keepQuote s j slot _).trans (.setQuoteCounter _ _)

theorem Sound.setProgress (s : State) (j : Job) (slot : Slot) (p : Progress) : Sound s (s.setProgress j slot p) :=
  .updSlot s j slot _ (fun x => by split <;> rfl) (fun x h => by rw [if_pos h]; exact h)

theorem Sound.restartLapse (s : State) (j : Job) : Sound s (s.updEntry j Entry.restartLapse) :=
  .updEntry_holds s j _ (fun _ => rfl) (fun _ _ h => h)

theorem Sound.deferredExpiry (s : State) (slot : Slot) : Sound s (s.deferredExpiry slot) := by
  unfold State.deferredExpiry
  split
  · exact .refl s
  · split
    · exact .expire s slot
    · exact .refl s

theorem Sound.finishEntry (s : State) (j : Job) : Sound s (s.finishEntry j) := by
  unfold State.finishEntry
  split
  · exact .refl s
  · exact (Sound.dropEntry s j).trans (.foldl (fun s x => .deferredExpiry s x) _ _)

theorem Sound.releaseSlot (s : State) (j : Job) (slot : Slot) : Sound s (s.releaseSlot j slot) := by
  have hupd := Sound.updSlot s j slot (fun x => { x with progress := .done, quote := none, mark := false })
    (fun _ => rfl) (fun _ _ => rfl)
  unfold State.releaseSlot
  dsimp only
  split
  · exact hupd.trans (.deferredExpiry _ _)
  · exact hupd

theorem Entry.holds_of_fewer_slots {e : Entry} {i : Slot} {p : EntrySlot → Bool}
    (h : ({ e with slots := e.slots.filter p } : Entry).holds i = true) : e.holds i = true := by
  obtain ⟨hstage, x, hx, hxi⟩ := Entry.holds_iff.mp h
  exact Entry.holds_iff.mpr ⟨hstage, x, (List.mem_filter.mp hx).1, hxi⟩

theorem Sound.removeSlot (s : State) (j : Job) (slot : Slot) : Sound s (s.removeSlot j slot) := by
  have hupd := Sound.updEntry_holds s j (fun e => { e with slots := e.slots.filter (fun x => x.slot != slot) })
    (fun _ => rfl) (fun _ _ h => Entry.holds_of_fewer_slots h)
  unfold State.removeSlot
  dsimp only
  split
  · exact hupd.trans (.deferredExpiry _ _)
  · exact hupd

theorem Sound.endIfDone (s : State) (j : Job) : Sound s (s.endIfDone j) := by
  unfold State.endIfDone
  split
  · exact .refl s
  · split
    · exact .finishEntry s j
    · split
      · exact .restartLapse s j
      · exact .refl s

theorem Sound.slotDone (s : State) (j : Job) (slot : Slot) : Sound s (s.slotDone j slot) :=
  (Sound.releaseSlot s j slot).trans (.endIfDone _ _)

/-! ## Answers that wait for a write, and the end of a promise -/

theorem Sound.placeDone (s : State) (t : Ticket) (slot : Slot) (r : DepositResult) : Sound s (s.placeDone t slot r) :=
  (Sound.answer s _ _).trans (.finishEntry _ _)

theorem Sound.afterRelease (s : State) (j : Job) (slot : Slot) : Sound s (s.afterRelease j slot) := by
  unfold State.afterRelease
  split
  · exact .slotDone s j slot
  · exact .slotDone s j slot
  · exact .finishEntry s j
  · exact .refl s

theorem Sound.releaseDone (s : State) (j : Job) (slot : Slot) (r : ReleaseResult) (ref : BitVec 64) :
    Sound s (s.releaseDone j slot r ref) := (Sound.answer s _ _).trans (.afterRelease _ _ _)

theorem Sound.serviceDone (s : State) (t : Ticket) (slot : Slot) (r : ReleaseResult) (ref : BitVec 64) :
    Sound s (s.serviceDone t slot r ref) := (Sound.answer s _ _).trans (.finishEntry _ _)

theorem Sound.paymentQuote (s : State) (t : Ticket) (slot : Slot) (x m : Nat) (p : Parcel) :
    Sound s (s.paymentQuote t slot x m p) := (Sound.issueQuote s _ _ _ _).trans (.answer _ _ _)

theorem Sound.releaseAnswer (s : State) (slot : Slot) (w : Waiter) : Sound s (s.releaseAnswer slot w) := by
  cases w with
  | placeDone t r => exact .placeDone s t slot r
  | releaseDone j r ref => exact .releaseDone s j slot r ref
  | serviceDone t r ref => exact .serviceDone s t slot r ref
  | payment t x m p => exact .paymentQuote s t slot x m p
  | endEntry j => exact .finishEntry s j
  | cycleStart => exact .refl s
  | detail t => exact .refl s

theorem Sound.await (s : State) (slot : Slot) (w : Waiter) : Sound s (s.await slot w) := by
  unfold State.await
  split
  · rename_i h; exact .attach h
  · exact .releaseAnswer s slot w

theorem Sound.closePlace (s : State) (t : Ticket) (slot : Slot) : Sound s (s.closePlace t slot) :=
  (Sound.updEntry_holds s _ (fun e => { e with timer := none, ending := true }) (fun _ => rfl) (fun _ _ h => h)).trans
    (.await _ _ _)

theorem Sound.endPromise (s : State) (t : Ticket) (slot : Slot) : Sound s (s.endPromise t slot) := by
  unfold State.endPromise
  split
  · split
    · exact (Sound.emptyChecked s slot).trans (.closePlace _ _ _)
    · exact .finishEntry s _
  · exact .finishEntry s _

theorem Sound.withdrawOffer (s : State) (t : Ticket) : Sound s (s.withdrawOffer t) := by
  refine .setTx s _ ?_
  rw [List.length_map]
  exact Nat.le_trans (List.length_filter_le _ _) (Nat.le_max_left _ _)

theorem Sound.endOffer (s : State) (t : Ticket) : Sound s (s.endOffer t) := by
  unfold State.endOffer
  split
  · exact .refl s
  · split
    · split
      · exact .endPromise s _ _
      · exact .refl s
    · exact .refl s

/-! ## The Budget Unit -/

theorem Sound.filterTx (s : State) (p : TxFrame → Bool) : Sound s (s.setTx (s.liu.tx.filter p)) :=
  .setTx s _ (Nat.le_trans (List.length_filter_le _ _) (Nat.le_max_left _ _))

theorem Sound.removeNote (s : State) : Sound s s.removeNote := .filterTx s _

theorem Sound.withdrawIfFull (s : State) : Sound s s.withdrawIfFull := by
  unfold State.withdrawIfFull
  split
  · split
    · exact (Sound.removeNote s).trans (.setOwn _ _)
    · exact .refl s
  · exact .refl s
  · exact .refl s

theorem Sound.noteCycleEnded (s : State) (slot : Slot) : Sound s (s.noteCycleEnded slot) := by
  unfold State.noteCycleEnded
  split
  · split
    · exact .setOwn s _
    · exact .refl s
  · split
    · split
      · exact .setOwn s _
      · exact (Sound.removeNote s).trans (.setOwn _ _)
    · exact .refl s
  · exact .refl s

theorem Sound.placeNote (s : State) (c : Cycle) : Sound s (s.placeNote c) := by
  unfold State.placeNote
  dsimp only
  split
  · exact ((Sound.placed s _).trans (.raise _ _ _)).trans (.setOwn _ _)
  · exact (Sound.placed s _).trans (.setOwn _ _)

theorem Sound.noteTest (s : State) : Sound s s.noteTest := by
  unfold State.noteTest
  split
  · exact .refl s
  · split
    · exact .refl s
    · split
      · exact .placeNote s _
      · exact .refl s

theorem budgetAt_le (level k : Nat) (hk : k ≤ 8) : budgetAt level k ≤ 8 := by
  unfold budgetAt
  split <;> omega

theorem LiveBounds.budget {s : State} (h : LiveBounds s) : s.budget ≤ 8 := budgetAt_le _ _ h.config.1

theorem Sound.addPulse (s : State) (st : BitVec 6) (slot : BitVec 5) (d : Nat) (h : s.granted st slot = true) :
    Sound s (s.addPulse st slot d) := by
  refine .setBgu s _ id (fun hb => ?_)
  simp only [State.granted, Bool.and_eq_true, decide_eq_true_eq] at h
  have := hb.budget
  simp only [List.length_append, List.length_singleton]
  omega

theorem Sound.judgeOther (s : State) (st : BitVec 6) (n : NoteFields) : Sound s (s.judgeOther st n) := by
  unfold State.judgeOther
  split
  · rename_i h; exact (Sound.addPulse s _ _ _ h).trans (.withdrawIfFull _)
  · exact .refl s

theorem Sound.withdrawOffers (s : State) : Sound s s.withdrawOffers :=
  .foldl (fun s t => (Sound.withdrawOffer s t).trans (.endOffer _ t)) _ _

theorem Sound.changeLevel (s : State) (level : Nat) (h : s.bgu.level ≤ 3 → level ≤ 3) : Sound s (s.changeLevel level) := by
  unfold State.changeLevel
  dsimp only
  have hset := (Sound.setBgu s { s.bgu with level := level } h (fun hb => hb.pulses)).trans (.withdrawIfFull _)
  split
  · exact .refl s
  · split
    · exact (hset.trans (.withdrawOffers _)).trans (.refreshOutputs _)
    · exact hset.trans (.refreshOutputs _)

theorem Sound.takeLevel (s : State) (level : Nat) (h : level ≤ 3) : Sound s (s.takeLevel level) :=
  (Sound.changeLevel s level (fun _ => h)).trans (.setBgu _ _ id (fun hb => hb.pulses))

theorem Sound.fallBack (s : State) : Sound s s.fallBack :=
  (Sound.changeLevel s _ (fun h => by simp only [fallbackLevel]; omega)).trans (.setBgu _ _ id (fun hb => hb.pulses))

/-! ## Outcomes -/

theorem mapDeposit_dropsOrKeeps (r : CompRec) (o : Outcome) (on : Bool) :
    DropsOrKeeps r.state (mapDeposit r o on).1.state := by
  unfold mapDeposit
  split
  · exact .inr rfl
  · cases o with
    | securedPresent =>
      cases hp : r.state.parcel? with
      | none => exact .inl hp
      | some p => exact .inr hp.symm
    | latchFault b =>
      cases b
      · exact .inl rfl
      · exact .inr rfl
    | forced => exact .inr rfl
    | _ => exact .inl rfl

theorem reoccupied_parcel? (r : CompRec) : r.reoccupied.state.parcel? = r.state.parcel? := by
  unfold CompRec.reoccupied
  split
  · rename_i hp; exact hp.symm
  · rfl

theorem mapRemoval_dropsOrKeeps (r : CompRec) (o : Outcome) : DropsOrKeeps r.state (mapRemoval r o).1.state := by
  unfold mapRemoval
  split
  · exact .inr rfl
  · cases o with
    | securedPresent => exact .inr (reoccupied_parcel? r)
    | abandoned => exact .inr (reoccupied_parcel? r)
    | securedAbsent => exact .inl rfl
    | latchFault b =>
      cases b
      · exact .inl rfl
      · exact .inr rfl
    | _ => exact .inr rfl

theorem mapServiceFault_dropsOrKeeps (r : CompRec) (o : Outcome) : DropsOrKeeps r.state (mapServiceFault r o).record.state := by
  cases o with
  | securedAbsent =>
    simp only [mapServiceFault, CompRec.withoutParcel]
    split
    · exact .inl rfl
    · exact .inr rfl
  | latchFault b =>
    cases b
    · exact .inl rfl
    · exact .inr rfl
  | _ => exact .inr rfl

theorem mapService_dropsOrKeeps (st : StartState) (r : CompRec) (o : Outcome) (on : Bool) :
    DropsOrKeeps r.state (mapService st r o on).record.state := by
  unfold mapService
  split
  · exact .inr rfl
  · cases st with
    | occupied => exact mapRemoval_dropsOrKeeps r o
    | empty => cases o <;> exact .inl rfl
    | fault => exact mapServiceFault_dropsOrKeeps r o
    | other => exact .inr rfl

theorem clearResult_dropsOrKeeps (r : CompRec) (on : Bool) : DropsOrKeeps r.state (clearResult r on).1.state := by
  unfold clearResult
  split
  · rename_i h; exact .inr h.symm
  · exact .inl rfl
  · exact .inl rfl
  · exact .inl rfl

theorem releasingRec_dropsOrKeeps {k : DoorKind} {r y : CompRec} (h : releasingRec k r = some y) :
    DropsOrKeeps r.state y.state := by
  unfold releasingRec at h
  split at h
  · cases h
  · rename_i hp; cases h; exact .inr (by rw [hp]; rfl)
  · cases h

/-- What is known of the one record a slot has is known of every record it has. -/
theorem forall_rec {s : State} {slot : Slot} {r : CompRec} (h : s.rec? slot = some r) {p : CompRec → Prop} (hp : p r) :
    ∀ old, s.rec? slot = some old → p old := by
  intro old hold
  rw [h] at hold
  cases hold
  exact hp

theorem Sound.depositOutcome (s : State) (x : Returned) (o : Outcome) : Sound s (s.depositOutcome x o) := by
  unfold State.depositOutcome
  split
  · exact .refl s
  · rename_i r hr
    exact (Sound.changeTested s _ _ (forall_rec hr (mapDeposit_dropsOrKeeps r o _))).trans (.await _ _ _)

theorem Sound.removalOutcome (s : State) (x : Returned) (o : Outcome) : Sound s (s.removalOutcome x o) := by
  unfold State.removalOutcome
  split
  · exact .refl s
  · rename_i r hr
    exact (Sound.changeTested s _ _ (forall_rec hr (mapRemoval_dropsOrKeeps r o))).trans (.await _ _ _)

theorem Sound.serviceOutcome (s : State) (x : Returned) (o : Outcome) : Sound s (s.serviceOutcome x o) := by
  unfold State.serviceOutcome
  split
  · exact .refl s
  · rename_i r hr
    have hchange := Sound.changeTested s x.slot _ (forall_rec hr (mapService_dropsOrKeeps x.startState r o
      (s.sense x.slot).presenceIsOn))
    dsimp only
    split
    · exact (hchange.trans (.raise _ _ _)).trans (.await _ _ _)
    · exact hchange.trans (.await _ _ _)

theorem Sound.refuseUnpaid (s : State) (t : Ticket) (slot : Slot) : Sound s (s.refuseUnpaid t slot) := by
  unfold State.refuseUnpaid
  dsimp only
  split
  · exact .refuseSlot s _ _ _
  · exact ((Sound.refuseSlot s _ _ _).trans (.issueQuote _ _ _ _ _)).trans (.answer _ _ _)

theorem Sound.answerStartCheck (s : State) (j : Job) (slot : Slot) (v : Judgment) : Sound s (s.answerStartCheck j slot v) := by
  unfold State.answerStartCheck
  split
  · exact (Sound.refuseSlot s _ _ _).trans (.slotDone _ _ _)
  · exact ((Sound.refuseUnpaid s _ _).trans (.setProgress _ _ _ _)).trans (.restartLapse _ _)
  · exact (Sound.refuseSlot s _ _ _).trans (.slotDone _ _ _)
  · exact (Sound.refuseSlot s _ _ _).trans (.slotDone _ _ _)
  · exact (Sound.refuseSlot s _ _ _).trans (.slotDone _ _ _)
  · exact (Sound.refuseSlot s _ _ _).trans (.slotDone _ _ _)
  · exact .refl s

theorem Sound.returnOutcome (s : State) (x : Returned) (o : Outcome) : Sound s (s.returnOutcome x o) := by
  unfold State.returnOutcome
  dsimp only
  split
  · exact (Sound.count s _ _ _).trans (.answerStartCheck _ _ _ _)
  · split
    · exact (Sound.count s _ _ _).trans (.depositOutcome _ _ _)
    · exact (Sound.count s _ _ _).trans (.removalOutcome _ _ _)
    · exact (Sound.count s _ _ _).trans (.removalOutcome _ _ _)
    · exact (Sound.count s _ _ _).trans (.serviceOutcome _ _ _)

/-! ## Door cycles -/

/-- A door block with fewer requests and fewer cycles keeps its slots apart. -/
theorem Dsq.Apart.sublist {d x : Dsq} (h : d.Apart) (hq : (x.queue.map DoorRequest.slot).Sublist (d.queue.map DoorRequest.slot))
    (hc : (x.cycles.map Cycle.slot).Sublist (d.cycles.map Cycle.slot)) : x.Apart :=
  List.Nodup.sublist (hq.append hc) h

theorem Sound.freeCycle (s : State) (slot : Slot) : Sound s (s.freeCycle slot) := by
  unfold State.freeCycle
  dsimp only
  refine (((Sound.setDsq s _ ?_ ?_).trans (.setLamp _ _ _)).trans (.noteCycleEnded _ _)).trans (.refreshIdle _ _)
  · exact Nat.le_trans (List.length_filter_le _ _) (Nat.le_max_left _ _)
  · exact fun h => h.sublist (.refl _) (List.filter_sublist.map _)

theorem Sound.endCycle (s : State) (c : Cycle) (o : Outcome) (v : Option Judgment) : Sound s (s.endCycle c o v) :=
  (Sound.freeCycle s _).trans (.returnOutcome _ _ _)

theorem cycleSlots_setCycle (cs : List Cycle) (c : Cycle) :
    (cs.map (fun d => if d.slot = c.slot then c else d)).map Cycle.slot = cs.map Cycle.slot := by
  rw [List.map_map]
  refine List.map_congr_left (fun d _ => ?_)
  dsimp only [Function.comp]
  split
  · rename_i h; exact h.symm
  · rfl

theorem Sound.setCycle (s : State) (c : Cycle) : Sound s (s.setCycle c) := by
  refine .setDsq s _ (by simp) (fun h => ?_)
  unfold Dsq.Apart
  dsimp only
  rw [cycleSlots_setCycle]
  exact h

theorem Sound.setOrder (s : State) (x : List Slot) : Sound s (s.setDsq { s.dsq with order := x }) :=
  .setDsq s _ (Nat.le_max_left _ _) id

theorem Sound.enterPulseWait (s : State) (c : Cycle) : Sound s (s.enterPulseWait c) :=
  (Sound.setCycle s _).trans (.setOrder _ _)

theorem Sound.failAttempt (s : State) (c : Cycle) (f : AttemptFailure) : Sound s (s.failAttempt c f) := by
  unfold State.failAttempt
  dsimp only
  split
  · exact .endCycle s _ _ _
  · exact .enterPulseWait s _

/-- The head of the door queue becomes a cycle (R43). -/
theorem Sound.openHead (s : State) {r : DoorRequest} {rest : List DoorRequest} (hq : s.dsq.queue = r :: rest)
    (hspan : s.dsq.cycles.length < s.conf.span) (c : Cycle) (hc : c.slot = r.slot) :
    Sound s ((s.setDsq { s.dsq with queue := rest }).openCycle c) := by
  unfold State.openCycle
  dsimp only
  refine ((Sound.setDsq s { s.dsq with queue := rest, cycles := s.dsq.cycles ++ [c] } ?_ (fun h => ?_)).trans
    (.setLamp _ _ _)).trans (.refreshIdle _ _)
  · simp only [List.length_append, List.length_singleton]; omega
  · unfold Dsq.Apart at h ⊢
    rw [hq] at h
    simp only [List.map_cons, List.map_append, List.map_nil, hc]
    rw [← List.append_assoc]
    refine (List.perm_append_comm.nodup_iff).mp ?_
    simpa using h

theorem Sound.startHead (s : State) {r : DoorRequest} {rest : List DoorRequest} (hq : s.dsq.queue = r :: rest)
    (hspan : s.dsq.cycles.length < s.conf.span) : Sound s ((s.setDsq { s.dsq with queue := rest }).startRequest r) := by
  unfold State.startRequest
  split
  · refine .setDsq s _ (Nat.le_max_left _ _) (fun h => h.sublist ?_ (.refl _))
    rw [hq]
    exact (List.sublist_cons_self _ _).map _
  · rename_i x hx
    dsimp only
    have hopen := Sound.openHead s hq hspan
      (r.cycle x.state.startState ((s.setDsq { s.dsq with queue := rest }).parcelRef r.slot)) rfl
    split
    · exact hopen.trans (.endCycle _ _ _ _)
    · split
      · exact hopen.trans (.enterPulseWait _ _)
      · rename_i y hy
        split
        · rename_i s' hs
          refine (hopen.trans (.change_parcel _ _ _ _ ?_)).trans (.attach hs)
          refine forall_rec (r := x) ?_ (releasingRec_dropsOrKeeps hy)
          rw [(frame_openCycle _ _).rec?]
          exact hx
        · exact hopen.trans (.enterPulseWait _ _)

theorem Sound.tryStart (s : State) : Sound s s.tryStart := by
  unfold State.tryStart
  split
  · exact .refl s
  · rename_i r rest hq
    split
    · rename_i hspan; exact .startHead s hq hspan
    · exact .refl s

theorem State.hasDoorCycle_eq_false_iff {s : State} {slot : Slot} :
    s.hasDoorCycle slot = false ↔ (∀ q ∈ s.dsq.queue, q.slot ≠ slot) ∧ ∀ c ∈ s.dsq.cycles, c.slot ≠ slot := by
  simp [State.hasDoorCycle, State.inDoorQueue, State.inCycle, State.cycle?]

theorem Sound.askDoor (s : State) (r : DoorRequest) : Sound s (s.askDoor r) := by
  unfold State.askDoor
  split
  · exact .returnOutcome s _ _
  · rename_i hdoor
    obtain ⟨hqueue, hcycles⟩ := State.hasDoorCycle_eq_false_iff.mp (Bool.not_eq_true _ ▸ hdoor)
    refine (Sound.setDsq s { s.dsq with queue := s.dsq.queue ++ [r] } (Nat.le_max_left _ _) (fun h => ?_)).trans (.tryStart _)
    unfold Dsq.Apart at h ⊢
    simp only [List.map_append, List.map_cons, List.map_nil, List.append_assoc, List.singleton_append]
    refine List.perm_middle.nodup_iff.mpr (List.nodup_cons.mpr ⟨?_, h⟩)
    simp only [List.mem_append, List.mem_map, not_or, not_exists, not_and]
    exact ⟨hqueue, hcycles⟩

theorem Sound.forceQueued (s : State) (r : DoorRequest) : Sound s (s.forceQueued r) := by
  refine (Sound.setDsq s { s.dsq with queue := s.dsq.queue.filter (fun x => x.slot != r.slot) } (Nat.le_max_left _ _)
    (fun h => h.sublist ?_ (.refl _))).trans (.returnOutcome _ _ _)
  exact List.filter_sublist.map _

theorem Sound.forceCycle (s : State) (c : Cycle) : Sound s (s.forceCycle c) := by
  unfold State.forceCycle
  split
  · exact (Sound.setCycle s _).trans (.setLamp _ _ _)
  · exact .endCycle s _ _ _
  · exact .refl s

theorem Sound.forcedReport (s : State) (slot : Slot) : Sound s (s.forcedReport slot) := by
  unfold State.forcedReport
  split
  · exact .forceQueued s _
  · split
    · exact .forceCycle s _
    · exact .forceTable s slot

theorem Sound.onCycle (s : State) (slot : Slot) (f : Cycle → Cycle) : Sound s (s.onCycle slot f) := by
  unfold State.onCycle
  split
  · exact .setCycle s _
  · exact .refl s

theorem Sound.driverOffStage (s : State) (c : Cycle) : Sound s (s.driverOffStage c) := by
  unfold State.driverOffStage
  dsimp only
  split
  · exact .setCycle s _
  · split
    · exact .setCycle s _
    · split
      · exact .setCycle s _
      · exact .failAttempt s _ _

theorem Sound.releaseStart (s : State) (slot : Slot) : Sound s (s.releaseStart slot) := by
  unfold State.releaseStart
  split
  · exact .refl s
  · split
    · exact .refl s
    · split
      · exact .endCycle s _ _ _
      · split
        · exact .endCycle s _ _ _
        · exact .enterPulseWait s _

theorem Sound.releaseDetail (s : State) (t : Ticket) (slot : Slot) : Sound s (s.releaseDetail t slot) := by
  unfold State.releaseDetail
  split
  · exact .askDoor s _
  · exact .placeDone s _ _ _

theorem Sound.release (s : State) (slot : Slot) (w : Waiter) : Sound s (s.release slot w) := by
  unfold State.release
  split
  · exact .releaseStart s slot
  · exact .releaseDetail s _ slot
  · exact .releaseAnswer s slot _
  · exact .releaseAnswer s slot _
  · exact .releaseAnswer s slot _
  · exact .releaseAnswer s slot _
  · exact .releaseAnswer s slot _

end Sys2Proof.Machine
end

