-- ==== Sys2Proof/Proofs/SoundWork.lean ====
section
/- One theorem after another: side by side, their proofs ask for more threads than the check's memory limit allows. -/
set_option Elab.async false

/-! SUPPORT. That the work of a command's end keeps the invariants: an entry becomes active on slots that none holds, and the tests of
R86, R42 and R69 follow one another. -/

namespace Sys2Proof.Machine

/-! ## The first eligible entry -/

/-- The first eligible entry stands behind entries none of which is eligible. -/
theorem State.firstEligible_some {s : State} {older xs : List Entry} {e : Entry} (h : s.firstEligible older xs = some e) :
    ∃ before after, xs = before ++ e :: after ∧ s.eligible (older ++ before) e = true
      ∧ ∀ b d a, before = b ++ d :: a → s.eligible (older ++ b) d = false := by
  induction xs generalizing older with
  | nil => cases h
  | cons x xs ih =>
    unfold State.firstEligible at h
    split at h
    · rename_i hx
      cases h
      exact ⟨[], xs, rfl, by simpa using hx, fun b d a hb => by cases b <;> cases hb⟩
    · rename_i hx
      obtain ⟨before, after, rfl, hel, hnone⟩ := ih h
      refine ⟨x :: before, after, rfl, by simpa using hel, fun b d a hb => ?_⟩
      cases b with
      | nil =>
        obtain ⟨rfl, -⟩ := List.cons.inj hb
        simpa using hx
      | cons y b =>
        obtain ⟨rfl, htail⟩ := List.cons.inj hb
        simpa using hnone b d a htail

theorem State.firstEligible_none {s : State} {older xs : List Entry} (h : s.firstEligible older xs = none) :
    ∀ b d a, xs = b ++ d :: a → s.eligible (older ++ b) d = false := by
  induction xs generalizing older with
  | nil => intro b d a hb; cases b <;> cases hb
  | cons x xs ih =>
    unfold State.firstEligible at h
    split at h
    · cases h
    · rename_i hx
      intro b d a hb
      cases b with
      | nil =>
        obtain ⟨rfl, -⟩ := List.cons.inj hb
        simpa using hx
      | cons y b =>
        obtain ⟨rfl, htail⟩ := List.cons.inj hb
        simpa using ih h b d a htail

theorem State.eligible_holds {s : State} {older : List Entry} {e : Entry} (h : s.eligible older e = true) :
    e.stage = .waiting ∧ ∀ x ∈ e.slots, ∀ d ∈ s.ort, d.holds x.slot = false := by
  simp only [State.eligible, Bool.and_eq_true, beq_iff_eq, List.all_eq_true] at h
  obtain ⟨hwaiting, hslots⟩ := h
  exact ⟨hwaiting, fun x hx => State.holder?_isNone_iff.mp (hslots x hx).1⟩

/-! ## Becoming active -/

/-- The entry of a key may hold the slots: it holds each already, or none does. -/
def State.MayHold (s : State) (j : Job) (slots : List Slot) : Prop :=
  Apart s.ort → ∀ e ∈ s.ort, e.job = j → ∀ slot ∈ slots, e.holds slot = true ∨ ∀ d ∈ s.ort, d.holds slot = false

/-- The entry of a key may become active on the slots it lists: it is active already, or none of them is held. -/
def State.MayStart (s : State) (j : Job) : Prop :=
  Apart s.ort → ∀ e ∈ s.ort, e.job = j → e.stage ≠ .waiting ∨ ∀ x ∈ e.slots, ∀ d ∈ s.ort, d.holds x.slot = false

theorem Sound.activeOn (s : State) (j : Job) (slots : List Slot) (stage : EntryStage) (h : s.MayHold j slots) :
    Sound s (s.updEntry j (fun e => { e with slots := slots.map EntrySlot.fresh, stage := stage, timer := some 0 })) := by
  refine .updEntry s j _ (fun _ => rfl) (fun ha e he hej i hi => ?_)
  obtain ⟨-, x, hx, rfl, -⟩ := Entry.holds_iff.mp hi
  obtain ⟨y, hy, rfl⟩ := List.mem_map.mp hx
  exact h ha e he hej y hy

theorem Sound.toStage (s : State) (j : Job) (stage : EntryStage) (t : Option Nat) (h : s.MayStart j) :
    Sound s (s.updEntry j (Entry.toStage stage t)) := by
  refine .updEntry s j _ (fun _ => rfl) (fun ha e he hej i hi => ?_)
  obtain ⟨-, x, hx, rfl, hdone⟩ := Entry.holds_iff.mp hi
  rcases h ha e he hej with hactive | hfree
  · exact .inl (Entry.holds_iff.mpr ⟨hactive, x, hx, rfl, hdone⟩)
  · exact .inr (hfree x hx)

theorem Sound.quoteSlot (s : State) (j : Job) (slot : Slot) : Sound s (s.quoteSlot j slot) := by
  unfold State.quoteSlot
  split
  · exact .issueQuote s _ _ _ _
  · exact .refl s

theorem Sound.queueMatch (s : State) (j : Job) (slot : Slot) : Sound s (s.queueMatch j slot) := by
  unfold State.queueMatch
  split
  · exact .answer s _ _
  · exact .refl s

theorem Sound.activateCollect (s : State) (j : Job) (slots : List Slot) (h : s.MayHold j slots) :
    Sound s (s.activateCollect j slots) :=
  ((Sound.activeOn s j slots _ h).trans (.foldl (fun s x => .quoteSlot s j x) _ _)).trans
    (.foldl (fun s x => .queueMatch s j x) _ _)

theorem Sound.activateSweep (s : State) (j : Job) (slots : List Slot) (h : s.MayHold j slots) :
    Sound s (s.activateSweep j slots) := (Sound.activeOn s j slots _ h).trans (.answer _ _ _)

theorem Sound.refuseService (s : State) (j : Job) (slot : Slot) (r : Reason) : Sound s (s.refuseService j slot r) :=
  (Sound.refuseSlot s _ _ _).trans (.finishEntry _ _)

theorem Sound.activateOpen (s : State) (j : Job) (slot : Slot) (r : CompRec) (h : s.MayStart j) :
    Sound s (s.activateOpen j slot r) := by
  unfold State.activateOpen
  split
  · exact .refuseService s _ _ _
  · exact (Sound.toStage s j _ _ h).trans (.askDoor _ _)

theorem Sound.activateClear (s : State) (j : Job) (slot : Slot) {r : CompRec} (hr : s.rec? slot = some r) (h : s.MayStart j) :
    Sound s (s.activateClear j slot r) := by
  have hchange := (Sound.toStage s j .immediate none h).trans
    (.changeTested _ slot _ (forall_rec hr (clearResult_dropsOrKeeps r (s.sense slot).presenceIsOn)))
  unfold State.activateClear
  dsimp only
  split
  · exact .refuseService s _ _ _
  · split
    · exact .refuseService s _ _ _
    · split
      · exact (hchange.trans (.raise _ _ _)).trans (.await _ _ _)
      · exact hchange.trans (.await _ _ _)

theorem Sound.activateRetire (s : State) (j : Job) (slot : Slot) (r : CompRec) (h : s.MayStart j) :
    Sound s (s.activateRetire j slot r) := by
  unfold State.activateRetire
  split
  · exact .refuseService s _ _ _
  · exact ((Sound.toStage s j _ _ h).trans (.change_parcel _ _ _ _ (fun _ _ => .inl rfl))).trans (.await _ _ _)

theorem Sound.activateRestore (s : State) (j : Job) (slot : Slot) (r : CompRec) (h : s.MayStart j) :
    Sound s (s.activateRestore j slot r) := by
  unfold State.activateRestore
  split
  · exact .refuseService s _ _ _
  · exact ((Sound.toStage s j _ _ h).trans (.emptyChecked _ _)).trans (.await _ _ _)

theorem Sound.activateService (s : State) (j : Job) (sub : ServiceKind) (slot : Slot) (h : s.MayStart j) :
    Sound s (s.activateService j sub slot) := by
  unfold State.activateService
  split
  · exact .finishEntry s j
  · rename_i r hr
    match sub with
    | .open => exact .activateOpen s j slot r h
    | .clear => exact .activateClear s j slot hr h
    | .retire => exact .activateRetire s j slot r h
    | .restore => exact .activateRestore s j slot r h

/-! ## Re-evaluation -/

/-- A waiting entry none of whose slots is held may hold any of them. -/
theorem State.mayHold_of_free {s : State} {e : Entry} (hfree : ∀ x ∈ e.slots, ∀ d ∈ s.ort, d.holds x.slot = false)
    {slots : List Slot} (hslots : ∀ i ∈ slots, i ∈ e.slotList) : s.MayHold e.job slots := by
  intro _ d _ _ i hi
  obtain ⟨x, hx, rfl⟩ := List.mem_map.mp (hslots i hi)
  exact .inr (hfree x hx)

theorem State.mayStart_of_free {s : State} {e : Entry} (he : e ∈ s.ort)
    (hfree : ∀ x ∈ e.slots, ∀ d ∈ s.ort, d.holds x.slot = false) : s.MayStart e.job := by
  intro ha d hd hde
  obtain rfl := ha.eq_of_job hd he hde
  exact .inr hfree

theorem Sound.reEvaluate (s : State) {e : Entry} (he : e ∈ s.ort)
    (hfree : ∀ x ∈ e.slots, ∀ d ∈ s.ort, d.holds x.slot = false) : Sound s (s.reEvaluate e) := by
  have hsub {p : Slot → Bool} {x : Slot} {rest : List Slot} (h : e.slotList.filter p = x :: rest) :
      ∀ i ∈ x :: rest, i ∈ e.slotList := fun i hi => (List.mem_filter.mp (h ▸ hi)).1
  unfold State.reEvaluate
  split
  · unfold State.reEvaluateCollect
    split
    · rename_i h; exact .activateCollect s _ _ (State.mayHold_of_free hfree (hsub h))
    · split
      · exact (Sound.refuseSlot s _ _ _).trans (.finishEntry _ _)
      · exact .finishEntry s _
  · unfold State.reEvaluateSweep
    split
    · rename_i h; exact .activateSweep s _ _ (State.mayHold_of_free hfree (hsub h))
    · exact .finishEntry s _
  · unfold State.reEvaluateService
    split
    · exact .activateService s _ _ _ (State.mayStart_of_free he hfree)
    · exact .finishEntry s _
  · exact .finishEntry s _

/-! ## The tests at a command's end -/

theorem Sound.settleOne {s s' : State} (h : s.settleOne = some s') : Sound s s' := by
  unfold State.settleOne at h
  split at h
  · rename_i e he
    obtain ⟨before, after, hort, hel, -⟩ := State.firstEligible_some he
    cases h
    exact .reEvaluate s (hort ▸ List.mem_append_right _ (List.mem_cons_self ..)) (State.eligible_holds hel).2
  · split at h
    · cases h; exact .tryStart s
    · cases h

theorem Sound.settle (n : Nat) (s : State) : Sound s (s.settle n) := by
  induction n generalizing s with
  | zero => exact .refl s
  | succ n ih =>
    unfold State.settle
    split
    · rename_i h; exact (Sound.settleOne h).trans (ih _)
    · exact .refl s

theorem Sound.conclude (s : State) : Sound s s.conclude := (Sound.settle _ s).trans (.noteTest _)

theorem Sound.concluded {s t : State} (h : Sound s t) : Sound s t.conclude := h.trans (.conclude t)

end Sys2Proof.Machine
end

