-- ==== Sys2Proof/Proofs/SoundLine.lean ====
section
/- One theorem after another: side by side, their proofs ask for more threads than the check's memory limit allows. -/
set_option Elab.async false

/-! SUPPORT. That the commands of start-up after the configuration read, of the line and of placement keep the invariants. -/

namespace Sys2Proof.Machine

/-! ## Start-up after the configuration read -/

theorem Sound.setPhase (s : State) (x : Phase) (h : (s.setPhase x).loaded = s.loaded) : Sound s (s.setPhase x) where
  bounds hb := { hb with }
  apart := id
  loaded := h

theorem Sound.setHeldCauses (s : State) (c : Causes) : Sound s (s.setHeldCauses c) :=
  .light ((frame_setHeldCauses s c).mono (by decide))

theorem Sound.setCauses (s : State) (x : CauseCopy) (w : Option Causes)
    (h : x.ok = true → (s.cts.causeStore.ok = true → s.cts.causeStore.check = checkWord .causes s.cts.causeStore.set) →
      x.check = checkWord .causes x.set) : Sound s (s.setCts { s.cts with causeStore := x, causeWriting := w }) where
  bounds hb := { hb with
    minutes := ⟨hb.minutes.copyA, hb.minutes.copyB, hb.minutes.writes⟩
    causes := fun hok => h hok hb.causes }
  apart := id
  loaded := rfl

theorem CauseCopy.torn_holds (c : CauseCopy) (n : Nat) :
    (c.torn n).set = c.set ∧ (c.torn n).check = c.check ∧ ((c.torn n).ok = true → c.ok = true) := by
  unfold CauseCopy.torn; split <;> simp

theorem Sound.causeWriteEnded (s : State) (c : Causes) (ok : Bool) : Sound s (s.causeWriteEnded c ok) := by
  unfold State.causeWriteEnded
  split
  · exact .setCauses s _ _ (fun _ _ => rfl)
  · refine ((Sound.setCauses s _ _ fun hok hbefore => ?_).trans (.setFree _ _)).trans (.raise _ _ _)
    obtain ⟨hset, hcheck, hheld⟩ := CauseCopy.torn_holds s.cts.causeStore s.free
    rw [hset, hcheck]
    exact hbefore (hheld hok)

theorem Sound.afterCauseWrite (s : State) : Sound s s.afterCauseWrite := by
  unfold State.afterCauseWrite
  split
  · rename_i h
    exact (Sound.setPhase s .reconciling (by simp [State.loaded, h])).trans (.setHeldCauses _ _)
  · exact .refl s

theorem Sound.setPin (s : State) (slot : Slot) (f : Pins → Pins) : Sound s (s.setPin slot f) :=
  .light ((frame_setPin s slot f).mono (by decide))

theorem Sound.takeBaseline (s : State) (slot : Slot) (d p : Bool) : Sound s (s.takeBaseline slot d p) :=
  (Sound.setSense s slot { s.sense slot with
    door := some d, doorTimer := 0, presence := some p, presenceTimer := 0, baseTimer := 0
    baseline := some (d, p) } id).trans (.refreshIdle _ _)

theorem reconciled_dropsOrKeeps (r : CompRec) (d on : Bool) : DropsOrKeeps r.state (reconciled r d on).state := by
  unfold reconciled
  split
  · unfold reconciledOpen
    split <;> exact .inr rfl
  · unfold reconciledSecure
    split
    · exact .inl rfl
    · exact .inl rfl
    · split <;> exact .inl rfl
    · rename_i h
      split
      · exact .inr (by rw [h]; rfl)
      · exact .inl rfl
    · rename_i h; exact .inr (by rw [h])
    · rename_i h
      split
      · exact .inr (by rw [h]; rfl)
      · exact .inl rfl
    · exact .inr rfl
    · exact .inr rfl

theorem Sound.raiseReconciled (s : State) (slot : Slot) (r : CompRec) : Sound s (s.raiseReconciled slot r) := by
  unfold State.raiseReconciled
  split
  · exact .raise s _ _
  · split
    · exact .raise s _ _
    · exact .refl s
  · split
    · exact .raise s _ _
    · exact .refl s
  all_goals exact .refl s

/-- Which copy is current is no part of a store's soundness. -/
theorem Sound.setCurrent (s : State) (slot : Slot) (c : Option Bool) :
    Sound s (s.setStore slot { s.store slot with current := c }) :=
  .setStore s slot _ fun hb => (hb.stores slot).of_eq rfl rfl (hb.stores slot).writing

theorem LiveBounds.content {s : State} (hb : LiveBounds s) (slot : Slot) (isB : Bool) :
    ((s.store slot).content isB).inTime := by
  cases isB
  · exact (hb.stores slot).copyA
  · exact (hb.stores slot).copyB

theorem Sound.reconcile (s : State) (slot : Slot) (d on : Bool) : Sound s (s.reconcile slot d on) := by
  unfold State.reconcile
  split
  · rename_i isB _
    unfold State.reconcileSound
    dsimp only
    have hrec : Sound s ((s.setStore slot { s.store slot with current := some isB }).setRec slot
        (reconciled ((s.store slot).content isB) d on)) := by
      refine ⟨fun hb => ?_, id, rfl⟩
      exact ((Sound.setRec _ slot _ fun _ => CompRec.inTime_of_dropsOrKeeps (reconciled_dropsOrKeeps _ d on)
        (hb.content slot isB)).bounds ∘ (Sound.setCurrent s slot (some isB)).bounds) hb
    have hraise := (hrec.trans (.enterEvent _ ((s.store slot).content isB).state
      (reconciled ((s.store slot).content isB) d on).state 0)).trans (.raiseReconciled _ slot
        (reconciled ((s.store slot).content isB) d on))
    split
    · exact hraise
    · exact hraise.trans (.beginWrite _ _ _ _)
  · refine ((((Sound.setCurrent s slot none).trans (.setRec _ slot CompRec.damaged fun _ p hp => ?_)).trans
      (.count _ _ _ _)).trans (.raiseReconciled _ _ _)).trans (.beginWrite _ _ _ _)
    cases hp

/-! ## The column's own transmission -/

theorem Sound.setDrive (s : State) (d : EndDrive) : Sound s (s.setDrive d) := .light ((frame_setDrive s d).mono (by decide))

theorem Sound.silent (s : State) : Sound s s.silent := .setLiu s _ (fun h => { h with })

theorem Sound.mapSending (s : State) (f : TxFrame → TxFrame) : Sound s (s.mapSending f) :=
  .setTx s _ (by rw [List.length_map]; exact Nat.le_max_left _ _)

theorem Sound.dropSending (s : State) : Sound s s.dropSending := .filterTx s _

theorem Sound.lineError (s : State) (n : Nat) : Sound s (s.lineError n) := by
  unfold State.lineError
  split
  · exact .count s _ _ _
  · exact .refl s

theorem errorUp_le (n : Nat) : errorUp n ≤ 65535 := Nat.min_le_right _ _

theorem Sound.countCheckFault (s : State) : Sound s s.countCheckFault :=
  (Sound.setLiu s { s.liu with checkFaults := errorUp s.liu.checkFaults } fun h => { h with checkFaults := errorUp_le _ }).trans
    (.lineError _ _)

theorem Sound.countFailure (s : State) : Sound s s.countFailure :=
  (Sound.setLiu s { s.liu with failures := errorUp s.liu.failures } fun h => { h with failures := errorUp_le _ }).trans
    (.lineError _ _)

theorem Sound.countDrop (s : State) : Sound s s.countDrop :=
  (Sound.setLiu s { s.liu with dropCount := errorUp s.liu.dropCount } fun h => { h with dropCount := errorUp_le _ }).trans
    (.lineError _ _)

theorem Sound.countRoleFailure (s : State) : Sound s s.countRoleFailure :=
  (Sound.setLiu s { s.liu with roleFailures := errorUp s.liu.roleFailures } fun h => { h with roleFailures := errorUp_le _ }).trans
    (.lineError _ _)

theorem Sound.keepOrRemove (s : State) (f : TxFrame) : Sound s (s.keepOrRemove f) := by
  unfold State.keepOrRemove
  split
  · exact .dropSending s
  · split
    · exact (Sound.dropSending s).trans (.setOwn _ _)
    · exact .mapSending s _

theorem Sound.yieldLine (s : State) : Sound s s.yieldLine := by
  unfold State.yieldLine
  split
  · exact .refl s
  · exact (Sound.keepOrRemove s _).trans (.silent _)

theorem Sound.tellOwner (s : State) (f : TxFrame) : Sound s (s.tellOwner f) := by
  unfold State.tellOwner
  split
  · unfold State.noteLost
    split
    · exact .setOwn s _
    all_goals exact .refl s
  · exact .endOffer s _
  · exact .refl s

theorem Sound.enterQuiet (s : State) : Sound s s.enterQuiet :=
  ((Sound.setLiu s { s.liu with line := .quiet, timer := 0, tx := [], drops := 0 } fun h =>
    { h with tx := Nat.zero_le _ }).trans (.foldl Sound.tellOwner _ _)).trans (.setOwn _ _)

theorem Sound.dropFrame (s : State) (f : TxFrame) : Sound s (s.dropFrame f) := by
  have htold := (((Sound.dropSending s).trans (.raise _ .lineDrop none)).trans (.countDrop _)).trans (.tellOwner _ f)
  have hdrops := htold.trans (.setLiu _ { (((s.dropSending.raise .lineDrop none).countDrop.tellOwner f).liu) with
    drops := ((s.dropSending.raise .lineDrop none).countDrop.tellOwner f).liu.drops + 1 } fun h => { h with })
  unfold State.dropFrame
  dsimp only
  split
  · exact hdrops.trans (.enterQuiet _)
  · exact hdrops

theorem Sound.failSending (s : State) (f : TxFrame) : Sound s (s.failSending f) := by
  have hcounted := ((Sound.mapSending s fun x => { x with retries := x.retries + 1 }).trans (.silent _)).trans
    (.countFailure _)
  unfold State.failSending
  dsimp only
  split
  · exact hcounted.trans (.dropFrame _ _)
  · exact hcounted.trans (.keepOrRemove _ _)

theorem Sound.succeed (s : State) (f : TxFrame) : Sound s (s.succeed f) := by
  have htaken := (((Sound.dropSending s).trans (.silent _)).trans (.setDrive _ .neither)).trans
    (.setLiu _ { (s.dropSending.silent.setDrive .neither).liu with drops := 0 } fun h => { h with })
  unfold State.succeed
  dsimp only
  split
  · exact htaken.trans (.writeCauses _ _)
  · split
    · exact htaken.trans (.setLiu _ _ fun h => { h with })
    · exact htaken

theorem Sound.succeedSending (s : State) : Sound s s.succeedSending := by
  unfold State.succeedSending
  split
  · exact .refl s
  · exact .succeed s _

theorem Sound.startSending (s : State) : Sound s s.startSending := by
  unfold State.startSending
  split
  · exact .refl s
  · split
    · exact .refl s
    · refine Sound.trans ?_ (.setFree _ _)
      refine .setLiu s _ fun h => { h with tx := ?_ }
      rw [List.length_set]
      exact h.tx

/-! ## Notes and offers on arrival -/

theorem Locks.Sound.begin {x : Locks} (h : x.Sound) : x.begin.Sound :=
  { h with writing := fun w hw => by cases hw; exact h.count }

theorem Locks.Sound.fired {x : Locks} (h : x.Sound) : x.fired.Sound := by
  have hcount : ({ x with count := min (x.count + 1) count24Max } : Locks).Sound :=
    { h with count := Nat.min_le_right _ _ }
  unfold Locks.fired
  dsimp only
  split
  · exact { hcount with }
  · exact hcount.begin

theorem Sound.enterDriving (s : State) (c : Cycle) : Sound s (s.enterDriving c) := (Sound.setCycle s _).trans (.setOrder _ _)

theorem Sound.setDriver (s : State) (slot : Slot) (t : Option Nat) : Sound s (s.setDriver slot t) :=
  .light ((frame_setDriver s slot t).mono (by decide))

theorem Sound.drive (s : State) (c : Cycle) (d : Nat) (k : DoorKind) : Sound s (s.drive c d k) :=
  (((Sound.setDriver s _ _).trans (.enterDriving _ _)).trans (.setLocks _ c.slot _ Locks.Sound.fired)).trans
    ((Sound.count _ _ _ _).trans (.setOwn _ _))

theorem Sound.judgeOwn (s : State) (slot : Slot) (d : Nat) (k : DoorKind) : Sound s (s.judgeOwn slot d k) := by
  unfold State.judgeOwn
  split
  · rename_i h
    unfold State.ownGranted
    dsimp only
    split
    · split
      · exact (Sound.addPulse s _ _ _ h).trans (.setOwn _ _)
      · exact (Sound.addPulse s _ _ _ h).trans (.drive _ _ _ _)
    · exact (Sound.addPulse s _ _ _ h).trans (.setOwn _ _)
  · exact (Sound.count s _ _ _).trans (.setOwn _ _)

/-- The one entry of a key that is active may become so. -/
theorem State.mayStart_of_active {s : State} {j : Job} {e : Entry} (he : s.entry? j = some e) (h : e.stage ≠ .waiting) :
    s.MayStart j := by
  obtain ⟨hmem, hej⟩ := State.entry?_some he
  intro ha d hd hdj
  obtain rfl := ha.eq_of_job hd hmem (hdj.trans hej.symm)
  exact .inl h

theorem State.MayStart.of_ort {s t : State} {j : Job} (h : s.MayStart j) (hort : t.ort = s.ort) : t.MayStart j := by
  unfold State.MayStart
  rw [hort]
  exact h

theorem Sound.award (s : State) (t : Ticket) (slot : Slot) (h : s.MayStart (placeJob t)) : Sound s (s.award t slot) := by
  unfold State.award
  split
  · exact .finishEntry s _
  · split
    · exact ((Sound.change_parcel s slot _ _ fun _ _ => .inl rfl).trans
        (.toStage _ _ _ _ (h.of_ort (frame_change _ _ _ _).ort))).trans (.count _ _ _ _)
    · exact .finishEntry s _

theorem Sound.ownOffer (s : State) (t : Ticket) : Sound s (s.ownOffer t) := by
  unfold State.ownOffer
  split
  · exact .refl s
  · rename_i e he
    split
    · exact .refl s
    · split
      · rename_i hstage
        exact .award s t _ (State.mayStart_of_active he (by rw [hstage.1]; decide))
      · exact .refl s

theorem Sound.otherOffer (s : State) (t : Ticket) : Sound s (s.otherOffer t) := by
  unfold State.otherOffer
  split
  · exact .setLiu s _ fun h => { h with rx := by rw [List.length_map]; exact h.rx }
  · split
    · exact .refl s
    · split
      · exact (Sound.withdrawOffer s t).trans (.endPromise _ _ _)
      · exact .refl s

theorem Sound.handleOwn (s : State) : Sound s s.handleOwn := by
  have hfree := Sound.setLiu s { s.liu with handover := none } fun h => { h with }
  unfold State.handleOwn
  split
  · exact .refl s
  · dsimp only
    split
    · exact hfree.trans (.judgeOwn _ _ _ _)
    · exact hfree.trans (.ownOffer _ _)
    · exact hfree

theorem Sound.finishOwn (s : State) : Sound s s.finishOwn := by
  unfold State.finishOwn
  split
  · exact (Sound.handleOwn s).concluded
  · exact .refl s

/-! ## Frames of other stations -/

theorem Sound.enqueue (s : State) (k : RequestKind) (f : Frame) : Sound s (s.enqueue k f) := by
  unfold State.enqueue
  split
  · rename_i h
    refine .setLiu s _ fun hl => { hl with rx := ?_ }
    rw [List.length_append, List.length_singleton]
    exact h
  · exact .raise s _ _

theorem powerLevel_le {p : List Byte} {level : Nat} (h : powerLevel p = some level) : level ≤ 3 := by
  unfold powerLevel at h
  split at h
  · cases h; exact Nat.min_le_right _ _
  · cases h

theorem Sound.deliver (s : State) (k : LineKind) (f : Frame) : Sound s (s.deliver k f) := by
  unfold State.deliver
  split
  · split
    · exact .judgeOther s _ _
    · exact .refl s
  · split
    · rename_i h; exact .takeLevel s _ (powerLevel_le h)
    · exact .refl s
  · split
    · exact .otherOffer s _
    · exact .refl s
  · exact .refl s
  · exact .enqueue s _ f

theorem Sound.accept (s : State) (f : Frame) : Sound s (s.accept f) := by
  unfold State.accept
  split
  · exact .refl s
  · exact .countRoleFailure s
  · exact .deliver s _ f

theorem Sound.listening (s : State) : Sound s s.listening := (Sound.finishOwn s).trans (.yieldLine _)

theorem Sound.void (s : State) : Sound s s.void := (Sound.setDrive s _).trans (.countCheckFault _)

theorem Sound.arrive (s : State) (f : Frame) : Sound s (s.arrive f) := by
  unfold State.arrive
  split
  · dsimp only
    split
    · exact ((Sound.listening s).trans ((Sound.setDrive _ _).trans (.accept _ f))).concluded
    · exact ((Sound.listening s).trans (.void _)).concluded
  · exact .setDrive s _

theorem Sound.arriveOwn (s : State) : Sound s s.arriveOwn := by
  unfold State.arriveOwn
  split
  · exact (Sound.succeedSending s).trans (.handleOwn _)
  · exact .handleOwn s

theorem Sound.dropPulse (s : State) (st : BitVec 6) (slot : BitVec 5) : Sound s (s.dropPulse st slot) :=
  .setBgu s _ id (fun hb => Nat.le_trans (List.length_filter_le _ _) hb.pulses)

theorem Sound.reportDriverOff (s : State) (slot : Slot) : Sound s (s.reportDriverOff slot) := by
  unfold State.reportDriverOff
  split
  · split
    · exact .driverOffStage s _
    · exact .refl s
  · exact .refl s

end Sys2Proof.Machine
end

