-- ==== Sys2Proof/Proofs/SoundRequests.lean ====
section
/- One theorem after another: side by side, their proofs ask for more threads than the check's memory limit allows. -/
set_option Elab.async false

/-! SUPPORT. That the request commands keep the invariants: placement, collection, payment, sweep, service, queries and time. -/

namespace Sys2Proof.Machine

/-! ## The head of the receive queue -/

theorem State.takeHead_some {s s' : State} {k : RequestKind} {f : RxFrame} (h : s.takeHead k = some (f, s')) :
    ∃ rest, s.liu.rx = f :: rest ∧ f.kind = k ∧ s' = s.setLiu { s.liu with rx := rest } := by
  unfold State.takeHead at h
  split at h
  · rename_i g rest hrx
    split at h
    · rename_i hk; cases h; exact ⟨rest, hrx, hk, rfl⟩
    · cases h
  · cases h

theorem Sound.takeHead {s s' : State} {k : RequestKind} {f : RxFrame} (h : s.takeHead k = some (f, s')) : Sound s s' := by
  obtain ⟨rest, hrx, -, rfl⟩ := State.takeHead_some h
  refine .setLiu s _ fun hl => { hl with rx := ?_ }
  have hlen := hl.rx
  rw [hrx, List.length_cons] at hlen
  exact Nat.le_of_succ_le hlen

theorem Sound.refuseShort (s : State) (f : RxFrame) : Sound s (s.refuseShort f) := .refuse s _ _ _ _ _

/-! ## New entries -/

theorem State.ortFull_eq_false_iff {s : State} : s.ortFull = false ↔ s.ort.length < 8 := by
  unfold State.ortFull ortPlaces
  rw [decide_eq_false_iff_not, Nat.not_le]

theorem State.blocked_eq_false_iff {s : State} {slots : List Slot} : s.blocked slots = false ↔ Unblocked slots s := by
  simp only [State.blocked, List.any_eq_false, Bool.or_eq_true, not_or, Bool.not_eq_true, Option.isSome_eq_false_iff,
    State.holder?_isNone_iff, State.awaited_eq_false_iff, Unblocked]
  exact ⟨fun h i hi e he => ⟨(h i hi).1 e he, (h i hi).2 e he⟩,
    fun h i hi => ⟨fun e he => (h i hi e he).1, fun e he => (h i hi e he).2⟩⟩

/-- A fresh entry lists its slots. -/
theorem Entry.holds_fresh {j : Job} {slots : List Slot} {e : Entry} {slot : Slot}
    (he : e.slots = (Entry.fresh j slots .matched).slots) (h : e.holds slot = true) : slot ∈ slots := by
  obtain ⟨-, x, hx, rfl, -⟩ := Entry.holds_iff.mp h
  rw [he] at hx
  obtain ⟨y, hy, rfl⟩ := List.mem_map.mp hx
  exact hy

/-- A new entry on slots, waiting or made active by `active`. -/
theorem Sound.createEntry (s : State) {e : Entry} {j : Job} {slots : List Slot} {active : State → State}
    (hroom : s.ort.length < 8) (hnew : s.entry? e.job = none) (hslots : e.slots = (Entry.fresh j slots .matched).slots)
    (hactive : Sound (s.addEntry e) (active (s.addEntry e))) : Sound s (s.createEntry e slots active) := by
  unfold State.createEntry
  split
  · refine .addEntry s _ hroom hnew fun i hi => ?_
    obtain ⟨hstage, -⟩ := Entry.holds_iff.mp hi
    exact absurd rfl hstage
  · rename_i hblocked
    have hfree := State.blocked_eq_false_iff.mp (Bool.not_eq_true _ ▸ hblocked)
    exact (Sound.addEntry s e hroom hnew fun i hi d hd => (hfree i (Entry.holds_fresh hslots hi) d hd).1).trans hactive

/-- In a table that a new entry has joined, the entry of its key is that one. -/
theorem State.eq_of_job_addEntry {s : State} {e d : Entry} (hnew : s.entry? e.job = none) (hd : d ∈ (s.addEntry e).ort)
    (hj : d.job = e.job) : d = e := by
  rcases List.mem_append.mp hd with h | h
  · exact absurd hj (State.entry?_none_iff.mp hnew d h)
  · exact List.mem_singleton.mp h

theorem State.mayStart_addEntry {s : State} {e : Entry} (hnew : s.entry? e.job = none) (h : e.stage ≠ .waiting) :
    (s.addEntry e).MayStart e.job := by
  intro _ d hd hj
  obtain rfl := State.eq_of_job_addEntry hnew hd hj
  exact .inl h

theorem State.mayHold_addEntry {s : State} {e : Entry} {j : Job} {slots : List Slot} (hnew : s.entry? e.job = none)
    (h : e.stage ≠ .waiting) (hslots : e.slots = (Entry.fresh j slots .matched).slots) : (s.addEntry e).MayHold e.job slots := by
  intro _ d hd hj i hi
  obtain rfl := State.eq_of_job_addEntry hnew hd hj
  refine .inl (Entry.holds_iff.mpr ⟨h, EntrySlot.fresh i, ?_, rfl, by simp [EntrySlot.fresh]⟩)
  rw [hslots]
  exact List.mem_map_of_mem hi

/-! ## Placement -/

theorem Sound.makeOffer (s : State) (t : Ticket) (slot : Slot) (c : CallFields) {want : Nat} (hroom : s.ort.length < 8)
    (hnew : s.entry? (placeJob t) = none) (hcand : Candidate want slot s) : Sound s (s.makeOffer t slot c) := by
  obtain ⟨-, -, -, -, -, hfree⟩ := hcand
  have hmade := (Sound.addEntry s (placeEntry t slot c) hroom hnew fun i hi d hd => by
    obtain rfl := List.mem_singleton.mp (Entry.holds_fresh (j := placeJob t) (slots := [slot]) rfl hi)
    exact (hfree d hd).1).trans (.change_parcel _ slot (CompRec.offeredTo t) c.carrier fun _ _ => .inl rfl)
  unfold State.makeOffer
  dsimp only
  split
  · split
    · exact ((hmade.trans (.placed _ _)).trans (.raise _ _ _)).trans (.count _ _ _ _)
    · exact (hmade.trans (.placed _ _)).trans (.count _ _ _ _)
  · exact ((hmade.trans (.placed _ _)).trans (.endPromise _ _ _)).trans (.raise _ _ _)

theorem State.choose_candidate {s : State} {want : Nat} {slot : Slot} (h : s.choose want = some slot) : Candidate want slot s :=
  ((theSmallestLeastUsedCandidateIsChosen s want).1 slot h).1

theorem Sound.takeCall (s : State) (f : RxFrame) (c : CallFields) : Sound s (s.takeCall f c) := by
  unfold State.takeCall
  split
  · exact .refl s
  · rename_i hnew
    split
    · exact .refl s
    · split
      · exact .refl s
      · rename_i slot hslot
        split
        · exact .refusalEvent s _ _
        · rename_i hroom
          exact .makeOffer s _ slot c (State.ortFull_eq_false_iff.mp (Bool.not_eq_true _ ▸ hroom)) (by simpa using hnew)
            (State.choose_candidate hslot)

theorem State.newParcel_minutes (s : State) (e : Entry) (d : DetailFields) :
    (s.newParcel e d).deposit = s.clk.minute ∧ (s.newParcel e d).settled = none := by
  unfold State.newParcel
  split <;> exact ⟨rfl, rfl⟩

theorem Sound.acceptDetail (s : State) {e : Entry} (slot : Slot) (d : DetailFields) (he : s.entry? e.job = some e)
    (hactive : e.stage ≠ .waiting) : Sound s (s.acceptDetail e slot d) := by
  unfold State.acceptDetail
  split
  · exact .refl s
  · rename_i r hr
    dsimp only
    have hchange : Sound s (s.change slot { r with state := .held e.ticket (some (s.newParcel e d)) } 0) := by
      refine .change s slot _ 0 fun hb _ _ _ p hp => ?_
      cases hp
      obtain ⟨hdeposit, hsettled⟩ := s.newParcel_minutes e d
      rw [hdeposit, hsettled]
      exact ⟨hb.clk.minute, fun _ hz => by cases hz⟩
    have hstage := hchange.trans (.updEntry_active _ (e := e) (by rw [(frame_change _ _ _ _).entry?]; exact he) hactive
      (fun e => { e with stage := .door, timer := none, ref := d.ref }) (fun _ => rfl) (fun _ => rfl))
    split
    · rename_i h; exact hstage.trans (.attach h)
    · exact hstage.trans (.releaseDetail _ _ _)

theorem Sound.refuseDetail (s : State) (f : RxFrame) (d : DetailFields) (r : Reason) : Sound s (s.refuseDetail f d r) :=
  .refuse s _ _ _ _ _

theorem Sound.takeDetail (s : State) (f : RxFrame) (d : DetailFields) : Sound s (s.takeDetail f d) := by
  unfold State.takeDetail
  split
  · exact .refuseDetail s _ _ _
  · rename_i e he
    split
    · exact .refl s
    · rename_i slot hstage _
      split
      · unfold State.detailHeld
        split
        · dsimp only
          split
          · exact .refuseDetail s _ _ _
          · exact (Sound.refuseDetail s _ _ _).trans (.finishEntry _ _)
        · split
          · exact .refuseDetail s _ _ _
          · exact .acceptDetail s slot d (by rw [(State.entry?_some he).2]; exact he) (by rw [hstage]; decide)
      · exact .refuseDetail s _ _ _
    · exact .refuseDetail s _ _ _

theorem Sound.lapse (s : State) (e : Entry) : Sound s (s.lapse e) := by
  unfold State.lapse
  split
  · exact (Sound.withdrawOffer s _).trans (.endPromise _ _ _)
  · exact .endPromise s _ _
  · exact .finishEntry s _
  · exact .finishEntry s _
  · exact .finishEntry s _
  · exact .finishEntry s _
  · exact .finishEntry s _
  · exact .refl s
  · exact .refl s

/-! ## Collection and payment -/

theorem Sound.searchCode (s : State) (t : Ticket) (code : Nat) (hnew : s.entry? (collectJob t) = none) :
    Sound s (s.searchCode t code) := by
  unfold State.searchCode
  split
  · split
    · exact .refuse s _ _ _ _ _
    · rename_i hroom
      refine .createEntry s (j := collectJob t) (State.ortFull_eq_false_iff.mp (Bool.not_eq_true _ ▸ hroom)) hnew rfl
        (.activateCollect _ _ _ (State.mayHold_addEntry (e := collectEntry t _ code) (j := collectJob t) hnew nofun rfl))
  · split
    · exact .refuseSlot s _ _ _
    · exact .refl s

theorem CompState.parcel?_of_payable? {c : CompState} {p : Parcel} (h : c.payable? = some p) : c.parcel? = some p := by
  unfold CompState.payable? at h
  split at h
  · split at h
    · exact h
    · cases h
  · split at h
    · exact h
    · cases h
  all_goals cases h

theorem CompState.parcel?_withParcel {c : CompState} {p q : Parcel} (h : (c.withParcel p).parcel? = some q) : q = p := by
  cases c <;> cases h <;> rfl

theorem State.paidParcel_minutes (s : State) (slot : Slot) (p : Parcel) (amount : Nat) :
    (s.paidParcel slot p amount).deposit = p.deposit
      ∧ ((s.paidParcel slot p amount).settled = p.settled ∨ (s.paidParcel slot p amount).settled = some s.clk.minute) := by
  unfold State.paidParcel
  dsimp only
  split
  · exact ⟨rfl, .inr rfl⟩
  · exact ⟨rfl, .inl rfl⟩

theorem Sound.recordPayment (s : State) (t : Ticket) (slot : Slot) {r : CompRec} {p : Parcel} (q : BitVec 16) (amount : Nat)
    (hr : s.rec? slot = some r) (hp : r.state.payable? = some p) : Sound s (s.recordPayment t slot r p q amount) := by
  refine ((Sound.change s slot _ 0 fun hb old hold htime x hx => ?_).trans (.restartLapse _ _)).trans (.await _ _ _)
  rw [hr] at hold
  cases hold
  obtain rfl := CompState.parcel?_withParcel hx
  obtain ⟨hdeposit, hsettled⟩ := htime p (CompState.parcel?_of_payable? hp)
  obtain ⟨hd, hz⟩ := s.paidParcel_minutes slot p amount
  refine ⟨hd ▸ hdeposit, fun z hzz => ?_⟩
  rcases hz with hz | hz
  · exact hsettled z (hz ▸ hzz)
  · rw [hz] at hzz; cases hzz; exact hb.clk.minute

theorem Sound.takePayment (s : State) (f : RxFrame) (d : PayFields) : Sound s (s.takePayment f d) := by
  unfold State.takePayment
  split
  · exact .refuse s _ _ _ _ _
  · split
    · exact .refuse s _ _ _ _ _
    · split
      · exact .refuse s _ _ _ _ _
      · rename_i r hr
        split
        · exact .refuse s _ _ _ _ _
        · rename_i p hp
          exact .recordPayment s _ _ _ _ hr hp

theorem Sound.goMatched (s : State) (j : Job) (slot : Slot) : Sound s (s.goMatched j slot) := by
  unfold State.goMatched
  split
  · exact (Sound.refuseSlot s _ _ _).trans (.slotDone _ _ _)
  · exact (Sound.refuseSlot s _ _ _).trans (.slotDone _ _ _)
  · exact .refuseUnpaid s _ _
  · exact ((Sound.setProgress s _ _ _).trans (.restartLapse _ _)).trans (.askDoor _ _)

theorem Sound.goSlot (j : Job) (s : State) (slot : Slot) : Sound s (State.goSlot j s slot) := by
  refine Sound.trans ?_ (.settle _ _)
  split
  · exact .refuseSlot s _ _ _
  · exact .refuseSlot s _ _ _
  · exact .refl s
  · exact .goMatched s _ _

theorem Sound.takeCollectGo (s : State) (f : RxFrame) (g : GoFields) : Sound s (s.takeCollectGo f g) := by
  unfold State.takeCollectGo
  split
  · exact .refuse s _ _ _ _ _
  · split
    · exact .refuse s _ _ _ _ _
    · split
      · exact .refuse s _ _ _ _ _
      · exact (Sound.restartLapse s _).trans (.foldl (Sound.goSlot _) _ _)

/-! ## Sweep -/

theorem Sound.searchCarrier (s : State) (t : Ticket) (carrier : Nat) (hnew : s.entry? (sweepJob t) = none) :
    Sound s (s.searchCarrier t carrier) := by
  unfold State.searchCarrier
  dsimp only
  split
  · exact .refl s
  · split
    · exact .refuse s _ _ _ _ _
    · rename_i hroom
      refine .createEntry s (j := sweepJob t) (State.ortFull_eq_false_iff.mp (Bool.not_eq_true _ ▸ hroom)) hnew rfl
        (.activateSweep _ _ _ (State.mayHold_addEntry (e := sweepEntry t _ carrier _) (j := sweepJob t) hnew nofun rfl))

theorem Sound.dropSwept (j : Job) (s : State) (slot : Slot) : Sound s (State.dropSwept j s slot) :=
  (Sound.removeSlot s j slot).trans (.settle _ _)

theorem Sound.askSweep (j : Job) (s : State) (slot : Slot) : Sound s (State.askSweep j s slot) :=
  (Sound.setProgress s _ _ _).trans (.askDoor _ _)

theorem Sound.refuseSwept (s : State) (j : Job) (refused : List Slot) : Sound s (s.refuseSwept j refused) := by
  cases refused with
  | nil => exact .refl s
  | cons x rest => exact (Sound.refuseSlot s _ _ _).trans (.foldl (Sound.dropSwept j) _ _)

theorem Sound.judgeNamed (s : State) (e : Entry) (named : List Slot) : Sound s (s.judgeNamed e named) := by
  unfold State.judgeNamed
  dsimp only
  split
  · exact (Sound.refuseSwept s _ _).trans (.finishEntry _ _)
  · exact (Sound.refuseSwept s _ _).trans (.foldl (Sound.askSweep _) _ _)

theorem Sound.goSweep (s : State) {e : Entry} (g : GoFields) (he : s.entry? e.job = some e) (hactive : e.stage ≠ .waiting) :
    Sound s (s.goSweep e g) :=
  ((Sound.toStage s _ _ _ (State.mayStart_of_active he hactive)).trans (.foldl (Sound.dropSwept _) _ _)).trans
    (.judgeNamed _ _ _)

theorem Sound.takeSweepGo (s : State) (f : RxFrame) (g : GoFields) : Sound s (s.takeSweepGo f g) := by
  unfold State.takeSweepGo
  split
  · exact .refuse s _ _ _ _ _
  · rename_i e he
    split
    · exact .refuse s _ _ _ _ _
    · rename_i hwaiting
      split
      · exact .refl s
      · split
        · exact .refuse s _ _ _ _ _
        · split
          · exact .refuse s _ _ _ _ _
          · exact .goSweep s g (by rw [(State.entry?_some he).2]; exact he) hwaiting

/-! ## Queries and time -/

theorem Sound.answerSlot (s : State) (f : RxFrame) (n part : Nat) : Sound s (s.answerSlot f n part) := by
  unfold State.answerSlot
  split
  · exact .refuse s _ _ _ _ _
  · split
    · exact .refuse s _ _ _ _ _
    · split
      · exact .refuse s _ _ _ _ _
      · split
        · exact .answer s _ _
        · exact .refuse s _ _ _ _ _

/-- Attention is recomputed with the conditions. -/
theorem Sound.setRpt (s : State) (x : Rpt) (h : s.rpt.attention = attentionOf s.rpt.conds s.conf.enables →
    x.attention = attentionOf x.conds s.conf.enables) : Sound s (s.setRpt x) where
  bounds hb := { hb with attention := h hb.attention }
  apart := id
  loaded := rfl

theorem Sound.setOut (s : State) (x : Out) : Sound s (s.setOut x) := .light ((frame_setOut s x).mono (by decide))

theorem Sound.setAux (s : State) (v : Vector Nat 4) : Sound s (s.setAux v) :=
  (Sound.setOut s { s.out with
    auxDemand := Vector.ofFn (fun i : Fin 4 => settingDemand v[i] s.out.auxDemand[i] s.conf.auxDefault[i]) }).trans
    (.refreshOutputs _)

theorem Sound.writeMinute (s : State) (value : Nat) (tick : Bool) (h : LiveBounds s → value ≤ 4294967295) :
    Sound s (s.writeMinute value tick) where
  bounds hb := { hb with
    minutes := ⟨hb.minutes.copyA, hb.minutes.copyB, fun w hw => by
      rcases List.mem_append.mp hw with hw | hw
      · exact hb.minutes.writes w hw
      · rw [List.mem_singleton.mp hw]; exact h hb⟩ }
  apart := id
  loaded := rfl

theorem byteAt_lt (p : List Byte) (i : Nat) : byteAt p i < 256 := (p.getD i 0).isLt

theorem quadAt_le (p : List Byte) (i : Nat) : quadAt p i ≤ 4294967295 := by
  have h0 := byteAt_lt p i
  have h1 := byteAt_lt p (i + 1)
  have h2 := byteAt_lt p (i + 2)
  have h3 := byteAt_lt p (i + 3)
  simp only [quadAt, tripleAt, wordAt]
  omega

theorem Sound.acceptTime (s : State) (hold : Nat) (h : hold ≤ 1440) : Sound s (s.acceptTime hold) :=
  .setClk s _ fun hb => ⟨hb.clk.minute, h, Nat.zero_le _⟩

theorem Sound.takeTime (s : State) (m : Nat) (h : m ≤ 4294967295) : Sound s (s.takeTime m) := by
  unfold State.takeTime
  dsimp only
  split
  · exact (Sound.writeMinute s m false fun _ => h).trans (.acceptTime _ 0 (Nat.zero_le _))
  · split
    · rename_i hahead; exact .acceptTime s _ hahead
    · exact .raise s _ _

/-! ## Services -/

theorem Sound.newService (s : State) (t : Ticket) (sub : ServiceKind) (slot : Slot) : Sound s (s.newService t sub slot) := by
  unfold State.newService
  split
  · exact .refl s
  · rename_i hold
    have hnew : s.entry? (serviceJob t) = none := by simpa using hold
    split
    · exact .refuse s _ _ _ _ _
    · rename_i hroom
      refine .createEntry s (j := serviceJob t) (State.ortFull_eq_false_iff.mp (Bool.not_eq_true _ ▸ hroom)) hnew rfl
        (.activateService _ _ _ _ (State.mayStart_addEntry (e := serviceEntry t slot sub) hnew nofun))

theorem Sound.takeService (s : State) (f : RxFrame) (sub : ServiceKind) (d : TicketValue) : Sound s (s.takeService f sub d) := by
  unfold State.takeService
  split
  · exact .refuse s _ _ _ _ _
  · split
    · exact .newService s _ _ _
    · exact .refuse s _ _ _ _ _

theorem Sound.service (s : State) (k : RequestKind) (sub : ServiceKind) : Sound s (s.service k sub) := by
  unfold State.service
  split
  · exact .refl s
  · rename_i h
    split
    · exact ((Sound.takeHead h).trans (.refuseShort _ _)).concluded
    · exact ((Sound.takeHead h).trans (.takeService _ _ _ _)).concluded

theorem Sound.withdrawForRestart (s : State) : Sound s s.withdrawForRestart := by
  unfold State.withdrawForRestart
  split
  · split
    · exact .refl s
    · exact (Sound.removeNote s).trans (.setOwn _ _)
  all_goals exact .refl s

end Sys2Proof.Machine
end

