-- ==== Sys2Proof/Proofs/SoundSensors.lean ====
section
/- One theorem after another: side by side, their proofs ask for more threads than the check's memory limit allows. -/
set_option Elab.async false

/-! SUPPORT. That the sensor events, the ends of the custody store's writes and the passing of time keep the invariants. -/

namespace Sys2Proof.Machine

/-! ## Sensors -/

theorem boltStep_le {up : Bool} {n : Nat} (h : n ≤ 15) : boltStep up n ≤ 15 := by
  unfold boltStep
  split
  · exact Nat.min_le_right _ _
  · omega

theorem Sound.takeGates (s : State) (slot : Slot) (now : Bool × Bool) : Sound s (s.takeGates slot now) :=
  (Sound.setSense s slot { s.sense slot with gates := some now } id).trans (.refreshIdle _ _)

/-- One of two states that both follow soundly. -/
theorem Sound.ite {p : Prop} [Decidable p] {s t u : State} (ht : Sound s t) (hu : Sound s u) :
    Sound s (if p then t else u) := by
  split
  exacts [ht, hu]

/-- A counted step up to the window check: the new count, and what the slot's cycle makes of it (R32, R46, R52). -/
def State.stepTaken (slot : Slot) (up : Bool) (s : State) : State :=
  let x := s.sense slot
  let y := x.stepped up
  let s := (s.setSense slot y).refreshIdle slot
  let s := if x.secure && !y.secure then s.onCycle slot Cycle.onBoltOff else s
  if up && decide (s.conf.threshold ≤ y.bolt) then s.onCycle slot Cycle.onBoltReached else s

/-- A step taken to the threshold outside the expected window is a forced report (R34). -/
theorem State.countStep_eq (s : State) (slot : Slot) (up : Bool) : s.countStep slot up =
    (if up && (s.sense slot).bolt + 1 == (s.stepTaken slot up).conf.threshold
        && ((s.sense slot).stepped up).bolt == (s.stepTaken slot up).conf.threshold && !(s.stepTaken slot up).windowOpen slot
      then (s.stepTaken slot up).forcedReport slot else s.stepTaken slot up) := rfl

theorem Sound.stepTaken (s : State) (slot : Slot) (up : Bool) : Sound s (s.stepTaken slot up) :=
  (((Sound.setSense s slot ((s.sense slot).stepped up) boltStep_le).trans (.refreshIdle _ slot)).trans
    (.ite (.onCycle _ _ _) (.refl _))).trans (.ite (.onCycle _ _ _) (.refl _))

theorem Sound.countStep (s : State) (slot : Slot) (up : Bool) : Sound s (s.countStep slot up) := by
  rw [State.countStep_eq]
  exact (Sound.stepTaken s slot up).trans (.ite (.forcedReport _ _) (.refl _))

theorem Sound.takeEdge (s : State) (slot : Slot) (gate : Gate) (now : Bool × Bool) : Sound s (s.takeEdge slot gate now) := by
  unfold State.takeEdge
  dsimp only
  split
  · exact (Sound.takeGates s _ _).trans (.countStep _ _ _)
  · exact .takeGates s _ _

theorem Sound.setDoor (s : State) (slot : Slot) (b : Bool) : Sound s (s.setDoor slot b) :=
  ((Sound.setPin s slot fun p => { p with door := b != s.conf.doorPolarity }).trans (.setSense _ slot { s.sense slot with
    door := some b, doorTimer := 0 } id)).trans (.refreshIdle _ _)

theorem Sound.setPresence (s : State) (slot : Slot) (b : Bool) : Sound s (s.setPresence slot b) :=
  (Sound.setPin s slot fun p => { p with presence := b == s.conf.presencePolarity }).trans (.setSense _ slot { s.sense slot with
    presence := some b, presenceTimer := 0 } id)

theorem presenceRec_dropsOrKeeps (r : CompRec) (on : Bool) : DropsOrKeeps r.state (presenceRec r on).state := by
  unfold presenceRec
  split <;> exact .inr rfl

theorem Sound.flagCheck (s : State) (slot : Slot) (on : Bool) : Sound s (s.flagCheck slot on) := by
  unfold State.flagCheck
  split
  · exact .refl s
  · rename_i r hr
    have hchange := Sound.change_parcel s slot (presenceRec r on) 0 (forall_rec hr (presenceRec_dropsOrKeeps r on))
    split
    · exact .refl s
    · dsimp only
      split
      · exact hchange.trans (.raise _ _ _)
      · exact hchange

theorem Sound.limitReached (s : State) (c : Cycle) : Sound s (s.limitReached c) := by
  unfold State.limitReached
  split
  · exact .endCycle s _ _ _
  · exact .setCycle s _

/-! ## Record writes -/

theorem Sound.releaseAll (s : State) (slot : Slot) (ws : List Waiter) : Sound s (s.releaseAll slot ws) :=
  .foldl (fun s w => (Sound.release s slot w).trans (.settle _ _)) _ _

theorem Sound.writeAgain (s : State) (slot : Slot) : Sound s (s.writeAgain slot) := by
  unfold State.writeAgain
  split
  · exact .beginWrite s _ _ _
  · exact .refl s

/-- A copy is replaced by one that carries its check word where it passes, and whose record lies in time. -/
theorem SlotStore.Sound.setCopy {slot : Slot} {x : SlotStore} (h : x.Sound slot) {toB : Bool} {c : RecCopy}
    (hcheck : c.ok = true → c.check = recordCheck slot c.gen c.content) (htime : c.content.inTime) :
    (x.setCopy toB c).Sound slot := by
  cases toB
  · exact ⟨fun isB => by cases isB; exacts [hcheck, h.checks true], htime, h.copyB, h.writing⟩
  · exact ⟨fun isB => by cases isB; exacts [h.checks false, hcheck], h.copyA, htime, h.writing⟩

theorem Sound.writeMatched (s : State) {slot : Slot} {w : RecWrite} (h : (s.store slot).writing = some w) :
    Sound s (s.writeMatched slot w) := by
  refine ((Sound.setStore s slot _ fun hb => ?_).trans (.writeAgain _ _)).trans (.releaseAll _ _ _)
  have hcopy := (hb.stores slot).setCopy (toB := w.toB) (c := RecCopy.written slot w.gen w.content)
    (fun _ => RecCopy.written_check ..) ((hb.stores slot).writing w h)
  exact hcopy.of_eq rfl rfl (fun _ hw => by cases hw)

theorem SlotStore.Sound.copyInTime {slot : Slot} {x : SlotStore} (h : x.Sound slot) (isB : Bool) :
    (x.copy isB).content.inTime := by
  cases isB
  exacts [h.copyA, h.copyB]

theorem Sound.tearTarget (s : State) (slot : Slot) (w : RecWrite) : Sound s (s.tearTarget slot w) := by
  refine Sound.trans (.setStore s slot _ fun hb => ?_) (.setFree _ _)
  have hx := hb.stores slot
  obtain ⟨hgen, hcontent, hcheck, hok⟩ := RecCopy.torn_holds ((s.store slot).copy w.toB) s.free
  have hcopy := hx.setCopy (toB := w.toB) (c := ((s.store slot).copy w.toB).torn s.free)
    (fun h => by rw [hgen, hcontent, hcheck]; exact hx.checks w.toB (hok h)) (hcontent ▸ hx.copyInTime w.toB)
  exact hcopy.of_eq rfl rfl (fun _ hw => by cases hw)

theorem Sound.storeFault (s : State) (slot : Slot) : Sound s (s.storeFault slot) := by
  unfold State.storeFault
  split
  · exact .refl s
  · rename_i r hr
    have hrec := Sound.setRec s slot (r.faulted .store r.state.parcel?) fun hb =>
      CompRec.inTime_of_dropsOrKeeps (.inr rfl) (hb.records slot r hr)
    exact (hrec.trans (.enterEvent _ _ _ _)).trans (.raise _ _ _)

theorem Sound.writeEnded (s : State) {slot : Slot} {w : RecWrite} (matched : Bool) (h : (s.store slot).writing = some w) :
    Sound s (s.writeEnded slot w matched) := by
  unfold State.writeEnded
  split
  · exact .writeMatched s h
  · split
    · refine .setStore s slot _ fun hb => (hb.stores slot).of_eq rfl rfl fun v hv => ?_
      cases hv
      exact (hb.stores slot).writing w h
    · split
      · exact ((Sound.tearTarget s slot w).trans (.writeAgain _ _)).trans (.releaseAll _ _ _)
      · exact (((Sound.tearTarget s slot w).trans (.storeFault _ _)).trans (.beginWrite _ _ _ _)).trans (.releaseAll _ _ _)

/-! ## Counts and minutes -/

theorem CountCopy.Sound.torn {what : Config.Retained} {most : Nat} {c : CountCopy} (h : c.Sound what most) (n : Nat) :
    (c.torn n).Sound what most := by
  obtain ⟨hvalue, hcheck, hok⟩ := CountCopy.torn_holds c n
  exact ⟨hvalue ▸ h.value, fun ht => by rw [hcheck, hvalue]; exact h.check (hok ht)⟩

theorem CountCopy.Sound.written {what : Config.Retained} {most n : Nat} (h : n ≤ most) :
    (CountCopy.written what n).Sound what most := ⟨h, fun _ => rfl⟩

theorem Locks.Sound.beginAgain {x : Locks} (h : x.Sound) : (if x.again then x.begin else x).Sound := by
  split
  exacts [h.begin, h]

theorem Locks.Sound.ended {x : Locks} (h : x.Sound) {toB : Bool} {value : Nat} (hw : x.writing = some (toB, value)) (ok : Bool)
    (free : Nat) : (x.ended toB value ok free).Sound := by
  have hcopy {c : CountCopy} (hc : c.Sound .lockCount 16777215) :
      (if ok then CountCopy.written .lockCount value else c.torn free).Sound .lockCount 16777215 := by
    split
    exacts [.written (h.writing _ hw), hc.torn free]
  cases toB
  · exact Locks.Sound.beginAgain (x := { x with
      a := if ok then CountCopy.written .lockCount value else x.a.torn free, writing := none })
      ⟨h.count, hcopy h.copyA, h.copyB, fun _ hn => by cases hn⟩
  · exact Locks.Sound.beginAgain (x := { x with
      b := if ok then CountCopy.written .lockCount value else x.b.torn free, writing := none })
      ⟨h.count, h.copyA, hcopy h.copyB, fun _ hn => by cases hn⟩

theorem LiveBounds.lastMinute {s : State} (h : LiveBounds s) : s.lastMinute ≤ 4294967295 := by
  unfold State.lastMinute
  split
  · rename_i w hw; exact h.minutes.writes w (List.mem_of_getLast? hw)
  · exact h.clk.minute

theorem tickValue_le {hold base : Nat} (h : base ≤ 4294967295) : tickValue hold base ≤ 4294967295 := by
  unfold tickValue
  split
  · exact h
  · exact Nat.min_le_right _ _

theorem Sound.minuteTick (s : State) : Sound s s.minuteTick := by
  refine (Sound.writeMinute s _ true fun hb => tickValue_le hb.lastMinute).trans (.setClk _ _ fun hb => ?_)
  exact ⟨hb.clk.minute, Nat.le_trans (Nat.sub_le _ _) hb.clk.hold, Nat.min_le_right _ _⟩

theorem Sound.scanSlot (s : State) (slot : Slot) : Sound s (s.scanSlot slot) := by
  unfold State.scanSlot
  split
  · exact .refl s
  · split
    · split
      · split
        · exact .updSlot s _ slot _ (fun _ => rfl) (fun _ h => h)
        · exact .expire s slot
      · exact .refl s
    · exact .refl s

theorem minuteCopyEnded_sound {c : CountCopy} {value : Nat} (hc : c.Sound .minute 4294967295) (hv : value ≤ 4294967295)
    (ok : Bool) (free : Nat) : (minuteCopyEnded c value ok free).Sound .minute 4294967295 := by
  unfold minuteCopyEnded
  split
  · exact .written hv
  · exact hc.torn free

theorem Sound.minuteEnded (s : State) {w : MinuteWrite} {rest : List MinuteWrite} (h : s.cts.minuteWrites = w :: rest)
    (ok : Bool) : Sound s (s.setCts (s.cts.minuteEnded w rest ok s.free)) := by
  have hrest {v : MinuteWrite} (hv : v ∈ rest) : v ∈ s.cts.minuteWrites := h ▸ List.mem_cons_of_mem _ hv
  have hhead : w ∈ s.cts.minuteWrites := h ▸ List.mem_cons_self ..
  unfold Cts.minuteEnded
  split
  · exact ⟨fun hb => { hb with minutes := ⟨hb.minutes.copyA,
      minuteCopyEnded_sound hb.minutes.copyB (hb.minutes.writes w hhead) ok s.free,
      fun v hv => hb.minutes.writes v (hrest hv)⟩ }, id, rfl⟩
  · exact ⟨fun hb => { hb with minutes := ⟨
      minuteCopyEnded_sound hb.minutes.copyA (hb.minutes.writes w hhead) ok s.free, hb.minutes.copyB,
      fun v hv => hb.minutes.writes v (hrest hv)⟩ }, id, rfl⟩

/-! ## One millisecond -/

theorem Apart.withTimers {x : List Entry} (h : Apart x) (f : Option Nat → Option Nat) :
    Apart (x.map (fun e => { e with timer := f e.timer })) :=
  List.pairwise_map.mpr (h.imp id)

theorem frame_passMs (s : State) :
    UnchangedBut [.sensing, .doors, .level, .pulses, .drivers, .requests, .clock, .line] s s.passMs := by
  intro p hp; cases p <;> simp_all [Part.same, State.passMs, Bgu.passed]

theorem State.passMs_sense (s : State) (i : Slot) :
    s.passMs.sense i = if s.fitted i then (s.sense i).passed s.conf (tget s.pins i) else s.sense i := by
  simp only [State.sense, State.passMs, tget_tabulate]

/-- A millisecond moves timers only. -/
theorem Sound.passMs (s : State) : Sound s s.passMs where
  bounds hb := by
    have h := frame_passMs s
    obtain ⟨hcheck, hfail, hdrop, hrole⟩ : Part.errors.same s s.passMs := h _ (by decide)
    obtain ⟨hmA, hmB, -, hmw⟩ : Part.minutes.same s s.passMs := h _ (by decide)
    obtain ⟨hcs, -, -⟩ : Part.causes.same s s.passMs := h _ (by decide)
    obtain ⟨hmark, hmarkOk⟩ : Part.mark.same s s.passMs := h _ (by decide)
    obtain ⟨htx, hrx, hfaults, hfails, hdrops, hroles⟩ := hb.liu
    exact
      { liu := ⟨by rwa [h.tx], by rwa [h.rx], by rwa [hcheck], by rwa [hfail], by rwa [hdrop], by rwa [hrole]⟩
        places := Nat.le_trans (Nat.le_of_eq (List.length_map _)) hb.places
        bolt := fun i => by
          rw [State.passMs_sense]
          split
          exacts [hb.bolt i, hb.bolt i]
        level := hb.level
        pulses := Nat.le_trans (Nat.le_of_eq (List.length_map _)) hb.pulses
        clk := ⟨hb.clk.minute, hb.clk.hold, hb.clk.age⟩
        locks := fun i => by rw [h.locksOf]; exact hb.locks i
        minutes := ⟨by rw [hmA]; exact hb.minutes.copyA, by rw [hmB]; exact hb.minutes.copyB,
          by rw [hmw]; exact hb.minutes.writes⟩
        records := fun i r => by rw [h.rec?]; exact hb.records i r
        stores := fun i => by rw [h.storeOf]; exact hb.stores i
        span := by rw [h.conf]; exact Nat.le_trans (Nat.le_of_eq (List.length_map _)) hb.span
        cycles := by
          simp only [Dsq.Apart, State.passMs, List.map_map]
          exact hb.cycles
        config := by rw [h.conf]; exact hb.config
        causes := by rw [hcs]; exact hb.causes
        mark := by rw [hmark, hmarkOk]; exact hb.mark
        attention := by rw [h.conds, h.attention, h.conf]; exact hb.attention }
  apart ha := Apart.withTimers ha advance
  loaded := (frame_passMs s).loaded

end Sys2Proof.Machine
end

