-- ==== Sys2Proof/Proofs/SoundCommands.lean ====
section
/- One theorem after another: side by side, their proofs ask for more threads than the check's memory limit allows. -/
set_option Elab.async false

/-! SUPPORT. That every command but a reset and the configuration read keeps the invariants. -/

namespace Sys2Proof.Machine

/-! ## Start-up -/

theorem Sound.of_resetCauseWrite {s t : State} {ok : Bool} (h : execResetCauseWrite ok s = .next t) : Sound s t := by
  cases h
  split
  · exact .refl s
  · exact (Sound.causeWriteEnded s _ _).trans (.afterCauseWrite _)

theorem Sound.of_baselineSettled {s t : State} {slot : Slot} {d p : Bool} (h : execBaselineSettled slot d p s = .next t) :
    Sound s t := by
  cases h
  split
  · exact (Sound.setPin s _ _).trans (.takeBaseline _ _ _ _)
  · exact .refl s

theorem Sound.of_baselineTimeout {s t : State} {slot : Slot} {d p : Option Bool} (h : execBaselineTimeout slot d p s = .next t) :
    Sound s t := by
  cases h
  split
  · exact (Sound.setPin s _ _).trans (.takeBaseline _ _ _ _)
  · exact .refl s

theorem Sound.of_reconciliation {s t : State} {slot : Slot} (h : execReconciliation slot s = .next t) : Sound s t := by
  cases h
  split
  · split
    · exact .reconcile s _ _ _
    · exact .refl s
  · exact .refl s

/-- Start-up goes on only from reconciliation. -/
theorem State.phase_of_readyToJoin {s : State} (h : s.readyToJoin = true) : s.phase = .reconciling := by
  unfold State.readyToJoin at h
  rw [Bool.and_eq_true, beq_iff_eq] at h
  exact h.1

theorem Sound.of_joiningEntry {s t : State} (h : execJoiningEntry s = .next t) : Sound s t := by
  cases h
  split
  · rename_i hready
    have hphase := State.phase_of_readyToJoin hready
    exact ((Sound.setPhase s .running (by simp [State.loaded, hphase])).trans
      (.setLiu _ { s.liu with line := .joining, timer := 0 } fun h => { h with })).trans
      (.setBgu _ { s.bgu with age := some 0 } id fun hb => hb.pulses)
  · exact .refl s

theorem Sound.of_joiningEnd {s t : State} (h : execJoiningEnd s = .next t) : Sound s t := by
  cases h
  split
  · exact ((Sound.queueFrame s _).trans (.setLiu _ { (s.queueFrame s.announceFrame).liu with line := .active, timer := 0 }
      fun h => { h with })).concluded
  · exact .refl s

theorem Sound.of_quietEnd {s t : State} (h : execQuietEnd s = .next t) : Sound s t := by
  cases h
  split
  · exact .setLiu s _ fun h => { h with }
  · exact .refl s

/-! ## The line, levels, notes and drives -/

theorem Sound.of_transmissionStart {s t : State} (h : execTransmissionStart s = .next t) : Sound s t := by
  cases h
  dsimp only
  split
  · exact ((Sound.finishOwn s).trans (.startSending _)).concluded
  · exact (Sound.finishOwn s).concluded

theorem Sound.of_transmissionFailed {s t : State} {how : TxFailure} (h : execTransmissionFailed how s = .next t) :
    Sound s t := by
  cases h
  split
  · exact .refl s
  · exact ((Sound.setDrive s _).trans (.failSending _ _)).concluded

theorem Sound.of_frameVoided {s t : State} {f : Frame} (h : execFrameVoided f s = .next t) : Sound s t := by
  cases h
  split
  · dsimp only
    split
    · exact ((Sound.listening s).trans (.setDrive _ _)).concluded
    · exact ((Sound.listening s).trans (.void _)).concluded
  · exact .setDrive s _

theorem Sound.of_pulseNote {s t : State} {a : Arrival} (h : execPulseNote a s = .next t) : Sound s t := by
  cases h
  split
  · split
    · exact (Sound.arriveOwn s).concluded
    · exact .refl s
  · exact .arrive s _

theorem Sound.of_placeOffer {s t : State} {a : Arrival} (h : execPlaceOffer a s = .next t) : Sound s t := by
  cases h
  split
  · split
    · exact (Sound.arriveOwn s).concluded
    · exact .refl s
  · exact .arrive s _

theorem Sound.of_levelAgeExpiry {s t : State} (h : execLevelAgeExpiry s = .next t) : Sound s t := by
  cases h
  split
  · exact (Sound.fallBack s).concluded
  · exact .refl s

theorem Sound.of_driverOff {s t : State} {slot : Slot} (h : execDriverOff slot s = .next t) : Sound s t := by
  cases h
  split
  · exact ((Sound.setDriver s _ _).trans (.reportDriverOff _ _)).concluded
  · exact .refl s

/-! ## Requests -/

theorem Sound.of_placeCall {s t : State} (h : execPlaceCall s = .next t) : Sound s t := by
  cases h
  split
  · exact .refl s
  · rename_i hhead
    split
    · exact ((Sound.takeHead hhead).trans (.refusalEvent _ _ _)).concluded
    · split
      · exact ((Sound.takeHead hhead).trans (.takeCall _ _ _)).concluded
      · exact ((Sound.takeHead hhead).trans (.refusalEvent _ _ _)).concluded

theorem Sound.of_placeDetail {s t : State} (h : execPlaceDetail s = .next t) : Sound s t := by
  cases h
  split
  · exact .refl s
  · rename_i hhead
    split
    · exact ((Sound.takeHead hhead).trans (.refuseShort _ _)).concluded
    · exact ((Sound.takeHead hhead).trans (.takeDetail _ _ _)).concluded

theorem Sound.of_entryLapse {s t : State} {k : EntryKind} {tk : Ticket} (h : execEntryLapse k tk s = .next t) :
    Sound s t := by
  cases h
  split
  · exact .refl s
  · split
    · exact (Sound.lapse s _).concluded
    · exact .refl s

theorem Sound.of_collectCall {s t : State} (h : execCollectCall s = .next t) : Sound s t := by
  cases h
  split
  · exact .refl s
  · rename_i hhead
    split
    · exact ((Sound.takeHead hhead).trans (.refusalEvent _ _ _)).concluded
    · split
      · exact ((Sound.takeHead hhead).trans (.refusalEvent _ _ _)).concluded
      · split
        · exact .takeHead hhead
        · rename_i hold
          exact ((Sound.takeHead hhead).trans (.searchCode _ _ _ (by simpa using hold))).concluded

theorem Sound.of_sweepCall {s t : State} (h : execSweepCall s = .next t) : Sound s t := by
  cases h
  split
  · exact .refl s
  · rename_i hhead
    split
    · exact ((Sound.takeHead hhead).trans (.refusalEvent _ _ _)).concluded
    · split
      · exact ((Sound.takeHead hhead).trans (.refusalEvent _ _ _)).concluded
      · split
        · exact .takeHead hhead
        · rename_i hold
          exact ((Sound.takeHead hhead).trans (.searchCarrier _ _ _ (by simpa using hold))).concluded

theorem Sound.of_payNote {s t : State} (h : execPayNote s = .next t) : Sound s t := by
  cases h
  split
  · exact .refl s
  · rename_i hhead
    split
    · exact ((Sound.takeHead hhead).trans (.refuseShort _ _)).concluded
    · exact ((Sound.takeHead hhead).trans (.takePayment _ _ _)).concluded

theorem Sound.of_collectGo {s t : State} (h : execCollectGo s = .next t) : Sound s t := by
  cases h
  split
  · exact .refl s
  · rename_i hhead
    split
    · exact ((Sound.takeHead hhead).trans (.refuse _ _ _ _ _ _)).concluded
    · exact ((Sound.takeHead hhead).trans (.takeCollectGo _ _ _)).concluded

theorem Sound.of_sweepGo {s t : State} (h : execSweepGo s = .next t) : Sound s t := by
  cases h
  split
  · exact .refl s
  · rename_i hhead
    split
    · exact ((Sound.takeHead hhead).trans (.refuse _ _ _ _ _ _)).concluded
    · exact ((Sound.takeHead hhead).trans (.takeSweepGo _ _ _)).concluded

theorem Sound.of_freeQuery {s t : State} (h : execFreeQuery s = .next t) : Sound s t := by
  cases h
  split
  · exact .refl s
  · rename_i hhead
    exact ((Sound.takeHead hhead).trans (.answer _ _ _)).concluded

theorem Sound.of_countQuery {s t : State} (h : execCountQuery s = .next t) : Sound s t := by
  cases h
  split
  · exact .refl s
  · rename_i hhead
    exact ((Sound.takeHead hhead).trans (.answer _ _ _)).concluded

theorem Sound.clearCounters (s : State) : Sound s s.clearCounters := .setRpt s _ id

theorem Sound.of_countClear {s t : State} (h : execCountClear s = .next t) : Sound s t := by
  cases h
  split
  · exact .refl s
  · rename_i hhead
    exact (((Sound.takeHead hhead).trans (.answer _ _ _)).trans (.clearCounters _)).concluded

theorem Sound.of_statusQuery {s t : State} (h : execStatusQuery s = .next t) : Sound s t := by
  cases h
  split
  · exact .refl s
  · rename_i hhead
    split
    · exact ((Sound.takeHead hhead).trans (.answer _ _ _)).concluded
    · exact ((Sound.takeHead hhead).trans (.refuse _ _ _ _ _ _)).concluded

theorem Sound.of_slotQuery {s t : State} (h : execSlotQuery s = .next t) : Sound s t := by
  cases h
  split
  · exact .refl s
  · rename_i hhead
    split
    · exact ((Sound.takeHead hhead).trans (.answerSlot _ _ _ _)).concluded
    · exact ((Sound.takeHead hhead).trans (.refuse _ _ _ _ _ _)).concluded

theorem Sound.of_outputSet {s t : State} (h : execOutputSet s = .next t) : Sound s t := by
  cases h
  split
  · exact .refl s
  · rename_i hhead
    split
    · split
      · exact ((Sound.takeHead hhead).trans (.setAux _ _)).concluded
      · exact ((Sound.takeHead hhead).trans (.refuse _ _ _ _ _ _)).concluded
    · exact ((Sound.takeHead hhead).trans (.refuse _ _ _ _ _ _)).concluded

theorem decodeTime_le {p : List Byte} {m : Nat} (h : decodeTime p = some m) : m ≤ 4294967295 := by
  unfold decodeTime at h
  split at h
  · cases h; exact quadAt_le p 0
  · cases h

theorem Sound.of_time {s t : State} (h : execTime s = .next t) : Sound s t := by
  cases h
  split
  · exact .refl s
  · rename_i hhead
    split
    · rename_i hm
      exact ((Sound.takeHead hhead).trans (.takeTime _ _ (decodeTime_le hm))).concluded
    · exact .takeHead hhead

theorem Sound.of_alertClear {s t : State} (h : execAlertClear s = .next t) : Sound s t := by
  cases h
  split
  · exact .refl s
  · rename_i hhead
    split
    · exact ((Sound.takeHead hhead).trans (.setRpt _ _ fun _ => rfl)).concluded
    · exact .takeHead hhead

theorem Sound.setRestart (s : State) (b : Bool) : Sound s (s.setRestart b) :=
  .light ((frame_setRestart s b).mono (by decide))

theorem Sound.of_serviceRestart {s t : State} (h : execServiceRestart s = .next t) : Sound s t := by
  cases h
  split
  · exact .refl s
  · rename_i hhead
    exact (((Sound.takeHead hhead).trans (.setRestart _ true)).trans (.withdrawForRestart _)).concluded

/-! ## Sensors and timers -/

theorem Sound.of_boltStep {s t : State} {slot : Slot} {g : Gate} (h : execBoltStep slot g s = .next t) : Sound s t := by
  cases h
  dsimp only
  split
  · exact .setPin s _ _
  · split
    · exact ((Sound.setPin s _ _).trans (.takeGates _ _ _)).concluded
    · exact ((Sound.setPin s _ _).trans (.takeEdge _ _ _ _)).concluded

theorem Sound.of_doubleGateChange {s t : State} {slot : Slot} (h : execDoubleGateChange slot s = .next t) : Sound s t := by
  cases h
  dsimp only
  split
  · exact (Sound.setPin s _ _).trans (.takeGates _ _ _)
  · exact .setPin s _ _

theorem Sound.of_homeReZero {s t : State} {slot : Slot} (h : execHomeReZero slot s = .next t) : Sound s t := by
  cases h
  split
  · exact .setSense s _ _ fun _ => Nat.zero_le _
  · exact .refl s

theorem Sound.of_doorOpened {s t : State} {slot : Slot} (h : execDoorOpened slot s = .next t) : Sound s t := by
  cases h
  split
  · exact ((Sound.setDoor s _ _).trans (.ite (.onCycle _ _ _) (.forcedReport _ _))).concluded
  · exact .refl s

theorem Sound.of_doorClosed {s t : State} {slot : Slot} (h : execDoorClosed slot s = .next t) : Sound s t := by
  cases h
  split
  · exact ((Sound.setDoor s _ _).trans (.onCycle _ _ _)).concluded
  · exact .refl s

theorem Sound.of_presenceOn {s t : State} {slot : Slot} (h : execPresenceOn slot s = .next t) : Sound s t := by
  cases h
  split
  · exact ((Sound.setPresence s _ _).trans (.flagCheck _ _ _)).concluded
  · exact .refl s

theorem Sound.of_presenceOff {s t : State} {slot : Slot} (h : execPresenceOff slot s = .next t) : Sound s t := by
  cases h
  split
  · exact ((Sound.setPresence s _ _).trans (.flagCheck _ _ _)).concluded
  · exact .refl s

theorem Sound.of_secure {s t : State} {slot : Slot} (h : execSecure slot s = .next t) : Sound s t := by
  cases h
  dsimp only
  split
  · exact ((Sound.setSense s slot { s.sense slot with boltLow := some boltLowTime } id).trans (.onCycle _ _ _)).concluded
  · exact .refl s

theorem Sound.of_pulseWaitLimit {s t : State} {slot : Slot} (h : execPulseWaitLimit slot s = .next t) : Sound s t := by
  cases h
  split
  · exact .refl s
  · split
    · exact (Sound.limitReached s _).concluded
    · exact .refl s

theorem Sound.of_popWindowEnd {s t : State} {slot : Slot} (h : execPopWindowEnd slot s = .next t) : Sound s t := by
  cases h
  split
  · exact .refl s
  · split
    · exact (Sound.failAttempt s _ _).concluded
    · exact .refl s

theorem Sound.of_ajar {s t : State} {slot : Slot} (h : execAjar slot s = .next t) : Sound s t := by
  cases h
  split
  · exact .refl s
  · split
    · exact ((Sound.setCycle s _).trans (.raise _ _ _)).concluded
    · exact .refl s

theorem Sound.of_latchFault {s t : State} {slot : Slot} (h : execLatchFault slot s = .next t) : Sound s t := by
  cases h
  split
  · exact .refl s
  · split
    · exact (Sound.setCycle s _).concluded
    · exact .refl s

theorem Sound.of_latchFaultSettleEnd {s t : State} {slot : Slot} (h : execLatchFaultSettleEnd slot s = .next t) :
    Sound s t := by
  cases h
  split
  · exact .refl s
  · split
    · exact (Sound.endCycle s _ _ _).concluded
    · exact .refl s

theorem Sound.of_settleTimerEnd {s t : State} {slot : Slot} (h : execSettleTimerEnd slot s = .next t) : Sound s t := by
  cases h
  split
  · exact .refl s
  · split
    · exact (Sound.endCycle s _ _ _).concluded
    · exact .refl s

/-! ## The custody store and the clock -/

theorem Sound.of_recordWriteComplete {s t : State} {slot : Slot} {m : Bool} (h : execRecordWriteComplete slot m s = .next t) :
    Sound s t := by
  cases h
  split
  · exact .refl s
  · rename_i hw
    exact (Sound.writeEnded s _ hw).concluded

theorem Sound.of_lockCountWrite {s t : State} {slot : Slot} {ok : Bool} (h : execLockCountWrite slot ok s = .next t) :
    Sound s t := by
  cases h
  split
  · exact .refl s
  · rename_i toB value hw
    have hended := Sound.setLocks s slot ((s.locks slot).ended toB value ok s.free) fun hl => hl.ended hw ok s.free
    dsimp only
    split
    · exact hended
    · exact ((hended.trans (.setFree _ _)).trans (.raise _ _ _)).concluded

theorem Sound.of_minuteTick {s t : State} (h : execMinuteTick s = .next t) : Sound s t := by
  cases h
  split
  · exact .minuteTick s
  · exact .refl s

theorem Sound.of_syncLost {s t : State} (h : execSyncLost s = .next t) : Sound s t := by
  cases h
  split
  · exact .setClk s _ fun hb => ⟨hb.clk.minute, hb.clk.hold, Nat.le_refl _⟩
  · exact .refl s

/-- C takes the value of a write that the store held; that value lies in range. -/
theorem Sound.of_takeMinute {s u : State} (h : Sound s u) {w : MinuteWrite}
    (hw : LiveBounds s → w.value ≤ 4294967295) : Sound s (u.takeMinute w) := by
  have hscan : Sound (u.setClk { u.clk with minute := w.value }) (u.takeMinute w) :=
    .ite (.foldl Sound.scanSlot _ _) (.refl _)
  exact ⟨fun hb => hscan.bounds ((Sound.setClk u { u.clk with minute := w.value } fun hu =>
      ⟨hw hb, hu.clk.hold, hu.clk.age⟩).bounds (h.bounds hb)),
    hscan.apart ∘ h.apart, hscan.loaded.trans h.loaded⟩

theorem Sound.of_retainedMinuteWrite {s t : State} {ok : Bool} (h : execRetainedMinuteWrite ok s = .next t) : Sound s t := by
  cases h
  split
  · exact .refl s
  · rename_i w rest hws
    exact (((Sound.minuteEnded s hws ok).trans (.ite (.refl _) ((Sound.setFree _ (s.free + 1)).trans
      (.raise _ .store none)))).of_takeMinute fun hb => hb.minutes.writes w (hws ▸ List.mem_cons_self ..)).concluded

/-! ## Every command -/

/-- The command reads the configuration memory. -/
def IsRead (c : Instr) : Prop := ∃ r, c = .configurationRead r

/-- Every command but a reset and the configuration read keeps the invariants. -/
theorem Sound.of_exec {c : Instr} {s t : State} (hreset : ¬IsReset c) (hread : ¬IsRead c) (h : exec c s = .next t) :
    Sound s t := by
  cases c with
  | powerReset active => exact absurd ⟨active, by simp⟩ hreset
  | brownoutReset active => exact absurd ⟨active, by simp⟩ hreset
  | pinReset active => exact absurd ⟨active, by simp⟩ hreset
  | restartReset active => exact absurd ⟨active, by simp⟩ hreset
  | configurationRead r => exact absurd ⟨r, rfl⟩ hread
  | resetCauseWrite _ => exact .of_resetCauseWrite h
  | baselineSettled _ _ _ => exact .of_baselineSettled h
  | baselineTimeout _ _ _ => exact .of_baselineTimeout h
  | reconciliation _ => exact .of_reconciliation h
  | joiningEntry => exact .of_joiningEntry h
  | joiningEnd => exact .of_joiningEnd h
  | quietEnd => exact .of_quietEnd h
  | transmissionStart => exact .of_transmissionStart h
  | arbitrationLost => cases h; exact (Sound.yieldLine s).concluded
  | transmissionFailed _ => exact .of_transmissionFailed h
  | transmissionSucceeded => cases h; exact (Sound.succeedSending s).concluded
  | frameTaken _ => cases h; exact Sound.arrive s _
  | pulseNote _ => exact .of_pulseNote h
  | powerState _ => cases h; exact Sound.arrive s _
  | levelAgeExpiry => exact .of_levelAgeExpiry h
  | pulseEntryEnd _ _ => cases h; exact (Sound.dropPulse s _ _).concluded
  | driverOff _ => exact .of_driverOff h
  | placeOffer _ => exact .of_placeOffer h
  | placeCall => exact .of_placeCall h
  | placeDetail => exact .of_placeDetail h
  | collectCall => exact .of_collectCall h
  | payNote => exact .of_payNote h
  | collectGo => exact .of_collectGo h
  | sweepCall => exact .of_sweepCall h
  | sweepGo => exact .of_sweepGo h
  | freeQuery => exact .of_freeQuery h
  | statusQuery => exact .of_statusQuery h
  | slotQuery => exact .of_slotQuery h
  | countQuery => exact .of_countQuery h
  | countClear => exact .of_countClear h
  | outputSet => exact .of_outputSet h
  | time => exact .of_time h
  | serviceOpen => cases h; exact Sound.service s _ _
  | serviceClear => cases h; exact Sound.service s _ _
  | serviceRetire => cases h; exact Sound.service s _ _
  | serviceRestore => cases h; exact Sound.service s _ _
  | serviceRestart => exact .of_serviceRestart h
  | alertClear => exact .of_alertClear h
  | entryLapse _ _ => exact .of_entryLapse h
  | boltStep _ _ => exact .of_boltStep h
  | homeReZero _ => exact .of_homeReZero h
  | doorOpened _ => exact .of_doorOpened h
  | doorClosed _ => exact .of_doorClosed h
  | presenceOn _ => exact .of_presenceOn h
  | presenceOff _ => exact .of_presenceOff h
  | secure _ => exact .of_secure h
  | pulseWaitLimit _ => exact .of_pulseWaitLimit h
  | popWindowEnd _ => exact .of_popWindowEnd h
  | ajar _ => exact .of_ajar h
  | latchFault _ => exact .of_latchFault h
  | latchFaultSettleEnd _ => exact .of_latchFaultSettleEnd h
  | settleTimerEnd _ => exact .of_settleTimerEnd h
  | recordWriteComplete _ _ => exact .of_recordWriteComplete h
  | lockCountWrite _ _ => exact .of_lockCountWrite h
  | minuteTick => exact .of_minuteTick h
  | retainedMinuteWrite _ => exact .of_retainedMinuteWrite h
  | syncLost => exact .of_syncLost h
  | frameVoided _ => exact .of_frameVoided h
  | doubleGateChange _ => exact .of_doubleGateChange h

end Sys2Proof.Machine
end

