-- ==== Sys2Proof/Proofs/Invariants.lean ====
section
/- One theorem after another: side by side, their proofs ask for more threads than the check's memory limit allows. -/
set_option Elab.async false

/-! SUPPORT and proofs of O58, O59 and O60: a reset, a failed read and a load keep the invariants too, and with nothing loaded no other
command runs. -/

namespace Sys2Proof.Machine

/-! ## At rest while nothing is loaded -/

/-- A part that is the same on both sides leaves the frame. -/
theorem UnchangedBut.drop {p : Part} {ps : List Part} {s t : State} (h : UnchangedBut (p :: ps) s t) (hp : p.same s t) :
    UnchangedBut ps s t := fun q hq => by
  by_cases hqp : q = p
  · exact hqp ▸ hp
  · exact h q (by simp [hqp, hq])

section Quiet

variable {s : State} (hq : QuietSinceReset s)
include hq

theorem QuietSinceReset.conclude : s.conclude = s := by
  have hort := hq.requests
  have hone : s.settleOne = none := by
    unfold State.settleOne State.canStart
    rw [hort, hq.doors]
    rfl
  have hsettle : s.settle settleRounds = s := by
    unfold settleRounds State.settle
    rw [hone]
  unfold State.conclude
  rw [hsettle]
  unfold State.noteTest State.noteCandidate
  rw [hq.budget, hq.doors]
  rfl

theorem QuietSinceReset.takeHead (k : RequestKind) : s.takeHead k = none := by
  unfold State.takeHead
  rw [hq.line]
  rfl

theorem QuietSinceReset.cycle? (slot : Slot) : s.cycle? slot = none := by
  unfold State.cycle?
  rw [hq.doors]
  rfl

theorem QuietSinceReset.entry? (j : Job) : s.entry? j = none := by
  unfold State.entry?
  rw [hq.requests]
  rfl

theorem QuietSinceReset.sending? : s.sending? = none := by
  unfold State.sending?
  rw [hq.line]
  rfl

theorem QuietSinceReset.finishOwn : s.finishOwn = s := State.finishOwn_of_none (by rw [hq.line]; rfl)

theorem QuietSinceReset.arrive (f : Frame) : UnchangedBut [.pins] s (s.arrive f) := by
  have hoff : s.receives f = false := by
    unfold State.receives State.onLine
    rw [hq.line]
    rfl
  unfold State.arrive
  rw [hoff]
  refine ((frame_setDrive s .neither).drop ?_).wide
  rw [Part.same, hq.line]
  rfl

theorem QuietSinceReset.dropPulse (st : BitVec 6) (slot : BitVec 5) : s.dropPulse st slot = s :=
  congrArg s.setBgu (show ({ s.bgu with pulses := _ } : Bgu) = s.bgu by rw [hq.budget]; rfl)

theorem QuietSinceReset.noteBusy : s.noteBusy = false := by
  unfold State.noteBusy
  rw [hq.line]
  rfl

theorem QuietSinceReset.offerArriving : s.offerArriving = false := by
  unfold State.offerArriving
  rw [hq.line]
  rfl

end Quiet

/-- A command that leaves the state as it is. -/
theorem stays {c : Instr} {s : State} (h : exec c s = .next s) : ∃ t, exec c s = .next t ∧ UnchangedBut [.pins] s t :=
  ⟨s, h, .refl _ s⟩

/-- While no configuration is loaded and nothing runs, a command other than a reset or the read changes at most the levels at the
inputs (R174). -/
theorem exec_quiet {s : State} (hq : QuietSinceReset s) (hloaded : s.loaded = false) (c : Instr) (hreset : ¬IsReset c)
    (hread : IsRead c → s.phase ≠ .reading) : ∃ t, exec c s = .next t ∧ UnchangedBut [.pins] s t := by
  have hline : s.liu.line = .off := by rw [hq.line]; rfl
  have hphase : s.phase ≠ .reconciling := by intro h; simp [State.loaded, h] at hloaded
  cases c with
  | powerReset active => exact absurd ⟨active, by simp⟩ hreset
  | brownoutReset active => exact absurd ⟨active, by simp⟩ hreset
  | pinReset active => exact absurd ⟨active, by simp⟩ hreset
  | restartReset active => exact absurd ⟨active, by simp⟩ hreset
  | configurationRead r => exact stays (by simp [exec, execConfigurationRead, hread ⟨r, rfl⟩])
  | resetCauseWrite ok => exact stays (by simp [exec, execResetCauseWrite, hq.causes])
  | baselineSettled => exact stays (by simp [exec, execBaselineSettled, State.awaitsBaseline, hloaded])
  | baselineTimeout => exact stays (by simp [exec, execBaselineTimeout, State.awaitsBaseline, hloaded])
  | reconciliation => exact stays (by simp [exec, execReconciliation, State.sense, hq.sensing, Sense.reset])
  | joiningEntry => exact stays (by simp [exec, execJoiningEntry, State.readyToJoin, hphase])
  | joiningEnd => exact stays (by simp [exec, execJoiningEnd, hline])
  | quietEnd => exact stays (by simp [exec, execQuietEnd, hline])
  | transmissionStart => exact stays (by simp [exec, execTransmissionStart, hq.finishOwn, hline, hq.conclude])
  | arbitrationLost => exact stays (by simp [exec, execArbitrationLost, State.yieldLine, hq.sending?, hq.conclude])
  | transmissionFailed => exact stays (by simp [exec, execTransmissionFailed, hq.sending?])
  | transmissionSucceeded =>
    exact stays (by simp [exec, execTransmissionSucceeded, State.succeedSending, hq.sending?, hq.conclude])
  | frameTaken f => exact ⟨_, rfl, hq.arrive f⟩
  | powerState f => exact ⟨_, rfl, hq.arrive f⟩
  | pulseNote a =>
    cases a with
    | own => exact stays (by simp [exec, execPulseNote, State.noteArriving, hq.noteBusy])
    | other f => exact ⟨_, rfl, hq.arrive f⟩
  | placeOffer a =>
    cases a with
    | own => exact stays (by simp [exec, execPlaceOffer, hq.offerArriving])
    | other f => exact ⟨_, rfl, hq.arrive f⟩
  | frameVoided f =>
    refine ⟨_, rfl, ?_⟩
    have hoff : s.receives f = false := by simp [State.receives, State.onLine, hline]
    rw [hoff]
    refine ((frame_setDrive s .neither).drop ?_).wide
    rw [Part.same, hq.line]
    rfl
  | levelAgeExpiry => exact stays (by simp [exec, execLevelAgeExpiry, hq.budget, Bgu.reset])
  | pulseEntryEnd => exact stays (by simp [exec, execPulseEntryEnd, hq.dropPulse, hq.conclude])
  | driverOff => exact stays (by simp [exec, execDriverOff, hq.budget, Bgu.reset])
  | placeCall => exact stays (by simp [exec, execPlaceCall, hq.takeHead])
  | placeDetail => exact stays (by simp [exec, execPlaceDetail, hq.takeHead])
  | collectCall => exact stays (by simp [exec, execCollectCall, hq.takeHead])
  | payNote => exact stays (by simp [exec, execPayNote, hq.takeHead])
  | collectGo => exact stays (by simp [exec, execCollectGo, hq.takeHead])
  | sweepCall => exact stays (by simp [exec, execSweepCall, hq.takeHead])
  | sweepGo => exact stays (by simp [exec, execSweepGo, hq.takeHead])
  | freeQuery => exact stays (by simp [exec, execFreeQuery, hq.takeHead])
  | statusQuery => exact stays (by simp [exec, execStatusQuery, hq.takeHead])
  | slotQuery => exact stays (by simp [exec, execSlotQuery, hq.takeHead])
  | countQuery => exact stays (by simp [exec, execCountQuery, hq.takeHead])
  | countClear => exact stays (by simp [exec, execCountClear, hq.takeHead])
  | outputSet => exact stays (by simp [exec, execOutputSet, hq.takeHead])
  | time => exact stays (by simp [exec, execTime, hq.takeHead])
  | serviceOpen => exact stays (by simp [exec, execServiceOpen, State.service, hq.takeHead])
  | serviceClear => exact stays (by simp [exec, execServiceClear, State.service, hq.takeHead])
  | serviceRetire => exact stays (by simp [exec, execServiceRetire, State.service, hq.takeHead])
  | serviceRestore => exact stays (by simp [exec, execServiceRestore, State.service, hq.takeHead])
  | serviceRestart => exact stays (by simp [exec, execServiceRestart, hq.takeHead])
  | alertClear => exact stays (by simp [exec, execAlertClear, hq.takeHead])
  | entryLapse => exact stays (by simp [exec, execEntryLapse, hq.entry?])
  | boltStep slot gate =>
    refine ⟨s.setPin slot (fun p => p.flip gate), ?_, frame_setPin s _ _⟩
    simp [exec, execBoltStep, State.sampled, (frame_setPin s slot (fun p => p.flip gate)).loaded, hloaded]
  | doubleGateChange slot =>
    refine ⟨s.setPin slot (fun p => (p.flip .a).flip .b), ?_, frame_setPin s _ _⟩
    simp [exec, execDoubleGateChange, State.sampled, (frame_setPin s slot (fun p => (p.flip .a).flip .b)).loaded, hloaded]
  | homeReZero => exact stays (by simp [exec, execHomeReZero, State.sampled, hloaded])
  | doorOpened => exact stays (by simp [exec, execDoorOpened, State.sampled, hloaded])
  | doorClosed => exact stays (by simp [exec, execDoorClosed, State.sampled, hloaded])
  | presenceOn => exact stays (by simp [exec, execPresenceOn, State.sampled, hloaded])
  | presenceOff => exact stays (by simp [exec, execPresenceOff, State.sampled, hloaded])
  | secure => exact stays (by simp [exec, execSecure, State.sampled, hloaded])
  | pulseWaitLimit => exact stays (by simp [exec, execPulseWaitLimit, hq.cycle?])
  | popWindowEnd => exact stays (by simp [exec, execPopWindowEnd, hq.cycle?])
  | ajar => exact stays (by simp [exec, execAjar, hq.cycle?])
  | latchFault => exact stays (by simp [exec, execLatchFault, hq.cycle?])
  | latchFaultSettleEnd => exact stays (by simp [exec, execLatchFaultSettleEnd, hq.cycle?])
  | settleTimerEnd => exact stays (by simp [exec, execSettleTimerEnd, hq.cycle?])
  | recordWriteComplete slot => exact stays (by simp [exec, execRecordWriteComplete, (hq.records slot).1])
  | lockCountWrite slot => exact stays (by simp [exec, execLockCountWrite, (hq.records slot).2])
  | minuteTick => exact stays (by simp [exec, execMinuteTick, hloaded])
  | retainedMinuteWrite => exact stays (by simp [exec, execRetainedMinuteWrite, hq.minutes])
  | syncLost => exact stays (by simp [exec, execSyncLost, hloaded])

/-- What a step leaves but for the levels at the inputs is at rest where it was. -/
theorem QuietSinceReset.of_pins {s t : State} (hq : QuietSinceReset s) (h : UnchangedBut [.pins] s t) : QuietSinceReset t where
  requests := by rw [h.ort]; exact hq.requests
  doors := by rw [h.dsq]; exact hq.doors
  budget := by rw [h.bgu]; exact hq.budget
  line := by rw [h.liu]; exact hq.line
  outputs := by rw [h.out]; exact hq.outputs
  report := by rw [h.rpt]; exact hq.report
  sensing := by rw [h.part .sensing]; exact hq.sensing
  restart := by rw [h.part .restart]; exact hq.restart
  records i := by rw [h.storeOf, h.locksOf]; exact hq.records i
  minutes := by
    obtain ⟨-, -, -, hw⟩ := h.part .minutes
    rw [hw]
    exact hq.minutes
  causes := by
    obtain ⟨-, -, hw⟩ := h.part .causes
    rw [hw]
    exact hq.causes

/-! ## What a reset leaves -/

/-- A column at rest keeps the bounds where its custody store, its clock and its configuration do. -/
theorem QuietSinceReset.liveBounds {s : State} (hq : QuietSinceReset s) (hclk : s.clk.Sound) (hlocks : ∀ i, (s.locks i).Sound)
    (hminutes : s.cts.MinuteSound) (hrecords : ∀ i, s.rec? i = none) (hstores : ∀ i, (s.store i).Sound i)
    (hconfig : s.conf.budget ≤ 8 ∧ s.conf.span ≤ 4)
    (hcauses : s.cts.causeStore.ok = true → s.cts.causeStore.check = checkWord .causes s.cts.causeStore.set)
    (hmark : s.cts.markOk = true → s.cts.markCheck = checkWord .mark ()) : LiveBounds s where
  liu := by rw [hq.line]; exact ⟨by decide, by decide, by decide, by decide, by decide, by decide⟩
  places := by rw [hq.requests]; exact Nat.zero_le _
  bolt i := by rw [State.sense, hq.sensing, tget_tconst]; exact Nat.zero_le _
  level := by rw [hq.budget]; decide
  pulses := by rw [hq.budget]; decide
  clk := hclk
  locks := hlocks
  minutes := hminutes
  records i r hr := by rw [hrecords i] at hr; cases hr
  stores := hstores
  span := by rw [hq.doors]; exact Nat.zero_le _
  cycles := by rw [hq.doors]; exact List.nodup_nil
  config := hconfig
  causes := hcauses
  mark := hmark
  attention := by rw [hq.report]; simp [Rpt.reset, attentionOf]

section Reset

variable (s : State) (causes : Causes)

theorem State.resetBy_store (i : Slot) : (s.resetBy causes).store i = (s.store i).abandoned (s.free + i.val) := by
  simp [State.store, State.resetBy, Cts.afterReset]

theorem State.resetBy_locks (i : Slot) : (s.resetBy causes).locks i = (s.locks i).abandoned (s.free + 24 + i.val) := by
  simp [State.locks, State.resetBy, Cts.afterReset]

theorem State.resetBy_rec? (i : Slot) : (s.resetBy causes).rec? i = none := by
  simp [State.rec?, State.resetBy, Cts.afterReset]

end Reset

theorem SlotStore.abandoned_writing (x : SlotStore) (n : Nat) : (x.abandoned n).writing = none := by
  unfold SlotStore.abandoned
  split
  · rfl
  · split <;> rfl

theorem Locks.abandoned_writing (x : Locks) (n : Nat) : (x.abandoned n).writing = none := by
  unfold Locks.abandoned
  split
  · rfl
  · split <;> rfl

/-- Every reset leaves the column at rest (R171). -/
theorem QuietSinceReset.resetBy (s : State) (causes : Causes) : QuietSinceReset (s.resetBy causes) where
  requests := rfl
  doors := rfl
  budget := rfl
  line := rfl
  outputs := rfl
  report := rfl
  sensing := rfl
  restart := rfl
  records i := by
    rw [State.resetBy_store, State.resetBy_locks]
    exact ⟨SlotStore.abandoned_writing _ _, Locks.abandoned_writing _ _⟩
  minutes := rfl
  causes := rfl

theorem RecCopy.torn_checks {slot : Slot} {c : RecCopy} (h : c.ok = true → c.check = recordCheck slot c.gen c.content) (n : Nat) :
    (c.torn n).ok = true → (c.torn n).check = recordCheck slot (c.torn n).gen (c.torn n).content := by
  obtain ⟨hgen, hcontent, hcheck, hok⟩ := RecCopy.torn_holds c n
  intro ht
  rw [hgen, hcontent, hcheck]
  exact h (hok ht)

theorem SlotStore.Sound.abandoned {slot : Slot} {x : SlotStore} (h : x.Sound slot) (n : Nat) : (x.abandoned n).Sound slot := by
  have hA := h.checks false
  have hB := h.checks true
  unfold SlotStore.abandoned
  split
  · exact ⟨fun isB => by cases isB; exacts [hA, hB], h.copyA, h.copyB, fun _ hw => by cases hw⟩
  · split
    · exact ⟨fun isB => by cases isB; exacts [hA, RecCopy.torn_checks hB n], h.copyA,
        (RecCopy.torn_holds x.b n).2.1 ▸ h.copyB, fun _ hw => by cases hw⟩
    · exact ⟨fun isB => by cases isB; exacts [RecCopy.torn_checks hA n, hB],
        (RecCopy.torn_holds x.a n).2.1 ▸ h.copyA, h.copyB, fun _ hw => by cases hw⟩

theorem Locks.Sound.abandoned {x : Locks} (h : x.Sound) (n : Nat) : (x.abandoned n).Sound := by
  unfold Locks.abandoned
  split
  · exact ⟨Nat.zero_le _, h.copyA, h.copyB, fun _ hw => by cases hw⟩
  · split
    · exact ⟨Nat.zero_le _, h.copyA, h.copyB.torn n, fun _ hw => by cases hw⟩
    · exact ⟨Nat.zero_le _, h.copyA.torn n, h.copyB, fun _ hw => by cases hw⟩

/-- A copy that is torn or left stands sound. -/
theorem CountCopy.Sound.tornIf {what : Config.Retained} {most : Nat} {c : CountCopy} (h : c.Sound what most) (b : Bool) (n : Nat) :
    (if b then c else c.torn n).Sound what most := by
  split
  exacts [h, h.torn n]

theorem CauseCopy.tornIf_checks {c : CauseCopy} (h : c.ok = true → c.check = checkWord .causes c.set) (b : Bool) (n : Nat) :
    (if b then c else c.torn n).ok = true →
      (if b then c else c.torn n).check = checkWord .causes (if b then c else c.torn n).set := by
  split
  · exact h
  · obtain ⟨hset, hcheck, hheld⟩ := CauseCopy.torn_holds c n
    rw [hset, hcheck]
    exact fun hok => h (hheld hok)

theorem LiveBounds.resetBy {s : State} (h : LiveBounds s) (causes : Causes) : LiveBounds (s.resetBy causes) := by
  refine (QuietSinceReset.resetBy s causes).liveBounds ⟨h.clk.minute, Nat.zero_le _, Nat.zero_le _⟩ (fun i => ?_)
    ⟨h.minutes.copyA.tornIf _ _, h.minutes.copyB.tornIf _ _, fun w hw => by cases hw⟩ (State.resetBy_rec? s causes)
    (fun i => ?_) h.config (fun hok => ?_) h.mark
  · rw [State.resetBy_locks]; exact (h.locks i).abandoned _
  · rw [State.resetBy_store]; exact (h.stores i).abandoned _
  · have hcauses : (s.resetBy causes).cts.causeStore
        = if s.cts.causeWriting.isNone then s.cts.causeStore else s.cts.causeStore.torn (s.free + 49) := rfl
    rw [hcauses] at hok ⊢
    exact CauseCopy.tornIf_checks h.causes _ _ hok

theorem Bounded.resetBy {s : State} (h : Bounded s) (causes : Causes) : Bounded (s.resetBy causes) :=
  bounded_iff.mpr ⟨(bounded_iff.mp h).1.resetBy causes, fun _ => .resetBy s causes⟩

theorem HoldsApart.resetBy (s : State) (causes : Causes) : HoldsApart (s.resetBy causes) := List.Pairwise.nil

/-- The state after reset is at rest. -/
theorem QuietSinceReset.reset : QuietSinceReset State.reset where
  requests := rfl
  doors := rfl
  budget := rfl
  line := rfl
  outputs := rfl
  report := rfl
  sensing := rfl
  restart := rfl
  records i := by simp [State.reset, Cts.unused, State.store, State.locks, SlotStore.unused, Locks.unused]
  minutes := rfl
  causes := rfl

theorem CountCopy.Sound.failing (what : Config.Retained) (most : Nat) : CountCopy.failing.Sound what most :=
  ⟨Nat.zero_le _, fun h => absurd h Bool.false_ne_true⟩

theorem LiveBounds.reset : LiveBounds State.reset := by
  have hempty : CompRec.blank.inTime := fun p hp => by cases hp
  refine QuietSinceReset.reset.liveBounds ⟨Nat.zero_le _, Nat.zero_le _, Nat.zero_le _⟩ (fun i => ?_)
    ⟨.failing _ _, .failing _ _, fun w hw => by cases hw⟩ (fun i => ?_) (fun i => ?_) ⟨by decide, by decide⟩
    (fun h => absurd h Bool.false_ne_true) (fun h => absurd h Bool.false_ne_true)
  · rw [State.locks, show State.reset.cts.locks = tconst Locks.unused from rfl, tget_tconst]
    exact ⟨Nat.zero_le _, .failing _ _, .failing _ _, fun w hw => by cases hw⟩
  · rw [State.rec?, show State.reset.cts.table = tconst none from rfl, tget_tconst]
  · rw [State.store, show State.reset.cts.store = tconst SlotStore.unused from rfl, tget_tconst]
    exact ⟨fun isB h => by cases isB <;> exact absurd h Bool.false_ne_true, hempty, hempty, fun w hw => by cases hw⟩

/-- Settles O58, block by block of the state after reset. -/
theorem theInvariantsHoldAfterReset : Obligations.TheInvariantsHoldAfterReset :=
  ⟨bounded_iff.mpr ⟨.reset, fun _ => .reset⟩, List.Pairwise.nil, .reset⟩

end Sys2Proof.Machine
end

