-- ==== Sys2Proof/Proofs/Keeps.lean ====
section
/- One theorem after another: side by side, their proofs ask for more threads than the check's memory limit allows. -/
set_option Elab.async false

/-! Proofs of O59 and O60: the configuration read keeps the bounds too, so that every step keeps both invariants. -/

namespace Sys2Proof.Machine

/-! ## The load of a configuration -/

/-- A new configuration in range, before any door cycle: attention follows the report enables just loaded. -/
theorem LiveBounds.configured {s : State} (h : LiveBounds s) (hcycles : s.dsq.cycles = []) {c : Cfg}
    (hc : c.mem.budget ≤ 8 ∧ c.mem.span ≤ 4) : LiveBounds ((s.setCfg c).recomputeAttention) :=
  { h with
    span := by
      change s.dsq.cycles.length ≤ c.mem.span
      rw [hcycles]
      exact Nat.zero_le _
    config := hc
    attention := rfl }

theorem clampFields_bounds (m : ConfigFields) : (clampFields m).budget ≤ 8 ∧ (clampFields m).span ≤ 4 := by
  simp only [clampFields, clampTo]
  omega

theorem Sound.setSen (s : State) (x : Table Sense) (h : ∀ i, (tget x i).bolt ≤ 15) : Sound s (s.setSen x) where
  bounds hb := { hb with bolt := h }
  apart := id
  loaded := (frame_setSen s x).loaded

theorem Sound.loadSensing (s : State) : Sound s s.loadSensing := by
  refine .setSen s _ fun i => ?_
  rw [tget_tabulate]
  split <;> exact Nat.zero_le _

/-- The custody store goes on with the same records, locks and causes, and sound copies of the minute. -/
theorem Sound.setMinuteNext (s : State) (b : Bool) : Sound s (s.setCts { s.cts with minuteNextB := b }) where
  bounds hb := { hb with minutes := ⟨hb.minutes.copyA, hb.minutes.copyB, hb.minutes.writes⟩ }
  apart := id
  loaded := rfl

theorem RecCopy.minute_le {c : RecCopy} (h : c.content.inTime) : c.minute ≤ 4294967295 := by
  unfold RecCopy.minute RecCopy.parcel?
  split
  · rename_i p hp
    split at hp
    · obtain ⟨hdeposit, hsettled⟩ := h p hp
      cases hz : p.settled with
      | none => simpa using hdeposit
      | some z => exact Nat.max_le.mpr ⟨hdeposit, hsettled z hz⟩
    · cases hp
  · exact Nat.zero_le _

theorem foldl_max_le {α : Type} {f : α → Nat} {most : Nat} (h : ∀ x, f x ≤ most) (xs : List α) {n : Nat} (hn : n ≤ most) :
    xs.foldl (fun n x => max n (f x)) n ≤ most := by
  induction xs generalizing n with
  | nil => exact hn
  | cons x xs ih => exact ih (Nat.max_le.mpr ⟨hn, h x⟩)

theorem LiveBounds.resumedMinute {s : State} (h : LiveBounds s) : s.cts.resumedMinute ≤ 4294967295 := by
  have hif {b : Bool} {n : Nat} (hn : n ≤ 4294967295) : (if b then n else 0) ≤ 4294967295 := by
    split
    exacts [hn, Nat.zero_le _]
  unfold Cts.resumedMinute
  split
  · exact Nat.max_le.mpr ⟨hif h.minutes.copyA.value, hif h.minutes.copyB.value⟩
  · exact foldl_max_le (fun i => Nat.max_le.mpr ⟨RecCopy.minute_le (h.stores i).copyA, RecCopy.minute_le (h.stores i).copyB⟩)
      _ (Nat.zero_le _)

theorem Sound.resumeClock (s : State) : Sound s s.resumeClock :=
  ((Sound.setClk s { s.clk with minute := s.cts.resumedMinute, sub := 0 } fun hb =>
    ⟨hb.resumedMinute, hb.clk.hold, hb.clk.age⟩).trans (.setMinuteNext _ _)).trans (.ite (.raise _ _ _) (.refl _))

theorem Sound.loadOutputs (s : State) : Sound s s.loadOutputs :=
  (Sound.setOut s { s.out with auxDemand := s.conf.auxDefault }).trans (.refreshOutputs _)

theorem SlotStore.Sound.formatted {slot : Slot} {x : SlotStore} (h : x.Sound slot) : (x.formatted slot).Sound slot where
  checks isB := by
    cases isB
    exacts [fun _ => RecCopy.written_check .., h.checks true]
  copyA p hp := by cases hp
  copyB := h.copyB
  writing := h.writing

theorem Locks.Sound.formatted {x : Locks} (h : x.Sound) : x.formatted.Sound :=
  ⟨h.count, .written (Nat.zero_le _), .written (Nat.zero_le _), h.writing⟩

/-- The store's part of the bounds, for a new store. -/
theorem Sound.setCts (s : State) (x : Cts) (hlocks : LiveBounds s → ∀ i, (tget x.locks i).Sound)
    (hminutes : LiveBounds s → x.MinuteSound) (htable : x.table = s.cts.table)
    (hstores : LiveBounds s → ∀ i, (tget x.store i).Sound i)
    (hcauses : LiveBounds s → x.causeStore.ok = true → x.causeStore.check = checkWord .causes x.causeStore.set)
    (hmark : LiveBounds s → x.markOk = true → x.markCheck = checkWord .mark ()) : Sound s (s.setCts x) where
  bounds hb := { hb with
    locks := hlocks hb
    minutes := hminutes hb
    records := fun slot r hr => hb.records slot r (by rwa [State.rec?, ← htable])
    stores := hstores hb
    causes := hcauses hb
    mark := hmark hb }
  apart := id
  loaded := rfl

theorem Cts.formatted_table (x : Cts) : x.formatted.table = x.table := by simp only [Cts.formatted, Cts.marked]

theorem Cts.MinuteSound.formatted {x : Cts} (h : x.MinuteSound) : x.formatted.MinuteSound where
  copyA := .written (Nat.zero_le _)
  copyB := .written (Nat.zero_le _)
  writes := by
    simp only [Cts.formatted, Cts.marked]
    exact h.writes

theorem Sound.formatted (s : State) : Sound s (s.setCts s.cts.formatted) := by
  refine .setCts s _ (fun hb i => ?_) (·.minutes.formatted) (Cts.formatted_table _)
    (fun hb i => ?_) (fun _ _ => CauseCopy.written_check _) fun _ _ => rfl
  · simp only [Cts.formatted, tget_tmap]
    exact (hb.locks i).formatted
  · simp only [Cts.formatted, tget_tabulate]
    exact (hb.stores i).formatted

theorem Sound.marked (s : State) : Sound s (s.setCts s.cts.marked) :=
  .setCts s _ (·.locks) (fun hb => ⟨hb.minutes.copyA, hb.minutes.copyB, hb.minutes.writes⟩) rfl (·.stores) (·.causes)
    fun _ _ => rfl

theorem Sound.checkMark (s : State) : Sound s s.checkMark := by
  unfold State.checkMark
  split
  · exact .formatted s
  · split
    exacts [.refl s, .marked s]

theorem Locks.Sound.resumed {x : Locks} (h : x.Sound) : x.resumed ≤ 16777215 := by
  have hif {b : Bool} {n : Nat} (hn : n ≤ 16777215) : (if b then n else 0) ≤ 16777215 := by
    split
    exacts [hn, Nat.zero_le _]
  exact Nat.max_le.mpr ⟨hif h.copyA.value, hif h.copyB.value⟩

theorem Sound.resumedCounts (s : State) :
    Sound s (s.setCts { s.cts with locks := tmap (fun y => { y with count := y.resumed }) s.cts.locks }) := by
  refine .setCts s _ (fun hb i => ?_) (fun hb => ⟨hb.minutes.copyA, hb.minutes.copyB, hb.minutes.writes⟩) rfl (·.stores) (·.causes)
    (·.mark)
  simp only [tget_tmap]
  exact { hb.locks i with count := (hb.locks i).resumed }

theorem Sound.resumeLocks (s : State) : Sound s s.resumeLocks :=
  (Sound.resumedCounts s).trans (.ite (.raise _ _ _) (.refl _))

theorem Sound.composeCauses (s : State) : Sound s s.composeCauses :=
  (Sound.ite (.raise s _ _) (.refl s)).trans (.writeCauses _ _)

theorem LiveBounds.load {s : State} (h : LiveBounds s) (hcycles : s.dsq.cycles = []) (m : ConfigFields) (b : Bool)
    (check : BitVec 16) : LiveBounds (s.load (clampFields m) b check) :=
  ((((Sound.loadSensing _).trans (.resumeClock _)).trans (.loadOutputs _)).trans (.ite (.raise _ _ _) (.refl _))).bounds
    (h.configured hcycles (clampFields_bounds m))

theorem LiveBounds.startUp {s : State} (h : LiveBounds s) (hcycles : s.dsq.cycles = []) (m : ConfigFields)
    (check : BitVec 16) : LiveBounds (s.startUp m check) :=
  { (((Sound.checkMark _).trans (.resumeLocks _)).trans (.composeCauses _)).bounds
      (h.load hcycles m (decide (clampFields m ≠ m)) check) with }

/-! ## The read -/

theorem QuietSinceReset.enterStandby {s : State} (h : QuietSinceReset s) : QuietSinceReset s.enterStandby := { h with }

theorem LiveBounds.enterStandby {s : State} (h : LiveBounds s) : LiveBounds s.enterStandby := { h with }

theorem Bounded.configurationRead {s t : State} {r : ConfigRead} (h : Bounded s) (ht : execConfigurationRead r s = .next t) :
    Bounded t := by
  obtain ⟨hlive, hquiet⟩ := bounded_iff.mp h
  cases ht
  split
  · rename_i hreading
    have hrest := hquiet (by simp [State.loaded, hreading])
    split
    · rename_i m check _
      refine bounded_iff.mpr ⟨hlive.startUp (by rw [hrest.doors]; rfl) m check, fun hl => ?_⟩
      cases hl
    · exact bounded_iff.mpr ⟨hlive.enterStandby, fun _ => hrest.enterStandby⟩
  · exact h

theorem State.ort_load (s : State) (m : ConfigFields) (b : Bool) (check : BitVec 16) :
    HoldsApart s → HoldsApart (s.load m b check) :=
  ((((Sound.loadSensing ((s.setCfg { state := if b then .clamped else .loaded, mem := m, check := check }).recomputeAttention)).trans
    (.resumeClock _)).trans (.loadOutputs _)).trans (.ite (.raise _ _ _) (.refl _))).apart

theorem HoldsApart.configurationRead {s t : State} {r : ConfigRead} (h : HoldsApart s)
    (ht : execConfigurationRead r s = .next t) : HoldsApart t := by
  cases ht
  split
  · split
    · exact (((Sound.checkMark _).trans (.resumeLocks _)).trans (.composeCauses _)).apart (s.ort_load _ _ _ h)
    · exact h
  · exact h

/-! ## Every command and every step -/

/-- A reset leaves `resetBy`, or, where a pending restart is not ready, the state as it was. -/
theorem exec_reset {s t : State} {c : Instr} (hc : IsReset c) (h : exec c s = .next t) :
    t = s ∨ ∃ causes, t = s.resetBy causes := by
  obtain ⟨active, rfl | rfl | rfl | rfl⟩ := hc
  · cases h; exact .inr ⟨_, rfl⟩
  · cases h; exact .inr ⟨_, rfl⟩
  · cases h; exact .inr ⟨_, rfl⟩
  · cases h
    split
    · exact .inr ⟨_, rfl⟩
    · exact .inl rfl

theorem Bounded.exec {s t : State} {c : Instr} (h : Bounded s) (ht : exec c s = .next t) : Bounded t := by
  by_cases hreset : IsReset c
  · rcases exec_reset hreset ht with rfl | ⟨causes, rfl⟩
    exacts [h, h.resetBy causes]
  · by_cases hread : IsRead c
    · obtain ⟨r, rfl⟩ := hread
      exact h.configurationRead ht
    · obtain ⟨hlive, hquiet⟩ := bounded_iff.mp h
      have hsound := Sound.of_exec hreset hread ht
      refine bounded_iff.mpr ⟨hsound.bounds hlive, fun hl => ?_⟩
      have hloaded : s.loaded = false := hsound.loaded ▸ hl
      obtain ⟨u, hu, hpins⟩ := exec_quiet (hquiet hloaded) hloaded c hreset (fun hr => absurd hr hread)
      rw [ht] at hu
      cases hu
      exact (hquiet hloaded).of_pins hpins

theorem HoldsApart.exec {s t : State} {c : Instr} (h : HoldsApart s) (ht : exec c s = .next t) : HoldsApart t := by
  by_cases hreset : IsReset c
  · rcases exec_reset hreset ht with rfl | ⟨causes, rfl⟩
    exacts [h, .resetBy s causes]
  · by_cases hread : IsRead c
    · obtain ⟨r, rfl⟩ := hread
      exact h.configurationRead ht
    · exact (Sound.of_exec hreset hread ht).apart h

/-- A step is a command, on the state itself or on the rest of its queue, or a millisecond. -/
theorem step_cases {s t : State} (h : step s = .next t) :
    (∃ c rest, exec c (s.setPending rest) = .next t) ∨ (∃ c, exec c s = .next t) ∨ t = s.tick := by
  unfold step at h
  split at h
  · exact .inl ⟨_, _, h⟩
  · split at h
    · exact .inr (.inl ⟨_, h⟩)
    · cases h; exact .inr (.inr rfl)

theorem Sound.setPending (s : State) (rest : List Instr) : Sound s (s.setPending rest) :=
  .light ((frame_setPending s rest).mono (by decide))

theorem Bounded.setPending {s : State} (h : Bounded s) (rest : List Instr) : Bounded (s.setPending rest) := { h with
  minutes := { h.minutes with }
  unloaded := fun hl => { h.unloaded hl with } }

theorem Bounded.tick {s : State} (h : Bounded s) : Bounded s.tick := by
  unfold State.tick
  split
  · rename_i hloaded
    have hsound := Sound.passMs s
    refine bounded_iff.mpr ⟨hsound.bounds (bounded_iff.mp h).1, fun hl => ?_⟩
    rw [hsound.loaded, hloaded] at hl
    cases hl
  · exact h

theorem Sound.tick (s : State) : Sound s s.tick := .ite (.passMs s) (.refl s)

/-- Settles O59: each command and the millisecond keep the bounds; with nothing loaded, nothing but a reset or the read runs. -/
theorem everyStepKeepsTheBounds : Obligations.EveryStepKeepsTheBounds := by
  intro s t h ht
  rcases step_cases ht with ⟨c, rest, hc⟩ | ⟨c, hc⟩ | rfl
  · exact (h.setPending rest).exec hc
  · exact h.exec hc
  · exact h.tick

/-- Settles O60: each command and the millisecond keep the entries apart. -/
theorem everyStepKeepsOneHolderPerCompartment : Obligations.EveryStepKeepsOneHolderPerCompartment := by
  intro s t h ht
  rcases step_cases ht with ⟨c, rest, hc⟩ | ⟨c, hc⟩ | rfl
  · exact HoldsApart.exec ((Sound.setPending s rest).apart h) hc
  · exact h.exec hc
  · exact (Sound.tick s).apart h

end Sys2Proof.Machine
end

