-- ==== Sys2Proof/Proofs/ReportFacts.lean ====
section
/- One theorem after another: side by side, their proofs ask for more threads than the check's memory limit allows. -/
set_option Elab.async false

/-! SUPPORT. What a raise, an answer, a refusal and an activity event do, in the words of the statements, and how these words
carry over steps before and after. -/

namespace Sys2Proof.Machine

/-! ## Conditions (R163) -/

theorem Condition.bit_and_self (c : Condition) (x : BitVec 14) : ((x ||| c.bit) &&& c.bit != 0#14) = true := by
  have hbit : c.bit ≠ 0#14 := by cases c <;> decide
  have hand : (x ||| c.bit) &&& c.bit = c.bit := by
    ext i
    simp only [BitVec.getElem_and, BitVec.getElem_or]
    cases c.bit[i] <;> simp
  rw [hand]
  simpa using hbit

theorem Condition.bit_disjoint {c d : Condition} (h : d ≠ c) : c.bit &&& d.bit = 0#14 := by
  revert h
  cases c <;> cases d <;> decide

theorem Rpt.isSet_or_ne {c d : Condition} (h : d ≠ c) (r : Rpt) :
    { r with conds := r.conds ||| c.bit }.isSet d = r.isSet d := by
  have hand : (r.conds ||| c.bit) &&& d.bit = r.conds &&& d.bit := by
    rw [BitVec.and_comm, BitVec.and_or_distrib_left, BitVec.and_comm d.bit c.bit, Condition.bit_disjoint h, BitVec.or_zero, BitVec.and_comm]
  simp only [Rpt.isSet, hand]

theorem State.isSet_mark_ne {c d : Condition} (h : d ≠ c) (s : State) (slot : Option Slot) :
    (s.mark c slot).rpt.isSet d = s.rpt.isSet d := Rpt.isSet_or_ne h s.rpt

theorem State.isSet_mark_kept {c d : Condition} {s : State} (slot : Option Slot) (h : s.rpt.isSet d = true) :
    (s.mark c slot).rpt.isSet d = true := by
  by_cases hd : d = c
  · subst hd
    exact isSet_mark_same s d slot
  · rwa [State.isSet_mark_ne hd]

/-- Of the conditions at most TX_DISCARD becomes set, and the last fault slot stands: what an answer may do. -/
structure AtMostDiscard (s t : State) : Prop where
  kept : ∀ d, s.rpt.isSet d = true → t.rpt.isSet d = true
  only : ∀ d, d ≠ .txDiscard → t.rpt.isSet d = s.rpt.isSet d
  lastFault : t.rpt.lastFault = s.rpt.lastFault

theorem AtMostDiscard.of_frame {ps : List Part} {s t : State} (h : UnchangedBut ps s t)
    (hp : Part.conditions ∉ ps := by decide) : AtMostDiscard s t where
  kept d hd := by rwa [h.isSet d hp]
  only d _ := h.isSet d hp
  lastFault := h.lastFault hp

theorem AtMostDiscard.trans {s t u : State} (h : AtMostDiscard s t) (k : AtMostDiscard t u) : AtMostDiscard s u where
  kept d hd := k.kept d (h.kept d hd)
  only d hd := (k.only d hd).trans (h.only d hd)
  lastFault := k.lastFault.trans h.lastFault

theorem AtMostDiscard.mark (s : State) : AtMostDiscard s (s.mark .txDiscard none) where
  kept _ hd := State.isSet_mark_kept none hd
  only _ hd := State.isSet_mark_ne hd s none
  lastFault := rfl

theorem AtMostDiscard.setTx (s : State) (q : List TxFrame) : AtMostDiscard s (s.setTx q) := .of_frame (frame_setTx s q)

theorem AtMostDiscard.alertIfRisen (s : State) (b : Bool) : AtMostDiscard s (s.alertIfRisen b) := by
  unfold State.alertIfRisen
  dsimp only
  split
  · split
    · exact (setTx s _).trans (.mark _)
    · exact .setTx s _
  · exact .of_frame (.refl [] s)

theorem AtMostDiscard.raiseDiscard (s : State) : AtMostDiscard s (s.raise .txDiscard none) :=
  (AtMostDiscard.mark s).trans (.alertIfRisen _ _)

theorem AtMostDiscard.queueFrame (s : State) (f : TxFrame) : AtMostDiscard s (s.queueFrame f) := by
  unfold State.queueFrame
  dsimp only
  split
  · exact (setTx s _).trans (.raiseDiscard _)
  · exact .setTx s _

theorem AtMostDiscard.answer (s : State) (d : BitVec 6) (b : Body) : AtMostDiscard s (s.answer d b) := .queueFrame s _

theorem AtMostDiscard.refuse (s : State) (d : BitVec 6) (n : Option (BitVec 16)) (slot : Option Nat) (r : Reason) (c : Nat) :
    AtMostDiscard s (s.refuse d n slot r c) :=
  (AtMostDiscard.answer s d _).trans (.of_frame (frame_refusalEvent _ r c))

theorem Raised.mark (s : State) (c : Condition) (slot : Option Slot) : Raised c slot s (s.mark c slot) where
  isSet := isSet_mark_same s c slot
  kept _ hd := State.isSet_mark_kept slot hd
  only _ hd _ := State.isSet_mark_ne hd s slot
  lastFault := by cases slot <;> rfl

theorem Raised.then_ {c : Condition} {slot : Option Slot} {s t u : State} (h : Raised c slot s t) (k : AtMostDiscard t u) :
    Raised c slot s u where
  isSet := k.kept c h.isSet
  kept d hd := k.kept d (h.kept d hd)
  only d hd hx := (k.only d hx).trans (h.only d hd hx)
  lastFault := k.lastFault.trans h.lastFault

theorem Raised.after {c : Condition} {slot : Option Slot} {s t u : State} (k : Raised c slot t u) (h : AtMostDiscard s t) :
    Raised c slot s u where
  isSet := k.isSet
  kept d hd := k.kept d (h.kept d hd)
  only d hd hx := (k.only d hd hx).trans (h.only d hx)
  lastFault := by rw [k.lastFault, h.lastFault]

theorem Raised.raise (s : State) (c : Condition) (slot : Option Slot) : Raised c slot s (s.raise c slot) :=
  (Raised.mark s c slot).then_ (.alertIfRisen _ _)

/-! ## Activity events (R166) -/

theorem State.count_counter (s : State) (k : EventKind) (v : Option Nat) (carrier : Nat) (i : Fin 4) :
    (s.count k v carrier).rpt.counters[i]
      = if counts s.conf.counters[i] k v carrier = true then s.rpt.counters[i] + 1 else s.rpt.counters[i] := by
  simp [State.count, State.setRpt_rpt, vzip]

theorem Counted.count (s : State) (k : EventKind) (v : Option Nat) (carrier : Nat) :
    Counted k v carrier s (s.count k v carrier) := State.count_counter s k v carrier

theorem Counted.after {k : EventKind} {v : Option Nat} {carrier : Nat} {ps : List Part} {s t u : State}
    (h : UnchangedBut ps s t) (hcount : Counted k v carrier t u) (hc : Part.config ∉ ps := by decide)
    (hp : Part.counters ∉ ps := by decide) : Counted k v carrier s u := fun i => by
  have := hcount i
  rwa [h.conf hc, h.counters hp] at this

theorem Counted.then_ {k : EventKind} {v : Option Nat} {carrier : Nat} {ps : List Part} {s t u : State}
    (hcount : Counted k v carrier s t) (h : UnchangedBut ps t u) (hp : Part.counters ∉ ps := by decide) :
    Counted k v carrier s u := fun i => by
  rw [h.counters hp]
  exact hcount i

theorem Counted.all {k : EventKind} {v : Option Nat} {carrier : Nat} {s t : State} (h : Counted k v carrier s t) :
    CountedAll [(k, v, carrier)] s t := fun i => by
  rw [h i]
  by_cases hi : counts s.conf.counters[i] k v carrier = true
  · have hone : List.filter (fun e : Event => counts s.conf.counters[i] e.1 e.2.1 e.2.2) [(k, v, carrier)] = [(k, v, carrier)] :=
      List.filter_cons_of_pos hi
    rw [if_pos hi, hone]
    rfl
  · have hnone : List.filter (fun e : Event => counts s.conf.counters[i] e.1 e.2.1 e.2.2) [(k, v, carrier)] = [] :=
      List.filter_cons_of_neg hi
    rw [if_neg hi, hnone]
    exact (BitVec.add_zero _).symm

theorem CountedAll.nil_of_frame {ps : List Part} {s t : State} (h : UnchangedBut ps s t)
    (hp : Part.counters ∉ ps := by decide) : CountedAll [] s t := fun i => by
  rw [h.counters hp]
  simp

/-- Events after events: the counters go up by the number of them all. -/
theorem CountedAll.append {es fs : List Event} {ps : List Part} {s t u : State} (h : CountedAll es s t)
    (k : CountedAll fs t u) (hframe : UnchangedBut ps s t) (hc : Part.config ∉ ps := by decide) :
    CountedAll (es ++ fs) s u := fun i => by
  rw [k i, h i, hframe.conf hc, List.filter_append, List.length_append, BitVec.ofNat_add, BitVec.add_assoc]

theorem CountedAll.then_ {es : List Event} {ps : List Part} {s t u : State} (h : CountedAll es s t)
    (k : UnchangedBut ps t u) (hp : Part.counters ∉ ps := by decide) : CountedAll es s u := fun i => by
  rw [k.counters hp]
  exact h i

theorem CountedAll.after {es : List Event} {ps : List Part} {s t u : State} (k : UnchangedBut ps s t)
    (h : CountedAll es t u) (hc : Part.config ∉ ps := by decide) (hp : Part.counters ∉ ps := by decide) :
    CountedAll es s u := fun i => by
  have := h i
  rwa [k.conf hc, k.counters hp] at this

theorem CountedAll.count (s : State) (k : EventKind) (v : Option Nat) (carrier : Nat) :
    CountedAll [(k, v, carrier)] s (s.count k v carrier) := (Counted.count s k v carrier).all

/-! ## The transmit queue (R160) -/

theorem placeIn_room {f : TxFrame} {q : List TxFrame} (h : q.length < 8) :
    placeIn f q = { queue := q ++ [f], discarded := false, placed := true } := by
  simp [placeIn, txPlaces, h]

/-- A discard falls on a candidate: the chosen position holds one, or was chosen before. -/
theorem discardIndex_discardable {q : List TxFrame} {i j : Nat} {best : Option (Nat × Nat)} (h : discardIndex q i best = some j) :
    (∃ k, best = some (j, k)) ∨ (i ≤ j ∧ ∃ f, q[j - i]? = some f ∧ f.discardable = true) := by
  induction q generalizing i best with
  | nil =>
    simp only [discardIndex, Option.map_eq_some_iff] at h
    obtain ⟨⟨a, k⟩, hb, rfl⟩ := h
    exact .inl ⟨k, hb⟩
  | cons f rest ih =>
    simp only [discardIndex] at h
    rcases ih h with ⟨k, hk⟩ | ⟨hle, g, hg, hd⟩
    · by_cases hf : f.discardable = true
      · have hhead : j = i → (i ≤ j ∧ ∃ g, (f :: rest)[j - i]? = some g ∧ g.discardable = true) := fun hj => by
          subst hj
          exact ⟨Nat.le_refl _, f, by simp, hf⟩
        simp only [hf, if_true] at hk
        split at hk
        · split at hk
          · exact .inr (hhead (by simp_all))
          · exact .inl ⟨k, by simp_all⟩
        · exact .inr (hhead (by simp_all))
      · rw [if_neg hf] at hk
        exact .inl ⟨k, hk⟩
    · refine .inr ⟨by omega, g, ?_, hd⟩
      have hsub : j - i = (j - (i + 1)) + 1 := by omega
      rw [hsub]
      simpa using hg

/-- A frame of class 0 or 1, or one being transmitted, is never discarded. -/
theorem mem_placeIn {f g : TxFrame} {q : List TxFrame} (hg : g ∈ q) (hkeep : g.discardable = false) :
    g ∈ (placeIn f q).queue := by
  unfold placeIn
  split
  · exact List.mem_append_left _ hg
  · split
    · rename_i i hi
      rcases discardIndex_discardable hi with ⟨k, hk⟩ | ⟨-, x, hx, hd⟩
      · cases hk
      · obtain ⟨n, hn, rfl⟩ := List.mem_iff_getElem.mp hg
        refine List.mem_eraseIdx_iff_getElem?.mpr ⟨n, fun hni => ?_, ?_⟩
        · subst hni
          rw [Nat.sub_zero, List.getElem?_append_left hn, List.getElem?_eq_getElem hn] at hx
          cases hx
          rw [hkeep] at hd
          cases hd
        · rw [List.getElem?_append_left hn, List.getElem?_eq_getElem hn]
    · exact hg

theorem TxFrame.discardable_eq_false {f : TxFrame} (h : f.body.cls < 2 ∨ f.sending = true) : f.discardable = false := by
  unfold TxFrame.discardable
  rcases h with h | h
  · simp [Nat.not_le.mpr h]
  · simp [h]

/-- A new answer is a candidate itself, so a full queue always gives up a frame for it. -/
theorem placeIn_discarded {f : TxFrame} {q : List TxFrame} (hf : f.discardable = true) (hq : 8 ≤ q.length) :
    (placeIn f q).discarded = true := by
  have hsome (p : List TxFrame) (i : Nat) (best : Option (Nat × Nat)) : (discardIndex (p ++ [f]) i best).isSome = true := by
    induction p generalizing i best with
    | nil =>
      simp only [List.nil_append, discardIndex, hf, if_true]
      split
      · split <;> rfl
      · rfl
    | cons g rest ih =>
      simp only [List.cons_append, discardIndex]
      exact ih _ _
  unfold placeIn
  rw [if_neg (by simp [txPlaces]; omega)]
  split
  · rfl
  · rename_i hnone
    have := hsome q 0 none
    rw [hnone] at this
    cases this

theorem State.mem_alertIfRisen {s : State} {g : TxFrame} (b : Bool) (hg : g ∈ s.liu.tx) (hkeep : g.discardable = false) :
    g ∈ (s.alertIfRisen b).liu.tx := by
  unfold State.alertIfRisen
  dsimp only
  split
  · split
    · exact mem_placeIn hg hkeep
    · exact mem_placeIn hg hkeep
  · exact hg

theorem State.mem_raise {s : State} {g : TxFrame} (c : Condition) (slot : Option Slot) (hg : g ∈ s.liu.tx)
    (hkeep : g.discardable = false) : g ∈ (s.raise c slot).liu.tx := State.mem_alertIfRisen _ hg hkeep

theorem State.mem_queueFrame {s : State} {f g : TxFrame} (hg : g ∈ s.liu.tx) (hkeep : g.discardable = false) :
    g ∈ (s.queueFrame f).liu.tx := by
  unfold State.queueFrame
  dsimp only
  split
  · exact State.mem_raise _ _ (mem_placeIn hg hkeep) hkeep
  · exact mem_placeIn hg hkeep

theorem State.queueFrame_room {s : State} {f : TxFrame} (h : s.liu.tx.length < 8) :
    s.queueFrame f = s.setTx (s.liu.tx ++ [f]) := by
  unfold State.queueFrame
  rw [placeIn_room h]
  rfl

theorem State.isSet_queueFrame {s : State} {f : TxFrame} (hf : f.discardable = true) (h : 8 ≤ s.liu.tx.length) :
    (s.queueFrame f).rpt.isSet .txDiscard = true := by
  unfold State.queueFrame
  dsimp only
  rw [if_pos (placeIn_discarded hf h)]
  exact isSet_raise_same _ _ _

/-! ## Answers and refusals -/

theorem Answered.queueFrame (s : State) (b : Body) (dest : BitVec 6) (hb : 2 ≤ b.cls) :
    Answered b dest s (s.queueFrame (TxFrame.fresh b 0 dest)) where
  room h := by
    rw [State.queueFrame_room h]
    exact ⟨rfl, rfl⟩
  full h := ⟨State.isSet_queueFrame (by simp [TxFrame.discardable, TxFrame.fresh, hb]) h,
    fun _ hf hkeep => State.mem_queueFrame hf (TxFrame.discardable_eq_false hkeep)⟩

theorem Answered.answer (s : State) (b : Body) (dest : BitVec 6) (hb : 2 ≤ b.cls := by exact Nat.le_refl 2) :
    Answered b dest s (s.answer dest b) := .queueFrame s b dest hb

theorem Answered.after {b : Body} {dest : BitVec 6} {ps : List Part} {s t u : State} (h : UnchangedBut ps s t)
    (k : Answered b dest t u) (hc : Part.conditions ∉ ps := by decide) (ht : Part.transmit ∉ ps := by decide) :
    Answered b dest s u where
  room hr := by
    rw [← h.tx ht] at hr
    obtain ⟨htx, hconds⟩ := k.room hr
    exact ⟨by rw [htx, h.tx ht], by rw [hconds, h.conds hc]⟩
  full hf := by
    rw [← h.tx ht] at hf ⊢
    exact k.full hf

theorem Answered.then_ {b : Body} {dest : BitVec 6} {ps : List Part} {s t u : State} (k : Answered b dest s t)
    (h : UnchangedBut ps t u) (hc : Part.conditions ∉ ps := by decide) (ht : Part.transmit ∉ ps := by decide) :
    Answered b dest s u where
  room hr := by
    obtain ⟨htx, hconds⟩ := k.room hr
    exact ⟨by rw [h.tx ht, htx], by rw [h.conds hc, hconds]⟩
  full hf := by
    obtain ⟨hset, hkeep⟩ := k.full hf
    rw [h.isSet _ hc, h.tx ht]
    exact ⟨hset, hkeep⟩

theorem Refused.refuse (s : State) (dest : BitVec 6) (n : Option (BitVec 16)) (slot : Option Nat) (r : Reason) (c : Nat) :
    Refused dest n slot r c s (s.refuse dest n slot r c) :=
  ⟨(Answered.answer s _ dest).then_ (frame_refusalEvent _ r c), (Counted.count _ _ _ _).after (frame_answer s dest _)⟩

theorem Refused.after {dest : BitVec 6} {n : Option (BitVec 16)} {slot : Option Nat} {r : Reason} {c : Nat} {ps : List Part}
    {s t u : State} (h : UnchangedBut ps s t) (k : Refused dest n slot r c t u) (hg : Part.config ∉ ps := by decide)
    (hc : Part.conditions ∉ ps := by decide) (hn : Part.counters ∉ ps := by decide) (ht : Part.transmit ∉ ps := by decide) :
    Refused dest n slot r c s u := by
  obtain ⟨hanswer, hcount⟩ := k
  exact ⟨hanswer.after h hc ht, hcount.after h hg hn⟩

theorem Refused.then_ {dest : BitVec 6} {n : Option (BitVec 16)} {slot : Option Nat} {r : Reason} {c : Nat} {ps : List Part}
    {s t u : State} (k : Refused dest n slot r c s t) (h : UnchangedBut ps t u)
    (hc : Part.conditions ∉ ps := by decide) (hn : Part.counters ∉ ps := by decide) (ht : Part.transmit ∉ ps := by decide) :
    Refused dest n slot r c s u := by
  obtain ⟨hanswer, hcount⟩ := k
  exact ⟨hanswer.then_ h hc ht, hcount.then_ h hn⟩

end Sys2Proof.Machine
end

