-- ==== Sys2Proof/Proofs/Steps.lean ====
section
/- One theorem after another: side by side, their proofs ask for more threads than the check's memory limit allows. -/
set_option Elab.async false

/-! SUPPORT and proofs of O1 to O5: what a step takes, what a reset leaves, and STANDBY. -/

namespace Sys2Proof.Machine

/-! ## What a step takes (entries 1 and 2) -/

theorem step_of_pending {s : State} {c : Instr} {rest : List Instr} (h : s.pending = c :: rest) :
    step s = exec c (s.setPending rest) := by
  unfold step
  rw [h]

theorem step_of_due {s : State} {c : Instr} (h : s.pending = []) (hdue : s.due = some c) : step s = exec c s := by
  unfold step
  rw [h]
  dsimp only
  rw [hdue]

theorem step_of_idle {s : State} (h : s.pending = []) (hdue : s.due = none) : step s = .next s.tick := by
  unfold step
  rw [h]
  dsimp only
  rw [hdue]

theorem State.tick_of_loaded {s : State} (h : s.loaded = true) : s.tick = s.passMs := if_pos h

theorem State.tick_of_unloaded {s : State} (h : s.loaded = false) : s.tick = s := by simp [State.tick, h]

/-- Settles O1: the front of the queue is what the step reads first. -/
theorem stepRunsTheFrontCommand : Obligations.StepRunsTheFrontCommand := fun _ _ _ => step_of_pending

/-! ## One millisecond -/

theorem State.passMs_cycle? (s : State) (i : Slot) :
    s.passMs.cycle? i = (s.cycle? i).map (fun c => c.passed (s.sense i).bolt) := by
  unfold State.cycle?
  rw [State.passMs, List.find?_map]
  show Option.map (fun c : Cycle => c.passed (s.sense c.slot).bolt) (s.dsq.cycles.find? (fun c => c.slot == i)) = _
  cases hc : s.dsq.cycles.find? (fun c => c.slot == i) with
  | none => rfl
  | some c =>
    have hslot : c.slot = i := by simpa using List.find?_some hc
    simp [hslot]

theorem State.passMs_driver (s : State) (i : Slot) :
    tget s.passMs.bgu.drivers i = (tget s.bgu.drivers i).map (fun n => n - 1) := by
  simp only [State.passMs, Bgu.passed, tget_tmap]

theorem State.passMs_liu (s : State) : s.passMs.liu = { s.liu with
    timer := if s.liu.line = .joining ∨ s.liu.line = .quiet then s.liu.timer + 1 else s.liu.timer } := by
  simp only [State.passMs]
  cases s.liu.line <;> simp

/-- A debounce timer runs while the level is away from the debounced state. -/
theorem debounce_some (b level : Bool) (timer : Nat) :
    debounce (some b) level timer = if level = b then 0 else timer + 1 := by
  cases b <;> cases level <;> rfl

theorem Sense.passed_eq (x : Sense) (m : ConfigFields) (p : Pins) : ∃ door presence, x.passed m p = { x with
      homeIdle := x.homeIdle.map (fun n => n + 1)
      boltLow := x.boltLow.map (fun n => min (n + 1) 200)
      doorTimer := door
      presenceTimer := presence
      baseTimer := if x.baseline = none then x.baseTimer + 1 else 0 }
    ∧ (∀ isOpen, x.door = some isOpen → door = if (p.door != m.doorPolarity) = isOpen then 0 else x.doorTimer + 1)
    ∧ ∀ on, x.presence = some on → presence = if (p.presence == m.presencePolarity) = on then 0 else x.presenceTimer + 1 := by
  refine ⟨(x.passed m p).doorTimer, (x.passed m p).presenceTimer, ?_, fun isOpen h => ?_, fun on h => ?_⟩
  · simp only [Sense.passed, advance, boltLowTime, Option.isNone_iff_eq_none]
  · simp only [Sense.passed, h, debounce_some]
    rfl
  · simp only [Sense.passed, h, debounce_some]
    rfl

/-- Settles O2: the millisecond, field by field. -/
theorem idleStepTakesWhatIsDueOrOneMillisecond : Obligations.IdleStepTakesWhatIsDueOrOneMillisecond := by
  intro s hpending
  refine ⟨fun c hdue => step_of_due hpending hdue, fun hdue hloaded => ?_, fun hdue hloaded => ?_⟩
  · rw [step_of_idle hpending hdue, State.tick_of_unloaded hloaded]
  · refine ⟨s.passMs, by rw [step_of_idle hpending hdue, State.tick_of_loaded hloaded], rfl, rfl, s.passMs_driver, rfl, rfl, rfl,
      fun i hi => ?_, fun i hi => ?_, rfl, rfl, fun i => s.passMs_cycle? i, rfl, s.passMs_liu, frame_passMs s⟩
    · rw [State.passMs_sense, hi]
      rfl
    · rw [State.passMs_sense, hi]
      exact Sense.passed_eq _ _ _

/-! ## Resets (R171) -/

theorem exec_restartReset {s : State} (active : Causes) (hrestart : s.restart = true)
    (hdrive : ∀ i, tget s.bgu.drivers i = none) (hnote : s.noteBusy = false) :
    exec (.restartReset active) s = .next (s.resetBy (causeUnion { Causes.none with restart := true } active)) := by
  have hany : s.anyDrive = false := by simp [State.anyDrive, hdrive]
  show Host.Outcome.next (if s.restartReady then _ else s) = _
  rw [State.restartReady, hrestart, hany, hnote]
  rfl

/-- Settles O3: every reset is `resetBy`, with the causes of its kind. -/
theorem resetsLeaveTheStateAfterReset : Obligations.ResetsLeaveTheStateAfterReset := by
  intro s active c own h
  have hexec : exec c s = .next (s.resetBy (causeUnion own active)) := by
    obtain ⟨rfl, rfl⟩ | ⟨rfl, rfl⟩ | ⟨rfl, rfl⟩ | ⟨rfl, rfl, hrestart, hdrive, hnote⟩ := h
    exacts [rfl, rfl, rfl, exec_restartReset active hrestart hdrive hnote]
  exact ⟨_, hexec, rfl, rfl, .resetBy s _, rfl, rfl, State.resetBy_rec? s _, rfl, rfl, rfl⟩

section Abandoned

theorem SlotStore.abandoned_a {x : SlotStore} (n : Nat) (h : ∀ w, x.writing = some w → w.toB = true) : (x.abandoned n).a = x.a := by
  unfold SlotStore.abandoned
  split
  · rfl
  · rename_i w hw
    rw [if_pos (h w hw)]

theorem SlotStore.abandoned_b {x : SlotStore} (n : Nat) (h : ∀ w, x.writing = some w → w.toB = false) : (x.abandoned n).b = x.b := by
  unfold SlotStore.abandoned
  split
  · rfl
  · rename_i w hw
    rw [if_neg (by simp [h w hw])]

theorem RecCopy.torn_cases (c : RecCopy) (n : Nat) : c.torn n = c ∨ c.torn n = { c with ok := false } := by
  unfold RecCopy.torn
  split
  exacts [.inr rfl, .inl rfl]

theorem SlotStore.abandoned_a_cases (x : SlotStore) (n : Nat) :
    (x.abandoned n).a = x.a ∨ (x.abandoned n).a = { x.a with ok := false } := by
  unfold SlotStore.abandoned
  split
  · exact .inl rfl
  · split
    exacts [.inl rfl, x.a.torn_cases n]

theorem SlotStore.abandoned_b_cases (x : SlotStore) (n : Nat) :
    (x.abandoned n).b = x.b ∨ (x.abandoned n).b = { x.b with ok := false } := by
  unfold SlotStore.abandoned
  split
  · exact .inl rfl
  · split
    exacts [x.b.torn_cases n, .inl rfl]

theorem Locks.abandoned_a {x : Locks} (n : Nat) (h : ∀ w, x.writing = some w → w.1 = true) : (x.abandoned n).a = x.a := by
  unfold Locks.abandoned
  split
  · rfl
  · rename_i w hw
    rw [if_pos (h w hw)]

theorem Locks.abandoned_b {x : Locks} (n : Nat) (h : ∀ w, x.writing = some w → w.1 = false) : (x.abandoned n).b = x.b := by
  unfold Locks.abandoned
  split
  · rfl
  · rename_i w hw
    rw [if_neg (by simp [h w hw])]

theorem Cts.afterReset_minuteA {x : Cts} (n : Nat) (h : x.minuteWrites = [] ∨ x.minuteNextB = true) :
    (x.afterReset n).minuteA = x.minuteA := by
  unfold Cts.afterReset
  rcases h with h | h <;> simp [h]

theorem Cts.afterReset_minuteB {x : Cts} (n : Nat) (h : x.minuteWrites = [] ∨ x.minuteNextB = false) :
    (x.afterReset n).minuteB = x.minuteB := by
  unfold Cts.afterReset
  rcases h with h | h <;> simp [h]

theorem Cts.afterReset_causeStore {x : Cts} (n : Nat) (h : x.causeWriting = none) :
    (x.afterReset n).causeStore = x.causeStore := by
  unfold Cts.afterReset
  simp [h]

end Abandoned

/-- Settles O4: the store of `resetBy`, copy by copy. -/
theorem resetAbandonsOnlyWritesInProgress : Obligations.ResetAbandonsOnlyWritesInProgress := by
  intro s active c h
  have hexec : ∃ causes, exec c s = .next (s.resetBy causes) := by
    rcases h with rfl | rfl | rfl
    exacts [⟨_, rfl⟩, ⟨_, rfl⟩, ⟨_, rfl⟩]
  obtain ⟨causes, hexec⟩ := hexec
  refine ⟨_, hexec, rfl, rfl, fun i hw => ?_, fun i hw => ?_, fun i => ?_, fun i => ?_, fun i hw => ?_, fun i hw => ?_,
    Cts.afterReset_minuteA _, Cts.afterReset_minuteB _, Cts.afterReset_causeStore _⟩
  · rw [State.resetBy_store, SlotStore.abandoned_a _ hw]
  · rw [State.resetBy_store, SlotStore.abandoned_b _ hw]
  · rw [State.resetBy_store]
    exact SlotStore.abandoned_a_cases _ _
  · rw [State.resetBy_store]
    exact SlotStore.abandoned_b_cases _ _
  · rw [State.resetBy_locks, Locks.abandoned_a _ hw]
  · rw [State.resetBy_locks, Locks.abandoned_b _ hw]

/-! ## The structural checks and STANDBY (R172, R174) -/

theorem structureOk_iff {m : ConfigFields} : structureOk m = true ↔ StructurallySound m := by
  unfold structureOk
  simp only [Bool.and_eq_true, decide_eq_true_eq, Bool.not_eq_true', Bool.and_eq_false_iff, decide_eq_false_iff_not, List.any_eq_true,
    mem_allSlots, true_and, bne_iff_ne]
  constructor
  · rintro ⟨⟨⟨⟨⟨⟨⟨h1, h63⟩, hterm⟩, hsupply⟩, htime⟩, hserv1⟩, hserv2⟩, hslot⟩
    exact ⟨⟨h1, h63⟩, fun ⟨hlo, hhi⟩ => hterm.elim (absurd hlo) (absurd hhi), ⟨hsupply, htime, hserv1, hserv2⟩, hslot⟩
  · rintro ⟨⟨h1, h63⟩, hterm, ⟨hsupply, htime, hserv1, hserv2⟩, hslot⟩
    exact ⟨⟨⟨⟨⟨⟨⟨h1, h63⟩, not_and_or.mp hterm⟩, hsupply⟩, htime⟩, hserv1⟩, hserv2⟩, hslot⟩

theorem passedRead_contents (image : List Byte) (m : ConfigFields) (check : BitVec 16) (h : crcBytes image = check)
    (hsound : StructurallySound m) : passedRead (.contents image m check) = some (m, check) :=
  if_pos ⟨h, structureOk_iff.mpr hsound⟩

theorem passedRead_eq_none {r : ConfigRead}
    (h : ∀ image m check, r = .contents image m check → ¬(crcBytes image = check ∧ StructurallySound m)) : passedRead r = none := by
  cases r with
  | noAnswer => rfl
  | contents image m check =>
    exact if_neg fun ⟨hcrc, hok⟩ => h image m check rfl ⟨hcrc, structureOk_iff.mp hok⟩

theorem exec_read_of_passed {s : State} {r : ConfigRead} {m : ConfigFields} {check : BitVec 16} (hphase : s.phase = .reading)
    (h : passedRead r = some (m, check)) : exec (.configurationRead r) s = .next (s.startUp m check) := by
  show Host.Outcome.next (if s.phase = .reading then _ else s) = _
  rw [if_pos hphase, h]

theorem exec_read_of_failed {s : State} {r : ConfigRead} (hphase : s.phase = .reading) (h : passedRead r = none) :
    exec (.configurationRead r) s = .next s.enterStandby := by
  show Host.Outcome.next (if s.phase = .reading then _ else s) = _
  rw [if_pos hphase, h]

theorem frame_enterStandby (s : State) : UnchangedBut [.phase, .config, .held] s s.enterStandby :=
  ((frame_setPhase s _).seq (frame_setCfg _ _) (rs := [.phase, .config])).seq (frame_setHeldCauses _ _)

/-- With nothing running and start-up not at reconciliation, no event is due. -/
theorem QuietSinceReset.due {s : State} (hq : QuietSinceReset s) (hphase : s.phase ≠ .reconciling) (hloaded : s.loaded = false) :
    s.due = none := by
  have hhandover : s.dueHandover = none := by rw [State.dueHandover, hq.line]; rfl
  have hrestart : s.restartReady = false := by rw [State.restartReady, hq.restart]; rfl
  have hrequest : s.dueRequest = none := by rw [State.dueRequest, hq.line]; rfl
  have hturn (i : Slot) : s.reconcileTurn i = false := by simp [State.reconcileTurn, hphase]
  have hreconcile : s.dueReconciliation = none := by simp [State.dueReconciliation, hturn]
  have hjoin : s.readyToJoin = false := by simp [State.readyToJoin, hphase]
  have hdriver (i : Slot) : s.dueDriver i = none := by simp [State.dueDriver, hq.budget, Bgu.reset, dueIf]
  have hline : ∀ x ∈ s.dueLine, x = none := by simp [State.dueLine, hq.line, Liu.reset, dueIf]
  have hsensor (i : Slot) : ∀ x ∈ s.dueSensor i, x = none := by
    simp [State.dueSensor, State.dueBaseline, State.awaitsBaseline, State.sense, hq.sensing, hloaded, Sense.reset, dueIf, reached]
  have hnone : ∀ x ∈ s.dueAll, x = none := by
    intro x hx
    simp only [State.dueAll, hhandover, hrestart, hrequest, hreconcile, hjoin, hq.requests, hq.doors, hloaded, List.mem_append,
      List.mem_cons, List.mem_map, List.mem_flatMap, dueIf, Dsq.reset, hq.budget, Bgu.reset, reached, List.not_mem_nil] at hx
    obtain ((((((((hx | hx) | hx) | hx) | hx) | hx) | hx) | hx) | hx) := hx
    · simpa using hx
    · obtain ⟨i, -, rfl⟩ := hx
      exact hdriver i
    · simp at hx
    · simpa using hx
    · exact hline x hx
    · simp at hx
    · obtain ⟨i, -, hx⟩ := hx
      exact hsensor i x hx
    · simp at hx
    · simpa using hx
  have hnil : s.dueAll.filterMap id = [] := List.filterMap_eq_nil_iff.mpr hnone
  unfold State.due
  rw [hnil]
  rfl

/-- Settles O5: a failed read is `enterStandby`, and at rest no command but a reset does anything. -/
theorem failedReadStandsByUntilAReset : Obligations.FailedReadStandsByUntilAReset := by
  refine ⟨fun s r hphase hfail => ?_, fun s hphase hq => ?_⟩
  · exact ⟨s.enterStandby, exec_read_of_failed hphase (passedRead_eq_none hfail), rfl, rfl, rfl, frame_enterStandby s⟩
  · have hloaded : s.loaded = false := by simp [State.loaded, hphase]
    refine ⟨fun c => ?_, fun hpending => ?_⟩
    · by_cases hreset : IsReset c
      · exact .inl hreset
      · exact .inr (exec_quiet hq hloaded c hreset fun _ => by simp [hphase])
    · rw [step_of_idle hpending (hq.due (by simp [hphase]) hloaded), State.tick_of_unloaded hloaded]

end Sys2Proof.Machine
end

