-- ==== Sys2Proof/Proofs/Clamps.lean ====
section
/- One theorem after another: side by side, their proofs ask for more threads than the check's memory limit allows. -/
set_option Elab.async false

/-! SUPPORT and proof of O7: the clamps of Table 13-1. -/

namespace Sys2Proof.Machine

/-! ## One value -/

theorem clampTo_nearerEnd {lo hi : Nat} (h : lo ≤ hi) (x : Nat) : NearerEnd lo hi x (clampTo lo hi x) := by
  unfold NearerEnd clampTo
  omega

theorem min_nearerEnd (hi x : Nat) : NearerEnd 0 hi x (min x hi) := by
  unfold NearerEnd
  omega

theorem clampTo_mem {lo hi : Nat} (h : lo ≤ hi) (x : Nat) : lo ≤ clampTo lo hi x ∧ clampTo lo hi x ≤ hi := by
  unfold clampTo
  omega

theorem clampTo_of_mem {lo hi x : Nat} (h : lo ≤ x ∧ x ≤ hi) : clampTo lo hi x = x := by
  unfold clampTo
  omega

/-! ## Vectors and tables -/

theorem getElem_vmap {α β : Type} {n : Nat} (f : α → β) (v : Vector α n) (i : Fin n) : (vmap f v)[i] = f v[i] := by
  simp [vmap]

theorem vmap_eq_self {α : Type} {n : Nat} {f : α → α} {v : Vector α n} (h : ∀ i : Fin n, f v[i] = v[i]) : vmap f v = v := by
  ext i hi
  have := getElem_vmap f v ⟨i, hi⟩
  rw [h] at this
  exact this

theorem tmap_eq_self {α : Type} {f : α → α} {t : Table α} (h : ∀ i, f (tget t i) = tget t i) : tmap f t = t :=
  table_ext fun i => by rw [tget_tmap, h]

/-! ## The compound fields -/

theorem clampTariff_inRange (t : Tariff) : tariffInRange (clampTariff t) := by
  unfold tariffInRange clampTariff clampTo
  dsimp only
  omega

theorem clampTariff_of_inRange {t : Tariff} (h : tariffInRange t) : clampTariff t = t := by
  obtain ⟨hfree, hstep, hstepTop, hprice, hday, hmax⟩ := h
  unfold clampTariff
  rw [min_eq_left hfree, clampTo_of_mem ⟨hstep, hstepTop⟩, min_eq_left hprice, min_eq_left hday, min_eq_left hmax]

theorem clampCounter_inRange (c : CounterSetting) : (clampCounter c).kind ≤ 7 ∧ (clampCounter c).filter ≤ 63 := by
  unfold clampCounter
  dsimp only
  split <;> omega

theorem clampCounter_of_inRange {c : CounterSetting} (h : c.kind ≤ 7 ∧ c.filter ≤ 63) : clampCounter c = c := by
  obtain ⟨hkind, hfilter⟩ := h
  unfold clampCounter
  rw [if_pos hkind, if_pos hkind, min_eq_left hfilter]

theorem clampCounter_of_kind {c : CounterSetting} (h : c.kind ≤ 7) :
    (clampCounter c).kind = c.kind ∧ (clampCounter c).mask = c.mask := ⟨if_pos h, if_pos h⟩

theorem clampCounter_of_no_kind {c : CounterSetting} (h : 7 < c.kind) :
    (clampCounter c).kind = 0 ∧ (clampCounter c).mask = 0 := ⟨if_neg (by omega), if_neg (by omega)⟩

/-! ## The fields together -/

section Fields

variable (m : ConfigFields)

theorem clampFields_threshold : (clampFields m).threshold = clampTo 6 12 m.threshold := by simp only [clampFields]

theorem clampFields_span : (clampFields m).span = clampTo 1 4 m.span := by simp only [clampFields]

theorem clampFields_pulseLength : (clampFields m).pulseLength = clampTo 100 800 m.pulseLength / 10 * 10 := by simp only [clampFields]

theorem clampFields_ajarTime : (clampFields m).ajarTime = clampTo 60 600 m.ajarTime := by simp only [clampFields]

theorem clampFields_budget : (clampFields m).budget = clampTo 1 8 m.budget := by simp only [clampFields]

theorem clampFields_lampShed : (clampFields m).lampShed = clampTo 1 4 m.lampShed := by simp only [clampFields]

theorem clampFields_holdTime : (clampFields m).holdTime = clampTo 30 300 m.holdTime := by simp only [clampFields]

theorem clampFields_collectLapse : (clampFields m).collectLapse = clampTo 30 600 m.collectLapse := by simp only [clampFields]

theorem clampFields_sweepLapse : (clampFields m).sweepLapse = clampTo 30 600 m.sweepLapse := by simp only [clampFields]

theorem clampFields_hmax : (clampFields m).hmax = clampTo 60 20160 m.hmax := by simp only [clampFields]

theorem clampFields_hdef : (clampFields m).hdef = clampTo 60 (clampFields m).hmax m.hdef := by simp only [clampFields]

theorem clampFields_granularity : (clampFields m).granularity = min m.granularity 4 := by simp only [clampFields]

theorem clampFields_grace : (clampFields m).grace = min m.grace 30 := by simp only [clampFields]

theorem clampFields_slot (i : Slot) : tget (clampFields m).slotMap i = min (tget m.slotMap i) 4 := by
  simp only [clampFields, tget_tmap]

theorem clampFields_auxShed (i : Fin 4) : (clampFields m).auxShed[i] = clampTo 1 4 m.auxShed[i] := by
  simp only [clampFields, getElem_vmap]

theorem clampFields_tariff (i : Fin 8) : (clampFields m).tariffs[i] = clampTariff m.tariffs[i] := by
  simp only [clampFields, getElem_vmap]

theorem clampFields_multiplier (i : Fin 4) : (clampFields m).multipliers[i] = clampTo 4 32 m.multipliers[i] := by
  simp only [clampFields, getElem_vmap]

theorem clampFields_counter (i : Fin 4) : (clampFields m).counters[i] = clampCounter m.counters[i] := by
  simp only [clampFields, getElem_vmap]

theorem clampFields_hmax_mem : 60 ≤ (clampFields m).hmax ∧ (clampFields m).hmax ≤ 20160 := by
  rw [clampFields_hmax]
  exact clampTo_mem (by omega) m.hmax

theorem clampFields_inRange : InRange (clampFields m) where
  slots i := by
    rw [clampFields_slot]
    exact min_le_right _ _
  threshold := by
    rw [clampFields_threshold]
    exact clampTo_mem (by omega) _
  span := by
    rw [clampFields_span]
    exact clampTo_mem (by omega) _
  pulse := by
    obtain ⟨hlo, hhi⟩ := clampTo_mem (lo := 100) (hi := 800) (by omega) m.pulseLength
    rw [clampFields_pulseLength]
    omega
  ajar := by
    rw [clampFields_ajarTime]
    exact clampTo_mem (by omega) _
  budget := by
    rw [clampFields_budget]
    exact clampTo_mem (by omega) _
  lampShed := by
    rw [clampFields_lampShed]
    exact clampTo_mem (by omega) _
  auxShed i := by
    rw [clampFields_auxShed]
    exact clampTo_mem (by omega) _
  hold := by
    rw [clampFields_holdTime]
    exact clampTo_mem (by omega) _
  collect := by
    rw [clampFields_collectLapse]
    exact clampTo_mem (by omega) _
  sweep := by
    rw [clampFields_sweepLapse]
    exact clampTo_mem (by omega) _
  hmax := clampFields_hmax_mem m
  hdef := by
    obtain ⟨hlo, -⟩ := clampFields_hmax_mem m
    rw [clampFields_hdef]
    exact clampTo_mem hlo m.hdef
  granularity := by
    rw [clampFields_granularity]
    exact min_le_right _ _
  tariffs i := by
    rw [clampFields_tariff]
    exact clampTariff_inRange _
  multipliers i := by
    rw [clampFields_multiplier]
    exact clampTo_mem (by omega) _
  grace := by
    rw [clampFields_grace]
    exact min_le_right _ _
  counters i := by
    rw [clampFields_counter]
    exact clampCounter_inRange _

theorem clampFields_pulseLength_cases : (m.pulseLength < 100 → (clampFields m).pulseLength = 100)
    ∧ (100 ≤ m.pulseLength → m.pulseLength ≤ 800 → (clampFields m).pulseLength = m.pulseLength / 10 * 10)
    ∧ (800 < m.pulseLength → (clampFields m).pulseLength = 800) := by
  rw [clampFields_pulseLength]
  unfold clampTo
  omega

end Fields

theorem clampFields_of_inRange {m : ConfigFields} (h : InRange m) : clampFields m = m := by
  obtain ⟨hpulse, hpulseTop, hten⟩ := h.pulse
  unfold clampFields
  rw [tmap_eq_self (fun i => min_eq_left (h.slots i)), clampTo_of_mem h.threshold, clampTo_of_mem h.span,
    clampTo_of_mem ⟨hpulse, hpulseTop⟩, Nat.div_mul_cancel (Nat.dvd_of_mod_eq_zero hten), clampTo_of_mem h.ajar,
    clampTo_of_mem h.budget, clampTo_of_mem h.lampShed, vmap_eq_self (fun i => clampTo_of_mem (h.auxShed i)),
    clampTo_of_mem h.hold, clampTo_of_mem h.collect, clampTo_of_mem h.sweep, clampTo_of_mem h.hmax, clampTo_of_mem h.hdef,
    min_eq_left h.granularity, vmap_eq_self (fun i => clampTariff_of_inRange (h.tariffs i)),
    vmap_eq_self (fun i => clampTo_of_mem (h.multipliers i)), min_eq_left h.grace,
    vmap_eq_self (fun i => clampCounter_of_inRange (h.counters i))]

/-- Settles O7: each field by its own clamp. -/
theorem clampingPutsEveryFieldInRange : Obligations.ClampingPutsEveryFieldInRange := by
  intro m
  obtain ⟨hpulseLow, hpulseIn, hpulseHigh⟩ := clampFields_pulseLength_cases m
  obtain ⟨hmax, -⟩ := clampFields_hmax_mem m
  refine ⟨clampFields_inRange m, clampFields_of_inRange, fun i => ?_, ?_, ?_, hpulseLow, hpulseIn, hpulseHigh, ?_, ?_, ?_,
    fun i => ?_, ?_, ?_, ?_, ?_, ?_, ?_, fun i => ?_, fun i => ?_, ?_, fun i => ?_, ?_⟩
  · rw [clampFields_slot]
    exact min_nearerEnd _ _
  · rw [clampFields_threshold]
    exact clampTo_nearerEnd (by omega) _
  · rw [clampFields_span]
    exact clampTo_nearerEnd (by omega) _
  · rw [clampFields_ajarTime]
    exact clampTo_nearerEnd (by omega) _
  · rw [clampFields_budget]
    exact clampTo_nearerEnd (by omega) _
  · rw [clampFields_lampShed]
    exact clampTo_nearerEnd (by omega) _
  · rw [clampFields_auxShed]
    exact clampTo_nearerEnd (by omega) _
  · rw [clampFields_holdTime]
    exact clampTo_nearerEnd (by omega) _
  · rw [clampFields_collectLapse]
    exact clampTo_nearerEnd (by omega) _
  · rw [clampFields_sweepLapse]
    exact clampTo_nearerEnd (by omega) _
  · rw [clampFields_hmax]
    exact clampTo_nearerEnd (by omega) _
  · rw [clampFields_hdef]
    exact clampTo_nearerEnd hmax _
  · rw [clampFields_granularity]
    exact min_nearerEnd _ _
  · rw [clampFields_tariff]
    exact ⟨min_nearerEnd _ _, clampTo_nearerEnd (by omega) _, min_nearerEnd _ _, min_nearerEnd _ _, min_nearerEnd _ _⟩
  · rw [clampFields_multiplier]
    exact clampTo_nearerEnd (by omega) _
  · rw [clampFields_grace]
    exact min_nearerEnd _ _
  · rw [clampFields_counter]
    exact ⟨min_nearerEnd _ _, clampCounter_of_kind, clampCounter_of_no_kind⟩
  · simp only [clampFields, and_self]

end Sys2Proof.Machine
end

