-- ==== Sys2Proof/Proofs/Loading.lean ====
section
/- One theorem after another: side by side, their proofs ask for more threads than the check's memory limit allows. -/
set_option Elab.async false

/-! SUPPORT and proofs of O6 and O8: the load of the configuration, the store's mark, the lock-cycle counts and the reset causes
(R173, R175). -/

namespace Sys2Proof.Machine

/-! ## Conditions that stand -/

/-- A condition once set stays set. -/
def CondsKept (s t : State) : Prop := ∀ d, s.rpt.isSet d = true → t.rpt.isSet d = true

theorem CondsKept.trans {s t u : State} (h : CondsKept s t) (k : CondsKept t u) : CondsKept s u := fun d hd => k d (h d hd)

theorem CondsKept.of_frame {ps : List Part} {s t : State} (h : UnchangedBut ps s t)
    (hp : Part.conditions ∉ ps := by decide) : CondsKept s t := fun d hd => by rwa [h.isSet d hp]

theorem CondsKept.raiseIf (b : Bool) (s : State) (c : Condition) (slot : Option Slot) :
    CondsKept s (if b then s.raise c slot else s) := by
  split
  · exact (Raised.raise s c slot).kept
  · exact fun _ h => h

theorem frame_raiseIf (b : Bool) (s : State) (c : Condition) (slot : Option Slot) :
    UnchangedBut [.conditions, .transmit] s (if b then s.raise c slot else s) := by
  split
  exacts [frame_raise s c slot, .refl _ s]

theorem isSet_raiseIf {b : Bool} (hb : b = true) (s : State) (c : Condition) (slot : Option Slot) :
    (if b then s.raise c slot else s).rpt.isSet c = true := by
  rw [if_pos hb]
  exact isSet_raise_same s c slot

/-! ## Step 1 of R175 -/

theorem frame_recomputeAttention (s : State) : UnchangedBut [.conditions] s s.recomputeAttention := by
  intro p hp; cases p <;> simp_all [Part.same, State.recomputeAttention]

theorem frame_loadSensing (s : State) : UnchangedBut [.sensing] s s.loadSensing := frame_setSen s _

theorem frame_resumedMinute (s : State) : UnchangedBut [.clock, .minutes] s
    ((s.setClk { s.clk with minute := s.cts.resumedMinute, sub := 0 }).setCts { s.cts with minuteNextB := s.cts.minuteOlderIsB }) := by
  intro p hp; cases p <;> simp_all [Part.same]

theorem frame_resumeClock (s : State) : UnchangedBut [.clock, .minutes, .conditions, .transmit] s s.resumeClock :=
  (frame_resumedMinute s).seq (frame_raiseIf _ _ _ _)

theorem State.resumeClock_clk (s : State) : s.resumeClock.clk = { s.clk with minute := s.cts.resumedMinute, sub := 0 } :=
  (frame_raiseIf _ _ _ _).clk

theorem frame_loadOutputs (s : State) : UnchangedBut [.outputs] s s.loadOutputs :=
  (frame_setOut s _).trans (frame_refreshOutputs _)

theorem State.loadOutputs_auxDemand (s : State) : s.loadOutputs.out.auxDemand = s.conf.auxDefault := rfl

theorem State.loadSensing_sense (s : State) (i : Slot) :
    s.loadSensing.sense i = if s.fitted i then Sense.loaded (tget s.pins i) else Sense.reset := by
  simp only [State.loadSensing, State.sense, State.setSen_sen, tget_tabulate]

section Load

variable (m : ConfigFields) (b : Bool) (check : BitVec 16) (s : State)

/-- The configuration values in force, before the inputs are sampled. -/
def State.configured : State :=
  (s.setCfg { state := if b then .clamped else .loaded, mem := m, check := check }).recomputeAttention

theorem frame_configured : UnchangedBut [.config, .conditions] s (s.configured m b check) :=
  (frame_setCfg s _).seq (frame_recomputeAttention _)

theorem State.load_eq : s.load m b check
    = if b then (s.configured m b check).loadSensing.resumeClock.loadOutputs.raise .configClamp none
      else (s.configured m b check).loadSensing.resumeClock.loadOutputs := rfl

/-- From the clock's resumption on, the load changes outputs and conditions. -/
theorem frame_load_after_clock : UnchangedBut [.outputs, .conditions, .transmit]
    (s.configured m b check).loadSensing.resumeClock (s.load m b check) :=
  (frame_loadOutputs _).seq (frame_raiseIf b _ _ _)

theorem frame_load_after_sensing : UnchangedBut [.clock, .minutes, .outputs, .conditions, .transmit]
    (s.configured m b check).loadSensing (s.load m b check) := (frame_resumeClock _).seq (frame_load_after_clock m b check s)

theorem frame_load : UnchangedBut [.config, .minutes, .sensing, .clock, .outputs, .conditions, .transmit] s (s.load m b check) :=
  ((frame_configured m b check s).seq (frame_loadSensing _) (rs := [.config, .conditions, .sensing])).seq
    (frame_load_after_sensing m b check s)

theorem State.load_cfg : (s.load m b check).cfg = { state := if b then .clamped else .loaded, mem := m, check := check } :=
  (frame_load_after_sensing m b check s).part .config

theorem State.load_fitted (i : Slot) : (s.load m b check).fitted i = (s.configured m b check).fitted i :=
  ((frame_load_after_sensing m b check s).fitted i).trans ((frame_loadSensing _).fitted i)

theorem State.load_sense (i : Slot) : (s.load m b check).sense i
    = if (s.load m b check).fitted i then Sense.loaded (tget s.pins i) else Sense.reset := by
  rw [(frame_load_after_sensing m b check s).sense i, State.loadSensing_sense, State.load_fitted,
    (frame_configured m b check s).pin i]

theorem State.load_clk : (s.load m b check).clk = { s.clk with minute := s.cts.resumedMinute, sub := 0 } := by
  rw [(frame_load_after_clock m b check s).clk, State.resumeClock_clk]
  rfl

theorem State.load_auxDemand : (s.load m b check).out.auxDemand = m.auxDefault := by
  have hout : (s.load m b check).out = (s.configured m b check).loadSensing.resumeClock.loadOutputs.out :=
    (frame_raiseIf b _ _ _).out
  rw [hout, State.loadOutputs_auxDemand, (frame_resumeClock _).conf]
  rfl

theorem State.load_isSet_configClamp (hb : b = true) : (s.load m b check).rpt.isSet .configClamp = true :=
  isSet_raiseIf hb _ _ _

theorem State.load_isSet_store (hA : s.cts.minuteA.ok = false) (hB : s.cts.minuteB.ok = false) :
    (s.load m b check).rpt.isSet .store = true := by
  have hclock : (s.configured m b check).loadSensing.resumeClock.rpt.isSet .store = true := by
    refine isSet_raiseIf ?_ _ _ _
    show (!s.cts.minuteA.ok && !s.cts.minuteB.ok) = true
    rw [hA, hB]
    rfl
  exact (CondsKept.of_frame (frame_loadOutputs _)).trans (CondsKept.raiseIf b _ _ _) _ hclock

end Load

/-! ## The store's mark, the counts and the causes -/

theorem frame_marked (s : State) : UnchangedBut [.mark] s (s.setCts s.cts.marked) := by
  intro p hp; cases p <;> simp_all [Part.same, Cts.marked]

theorem frame_formatted (s : State) :
    UnchangedBut [.store, .locks, .minutes, .causes, .mark] s (s.setCts s.cts.formatted) := by
  intro p hp; cases p <;> simp_all [Part.same, Cts.formatted, Cts.marked]

theorem State.checkMark_of_used {s : State} (h : s.cts.neverUsed = false) :
    s.checkMark = if s.cts.markOk then s else s.setCts s.cts.marked := by simp [State.checkMark, h]

theorem State.checkMark_of_unused {s : State} (h : s.cts.neverUsed = true) : s.checkMark = s.setCts s.cts.formatted := if_pos h

theorem frame_checkMark {s : State} (h : s.cts.neverUsed = false) : UnchangedBut [.mark] s s.checkMark := by
  rw [State.checkMark_of_used h]
  split
  exacts [.refl _ s, frame_marked s]

theorem State.checkMark_markOk (s : State) : s.checkMark.cts.markOk = true := by
  unfold State.checkMark
  split
  · simp only [State.setCts_cts, Cts.formatted, Cts.marked]
  · split
    · assumption
    · rfl

theorem State.checkMark_markCheck (s : State) :
    (s.cts.markOk = true → s.checkMark.cts.markCheck = s.cts.markCheck)
      ∧ (s.cts.markOk = false → s.checkMark.cts.markCheck = checkWord .mark ()) := by
  unfold State.checkMark
  refine ⟨fun h => ?_, fun h => ?_⟩
  · rw [if_neg (by simp [Cts.neverUsed, h]), if_pos h]
  · split
    · simp only [State.setCts_cts, Cts.formatted, Cts.marked]
    · rw [if_neg (by simp [h])]
      rfl

theorem frame_resumedCounts (s : State) :
    UnchangedBut [.locks] s (s.setCts { s.cts with locks := tmap (fun y => { y with count := y.resumed }) s.cts.locks }) := by
  intro p hp; cases p <;> simp_all [Part.same]

theorem State.resumeLocks_locks (s : State) (i : Slot) :
    s.resumeLocks.locks i = { s.locks i with count := (s.locks i).resumed } := by
  have hlocks : s.resumeLocks.locks i
      = (s.setCts { s.cts with locks := tmap (fun y => { y with count := y.resumed }) s.cts.locks }).locks i :=
    (frame_raiseIf _ _ _ _).locksOf i
  rw [hlocks]
  simp only [State.locks, State.setCts_cts, tget_tmap]

theorem frame_resumeLocks (s : State) : UnchangedBut [.locks, .conditions, .transmit] s s.resumeLocks :=
  (frame_resumedCounts s).seq (frame_raiseIf _ _ _ _)

theorem State.resumeLocks_kept (s : State) : CondsKept s s.resumeLocks :=
  (CondsKept.of_frame (frame_resumedCounts s)).trans (CondsKept.raiseIf _ _ _ _)

theorem State.resumeLocks_isSet {s : State} {i : Slot} (hfit : s.fitted i = true) (ha : (s.locks i).a.ok = false)
    (hb : (s.locks i).b.ok = false) : s.resumeLocks.rpt.isSet .store = true := by
  refine isSet_raiseIf (List.any_eq_true.mpr ⟨i, mem_allSlots i, ?_⟩) _ _ _
  simp [hfit, Locks.lost, ha, hb]

theorem frame_composeCauses (s : State) : UnchangedBut [.causes, .conditions, .transmit] s s.composeCauses :=
  (frame_raiseIf _ s _ _).seq (frame_writeCauses _ _)

theorem State.composeCauses_kept (s : State) : CondsKept s s.composeCauses :=
  (CondsKept.raiseIf _ s _ _).trans (.of_frame (frame_writeCauses _ _))

theorem State.composeCauses_causes (s : State) : s.composeCauses.cts.causes
    = causeUnion (if s.cts.causeStore.ok then s.cts.causeStore.set else Causes.none) s.heldCauses := by
  have hframe := frame_raiseIf (!s.cts.causeStore.ok) s .store none
  have hcauses : Part.causes.same s _ := hframe.part .causes
  have hheld : Part.held.same s _ := hframe.part .held
  obtain ⟨hstore, -⟩ := hcauses
  show causeUnion (if !s.cts.causeStore.ok then Causes.none else _) _ = _
  rw [hstore, hheld]
  cases s.cts.causeStore.ok <;> rfl

theorem State.composeCauses_writing (s : State) : s.composeCauses.cts.causeWriting = some s.composeCauses.cts.causes := rfl

theorem State.composeCauses_causeStore (s : State) : s.composeCauses.cts.causeStore = s.cts.causeStore := by
  obtain ⟨hstore, -⟩ : Part.causes.same s _ := (frame_raiseIf (!s.cts.causeStore.ok) s .store none).part .causes
  exact hstore

theorem State.composeCauses_isSet {s : State} (h : s.cts.causeStore.ok = false) : s.composeCauses.rpt.isSet .store = true := by
  refine (CondsKept.of_frame (frame_writeCauses _ _)) _ (isSet_raiseIf ?_ s .store none)
  rw [h]
  rfl

/-! ## Start-up after the read -/

section StartUp

variable (m : ConfigFields) (check : BitVec 16) (s : State)

/-- The configuration as the read loads it. -/
def State.loadClamped : State := s.load (clampFields m) (decide (clampFields m ≠ m)) check

theorem State.startUp_eq :
    s.startUp m check = ((s.loadClamped m check).checkMark.resumeLocks.composeCauses).setPhase .causeWrite := rfl

/-- What follows the store's mark. -/
theorem frame_startUp_after_mark : UnchangedBut [.phase, .locks, .causes, .conditions, .transmit]
    (s.loadClamped m check).checkMark (s.startUp m check) :=
  ((frame_resumeLocks _).seq (frame_composeCauses _) (rs := [.locks, .causes, .conditions, .transmit])).seq (frame_setPhase _ _)

theorem State.startUp_kept_after_mark : CondsKept (s.loadClamped m check).checkMark (s.startUp m check) :=
  ((State.resumeLocks_kept _).trans (State.composeCauses_kept _)).trans (.of_frame (frame_setPhase _ _))

theorem State.startUp_locks (i : Slot) : (s.startUp m check).locks i
    = { (s.loadClamped m check).checkMark.locks i with count := ((s.loadClamped m check).checkMark.locks i).resumed } := by
  have hafter : UnchangedBut [.phase, .causes, .conditions, .transmit]
      (s.loadClamped m check).checkMark.resumeLocks (s.startUp m check) :=
    (frame_composeCauses _).seq (frame_setPhase _ _)
  rw [hafter.locksOf i, State.resumeLocks_locks]

/-- The causes, as composed after the counts have resumed. -/
theorem State.startUp_causes : (s.startUp m check).cts.causes
    = causeUnion (if (s.loadClamped m check).checkMark.cts.causeStore.ok then (s.loadClamped m check).checkMark.cts.causeStore.set
        else Causes.none) (s.loadClamped m check).checkMark.heldCauses := by
  have hframe := frame_resumeLocks (s.loadClamped m check).checkMark
  obtain ⟨hstore, -⟩ : Part.causes.same _ _ := hframe.part .causes
  have hheld : Part.held.same _ _ := hframe.part .held
  show (s.loadClamped m check).checkMark.resumeLocks.composeCauses.cts.causes = _
  rw [State.composeCauses_causes, hstore, hheld]

theorem State.startUp_causeWriting : (s.startUp m check).cts.causeWriting = some (s.startUp m check).cts.causes := rfl

theorem State.startUp_causeStore :
    (s.startUp m check).cts.causeStore = (s.loadClamped m check).checkMark.cts.causeStore := by
  obtain ⟨hstore, -⟩ : Part.causes.same _ _ := (frame_resumeLocks (s.loadClamped m check).checkMark).part .causes
  exact (State.composeCauses_causeStore _).trans hstore

theorem frame_loadClamped : UnchangedBut [.config, .minutes, .sensing, .clock, .outputs, .conditions, .transmit] s
    (s.loadClamped m check) := frame_load _ _ _ _

end StartUp

/-- The stored values that the read leaves beside the configuration: what it finds of the mark and of the copies. -/
theorem State.loadClamped_neverUsed (s : State) (m : ConfigFields) (check : BitVec 16) :
    (s.loadClamped m check).cts.neverUsed = s.cts.neverUsed := by
  have hframe := frame_loadClamped m check s
  obtain ⟨-, hmark⟩ : Part.mark.same _ _ := hframe.part .mark
  have hstore : Part.store.same _ _ := hframe.part .store
  unfold Cts.neverUsed Cts.noRecordPasses
  rw [hmark, hstore]

theorem resumedMinute_of_copies (x : Cts) :
    (x.minuteA.ok = true → x.minuteB.ok = true → x.resumedMinute = max x.minuteA.value x.minuteB.value)
      ∧ (x.minuteA.ok = true → x.minuteB.ok = false → x.resumedMinute = x.minuteA.value)
      ∧ (x.minuteA.ok = false → x.minuteB.ok = true → x.resumedMinute = x.minuteB.value)
      ∧ (x.minuteA.ok = false → x.minuteB.ok = false → x.resumedMinute = x.minuteFallback) := by
  refine ⟨fun hA hB => ?_, fun hA hB => ?_, fun hA hB => ?_, fun hA hB => ?_⟩ <;> simp [Cts.resumedMinute, hA, hB]

/-- Settles O6: `startUp` on a store that has been used, block by block. -/
theorem passedReadLoadsTheConfiguration : Obligations.PassedReadLoadsTheConfiguration := by
  intro s image m check hphase hcrc hsound hused
  have hloadFrame := frame_loadClamped m check s
  have hmarkFrame : UnchangedBut [.mark] (s.loadClamped m check) (s.loadClamped m check).checkMark :=
    frame_checkMark (by rw [State.loadClamped_neverUsed, hused])
  have htailFrame := frame_startUp_after_mark m check s
  have hafter : UnchangedBut [.phase, .locks, .causes, .mark, .conditions, .transmit] (s.loadClamped m check) (s.startUp m check) :=
    hmarkFrame.seq htailFrame
  have hkept : CondsKept (s.loadClamped m check) (s.startUp m check) :=
    (CondsKept.of_frame hmarkFrame).trans (State.startUp_kept_after_mark m check s)
  have hcfg : (s.startUp m check).cfg = _ := (hafter.part .config).trans (State.load_cfg _ _ check s)
  have hclk : (s.startUp m check).clk = _ := hafter.clk.trans (State.load_clk _ _ check s)
  have hsense (i : Slot) : (s.startUp m check).sense i
      = if (s.startUp m check).fitted i then Sense.loaded (tget s.pins i) else Sense.reset := by
    rw [hafter.sense i, hafter.fitted i]
    exact State.load_sense _ _ check s i
  have hlocks (i : Slot) : (s.loadClamped m check).checkMark.locks i = s.locks i := by
    rw [hmarkFrame.locksOf i, hloadFrame.locksOf i]
  obtain ⟨hboth, honlyA, honlyB, hneither⟩ := resumedMinute_of_copies s.cts
  obtain ⟨hcauseStore, -⟩ : Part.causes.same s (s.loadClamped m check).checkMark :=
    (hloadFrame.seq hmarkFrame (rs := .mark :: [.config, .minutes, .sensing, .clock, .outputs, .conditions, .transmit])).part .causes
  have hheld : (s.loadClamped m check).checkMark.heldCauses = s.heldCauses := (hmarkFrame.part .held).trans (hloadFrame.part .held)
  have hmarkOk : (s.startUp m check).cts.markOk = (s.loadClamped m check).checkMark.cts.markOk := (htailFrame.part .mark).2
  have hmarkCheck : (s.startUp m check).cts.markCheck = (s.loadClamped m check).checkMark.cts.markCheck := (htailFrame.part .mark).1
  obtain ⟨hloadCheck, hloadMark⟩ : Part.mark.same s (s.loadClamped m check) := hloadFrame.part .mark
  obtain ⟨hstands, hrewritten⟩ := State.checkMark_markCheck (s.loadClamped m check)
  rw [hloadMark] at hstands hrewritten
  refine ⟨s.startUp m check, exec_read_of_passed hphase (passedRead_contents image m check hcrc hsound), rfl, ?_, ?_, ?_, ?_,
    ?_, ?_, ?_, ?_, ?_, ?_, ?_, ?_, ?_, ?_, ?_, ?_, rfl, ?_, ?_, ?_, ?_, ?_⟩
  · rw [hcfg]
  · rw [hcfg]
  · intro hsame
    rw [hcfg]
    simp [hsame]
  · intro hdiffers
    rw [hcfg]
    exact ⟨by simp [hdiffers], hkept _ (State.load_isSet_configClamp _ _ check s (by simp [hdiffers]))⟩
  · intro i
    rw [hsense i]
    split <;> exact ⟨rfl, rfl, rfl, rfl, rfl⟩
  · intro i hfit
    rw [hsense i, if_pos hfit]
    exact ⟨rfl, rfl⟩
  · intro i hfit
    rw [hsense i, hfit]
    rfl
  · intro hA hB
    rw [hclk]
    exact hboth hA hB
  · intro hA hB
    rw [hclk]
    exact honlyA hA hB
  · intro hA hB
    rw [hclk]
    exact honlyB hA hB
  · intro hA hB
    rw [hclk]
    exact ⟨hneither hA hB, hkept _ (State.load_isSet_store _ _ check s hA hB)⟩
  · rw [hclk]
  · rw [hafter.out]
    exact State.load_auxDemand _ _ check s
  · intro i
    rw [State.startUp_locks, hlocks i]
    rfl
  · intro i hfit ha hb
    have hset : (s.loadClamped m check).checkMark.resumeLocks.rpt.isSet .store = true :=
      State.resumeLocks_isSet (i := i) (by rw [← htailFrame.fitted i, hfit]) (by rw [hlocks i, ha]) (by rw [hlocks i, hb])
    exact (State.composeCauses_kept _).trans (.of_frame (frame_setPhase _ _)) _ hset
  · rw [State.startUp_causes, hcauseStore, hheld]
  · intro hfails
    have hok : (s.loadClamped m check).checkMark.resumeLocks.cts.causeStore.ok = false := by
      obtain ⟨hresumed, -⟩ : Part.causes.same _ _ := (frame_resumeLocks (s.loadClamped m check).checkMark).part .causes
      rw [hresumed, hcauseStore, hfails]
    exact (CondsKept.of_frame (frame_setPhase _ _)) _ (State.composeCauses_isSet hok)
  · rw [hmarkOk, State.checkMark_markOk]
  · intro hok
    rw [hmarkCheck, hstands hok, hloadCheck]
  · intro hfails
    rw [hmarkCheck, hrewritten hfails]
  · exact hloadFrame.seq hafter

/-! ## A store never used -/

theorem Cts.neverUsed_iff {x : Cts} :
    x.neverUsed = true ↔ x.markOk = false ∧ ∀ i, (tget x.store i).a.ok = false ∧ (tget x.store i).b.ok = false := by
  simp [Cts.neverUsed, Cts.noRecordPasses]

theorem causeUnion_none (x : Causes) : causeUnion Causes.none x = x := by
  cases x
  rfl

/-- Settles O8: `startUp` over the formatted store. -/
theorem unusedStoreIsFormatted : Obligations.UnusedStoreIsFormatted := by
  intro s image m check hphase hcrc hsound hmark hcopies
  have hloadFrame := frame_loadClamped m check s
  have hformatted : (s.loadClamped m check).checkMark = (s.loadClamped m check).setCts (s.loadClamped m check).cts.formatted := by
    refine State.checkMark_of_unused ?_
    rw [State.loadClamped_neverUsed]
    exact Cts.neverUsed_iff.mpr ⟨hmark, hcopies⟩
  have htailFrame := frame_startUp_after_mark m check s
  have hloadHeld : (s.loadClamped m check).heldCauses = s.heldCauses := hloadFrame.part .held
  have hheld : (s.loadClamped m check).checkMark.heldCauses = s.heldCauses := by
    rw [hformatted, State.setCts_heldCauses, hloadHeld]
  have hstore (i : Slot) : (s.startUp m check).store i = (s.store i).formatted i := by
    rw [htailFrame.storeOf i, hformatted, ← hloadFrame.storeOf i]
    simp only [State.store, State.setCts_cts, Cts.formatted, tget_tabulate]
  have hlocks (i : Slot) : (s.startUp m check).locks i
      = { (s.locks i).formatted with count := (s.locks i).formatted.resumed } := by
    rw [State.startUp_locks, hformatted, ← hloadFrame.locksOf i]
    simp only [State.locks, State.setCts_cts, Cts.formatted, tget_tmap]
  obtain ⟨hmarkCheck, hmarkOk⟩ : Part.mark.same (s.loadClamped m check).checkMark (s.startUp m check) := htailFrame.part .mark
  obtain ⟨hminuteA, hminuteB, -⟩ : Part.minutes.same (s.loadClamped m check).checkMark (s.startUp m check) :=
    htailFrame.part .minutes
  have hcauses : (s.startUp m check).cts.causes = s.heldCauses := by
    rw [State.startUp_causes, hheld, hformatted]
    exact causeUnion_none _
  refine ⟨s.startUp m check, exec_read_of_passed hphase (passedRead_contents image m check hcrc hsound), ?_, ?_, fun i => ?_,
    fun i => ?_, ?_, ?_, ?_, hcauses, ?_⟩
  · rw [hmarkOk, State.checkMark_markOk]
  · rw [hmarkCheck, hformatted]
    simp only [State.setCts_cts, Cts.formatted, Cts.marked]
  · rw [hstore i]
    exact ⟨rfl, rfl⟩
  · rw [hlocks i]
    exact ⟨rfl, rfl, rfl⟩
  · rw [hminuteA, hformatted]
    simp only [State.setCts_cts, Cts.formatted]
  · rw [hminuteB, hformatted]
    simp only [State.setCts_cts, Cts.formatted]
  · rw [State.startUp_causeStore, hformatted]
    simp only [State.setCts_cts, Cts.formatted]
  · rw [State.startUp_causeWriting, hcauses]

end Sys2Proof.Machine
end

