-- ==== Sys2Proof/Proofs/RecordFacts.lean ====
section
/- One theorem after another: side by side, their proofs ask for more threads than the check's memory limit allows. -/
set_option Elab.async false

/-! SUPPORT. The slots' records, stores, counts and sensing states after each update, and what a change of a record and a wait for
its write do, in the words of the statements (R10, R15, R16). -/

namespace Sys2Proof.Machine

/-! ## One slot's block after an update -/

theorem State.setRec_rec? (s : State) (slot : Slot) (r : CompRec) (i : Slot) :
    (s.setRec slot r).rec? i = if slot = i then some r else s.rec? i := tget_tset ..

theorem State.setRec_rec?_same (s : State) (slot : Slot) (r : CompRec) : (s.setRec slot r).rec? slot = some r := by
  rw [State.setRec_rec?, if_pos rfl]

theorem State.setRec_rec?_ne (s : State) {slot i : Slot} (r : CompRec) (h : i ≠ slot) : (s.setRec slot r).rec? i = s.rec? i := by
  rw [State.setRec_rec?, if_neg (Ne.symm h)]

theorem State.setStore_store (s : State) (slot : Slot) (x : SlotStore) (i : Slot) :
    (s.setStore slot x).store i = if slot = i then x else s.store i := tget_tset ..

theorem State.setStore_store_same (s : State) (slot : Slot) (x : SlotStore) : (s.setStore slot x).store slot = x := by
  rw [State.setStore_store, if_pos rfl]

theorem State.setStore_store_ne (s : State) {slot i : Slot} (x : SlotStore) (h : i ≠ slot) :
    (s.setStore slot x).store i = s.store i := by
  rw [State.setStore_store, if_neg (Ne.symm h)]

theorem State.setLocks_locks_same (s : State) (slot : Slot) (x : Locks) : (s.setLocks slot x).locks slot = x := tget_tset_same ..

theorem State.setLocks_locks_ne (s : State) {slot i : Slot} (x : Locks) (h : i ≠ slot) :
    (s.setLocks slot x).locks i = s.locks i := tget_tset_ne _ _ (Ne.symm h)

theorem State.setSense_sense_same (s : State) (slot : Slot) (x : Sense) : (s.setSense slot x).sense slot = x := tget_tset_same ..

theorem State.setSense_sense_ne (s : State) {slot i : Slot} (x : Sense) (h : i ≠ slot) :
    (s.setSense slot x).sense i = s.sense i := tget_tset_ne _ _ (Ne.symm h)

theorem State.setPin_pin_same (s : State) (slot : Slot) (f : Pins → Pins) :
    tget (s.setPin slot f).pins slot = f (tget s.pins slot) := tget_tset_same ..

theorem State.setPin_pin_ne (s : State) {slot i : Slot} (f : Pins → Pins) (h : i ≠ slot) :
    tget (s.setPin slot f).pins i = tget s.pins i := tget_tset_ne _ _ (Ne.symm h)

/-- The home-idle timer alone follows its conditions. -/
theorem State.refreshIdle_sense_same (s : State) (slot : Slot) : ∃ idle,
    (s.refreshIdle slot).sense slot = { s.sense slot with homeIdle := idle } := ⟨_, State.setSense_sense_same ..⟩

theorem State.refreshIdle_sense_ne (s : State) {slot i : Slot} (h : i ≠ slot) : (s.refreshIdle slot).sense i = s.sense i :=
  State.setSense_sense_ne s _ h

/-! ## A write of a record (R15) -/

/-- The write that begins of a record, as the store stands. -/
def SlotStore.newWrite (x : SlotStore) (r : CompRec) (ws : List Waiter) (c : WriteCause) (free : Nat) : RecWrite :=
  { toB := x.target free, gen := x.nextGen (x.target free), content := r, second := false, cause := c, waiters := ws }

theorem State.beginWrite_eq {s : State} {slot : Slot} {r : CompRec} (h : s.rec? slot = some r) (ws : List Waiter) (c : WriteCause) :
    s.beginWrite slot ws c
      = (s.setStore slot { s.store slot with writing := some ((s.store slot).newWrite r ws c s.free), again := none }).setFree
          (if (s.store slot).current.isNone then s.free + 1 else s.free) := by
  unfold State.beginWrite
  rw [h]
  rfl

theorem State.beginWrite_store {s : State} {slot : Slot} {r : CompRec} (h : s.rec? slot = some r) (ws : List Waiter)
    (c : WriteCause) : (s.beginWrite slot ws c).store slot
      = { s.store slot with writing := some ((s.store slot).newWrite r ws c s.free), again := none } := by
  rw [State.beginWrite_eq h]
  exact State.setStore_store_same ..

theorem State.beginWrite_store_ne (s : State) {slot i : Slot} (ws : List Waiter) (c : WriteCause) (hi : i ≠ slot) :
    (s.beginWrite slot ws c).store i = s.store i := by
  unfold State.beginWrite
  split
  · rfl
  · exact State.setStore_store_ne s _ hi

/-- A slot with a current copy takes no free value for its write. -/
theorem frame_beginWrite_current {s : State} {slot : Slot} {isB : Bool} (h : (s.store slot).current = some isB)
    (ws : List Waiter) (c : WriteCause) : UnchangedBut [.store] s (s.beginWrite slot ws c) := by
  unfold State.beginWrite
  split
  · exact .refl _ s
  · refine UnchangedBut.drop (p := .free) ((frame_setStore s slot _).seq (frame_setFree _ _)) ?_
    simp [Part.same, h]

theorem SlotStore.newWrite_current {x : SlotStore} {isB : Bool} (h : x.current = some isB) (r : CompRec) (ws : List Waiter)
    (c : WriteCause) (free : Nat) : (x.newWrite r ws c free).toB = !isB
      ∧ (x.newWrite r ws c free).gen = (if isB then x.b.gen else x.a.gen) + 1 := by
  have htarget : x.target free = !isB := by simp [SlotStore.target, h]
  refine ⟨htarget, ?_⟩
  show x.nextGen (x.target free) = _
  rw [htarget]
  cases isB <;> rfl

theorem State.scheduleWrite_store_ne (s : State) {slot i : Slot} (hi : i ≠ slot) : (s.scheduleWrite slot).store i = s.store i := by
  unfold State.scheduleWrite
  dsimp only
  split
  · exact State.beginWrite_store_ne s _ _ hi
  · exact State.setStore_store_ne s _ hi

theorem WriteOf.begin {s : State} {slot : Slot} {r : CompRec} (h : s.rec? slot = some r) (hw : (s.store slot).writing = none)
    (ws : List Waiter) : WriteOf r ws (s.store slot) ((s.beginWrite slot ws .change).store slot) := by
  rw [State.beginWrite_store h]
  refine ⟨rfl, rfl, rfl, ?_⟩
  rw [hw]
  exact ⟨rfl, _, rfl, rfl, rfl, rfl, rfl, fun isB hcurrent => SlotStore.newWrite_current hcurrent ..⟩

theorem WriteOf.schedule {s : State} {slot : Slot} {r : CompRec} (h : s.rec? slot = some r) :
    WriteOf r [] (s.store slot) ((s.scheduleWrite slot).store slot) := by
  unfold State.scheduleWrite
  dsimp only
  cases hw : (s.store slot).writing with
  | none => exact .begin h hw []
  | some w =>
    dsimp only
    rw [State.setStore_store_same]
    refine ⟨rfl, rfl, rfl, ?_⟩
    rw [hw]
    exact ⟨rfl, by simp⟩

/-! ## Waiting for a write (R16) -/

theorem State.attach_again {s : State} {slot : Slot} {ws : List Waiter} (h : (s.store slot).again = some ws) (u : Waiter) :
    s.attach slot u = some (s.setStore slot { s.store slot with again := some (ws ++ [u]) }) := by
  unfold State.attach
  dsimp only
  rw [h]

theorem State.attach_writing {s : State} {slot : Slot} {w : RecWrite} (ha : (s.store slot).again = none)
    (hw : (s.store slot).writing = some w) (u : Waiter) :
    s.attach slot u = some (s.setStore slot { s.store slot with writing := some { w with waiters := w.waiters ++ [u] } }) := by
  unfold State.attach
  dsimp only
  rw [ha, hw]

theorem State.attach_none {s : State} {slot : Slot} (h : ¬Writing slot s) (u : Waiter) : s.attach slot u = none := by
  unfold Writing at h
  rw [not_or, not_not, not_not] at h
  obtain ⟨hw, ha⟩ := h
  unfold State.attach
  dsimp only
  rw [ha, hw]

theorem State.await_of_attach {s t : State} {slot : Slot} {u : Waiter} (h : s.attach slot u = some t) : s.await slot u = t := by
  unfold State.await
  rw [h]

theorem State.await_idle {s : State} {slot : Slot} (h : ¬Writing slot s) (u : Waiter) : s.await slot u = s.releaseAnswer slot u := by
  unfold State.await
  rw [State.attach_none h]

/-- Where something is being written, a unit that waits changes that slot's store alone. -/
theorem State.await_of_writing {s : State} {slot : Slot} (h : Writing slot s) (u : Waiter) :
    ∃ x, s.await slot u = s.setStore slot x ∧ WaitsFor slot u s (s.await slot u) := by
  cases ha : (s.store slot).again with
  | some ws =>
    rw [State.await_of_attach (State.attach_again ha u)]
    refine ⟨_, rfl, fun vs hvs => ?_, fun w hnone => by rw [ha] at hnone; cases hnone⟩
    rw [ha] at hvs
    cases hvs
    exact State.setStore_store_same ..
  | none =>
    cases hw : (s.store slot).writing with
    | none => exact absurd h (by simp [Writing, ha, hw])
    | some w =>
      rw [State.await_of_attach (State.attach_writing ha hw u)]
      have hwaits : WaitsFor slot u s
          (s.setStore slot { s.store slot with writing := some { w with waiters := w.waiters ++ [u] } }) := by
        refine ⟨fun vs hvs => ?_, fun v _ hv => ?_⟩
        · rw [ha] at hvs
          cases hvs
        · rw [hw] at hv
          cases hv
          exact State.setStore_store_same ..
      exact ⟨_, rfl, hwaits⟩

theorem frame_await_writing {s : State} {slot : Slot} (h : Writing slot s) (u : Waiter) :
    UnchangedBut [.store] s (s.await slot u) := by
  obtain ⟨x, hx, -⟩ := State.await_of_writing h u
  rw [hx]
  exact frame_setStore s slot x

theorem State.await_store_ne {s : State} {slot i : Slot} (h : Writing slot s) (u : Waiter) (hi : i ≠ slot) :
    (s.await slot u).store i = s.store i := by
  obtain ⟨x, hx, -⟩ := State.await_of_writing h u
  rw [hx]
  exact State.setStore_store_ne s x hi

theorem WriteOf.writing {r : CompRec} {ws : List Waiter} {x y : SlotStore} (h : WriteOf r ws x y) :
    y.writing ≠ none ∨ y.again ≠ none := by
  obtain ⟨-, -, -, hmatch⟩ := h
  split at hmatch
  · obtain ⟨-, w, hw, -⟩ := hmatch
    exact .inl (by simp [hw])
  · obtain ⟨hw, -⟩ := hmatch
    exact .inl (by simp [hw])

/-- One more unit waits for the write of a change. -/
theorem WriteOf.await {r : CompRec} {ws : List Waiter} {x : SlotStore} {s : State} {slot : Slot}
    (h : WriteOf r ws x (s.store slot)) (u : Waiter) : WriteOf r (ws ++ [u]) x ((s.await slot u).store slot) := by
  obtain ⟨-, -, hagain, hnone⟩ := State.await_of_writing h.writing u
  obtain ⟨ha, hb, hcurrent, hmatch⟩ := h
  cases hw : x.writing with
  | none =>
    rw [hw] at hmatch
    obtain ⟨hfree, w, hwriting, hcontent, hsecond, hcause, hwaiters, hgen⟩ := hmatch
    rw [hnone w hfree hwriting]
    refine ⟨ha, hb, hcurrent, ?_⟩
    rw [hw]
    exact ⟨hfree, _, rfl, hcontent, hsecond, hcause, by rw [hwaiters], hgen⟩
  | some w =>
    rw [hw] at hmatch
    obtain ⟨hwriting, hnext⟩ := hmatch
    rw [hagain _ hnext]
    refine ⟨ha, hb, hcurrent, ?_⟩
    rw [hw]
    exact ⟨hwriting, by rw [List.append_assoc]⟩

/-! ## A change of a record (R10, R15) -/

/-- The ENTER_STATE event that a change gives. -/
def changeEvents (old new : CompState) (call : Nat) : List Event :=
  match enterValue old new with
  | some v => [(.enterState, some v, enterCarrier old new call)]
  | none => []

theorem enterValue_self (c : CompState) : enterValue c c = none := by
  unfold enterValue
  rw [if_neg (by simp), if_neg]
  rintro ⟨h, k⟩
  rw [h] at k
  cases k

theorem CountedAll.enterEvent (s : State) (old new : CompState) (call : Nat) :
    CountedAll (changeEvents old new call) s (s.enterEvent old new call) := by
  unfold changeEvents State.enterEvent
  cases enterValue old new with
  | some v => exact .count s _ _ _
  | none => exact .nil_of_frame (.refl [] s)

section Change

variable {s : State} {slot : Slot} {old : CompRec}

theorem State.change_same (h : s.rec? slot = some old) (call : Nat) : s.change slot old call = s := by
  unfold State.change
  rw [h]
  exact if_pos rfl

theorem State.change_eq (h : s.rec? slot = some old) {new : CompRec} (hne : old ≠ new) (call : Nat) : s.change slot new call
    = (((s.setRec slot new).enterEvent old.state new.state call).raiseCause old.state new.state slot).scheduleWrite slot := by
  unfold State.change
  rw [h]
  exact if_neg hne

/-- Before the write is scheduled: the record, its event and its condition. -/
theorem frame_change_before_write (s : State) (slot : Slot) (old new : CompRec) (call : Nat) :
    UnchangedBut [.conditions, .counters, .transmit] (s.setRec slot new)
      (((s.setRec slot new).enterEvent old.state new.state call).raiseCause old.state new.state slot) :=
  (frame_enterEvent _ _ _ _).seq (frame_raiseCause _ _ _ _)

theorem State.change_rec? (h : s.rec? slot = some old) (new : CompRec) (call : Nat) (i : Slot) :
    (s.change slot new call).rec? i = if slot = i then some new else s.rec? i := by
  by_cases hne : old = new
  · subst hne
    rw [State.change_same h]
    split
    · rename_i hi
      rw [← hi, h]
    · rfl
  · rw [State.change_eq h hne, (frame_scheduleWrite _ slot).rec? i, (frame_change_before_write s slot old new call).rec? i,
      State.setRec_rec?]

theorem State.change_rec?_same (h : s.rec? slot = some old) (new : CompRec) (call : Nat) :
    (s.change slot new call).rec? slot = some new := by rw [State.change_rec? h, if_pos rfl]

theorem Changed.change (h : s.rec? slot = some old) (new : CompRec) (call : Nat) :
    Changed slot new [] s (s.change slot new call) := by
  by_cases hne : old = new
  · subst hne
    rw [State.change_same h]
    exact ⟨h, fun _ _ => rfl, fun _ _ => rfl, fun hno => absurd h hno⟩
  · have hbefore := frame_change_before_write s slot old new call
    refine ⟨State.change_rec?_same h new call, fun i hi => by rw [State.change_rec? h, if_neg (Ne.symm hi)], fun i hi => ?_, fun _ => ?_⟩
    · rw [State.change_eq h hne, State.scheduleWrite_store_ne _ hi, hbefore.storeOf i]
      rfl
    · have hwrite := WriteOf.schedule ((hbefore.rec? slot).trans (State.setRec_rec?_same s slot new))
      rw [hbefore.storeOf slot] at hwrite
      rw [State.change_eq h hne]
      exact hwrite

theorem CountedAll.change (h : s.rec? slot = some old) (new : CompRec) (call : Nat) :
    CountedAll (changeEvents old.state new.state call) s (s.change slot new call) := by
  by_cases hne : old = new
  · subst hne
    rw [State.change_same h, changeEvents, enterValue_self]
    exact .nil_of_frame (.refl [] s)
  · rw [State.change_eq h hne]
    exact (((CountedAll.enterEvent _ _ _ _).after (frame_setRec s slot new)).then_ (frame_raiseCause _ _ _ _)).then_
      (frame_scheduleWrite _ _)

/-- An entry into FAULT, or a change of its cause, raises the cause's condition (R10). -/
theorem Raised.change (h : s.rec? slot = some old) {new : CompRec} {c : FaultCause} (hc : new.state.cause? = some c)
    (hold : old.state.cause? ≠ some c) (call : Nat) : Raised c.condition (some slot) s (s.change slot new call) := by
  have hne : old ≠ new := fun he => hold (he ▸ hc)
  have hraise (u : State) : u.raiseCause old.state new.state slot = u.raise c.condition (some slot) := by
    unfold State.raiseCause
    rw [hc]
    exact if_neg hold
  rw [State.change_eq h hne, hraise]
  exact ((Raised.raise _ _ _).after (.of_frame ((frame_setRec s slot new).seq (frame_enterEvent _ _ _ _)
    (rs := [.records, .counters])))).then_ (.of_frame (frame_scheduleWrite _ _))

/-- A change into a state without a fault cause, or that keeps its cause, raises nothing. -/
theorem frame_change_quiet (h : s.rec? slot = some old) {new : CompRec} (hc : ∀ c, new.state.cause? = some c → old.state.cause? = some c)
    (call : Nat) : UnchangedBut [.records, .store, .counters, .free] s (s.change slot new call) := by
  by_cases hne : old = new
  · subst hne
    rw [State.change_same h]
    exact .refl _ s
  · have hquiet (u : State) : u.raiseCause old.state new.state slot = u := by
      unfold State.raiseCause
      split
      · rename_i c hcause
        exact if_pos (hc c hcause)
      · rfl
    rw [State.change_eq h hne, hquiet]
    exact ((frame_setRec s slot new).seq (frame_enterEvent _ _ _ _) (rs := [.records, .counters])).seq (frame_scheduleWrite _ _)

/-- A change within one state and cause, to a parcel not newly expired, gives no event. -/
theorem frame_change_eventless (h : s.rec? slot = some old) {new : CompRec} (hv : enterValue old.state new.state = none)
    (hc : ∀ c, new.state.cause? = some c → old.state.cause? = some c) (call : Nat) :
    UnchangedBut [.records, .store, .free] s (s.change slot new call) := by
  refine UnchangedBut.drop (p := .counters) ((frame_change_quiet h hc call).wide) ?_
  have hcount := CountedAll.change h new call
  rw [changeEvents, hv] at hcount
  refine Vector.ext fun i hi => ?_
  have hzero := hcount ⟨i, hi⟩
  rw [List.filter_nil] at hzero
  exact hzero.trans (BitVec.add_zero _)

end Change

section Lifting

variable {ps : List Part} {slot : Slot} {r : CompRec} {ws : List Waiter} {s t u : State}

theorem Changed.then_ (h : Changed slot r ws s t) (k : UnchangedBut ps t u) (hr : Part.records ∉ ps := by decide)
    (hs : Part.store ∉ ps := by decide) : Changed slot r ws s u where
  record := (k.rec? slot hr).trans h.record
  records i hi := (k.rec? i hr).trans (h.records i hi)
  stores i hi := (k.storeOf i hs).trans (h.stores i hi)
  written hne := by
    rw [k.storeOf slot hs]
    exact h.written hne

theorem Changed.after (k : UnchangedBut ps s t) (h : Changed slot r ws t u) (hr : Part.records ∉ ps := by decide)
    (hs : Part.store ∉ ps := by decide) : Changed slot r ws s u where
  record := h.record
  records i hi := (h.records i hi).trans (k.rec? i hr)
  stores i hi := (h.stores i hi).trans (k.storeOf i hs)
  written hne := by
    rw [← k.storeOf slot hs]
    exact h.written (by rwa [k.rec? slot hr])

theorem Changed.writing (h : Changed slot r ws s t) (hne : s.rec? slot ≠ some r) : Writing slot t := (h.written hne).writing

/-- A unit that waits after a change waits for the change's write. -/
theorem Changed.await (h : Changed slot r ws s t) (hne : s.rec? slot ≠ some r) (w : Waiter) :
    Changed slot r (ws ++ [w]) s (t.await slot w) where
  record := ((frame_await_writing (h.writing hne) w).rec? slot).trans h.record
  records i hi := ((frame_await_writing (h.writing hne) w).rec? i).trans (h.records i hi)
  stores i hi := (State.await_store_ne (h.writing hne) w hi).trans (h.stores i hi)
  written _ := (h.written hne).await w

end Lifting

/-! ## The entry check (R37) -/

theorem frame_emptyChecked_off {s : State} {slot : Slot} (h : (s.sense slot).presenceIsOn = false) :
    s.emptyChecked slot = s.change slot (CompRec.emptied false) 0 := by
  simp [State.emptyChecked, h]

theorem State.emptyChecked_eq (s : State) (slot : Slot) : s.emptyChecked slot
    = if (s.sense slot).presenceIsOn then (s.change slot (CompRec.emptied (s.sense slot).presenceIsOn) 0).raise .foreign (some slot)
      else s.change slot (CompRec.emptied (s.sense slot).presenceIsOn) 0 := rfl

theorem Changed.emptyChecked {s : State} {slot : Slot} {old : CompRec} (h : s.rec? slot = some old) :
    Changed slot (CompRec.emptied (s.sense slot).presenceIsOn) [] s (s.emptyChecked slot) :=
  (Changed.change h _ 0).then_ (frame_raiseIf _ _ _ _)

theorem CountedAll.emptyChecked {s : State} {slot : Slot} {old : CompRec} (h : s.rec? slot = some old) :
    CountedAll (changeEvents old.state .empty 0) s (s.emptyChecked slot) :=
  (CountedAll.change h (CompRec.emptied _) 0).then_ (frame_raiseIf _ _ _ _)

theorem Raised.emptyChecked {s : State} {slot : Slot} (hon : (s.sense slot).presenceIsOn = true) {old : CompRec}
    (h : s.rec? slot = some old) : Raised .foreign (some slot) s (s.emptyChecked slot) := by
  rw [State.emptyChecked_eq, if_pos hon]
  exact (Raised.raise _ _ _).after (.of_frame (frame_change_quiet h (by intro c hc; cases hc) 0))

end Sys2Proof.Machine
end

