-- ==== Sys2Proof/Proofs/StartupRules.lean ====
section
/- One theorem after another: side by side, their proofs ask for more threads than the check's memory limit allows. -/
set_option Elab.async false

/-! SUPPORT and proofs of O9 to O13: the cause and count writes, the baseline, reconciliation, and the line's states. -/

namespace Sys2Proof.Machine

/-! ## The cause-set and lock-count writes (R14, R19) -/

theorem frame_setCauseCopy (s : State) (c : CauseCopy) :
    UnchangedBut [.causes] s (s.setCts { s.cts with causeStore := c, causeWriting := none }) := by
  intro p hp; cases p <;> simp_all [Part.same]

theorem frame_causeWriteEnded_stored (c : Causes) (s : State) : UnchangedBut [.causes] s (s.causeWriteEnded c true) :=
  frame_setCauseCopy s _

theorem frame_tornCause (s : State) : UnchangedBut [.causes, .free] s
    ((s.setCts { s.cts with causeStore := s.cts.causeStore.torn s.free, causeWriting := none }).setFree (s.free + 1)) :=
  (frame_setCauseCopy s _).seq (frame_setFree _ _)

theorem frame_causeWriteEnded (c : Causes) (ok : Bool) (s : State) :
    UnchangedBut [.causes, .conditions, .transmit, .free] s (s.causeWriteEnded c ok) := by
  cases ok with
  | true => exact (frame_causeWriteEnded_stored c s).wide
  | false => exact (frame_tornCause s).seq (frame_raise _ _ _)

theorem frame_afterCauseWrite (s : State) : UnchangedBut [.phase, .held] s s.afterCauseWrite := by
  unfold State.afterCauseWrite
  split
  · exact (frame_setPhase s _).seq (frame_setHeldCauses _ _)
  · exact .refl _ s

theorem State.causeWriteEnded_causes (c : Causes) (ok : Bool) (s : State) :
    (s.causeWriteEnded c ok).cts.causeWriting = none ∧ (s.causeWriteEnded c ok).cts.causes = s.cts.causes := by
  cases ok with
  | true => exact ⟨rfl, rfl⟩
  | false =>
    obtain ⟨-, hcauses, hwriting⟩ : Part.causes.same _ _ :=
      (frame_raise ((s.setCts { s.cts with causeStore := s.cts.causeStore.torn s.free, causeWriting := none }).setFree
        (s.free + 1)) .store none).part .causes
    exact ⟨hwriting, hcauses⟩

theorem Raised.causeWriteEnded (c : Causes) (s : State) : Raised .store none s (s.causeWriteEnded c false) :=
  (Raised.raise _ _ _).after (.of_frame (frame_tornCause s))

theorem exec_resetCauseWrite {s : State} {c : Causes} (h : s.cts.causeWriting = some c) (ok : Bool) :
    exec (.resetCauseWrite ok) s = .next (s.causeWriteEnded c ok).afterCauseWrite := by
  show Host.Outcome.next (match s.cts.causeWriting with | none => s | some c => (s.causeWriteEnded c ok).afterCauseWrite) = _
  rw [h]

theorem Locks.ended_idle {x : Locks} (h : x.again = false) (toB : Bool) (n : Nat) (ok : Bool) (free : Nat) :
    (x.ended toB n ok free).writing = none ∧ (x.ended toB n ok free).count = x.count := by
  unfold Locks.ended
  cases toB <;> simp [h]

theorem Locks.ended_count (x : Locks) (toB : Bool) (n : Nat) (ok : Bool) (free : Nat) :
    (x.ended toB n ok free).count = x.count := by
  unfold Locks.ended
  cases toB <;> cases x.again <;> simp [Locks.begin]

/-- The copies after a completed write, whether or not the next begins. -/
theorem Locks.ended_stored (x : Locks) (toB : Bool) (n : Nat) (free : Nat) :
    (if toB then (x.ended toB n true free).b else (x.ended toB n true free).a) = CountCopy.written .lockCount n
      ∧ (if toB then (x.ended toB n true free).a else (x.ended toB n true free).b) = (if toB then x.a else x.b) := by
  unfold Locks.ended
  cases toB <;> cases x.again <;> simp [Locks.begin]

theorem Locks.ended_again {x : Locks} (h : x.again = true) (toB : Bool) (n : Nat) (free : Nat) :
    (x.ended toB n true free).writing = some ((x.ended toB n true free).olderIsB, x.count) := by
  unfold Locks.ended
  cases toB <;> simp [h, Locks.begin, Locks.olderIsB]

theorem exec_lockCountWrite_stored {s : State} {slot : Slot} {toB : Bool} {n : Nat} (h : (s.locks slot).writing = some (toB, n)) :
    exec (.lockCountWrite slot true) s = .next (s.setLocks slot ((s.locks slot).ended toB n true s.free)) := by
  show Host.Outcome.next _ = _
  rw [h]
  rfl

theorem exec_lockCountWrite_failed {s : State} {slot : Slot} {toB : Bool} {n : Nat} (h : (s.locks slot).writing = some (toB, n)) :
    exec (.lockCountWrite slot false) s = .next
      (((s.setLocks slot ((s.locks slot).ended toB n false s.free)).setFree (s.free + 1)).raise .store none).conclude := by
  show Host.Outcome.next _ = _
  rw [h]
  rfl

/-- Settles O9: the two writes' ends, each completed and failed. -/
theorem causeAndLockCountWritesEnd : Obligations.CauseAndLockCountWritesEnd := by
  refine ⟨fun s c ok hwriting => ?_, fun s slot toB n hwriting => ⟨?_, ?_⟩⟩
  · have hended := frame_causeWriteEnded c ok s
    have hafter := frame_afterCauseWrite (s.causeWriteEnded c ok)
    obtain ⟨hwritingNone, hcauses⟩ := s.causeWriteEnded_causes c ok
    obtain ⟨hafterStore, hafterCauses, hafterWriting⟩ : Part.causes.same (s.causeWriteEnded c ok) _ := hafter.part .causes
    have hphase : (s.causeWriteEnded c ok).phase = s.phase := hended.part .phase
    have hheld : (s.causeWriteEnded c ok).heldCauses = s.heldCauses := hended.part .held
    refine ⟨_, exec_resetCauseWrite hwriting ok, hafterWriting.trans hwritingNone, hafterCauses.trans hcauses, ?_, ?_, ?_, ?_,
      hended.seq hafter⟩
    · rintro rfl
      exact ⟨hafterStore, hafter.rpt.trans (frame_causeWriteEnded_stored c s).rpt⟩
    · rintro rfl
      exact (Raised.causeWriteEnded c s).then_ (.of_frame hafter)
    · intro h
      rw [State.afterCauseWrite, if_pos (hphase.trans h)]
      exact ⟨rfl, rfl⟩
    · intro h
      rw [State.afterCauseWrite, if_neg (hphase ▸ h)]
      exact ⟨hphase, hheld⟩
  · obtain ⟨hcopy, hother⟩ := (s.locks slot).ended_stored toB n s.free
    refine ⟨_, exec_lockCountWrite_stored hwriting, ?_⟩
    rw [State.setLocks_locks_same]
    exact ⟨hcopy, hother, Locks.ended_count .., fun h => (Locks.ended_idle h ..).1, fun h => Locks.ended_again h ..,
      fun i hi => State.setLocks_locks_ne s _ hi, frame_setLocks s slot _⟩
  · have hframe := (frame_setLocks s slot ((s.locks slot).ended toB n false s.free)).seq (frame_setFree _ (s.free + 1))
      (rs := [.locks, .free])
    have hraise := frame_raise ((s.setLocks slot ((s.locks slot).ended toB n false s.free)).setFree (s.free + 1)) .store none
    refine ⟨_, exec_lockCountWrite_failed hwriting, (Raised.raise _ _ _).after (.of_frame hframe), ?_⟩
    have hlocks : (State.raise .store none _).locks slot = _ := (hraise.locksOf slot).trans (State.setLocks_locks_same s slot _)
    rw [hlocks]
    exact ⟨Locks.ended_count .., fun h => (Locks.ended_idle h ..).1,
      fun i hi => (hraise.locksOf i).trans (State.setLocks_locks_ne s _ hi), hframe.seq hraise⟩

/-! ## The baseline (R20, R31) -/

theorem frame_takeBaseline (slot : Slot) (d p : Bool) (s : State) : UnchangedBut [.sensing] s (s.takeBaseline slot d p) :=
  (frame_setSense s slot _).trans (frame_refreshIdle _ slot)

theorem State.takeBaseline_sense (slot : Slot) (d p : Bool) (s : State) : ∃ idle, (s.takeBaseline slot d p).sense slot
    = { s.sense slot with door := some d, doorTimer := 0, presence := some p, presenceTimer := 0, baseTimer := 0,
                          baseline := some (d, p), homeIdle := idle } := by
  obtain ⟨idle, hidle⟩ := State.refreshIdle_sense_same (s.setSense slot { s.sense slot with
    door := some d, doorTimer := 0, presence := some p, presenceTimer := 0, baseTimer := 0, baseline := some (d, p) }) slot
  rw [State.setSense_sense_same] at hidle
  exact ⟨idle, hidle⟩

theorem State.takeBaseline_sense_ne (s : State) {slot i : Slot} (d p : Bool) (h : i ≠ slot) :
    (s.takeBaseline slot d p).sense i = s.sense i :=
  (State.refreshIdle_sense_ne _ h).trans (State.setSense_sense_ne s _ h)

theorem State.awaitsBaseline_iff {s : State} {slot : Slot} : s.awaitsBaseline slot = true
    ↔ s.loaded = true ∧ s.fitted slot = true ∧ (s.sense slot).baseline = none := by
  simp [State.awaitsBaseline, and_assoc]

/-- The inputs' levels change, and then the baseline is taken: what each leaves. -/
theorem takeBaseline_after_pins (s : State) (slot : Slot) (f : Pins → Pins) (d p : Bool) : ∃ t,
    t = (s.setPin slot f).takeBaseline slot d p ∧ (t.sense slot).door = some d ∧ (t.sense slot).presence = some p
      ∧ (t.sense slot).baseline = some (d, p) ∧ (t.sense slot).bolt = (s.sense slot).bolt
      ∧ (∀ i, i ≠ slot → t.sense i = s.sense i) ∧ (∀ i, i ≠ slot → tget t.pins i = tget s.pins i)
      ∧ UnchangedBut [.pins, .sensing] s t := by
  obtain ⟨idle, hsense⟩ := (s.setPin slot f).takeBaseline_sense slot d p
  have hframe := frame_takeBaseline slot d p (s.setPin slot f)
  refine ⟨_, rfl, ?_, ?_, ?_, ?_, fun i hi => State.takeBaseline_sense_ne _ d p hi, fun i hi => ?_, (frame_setPin s slot f).seq hframe⟩
  · rw [hsense]
  · rw [hsense]
  · rw [hsense]
  · rw [hsense]
    rfl
  · rw [hframe.pin i]
    exact State.setPin_pin_ne s f hi

/-- Settles O10: both commands are `takeBaseline` where the slot awaits its baseline. -/
theorem baselineIsTakenWithoutEvents : Obligations.BaselineIsTakenWithoutEvents := by
  intro s slot hloaded hfit hbase
  have hawaits := State.awaitsBaseline_iff.mpr ⟨hloaded, hfit, hbase⟩
  refine ⟨fun door presence => ?_, fun door presence => ?_⟩
  · obtain ⟨t, ht, hd, hp, hb, hrest⟩ := takeBaseline_after_pins s slot (fun p => { p with door := door, presence := presence })
      (levelOpen s.conf door) (levelOn s.conf presence)
    have hexec : exec (.baselineSettled slot door presence) s = .next t := by
      rw [ht]
      exact congrArg Host.Outcome.next (if_pos hawaits)
    exact ⟨t, hexec, hd, hp, hb, hrest⟩
  · obtain ⟨t, ht, hd, hp, hb, hrest⟩ := takeBaseline_after_pins s slot
      (fun p => { p with door := door.getD p.door, presence := presence.getD p.presence })
      ((door.map (levelOpen s.conf)).getD true) ((presence.map (levelOn s.conf)).getD true)
    have hexec : exec (.baselineTimeout slot door presence) s = .next t := by
      rw [ht]
      exact congrArg Host.Outcome.next (if_pos hawaits)
    refine ⟨t, hexec, ?_, ?_, ?_, ?_, ?_, hrest⟩
    · rintro d rfl
      exact hd
    · rintro rfl
      exact hd
    · rintro p rfl
      exact hp
    · rintro rfl
      exact hp
    · intro isOpen on hopen hon
      rw [hd] at hopen
      rw [hp] at hon
      cases hopen
      cases hon
      exact hb

/-! ## Reconciliation (R20 to R23) -/

theorem SlotStore.found_eq_some {x : SlotStore} {isB : Bool} (h : IsStoredRecord x isB) : x.found = some isB := by
  have hne (g : BitVec 8) : g ≠ g + 1 + 1 := by
    bv_omega
  unfold IsStoredRecord at h
  unfold SlotStore.found
  cases isB with
  | true =>
    obtain ⟨hok, hgen⟩ := h
    cases ha : x.a.ok with
    | true => simp [hok, hgen ha]
    | false => simp [hok]
  | false =>
    obtain ⟨hok, hgen⟩ := h
    cases hb : x.b.ok with
    | true =>
      rw [hok]
      dsimp only
      rw [if_neg (by rw [hgen hb]; exact hne _), if_pos (hgen hb)]
    | false => simp [hok]

theorem SlotStore.found_eq_none {x : SlotStore} (h : ∀ isB, ¬IsStoredRecord x isB) : x.found = none := by
  have hB : ¬(x.b.ok = true ∧ (x.a.ok = true → x.b.gen = x.a.gen + 1)) := h true
  have hA : ¬(x.a.ok = true ∧ (x.b.ok = true → x.a.gen = x.b.gen + 1)) := h false
  unfold SlotStore.found
  cases ha : x.a.ok <;> cases hb : x.b.ok <;> simp_all

theorem State.reconcileTurn_of {s : State} {slot : Slot} (h : TurnToReconcile s slot) : s.reconcileTurn slot = true := by
  obtain ⟨hphase, hfit, hnone, hlower⟩ := h
  simp only [State.reconcileTurn, hphase, hfit, hnone, BEq.rfl, Option.isNone_none, Bool.and_self, Bool.true_and, List.all_eq_true,
    mem_allSlots, forall_const, Bool.or_eq_true, decide_eq_true_eq, State.settledSlot, Bool.not_eq_true']
  intro i
  by_cases hi : slot.val ≤ i.val
  · exact .inl hi
  · cases hfi : s.fitted i with
    | false => exact .inr (.inl rfl)
    | true => exact .inr (.inr (hlower i (Nat.lt_of_not_le hi) hfi))

theorem exec_reconciliation {s : State} {slot : Slot} {d on : Bool} (hturn : TurnToReconcile s slot)
    (hbase : (s.sense slot).baseline = some (d, on)) : exec (.reconciliation slot) s = .next (s.reconcile slot d on) := by
  show Host.Outcome.next _ = _
  rw [hbase]
  dsimp only
  rw [State.reconcileTurn_of hturn]
  rfl

/-- Table 2-7 as the model computes it. -/
theorem reconciled_table27 (c : CompRec) (doorOpen on : Bool) : Table27 c doorOpen on (reconciled c doorOpen on) := by
  unfold Table27 reconciled
  cases doorOpen with
  | true =>
    unfold reconciledOpen
    cases c.state with
    | held t p => cases p <;> simp [CompRec.faulted, CompState.parcel?]
    | _ => simp [CompRec.faulted, CompState.parcel?]
  | false =>
    unfold reconciledSecure
    cases c.state with
    | held t p => cases p <;> cases on <;> simp [CompRec.faulted, CompRec.emptied]
    | _ => cases on <;> simp [CompRec.emptied]

theorem frame_raiseReconciled (slot : Slot) (r : CompRec) (s : State) :
    UnchangedBut [.conditions, .transmit] s (s.raiseReconciled slot r) := by
  unfold State.raiseReconciled
  cases r.state with
  | fault c p => exact frame_raise s _ _
  | empty => exact frame_raiseIf _ s _ _
  | occupied p => exact frame_raiseIf _ s _ _
  | _ => exact .refl _ s

section RaiseReconciled

variable {s : State} {slot : Slot} {r : CompRec}

theorem Raised.reconciledFault {c : FaultCause} {p : Option Parcel} (h : r.state = .fault c p) :
    Raised c.condition (some slot) s (s.raiseReconciled slot r) := by
  unfold State.raiseReconciled
  rw [h]
  exact .raise s _ _

theorem Raised.reconciledForeign (h : r.state = .empty) (hf : r.foreign = true) :
    Raised .foreign (some slot) s (s.raiseReconciled slot r) := by
  unfold State.raiseReconciled
  rw [h]
  dsimp only
  rw [if_pos hf]
  exact .raise s _ _

theorem Raised.reconciledLost {p : Parcel} (h : r.state = .occupied p) (hl : r.lost = true) :
    Raised .presenceLost (some slot) s (s.raiseReconciled slot r) := by
  unfold State.raiseReconciled
  rw [h]
  dsimp only
  rw [if_pos hl]
  exact .raise s _ _

end RaiseReconciled

section Reconcile

variable (s : State) (slot : Slot)

/-- A slot's record set at start-up, its current copy known, the event given and the condition raised. -/
def State.reconciledAs (current : Option Bool) (old : CompState) (r : CompRec) : State :=
  ((((s.setStore slot { s.store slot with current := current }).setRec slot r).enterEvent old r.state 0)).raiseReconciled slot r

theorem frame_reconciledAs_before (current : Option Bool) (old : CompState) (r : CompRec) :
    UnchangedBut [.records, .store, .counters] s
      (((s.setStore slot { s.store slot with current := current }).setRec slot r).enterEvent old r.state 0) :=
  ((frame_setStore s slot _).seq (frame_setRec _ slot r) (rs := [.store, .records])).seq (frame_enterEvent _ _ _ _)

theorem frame_reconciledAs_after (current : Option Bool) (old : CompState) (r : CompRec) :
    UnchangedBut [.counters, .conditions, .transmit] ((s.setStore slot { s.store slot with current := current }).setRec slot r)
      (s.reconciledAs slot current old r) :=
  (frame_enterEvent _ _ _ _).seq (frame_raiseReconciled _ _ _)

theorem frame_reconciledAs (current : Option Bool) (old : CompState) (r : CompRec) :
    UnchangedBut [.records, .store, .conditions, .counters, .transmit] s (s.reconciledAs slot current old r) :=
  (frame_reconciledAs_before s slot current old r).seq (frame_raiseReconciled _ _ _)

theorem State.reconciledAs_rec? (current : Option Bool) (old : CompState) (r : CompRec) :
    (s.reconciledAs slot current old r).rec? slot = some r :=
  ((frame_reconciledAs_after s slot current old r).rec? slot).trans (State.setRec_rec?_same ..)

theorem State.reconciledAs_store (current : Option Bool) (old : CompState) (r : CompRec) :
    (s.reconciledAs slot current old r).store slot = { s.store slot with current := current } :=
  ((frame_reconciledAs_after s slot current old r).storeOf slot).trans (State.setStore_store_same ..)

theorem State.reconciledAs_ne {i : Slot} (current : Option Bool) (old : CompState) (r : CompRec) (h : i ≠ slot) :
    (s.reconciledAs slot current old r).rec? i = s.rec? i ∧ (s.reconciledAs slot current old r).store i = s.store i :=
  ⟨((frame_reconciledAs_after s slot current old r).rec? i).trans (State.setRec_rec?_ne _ _ h),
    ((frame_reconciledAs_after s slot current old r).storeOf i).trans (State.setStore_store_ne s _ h)⟩

end Reconcile

theorem State.reconcileSound_eq (s : State) (slot : Slot) (isB d on : Bool) : s.reconcileSound slot isB d on
    = if reconciled ((s.store slot).content isB) d on = (s.store slot).content isB
      then s.reconciledAs slot (some isB) ((s.store slot).content isB).state (reconciled ((s.store slot).content isB) d on)
      else (s.reconciledAs slot (some isB) ((s.store slot).content isB).state
        (reconciled ((s.store slot).content isB) d on)).beginWrite slot [] .reconciliation := rfl

/-- Settles O11: the result of Table 2-7, then its write where it differs from what is stored. -/
theorem reconciliationTakesTheTablesResult : Obligations.ReconciliationTakesTheTablesResult := by
  intro s slot isB d on hturn hbase hstored
  have hexec : exec (.reconciliation slot) s = .next (s.reconcileSound slot isB d on) := by
    rw [exec_reconciliation hturn hbase, State.reconcile, SlotStore.found_eq_some hstored]
  generalize hr : reconciled ((s.store slot).content isB) d on = r
  have htable : Table27 ((s.store slot).content isB) d on r := hr ▸ reconciled_table27 _ d on
  generalize hu : s.reconciledAs slot (some isB) ((s.store slot).content isB).state r = u
  have hrec : u.rec? slot = some r := hu ▸ State.reconciledAs_rec? ..
  have hstore : u.store slot = { s.store slot with current := some isB } := hu ▸ State.reconciledAs_store ..
  have hothers (i : Slot) (hi : i ≠ slot) : u.rec? i = s.rec? i ∧ u.store i = s.store i := hu ▸ State.reconciledAs_ne _ _ _ _ _ hi
  have hframe : UnchangedBut [.records, .store, .conditions, .counters, .transmit] s u := by
    rw [← hu]
    exact frame_reconciledAs s slot _ _ _
  have hbefore : AtMostDiscard s _ := .of_frame (frame_reconciledAs_before s slot (some isB) ((s.store slot).content isB).state r)
  have hfault (c : FaultCause) (p : Option Parcel) (h : r.state = .fault c p) : Raised c.condition (some slot) s u :=
    hu ▸ (Raised.reconciledFault h).after hbefore
  have hforeign (h : r.state = .empty) (hf : r.foreign = true) : Raised .foreign (some slot) s u :=
    hu ▸ (Raised.reconciledForeign h hf).after hbefore
  have hlost (p : Parcel) (h : r.state = .occupied p) (hl : r.lost = true) : Raised .presenceLost (some slot) s u :=
    hu ▸ (Raised.reconciledLost h hl).after hbefore
  have hsound : s.reconcileSound slot isB d on
      = if r = (s.store slot).content isB then u else u.beginWrite slot [] .reconciliation := by
    rw [State.reconcileSound_eq, hr, hu]
  rw [hexec, hsound]
  by_cases hsame : r = (s.store slot).content isB
  · rw [if_pos hsame]
    exact ⟨u, r, rfl, hrec, htable, fun _ => hstore, fun h => absurd hsame h, hfault, hforeign, hlost, hothers, hframe⟩
  · have hwrite := frame_beginWrite_current (s := u) (slot := slot) (isB := isB) (by rw [hstore]) [] .reconciliation
    have hdiscard : AtMostDiscard u (u.beginWrite slot [] .reconciliation) := .of_frame hwrite
    rw [if_neg hsame]
    refine ⟨_, r, rfl, (hwrite.rec? slot).trans hrec, htable, fun h => absurd h hsame, fun _ => ?_,
      fun c p h => (hfault c p h).then_ hdiscard, fun h hf => (hforeign h hf).then_ hdiscard,
      fun p h hl => (hlost p h hl).then_ hdiscard, fun i hi => ?_, hframe.seq hwrite⟩
    · obtain ⟨htoB, hgen⟩ := SlotStore.newWrite_current (x := u.store slot) (isB := isB) (by rw [hstore]) r [] .reconciliation u.free
      rw [State.beginWrite_store hrec]
      rw [hstore] at htoB hgen ⊢
      exact ⟨_, rfl, rfl, htoB, hgen, rfl, rfl, rfl, rfl, rfl, rfl⟩
    · obtain ⟨hreci, hstorei⟩ := hothers i hi
      exact ⟨(hwrite.rec? i).trans hreci, (State.beginWrite_store_ne u _ _ hi).trans hstorei⟩

theorem State.reconcileDamaged_eq (s : State) (slot : Slot) : s.reconcileDamaged slot
    = (((((s.setStore slot { s.store slot with current := none }).setRec slot CompRec.damaged).damagedEvent).raiseReconciled slot
        CompRec.damaged)).beginWrite slot [] .reconciliation := rfl

/-- Settles O12: the damaged record, its event, its condition and its write. -/
theorem damagedRecordReconcilesToStoreFault : Obligations.DamagedRecordReconcilesToStoreFault := by
  intro s slot b hturn hbase hdamaged
  have hexec : exec (.reconciliation slot) s = .next (s.reconcileDamaged slot) := by
    rw [exec_reconciliation hturn hbase, State.reconcile, SlotStore.found_eq_none hdamaged]
  have hset : UnchangedBut [.records, .store] s
      ((s.setStore slot { s.store slot with current := none }).setRec slot CompRec.damaged) :=
    (frame_setStore s slot _).seq (frame_setRec _ slot _)
  have hevent : UnchangedBut [.counters] _ _ :=
    frame_count ((s.setStore slot { s.store slot with current := none }).setRec slot CompRec.damaged) .enterState
      (some CompTag.fault.pos) 0
  have hraise := frame_raiseReconciled slot CompRec.damaged
    ((s.setStore slot { s.store slot with current := none }).setRec slot CompRec.damaged).damagedEvent
  have hafter := hevent.seq hraise (rs := [.conditions, .counters, .transmit])
  generalize hu : (((s.setStore slot { s.store slot with current := none }).setRec slot CompRec.damaged).damagedEvent).raiseReconciled
    slot CompRec.damaged = u at hafter
  have hrec : u.rec? slot = some CompRec.damaged := (hafter.rec? slot).trans (State.setRec_rec?_same ..)
  have hstore : u.store slot = { s.store slot with current := none } := (hafter.storeOf slot).trans (State.setStore_store_same ..)
  have hraised : Raised .store (some slot) s u :=
    hu ▸ (Raised.reconciledFault (c := .store) (p := none) rfl).after (.of_frame (hset.seq hevent (rs := [.records, .store, .counters])))
  have hwrite := frame_beginWrite u slot [] .reconciliation
  rw [hexec, State.reconcileDamaged_eq, hu]
  refine ⟨_, rfl, (hwrite.rec? slot).trans hrec, hraised.then_ (.of_frame hwrite), ?_, ?_, ?_, fun i hi => ⟨?_, ?_⟩, ?_⟩
  · rw [State.beginWrite_store hrec]
    exact ⟨_, rfl, rfl, rfl⟩
  · rw [State.beginWrite_store hrec, hstore]
  · rw [State.beginWrite_store hrec, hstore]
  · exact ((hwrite.rec? i).trans (hafter.rec? i)).trans (State.setRec_rec?_ne _ _ hi)
  · exact ((State.beginWrite_store_ne u _ _ hi).trans (hafter.storeOf i)).trans (State.setStore_store_ne s _ hi)
  · exact (hset.seq hafter (rs := [.records, .store, .conditions, .counters, .transmit])).seq hwrite

/-! ## The line's states (R157) -/

theorem State.readyToJoin_iff {s : State} : s.readyToJoin = true ↔ s.phase = .reconciling
    ∧ ∀ i, (s.fitted i = true → (s.rec? i).isSome = true)
      ∧ ∀ w, (s.store i).writing = some w → w.cause ≠ .reconciliation := by
  have hslot (i : Slot) : (s.settledSlot i && !s.reconciliationWriting i) = true
      ↔ (s.fitted i = true → (s.rec? i).isSome = true) ∧ ∀ w, (s.store i).writing = some w → w.cause ≠ .reconciliation := by
    have hsettled : s.settledSlot i = true ↔ (s.fitted i = true → (s.rec? i).isSome = true) := by
      unfold State.settledSlot
      cases s.fitted i <;> simp
    have hwriting : (!s.reconciliationWriting i) = true ↔ ∀ w, (s.store i).writing = some w → w.cause ≠ .reconciliation := by
      unfold State.reconciliationWriting
      cases (s.store i).writing <;> simp
    rw [Bool.and_eq_true, hsettled, hwriting]
  simp [State.readyToJoin, hslot]

theorem exec_joiningEnd {s : State} (h : s.liu.line = .joining) : exec .joiningEnd s = .next
    ((s.queueFrame s.announceFrame).setLiu { (s.queueFrame s.announceFrame).liu with line := .active, timer := 0 }).conclude :=
  congrArg Host.Outcome.next (if_pos h)

theorem frame_setLine (s : State) (l : LineState) (n : Nat) :
    UnchangedBut [.line] s (s.setLiu { s.liu with line := l, timer := n }) := by
  intro p hp; cases p <;> simp_all [Part.same]

theorem frame_joined (s : State) : UnchangedBut [.phase, .line, .level] s
    (((s.setPhase .running).setLiu { s.liu with line := .joining, timer := 0 }).setBgu { s.bgu with age := some 0 }) := by
  intro p hp; cases p <;> simp_all [Part.same]

theorem exec_joiningEntry {s : State} (h : s.readyToJoin = true) : exec .joiningEntry s = .next
    (((s.setPhase .running).setLiu { s.liu with line := .joining, timer := 0 }).setBgu { s.bgu with age := some 0 }) :=
  congrArg Host.Outcome.next (if_pos h)

theorem exec_quietEnd {s : State} (h : s.liu.line = .quiet) :
    exec .quietEnd s = .next (s.setLiu { s.liu with line := .joining, timer := 0 }) := congrArg Host.Outcome.next (if_pos h)

/-- Settles O13: the three line timers. -/
theorem lineStatesFollowOneAnother : Obligations.LineStatesFollowOneAnother := by
  refine ⟨fun s hphase hready => ?_, fun s hnot => ?_, fun s hline => ?_, fun s hline => ?_⟩
  · exact ⟨_, exec_joiningEntry (State.readyToJoin_iff.mpr ⟨hphase, hready⟩), rfl, rfl, rfl, rfl, rfl, rfl, frame_joined s⟩
  · refine congrArg Host.Outcome.next (if_neg fun hready => ?_)
    obtain ⟨hphase, hslots⟩ := State.readyToJoin_iff.mp hready
    rcases hnot with hne | ⟨i, hfit, hnone⟩ | ⟨i, w, hw, hcause⟩
    · exact hne hphase
    · have := (hslots i).1 hfit
      rw [hnone] at this
      cases this
    · exact (hslots i).2 w hw hcause
  · have hset := frame_setLine (s.queueFrame s.announceFrame) .active 0
    exact ⟨_, exec_joiningEnd hline, rfl, (Answered.queueFrame s (.announce ..) 0 (Nat.le_refl 2)).then_ hset, (frame_queueFrame s _).seq hset⟩
  · exact ⟨_, exec_quietEnd hline, rfl, rfl, frame_setLine s .joining 0⟩

end Sys2Proof.Machine
end

