-- ==== Sys2Proof/Proofs/EntryFacts.lean ====
section
/- One theorem after another: side by side, their proofs ask for more threads than the check's memory limit allows. -/
set_option Elab.async false

/-! SUPPORT. The Open Request Table after each update, what the end of an entry does to the records, and the end of a promise (R5,
R37, R89, R101). -/

namespace Sys2Proof.Machine

/-! ## Lookups in the table -/

/-- The test of a key, as a proposition. -/
theorem Entry.key_iff {e : Entry} {j : Job} : (e.kind == j.kind && e.ticket == j.ticket) = true ↔ e.job = j := by
  simp [Entry.job_eq_iff]

section Lookup

variable (s : State) (j : Job) (f : Entry → Entry)

theorem State.entry?_updEntry_same (hf : ∀ e, (f e).job = e.job) : (s.updEntry j f).entry? j = (s.entry? j).map f := by
  unfold State.entry? State.updEntry
  rw [State.setOrt_ort, List.find?_map]
  have hkey : ((fun e : Entry => e.kind == j.kind && e.ticket == j.ticket) ∘ fun e => if e.kind = j.kind ∧ e.ticket = j.ticket then f e else e)
      = fun e => e.kind == j.kind && e.ticket == j.ticket := by
    funext e
    rw [Bool.eq_iff_iff]
    simp only [Function.comp_apply, Entry.key_iff]
    by_cases he : e.kind = j.kind ∧ e.ticket = j.ticket
    · rw [if_pos he, hf]
    · rw [if_neg he]
  rw [hkey]
  cases hfind : s.ort.find? (fun e => e.kind == j.kind && e.ticket == j.ticket) with
  | none => rfl
  | some e =>
    have hmatch : e.kind = j.kind ∧ e.ticket = j.ticket := by
      simpa using List.find?_some hfind
    simp [hmatch]

theorem State.entry?_updEntry_ne {k : Job} (hf : ∀ e, (f e).job = e.job) (hk : k ≠ j) :
    (s.updEntry j f).entry? k = s.entry? k := by
  unfold State.entry? State.updEntry
  rw [State.setOrt_ort, List.find?_map]
  have hkey : ((fun e : Entry => e.kind == k.kind && e.ticket == k.ticket) ∘ fun e => if e.kind = j.kind ∧ e.ticket = j.ticket then f e else e)
      = fun e => e.kind == k.kind && e.ticket == k.ticket := by
    funext e
    rw [Bool.eq_iff_iff]
    simp only [Function.comp_apply, Entry.key_iff]
    by_cases he : e.kind = j.kind ∧ e.ticket = j.ticket
    · rw [if_pos he, hf]
    · rw [if_neg he]
  rw [hkey]
  cases hfind : s.ort.find? (fun e => e.kind == k.kind && e.ticket == k.ticket) with
  | none => rfl
  | some e =>
    have hfound := List.find?_some hfind
    have hmatch : e.job = k := Entry.key_iff.mp hfound
    have hne : ¬(e.kind = j.kind ∧ e.ticket = j.ticket) := fun he => hk (hmatch.symm.trans (Entry.job_eq_iff.mpr he))
    simp [hne]

theorem State.entry?_dropEntry_same : (s.dropEntry j).entry? j = none := by
  rw [State.entry?_none_iff]
  intro e he hej
  have hkeep := (List.mem_filter.mp he).2
  rw [Entry.key_iff.mpr hej] at hkeep
  cases hkeep

theorem State.entry?_dropEntry_ne {k : Job} (hk : k ≠ j) : (s.dropEntry j).entry? k = s.entry? k := by
  unfold State.entry? State.dropEntry
  rw [State.setOrt_ort, List.find?_filter]
  congr 1
  funext e
  rw [Bool.eq_iff_iff]
  by_cases he : e.job = k
  · have hdrop : (e.kind == j.kind && e.ticket == j.ticket) = false := by
      rw [← Bool.not_eq_true, Entry.key_iff]
      exact fun hj => hk (he.symm.trans hj)
    simp [hdrop]
  · simp_all [Entry.job_eq_iff]

theorem State.dropEntry_of_none (h : s.entry? j = none) : s.dropEntry j = s := by
  have hall : s.ort.filter (fun e => !(e.kind == j.kind && e.ticket == j.ticket)) = s.ort := by
    refine List.filter_eq_self.mpr fun e he => ?_
    rw [Bool.not_eq_true', ← Bool.not_eq_true, Entry.key_iff]
    exact State.entry?_none_iff.mp h e he
  unfold State.dropEntry
  rw [hall]
  rfl

theorem State.entry?_addEntry_new {e : Entry} (hj : e.job = j) (hnew : s.entry? j = none) :
    (s.addEntry e).entry? j = some e := by
  unfold State.entry? at *
  rw [State.addEntry, State.setOrt_ort, List.find?_append, hnew, Option.none_or, List.find?_singleton, if_pos (Entry.key_iff.mpr hj)]

end Lookup

/-! ## A deferred expiry (R7, R118) -/

/-- A record and its store stand, but for an OCCUPIED parcel that expires. -/
def RecordsExpire (s t : State) : Prop :=
  ∀ i, (t.rec? i = s.rec? i ∧ t.store i = s.store i) ∨ ∃ r p, s.rec? i = some r ∧ r.state = .occupied p

theorem RecordsExpire.refl (s : State) : RecordsExpire s s := fun _ => .inl ⟨rfl, rfl⟩

theorem RecordsExpire.of_frame {ps : List Part} {s t : State} (h : UnchangedBut ps s t)
    (hr : Part.records ∉ ps := by decide) (hs : Part.store ∉ ps := by decide) : RecordsExpire s t :=
  fun i => .inl ⟨h.rec? i hr, h.storeOf i hs⟩

theorem RecordsExpire.trans {s t u : State} (h : RecordsExpire s t) (k : RecordsExpire t u) : RecordsExpire s u := fun i => by
  rcases h i with ⟨hrec, hstore⟩ | hocc
  · rcases k i with ⟨krec, kstore⟩ | ⟨r, p, kr, kp⟩
    · exact .inl ⟨krec.trans hrec, kstore.trans hstore⟩
    · exact .inr ⟨r, p, hrec ▸ kr, kp⟩
  · exact .inr hocc

theorem RecordsExpire.expire (s : State) (slot : Slot) : RecordsExpire s (s.expire slot) := fun i => by
  unfold State.expire
  split
  · exact .inl ⟨rfl, rfl⟩
  · rename_i r hr
    split
    · rename_i p hp
      by_cases hi : i = slot
      · exact .inr ⟨r, p, hi ▸ hr, hp⟩
      · split
        · have hchanged := Changed.change hr { r with state := .occupied { p with purpose := .expired } } 0
          exact .inl ⟨hchanged.records i hi, hchanged.stores i hi⟩
        · exact .inl ⟨rfl, rfl⟩
    · exact .inl ⟨rfl, rfl⟩

theorem RecordsExpire.deferredExpiry (s : State) (slot : Slot) : RecordsExpire s (s.deferredExpiry slot) := by
  unfold State.deferredExpiry
  split
  · exact .refl s
  · split
    exacts [.expire s slot, .refl s]

theorem RecordsExpire.foldl {α : Type} {f : State → α → State} (h : ∀ s x, RecordsExpire s (f s x)) (xs : List α) (s : State) :
    RecordsExpire s (xs.foldl f s) := by
  induction xs generalizing s with
  | nil => exact .refl s
  | cons x xs ih => exact (h s x).trans (ih _)

theorem RecordsExpire.finishEntry (s : State) (j : Job) : RecordsExpire s (s.finishEntry j) := by
  unfold State.finishEntry
  split
  · exact .refl s
  · exact (RecordsExpire.of_frame (frame_dropEntry s j)).trans (.foldl (fun s x => .deferredExpiry s x) _ _)

/-- A record that is not OCCUPIED stands. -/
theorem RecordsExpire.stands {s t : State} (h : RecordsExpire s t) {slot : Slot} {r : CompRec} (hr : s.rec? slot = some r)
    (hocc : ∀ p, r.state ≠ .occupied p) : t.rec? slot = some r ∧ t.store slot = s.store slot := by
  rcases h slot with ⟨hrec, hstore⟩ | ⟨r', p, hr', hp⟩
  · exact ⟨hrec.trans hr, hstore⟩
  · rw [hr] at hr'
    cases hr'
    exact absurd hp (hocc p)

/-! ## The end of an entry (R89) -/

theorem frame_markedHeld (s : State) (slots : List Slot) :
    UnchangedBut expiryParts s (slots.foldl (fun s slot => s.deferredExpiry slot) s) :=
  UnchangedBut.foldl (fun s x => frame_deferredExpiry s x) slots s

/-- The table without the entry. -/
theorem State.finishEntry_ort (s : State) (j : Job) : (s.finishEntry j).ort = (s.dropEntry j).ort := by
  unfold State.finishEntry
  split
  · rename_i h
    rw [State.dropEntry_of_none s j h]
  · exact (frame_markedHeld _ _).ort

theorem State.entry?_finishEntry_same (s : State) (j : Job) : (s.finishEntry j).entry? j = none := by
  unfold State.entry?
  rw [State.finishEntry_ort]
  exact State.entry?_dropEntry_same s j

theorem State.entry?_finishEntry_ne (s : State) {j k : Job} (hk : k ≠ j) : (s.finishEntry j).entry? k = s.entry? k := by
  unfold State.entry?
  rw [State.finishEntry_ort]
  exact State.entry?_dropEntry_ne s j hk

theorem State.finishEntry_of_noMarks {s : State} {j : Job} (h : ∀ e, s.entry? j = some e → NoMarks e) :
    s.finishEntry j = s.dropEntry j := by
  unfold State.finishEntry
  split
  · rename_i hnone
    rw [State.dropEntry_of_none s j hnone]
  · rename_i e he
    have hnone : e.markedHeld = [] := by
      unfold Entry.markedHeld
      split
      · rfl
      · have hmarks : e.slots.filter (fun x => x.mark && x.progress != .done) = [] :=
          List.filter_eq_nil_iff.mpr fun x hx => by simp [h e he x hx]
        rw [hmarks]
        rfl
    rw [hnone]
    rfl

/-! ## Frames that join the transmit queue -/

/-- Of new frames only ALERTs have joined the transmit queue, none of them being transmitted. -/
def AlertsJoin (s t : State) : Prop :=
  ∀ g ∈ t.liu.tx, g ∈ s.liu.tx ∨ (g.sending = false ∧ ∃ conds slot, g.body = .alert conds slot)

theorem AlertsJoin.refl (s : State) : AlertsJoin s s := fun _ h => .inl h

theorem AlertsJoin.of_frame {ps : List Part} {s t : State} (h : UnchangedBut ps s t) (hp : Part.transmit ∉ ps := by decide) :
    AlertsJoin s t := fun _ hg => .inl (h.tx hp ▸ hg)

theorem AlertsJoin.trans {s t u : State} (h : AlertsJoin s t) (k : AlertsJoin t u) : AlertsJoin s u := fun g hg => by
  rcases k g hg with hg' | hnew
  exacts [h g hg', .inr hnew]

theorem AlertsJoin.foldl {α : Type} {f : State → α → State} (h : ∀ s x, AlertsJoin s (f s x)) (xs : List α) (s : State) :
    AlertsJoin s (xs.foldl f s) := by
  induction xs generalizing s with
  | nil => exact .refl s
  | cons x xs ih => exact (h s x).trans (ih _)

theorem mem_of_mem_placeIn {f g : TxFrame} {q : List TxFrame} (h : g ∈ (placeIn f q).queue) : g ∈ q ∨ g = f := by
  have happend (hg : g ∈ q ++ [f]) : g ∈ q ∨ g = f := by simpa using hg
  unfold placeIn at h
  split at h
  · exact happend h
  · split at h
    · exact happend (List.mem_of_mem_eraseIdx h)
    · exact .inl h

theorem AlertsJoin.raise (s : State) (c : Condition) (slot : Option Slot) : AlertsJoin s (s.raise c slot) := by
  have hplaced (u : State) (g : TxFrame) (hg : g ∈ (placeIn u.alertFrame u.liu.tx).queue) :
      g ∈ u.liu.tx ∨ (g.sending = false ∧ ∃ conds slot, g.body = .alert conds slot) := by
    rcases mem_of_mem_placeIn hg with hold | rfl
    exacts [.inl hold, .inr ⟨rfl, _, _, rfl⟩]
  intro g hg
  unfold State.raise State.alertIfRisen at hg
  dsimp only at hg
  split at hg
  · split at hg
    exacts [hplaced (s.mark c slot) g hg, hplaced (s.mark c slot) g hg]
  · exact .inl hg

theorem AlertsJoin.raiseIf (b : Bool) (s : State) (c : Condition) (slot : Option Slot) :
    AlertsJoin s (if b then s.raise c slot else s) := by
  split
  exacts [.raise s c slot, .refl s]

theorem AlertsJoin.emptyChecked (s : State) (slot : Slot) : AlertsJoin s (s.emptyChecked slot) := by
  have hchange : UnchangedBut [.records, .store, .counters, .free] s (s.change slot (CompRec.emptied (s.sense slot).presenceIsOn) 0) :=
    frame_change_causeless s slot 0 rfl
  exact (AlertsJoin.of_frame hchange).trans (.raiseIf _ _ _ _)

theorem AlertsJoin.endPromise (s : State) (t : Ticket) (slot : Slot) : AlertsJoin s (s.endPromise t slot) := by
  unfold State.endPromise
  split
  · split
    · exact (AlertsJoin.emptyChecked s slot).trans (.of_frame (frame_closePlace _ _ _))
    · exact .of_frame (frame_finishEntry s _)
  · exact .of_frame (frame_finishEntry s _)

theorem AlertsJoin.endOffer (s : State) (t : Ticket) : AlertsJoin s (s.endOffer t) := by
  unfold State.endOffer
  split
  · exact .refl s
  · split
    · split
      exacts [.endPromise s t _, .refl s]
    · exact .refl s

/-! ## The end of a promise (R5, R37, R101) -/

/-- An entry whose work is over: its timer has stopped. -/
def Entry.over (e : Entry) : Entry := { e with timer := none, ending := true }

/-- What the end of a promise leaves, where the compartment still carries it. -/
structure PromiseReleased (tk : Ticket) (slot : Slot) (s t : State) : Prop where
  changed : Changed slot { state := .empty, foreign := (s.sense slot).presenceIsOn, lost := false } [.endEntry (placeJob tk)] s t
  entry : t.entry? (placeJob tk) = (s.entry? (placeJob tk)).map Entry.over
  others : ∀ k, k ≠ placeJob tk → t.entry? k = s.entry? k
  raised : (s.sense slot).presenceIsOn = true → Raised .foreign (some slot) s t
  quiet : (s.sense slot).presenceIsOn = false → t.rpt.conds = s.rpt.conds
  counted : CountedAll [(.enterState, some 0, 0)] s t

theorem CompRec.promised_iff {r : CompRec} {tk : Ticket} : r.promised tk = true ↔ r.state = .offered tk ∨ r.state = .held tk none := by
  unfold CompRec.promised
  split <;> simp_all

theorem changeEvents_emptied {r : CompRec} {tk : Ticket} (h : r.promised tk = true) :
    changeEvents r.state .empty 0 = [(.enterState, some 0, 0)] := by
  rcases CompRec.promised_iff.mp h with h | h <;> rw [h] <;> rfl

theorem State.endPromise_released {s : State} {tk : Ticket} {slot : Slot} {r : CompRec} (hr : s.rec? slot = some r)
    (hp : r.promised tk = true) : PromiseReleased tk slot s (s.endPromise tk slot) := by
  have heq : s.endPromise tk slot
      = ((s.emptyChecked slot).updEntry (placeJob tk) Entry.over).await slot (.endEntry (placeJob tk)) := by
    unfold State.endPromise
    rw [hr]
    exact if_pos hp
  have hne : s.rec? slot ≠ some (CompRec.emptied (s.sense slot).presenceIsOn) := by
    rw [hr]
    intro h
    cases h
    cases hp
  have hempty := frame_emptyChecked s slot
  have hupd := frame_updEntry (s.emptyChecked slot) (placeJob tk) Entry.over
  have hchanged : Changed slot (CompRec.emptied (s.sense slot).presenceIsOn) [] s ((s.emptyChecked slot).updEntry (placeJob tk) Entry.over) :=
    (Changed.emptyChecked hr).then_ hupd
  have hawait := frame_await_writing (hchanged.writing hne) (.endEntry (placeJob tk))
  have htail : UnchangedBut [.requests, .store] (s.emptyChecked slot)
      (((s.emptyChecked slot).updEntry (placeJob tk) Entry.over).await slot (.endEntry (placeJob tk))) := hupd.seq hawait
  rw [heq]
  refine ⟨hchanged.await hne _, ?_, fun k hk => ?_, fun hon => ?_, fun hoff => ?_, ?_⟩
  · rw [hawait.entry?, State.entry?_updEntry_same _ _ Entry.over (fun _ => rfl), hempty.entry?]
  · rw [hawait.entry?, State.entry?_updEntry_ne _ _ Entry.over (fun _ => rfl) hk, hempty.entry?]
  · exact (Raised.emptyChecked hon hr).then_ (.of_frame htail)
  · rw [htail.conds, frame_emptyChecked_off hoff]
    exact (frame_change_quiet hr (by intro c hc; cases hc) 0).conds
  · have hcount := CountedAll.emptyChecked hr
    rw [changeEvents_emptied hp] at hcount
    exact hcount.then_ htail

theorem PromiseReleased.ended {tk : Ticket} {slot : Slot} {s t : State} (h : PromiseReleased tk slot s t)
    (hne : ∀ r, s.rec? slot = some r → r.state ≠ .empty) : PromiseEnded tk slot s t where
  record := h.changed.record
  written := h.changed.written fun hr => hne _ hr rfl
  entry e he := by rw [h.entry, he]; rfl
  foreign hon := (h.raised hon).isSet

/-- What the end of a promise without its compartment leaves. -/
theorem State.endPromise_unpromised {s : State} {tk : Ticket} {slot : Slot} {r : CompRec} (hr : s.rec? slot = some r)
    (hp : r.promised tk = false) : s.endPromise tk slot = s.finishEntry (placeJob tk) := by
  unfold State.endPromise
  rw [hr]
  exact if_neg (by simp [hp])

theorem State.endPromise_none {s : State} {tk : Ticket} {slot : Slot} (hr : s.rec? slot = none) :
    s.endPromise tk slot = s.finishEntry (placeJob tk) := by
  unfold State.endPromise
  rw [hr]

theorem State.endOffer_promised {s : State} {tk : Ticket} {slot : Slot} (h : Promised tk slot s) :
    s.endOffer tk = s.endPromise tk slot := by
  obtain ⟨e, he, hslot, hstage, hending⟩ := h
  unfold State.endOffer
  rw [he]
  dsimp only
  rw [hslot]
  exact if_pos ⟨hstage, hending⟩

theorem State.endOffer_over {s : State} {tk : Ticket} {e : Entry} (he : s.entry? (placeJob tk) = some e) (h : e.ending = true) :
    s.endOffer tk = s := by
  unfold State.endOffer
  rw [he]
  dsimp only
  split
  · exact if_neg fun ⟨_, hend⟩ => by rw [h] at hend; cases hend
  · rfl

end Sys2Proof.Machine
end

