-- ==== Sys2Proof/Proofs/TransmitQueue.lean ====
section
/- One theorem after another: side by side, their proofs ask for more threads than the check's memory limit allows. -/
set_option Elab.async false

/-! SUPPORT and proof of O14: the frame sent next and the frame discarded (R153, R154, R160). -/

namespace Sys2Proof.Machine

/-! ## The frame sent next -/

/-- A frame of a list that no other precedes: lowest key, and among equal keys the earliest place. -/
def FirstByKey (q : List TxFrame) (n : Nat) (f : TxFrame) : Prop :=
  q[n]? = some f ∧ ∀ (m : Nat) (g : TxFrame), q[m]? = some g → f.key < g.key ∨ (f.key = g.key ∧ n ≤ m)

theorem FirstByKey.cons {q : List TxFrame} {n : Nat} {f g : TxFrame} (h : FirstByKey q n f) (hg : f.key < g.key) :
    FirstByKey (g :: q) (n + 1) f := by
  obtain ⟨hf, hfirst⟩ := h
  refine ⟨hf, fun m x hx => ?_⟩
  cases m with
  | zero =>
    cases hx
    exact .inl hg
  | succ m =>
    rcases hfirst m x hx with hlt | ⟨heq, hle⟩
    exacts [.inl hlt, .inr ⟨heq, Nat.succ_le_succ hle⟩]

theorem FirstByKey.head {q : List TxFrame} {f : TxFrame} (h : ∀ (m : Nat) (g : TxFrame), q[m]? = some g → f.key ≤ g.key) :
    FirstByKey (f :: q) 0 f := by
  refine ⟨rfl, fun m x hx => ?_⟩
  cases m with
  | zero =>
    cases hx
    exact .inr ⟨rfl, Nat.le_refl _⟩
  | succ m => exact (Nat.lt_or_eq_of_le (h m x hx)).imp_right fun heq => ⟨heq, Nat.zero_le _⟩

/-- The search keeps the best found before, or comes to the first of the list below it. -/
theorem nextIndex_spec (q : List TxFrame) (i : Nat) (best : Option (Nat × Nat)) {k : Nat} (h : nextIndex q i best = some k) :
    (∃ key, best = some (k, key) ∧ ∀ (m : Nat) (g : TxFrame), q[m]? = some g → key ≤ g.key)
      ∨ ∃ n f, k = i + n ∧ FirstByKey q n f ∧ ∀ b key, best = some (b, key) → f.key < key := by
  induction q generalizing i best with
  | nil =>
    obtain ⟨⟨b, key⟩, hb, rfl⟩ := Option.map_eq_some_iff.mp h
    exact .inl ⟨key, hb, by simp⟩
  | cons f rest ih =>
    have hstep := ih (i + 1) _ h
    have hlater {n : Nat} {g : TxFrame} (hk : k = i + 1 + n) (hg : FirstByKey rest n g) (hlt : g.key < f.key)
        (hbest : ∀ b key, best = some (b, key) → g.key < key) :
        ∃ n g, k = i + n ∧ FirstByKey (f :: rest) n g ∧ ∀ b key, best = some (b, key) → g.key < key :=
      ⟨n + 1, g, by omega, hg.cons hlt, hbest⟩
    have hhead {key : Nat} (hk : some (i, f.key) = some (k, key)) (hle : ∀ (m : Nat) (g : TxFrame), rest[m]? = some g → key ≤ g.key)
        (hbest : ∀ b key, best = some (b, key) → f.key < key) :
        ∃ n g, k = i + n ∧ FirstByKey (f :: rest) n g ∧ ∀ b key, best = some (b, key) → g.key < key := by
      cases hk
      exact ⟨0, f, rfl, .head hle, hbest⟩
    cases best with
    | none =>
      rcases hstep with ⟨key, hk, hle⟩ | ⟨n, g, hk, hg, hlt⟩
      · exact .inr (hhead hk hle (by simp))
      · exact .inr (hlater hk hg (hlt i f.key rfl) (by simp))
    | some b =>
      obtain ⟨j, key⟩ := b
      dsimp only at hstep
      by_cases hf : f.key < key
      · rw [if_pos hf] at hstep
        have hbest (b y : Nat) (hby : some (j, key) = some (b, y)) : f.key < y := by cases hby; exact hf
        rcases hstep with ⟨key', hk, hle⟩ | ⟨n, g, hk, hg, hlt⟩
        · exact .inr (hhead hk hle hbest)
        · exact .inr (hlater hk hg (hlt i f.key rfl) fun b y hby => lt_trans (hlt i f.key rfl) (hbest b y hby))
      · rw [if_neg hf] at hstep
        rcases hstep with ⟨key', hk, hle⟩ | ⟨n, g, hk, hg, hlt⟩
        · cases hk
          refine .inl ⟨key, rfl, fun m g hg => ?_⟩
          cases m with
          | zero =>
            cases hg
            exact Nat.le_of_not_lt hf
          | succ m => exact hle m g hg
        · have hgkey : g.key < key := hlt j key rfl
          exact .inr (hlater hk hg (lt_of_lt_of_le hgkey (Nat.le_of_not_lt hf)) hlt)

theorem nextIndex_isSome (q : List TxFrame) (i : Nat) {best : Option (Nat × Nat)} (h : best.isSome = true) :
    (nextIndex q i best).isSome = true := by
  induction q generalizing i best with
  | nil => simpa [nextIndex] using h
  | cons f rest ih =>
    refine ih (i + 1) ?_
    split
    · split <;> rfl
    · rfl

/-- With a frame queued there is one to send next. -/
theorem nextIndex_first {q : List TxFrame} (h : q ≠ []) : ∃ i f, nextIndex q 0 none = some i ∧ FirstByKey q i f := by
  have hsome : (nextIndex q 0 none).isSome = true := by
    cases q with
    | nil => exact absurd rfl h
    | cons f rest => exact nextIndex_isSome rest 1 rfl
  obtain ⟨i, hi⟩ := Option.isSome_iff_exists.mp hsome
  rcases nextIndex_spec q 0 none hi with ⟨key, hnone, -⟩ | ⟨n, f, hn, hfirst, -⟩
  · cases hnone
  · rw [Nat.zero_add] at hn
    exact ⟨i, f, hi, hn ▸ hfirst⟩

/-! ## The frame discarded -/

/-- A candidate of a list that all others come before: highest key, and among equal keys the latest place. -/
def LastByKey (q : List TxFrame) (n : Nat) (f : TxFrame) : Prop :=
  q[n]? = some f ∧ f.discardable = true
    ∧ ∀ (m : Nat) (g : TxFrame), q[m]? = some g → g.discardable = true → g.key < f.key ∨ (g.key = f.key ∧ m ≤ n)

theorem LastByKey.cons {q : List TxFrame} {n : Nat} {f g : TxFrame} (h : LastByKey q n f)
    (hg : g.discardable = true → g.key ≤ f.key) : LastByKey (g :: q) (n + 1) f := by
  obtain ⟨hf, hd, hlast⟩ := h
  refine ⟨hf, hd, fun m x hx hxd => ?_⟩
  cases m with
  | zero =>
    cases hx
    exact (Nat.lt_or_eq_of_le (hg hxd)).imp_right fun heq => ⟨heq, Nat.zero_le _⟩
  | succ m =>
    rcases hlast m x hx hxd with hlt | ⟨heq, hle⟩
    exacts [.inl hlt, .inr ⟨heq, Nat.succ_le_succ hle⟩]

theorem LastByKey.head {q : List TxFrame} {f : TxFrame} (hf : f.discardable = true)
    (h : ∀ (m : Nat) (g : TxFrame), q[m]? = some g → g.discardable = true → g.key < f.key) : LastByKey (f :: q) 0 f := by
  refine ⟨rfl, hf, fun m x hx hxd => ?_⟩
  cases m with
  | zero =>
    cases hx
    exact .inr ⟨rfl, Nat.le_refl _⟩
  | succ m => exact .inl (h m x hx hxd)

/-- The search keeps the best found before, or comes to the last candidate of the list that is not below it. -/
theorem discardIndex_spec (q : List TxFrame) (i : Nat) (best : Option (Nat × Nat)) {k : Nat} (h : discardIndex q i best = some k) :
    (∃ key, best = some (k, key) ∧ ∀ (m : Nat) (g : TxFrame), q[m]? = some g → g.discardable = true → g.key < key)
      ∨ ∃ n f, k = i + n ∧ LastByKey q n f ∧ ∀ b key, best = some (b, key) → key ≤ f.key := by
  induction q generalizing i best with
  | nil =>
    obtain ⟨⟨b, key⟩, hb, rfl⟩ := Option.map_eq_some_iff.mp h
    exact .inl ⟨key, hb, by simp⟩
  | cons f rest ih =>
    have hstep := ih (i + 1) _ h
    have hlater {n : Nat} {g : TxFrame} (hk : k = i + 1 + n) (hg : LastByKey rest n g) (hle : f.discardable = true → f.key ≤ g.key)
        (hbest : ∀ b key, best = some (b, key) → key ≤ g.key) :
        ∃ n g, k = i + n ∧ LastByKey (f :: rest) n g ∧ ∀ b key, best = some (b, key) → key ≤ g.key :=
      ⟨n + 1, g, by omega, hg.cons hle, hbest⟩
    have hcons {key : Nat} (hrest : ∀ (m : Nat) (g : TxFrame), rest[m]? = some g → g.discardable = true → g.key < key)
        (hf : f.discardable = true → f.key < key) :
        ∀ (m : Nat) (g : TxFrame), (f :: rest)[m]? = some g → g.discardable = true → g.key < key := fun m g hg hgd => by
      cases m with
      | zero =>
        cases hg
        exact hf hgd
      | succ m => exact hrest m g hg hgd
    by_cases hfd : f.discardable = true
    · rw [if_pos hfd] at hstep
      have hhead {key : Nat} (hk : some (i, f.key) = some (k, key))
          (hlt : ∀ (m : Nat) (g : TxFrame), rest[m]? = some g → g.discardable = true → g.key < key)
          (hbest : ∀ b key, best = some (b, key) → key ≤ f.key) :
          ∃ n g, k = i + n ∧ LastByKey (f :: rest) n g ∧ ∀ b key, best = some (b, key) → key ≤ g.key := by
        cases hk
        exact ⟨0, f, rfl, .head hfd hlt, hbest⟩
      cases best with
      | none =>
        rcases hstep with ⟨key, hk, hlt⟩ | ⟨n, g, hk, hg, hle⟩
        · exact .inr (hhead hk hlt (by simp))
        · exact .inr (hlater hk hg (fun _ => hle i f.key rfl) (by simp))
      | some b =>
        obtain ⟨j, key⟩ := b
        dsimp only at hstep
        by_cases hkey : key ≤ f.key
        · rw [if_pos hkey] at hstep
          have hbest (b y : Nat) (hby : some (j, key) = some (b, y)) : y ≤ f.key := by cases hby; exact hkey
          rcases hstep with ⟨key', hk, hlt⟩ | ⟨n, g, hk, hg, hle⟩
          · exact .inr (hhead hk hlt hbest)
          · exact .inr (hlater hk hg (fun _ => hle i f.key rfl) fun b y hby => le_trans (hbest b y hby) (hle i f.key rfl))
        · rw [if_neg hkey] at hstep
          have hflt : f.key < key := Nat.lt_of_not_le hkey
          rcases hstep with ⟨key', hk, hlt⟩ | ⟨n, g, hk, hg, hle⟩
          · cases hk
            exact .inl ⟨key, rfl, hcons hlt fun _ => hflt⟩
          · have hgkey : key ≤ g.key := hle j key rfl
            exact .inr (hlater hk hg (fun _ => le_of_lt (lt_of_lt_of_le hflt hgkey)) hle)
    · rw [if_neg hfd] at hstep
      rcases hstep with ⟨key, hk, hlt⟩ | ⟨n, g, hk, hg, hle⟩
      · exact .inl ⟨key, hk, hcons hlt fun hf => absurd hf hfd⟩
      · exact .inr (hlater hk hg (fun hf => absurd hf hfd) hle)

theorem TxFrame.discardable_iff {f : TxFrame} : f.discardable = true ↔ 2 ≤ f.body.cls ∧ f.sending = false := by
  simp [TxFrame.discardable]

/-- With no candidate nothing is discarded. -/
theorem discardIndex_none {q : List TxFrame} (h : ∀ g ∈ q, g.discardable = false) : discardIndex q 0 none = none := by
  cases hk : discardIndex q 0 none with
  | none => rfl
  | some k =>
    rcases discardIndex_spec q 0 none hk with ⟨key, hnone, -⟩ | ⟨n, f, -, ⟨hf, hd, -⟩, -⟩
    · cases hnone
    · rw [h f (List.mem_of_getElem? hf)] at hd
      cases hd

/-- With a candidate one is discarded. -/
theorem discardIndex_of_candidate {q : List TxFrame} {g : TxFrame} (hg : g ∈ q) (hd : g.discardable = true) (i : Nat)
    (best : Option (Nat × Nat)) : (discardIndex q i best).isSome = true := by
  induction q generalizing i best with
  | nil => cases hg
  | cons f rest ih =>
    rcases List.mem_cons.mp hg with rfl | hrest
    · refine discardIndex_isSome rest (i + 1) _ ?_
      rw [if_pos hd]
      split
      · split <;> rfl
      · rfl
    · exact ih hrest _ _

theorem placeIn_full_none {f : TxFrame} {q : List TxFrame} (hq : 8 ≤ q.length)
    (h : ∀ g ∈ q ++ [f], g.body.cls < 2 ∨ g.sending = true) :
    placeIn f q = { queue := q, discarded := false, placed := false } := by
  unfold placeIn
  rw [if_neg (by simp [txPlaces]; omega), discardIndex_none fun g hg => TxFrame.discardable_eq_false (h g hg)]

theorem placeIn_full_some {f : TxFrame} {q : List TxFrame} (hq : 8 ≤ q.length)
    (h : ∃ g ∈ q ++ [f], 2 ≤ g.body.cls ∧ g.sending = false) : ∃ i g, LastByKey (q ++ [f]) i g
      ∧ placeIn f q = { queue := (q ++ [f]).eraseIdx i, discarded := true, placed := i != q.length } := by
  obtain ⟨x, hx, hcls, hsend⟩ := h
  obtain ⟨i, hi⟩ := Option.isSome_iff_exists.mp (discardIndex_of_candidate hx (TxFrame.discardable_iff.mpr ⟨hcls, hsend⟩) 0 none)
  rcases discardIndex_spec _ 0 none hi with ⟨key, hnone, -⟩ | ⟨n, g, hn, hlast, -⟩
  · cases hnone
  · rw [Nat.zero_add] at hn
    refine ⟨i, g, hn ▸ hlast, ?_⟩
    unfold placeIn
    rw [if_neg (by simp [txPlaces]; omega), hi]

/-! ## The start of a transmission -/

theorem exec_transmissionStart_free {s : State} (h : s.liu.handover = none) : exec .transmissionStart s
    = .next (if s.liu.line = .active ∧ s.transmitting = false then s.startSending.conclude else s.conclude) := by
  show Host.Outcome.next _ = _
  rw [State.finishOwn_of_none h]

theorem State.startSending_eq {s : State} {i : Nat} {f : TxFrame} (hi : nextIndex s.liu.tx 0 none = some i)
    (hf : s.liu.tx[i]? = some f) : s.startSending
      = (s.setLiu { s.liu with
          tx := s.liu.tx.set i { f with sending := true }
          lineBits := transmissionBits s.station f s.free }).setFree
          (if (knownPayload f.body).isSome then s.free else s.free + 1) := by
  unfold State.startSending
  rw [hi]
  dsimp only
  rw [hf]

theorem State.startSending_empty {s : State} (h : s.liu.tx = []) : s.startSending = s := by
  unfold State.startSending
  rw [h]
  rfl

theorem frame_setSendingBits (s : State) (q : List TxFrame) (bits : List Bool) (n : Nat) :
    UnchangedBut [.line, .transmit, .free] s ((s.setLiu { s.liu with tx := q, lineBits := bits }).setFree n) := by
  intro p hp; cases p <;> simp_all [Part.same]

/-- Settles O14: the start by `nextIndex`, the discard by `discardIndex`. -/
theorem theTransmitQueueGoesByKey : Obligations.TheTransmitQueueGoesByKey := by
  refine ⟨fun s hfree => ⟨fun hline hsilent hqueue => ?_, fun hnot => ?_⟩, fun f q => ⟨fun hroom => ?_, fun hfull hnone => ?_,
    fun hfull hsome => ?_⟩⟩
  · obtain ⟨i, f, hi, hf, hfirst⟩ := nextIndex_first hqueue
    refine ⟨s.startSending, i, f, ?_, hf, hfirst, ?_⟩
    · rw [exec_transmissionStart_free hfree, if_pos ⟨hline, hsilent⟩]
    · rw [State.startSending_eq hi hf]
      exact ⟨rfl, rfl, hline, rfl, frame_setSendingBits s _ _ _⟩
  · rw [exec_transmissionStart_free hfree]
    split
    · rename_i h
      obtain ⟨hline, hsilent⟩ := h
      rcases hnot with hne | hsend | hempty
      · exact absurd hline hne
      · rw [hsilent] at hsend
        cases hsend
      · rw [State.startSending_empty hempty]
    · rfl
  · rw [placeIn_room hroom]
    exact ⟨rfl, rfl, rfl⟩
  · rw [placeIn_full_none hfull hnone]
    exact ⟨rfl, rfl, rfl⟩
  · obtain ⟨i, g, ⟨hg, hd, hlast⟩, hplace⟩ := placeIn_full_some hfull hsome
    obtain ⟨hcls, hsend⟩ := TxFrame.discardable_iff.mp hd
    rw [hplace]
    exact ⟨i, g, hg, hcls, hsend, fun j h hj hjcls hjsend => hlast j h hj (TxFrame.discardable_iff.mpr ⟨hjcls, hjsend⟩), rfl, rfl,
      bne_iff_ne⟩

end Sys2Proof.Machine
end

