-- ==== Sys2Proof/Proofs/FrameBits.lean ====
section
/- One theorem after another: side by side, their proofs ask for more threads than the check's memory limit allows. -/
set_option Elab.async false

/-! SUPPORT and proof of O15: the bits of a transmission read back, and the check tells a wrong bit (R153, R155, R162). -/

namespace Sys2Proof.Machine

/-! ## The check (R153) -/

theorem shiftLeft_one_injective {x y : BitVec 16} (hmsb : x.msb = y.msb) (h : x <<< 1 = y <<< 1) : x = y := by
  refine BitVec.eq_of_getElem_eq fun i hi => ?_
  by_cases htop : i = 15
  · subst htop
    simpa [BitVec.msb_eq_getLsbD_last, BitVec.getLsbD_eq_getElem] using hmsb
  · have hbit := congrArg (fun v : BitVec 16 => v.getLsbD (i + 1)) h
    have hlt : i + 1 < 16 := by omega
    simpa [BitVec.getLsbD_shiftLeft, hlt, BitVec.getLsbD_eq_getElem, hi] using hbit

/-- The lowest bit of the check after a bit tells whether the generator was added. -/
theorem crcBit_lowest (x : BitVec 16) (b : Bool) : (crcBit x b).getLsbD 0 = (x.msb != b) := by
  unfold crcBit
  dsimp only
  split
  · rename_i h
    simp [h]
  · rename_i h
    simp [Bool.not_eq_true _ ▸ h]

/-- For the same bit, different checks stay different. -/
theorem crcBit_injective {x y : BitVec 16} {b : Bool} (h : crcBit x b = crcBit y b) : x = y := by
  have hadded : (x.msb != b) = (y.msb != b) := by rw [← crcBit_lowest, ← crcBit_lowest, h]
  have hmsb : x.msb = y.msb := by
    revert hadded
    cases x.msb <;> cases y.msb <;> cases b <;> decide
  unfold crcBit at h
  dsimp only at h
  rw [hmsb] at h
  split at h
  · exact shiftLeft_one_injective hmsb ((BitVec.xor_left_inj _).mp h)
  · exact shiftLeft_one_injective hmsb h

theorem crcBit_not_ne (x : BitVec 16) (b : Bool) : crcBit x b ≠ crcBit x (!b) := by
  intro h
  have hlowest := crcBit_lowest x b
  rw [h, crcBit_lowest] at hlowest
  revert hlowest
  cases x.msb <;> cases b <;> decide

theorem foldl_crcBit_injective {x y : BitVec 16} (bits : List Bool) (h : bits.foldl crcBit x = bits.foldl crcBit y) : x = y := by
  induction bits generalizing x y with
  | nil => exact h
  | cons b bits ih => exact crcBit_injective (ih h)

theorem crcBits_differs (before after : List Bool) (b : Bool) :
    crcBits (before ++ b :: after) ≠ crcBits (before ++ (!b) :: after) := by
  intro h
  simp only [crcBits, List.foldl_append, List.foldl_cons] at h
  exact crcBit_not_ne _ b (foldl_crcBit_injective after h)

/-! ## Payloads (R162) -/

theorem payloadOf_length (b : Body) (free : Nat) : (payloadOf b free).length ≤ 20 := by
  unfold payloadOf
  split
  · rename_i p hp
    unfold knownPayload at hp
    split at hp <;> simp only [Option.some.injEq, reduceCtorEq] at hp <;> subst hp <;> simp [bytes2, bytes3]
  · exact List.length_take_le _ _

theorem byteAt_cons_zero (b : Byte) (p : List Byte) : byteAt (b :: p) 0 = b.toNat := rfl

theorem wordAt_bytes2 (n : BitVec 16) : BitVec.ofNat 16 ((BitVec.ofNat 8 (n.toNat / 256)).toNat * 256 + (BitVec.ofNat 8 n.toNat).toNat) = n := by
  refine BitVec.eq_of_toNat_eq ?_
  simp only [BitVec.toNat_ofNat]
  have := n.isLt
  omega

theorem decodeNote_note (slot : Slot) {duration : Nat} (kind : DoorKind) (free : Nat) (h : duration < 256) :
    decodeNote (payloadOf (.pulseNote slot duration kind) free)
      = some { slot := BitVec.ofNat 5 slot.val, duration := duration } := by
  have hslot : slot.val % 256 = slot.val := Nat.mod_eq_of_lt (lt_trans slot.isLt (by decide))
  have hduration : duration % 256 = duration := Nat.mod_eq_of_lt h
  simp [payloadOf, knownPayload, decodeNote, byteAt, hslot, hduration]

theorem decodeOffer_offer (tk : Ticket) (slot : Slot) (size free : Nat) :
    decodeOffer (payloadOf (.placeOffer tk slot size) free) = some tk := by
  have hstation : BitVec.ofNat 6 (BitVec.ofNat 8 tk.station.toNat).toNat = tk.station := by
    refine BitVec.eq_of_toNat_eq ?_
    simp only [BitVec.toNat_ofNat]
    have := tk.station.isLt
    omega
  simp only [payloadOf, knownPayload, bytes2, decodeOffer, List.cons_append, List.nil_append, List.length_cons, List.length_nil,
    Nat.reduceAdd, Nat.le_refl, if_true, Option.some.injEq]
  have hnumber := wordAt_bytes2 tk.number
  cases tk
  exact congrArg₂ Ticket.mk hstation hnumber

/-! ## The frame of a transmission -/

/-- The frame that a transmission's bits spell. -/
def sentFrame (own : BitVec 6) (f : TxFrame) (free : Nat) : Frame :=
  let payload := payloadOf f.body free
  { cls := BitVec.ofNat 3 f.body.cls, rank := BitVec.ofNat 8 f.rank, station := own, kind := BitVec.ofNat 6 f.body.kindNumber,
    dest := f.dest, length := BitVec.ofNat 5 payload.length, payload := payload,
    check := crcBits (headerBits (BitVec.ofNat 3 f.body.cls) (BitVec.ofNat 8 f.rank) own (BitVec.ofNat 6 f.body.kindNumber) f.dest
      (BitVec.ofNat 5 payload.length) ++ bitsOfBytes payload), seen := true }

theorem transmissionBits_eq (own : BitVec 6) (f : TxFrame) (free : Nat) : transmissionBits own f free
    = false :: (frameBits (sentFrame own f free) ++ bitsOf (sentFrame own f free).check) := by
  simp only [transmissionBits, sentFrame, frameBits]

theorem sentFrame_length (own : BitVec 6) (f : TxFrame) (free : Nat) :
    (sentFrame own f free).length.toNat = (payloadOf f.body free).length := by
  have := payloadOf_length f.body free
  show (payloadOf f.body free).length % 32 = _
  omega

theorem frameGood_sentFrame (own : BitVec 6) (f : TxFrame) (free : Nat) : frameGood (sentFrame own f free) = true := by
  have hlength : (sentFrame own f free).length.toNat ≤ maxPayload := sentFrame_length own f free ▸ payloadOf_length f.body free
  have hcheck : crcBits (frameBits (sentFrame own f free)) = (sentFrame own f free).check := by
    simp only [sentFrame, frameBits]
  simp [frameGood, hlength, hcheck]

theorem Body.cls_le (b : Body) : b.cls ≤ 2 := by cases b <;> simp [Body.cls]

theorem Body.kindNumber_le (b : Body) : b.kindNumber ≤ 19 := by cases b <;> simp [Body.kindNumber]

/-- Settles O15: the sent frame is `sentFrame`, and the check of two bit lists that differ in one place differs. -/
theorem sentFramesAreGoodAndReadBack : Obligations.SentFramesAreGoodAndReadBack := by
  refine ⟨fun own f free => ?_, crcBits_differs⟩
  refine ⟨sentFrame own f free, transmissionBits_eq own f free, frameGood_sentFrame own f free, rfl, ?_, ?_, rfl, fun hrank => ?_,
    sentFrame_length own f free, fun slot duration kind hbody h => ?_, fun tk slot size hbody => ?_⟩
  · have := f.body.cls_le
    show f.body.cls % 8 = _
    omega
  · have := f.body.kindNumber_le
    show f.body.kindNumber % 64 = _
    omega
  · exact Nat.mod_eq_of_lt hrank
  · show decodeNote (payloadOf f.body free) = _
    rw [hbody]
    exact decodeNote_note slot kind free h
  · show decodeOffer (payloadOf f.body free) = _
    rw [hbody]
    exact decodeOffer_offer tk slot size free

end Sys2Proof.Machine
end

