-- ==== Sys2Proof/Proofs/LineRules.lean ====
section
/- One theorem after another: side by side, their proofs ask for more threads than the check's memory limit allows. -/
set_option Elab.async false

/-! SUPPORT and proofs of O16, O18 and O19: the end of a transmission of the column's own, and the frames of other stations (R154 to
R161). -/

namespace Sys2Proof.Machine

/-! ## Frames of the line's updates -/

theorem frame_silent (s : State) : UnchangedBut [.line] s s.silent := by
  intro p hp; cases p <;> simp_all [Part.same, State.silent]

theorem frame_mapSending (s : State) (f : TxFrame → TxFrame) : UnchangedBut [.transmit] s (s.mapSending f) := frame_setTx s _

theorem frame_dropSending (s : State) : UnchangedBut [.transmit] s s.dropSending := frame_setTx s _

theorem frame_setCheckFaults (s : State) (n : Nat) : UnchangedBut [.errors] s (s.setLiu { s.liu with checkFaults := n }) := by
  intro p hp; cases p <;> simp_all [Part.same]

theorem frame_setFailures (s : State) (n : Nat) : UnchangedBut [.errors] s (s.setLiu { s.liu with failures := n }) := by
  intro p hp; cases p <;> simp_all [Part.same]

theorem frame_setDropCount (s : State) (n : Nat) : UnchangedBut [.errors] s (s.setLiu { s.liu with dropCount := n }) := by
  intro p hp; cases p <;> simp_all [Part.same]

theorem frame_setRoleFailures (s : State) (n : Nat) : UnchangedBut [.errors] s (s.setLiu { s.liu with roleFailures := n }) := by
  intro p hp; cases p <;> simp_all [Part.same]

theorem frame_lineError (n : Nat) (s : State) : UnchangedBut [.counters] s (s.lineError n) := by
  unfold State.lineError
  split
  exacts [frame_count s _ _ _, .refl _ s]

theorem errorUp_eq (n : Nat) : errorUp n = min (n + 1) 65535 := rfl

/-- The event of an error count: given where it increases. -/
theorem LineErrorCounted.lineError (n : Nat) (s : State) : LineErrorCounted n s (s.lineError n) := by
  refine ⟨fun h => ?_, fun h => ?_⟩
  · have heq : s.lineError n = s.count .lineError none 0 := if_pos h
    rw [heq]
    exact .count s _ _ _
  · have heq : s.lineError n = s := if_neg (Nat.not_lt.mpr h)
    rw [heq]

theorem LineErrorCounted.after {n : Nat} {ps : List Part} {s t u : State} (h : UnchangedBut ps s t) (k : LineErrorCounted n t u)
    (hc : Part.config ∉ ps := by decide) (hp : Part.counters ∉ ps := by decide) : LineErrorCounted n s u := by
  obtain ⟨hcount, hstand⟩ := k
  exact ⟨fun hn => (hcount hn).after h hc hp, fun hn => (hstand hn).trans (h.counters hp)⟩

theorem LineErrorCounted.then_ {n : Nat} {ps : List Part} {s t u : State} (k : LineErrorCounted n s t) (h : UnchangedBut ps t u)
    (hp : Part.counters ∉ ps := by decide) : LineErrorCounted n s u := by
  obtain ⟨hcount, hstand⟩ := k
  exact ⟨fun hn => (hcount hn).then_ h hp, fun hn => (h.counters hp).trans (hstand hn)⟩

theorem State.lineError_liu (n : Nat) (s : State) : (s.lineError n).liu = s.liu := (frame_lineError n s).liu

/-! ## The end of the column's own transmission (R154, R156) -/

theorem State.noteCancelled_of_frame {ps : List Part} {s t : State} (h : UnchangedBut ps s t)
    (hr : Part.restart ∉ ps := by decide) (hn : Part.note ∉ ps := by decide) : t.noteCancelled = s.noteCancelled := by
  have hrestart : t.restart = s.restart := h _ hr
  unfold State.noteCancelled
  rw [hrestart, h.own hn]

theorem State.keepOrRemove_keeps {s : State} {f : TxFrame} (hw : f.withdrawn = false)
    (hn : ¬(f.isNote = true ∧ s.noteCancelled = true)) :
    s.keepOrRemove f = s.mapSending (fun x => { x with sending := false }) := by
  unfold State.keepOrRemove
  rw [if_neg (by simp [hw]), if_neg (by rwa [Bool.and_eq_true])]

theorem State.keepOrRemove_removes {s : State} {f : TxFrame}
    (h : f.withdrawn = true ∨ (f.isNote = true ∧ s.noteCancelled = true)) :
    (s.keepOrRemove f).liu = s.dropSending.liu ∧ UnchangedBut [.transmit, .note] s (s.keepOrRemove f)
      ∧ (f.withdrawn = false → (s.keepOrRemove f).bgu.own = .none) := by
  unfold State.keepOrRemove
  split
  · rename_i hw
    exact ⟨rfl, (frame_dropSending s).wide, fun hno => by rw [hw] at hno; cases hno⟩
  · rename_i hw
    have hnote := h.resolve_left hw
    rw [if_pos (by simpa using hnote)]
    exact ⟨rfl, (frame_dropSending s).seq (frame_setOwn _ _), fun _ => rfl⟩

theorem State.mapSending_liu (s : State) (f : TxFrame → TxFrame) :
    (s.mapSending f).liu = { s.liu with tx := s.liu.tx.map (fun x => if x.sending then f x else x) } := rfl

/-- The state a failed transmission counts from: the drive in the frame's slots, the retry, the silent line and the failure. -/
def State.failed (how : TxFailure) (s : State) : State :=
  (((s.setDrive (failureDrive how)).mapSending (fun x => { x with retries := x.retries + 1 })).silent).countFailure

theorem failureDrive_eq (how : TxFailure) : failureDrive how = if how = .collided then .void else .neither := by
  cases how <;> rfl

theorem State.failed_liu (how : TxFailure) (s : State) : (s.failed how).liu = { s.liu with
    tx := s.liu.tx.map (fun x => if x.sending then { x with retries := x.retries + 1 } else x)
    lineBits := [], failures := min (s.liu.failures + 1) 65535, drive := if how = .collided then .void else .neither } := by
  rw [← failureDrive_eq]
  exact State.lineError_liu _ _

theorem frame_failed_before (how : TxFailure) (s : State) : UnchangedBut [.line, .drive, .transmit, .errors] s
    ((((s.setDrive (failureDrive how)).mapSending (fun x => { x with retries := x.retries + 1 })).silent).setLiu
      { (((s.setDrive (failureDrive how)).mapSending (fun x => { x with retries := x.retries + 1 })).silent).liu with
        failures := errorUp (((s.setDrive (failureDrive how)).mapSending (fun x => { x with retries := x.retries + 1 })).silent).liu.failures }) :=
  (((frame_setDrive s _).seq (frame_mapSending _ _) (rs := [.drive, .transmit])).seq (frame_silent _)
    (rs := [.drive, .transmit, .line])).seq (frame_setFailures _ _)

theorem frame_failed (how : TxFailure) (s : State) :
    UnchangedBut [.line, .drive, .transmit, .errors, .counters] s (s.failed how) :=
  (frame_failed_before how s).seq (frame_lineError _ _)

theorem LineErrorCounted.failed (how : TxFailure) (s : State) : LineErrorCounted s.liu.failures s (s.failed how) :=
  (LineErrorCounted.lineError s.liu.failures _).after (frame_failed_before how s)

theorem State.failSending_again {s : State} {f : TxFrame} (how : TxFailure) (h : f.retries + 1 < 8) :
    (s.setDrive (failureDrive how)).failSending f = (s.failed how).keepOrRemove f :=
  if_neg (Nat.not_le.mpr h)

theorem exec_transmissionFailed {s : State} {f : TxFrame} (h : s.sending? = some f) (how : TxFailure) :
    exec (.transmissionFailed how) s = .next ((s.setDrive (failureDrive how)).failSending f).conclude := by
  show Host.Outcome.next _ = _
  rw [h]

theorem exec_arbitrationLost {s : State} {f : TxFrame} (h : s.sending? = some f) :
    exec .arbitrationLost s = .next ((s.keepOrRemove f).silent).conclude := by
  show Host.Outcome.next s.yieldLine.conclude = _
  unfold State.yieldLine
  rw [h]

/-- A failure and then the end of sending, frame by frame. -/
theorem map_failed_unsent (q : List TxFrame) :
    (q.map (fun x => if x.sending then { x with retries := x.retries + 1 } else x)).map
        (fun x => if x.sending then { x with sending := false } else x)
      = q.map (fun x => if x.sending then { x with retries := x.retries + 1, sending := false } else x) := by
  rw [List.map_map]
  refine List.map_congr_left fun x _ => ?_
  cases hx : x.sending <;> simp [hx]

theorem filter_failed (q : List TxFrame) :
    (q.map (fun x => if x.sending then { x with retries := x.retries + 1 } else x)).filter (fun x => !x.sending)
      = q.filter (fun x => !x.sending) := by
  induction q with
  | nil => rfl
  | cons x q ih => cases hx : x.sending <;> simp [hx, ih]

/-- Settles O16: the frame is kept, or leaves where it is withdrawn or a note no longer wanted. -/
theorem lossKeepsAFrameAndFailureCountsIt : Obligations.LossKeepsAFrameAndFailureCountsIt := by
  intro s f hsending
  refine ⟨fun hw hn => ⟨?_, fun hretries how => ?_⟩, fun hgone => ⟨?_, fun hretries how => ?_⟩⟩
  · refine ⟨_, exec_arbitrationLost hsending, ?_⟩
    rw [State.keepOrRemove_keeps hw hn]
    exact ⟨rfl, rfl, (frame_mapSending s _).seq (frame_silent _)⟩
  · have hcancelled := State.noteCancelled_of_frame (frame_failed how s)
    refine ⟨(s.failed how).keepOrRemove f, ?_, ?_⟩
    · rw [exec_transmissionFailed hsending, State.failSending_again how hretries]
    · rw [State.keepOrRemove_keeps hw (by rwa [hcancelled])]
      refine ⟨?_, ?_, (LineErrorCounted.failed how s).then_ (frame_mapSending _ _), (frame_failed how s).seq (frame_mapSending _ _)⟩
      · show (s.failed how).liu.tx.map _ = _
        rw [State.failed_liu]
        exact map_failed_unsent s.liu.tx
      · rw [State.mapSending_liu, State.failed_liu]
  · obtain ⟨hliu, hframe, hown⟩ := State.keepOrRemove_removes hgone
    have hsilent := frame_silent (s.keepOrRemove f)
    refine ⟨_, exec_arbitrationLost hsending, ?_, fun hw => hsilent.own.trans (hown hw), hframe.seq hsilent⟩
    rw [hsilent.tx, hliu]
    rfl
  · have hcancelled := State.noteCancelled_of_frame (frame_failed how s)
    obtain ⟨hliu, hframe, hown⟩ := State.keepOrRemove_removes (s := s.failed how) (f := f) (by rwa [hcancelled])
    refine ⟨(s.failed how).keepOrRemove f, ?_, ?_, ?_, ?_, (LineErrorCounted.failed how s).then_ hframe, hown,
      (frame_failed how s).seq hframe⟩
    · rw [exec_transmissionFailed hsending, State.failSending_again how hretries]
    · rw [hliu]
      show (s.failed how).liu.tx.filter _ = _
      rw [State.failed_liu]
      exact filter_failed s.liu.tx
    · rw [hliu]
      show (s.failed how).liu.failures = _
      rw [State.failed_liu]
    · rw [hliu]
      show (s.failed how).liu.drive = _
      rw [State.failed_liu]

/-! ## A frame of another station (R155, R158) -/

theorem State.onLine_iff {s : State} : s.onLine = true ↔ s.liu.line ≠ .off := by
  unfold State.onLine
  cases s.liu.line <;> simp

theorem State.receives_iff {s : State} {f : Frame} : s.receives f = true ↔ s.liu.line ≠ .off ∧ f.seen = true := by
  unfold State.receives
  rw [Bool.and_eq_true, State.onLine_iff]

theorem State.sending?_of_silent {s : State} (h : s.transmitting = false) : s.sending? = none := by
  unfold State.transmitting at h
  unfold State.sending?
  rw [List.any_eq_false] at h
  exact List.find?_eq_none.mpr h

/-- With no own frame under way or waiting, the column judges a frame as it stands. -/
theorem State.listening_idle {s : State} (hfree : s.liu.handover = none) (hsilent : s.transmitting = false) : s.listening = s := by
  unfold State.listening
  rw [State.finishOwn_of_none hfree]
  unfold State.yieldLine
  rw [State.sending?_of_silent hsilent]

theorem exec_brings {s : State} {c : Instr} {f : Frame} (h : Brings c f) : exec c s = .next (s.arrive f) := by
  rcases h with rfl | rfl | rfl | rfl <;> rfl

theorem State.not_receives {s : State} {f : Frame} (h : s.liu.line = .off ∨ f.seen = false) : ¬s.receives f = true := by
  intro hr
  obtain ⟨hline, hseen⟩ := State.receives_iff.mp hr
  rcases h with h | h
  · exact hline h
  · rw [h] at hseen
    cases hseen

theorem State.arrive_deaf {s : State} {f : Frame} (h : s.liu.line = .off ∨ f.seen = false) : s.arrive f = s.setDrive .neither :=
  if_neg (State.not_receives h)

/-- The end of a frame that the column receives, nothing of its own being under way. -/
structure Receives (f : Frame) (s : State) : Prop where
  line : s.liu.line ≠ .off
  seen : f.seen = true
  handover : s.liu.handover = none
  silent : s.transmitting = false

theorem Receives.listening {f : Frame} {s : State} (h : Receives f s) : s.listening = s :=
  State.listening_idle h.handover h.silent

theorem Receives.arrive_good {f : Frame} {s : State} (h : Receives f s) (hgood : frameGood f = true) :
    s.arrive f = ((s.setDrive .echo).accept f).conclude := by
  unfold State.arrive
  rw [if_pos (State.receives_iff.mpr ⟨h.line, h.seen⟩)]
  dsimp only
  rw [h.listening, if_pos hgood]

theorem Receives.arrive_bad {f : Frame} {s : State} (h : Receives f s) (hbad : frameGood f = false) :
    s.arrive f = s.void.conclude := by
  unfold State.arrive
  rw [if_pos (State.receives_iff.mpr ⟨h.line, h.seen⟩)]
  dsimp only
  rw [h.listening, if_neg (by simp [hbad])]

theorem exec_frameVoided (s : State) (f : Frame) : exec (.frameVoided f) s
    = .next (if s.receives f then (if frameGood f then s.listening.setDrive .echo else s.listening.void).conclude
        else s.setDrive .neither) := rfl

theorem Receives.voided {f : Frame} {s : State} (h : Receives f s) : exec (.frameVoided f) s
    = .next (if frameGood f then s.setDrive .echo else s.void).conclude := by
  rw [exec_frameVoided, if_pos (State.receives_iff.mpr ⟨h.line, h.seen⟩), h.listening]

theorem Hears.receives {f : Frame} {s : State} (h : Hears f s) : Receives f s := ⟨h.line, h.seen, h.handover, h.silent⟩

theorem frame_void_before (s : State) : UnchangedBut [.drive, .errors] s
    ((s.setDrive .void).setLiu { (s.setDrive .void).liu with checkFaults := errorUp (s.setDrive .void).liu.checkFaults }) :=
  (frame_setDrive s _).seq (frame_setCheckFaults _ _)

/-- A bad frame is voided and counted. -/
theorem State.void_spec (s : State) : s.void.liu = { s.liu with checkFaults := min (s.liu.checkFaults + 1) 65535, drive := .void }
    ∧ LineErrorCounted s.liu.checkFaults s s.void ∧ UnchangedBut [.drive, .errors, .counters] s s.void :=
  ⟨State.lineError_liu _ _, (LineErrorCounted.lineError s.liu.checkFaults _).after (frame_void_before s),
    (frame_void_before s).seq (frame_lineError _ _)⟩

theorem frame_setDrops (s : State) (n : Nat) : UnchangedBut [.line] s (s.setLiu { s.liu with drops := n }) := by
  intro p hp; cases p <;> simp_all [Part.same]

theorem frame_setHandover (s : State) (h : Option TxFrame) : UnchangedBut [.line] s (s.setLiu { s.liu with handover := h }) := by
  intro p hp; cases p <;> simp_all [Part.same]

theorem frame_succeed_before (s : State) : UnchangedBut [.line, .drive, .transmit] s
    ((s.dropSending.silent.setDrive .neither).setLiu { (s.dropSending.silent.setDrive .neither).liu with drops := 0 }) :=
  (((frame_dropSending s).seq (frame_silent _) (rs := [.line, .transmit])).seq (frame_setDrive _ _)
    (rs := [.line, .drive, .transmit])).seq (frame_setDrops _ _)

theorem exec_transmissionSucceeded {s : State} {f : TxFrame} (h : s.sending? = some f) :
    exec .transmissionSucceeded s = .next (s.succeed f).conclude := by
  show Host.Outcome.next s.succeedSending.conclude = _
  unfold State.succeedSending
  rw [h]

theorem Body.isAnnounce_cls {b : Body} (h : b.isAnnounce = true) : b.cls = 2 := by
  cases b with
  | announce => rfl
  | _ => cases h

/-- The line's part of a success, and what it hands over. -/
theorem State.succeed_spec (s : State) (f : TxFrame) :
    (s.succeed f).liu = { s.liu with
        tx := s.liu.tx.filter (fun x => !x.sending), drops := 0, lineBits := [], drive := .neither
        handover := if f.body.cls ≤ 1 then some f else s.liu.handover }
      ∧ (f.body.isAnnounce = true → (s.succeed f).cts.causes = Causes.none ∧ (s.succeed f).cts.causeWriting = some Causes.none)
      ∧ (f.body.isAnnounce = false → (s.succeed f).cts = s.cts) ∧ UnchangedBut [.causes, .line, .drive, .transmit] s (s.succeed f) := by
  have hbefore := frame_succeed_before s
  have hliu : ((s.dropSending.silent.setDrive .neither).setLiu { (s.dropSending.silent.setDrive .neither).liu with drops := 0 }).liu
      = { s.liu with tx := s.liu.tx.filter (fun x => !x.sending), drops := 0, lineBits := [], drive := .neither } := rfl
  have hcts : ((s.dropSending.silent.setDrive .neither).setLiu { (s.dropSending.silent.setDrive .neither).liu with drops := 0 }).cts
      = s.cts := rfl
  unfold State.succeed
  dsimp only
  revert hbefore hliu hcts
  generalize (s.dropSending.silent.setDrive .neither).setLiu { (s.dropSending.silent.setDrive .neither).liu with drops := 0 } = u
  intro hbefore hliu hcts
  split
  · rename_i ha
    have hcls : ¬f.body.cls ≤ 1 := by
      rw [Body.isAnnounce_cls ha]
      decide
    rw [if_neg hcls]
    refine ⟨hliu, fun _ => ⟨rfl, rfl⟩, fun hno => ?_, hbefore.seq (frame_writeCauses _ _)⟩
    rw [ha] at hno
    cases hno
  · rename_i ha
    split
    · refine ⟨?_, fun hno => absurd hno ha, fun _ => hcts, hbefore.seq (frame_setHandover _ _)⟩
      show { u.liu with handover := some f } = _
      rw [hliu]
    · exact ⟨hliu, fun hno => absurd hno ha, fun _ => hcts, hbefore.wide⟩

/-! ## An own frame handled by its unit (R69, R70, R159) -/

theorem frame_drive (s : State) (c : Cycle) (duration : Nat) (kind : DoorKind) :
    UnchangedBut [.locks, .doors, .note, .drivers, .counters] s (s.drive c duration kind) :=
  ((((frame_setDriver s _ _).seq (frame_enterDriving _ c) (rs := [.doors, .drivers])).seq (frame_pulseFired _ _)
    (rs := [.locks, .doors, .drivers])).seq (frame_count _ _ _ _) (rs := [.locks, .doors, .drivers, .counters])).seq (frame_setOwn _ _)

/-- What the judgment of an own note may change. -/
abbrev ownNoteParts : List Part := [.locks, .doors, .pulses, .note, .drivers, .counters]

theorem frame_judgeOwn (s : State) (slot : Slot) (duration : Nat) (kind : DoorKind) :
    UnchangedBut ownNoteParts s (s.judgeOwn slot duration kind) := by
  unfold State.judgeOwn State.ownGranted State.ownDenied
  dsimp only
  split
  · have hadd := frame_addPulse s s.station (slotField slot) duration
    split
    · split
      exacts [hadd.seq (frame_setOwn _ _), hadd.seq (frame_drive _ _ _ _)]
    · exact hadd.seq (frame_setOwn _ _)
  · exact (frame_count _ _ _ _).seq (frame_setOwn _ _)

/-- What an own offer's arrival may change. -/
abbrev awardParts : List Part := [.records, .store, .requests, .counters, .free]

theorem frame_award (s : State) (t : Ticket) (slot : Slot) : UnchangedBut awardParts s (s.award t slot) := by
  unfold State.award
  split
  · exact (frame_finishEntry s _).wide
  · split
    · exact ((frame_change_causeless s slot _ rfl).seq (frame_updEntry _ _ _) (rs := awardParts)).seq (frame_count _ _ _ _)
    · exact (frame_finishEntry s _).wide

theorem frame_ownOffer (s : State) (t : Ticket) : UnchangedBut awardParts s (s.ownOffer t) := by
  unfold State.ownOffer
  split
  · exact .refl _ s
  · split
    · exact .refl _ s
    · split
      exacts [frame_award s t _, .refl _ s]

theorem State.handleOwn_eq {s : State} {f : TxFrame} (h : s.liu.handover = some f) : s.handleOwn = match f.body with
    | .pulseNote slot duration kind => (s.setLiu { s.liu with handover := none }).judgeOwn slot duration kind
    | .placeOffer t _ _ => (s.setLiu { s.liu with handover := none }).ownOffer t
    | _ => s.setLiu { s.liu with handover := none } := by
  unfold State.handleOwn
  rw [h] <;> rfl

/-- Of the line only the waiting place is cleared when an own frame is handled. -/
theorem State.handleOwn_liu {s : State} {f : TxFrame} (h : s.liu.handover = some f) :
    s.handleOwn.liu = { s.liu with handover := none } := by
  rw [State.handleOwn_eq h]
  split
  exacts [(frame_judgeOwn _ _ _ _).liu, (frame_ownOffer _ _).liu, rfl]

/-- An own frame handed over is handled whole: nothing waits for its unit afterwards. -/
theorem State.finishOwn_done {s : State} {f : TxFrame} (h : s.liu.handover = some f) : s.finishOwn.liu.handover = none := by
  rw [State.finishOwn_of_some h, (frame_conclude _).handover, State.handleOwn_liu h]

theorem State.finishOwn_idem {s : State} {f : TxFrame} (h : s.liu.handover = some f) : s.finishOwn.finishOwn = s.finishOwn :=
  State.finishOwn_of_none (State.finishOwn_done h)

theorem State.finishOwn_onLine {s : State} {f : TxFrame} (h : s.liu.handover = some f) : s.finishOwn.liu.line = s.liu.line := by
  rw [State.finishOwn_of_some h, (frame_conclude _).lineState, State.handleOwn_liu h]

theorem State.arriveOwn_handed {s : State} {f : TxFrame} (h : s.liu.handover = some f) : s.arriveOwn.conclude = s.finishOwn := by
  rw [State.finishOwn_of_some h]
  unfold State.arriveOwn
  rw [h]
  rfl

/-- The own frame that waits is the one that arrives. -/
theorem exec_ownArrives {s : State} {f : TxFrame} (h : s.liu.handover = some f) :
    (f.isNote = true → exec (.pulseNote .own) s = .next s.finishOwn)
      ∧ (f.body.cls = 1 → exec (.placeOffer .own) s = .next s.finishOwn) := by
  rw [← State.arriveOwn_handed h]
  refine ⟨fun hnote => congrArg Host.Outcome.next (if_pos ?_), fun hoffer => congrArg Host.Outcome.next (if_pos ?_)⟩
  · unfold State.noteArriving State.noteBusy
    rw [h]
    simp [hnote]
  · unfold State.offerArriving
    rw [h]
    simp [hoffer]

/-- The start of a transmission comes after an own frame's handling either way. -/
theorem exec_transmissionStart_finished {s : State} {f : TxFrame} (h : s.liu.handover = some f) :
    exec .transmissionStart s = exec .transmissionStart s.finishOwn := by
  have hexec (u : State) : exec .transmissionStart u = .next (if u.finishOwn.liu.line = .active ∧ u.finishOwn.transmitting = false
      then u.finishOwn.startSending.conclude else u.finishOwn.conclude) := rfl
  rw [hexec, hexec, State.finishOwn_idem h]

/-- So does the judgment of a frame that the column receives. -/
theorem exec_heard_finished {s : State} {f : TxFrame} (h : s.liu.handover = some f) {g : Frame} {c : Instr}
    (hc : c = .frameVoided g ∨ Brings c g) (hline : s.liu.line ≠ .off) (hseen : g.seen = true) : exec c s = exec c s.finishOwn := by
  have hreceives : s.receives g = true := State.receives_iff.mpr ⟨hline, hseen⟩
  have hreceives' : s.finishOwn.receives g = true := State.receives_iff.mpr ⟨by rwa [State.finishOwn_onLine h], hseen⟩
  have hlistening : s.finishOwn.listening = s.listening := by
    unfold State.listening
    rw [State.finishOwn_idem h]
  rcases hc with rfl | hc
  · rw [exec_frameVoided, exec_frameVoided, if_pos hreceives, if_pos hreceives', hlistening]
  · rw [exec_brings hc, exec_brings hc]
    unfold State.arrive
    rw [if_pos hreceives, if_pos hreceives', hlistening]

/-- Settles O18: a success, a frame of another station that is not taken, and an own frame handled first. -/
theorem framesAreTakenOrVoided : Obligations.FramesAreTakenOrVoided := by
  refine ⟨fun s f hsending => ?_, fun s f c hc => ⟨fun hdeaf => ?_, fun hline hseen hfree hsilent => ?_⟩, fun s t f hwaits hexec => ?_⟩
  · obtain ⟨hliu, hannounce, hkept, hframe⟩ := State.succeed_spec s f
    refine ⟨s.succeed f, exec_transmissionSucceeded hsending, ?_, ?_, ?_, ?_, ?_, hannounce, hkept, fun hcls => ?_, fun hcls => ?_, hframe⟩
    all_goals rw [hliu]
    · exact if_pos hcls
    · exact if_neg (by omega)
  · refine ⟨s.setDrive .neither, ?_, rfl, frame_setDrive s _⟩
    rcases hc with rfl | hc
    · rw [exec_frameVoided, if_neg (State.not_receives hdeaf)]
    · rw [exec_brings hc, State.arrive_deaf hdeaf]
  · have hreceives : Receives f s := ⟨hline, hseen, hfree, hsilent⟩
    refine ⟨?_, fun hbad => ⟨s.void, ?_, State.void_spec s⟩⟩
    · rintro rfl hgood
      exact ⟨s.setDrive .echo, by rw [hreceives.voided, if_pos hgood], rfl, frame_setDrive s _⟩
    · rcases hc with rfl | hc
      · rw [hreceives.voided, if_neg (by simp [hbad])]
      · rw [exec_brings hc, hreceives.arrive_bad hbad]
  · obtain ⟨hnote, hoffer⟩ := exec_ownArrives hwaits
    have ht : t = s.finishOwn := by
      rcases hexec with ⟨hkind, h⟩ | ⟨hkind, h⟩
      · exact Host.Outcome.next.inj (h.symm.trans (hnote hkind))
      · exact Host.Outcome.next.inj (h.symm.trans (hoffer hkind))
    subst ht
    exact ⟨State.finishOwn_done hwaits, exec_transmissionStart_finished hwaits, fun g c hc hline hseen => exec_heard_finished hwaits hc hline hseen⟩

end Sys2Proof.Machine
end

