-- ==== Sys2Proof/Proofs/Filter.lean ====
section
/- One theorem after another: side by side, their proofs ask for more threads than the check's memory limit allows. -/
set_option Elab.async false

/-! SUPPORT and proof of O19: the tests of R158 on a good frame of another station (Tables 11-4 and 11-5). -/

namespace Sys2Proof.Machine

/-! ## Table 11-5 -/

theorem isRole_iff {field st : BitVec 6} : isRole field st = true ↔ st ≠ 0 ∧ st = field := by
  unfold isRole
  simp

theorem isTerminal_iff {m : ConfigFields} {st : BitVec 6} :
    isTerminal m st = true ↔ st ≠ 0 ∧ m.tlo.toNat ≤ st.toNat ∧ st.toNat ≤ m.thi.toNat := by
  unfold isTerminal
  simp [and_assoc]

theorem isService_iff {m : ConfigFields} {st : BitVec 6} :
    isService m st = true ↔ st ≠ 0 ∧ (st = m.service1 ∨ st = m.service2) := by
  unfold isService
  rw [Bool.or_eq_true, isRole_iff, isRole_iff]
  tauto

/-- Notes and offers come from the columns of the bank. -/
theorem fromAColumn_iff {s : State} {f : Frame} : f.station ≠ 0 ∧ FromAColumn f s
    ↔ (f.station != 0 && !isTerminal s.conf f.station && !isRole s.conf.supply f.station && !isService s.conf f.station) = true := by
  unfold FromAColumn
  rw [Bool.and_eq_true, Bool.and_eq_true, Bool.and_eq_true, Bool.not_eq_true', Bool.not_eq_true', Bool.not_eq_true',
    ← Bool.not_eq_true, ← Bool.not_eq_true, ← Bool.not_eq_true, isTerminal_iff, isRole_iff, isService_iff, bne_iff_ne]
  tauto

theorem RequestKind.cls_cases (k : RequestKind) : k.cls = 3 ∨ k.cls = 4 ∨ k.cls = 5 := by cases k <;> decide

/-- Requests of class 3 come from a terminal, of class 4 from the time station, of class 5 from a service station. -/
theorem admitted_request {m : ConfigFields} {st : BitVec 6} {k : RequestKind} : admitted m st (.request k) = true
    ↔ st ≠ 0 ∧ (k.cls = 3 → m.tlo.toNat ≤ st.toNat ∧ st.toNat ≤ m.thi.toNat) ∧ (k.cls = 4 → st = m.time)
      ∧ (k.cls = 5 → st = m.service1 ∨ st = m.service2) := by
  show (match k.cls with | 3 => isTerminal m st | 4 => isRole m.time st | _ => isService m st) = true ↔ _
  rcases k.cls_cases with h | h | h
  · rw [h]
    simp [isTerminal_iff]
  · rw [h]
    simp [isRole_iff]
  · rw [h]
    simp [isService_iff]

/-! ## The filter (R158) -/

/-- A frame of a kind and class that agree, sent to this column or to all, is judged by its sender's role. -/
theorem filterFrame_role {m : ConfigFields} {own : BitVec 6} {f : Frame} {k : LineKind} (hst : f.station ≠ own)
    (hk : lineKind f.kind = some k) (hcls : f.cls.toNat = k.cls) (hdest : f.dest = 0 ∨ (2 ≤ k.cls ∧ f.dest = own)) (hans : k.cls ≠ 2) :
    filterFrame m own f = if admitted m f.station k then .passed k else .roleFailure := by
  unfold filterFrame
  rw [if_neg hst, hk]
  dsimp only
  rw [if_neg (not_not.mpr hcls), if_neg (by tauto), if_neg hans]

/-- A sender without the role fails it, the column's own number among them. -/
theorem filterFrame_unadmitted {m : ConfigFields} {own : BitVec 6} {f : Frame} {k : LineKind}
    (hk : lineKind f.kind = some k) (hcls : f.cls.toNat = k.cls) (hdest : f.dest = 0 ∨ (2 ≤ k.cls ∧ f.dest = own)) (hans : k.cls ≠ 2)
    (hrole : ¬admitted m f.station k = true) : filterFrame m own f = .roleFailure := by
  by_cases hst : f.station = own
  · exact if_pos hst
  · rw [filterFrame_role hst hk hcls hdest hans, if_neg hrole]

theorem filterFrame_ignored {m : ConfigFields} {own : BitVec 6} {f : Frame} (hst : f.station ≠ own)
    (h : ∀ k, lineKind f.kind = some k → f.cls.toNat ≠ k.cls ∨ (f.dest ≠ 0 ∧ (k.cls < 2 ∨ f.dest ≠ own)) ∨ k.cls = 2) :
    filterFrame m own f = .ignored := by
  unfold filterFrame
  rw [if_neg hst]
  cases hk : lineKind f.kind with
  | none => rfl
  | some k =>
    dsimp only
    by_cases hcls : f.cls.toNat = k.cls
    · rw [if_neg (not_not.mpr hcls)]
      rcases h k hk with hno | ⟨hdest, hto⟩ | hans
      · exact absurd hcls hno
      · refine if_pos ⟨hdest, fun hboth => ?_⟩
        obtain ⟨htwo, hown⟩ := hboth
        rcases hto with hless | hother
        · omega
        · exact hother hown
      · rw [if_pos hans, ite_self]
    · exact if_pos hcls

/-! ## A good frame that the column receives -/

theorem Receives.heard {f : Frame} {s : State} (h : Receives f s) (hgood : frameGood f = true) {c : Instr} (hc : Brings c f) :
    exec c s = .next ((s.setDrive .echo).accept f).conclude := by
  rw [exec_brings hc, h.arrive_good hgood]

theorem State.accept_ignored {s : State} {f : Frame} (h : filterFrame s.conf s.station f = .ignored) : s.accept f = s := by
  unfold State.accept
  rw [h]

theorem State.accept_roleFailure {s : State} {f : Frame} (h : filterFrame s.conf s.station f = .roleFailure) :
    s.accept f = s.countRoleFailure := by
  unfold State.accept
  rw [h]

theorem State.accept_passed {s : State} {f : Frame} {k : LineKind} (h : filterFrame s.conf s.station f = .passed k) :
    s.accept f = s.deliver k f := by
  unfold State.accept
  rw [h]

/-- The column echoes the frame and counts a role failure. -/
theorem State.roleFailure_spec (s : State) : (s.setDrive .echo).countRoleFailure.liu
      = { s.liu with roleFailures := min (s.liu.roleFailures + 1) 65535, drive := .echo }
    ∧ LineErrorCounted s.liu.roleFailures s (s.setDrive .echo).countRoleFailure
    ∧ UnchangedBut [.drive, .errors, .counters] s (s.setDrive .echo).countRoleFailure := by
  have hbefore : UnchangedBut [.drive, .errors] s ((s.setDrive .echo).setLiu
      { (s.setDrive .echo).liu with roleFailures := errorUp (s.setDrive .echo).liu.roleFailures }) :=
    (frame_setDrive s _).seq (frame_setRoleFailures _ _)
  exact ⟨State.lineError_liu _ _, (LineErrorCounted.lineError s.liu.roleFailures _).after hbefore, hbefore.seq (frame_lineError _ _)⟩

theorem frame_setRx (s : State) (q : List RxFrame) : UnchangedBut [.receive] s (s.setLiu { s.liu with rx := q }) := by
  intro p hp; cases p <;> simp_all [Part.same]

theorem State.enqueue_room {s : State} (k : RequestKind) (f : Frame) (h : s.liu.rx.length < 6) : s.enqueue k f
    = s.setLiu { s.liu with rx := s.liu.rx ++ [{ kind := k, station := f.station, payload := f.payload, spoken := false }] } :=
  if_pos h

theorem State.enqueue_full {s : State} (k : RequestKind) (f : Frame) (h : 6 ≤ s.liu.rx.length) :
    s.enqueue k f = s.raise .overrun none := if_neg (Nat.not_lt.mpr h)

/-- The frames that fail the role check (Table 11-5). -/
theorem filterFrame_roleFailure {s : State} {f : Frame} (h : f.station = s.station
    ∨ (f.kind = 2 ∧ f.cls = 0 ∧ f.dest = 0 ∧ f.station ≠ s.conf.supply)
    ∨ (f.kind = 1 ∧ f.cls = 0 ∧ f.dest = 0 ∧ ¬FromAColumn f s)
    ∨ (f.kind = 4 ∧ f.cls = 1 ∧ f.dest = 0 ∧ ¬FromAColumn f s)
    ∨ (∃ k, lineKind f.kind = some (.request k) ∧ f.cls.toNat = k.cls ∧ (f.dest = 0 ∨ f.dest = s.station)
        ∧ (k.cls = 3 → ¬(s.conf.tlo.toNat ≤ f.station.toNat ∧ f.station.toNat ≤ s.conf.thi.toNat))
        ∧ (k.cls = 4 → f.station ≠ s.conf.time)
        ∧ (k.cls = 5 → f.station ≠ s.conf.service1 ∧ f.station ≠ s.conf.service2))) :
    filterFrame s.conf s.station f = .roleFailure := by
  rcases h with hown | ⟨hkind, hcls, hdest, hrole⟩ | ⟨hkind, hcls, hdest, hrole⟩ | ⟨hkind, hcls, hdest, hrole⟩
    | ⟨k, hkind, hcls, hdest, hterminal, htime, hservice⟩
  · exact if_pos hown
  · refine filterFrame_unadmitted (k := .powerState) (by rw [hkind]; rfl) (by rw [hcls]; rfl) (.inl hdest) (by decide) fun hadmitted => ?_
    exact hrole (isRole_iff.mp hadmitted).2
  · refine filterFrame_unadmitted (k := .pulseNote) (by rw [hkind]; rfl) (by rw [hcls]; rfl) (.inl hdest) (by decide) fun hadmitted => ?_
    exact hrole (fromAColumn_iff.mpr hadmitted).2
  · refine filterFrame_unadmitted (k := .placeOffer) (by rw [hkind]; rfl) (by rw [hcls]; rfl) (.inl hdest) (by decide) fun hadmitted => ?_
    exact hrole (fromAColumn_iff.mpr hadmitted).2
  · have hcases := k.cls_cases
    have hclass : LineKind.cls (.request k) = k.cls := rfl
    refine filterFrame_unadmitted hkind hcls (hdest.imp_right fun hto => ⟨by omega, hto⟩) (by omega) fun hadmitted => ?_
    obtain ⟨-, hthree, hfour, hfive⟩ := admitted_request.mp hadmitted
    rcases hcases with hk | hk | hk
    · exact hterminal hk (hthree hk)
    · exact htime hk (hfour hk)
    · obtain ⟨hfirst, hsecond⟩ := hservice hk
      rcases hfive hk with hsender | hsender
      exacts [hfirst hsender, hsecond hsender]

/-- Settles O19: each verdict of the filter, and what the column then does. -/
theorem takenRequestsJoinTheReceiveQueue : Obligations.TakenRequestsJoinTheReceiveQueue := by
  intro s f c hc hline hseen hfree hsilent hgood
  have hheard := Receives.heard ⟨hline, hseen, hfree, hsilent⟩ hgood hc
  have hdrive := frame_setDrive s .echo
  have hconf : (s.setDrive .echo).conf = s.conf := hdrive.conf
  have hstation : (s.setDrive .echo).station = s.station := hdrive.station
  refine ⟨fun hrole => ?_, fun hother hno => ?_, fun k hother hkind hcls hdest hsender hthree hfour hfive => ?_⟩
  · refine ⟨(s.setDrive .echo).countRoleFailure, ?_, State.roleFailure_spec s⟩
    rw [hheard, State.accept_roleFailure (by rw [hconf, hstation]; exact filterFrame_roleFailure hrole)]
  · refine ⟨s.setDrive .echo, ?_, rfl, hdrive⟩
    rw [hheard, State.accept_ignored (by rw [hconf, hstation]; exact filterFrame_ignored hother hno)]
  · have hcases := k.cls_cases
    have hclass : LineKind.cls (.request k) = k.cls := rfl
    have hpassed : filterFrame (s.setDrive .echo).conf (s.setDrive .echo).station f = .passed (.request k) := by
      rw [hconf, hstation, filterFrame_role hother hkind hcls (hdest.imp_right fun hto => ⟨by omega, hto⟩) (by omega),
        if_pos (admitted_request.mpr ⟨hsender, hthree, hfour, hfive⟩)]
    have hexec : exec c s = .next ((s.setDrive .echo).enqueue k f).conclude := by
      rw [hheard, State.accept_passed hpassed]
      rfl
    refine ⟨fun hroom => ⟨_, hexec, ?_⟩, fun hfull => ⟨_, hexec, ?_⟩⟩
    · rw [State.enqueue_room (s := s.setDrive .echo) k f hroom]
      exact ⟨rfl, rfl, hdrive.seq (frame_setRx _ _)⟩
    · rw [State.enqueue_full (s := s.setDrive .echo) k f hfull]
      have hraise := frame_raise (s.setDrive .echo) .overrun none
      refine ⟨hraise.rx, hraise.part .drive, (Raised.raise _ .overrun none).after (.of_frame hdrive), hdrive.seq hraise⟩

end Sys2Proof.Machine
end

