-- ==== Sys2Proof/Proofs/Dropped.lean ====
section
/- One theorem after another: side by side, their proofs ask for more threads than the check's memory limit allows. -/
set_option Elab.async false

/-! SUPPORT and proof of O17: the offers whose promises end together, and the drop of a frame (R74, R101, R156, R157). -/

namespace Sys2Proof.Machine

/-! ## One promise while others end -/

/-- What a promise is read from stands: its slot's record and store and its entry; no condition is cleared. -/
structure PromiseStands (tk : Ticket) (slot : Slot) (s t : State) : Prop where
  record : t.rec? slot = s.rec? slot
  store : t.store slot = s.store slot
  entry : t.entry? (placeJob tk) = s.entry? (placeJob tk)
  conds : CondsKept s t

theorem PromiseStands.of_frame {tk : Ticket} {slot : Slot} {ps : List Part} {s t : State} (h : UnchangedBut ps s t)
    (hr : Part.records ∉ ps := by decide) (hs : Part.store ∉ ps := by decide) (ho : Part.requests ∉ ps := by decide)
    (hc : Part.conditions ∉ ps := by decide) : PromiseStands tk slot s t :=
  ⟨h.rec? slot hr, h.storeOf slot hs, h.entry? _ ho, .of_frame h hc⟩

theorem PromiseStands.trans {tk : Ticket} {slot : Slot} {s t u : State} (h : PromiseStands tk slot s t)
    (k : PromiseStands tk slot t u) : PromiseStands tk slot s u :=
  ⟨k.record.trans h.record, k.store.trans h.store, k.entry.trans h.entry, h.conds.trans k.conds⟩

theorem PromiseStands.raise (tk : Ticket) (slot : Slot) (s : State) (c : Condition) (x : Option Slot) :
    PromiseStands tk slot s (s.raise c x) where
  record := (frame_raise s c x).rec? slot
  store := (frame_raise s c x).storeOf slot
  entry := (frame_raise s c x).entry? _
  conds := (Raised.raise s c x).kept

theorem PromiseStands.promised {tk : Ticket} {slot : Slot} {s t : State} (h : PromiseStands tk slot s t)
    (hp : Promised tk slot s) : Promised tk slot t := by
  obtain ⟨e, he, hrest⟩ := hp
  exact ⟨e, h.entry.trans he, hrest⟩

/-- An ended promise stays so while its slot, its entry and the conditions stand. -/
theorem PromiseEnded.then_ {tk : Ticket} {slot : Slot} {s t u : State} (h : PromiseEnded tk slot s t)
    (k : PromiseStands tk slot t u) : PromiseEnded tk slot s u where
  record := k.record.trans h.record
  written := by
    rw [k.store]
    exact h.written
  entry e he := k.entry.trans (h.entry e he)
  foreign hon := k.conds _ (h.foreign hon)

theorem PromiseEnded.after {tk : Ticket} {slot : Slot} {s t u : State} (k : PromiseStands tk slot s t)
    (hsense : t.sense slot = s.sense slot) (h : PromiseEnded tk slot t u) : PromiseEnded tk slot s u := by
  obtain ⟨hrecord, hwritten, hentry, hforeign⟩ := h
  rw [hsense] at hrecord hwritten hforeign
  rw [k.store] at hwritten
  exact ⟨hrecord, hwritten, fun e he => hentry e (k.entry.trans he), hforeign⟩

theorem CondsKept.endPromise (s : State) (t : Ticket) (slot : Slot) : CondsKept s (s.endPromise t slot) := by
  unfold State.endPromise
  split
  · split
    · have hchange : UnchangedBut [.records, .store, .counters, .free] s (s.change slot (CompRec.emptied (s.sense slot).presenceIsOn) 0) :=
        frame_change_causeless s slot 0 rfl
      exact ((CondsKept.of_frame hchange).trans (.raiseIf _ _ _ _)).trans (.of_frame (frame_closePlace _ _ _))
    · exact .of_frame (frame_finishEntry s _)
  · exact .of_frame (frame_finishEntry s _)

theorem PromiseStands.finishEntry {tk : Ticket} {slot : Slot} {s : State} {j : Job} {r : CompRec} (hj : placeJob tk ≠ j)
    (hr : s.rec? slot = some r) (hocc : ∀ p, r.state ≠ .occupied p) : PromiseStands tk slot s (s.finishEntry j) := by
  obtain ⟨hrecord, hstore⟩ := (RecordsExpire.finishEntry s j).stands hr hocc
  exact ⟨hrecord.trans hr.symm, hstore, State.entry?_finishEntry_ne s hj, .of_frame (frame_finishEntry s j)⟩

theorem placeJob_inj {t u : Ticket} (h : placeJob t = placeJob u) : t = u := congrArg Job.ticket h

/-- The end of another ticket's offer leaves a promise alone whose slot carries no promise of that ticket and no parcel. -/
theorem PromiseStands.endOffer {tk t : Ticket} {slot : Slot} {s : State} {r : CompRec} (ht : t ≠ tk) (hr : s.rec? slot = some r)
    (hocc : ∀ p, r.state ≠ .occupied p) (hp : r.promised t = false) : PromiseStands tk slot s (s.endOffer t) := by
  have hj : placeJob tk ≠ placeJob t := fun h => ht (placeJob_inj h).symm
  have hrefl : PromiseStands tk slot s s := .of_frame (.refl [] s)
  have hpromise (x : Slot) : PromiseStands tk slot s (s.endPromise t x) := by
    cases hx : s.rec? x with
    | none =>
      rw [State.endPromise_none hx]
      exact .finishEntry hj hr hocc
    | some c =>
      cases hc : c.promised t with
      | false =>
        rw [State.endPromise_unpromised hx hc]
        exact .finishEntry hj hr hocc
      | true =>
        have hne : slot ≠ x := by
          rintro rfl
          rw [hr] at hx
          cases hx
          rw [hc] at hp
          cases hp
        have hreleased := State.endPromise_released hx hc
        exact ⟨hreleased.changed.records slot hne, hreleased.changed.stores slot hne, hreleased.others _ hj, .endPromise s t x⟩
  unfold State.endOffer
  split
  · exact hrefl
  · split
    · split
      exacts [hpromise _, hrefl]
    · exact hrefl

theorem CompRec.promised_offered {r : CompRec} {tk t : Ticket} (h : r.state = .offered tk) (ht : t ≠ tk) : r.promised t = false := by
  unfold CompRec.promised
  rw [h]
  simpa using Ne.symm ht

/-- The end of its own offer ends an outstanding promise. -/
theorem PromiseEnded.endOffer {tk : Ticket} {slot : Slot} {s : State} {r : CompRec} (hp : Promised tk slot s)
    (hr : s.rec? slot = some r) (hoffered : r.state = .offered tk) : PromiseEnded tk slot s (s.endOffer tk) := by
  rw [State.endOffer_promised hp]
  refine (State.endPromise_released hr (CompRec.promised_iff.mpr (.inl hoffered))).ended fun c hc => ?_
  rw [hr] at hc
  cases hc
  rw [hoffered]
  intro h
  cases h

/-- Once ended, no further offer's end reaches the promise. -/
theorem PromiseEnded.endOffer_again {tk : Ticket} {slot : Slot} {s u : State} (hp : Promised tk slot s)
    (h : PromiseEnded tk slot s u) (t : Ticket) : PromiseEnded tk slot s (u.endOffer t) := by
  by_cases ht : t = tk
  · obtain ⟨e, he, -⟩ := hp
    subst ht
    rwa [State.endOffer_over (h.entry e he) rfl]
  · exact h.then_ (.endOffer ht h.record (by intro p hp; cases hp) rfl)

/-! ## Several offers that end -/

/-- A step of a fold that ends the offer of a ticket, or none: what it changes besides stands outside records, entries and
conditions. -/
def EndsOffer (ps : List Part) (t : Option Ticket) (s u : State) : Prop :=
  ∃ m, UnchangedBut ps s m ∧ u = (match t with | some x => m.endOffer x | none => m)

section Fold

variable {α : Type} {f : State → α → State} {ticket : α → Option Ticket} {ps : List Part} {tk : Ticket} {slot : Slot}

theorem PromiseEnded.step {t : Option Ticket} {s u v : State} (hr : Part.records ∉ ps) (hs : Part.store ∉ ps)
    (ho : Part.requests ∉ ps) (hc : Part.conditions ∉ ps) (hp : Promised tk slot s) (h : PromiseEnded tk slot s u)
    (hstep : EndsOffer ps t u v) : PromiseEnded tk slot s v := by
  obtain ⟨m, hm, rfl⟩ := hstep
  have hmid := h.then_ (.of_frame hm hr hs ho hc)
  cases t with
  | none => exact hmid
  | some x => exact hmid.endOffer_again hp x

theorem PromiseEnded.foldl (hr : Part.records ∉ ps) (hs : Part.store ∉ ps) (ho : Part.requests ∉ ps) (hc : Part.conditions ∉ ps)
    (hf : ∀ s x, EndsOffer ps (ticket x) s (f s x)) {s : State} (hp : Promised tk slot s) (xs : List α) {u : State}
    (h : PromiseEnded tk slot s u) : PromiseEnded tk slot s (xs.foldl f u) := by
  induction xs generalizing u with
  | nil => exact h
  | cons x xs ih => exact ih (h.step hr hs ho hc hp (hf u x))

/-- Among the offers that end, the promise's own one ends it. -/
theorem PromiseEnded.of_mem_foldl (hr : Part.records ∉ ps) (hs : Part.store ∉ ps) (ho : Part.requests ∉ ps)
    (hc : Part.conditions ∉ ps) (hn : Part.sensing ∉ ps) (hf : ∀ s x, EndsOffer ps (ticket x) s (f s x)) (xs : List α)
    (hx : ∃ x ∈ xs, ticket x = some tk) {s : State} {r : CompRec} (hp : Promised tk slot s) (hrec : s.rec? slot = some r)
    (hoffered : r.state = .offered tk) : PromiseEnded tk slot s (xs.foldl f s) := by
  induction xs generalizing s with
  | nil =>
    obtain ⟨x, hmem, -⟩ := hx
    cases hmem
  | cons x xs ih =>
    obtain ⟨m, hm, hstep⟩ := hf s x
    have hmid : PromiseStands tk slot s m := .of_frame hm hr hs ho hc
    have hsense : m.sense slot = s.sense slot := hm.sense slot hn
    have hrecm : m.rec? slot = some r := hmid.record.trans hrec
    by_cases htk : ticket x = some tk
    · rw [htk] at hstep
      have hended : PromiseEnded tk slot s (f s x) := by
        rw [hstep]
        exact .after hmid hsense (.endOffer (hmid.promised hp) hrecm hoffered)
      exact hended.foldl hr hs ho hc hf hp xs
    · have hlater : ∃ y ∈ xs, ticket y = some tk := by
        obtain ⟨y, hmem, hy⟩ := hx
        rcases List.mem_cons.mp hmem with rfl | hmem
        exacts [absurd hy htk, ⟨y, hmem, hy⟩]
      have hstands : PromiseStands tk slot s (f s x) ∧ (f s x).sense slot = s.sense slot := by
        rw [hstep]
        split
        · rename_i t ht
          have hne : t ≠ tk := fun h => htk (h ▸ ht)
          exact ⟨hmid.trans (.endOffer hne hrecm (by simp [hoffered]) (CompRec.promised_offered hoffered hne)),
            ((frame_endOffer m t).sense slot).trans hsense⟩
        · exact ⟨hmid, hsense⟩
      obtain ⟨hstand, hsensing⟩ := hstands
      exact .after hstand hsensing (ih hlater (hstand.promised hp) (hstand.record.trans hrec))

end Fold

/-! ## The owner of a lost frame (R74, R101) -/

/-- The ticket of an offer. -/
def TxFrame.offered? (f : TxFrame) : Option Ticket :=
  match f.body with
  | .placeOffer t _ _ => some t
  | _ => none

theorem frame_noteLost (s : State) : UnchangedBut [.note] s s.noteLost := by
  unfold State.noteLost
  split
  exacts [frame_setOwn s _, .refl _ s, .refl _ s]

theorem EndsOffer.tellOwner (s : State) (f : TxFrame) : EndsOffer [.note] f.offered? s (s.tellOwner f) := by
  unfold State.tellOwner TxFrame.offered?
  cases f.body with
  | pulseNote => exact ⟨_, frame_noteLost s, rfl⟩
  | _ => exact ⟨s, .refl _ s, rfl⟩

/-- What an owner may do when its frame is lost. -/
abbrev ownerParts : List Part := [.records, .store, .note, .requests, .conditions, .counters, .transmit, .free]

theorem frame_tellOwner (s : State) (f : TxFrame) : UnchangedBut ownerParts s (s.tellOwner f) := by
  unfold State.tellOwner
  split
  exacts [(frame_noteLost s).wide, (frame_endOffer s _).wide, .refl _ s]

theorem AlertsJoin.tellOwner (s : State) (f : TxFrame) : AlertsJoin s (s.tellOwner f) := by
  unfold State.tellOwner
  split
  exacts [.of_frame (frame_noteLost s), .endOffer s _, .refl s]

theorem CondsKept.endOffer (s : State) (t : Ticket) : CondsKept s (s.endOffer t) := by
  unfold State.endOffer
  split
  · exact fun _ h => h
  · split
    · split
      exacts [.endPromise s t _, fun _ h => h]
    · exact fun _ h => h

theorem CondsKept.tellOwner (s : State) (f : TxFrame) : CondsKept s (s.tellOwner f) := by
  unfold State.tellOwner
  split
  exacts [.of_frame (frame_noteLost s), .endOffer s _, fun _ h => h]

/-- Where no offer is lost only the note's state may change. -/
theorem frame_tellOwner_offerless (s : State) {f : TxFrame} (h : f.body.cls ≠ 1) : UnchangedBut [.note] s (s.tellOwner f) := by
  unfold State.tellOwner
  split
  · exact frame_noteLost s
  · rename_i hbody
    rw [hbody] at h
    exact absurd rfl h
  · exact .refl _ s

/-- A lost frame that is no note leaves the own note as it is. -/
theorem State.tellOwner_own (s : State) {f : TxFrame} (h : f.isNote = false) : (s.tellOwner f).bgu.own = s.bgu.own := by
  unfold State.tellOwner
  split
  · rename_i hbody
    unfold TxFrame.isNote at h
    rw [hbody] at h
    cases h
  · exact (frame_endOffer s _).own
  · rfl

theorem State.noteLost_own {s : State} {slot : Slot} {ended : Bool} (h : s.bgu.own = .queued slot ended) :
    s.noteLost.bgu.own = .none := by
  unfold State.noteLost
  rw [h]
  rfl

theorem State.tellOwner_note {s : State} {f : TxFrame} (hf : f.isNote = true) {slot : Slot} {ended : Bool}
    (h : s.bgu.own = .queued slot ended) : (s.tellOwner f).bgu.own = .none := by
  unfold TxFrame.isNote at hf
  unfold State.tellOwner
  split at hf
  · rename_i hbody
    rw [hbody]
    exact State.noteLost_own h
  · cases hf

/-! ## QUIET (R157) -/

/-- The state in which the owners of the frames lost at the entry into QUIET are told. -/
def State.quieted (s : State) : State := s.setLiu { s.liu with line := .quiet, timer := 0, tx := [], drops := 0 }

theorem State.enterQuiet_eq (s : State) :
    s.enterQuiet = (s.liu.tx.foldl (fun s f => s.tellOwner f) s.quieted).setOwn .none := rfl

theorem frame_quieted (s : State) : UnchangedBut [.line, .transmit] s s.quieted := by
  intro p hp; cases p <;> simp_all [Part.same, State.quieted]

theorem frame_owners_told (s : State) :
    UnchangedBut ownerParts s.quieted (s.liu.tx.foldl (fun s f => s.tellOwner f) s.quieted) := .foldl frame_tellOwner _ _

theorem frame_enterQuiet_told (s : State) : UnchangedBut ownerParts s.quieted s.enterQuiet :=
  (frame_owners_told s).seq (frame_setOwn _ _)

theorem frame_enterQuiet (s : State) : UnchangedBut (.line :: ownerParts) s s.enterQuiet :=
  (frame_quieted s).seq (frame_enterQuiet_told s)

theorem State.enterQuiet_line (s : State) : s.enterQuiet.liu.line = .quiet ∧ s.enterQuiet.liu.timer = 0 ∧ s.enterQuiet.liu.drops = 0 := by
  obtain ⟨hline, htimer, hdrops, -⟩ : Part.line.same s.quieted s.enterQuiet := (frame_enterQuiet_told s).part .line
  exact ⟨hline, htimer, hdrops⟩

theorem State.enterQuiet_tx (s : State) : ∀ g ∈ s.enterQuiet.liu.tx, g.sending = false ∧ ∃ conds slot, g.body = .alert conds slot := by
  intro g hg
  have hjoin : AlertsJoin s.quieted (s.liu.tx.foldl (fun s f => s.tellOwner f) s.quieted) := .foldl AlertsJoin.tellOwner _ _
  rcases hjoin g hg with hold | hnew
  · cases hold
  · exact hnew

theorem CondsKept.foldl {α : Type} {f : State → α → State} (h : ∀ s x, CondsKept s (f s x)) (xs : List α) (s : State) :
    CondsKept s (xs.foldl f s) := by
  induction xs generalizing s with
  | nil => exact fun _ h => h
  | cons x xs ih => exact (h s x).trans (ih _)

theorem CondsKept.enterQuiet (s : State) : CondsKept s s.enterQuiet :=
  ((CondsKept.of_frame (frame_quieted s)).trans (.foldl CondsKept.tellOwner _ _)).trans (.of_frame (frame_setOwn _ _))

theorem UnchangedBut.foldl_mem {α : Type} {ps : List Part} {f : State → α → State} (xs : List α)
    (h : ∀ s, ∀ x ∈ xs, UnchangedBut ps s (f s x)) (s : State) : UnchangedBut ps s (xs.foldl f s) := by
  induction xs generalizing s with
  | nil => exact .refl ps s
  | cons x xs ih => exact (h s x List.mem_cons_self).trans (ih (fun s y hy => h s y (List.mem_cons_of_mem _ hy)) _)

theorem frame_enterQuiet_offerless {s : State} (h : ∀ g ∈ s.liu.tx, g.body.cls ≠ 1) :
    UnchangedBut [.line, .note, .transmit] s s.enterQuiet :=
  ((frame_quieted s).seq (UnchangedBut.foldl_mem (ps := [.note]) _ (fun u g hg => frame_tellOwner_offerless u (h g hg)) _)
    (rs := [.line, .note, .transmit])).seq (frame_setOwn _ _)

/-- The offers still in the queue are lost with it. -/
theorem State.enterQuiet_ends {s : State} {g : TxFrame} {tk : Ticket} {x : Slot} {y : Nat} {slot : Slot} {r : CompRec}
    (hg : g ∈ s.liu.tx) (hbody : g.body = .placeOffer tk x y) (hp : Promised tk slot s) (hr : s.rec? slot = some r)
    (hoffered : r.state = .offered tk) : PromiseEnded tk slot s s.enterQuiet := by
  have hquiet : PromiseStands tk slot s s.quieted := .of_frame (frame_quieted s)
  have hticket : g.offered? = some tk := by
    unfold TxFrame.offered?
    rw [hbody]
  have hended : PromiseEnded tk slot s.quieted (s.liu.tx.foldl (fun s f => s.tellOwner f) s.quieted) :=
    .of_mem_foldl (by decide) (by decide) (by decide) (by decide) (by decide) EndsOffer.tellOwner _ ⟨g, hg, hticket⟩
      (hquiet.promised hp) (hquiet.record.trans hr) hoffered
  exact (hended.then_ (.of_frame (frame_setOwn _ _))).after hquiet ((frame_quieted s).sense slot)

theorem PromiseEnded.enterQuiet {s u : State} {tk : Ticket} {slot : Slot} (hp : Promised tk slot s) (h : PromiseEnded tk slot s u) :
    PromiseEnded tk slot s u.enterQuiet := by
  have hquiet : PromiseEnded tk slot s u.quieted := h.then_ (.of_frame (frame_quieted u))
  have htold : PromiseEnded tk slot s (u.liu.tx.foldl (fun s f => s.tellOwner f) u.quieted) :=
    hquiet.foldl (by decide) (by decide) (by decide) (by decide) EndsOffer.tellOwner hp _
  exact htold.then_ (.of_frame (frame_setOwn _ _))

/-! ## The drop of a frame (R156) -/

/-- The state in which the dropped frame's owner is told: the frame out of the queue, LINE_DROP raised, the drop counted. -/
def State.unqueued (s : State) : State := (s.dropSending.raise .lineDrop none).countDrop

/-- The state after its owner is told and the drop is added to those in a row. -/
def State.dropped (f : TxFrame) (s : State) : State :=
  (s.unqueued.tellOwner f).setLiu { (s.unqueued.tellOwner f).liu with drops := (s.unqueued.tellOwner f).liu.drops + 1 }

theorem frame_countDrop (s : State) : UnchangedBut [.errors, .counters] s s.countDrop :=
  (frame_setDropCount s _).seq (frame_lineError _ _)

theorem frame_unqueued (s : State) : UnchangedBut [.conditions, .errors, .counters, .transmit] s s.unqueued :=
  ((frame_dropSending s).seq (frame_raise _ _ _) (rs := [.conditions, .transmit])).seq (frame_countDrop _)

theorem frame_dropped (s : State) (f : TxFrame) : UnchangedBut (.line :: .errors :: ownerParts) s (s.dropped f) :=
  ((frame_unqueued s).seq (frame_tellOwner _ f) (rs := .line :: .errors :: ownerParts)).seq (frame_setDrops _ _)

theorem frame_dropped_after (s : State) (f : TxFrame) : UnchangedBut (.line :: ownerParts) s.unqueued (s.dropped f) :=
  (frame_tellOwner _ f).seq (frame_setDrops _ _)

theorem State.dropFrame_eq (s : State) (f : TxFrame) :
    s.dropFrame f = if 3 ≤ (s.dropped f).liu.drops then (s.dropped f).enterQuiet else s.dropped f := rfl

theorem State.dropped_drops (s : State) (f : TxFrame) : (s.dropped f).liu.drops = s.liu.drops + 1 := by
  have h : UnchangedBut (.errors :: ownerParts) s (s.unqueued.tellOwner f) := (frame_unqueued s).seq (frame_tellOwner _ f)
  obtain ⟨-, -, hdrops, -⟩ : Part.line.same s (s.unqueued.tellOwner f) := h.part .line
  exact congrArg (· + 1) hdrops

theorem State.unqueued_errors (s : State) : s.unqueued.liu.failures = s.liu.failures
    ∧ s.unqueued.liu.dropCount = min (s.liu.dropCount + 1) 65535 := by
  have hbefore : UnchangedBut [.conditions, .transmit] s (s.dropSending.raise .lineDrop none) :=
    (frame_dropSending s).seq (frame_raise _ _ _)
  obtain ⟨-, hfailures, hdrops, -⟩ : Part.errors.same s (s.dropSending.raise .lineDrop none) := hbefore.part .errors
  unfold State.unqueued State.countDrop
  rw [State.lineError_liu]
  exact ⟨hfailures, congrArg errorUp hdrops⟩

theorem State.dropped_errors (s : State) (f : TxFrame) : (s.dropped f).liu.failures = s.liu.failures
    ∧ (s.dropped f).liu.dropCount = min (s.liu.dropCount + 1) 65535 := by
  obtain ⟨-, hfailures, hdrops, -⟩ : Part.errors.same s.unqueued (s.dropped f) := (frame_dropped_after s f).part .errors
  obtain ⟨hfail, hdrop⟩ := State.unqueued_errors s
  exact ⟨hfailures.trans hfail, hdrops.trans hdrop⟩

theorem LineErrorCounted.unqueued (s : State) : LineErrorCounted s.liu.dropCount s s.unqueued := by
  have hbefore : UnchangedBut [.conditions, .errors, .transmit] s ((s.dropSending.raise .lineDrop none).setLiu
      { (s.dropSending.raise .lineDrop none).liu with dropCount := errorUp (s.dropSending.raise .lineDrop none).liu.dropCount }) :=
    ((frame_dropSending s).seq (frame_raise _ _ _) (rs := [.conditions, .transmit])).seq (frame_setDropCount _ _)
  have hraise : UnchangedBut [.conditions, .transmit] s (s.dropSending.raise .lineDrop none) :=
    (frame_dropSending s).seq (frame_raise _ _ _)
  obtain ⟨-, -, hdrops, -⟩ : Part.errors.same s (s.dropSending.raise .lineDrop none) := hraise.part .errors
  rw [← hdrops]
  exact (LineErrorCounted.lineError _ _).after hbefore

theorem State.unqueued_lineDrop (s : State) : s.unqueued.rpt.isSet .lineDrop = true := by
  have hraised := Raised.raise s.dropSending .lineDrop none
  exact ((frame_countDrop _).isSet _).trans hraised.isSet

theorem AlertsJoin.unqueued (s : State) : AlertsJoin s.dropSending s.unqueued :=
  (AlertsJoin.raise _ _ _).trans (.of_frame (frame_countDrop _))

theorem AlertsJoin.dropped (s : State) (f : TxFrame) : AlertsJoin s.dropSending (s.dropped f) :=
  ((AlertsJoin.unqueued s).trans (.tellOwner _ f)).trans (.of_frame (frame_setDrops _ _))

/-- Nothing of the queue is being transmitted after a drop. -/
theorem State.dropped_unsent (s : State) (f : TxFrame) : ∀ g ∈ (s.dropped f).liu.tx, g.sending = false := by
  intro g hg
  rcases AlertsJoin.dropped s f g hg with hold | ⟨hnew, -⟩
  · simpa using (List.mem_filter.mp hold).2
  · exact hnew

theorem PromiseStands.unqueued (tk : Ticket) (slot : Slot) (s : State) : PromiseStands tk slot s s.unqueued :=
  ((PromiseStands.of_frame (frame_dropSending s)).trans (.raise tk slot _ _ _)).trans (.of_frame (frame_countDrop _))

/-! ## Notes and offers stay queued while others are lost -/

/-- No note, no offer and no frame being transmitted has left the transmit queue. -/
def UrgentKept (s t : State) : Prop := ∀ g ∈ s.liu.tx, g.discardable = false → g ∈ t.liu.tx

theorem UrgentKept.of_frame {ps : List Part} {s t : State} (h : UnchangedBut ps s t) (hp : Part.transmit ∉ ps := by decide) :
    UrgentKept s t := fun _ hg _ => by rwa [h.tx hp]

theorem UrgentKept.trans {s t u : State} (h : UrgentKept s t) (k : UrgentKept t u) : UrgentKept s u :=
  fun g hg hkeep => k g (h g hg hkeep) hkeep

theorem UrgentKept.raise (s : State) (c : Condition) (slot : Option Slot) : UrgentKept s (s.raise c slot) :=
  fun _ hg hkeep => State.mem_raise c slot hg hkeep

theorem UrgentKept.emptyChecked (s : State) (slot : Slot) : UrgentKept s (s.emptyChecked slot) := by
  have hchange : UnchangedBut [.records, .store, .counters, .free] s (s.change slot (CompRec.emptied (s.sense slot).presenceIsOn) 0) :=
    frame_change_causeless s slot 0 rfl
  rw [State.emptyChecked_eq]
  split
  exacts [(UrgentKept.of_frame hchange).trans (.raise _ _ _), .of_frame hchange]

theorem UrgentKept.endOffer (s : State) (t : Ticket) : UrgentKept s (s.endOffer t) := by
  have hpromise (slot : Slot) : UrgentKept s (s.endPromise t slot) := by
    unfold State.endPromise
    split
    · split
      · exact (UrgentKept.emptyChecked s slot).trans (.of_frame (frame_closePlace _ _ _))
      · exact .of_frame (frame_finishEntry s _)
    · exact .of_frame (frame_finishEntry s _)
  unfold State.endOffer
  split
  · exact fun _ hg _ => hg
  · split
    · split
      exacts [hpromise _, fun _ hg _ => hg]
    · exact fun _ hg _ => hg

theorem UrgentKept.tellOwner (s : State) (f : TxFrame) : UrgentKept s (s.tellOwner f) := by
  unfold State.tellOwner
  split
  exacts [.of_frame (frame_noteLost s), .endOffer s _, fun _ hg _ => hg]

theorem UrgentKept.dropped (s : State) (f : TxFrame) : UrgentKept s.dropSending (s.dropped f) :=
  (((UrgentKept.raise s.dropSending .lineDrop none).trans (.of_frame (frame_countDrop _))).trans (.tellOwner _ f)).trans
    (.of_frame (frame_setDrops _ _))

/-! ## The eighth failure -/

theorem exec_eighthFailure {s : State} {f : TxFrame} (h : s.sending? = some f) (hretries : 8 ≤ f.retries + 1) (how : TxFailure) :
    exec (.transmissionFailed how) s = .next ((s.failed how).dropFrame f).conclude := by
  rw [exec_transmissionFailed h]
  exact congrArg (fun t => Host.Outcome.next (State.conclude t)) (if_pos hretries)

/-- The queue after a failure has the frames that are not being transmitted as they were. -/
theorem State.mem_failed {s : State} {g : TxFrame} (how : TxFailure) (hg : g ∈ s.liu.tx) (hunsent : g.sending = false) :
    g ∈ (s.failed how).dropSending.liu.tx := by
  show g ∈ (s.failed how).liu.tx.filter _
  rw [State.failed_liu, filter_failed]
  exact List.mem_filter.mpr ⟨hg, by simp [hunsent]⟩

/-- What a drop, and the entry into QUIET after it, may change. -/
abbrev dropParts : List Part :=
  [.records, .store, .note, .requests, .conditions, .counters, .line, .drive, .errors, .transmit, .free]

theorem frame_failed_dropped (s : State) (f : TxFrame) (how : TxFailure) :
    UnchangedBut dropParts s ((s.failed how).dropped f) := (frame_failed how s).seq (frame_dropped _ f)

/-- The counts of a failure and a drop, with their events: no offer's promise ends. -/
theorem State.dropped_counters (s : State) {f : TxFrame} (hf : f.body.cls ≠ 1) (how : TxFailure) (i : Fin 4) :
    ((s.failed how).dropped f).rpt.counters[i] = s.rpt.counters[i]
      + (if counts s.conf.counters[i] .lineError none 0 = true
         then (if s.liu.failures < 65535 then 1 else 0) + (if s.liu.dropCount < 65535 then 1 else 0) else 0) := by
  have hafter : UnchangedBut [.line, .note] (s.failed how).unqueued ((s.failed how).dropped f) :=
    (frame_tellOwner_offerless _ hf).seq (frame_setDrops _ _)
  obtain ⟨hfail, hfailmax⟩ := LineErrorCounted.failed how s
  obtain ⟨hdrop, hdropmax⟩ := LineErrorCounted.unqueued (s.failed how)
  have hconf : (s.failed how).conf = s.conf := (frame_failed how s).conf
  have hcount : (s.failed how).liu.dropCount = s.liu.dropCount := by rw [State.failed_liu]
  rw [hcount] at hdrop hdropmax
  have hfirst : (s.failed how).rpt.counters[i] = s.rpt.counters[i]
      + (if counts s.conf.counters[i] .lineError none 0 = true then (if s.liu.failures < 65535 then 1 else 0) else 0) := by
    by_cases h : s.liu.failures < 65535
    · rw [hfail h i, if_pos h]
      split <;> simp
    · rw [hfailmax (by omega), if_neg h]
      simp
  have hsecond : (s.failed how).unqueued.rpt.counters[i] = (s.failed how).rpt.counters[i]
      + (if counts s.conf.counters[i] .lineError none 0 = true then (if s.liu.dropCount < 65535 then 1 else 0) else 0) := by
    by_cases h : s.liu.dropCount < 65535
    · rw [hdrop h i, if_pos h, hconf]
      split <;> simp
    · rw [hdropmax (by omega), if_neg h]
      simp
  rw [hafter.counters, hsecond, hfirst, BitVec.add_assoc]
  split <;> simp

/-- The promise of the dropped offer, or of one lost with it, ends. -/
theorem State.dropped_ends {s : State} {f g : TxFrame} {tk : Ticket} {x : Slot} {y : Nat} {slot : Slot} {r : CompRec}
    (hbody : g.body = .placeOffer tk x y) (hp : Promised tk slot s) (hr : s.rec? slot = some r) (hoffered : r.state = .offered tk) :
    (g = f → PromiseEnded tk slot s (s.dropped f))
      ∧ (g ∈ s.dropSending.liu.tx → PromiseEnded tk slot s (s.dropped f).enterQuiet) := by
  have hstands := PromiseStands.unqueued tk slot s
  have hsense : s.unqueued.sense slot = s.sense slot := (frame_unqueued s).sense slot
  have hend : PromiseEnded tk slot s.unqueued (s.unqueued.endOffer tk) :=
    .endOffer (hstands.promised hp) (hstands.record.trans hr) hoffered
  have hown (h : f.offered? = some tk) : PromiseEnded tk slot s (s.dropped f) := by
    obtain ⟨m, hm, htold⟩ := EndsOffer.tellOwner s.unqueued f
    rw [h] at htold
    have hmid : PromiseStands tk slot s.unqueued m := .of_frame hm
    have hended : PromiseEnded tk slot m (m.endOffer tk) :=
      .endOffer (hmid.promised (hstands.promised hp)) ((hmid.trans (.of_frame (.refl [] m))).record.trans (hstands.record.trans hr)) hoffered
    have htell : PromiseEnded tk slot s (s.unqueued.tellOwner f) := by
      rw [htold]
      exact (hended.after hmid (hm.sense slot)).after hstands hsense
    exact htell.then_ (.of_frame (frame_setDrops _ _))
  have hticket : g.offered? = some tk := by
    unfold TxFrame.offered?
    rw [hbody]
  refine ⟨fun h => hown (h ▸ hticket), fun hg => ?_⟩
  by_cases hf : f.offered? = some tk
  · exact (hown hf).enterQuiet hp
  · have hcls : g.discardable = false := by
      unfold TxFrame.discardable
      rw [hbody]
      rfl
    have hstep : PromiseStands tk slot s (s.dropped f) ∧ (s.dropped f).sense slot = s.sense slot := by
      obtain ⟨m, hm, htold⟩ := EndsOffer.tellOwner s.unqueued f
      have hmid : PromiseStands tk slot s m := hstands.trans (.of_frame hm)
      refine ⟨PromiseStands.trans ?_ (.of_frame (frame_setDrops _ _)), (frame_dropped s f).sense slot⟩
      rw [htold]
      split
      · rename_i t ht
        have hne : t ≠ tk := fun h => hf (h ▸ ht)
        exact hmid.trans (.endOffer hne (hmid.record.trans hr) (by simp [hoffered]) (CompRec.promised_offered hoffered hne))
      · exact hmid
    obtain ⟨hstand, hsensing⟩ := hstep
    exact (State.enterQuiet_ends (UrgentKept.dropped s f g hg hcls) hbody (hstand.promised hp) (hstand.record.trans hr)
      hoffered).after hstand hsensing

/-- The line's state stands over a drop. -/
theorem State.dropped_line (s : State) (f : TxFrame) (how : TxFailure) : ((s.failed how).dropped f).liu.line = s.liu.line := by
  have htold : UnchangedBut (.errors :: ownerParts) (s.failed how) ((s.failed how).unqueued.tellOwner f) :=
    (frame_unqueued _).seq (frame_tellOwner _ f)
  have hline : ((s.failed how).dropped f).liu.line = ((s.failed how).unqueued.tellOwner f).liu.line := rfl
  rw [hline, htold.lineState, State.failed_liu]

/-- What a drop leaves whether or not the column goes to QUIET: `t` is the state after the drop, with QUIET or without it. -/
structure DroppedWith (f : TxFrame) (how : TxFailure) (s t : State) : Prop where
  raised : t.rpt.isSet .lineDrop = true
  failures : t.liu.failures = min (s.liu.failures + 1) 65535
  dropCount : t.liu.dropCount = min (s.liu.dropCount + 1) 65535
  unsent : ∀ g ∈ t.liu.tx, g.sending = false
  note : f.isNote = true → ∀ slot ended, s.bgu.own = .queued slot ended → t.bgu.own = .none
  drive : t.liu.drive = (if how = .collided then .void else .neither)
  counters : (∀ g ∈ s.liu.tx, g.body.cls ≠ 1) → ∀ i : Fin 4, t.rpt.counters[i] = s.rpt.counters[i]
    + (if counts s.conf.counters[i] .lineError none 0 = true
       then (if s.liu.failures < 65535 then 1 else 0) + (if s.liu.dropCount < 65535 then 1 else 0) else 0)
  frame : UnchangedBut dropParts s t

theorem DroppedWith.dropped {s : State} {f : TxFrame} (hf : f ∈ s.liu.tx) (how : TxFailure) :
    DroppedWith f how s ((s.failed how).dropped f) := by
  obtain ⟨hfailures, hdrops⟩ := State.dropped_errors (s.failed how) f
  have hafter := frame_dropped_after (s.failed how) f
  have hkept : CondsKept (s.failed how).unqueued ((s.failed how).dropped f) :=
    (CondsKept.tellOwner _ f).trans (.of_frame (frame_setDrops _ _))
  have hdrive : ((s.failed how).dropped f).liu.drive = (s.failed how).liu.drive := (frame_dropped _ f).part .drive
  rw [State.failed_liu] at hfailures hdrops hdrive
  refine ⟨hkept _ (State.unqueued_lineDrop _), hfailures, hdrops, State.dropped_unsent _ f, fun hnote slot ended hown => ?_, hdrive,
    fun hoffers i => State.dropped_counters s (hoffers f hf) how i, frame_failed_dropped s f how⟩
  have hbefore : UnchangedBut (.errors :: .line :: .drive :: ownerParts.erase .note) s (s.failed how).unqueued :=
    (frame_failed how s).seq (frame_unqueued _)
  exact (frame_setDrops _ _).own.trans (State.tellOwner_note hnote (hbefore.own.trans hown))

theorem DroppedWith.quiet {s : State} {f : TxFrame} (hf : f ∈ s.liu.tx) (how : TxFailure) :
    DroppedWith f how s ((s.failed how).dropped f).enterQuiet := by
  obtain ⟨hraised, hfailures, hdrops, -, -, hdrive, hcounters, hframe⟩ := DroppedWith.dropped hf how
  have hquiet := frame_enterQuiet ((s.failed how).dropped f)
  obtain ⟨-, hfail, hdrop, -⟩ : Part.errors.same ((s.failed how).dropped f) _ := hquiet.part .errors
  refine ⟨CondsKept.enterQuiet _ _ hraised, hfail.trans hfailures, hdrop.trans hdrops,
    fun g hg => (State.enterQuiet_tx _ g hg).1, fun _ _ _ _ => rfl, (hquiet.part .drive : _).trans hdrive, fun hoffers i => ?_,
    hframe.seq hquiet⟩
  have hnone : ∀ g ∈ ((s.failed how).dropped f).liu.tx, g.body.cls ≠ 1 := by
    intro g hg
    rcases AlertsJoin.dropped _ f g hg with hold | ⟨-, conds, slot, hbody⟩
    · have hmem : g ∈ (s.failed how).liu.tx.filter (fun x => !x.sending) := hold
      rw [State.failed_liu, filter_failed] at hmem
      exact hoffers g (List.mem_of_mem_filter hmem)
    · rw [hbody]
      simp [Body.cls]
  rw [(frame_enterQuiet_offerless hnone).counters]
  exact hcounters hoffers i

/-- Settles O17: the drop, and QUIET at the third in a row. -/
theorem eighthFailureDropsTheFrame : Obligations.EighthFailureDropsTheFrame := by
  intro s f how hsending hretries
  have hf : f ∈ s.liu.tx := List.mem_of_find?_eq_some hsending
  have hdrops : ((s.failed how).dropped f).liu.drops = s.liu.drops + 1 := by rw [State.dropped_drops, State.failed_liu]
  have hexec := exec_eighthFailure hsending hretries how
  rw [State.dropFrame_eq, hdrops] at hexec
  by_cases hquiet : 3 ≤ s.liu.drops + 1
  · rw [if_pos hquiet] at hexec
    obtain ⟨hraised, hfailures, hcount, hunsent, hnote, hdrive, hcounters, hframe⟩ := DroppedWith.quiet hf how
    obtain ⟨hline, htimer, hzero⟩ := State.enterQuiet_line ((s.failed how).dropped f)
    refine ⟨_, hexec, hraised, hfailures, hcount, hunsent, fun h => ?_, fun _ => ⟨hline, htimer, hzero, fun g hg => ?_⟩, hnote,
      fun _ => rfl, fun h => ?_, hdrive, fun g tk x y slot r hg hlost hbody hp hr hoffered => ?_, hcounters, hframe⟩
    · omega
    · exact (State.enterQuiet_tx _ g hg).2
    · omega
    · have hstands : PromiseStands tk slot s (s.failed how) := .of_frame (frame_failed how s)
      have hsense : (s.failed how).sense slot = s.sense slot := (frame_failed how s).sense slot
      obtain ⟨hown, hother⟩ := State.dropped_ends (f := f) hbody (hstands.promised hp) (hstands.record.trans hr) hoffered
      rcases hlost with rfl | ⟨hunsent', -⟩
      · exact ((hown rfl).enterQuiet (hstands.promised hp)).after hstands hsense
      · exact (hother (State.mem_failed how hg hunsent')).after hstands hsense
  · rw [if_neg hquiet] at hexec
    obtain ⟨hraised, hfailures, hcount, hunsent, hnote, hdrive, hcounters, hframe⟩ := DroppedWith.dropped hf how
    refine ⟨_, hexec, hraised, hfailures, hcount, hunsent, fun _ => ⟨?_, hdrops⟩, fun h => absurd h hquiet, hnote,
      fun h => absurd h hquiet, fun _ hno => ?_, hdrive, fun g tk x y slot r hg hlost hbody hp hr hoffered => ?_, hcounters, hframe⟩
    · exact State.dropped_line s f how
    · have hbefore : UnchangedBut (.errors :: .line :: .drive :: ownerParts.erase .note) s (s.failed how).unqueued :=
        (frame_failed how s).seq (frame_unqueued _)
      exact ((frame_setDrops _ _).own.trans (State.tellOwner_own _ hno)).trans hbefore.own
    · have hstands : PromiseStands tk slot s (s.failed how) := .of_frame (frame_failed how s)
      have hsense : (s.failed how).sense slot = s.sense slot := (frame_failed how s).sense slot
      obtain ⟨hown, -⟩ := State.dropped_ends (f := f) hbody (hstands.promised hp) (hstands.record.trans hr) hoffered
      rcases hlost with rfl | ⟨-, h⟩
      · exact (hown rfl).after hstands hsense
      · exact absurd h hquiet

end Sys2Proof.Machine
end

