-- ==== Sys2Proof/Proofs/Levels.lean ====
section
/- One theorem after another: side by side, their proofs ask for more threads than the check's memory limit allows. -/
set_option Elab.async false

/-! SUPPORT and proofs of O20 to O23: the bank level, its budget and its fallback, and the notes of other stations (R58 to R68, R73). -/

namespace Sys2Proof.Machine

/-! ## What a good frame of another station brings -/

/-- A frame sent to all stations by a sender whose role allows it goes to its unit. -/
theorem Hears.delivered {f : Frame} {s : State} (h : Hears f s) {c : Instr} (hc : Brings c f) {k : LineKind}
    (hk : lineKind f.kind = some k) (hcls : f.cls.toNat = k.cls) (hdest : f.dest = 0) (hans : k.cls ≠ 2)
    (hrole : admitted s.conf f.station k = true) : exec c s = .next ((s.setDrive .echo).deliver k f).conclude := by
  obtain ⟨hother, -⟩ := h.sender
  have hdrive := frame_setDrive s .echo
  have hpassed : filterFrame (s.setDrive .echo).conf (s.setDrive .echo).station f = .passed k := by
    rw [hdrive.conf, hdrive.station, filterFrame_role hother hk hcls (.inl hdest) hans, if_pos hrole]
  rw [h.receives.heard h.good hc, State.accept_passed hpassed]

theorem State.noteBusy_silent {s : State} (hfree : s.liu.handover = none) (hsilent : s.transmitting = false) : s.noteBusy = false := by
  unfold State.transmitting at hsilent
  unfold State.noteBusy
  rw [hfree, Bool.or_false, List.any_eq_false]
  rw [List.any_eq_false] at hsilent
  intro f hf
  have := hsilent f hf
  simp_all

/-! ## A queued note and the budget (R73) -/

theorem State.withdrawIfFull_full {s : State} {slot : Slot} {ended : Bool} (h : s.bgu.own = .queued slot ended)
    (hfull : s.budget ≤ s.bgu.pulses.length) (hbusy : s.noteBusy = false) :
    s.withdrawIfFull = s.removeNote.setOwn (.deferred slot) := by
  unfold State.withdrawIfFull
  rw [h]
  exact if_pos ⟨hfull, hbusy⟩

theorem State.withdrawIfFull_room {s : State} (h : s.bgu.pulses.length < s.budget ∨ ∀ slot ended, s.bgu.own ≠ .queued slot ended) :
    s.withdrawIfFull = s := by
  unfold State.withdrawIfFull
  split
  · rename_i slot ended hown
    refine if_neg fun ⟨hfull, _⟩ => ?_
    rcases h with hroom | hno
    · omega
    · exact hno _ _ hown
  · rfl
  · rfl

/-! ## Queued offers withdrawn (R64) -/

/-- What stands in the queue after an offer is withdrawn stood there, and is no unsent offer for the ticket. -/
theorem State.mem_withdrawOffer {s : State} {t : Ticket} {g : TxFrame} (hg : g ∈ (s.withdrawOffer t).liu.tx) :
    ∃ h ∈ s.liu.tx, g.body = h.body ∧ g.sending = h.sending ∧ (h.isOfferFor t = true → h.sending = true) := by
  obtain ⟨h, hmem, rfl⟩ := List.mem_map.mp hg
  obtain ⟨hmem, hkeep⟩ := List.mem_filter.mp hmem
  refine ⟨h, hmem, ?_, ?_, fun hoffer => by simpa [hoffer] using hkeep⟩
  · split <;> rfl
  · split <;> rfl

/-- Offers still in the queue are unsent and among those to be withdrawn. -/
def OffersAmong (ts : List Ticket) (s : State) : Prop :=
  ∀ g ∈ s.liu.tx, g.body.cls = 1 → g.sending = false ∧ ∃ t ∈ ts, g.isOfferFor t = true

theorem OffersAmong.withdrawOffer {t : Ticket} {ts : List Ticket} {s : State} (h : OffersAmong (t :: ts) s) :
    OffersAmong ts ((s.withdrawOffer t).endOffer t) := by
  intro g hg hcls
  rcases AlertsJoin.endOffer _ t g hg with hold | ⟨-, conds, slot, hbody⟩
  · obtain ⟨x, hx, hbody, hsending, hkeep⟩ := State.mem_withdrawOffer hold
    obtain ⟨hunsent, u, hu, hoffer⟩ := h x hx (hbody ▸ hcls)
    refine ⟨hsending.trans hunsent, u, ?_, ?_⟩
    · rcases List.mem_cons.mp hu with rfl | hu
      · rw [hkeep hoffer] at hunsent
        cases hunsent
      · exact hu
    · unfold TxFrame.isOfferFor at hoffer ⊢
      rwa [hbody]
  · rw [hbody] at hcls
    cases hcls

theorem OffersAmong.foldl {s : State} (ts : List Ticket) (h : OffersAmong ts s) :
    OffersAmong [] (ts.foldl (fun s t => (s.withdrawOffer t).endOffer t) s) := by
  induction ts generalizing s with
  | nil => exact h
  | cons t ts ih => exact ih h.withdrawOffer

/-- The tickets of the unsent offers in the queue. -/
theorem State.mem_queuedOffers {s : State} {g : TxFrame} {t : Ticket} {x : Slot} {y : Nat} (hg : g ∈ s.liu.tx)
    (hbody : g.body = .placeOffer t x y) (hunsent : g.sending = false) : t ∈ s.queuedOffers := by
  refine List.mem_filterMap.mpr ⟨g, hg, ?_⟩
  rw [hbody]
  exact if_neg (by simp [hunsent])

theorem Body.offer_of_cls {b : Body} (h : b.cls = 1) : ∃ t x y, b = .placeOffer t x y := by
  cases b with
  | placeOffer t x y => exact ⟨t, x, y, rfl⟩
  | _ => cases h

/-- With nothing being transmitted every offer leaves the queue. -/
theorem State.withdrawOffers_none {s : State} (hsilent : s.transmitting = false) : ∀ g ∈ s.withdrawOffers.liu.tx, g.body.cls ≠ 1 := by
  have hunsent : ∀ g ∈ s.liu.tx, g.sending = false := by
    unfold State.transmitting at hsilent
    rw [List.any_eq_false] at hsilent
    intro g hg
    simpa using hsilent g hg
  have hamong : OffersAmong s.queuedOffers s := by
    intro g hg hcls
    obtain ⟨t, x, y, hbody⟩ := Body.offer_of_cls hcls
    refine ⟨hunsent g hg, t, State.mem_queuedOffers hg hbody (hunsent g hg), ?_⟩
    unfold TxFrame.isOfferFor
    rw [hbody]
    exact BEq.rfl
  intro g hg hcls
  obtain ⟨-, t, ht, -⟩ := hamong.foldl _ g hg hcls
  cases ht

/-- Only ALERTs and frames that stood there before stand in the queue after a withdrawal of the offers. -/
theorem State.withdrawOffers_noteless {s : State} (h : ∀ g ∈ s.liu.tx, g.isNote = false) :
    ∀ g ∈ s.withdrawOffers.liu.tx, g.isNote = false := by
  have hfold (ts : List Ticket) (u : State) (hu : ∀ g ∈ u.liu.tx, g.isNote = false) :
      ∀ g ∈ (ts.foldl (fun s t => (s.withdrawOffer t).endOffer t) u).liu.tx, g.isNote = false := by
    induction ts generalizing u with
    | nil => exact hu
    | cons t ts ih =>
      refine ih _ fun g hg => ?_
      rcases AlertsJoin.endOffer _ t g hg with hold | ⟨-, conds, slot, hbody⟩
      · obtain ⟨x, hx, hbody, -⟩ := State.mem_withdrawOffer hold
        have hnote := hu x hx
        unfold TxFrame.isNote at hnote ⊢
        rwa [hbody]
      · unfold TxFrame.isNote
        rw [hbody]
  exact hfold _ s h

theorem State.withdrawOffers_ends {s : State} {g : TxFrame} {tk : Ticket} {x : Slot} {y : Nat} {slot : Slot} {r : CompRec}
    (hg : g ∈ s.liu.tx) (hunsent : g.sending = false) (hbody : g.body = .placeOffer tk x y) (hp : Promised tk slot s)
    (hr : s.rec? slot = some r) (hoffered : r.state = .offered tk) : PromiseEnded tk slot s s.withdrawOffers :=
  .of_mem_foldl (ps := [.transmit]) (ticket := some) (by decide) (by decide) (by decide) (by decide) (by decide)
    (fun u t => ⟨u.withdrawOffer t, frame_withdrawOffer u t, rfl⟩) _ ⟨tk, State.mem_queuedOffers hg hbody hunsent, rfl⟩ hp hr hoffered

/-! ## A change of level (R61) -/

theorem State.changeLevel_same {s : State} {level : Nat} (h : level = s.bgu.level) : s.changeLevel level = s := if_pos h

/-- The new level with the test of a queued note. -/
def State.levelled (level : Nat) (s : State) : State := (s.setBgu { s.bgu with level := level }).withdrawIfFull

theorem frame_levelled (s : State) (level : Nat) : UnchangedBut [.level, .note, .transmit] s (s.levelled level) :=
  (frame_setLevel s level).seq (frame_withdrawIfFull _)

theorem State.levelled_level (s : State) (level : Nat) : (s.levelled level).bgu.level = level := (frame_withdrawIfFull _).level

theorem State.changeLevel_ne {s : State} {level : Nat} (h : level ≠ s.bgu.level) :
    s.changeLevel level = (if 2 ≤ level then (s.levelled level).withdrawOffers else s.levelled level).refreshOutputs := if_neg h

theorem frame_offersBy (level : Nat) (s : State) : UnchangedBut answerParts s (if 2 ≤ level then s.withdrawOffers else s) := by
  split
  exacts [frame_withdrawOffers s, .refl _ s]

theorem State.changeLevel_level (s : State) (level : Nat) : (s.changeLevel level).bgu.level = level := by
  by_cases h : level = s.bgu.level
  · rw [State.changeLevel_same h, h]
  · rw [State.changeLevel_ne h, (frame_refreshOutputs _).level, (frame_offersBy level _).level, State.levelled_level]

theorem State.refreshOutputs_lamp (s : State) (i : Slot) :
    tget s.refreshOutputs.out.lampActual i = (tget s.out.lampDemand i && decide (s.bgu.level < s.conf.lampShed)) := by
  have hactual : s.refreshOutputs.out.lampActual = tmap (fun d => outputOn d s.bgu.level s.conf.lampShed) s.out.lampDemand := by
    simp only [State.refreshOutputs, State.setOut_out]
  rw [hactual, tget_tmap]
  rfl

theorem State.refreshOutputs_aux (s : State) (i : Fin 4) :
    s.refreshOutputs.out.auxActual[i] = (s.out.auxDemand[i] && decide (s.bgu.level < s.conf.auxShed[i])) := by
  simp [State.refreshOutputs, vzip, outputOn]

theorem State.changeLevel_demand (s : State) (level : Nat) : (s.changeLevel level).out.lampDemand = s.out.lampDemand
    ∧ (s.changeLevel level).out.auxDemand = s.out.auxDemand := by
  by_cases h : level = s.bgu.level
  · rw [State.changeLevel_same h]
    exact ⟨rfl, rfl⟩
  · have hbefore : UnchangedBut (.level :: .note :: answerParts) s
        (if 2 ≤ level then (s.levelled level).withdrawOffers else s.levelled level) :=
      (frame_levelled s level).seq (frame_offersBy level _)
    have hrefreshed (u : State) : u.refreshOutputs.out.lampDemand = u.out.lampDemand ∧ u.refreshOutputs.out.auxDemand = u.out.auxDemand := by
      simp only [State.refreshOutputs, State.setOut_out, and_self]
    rw [State.changeLevel_ne h, ← hbefore.out]
    exact hrefreshed _

/-- A change of level re-evaluates the outputs at the new level. -/
theorem State.changeLevel_outputs {s : State} {level : Nat} (h : level ≠ s.bgu.level) :
    (∀ i, tget (s.changeLevel level).out.lampActual i = (tget s.out.lampDemand i && decide (level < s.conf.lampShed)))
      ∧ ∀ i : Fin 4, (s.changeLevel level).out.auxActual[i] = (s.out.auxDemand[i] && decide (level < s.conf.auxShed[i])) := by
  have hoffers := frame_offersBy level (s.levelled level)
  have hbefore : UnchangedBut (.level :: .note :: answerParts) s
      (if 2 ≤ level then (s.levelled level).withdrawOffers else s.levelled level) := (frame_levelled s level).seq hoffers
  have hlevel := hoffers.level.trans (State.levelled_level s level)
  rw [State.changeLevel_ne h]
  refine ⟨fun i => ?_, fun i => ?_⟩
  · rw [State.refreshOutputs_lamp, hbefore.out, hbefore.conf, hlevel]
  · rw [State.refreshOutputs_aux, hbefore.out, hbefore.conf, hlevel]

theorem State.takeLevel_out (s : State) (level : Nat) : (s.takeLevel level).out = (s.changeLevel level).out := rfl

theorem frame_takeLevel_basis (s : State) (level : Nat) : UnchangedBut [.level] (s.changeLevel level) (s.takeLevel level) :=
  frame_setBasis _ _ _

/-- Table 5-5. -/
theorem noteRank_table (kind : DoorKind) (wait : Nat) : noteRank kind wait
    = (match kind with | .service => 8 | .collect => 24 | .sweep => 40 | .deposit => 56) - wait / 250 := by
  cases kind <;> rfl

/-- Settles O20: the budget by level, and the note as it would be queued. -/
theorem budgetAndRankFollowTheirTables : Obligations.BudgetAndRankFollowTheirTables := by
  refine ⟨fun s hlow hhigh => ⟨fun h => ?_, fun h => ?_, fun h => ?_, fun h => ?_, ?_, fun level => ?_⟩,
    fun s c => ⟨noteRank_table c.kind c.wait, rfl, rfl⟩⟩
  all_goals unfold State.budget
  · rw [h]; rfl
  · rw [h]; rfl
  · rw [h]; rfl
  · rw [h]; rfl
  · unfold budgetAt
    split <;> omega
  · rw [State.changeLevel_level, (frame_changeLevel s level).conf]
    unfold budgetAt
    split <;> simp_all

/-! ## POWER_STATE (R58, R61, R64) -/

theorem admitted_supply {s : State} {f : Frame} (h : Hears f s) (hst : f.station = s.conf.supply) :
    admitted s.conf f.station .powerState = true := isRole_iff.mpr ⟨h.sender.2, hst⟩

theorem exec_powerState {s : State} {f : Frame} {b : Byte} {rest : List Byte} (h : Hears f s) (hkind : f.kind = 2)
    (hcls : f.cls = 0) (hdest : f.dest = 0) (hst : f.station = s.conf.supply) (hpayload : f.payload = b :: rest) :
    exec (.powerState f) s = .next ((s.setDrive .echo).takeLevel (min b.toNat 3)).conclude := by
  have hlevel : powerLevel f.payload = some (min b.toNat 3) := by
    rw [hpayload]
    exact if_pos (Nat.succ_le_succ (Nat.zero_le _))
  rw [h.delivered (k := .powerState) (.inr (.inl rfl)) (by rw [hkind]; rfl) (by rw [hcls]; rfl) hdest (by decide) (admitted_supply h hst)]
  show Host.Outcome.next (State.conclude (match powerLevel f.payload with | some level => _ | none => _)) = _
  rw [hlevel]

/-- What a change of level does with the queued offers and a queued note, nothing being transmitted. -/
structure LevelChanged (level : Nat) (s t : State) : Prop where
  lamps : ∀ i, tget t.out.lampActual i = (tget s.out.lampDemand i && decide (level < s.conf.lampShed))
  aux : ∀ i : Fin 4, t.out.auxActual[i] = (s.out.auxDemand[i] && decide (level < s.conf.auxShed[i]))
  offers : 2 ≤ level → (∀ g ∈ t.liu.tx, g.body.cls ≠ 1)
    ∧ ∀ g tk x y slot r, g ∈ s.liu.tx → g.body = .placeOffer tk x y → Promised tk slot s → s.rec? slot = some r →
        r.state = .offered tk → PromiseEnded tk slot s t
  note : ∀ slot ended, s.bgu.own = .queued slot ended → t.budget ≤ s.bgu.pulses.length →
    t.bgu.own = .deferred slot ∧ ∀ g ∈ t.liu.tx, g.isNote = false

theorem State.transmitting_withdrawIfFull {s : State} (h : s.transmitting = false) : s.withdrawIfFull.transmitting = false := by
  unfold State.withdrawIfFull
  split
  · split
    · unfold State.transmitting at h ⊢
      rw [(frame_setOwn _ _).tx]
      rw [List.any_eq_false] at h ⊢
      exact fun g hg => h g (List.mem_of_mem_filter hg)
    · exact h
  · exact h
  · exact h

/-- An offer stands in the queue while a note is withdrawn. -/
theorem State.offer_mem_withdrawIfFull {s : State} {g : TxFrame} (hg : g ∈ s.liu.tx) (hnote : g.isNote = false) :
    g ∈ s.withdrawIfFull.liu.tx := by
  unfold State.withdrawIfFull
  split
  · split
    · rw [(frame_setOwn _ _).tx]
      exact List.mem_filter.mpr ⟨hg, by simp [hnote]⟩
    · exact hg
  · exact hg
  · exact hg

theorem State.changeLevel_effects {s : State} {level : Nat} (h : level ≠ s.bgu.level) (hfree : s.liu.handover = none)
    (hsilent : s.transmitting = false) : LevelChanged level s (s.changeLevel level) := by
  obtain ⟨hlamps, haux⟩ := State.changeLevel_outputs h
  have hset := frame_setLevel s level
  have hlevelled := frame_levelled s level
  have hoffers := frame_offersBy level (s.levelled level)
  have hrefresh := frame_refreshOutputs (if 2 ≤ level then (s.levelled level).withdrawOffers else s.levelled level)
  have hquiet : (s.levelled level).transmitting = false :=
    State.transmitting_withdrawIfFull (hset.transmitting.trans hsilent)
  have hunsent : ∀ g ∈ (s.levelled level).liu.tx, g.sending = false := by
    unfold State.transmitting at hquiet
    rw [List.any_eq_false] at hquiet
    exact fun g hg => by simpa using hquiet g hg
  refine ⟨hlamps, haux, fun htwo => ?_, fun slot ended hown hfull => ?_⟩
  · rw [State.changeLevel_ne h, if_pos htwo]
    have hout := frame_refreshOutputs (s.levelled level).withdrawOffers
    refine ⟨fun g hg => State.withdrawOffers_none hquiet g (hout.tx ▸ hg), fun g tk x y slot r hg hbody hp hr hoffered => ?_⟩
    have hstands : PromiseStands tk slot s (s.levelled level) := .of_frame hlevelled
    have hnote : g.isNote = false := by
      unfold TxFrame.isNote
      rw [hbody]
    have hmem : g ∈ (s.levelled level).liu.tx := State.offer_mem_withdrawIfFull (hset.tx ▸ hg) hnote
    have hended := State.withdrawOffers_ends hmem (hunsent g hmem) hbody (hstands.promised hp) (hstands.record.trans hr) hoffered
    exact (hended.after hstands (hlevelled.sense slot)).then_ (.of_frame hout)
  · have hbudget : (s.changeLevel level).budget = (s.setBgu { s.bgu with level := level }).budget := by
      unfold State.budget
      rw [State.changeLevel_level, (frame_changeLevel s level).conf, hset.conf]
      rfl
    have hdeferred : s.levelled level = (s.setBgu { s.bgu with level := level }).removeNote.setOwn (.deferred slot) :=
      State.withdrawIfFull_full (hset.own.trans hown) (by rw [← hbudget, hset.pulses]; exact hfull)
        ((hset.noteBusy).trans (State.noteBusy_silent hfree hsilent))
    have hnoteless : ∀ g ∈ (s.levelled level).liu.tx, g.isNote = false := by
      intro g hg
      rw [hdeferred] at hg
      simpa using (List.mem_filter.mp hg).2
    have hown : (s.levelled level).bgu.own = .deferred slot := congrArg (fun t => t.bgu.own) hdeferred
    rw [State.changeLevel_ne h, hrefresh.own, hoffers.own, hown]
    refine ⟨rfl, fun g hg => ?_⟩
    rw [hrefresh.tx] at hg
    split at hg
    exacts [State.withdrawOffers_noteless hnoteless g hg, hnoteless g hg]

/-- Settles O21: the level taken, and the effects of a change. -/
theorem powerStateSetsTheLevel : Obligations.PowerStateSetsTheLevel := by
  intro s f b rest hears hkind hcls hdest hst hpayload
  have hdrive := frame_setDrive s .echo
  have hchange := frame_changeLevel (s.setDrive .echo) (min b.toNat 3)
  have hbasis := frame_takeLevel_basis (s.setDrive .echo) (min b.toNat 3)
  have htake := frame_takeLevel (s.setDrive .echo) (min b.toNat 3)
  have hlevel : ((s.setDrive .echo).takeLevel (min b.toNat 3)).bgu.level = min b.toNat 3 :=
    State.changeLevel_level (s.setDrive .echo) (min b.toNat 3)
  obtain ⟨hlampDemand, hauxDemand⟩ := State.changeLevel_demand (s.setDrive .echo) (min b.toNat 3)
  refine ⟨_, exec_powerState hears hkind hcls hdest hst hpayload, hlevel, rfl, rfl, hlampDemand, hauxDemand, htake.part .drive,
    fun hsame => ?_, fun hne => ?_, hdrive.seq htake⟩
  · rw [State.changeLevel_same (hsame.trans hdrive.level.symm)] at hbasis
    exact hdrive.seq hbasis
  · obtain ⟨hlamps, haux, hoffers, hnote⟩ := State.changeLevel_effects (s := s.setDrive .echo) (fun h => hne (h.trans hdrive.level))
      (hdrive.handover.trans hears.handover) (hdrive.transmitting.trans hears.silent)
    rw [hlevel]
    refine ⟨hlamps, haux, fun htwo => ?_, fun slot ended hown hfull => ?_⟩
    · obtain ⟨hnone, hends⟩ := hoffers (by omega)
      refine ⟨fun g hg => hnone g (hbasis.tx ▸ hg), fun g tk x y slot r hg hbody hp hr hoffered => ?_⟩
      have hstands : PromiseStands tk slot s (s.setDrive .echo) := .of_frame hdrive
      exact ((hends g tk x y slot r hg hbody (hstands.promised hp) hr hoffered).after hstands (hdrive.sense slot)).then_
        (.of_frame hbasis)
    · exact hnote slot ended hown hfull

/-- Settles O22: the fallback of the level. -/
theorem levelAgeFallsBack : Obligations.LevelAgeFallsBack := by
  intro s hage
  have hback : UnchangedBut [.level] (s.changeLevel (max s.bgu.level 1)) s.fallBack := frame_setBasis _ _ _
  have hlevel : s.fallBack.bgu.level = max s.bgu.level 1 := State.changeLevel_level s _
  obtain ⟨hlampDemand, hauxDemand⟩ := State.changeLevel_demand s (max s.bgu.level 1)
  have hsame (h : s.bgu.level ≠ 0) : s.changeLevel (max s.bgu.level 1) = s := State.changeLevel_same (by omega)
  refine ⟨s.fallBack, congrArg Host.Outcome.next (if_pos hage), hlevel, rfl, rfl, fun h => ?_, fun h i => ?_, hlampDemand, hauxDemand, ?_⟩
  · rw [hsame h] at hback
    exact hback
  · have hone : max s.bgu.level 1 = 1 := by omega
    obtain ⟨hlamps, -⟩ := State.changeLevel_outputs (s := s) (level := max s.bgu.level 1) (by omega)
    rw [hback.out, hlamps i, hone]
  · by_cases h : s.bgu.level = 0
    · have hone : ¬2 ≤ max s.bgu.level 1 := by omega
      have heq := State.changeLevel_ne (s := s) (level := max s.bgu.level 1) (by omega)
      rw [if_neg hone] at heq
      have hchange : UnchangedBut [.level, .note, .outputs, .transmit] s (s.changeLevel (max s.bgu.level 1)) := by
        rw [heq]
        exact (frame_levelled s _).seq (frame_refreshOutputs _)
      exact hchange.seq hback
    · rw [hsame h] at hback
      exact hback.wide

/-! ## Notes of other stations (R67, R68, R73) -/

theorem State.listed_iff {s : State} {st : BitVec 6} {slot : BitVec 5} :
    s.listed st slot = true ↔ ∃ p ∈ s.bgu.pulses, p.station = st ∧ p.slot = slot := by
  unfold State.listed
  simp

theorem State.granted_iff {s : State} {st : BitVec 6} {slot : BitVec 5} : s.granted st slot = true
    ↔ (∀ p ∈ s.bgu.pulses, ¬(p.station = st ∧ p.slot = slot)) ∧ s.bgu.pulses.length < s.budget := by
  unfold State.granted
  rw [Bool.and_eq_true, Bool.not_eq_true', ← Bool.not_eq_true, State.listed_iff, decide_eq_true_iff]
  simp only [not_exists, not_and]

theorem State.not_granted {s : State} {st : BitVec 6} {slot : BitVec 5}
    (h : (∃ p ∈ s.bgu.pulses, p.station = st ∧ p.slot = slot) ∨ s.budget ≤ s.bgu.pulses.length) : ¬s.granted st slot = true := by
  rw [State.granted_iff]
  rintro ⟨hlist, hroom⟩
  rcases h with ⟨p, hp, hpair⟩ | hfull
  · exact hlist p hp hpair
  · omega

theorem exec_otherNote {s : State} {f : Frame} {n : NoteFields} (h : Hears f s) (hcolumn : FromAColumn f s) (hkind : f.kind = 1)
    (hcls : f.cls = 0) (hdest : f.dest = 0) (hn : decodeNote f.payload = some n) :
    exec (.pulseNote (.other f)) s = .next ((s.setDrive .echo).judgeOther f.station n).conclude := by
  rw [h.delivered (k := .pulseNote) (.inr (.inr (.inl rfl))) (by rw [hkind]; rfl) (by rw [hcls]; rfl) hdest (by decide)
    (fromAColumn_iff.mp ⟨h.sender.2, hcolumn⟩)]
  show Host.Outcome.next (State.conclude (match decodeNote f.payload with | some n => _ | none => _)) = _
  rw [hn]

theorem frame_dropPulse (s : State) (st : BitVec 6) (slot : BitVec 5) : UnchangedBut [.pulses] s (s.dropPulse st slot) := by
  intro p hp; cases p <;> simp_all [Part.same, State.dropPulse]

/-- Settles O23: the grant rule, the deferral of the own note, and the end of an entry. -/
theorem notesAreGrantedWithinTheBudget : Obligations.NotesAreGrantedWithinTheBudget := by
  refine ⟨fun s f n hears hcolumn hkind hcls hdest hn => ?_, fun s station slot => ?_⟩
  · have hexec := exec_otherNote hears hcolumn hkind hcls hdest hn
    have hdrive := frame_setDrive s .echo
    have hpulses : (s.setDrive .echo).bgu.pulses = s.bgu.pulses := hdrive.pulses
    have hbudget : (s.setDrive .echo).budget = s.budget := hdrive.budget
    refine ⟨fun hlist hroom => ?_, fun hdenied => ⟨s.setDrive .echo, ?_, rfl, hdrive⟩⟩
    · have hgranted : (s.setDrive .echo).granted f.station n.slot = true :=
        State.granted_iff.mpr ⟨by rwa [hpulses], by rwa [hpulses, hbudget]⟩
      have hjudged : (s.setDrive .echo).judgeOther f.station n
          = ((s.setDrive .echo).addPulse f.station n.slot n.duration).withdrawIfFull := if_pos hgranted
      rw [hjudged] at hexec
      have hadd := frame_addPulse (s.setDrive .echo) f.station n.slot n.duration
      have hadded : UnchangedBut [.pulses, .drive] s ((s.setDrive .echo).addPulse f.station n.slot n.duration) := hdrive.seq hadd
      have hlist : ((s.setDrive .echo).addPulse f.station n.slot n.duration).bgu.pulses.length = s.bgu.pulses.length + 1 :=
        List.length_append
      have hwithdraw := frame_withdrawIfFull ((s.setDrive .echo).addPulse f.station n.slot n.duration)
      refine ⟨_, hexec, hwithdraw.pulses, fun slot ended hown hfull => ?_, fun hstands => ?_, hwithdraw.part .drive, hadded.seq hwithdraw⟩
      · rw [State.withdrawIfFull_full (hadded.own.trans hown) (by rwa [hadded.budget, hlist])
          (hadded.noteBusy.trans (State.noteBusy_silent hears.handover hears.silent))]
        exact ⟨rfl, rfl⟩
      · rw [State.withdrawIfFull_room (by rwa [hadded.budget, hlist, hadded.own])]
        exact ⟨rfl, rfl⟩
    · rw [hexec]
      exact congrArg (fun t => Host.Outcome.next (State.conclude t)) (if_neg (State.not_granted (by rwa [hpulses, hbudget])))
  · refine ⟨s.dropPulse station slot, rfl, List.filter_congr fun p _ => ?_, frame_dropPulse s station slot⟩
    rw [Bool.eq_iff_iff, decide_eq_true_iff, Bool.not_eq_true', ← Bool.not_eq_true, Bool.and_eq_true, beq_iff_eq, beq_iff_eq]

end Sys2Proof.Machine
end

