-- ==== Sys2Proof/Proofs/OwnFrames.lean ====
section
/- One theorem after another: side by side, their proofs ask for more threads than the check's memory limit allows. -/
set_option Elab.async false

/-! SUPPORT and proofs of O24, O25, O27 and O28: the column's own note and offer as they arrive, and the offers of other stations
(R44, R68 to R74, R97 to R100). -/

namespace Sys2Proof.Machine

/-! ## The cycle of a slot -/

theorem State.cycle?_slot {s : State} {slot : Slot} {c : Cycle} (h : s.cycle? slot = some c) : c.slot = slot := by
  have := List.find?_some h
  simpa using this

/-- A cycle record replaced is the cycle of its slot. -/
theorem State.cycle?_setCycle_same {s : State} {slot : Slot} {c d : Cycle} (h : s.cycle? slot = some d) (hc : c.slot = slot) :
    (s.setCycle c).cycle? slot = some c := by
  have hreplace (xs : List Cycle) (hx : xs.find? (fun x => x.slot == slot) = some d) :
      (xs.map (fun x => if x.slot = c.slot then c else x)).find? (fun x => x.slot == slot) = some c := by
    induction xs with
    | nil => cases hx
    | cons x xs ih =>
      rw [List.map_cons]
      by_cases hslot : x.slot = slot
      · rw [if_pos (hslot.trans hc.symm), List.find?_cons_of_pos (by simpa using hc)]
      · rw [List.find?_cons_of_neg (by simpa using hslot)] at hx
        rw [if_neg (fun hno => hslot (hno.trans hc)), List.find?_cons_of_neg (by simpa using hslot)]
        exact ih hx
  exact hreplace s.dsq.cycles h

theorem State.cycle?_setCycle_ne {s : State} {slot : Slot} {c : Cycle} (hc : c.slot ≠ slot) :
    (s.setCycle c).cycle? slot = s.cycle? slot := by
  have hreplace (xs : List Cycle) : (xs.map (fun x => if x.slot = c.slot then c else x)).find? (fun x => x.slot == slot)
      = xs.find? (fun x => x.slot == slot) := by
    induction xs with
    | nil => rfl
    | cons x xs ih =>
      rw [List.map_cons, List.find?_cons, List.find?_cons]
      by_cases hslot : x.slot = c.slot
      · rw [if_pos hslot, hslot, ih]
        have hno : (c.slot == slot) = false := by simpa using hc
        rw [hno]
      · rw [if_neg hslot, ih]
  exact hreplace s.dsq.cycles

theorem State.cycle?_of_cycles {s t : State} (h : t.dsq.cycles = s.dsq.cycles) (slot : Slot) : t.cycle? slot = s.cycle? slot := by
  unfold State.cycle?
  rw [h]

/-! ## The own frame that arrives (R159) -/

theorem frame_succeed_own (s : State) {f : TxFrame} (h : f.body.cls ≤ 1) : UnchangedBut [.line, .drive, .transmit] s (s.succeed f) := by
  have hann : ¬f.body.isAnnounce = true := fun ha => by
    have := Body.isAnnounce_cls ha
    omega
  unfold State.succeed
  dsimp only
  rw [if_neg hann, if_pos h]
  exact (frame_succeed_before s).seq (frame_setHandover _ _)

/-- The state in which an own frame that arrives is judged: off the queue, and no frame waiting for its unit. -/
structure OwnJudged (f : TxFrame) (q : List TxFrame) (s u : State) : Prop where
  frame : UnchangedBut [.line, .drive, .transmit] s u
  tx : u.liu.tx = q
  handover : u.liu.handover = none
  note : ∀ slot duration kind, f.body = .pulseNote slot duration kind →
    exec (.pulseNote .own) s = .next (u.judgeOwn slot duration kind).conclude
  offer : ∀ t x y, f.body = .placeOffer t x y → exec (.placeOffer .own) s = .next (u.ownOffer t).conclude

theorem OwnArrives.judged {f : TxFrame} {q : List TxFrame} {s : State} (h : OwnArrives f q s) (hcls : f.body.cls ≤ 1) :
    ∃ u, OwnJudged f q s u := by
  obtain ⟨v, hv, htx, hwaits, harrive, hnote, hoffer⟩ : ∃ v, UnchangedBut [.line, .drive, .transmit] s v ∧ v.liu.tx = q
      ∧ v.liu.handover = some f ∧ s.arriveOwn = v.handleOwn ∧ (f.isNote = true → s.noteArriving = true)
      ∧ (f.body.cls = 1 → s.offerArriving = true) := by
    rcases h with ⟨hwaits, rfl⟩ | ⟨hfree, hsending, rfl⟩
    · refine ⟨s, .refl _ s, rfl, hwaits, ?_, fun hn => ?_, fun ho => ?_⟩
      · unfold State.arriveOwn
        rw [hwaits]
        rfl
      · unfold State.noteArriving State.noteBusy
        rw [hwaits]
        simp [hn]
      · unfold State.offerArriving
        rw [hwaits]
        simp [ho]
    · obtain ⟨hliu, -⟩ := State.succeed_spec s f
      have hmem : f ∈ s.liu.tx := List.mem_of_find?_eq_some hsending
      have hsent : f.sending = true := List.find?_some hsending
      refine ⟨s.succeed f, frame_succeed_own s hcls, by rw [hliu], by rw [hliu]; exact if_pos hcls, ?_, fun hn => ?_, fun ho => ?_⟩
      · unfold State.arriveOwn State.succeedSending
        rw [hfree, hsending]
        rfl
      · unfold State.noteArriving State.noteBusy
        rw [List.any_eq_true.mpr ⟨f, hmem, by simp [hn, hsent]⟩]
        rfl
      · unfold State.offerArriving
        rw [List.any_eq_true.mpr ⟨f, hmem, by simp [ho, hsent]⟩]
        rfl
  refine ⟨v.setLiu { v.liu with handover := none }, hv.seq (frame_setHandover v none), htx, rfl, fun slot duration kind hbody => ?_,
    fun t x y hbody => ?_⟩
  · have hexec : exec (.pulseNote .own) s = .next s.arriveOwn.conclude :=
      congrArg Host.Outcome.next (if_pos (hnote (by unfold TxFrame.isNote; rw [hbody])))
    rw [hexec, harrive, State.handleOwn_eq hwaits, hbody]
  · have hexec : exec (.placeOffer .own) s = .next s.arriveOwn.conclude :=
      congrArg Host.Outcome.next (if_pos (hoffer (by rw [hbody]; rfl)))
    rw [hexec, harrive, State.handleOwn_eq hwaits, hbody]

/-! ## The column's own note (R68 to R74) -/

theorem State.pulseWaiting?_some {s : State} {slot : Slot} {c : Cycle} (h : s.cycle? slot = some c) (hstage : c.stage = .pulseWait) :
    s.pulseWaiting? slot = some c := by
  unfold State.pulseWaiting?
  rw [h]
  exact if_pos hstage

theorem State.pulseWaiting?_none {s : State} {slot : Slot} (h : ∀ c, s.cycle? slot = some c → c.stage ≠ .pulseWait) :
    s.pulseWaiting? slot = none := by
  unfold State.pulseWaiting?
  split
  · rename_i c hc
    exact if_neg (h c hc)
  · rfl

theorem State.pulseWaiting?_of_frame {ps : List Part} {s t : State} (h : UnchangedBut ps s t) (slot : Slot)
    (hp : Part.doors ∉ ps := by decide) : t.pulseWaiting? slot = s.pulseWaiting? slot := by
  unfold State.pulseWaiting?
  rw [h.cycle? slot hp]

/-- The note's cycle waits still. -/
theorem State.noteEnded_queued {s : State} {x slot : Slot} {ended : Bool} (h : s.bgu.own = .queued x ended) :
    s.noteEnded slot = (ended || (s.pulseWaiting? slot).isNone) := by
  unfold State.noteEnded
  rw [h]

theorem State.ownGranted_waiting {s : State} {slot : Slot} {c : Cycle} (h : s.bgu.own = .queued slot false)
    (hc : s.cycle? slot = some c) (hstage : c.stage = .pulseWait) (duration : Nat) (kind : DoorKind) :
    s.ownGranted slot duration kind = (s.addPulse s.station (slotField slot) duration).drive c duration kind := by
  have hwaiting := State.pulseWaiting?_some hc hstage
  unfold State.ownGranted
  dsimp only
  rw [State.pulseWaiting?_of_frame (frame_addPulse s _ _ _), hwaiting, State.noteEnded_queued h, hwaiting]
  rfl

theorem State.ownGranted_ended {s : State} {slot : Slot} {ended : Bool} (h : s.bgu.own = .queued slot ended)
    (hend : ended = true ∨ ∀ c, s.cycle? slot = some c → c.stage ≠ .pulseWait) (duration : Nat) (kind : DoorKind) :
    s.ownGranted slot duration kind = (s.addPulse s.station (slotField slot) duration).setOwn .none := by
  unfold State.ownGranted
  dsimp only
  rw [State.pulseWaiting?_of_frame (frame_addPulse s _ _ _), State.noteEnded_queued h]
  rcases hend with rfl | hno
  · split <;> rfl
  · rw [State.pulseWaiting?_none hno]

theorem Locks.fired_count (x : Locks) : x.fired.count = min (x.count + 1) 16777215 := by
  unfold Locks.fired
  dsimp only
  split <;> rfl

theorem Locks.fired_writing {x : Locks} {w : Bool × Nat} (h : x.writing = some w) :
    x.fired.writing = some w ∧ x.fired.again = true := by
  unfold Locks.fired
  dsimp only
  rw [if_pos (by rw [h]; rfl)]
  exact ⟨h, rfl⟩

theorem Locks.fired_idle {x : Locks} (h : x.writing = none) : x.fired.writing = some (x.olderIsB, x.fired.count) := by
  unfold Locks.fired
  dsimp only
  rw [if_neg (by rw [h]; decide)]
  rfl

theorem Locks.olderIsB_cases (x : Locks) : (x.a.ok = true → x.b.ok = true → x.olderIsB = decide (x.b.value < x.a.value))
    ∧ (x.a.ok = false → x.olderIsB = false) ∧ (x.a.ok = true → x.b.ok = false → x.olderIsB = true) := by
  unfold Locks.olderIsB
  refine ⟨fun ha hb => ?_, fun ha => ?_, fun ha hb => ?_⟩
  · rw [ha, hb]; rfl
  · rw [ha]; rfl
  · rw [ha, hb]; rfl

/-- What the column's own granted note makes of its waiting cycle (R44, R70). -/
structure Driven (c : Cycle) (duration : Nat) (kind : DoorKind) (s t : State) : Prop where
  own : t.bgu.own = .none
  driver : tget t.bgu.drivers c.slot = some (duration * 10)
  drivers : ∀ i, i ≠ c.slot → tget t.bgu.drivers i = tget s.bgu.drivers i
  cycle : t.cycle? c.slot = some { c with
    stage := .driving, boltReached := decide (s.conf.threshold ≤ (s.sense c.slot).bolt), doorOpened := false }
  order : t.dsq.order = s.dsq.order.filter (fun x => x != c.slot)
  locks : t.locks c.slot = (s.locks c.slot).fired
  counted : Counted .pulseFired (some kind.code) (s.carrierOf c.slot) s t

theorem State.enterDriving_cycle? {s : State} {c : Cycle} (h : s.cycle? c.slot = some c) : (s.enterDriving c).cycle? c.slot = some { c with
    stage := .driving, boltReached := decide (s.conf.threshold ≤ (s.sense c.slot).bolt), doorOpened := false } := by
  have hset := State.cycle?_setCycle_same (c := { c with
    stage := .driving, boltReached := decide (s.conf.threshold ≤ (s.sense c.slot).bolt), doorOpened := false }) h rfl
  exact (State.cycle?_of_cycles rfl _).trans hset

theorem Driven.drive {s : State} {c : Cycle} (h : s.cycle? c.slot = some c) (duration : Nat) (kind : DoorKind) :
    Driven c duration kind s (s.drive c duration kind) := by
  have hdriver := frame_setDriver s c.slot (some (duration * 10))
  have henter := frame_enterDriving (s.setDriver c.slot (some (duration * 10))) c
  have hfired := frame_pulseFired ((s.setDriver c.slot (some (duration * 10))).enterDriving c) c.slot
  have hbefore : UnchangedBut [.doors, .drivers] s ((s.setDriver c.slot (some (duration * 10))).enterDriving c) := hdriver.seq henter
  have hcounted : UnchangedBut [.locks, .doors, .drivers] s (((s.setDriver c.slot (some (duration * 10))).enterDriving c).pulseFired c.slot) :=
    hbefore.seq hfired
  have htail : UnchangedBut [.counters, .note] (((s.setDriver c.slot (some (duration * 10))).enterDriving c).pulseFired c.slot)
      (s.drive c duration kind) := (frame_count _ _ _ _).seq (frame_setOwn _ _)
  have hcycle := State.enterDriving_cycle? (s := s.setDriver c.slot (some (duration * 10))) ((hdriver.cycle? _).trans h)
  have hdrivers : (s.drive c duration kind).bgu.drivers = tset s.bgu.drivers c.slot (some (duration * 10)) :=
    (htail.drivers.trans hfired.drivers).trans henter.drivers
  have hcarrier : (s.drive c duration kind).rpt.counters
      = (((s.setDriver c.slot (some (duration * 10))).enterDriving c).pulseFired c.slot |>.count .pulseFired (some kind.code)
          (s.carrierOf c.slot)).rpt.counters := by
    have hrec : (((s.setDriver c.slot (some (duration * 10))).enterDriving c).pulseFired c.slot).carrierOf c.slot = s.carrierOf c.slot :=
      hcounted.carrierOf c.slot
    rw [← hrec]
    exact (frame_setOwn _ _).counters
  refine ⟨rfl, by rw [hdrivers, tget_tset_same], fun i hi => by rw [hdrivers]; exact tget_tset_ne _ _ hi.symm, ?_, ?_, ?_, fun i => ?_⟩
  · rw [htail.cycle?, hfired.cycle?, hcycle, hdriver.conf, hdriver.sense]
  · rw [htail.dsq, hfired.dsq]
    rfl
  · rw [htail.locksOf, ← hbefore.locksOf c.slot]
    exact State.setLocks_locks_same _ _ _
  · have hcount := (Counted.count (((s.setDriver c.slot (some (duration * 10))).enterDriving c).pulseFired c.slot) .pulseFired
      (some kind.code) (s.carrierOf c.slot)).after hcounted
    rw [hcarrier]
    exact hcount i

/-- Settles O24: the granted note drives its lock, or only its entry stands. -/
theorem ownGrantedNoteDrivesItsLock : Obligations.OwnGrantedNoteDrivesItsLock := by
  intro s f q slot duration kind ended harrives hbody hown hlist hroom
  obtain ⟨u, hframe, htx, hfree, hexec, -⟩ := harrives.judged (by rw [hbody]; exact Nat.zero_le 1)
  have hgranted : u.judgeOwn slot duration kind = u.ownGranted slot duration kind :=
    if_pos (State.granted_iff.mpr ⟨by rw [hframe.pulses, hframe.station]; exact hlist, by rwa [hframe.pulses, hframe.budget]⟩)
  have hownu : u.bgu.own = .queued slot ended := hframe.own.trans hown
  have hadd := frame_addPulse u u.station (slotField slot) duration
  have hpulses : (u.addPulse u.station (slotField slot) duration).bgu.pulses = s.bgu.pulses
      ++ [{ station := s.station, slot := BitVec.ofNat 5 slot.val,
            left := (if 10 ≤ duration ∧ duration ≤ 80 then duration * 10 else 800) + 20 }] := by
    rw [← hframe.pulses, ← hframe.station]
    rfl
  have hbefore : UnchangedBut [.pulses, .line, .drive, .transmit] s (u.addPulse u.station (slotField slot) duration) := hframe.seq hadd
  rw [hexec _ _ _ hbody, hgranted]
  by_cases hwaits : ended = true ∨ ∀ c, s.cycle? slot = some c → c.stage ≠ .pulseWait
  · rw [State.ownGranted_ended hownu (by simpa [hframe.cycle? slot] using hwaits)]
    have hset := frame_setOwn (u.addPulse u.station (slotField slot) duration) .none
    refine ⟨_, rfl, htx, hfree, rfl, hpulses, fun c hended hc hstage => ?_, fun _ => hbefore.seq hset⟩
    rcases hwaits with h | h
    · rw [hended] at h
      cases h
    · exact absurd hstage (h c hc)
  · obtain ⟨hended, hcycle⟩ := not_or.mp hwaits
    obtain ⟨c, hc, hstage⟩ : ∃ c, s.cycle? slot = some c ∧ c.stage = .pulseWait := by
      by_contra hno
      exact hcycle fun c hc hstage => hno ⟨c, hc, hstage⟩
    obtain rfl : c.slot = slot := State.cycle?_slot hc
    have hfalse : ended = false := by simpa using hended
    subst hfalse
    have hcu : (u.addPulse u.station (slotField c.slot) duration).cycle? c.slot = some c := (hbefore.cycle? _).trans hc
    obtain ⟨howned, hdriver, hdrivers, hdriving, horder, hlocks, hcounted⟩ := Driven.drive hcu duration kind
    have hdrive := frame_drive (u.addPulse u.station (slotField c.slot) duration) c duration kind
    rw [State.ownGranted_waiting hownu ((hframe.cycle? _).trans hc) hstage]
    refine ⟨_, rfl, hdrive.tx.trans htx, hdrive.handover.trans hfree, howned, hdrive.pulses.trans hpulses,
      fun d _ hd _ => ?_, fun h => absurd h hwaits⟩
    rw [hc] at hd
    cases hd
    obtain ⟨hboth, hfirst, hsecond⟩ := Locks.olderIsB_cases (s.locks c.slot)
    rw [hbefore.conf, hbefore.sense] at hdriving
    rw [hbefore.locksOf] at hlocks
    rw [hbefore.dsq] at horder
    rw [hbefore.carrierOf] at hcounted
    refine ⟨hdriver, fun i hi => (hdrivers i hi).trans (by rw [hbefore.drivers]), hdriving, horder, ?_, fun hidle => ?_,
      fun w hw => ?_, hcounted.after hbefore, hbefore.seq hdrive⟩
    · rw [hlocks, Locks.fired_count]
    · rw [hlocks]
      exact ⟨_, Locks.fired_idle hidle, hboth, hfirst, hsecond⟩
    · rw [hlocks]
      exact Locks.fired_writing hw

/-- Settles O25: the denied note waits again, or is given up with its cycle. -/
theorem ownDeniedNoteIsDeferred : Obligations.OwnDeniedNoteIsDeferred := by
  intro s f q slot duration kind ended harrives hbody hown hdenied
  obtain ⟨u, hframe, htx, hfree, hexec, -⟩ := harrives.judged (by rw [hbody]; exact Nat.zero_le 1)
  have hjudged : u.judgeOwn slot duration kind = (u.count .pulseDenied (some kind.code) (s.carrierOf slot)).setOwn
      (if u.noteEnded slot then .none else .deferred slot) := by
    rw [← hframe.carrierOf slot]
    exact if_neg (State.not_granted (by rwa [hframe.pulses, hframe.station, hframe.budget]))
  have hended : u.noteEnded slot = (ended || (s.pulseWaiting? slot).isNone) := by
    rw [State.noteEnded_queued (hframe.own.trans hown), State.pulseWaiting?_of_frame hframe]
  have hset := frame_setOwn (u.count .pulseDenied (some kind.code) (s.carrierOf slot)) (if u.noteEnded slot then .none else .deferred slot)
  have hcount := frame_count u .pulseDenied (some kind.code) (s.carrierOf slot)
  rw [hexec _ _ _ hbody, hjudged]
  refine ⟨_, rfl, htx, hfree, fun c hfalse hc hstage => if_neg ?_, fun h => if_pos ?_,
    ((Counted.count u _ _ _).after hframe).then_ hset, (hframe.seq hcount (rs := [.counters, .line, .drive, .transmit])).seq hset⟩
  · rw [hended, State.pulseWaiting?_some hc hstage, hfalse]
    exact Bool.false_ne_true
  · rw [hended]
    rcases h with rfl | hno
    · rfl
    · rw [State.pulseWaiting?_none hno]
      exact Bool.or_true _

/-! ## Offers (R97 to R100) -/

/-- An entry that is not outstanding takes no award and no loss. -/
theorem State.ownOffer_idle {s : State} {t : Ticket} (h : ∀ e, s.entry? (placeJob t) = some e → e.stage ≠ .promised ∨ e.ending = true) :
    s.ownOffer t = s := by
  unfold State.ownOffer
  split
  · rfl
  · rename_i e he
    split
    · rfl
    · refine if_neg fun ⟨hstage, hending⟩ => ?_
      rcases h e he with hno | hno
      · exact hno hstage
      · rw [hending] at hno
        cases hno

theorem State.ownOffer_promised {s : State} {t : Ticket} {slot : Slot} (h : Promised t slot s) : s.ownOffer t = s.award t slot := by
  obtain ⟨e, he, hslot, hstage, hending⟩ := h
  unfold State.ownOffer
  rw [he]
  dsimp only
  rw [hslot]
  exact if_pos ⟨hstage, hending⟩

theorem State.callCarrier_of_entry {s : State} {t : Ticket} {e : Entry} (h : s.entry? (placeJob t) = some e) :
    s.callCarrier t = e.carrier := by
  unfold State.callCarrier State.entryCarrier
  rw [h]

/-- The award, where the compartment still carries the promise (R99). -/
theorem State.award_offered {s : State} {t : Ticket} {slot : Slot} {r : CompRec} {e : Entry} (hr : s.rec? slot = some r)
    (hoffered : r.state = .offered t) (he : s.entry? (placeJob t) = some e) :
    Changed slot { r with state := .held t none } [] s (s.award t slot)
      ∧ (s.award t slot).entry? (placeJob t) = some { e with stage := .held, timer := some 0 }
      ∧ CountedAll [(.enterState, some 2, e.carrier), (.offerWon, none, e.carrier)] s (s.award t slot) := by
  have haward : s.award t slot = ((s.change slot { r with state := .held t none } e.carrier).updEntry (placeJob t)
      (Entry.toStage .held (some 0))).count .offerWon none e.carrier := by
    unfold State.award
    rw [hr]
    dsimp only
    rw [if_pos hoffered, State.callCarrier_of_entry he]
  have hchanged := Changed.change hr { r with state := .held t none } e.carrier
  have hevents : changeEvents r.state (.held t none) e.carrier = [(.enterState, some 2, e.carrier)] := by rw [hoffered]; rfl
  have hcounted := CountedAll.change hr { r with state := .held t none } e.carrier
  have hchange : UnchangedBut [.records, .store, .counters, .free] s (s.change slot { r with state := .held t none } e.carrier) :=
    frame_change_causeless s slot _ rfl
  have hupd := frame_updEntry (s.change slot { r with state := .held t none } e.carrier) (placeJob t) (Entry.toStage .held (some 0))
  have hcount := frame_count ((s.change slot { r with state := .held t none } e.carrier).updEntry (placeJob t)
    (Entry.toStage .held (some 0))) .offerWon none e.carrier
  rw [hevents] at hcounted
  rw [haward]
  refine ⟨(hchanged.then_ hupd).then_ hcount, ?_, (hcounted.then_ hupd).append (CountedAll.count _ _ _ _) (hchange.seq hupd
    (rs := [.records, .store, .requests, .counters, .free]))⟩
  rw [hcount.entry?, State.entry?_updEntry_same _ _ (Entry.toStage .held (some 0)) (fun _ => rfl), hchange.entry?, he]
  rfl

theorem State.award_unpromised {s : State} {t : Ticket} {slot : Slot} {r : CompRec} (hr : s.rec? slot = some r)
    (h : r.state ≠ .offered t) : s.award t slot = s.finishEntry (placeJob t) := by
  unfold State.award
  rw [hr]
  exact if_neg h

/-- Settles O27: the own offer arrives. -/
theorem ownOfferArrivingIsTheAward : Obligations.OwnOfferArrivingIsTheAward := by
  intro s f q tk x size harrives hbody
  obtain ⟨u, hframe, htx, hfree, -, hexec⟩ := harrives.judged (by rw [hbody]; exact Nat.le_refl 1)
  have hoffer := frame_ownOffer u tk
  have hentry : u.entry? (placeJob tk) = s.entry? (placeJob tk) := hframe.entry? _
  rw [hexec _ _ _ hbody]
  refine ⟨u.ownOffer tk, rfl, hoffer.tx.trans htx, hoffer.handover.trans hfree, fun hnone => ?_, fun e he hover => ?_,
    fun e slot r he hslot hstage hending hr => ?_, hframe.seq hoffer⟩
  · rw [State.ownOffer_idle fun e he => by rw [hentry, hnone] at he; cases he]
    exact hframe
  · rw [State.ownOffer_idle fun d hd => by rw [hentry, he] at hd; cases hd; exact hover]
    exact hframe
  · have hru : u.rec? slot = some r := (hframe.rec? slot).trans hr
    rw [State.ownOffer_promised ⟨e, hentry.trans he, hslot, hstage, hending⟩]
    refine ⟨fun hoffered => ?_, fun hno => ?_⟩
    · obtain ⟨hchanged, hheld, hcounted⟩ := State.award_offered hru hoffered (hentry.trans he)
      exact ⟨hchanged.after hframe, hheld, hcounted.after hframe⟩
    · rw [State.award_unpromised hru hno]
      refine ⟨State.entry?_finishEntry_same _ _, ?_⟩
      by_cases hocc : ∃ p, r.state = .occupied p
      · exact .inr hocc
      · obtain ⟨hrec, -⟩ := (RecordsExpire.finishEntry u (placeJob tk)).stands hru (fun p hp => hocc ⟨p, hp⟩)
        exact .inl hrec

theorem exec_otherOffer {s : State} {f : Frame} {tk : Ticket} (h : Hears f s) (hcolumn : FromAColumn f s) (hkind : f.kind = 4)
    (hcls : f.cls = 1) (hdest : f.dest = 0) (ht : decodeOffer f.payload = some tk) :
    exec (.placeOffer (.other f)) s = .next ((s.setDrive .echo).otherOffer tk).conclude := by
  rw [h.delivered (k := .placeOffer) (.inr (.inr (.inr rfl))) (by rw [hkind]; rfl) (by rw [hcls]; rfl) hdest (by decide)
    (fromAColumn_iff.mp ⟨h.sender.2, hcolumn⟩)]
  show Host.Outcome.next (State.conclude (match decodeOffer f.payload with | some t => _ | none => _)) = _
  rw [ht]

theorem State.otherOffer_unknown {s : State} {t : Ticket} (h : s.entry? (placeJob t) = none) : s.otherOffer t = s.markSpoken t := by
  unfold State.otherOffer
  rw [h]

theorem State.otherOffer_idle {s : State} {t : Ticket} {e : Entry} (he : s.entry? (placeJob t) = some e)
    (h : e.stage ≠ .promised ∨ e.ending = true) : s.otherOffer t = s := by
  unfold State.otherOffer
  rw [he]
  dsimp only
  split
  · rfl
  · refine if_neg fun ⟨hstage, hending⟩ => ?_
    rcases h with hno | hno
    · exact hno hstage
    · rw [hending] at hno
      cases hno

theorem State.otherOffer_promised {s : State} {t : Ticket} {slot : Slot} (h : Promised t slot s) :
    s.otherOffer t = (s.withdrawOffer t).endPromise t slot := by
  obtain ⟨e, he, hslot, hstage, hending⟩ := h
  unfold State.otherOffer
  rw [he]
  dsimp only
  rw [hslot]
  exact if_pos ⟨hstage, hending⟩

theorem frame_markSpoken (s : State) (t : Ticket) : UnchangedBut [.receive] s (s.markSpoken t) := frame_setRx s _

/-- With nothing being transmitted no offer for the ticket stays queued. -/
theorem State.withdrawOffer_gone {s : State} (hsilent : s.transmitting = false) (t : Ticket) :
    ∀ g ∈ (s.withdrawOffer t).liu.tx, g.isOfferFor t = false := by
  intro g hg
  obtain ⟨h, hmem, hbody, -, hsent⟩ := State.mem_withdrawOffer hg
  unfold State.transmitting at hsilent
  rw [List.any_eq_false] at hsilent
  have hno : h.isOfferFor t = false := by
    cases hoffer : h.isOfferFor t with
    | false => rfl
    | true => exact absurd (hsent hoffer) (hsilent h hmem)
  unfold TxFrame.isOfferFor at hno ⊢
  rwa [hbody]

/-- Settles O28: the loss of an offer, and a call spoken for. -/
theorem otherStationsOfferIsTheLoss : Obligations.OtherStationsOfferIsTheLoss := by
  intro s f tk hears hcolumn hkind hcls hdest htk
  have hexec := exec_otherOffer hears hcolumn hkind hcls hdest htk
  have hdrive := frame_setDrive s .echo
  have hentry : (s.setDrive .echo).entry? (placeJob tk) = s.entry? (placeJob tk) := hdrive.entry? _
  rw [hexec]
  refine ⟨fun hnone => ?_, fun slot r hp hr hoffered => ?_, fun e he hover => ?_⟩
  · rw [State.otherOffer_unknown (hentry.trans hnone)]
    exact ⟨_, rfl, rfl, rfl, hdrive.seq (frame_markSpoken _ _)⟩
  · have hpu : Promised tk slot (s.setDrive .echo) := (PromiseStands.of_frame hdrive).promised hp
    have hwithdraw := frame_withdrawOffer (s.setDrive .echo) tk
    have hbefore : UnchangedBut [.drive, .transmit] s ((s.setDrive .echo).withdrawOffer tk) := hdrive.seq hwithdraw
    have hend := frame_endPromise ((s.setDrive .echo).withdrawOffer tk) tk slot
    have hreleased := State.endPromise_released (s := (s.setDrive .echo).withdrawOffer tk) ((hbefore.rec? slot).trans hr)
      (CompRec.promised_iff.mpr (.inl hoffered))
    have hended := hreleased.ended fun c hc => by
      rw [hbefore.rec?, hr] at hc
      cases hc
      rw [hoffered]
      intro h
      cases h
    obtain ⟨hchanged, -, -, hraised, hquiet, hcounted⟩ := hreleased
    rw [hbefore.sense slot] at hchanged hraised hquiet
    rw [State.otherOffer_promised hpu]
    refine ⟨_, rfl, fun g hg => ?_, hchanged.after hbefore, fun hon => (hraised hon).after (.of_frame hbefore),
      fun hoff => (hquiet hoff).trans hbefore.conds, hended.after (.of_frame hbefore) (hbefore.sense slot), hcounted.after hbefore, hend.part .drive, hbefore.seq hend⟩
    rcases AlertsJoin.endPromise _ tk slot g hg with hold | ⟨-, conds, x, hbody⟩
    · exact State.withdrawOffer_gone (hdrive.transmitting.trans hears.silent) tk g hold
    · unfold TxFrame.isOfferFor
      rw [hbody]
  · rw [State.otherOffer_idle (hentry.trans he) hover]
    exact ⟨_, rfl, rfl, hdrive⟩

end Sys2Proof.Machine
end

