-- ==== Sys2Proof/Proofs/Outcomes.lean ====
section
/- One theorem after another: side by side, their proofs ask for more threads than the check's memory limit allows. -/
set_option Elab.async false

/-! SUPPORT. What a returned outcome does (R54, R106, R143, R148): the mapped record, the unit that answers it, and the events, in the
words of the obligations. -/

namespace Sys2Proof.Machine

/-! ## Records that only expire -/

theorem RecordsExpire.releaseSlot (s : State) (j : Job) (slot : Slot) : RecordsExpire s (s.releaseSlot j slot) := by
  unfold State.releaseSlot
  dsimp only
  split
  · exact (RecordsExpire.of_frame (frame_updEntry s _ _)).trans (.deferredExpiry _ _)
  · exact .of_frame (frame_updEntry s _ _)

theorem RecordsExpire.endIfDone (s : State) (j : Job) : RecordsExpire s (s.endIfDone j) := by
  unfold State.endIfDone
  split
  · exact .refl s
  · split
    · exact .finishEntry s j
    · split
      exacts [.of_frame (frame_updEntry s _ _), .refl s]

theorem RecordsExpire.slotDone (s : State) (j : Job) (slot : Slot) : RecordsExpire s (s.slotDone j slot) :=
  (RecordsExpire.releaseSlot s j slot).trans (.endIfDone _ j)

theorem RecordsExpire.afterRelease (s : State) (j : Job) (slot : Slot) : RecordsExpire s (s.afterRelease j slot) := by
  unfold State.afterRelease
  split
  exacts [.slotDone s j slot, .slotDone s j slot, .finishEntry s j, .refl s]

/-- A unit that only answers changes no record but by an expiry. -/
theorem RecordsExpire.releaseAnswer (s : State) (slot : Slot) {w : Waiter} (h : w.quoteless = true) :
    RecordsExpire s (s.releaseAnswer slot w) := by
  cases w with
  | placeDone t r => exact (RecordsExpire.of_frame (frame_answer s _ _)).trans (.finishEntry _ _)
  | releaseDone j r ref => exact (RecordsExpire.of_frame (frame_answer s _ _)).trans (.afterRelease _ j slot)
  | serviceDone t r ref => exact (RecordsExpire.of_frame (frame_answer s _ _)).trans (.finishEntry _ _)
  | payment t x m p => cases h
  | endEntry j => exact .finishEntry s j
  | cycleStart => exact .refl s
  | detail t => exact .refl s

theorem AtMostDiscard.releaseAnswer (s : State) (slot : Slot) {w : Waiter} (h : w.quoteless = true) :
    AtMostDiscard s (s.releaseAnswer slot w) := by
  cases w with
  | placeDone t r => exact (AtMostDiscard.answer s _ _).trans (.of_frame (frame_finishEntry _ _))
  | releaseDone j r ref => exact (AtMostDiscard.answer s _ _).trans (.of_frame (frame_afterRelease _ _ _))
  | serviceDone t r ref => exact (AtMostDiscard.answer s _ _).trans (.of_frame (frame_finishEntry _ _))
  | payment t x m p => cases h
  | endEntry j => exact .of_frame (frame_finishEntry s j)
  | cycleStart => exact .of_frame (.refl [] s)
  | detail t => exact .of_frame (.refl [] s)

theorem AtMostDiscard.await (s : State) (slot : Slot) {w : Waiter} (h : w.quoteless = true) :
    AtMostDiscard s (s.await slot w) := by
  by_cases hw : Writing slot s
  · exact .of_frame (frame_await_writing hw w)
  · rw [State.await_idle hw]
    exact .releaseAnswer s slot h

/-! ## Waiting for a write -/

theorem Writing.congr {s t : State} {slot : Slot} (h : t.store slot = s.store slot) : Writing slot t ↔ Writing slot s := by
  unfold Writing
  rw [h]

theorem WaitsFor.after {s v t : State} {slot : Slot} {u : Waiter} (h : v.store slot = s.store slot) (k : WaitsFor slot u v t) :
    WaitsFor slot u s t := by
  unfold WaitsFor at k ⊢
  rwa [h] at k

/-! ## The event of a mapped change -/

/-- The event of a change that keeps or drops the parcel. -/
theorem changeEvents_mapped {old new : CompState} (h : DropsOrKeeps old new) :
    changeEvents old new 0 = entryEvents old new (match old.parcel? with | some p => p.carrier | none => 0) := by
  have hcarrier : enterCarrier old new 0 = (match old.parcel? with | some p => p.carrier | none => 0) := by
    unfold enterCarrier
    rcases h with h | h
    · rw [h] <;> rfl
    · rw [h]
      cases old.parcel? <;> rfl
  have hpurpose : ¬(old.purpose? = some .delivery ∧ new.purpose? = some .expired) := by
    rintro ⟨hold, hnew⟩
    unfold CompState.purpose? at hold hnew
    rcases h with h | h
    · rw [h] at hnew
      cases hnew
    · rw [h, hold] at hnew
      cases hnew
  unfold changeEvents entryEvents enterValue
  by_cases hentered : old.tag ≠ new.tag ∨ old.cause? ≠ new.cause?
  · rw [if_pos hentered, if_pos (hentered.imp Ne.symm Ne.symm), hcarrier]
  · rw [if_neg hentered, if_neg hpurpose, if_neg (fun hno => hentered (hno.imp Ne.symm Ne.symm))]

theorem State.carrierOf_rec {s : State} {slot : Slot} {r : CompRec} (h : s.rec? slot = some r) :
    s.carrierOf slot = (match r.state.parcel? with | some p => p.carrier | none => 0) := by
  unfold State.carrierOf State.parcel?
  rw [h]
  rfl

/-! ## A mapped record -/

/-- A record has been mapped, and the unit that answers it does not wait yet. -/
structure Recorded (slot : Slot) (r new : CompRec) (es : List Event) (s v : State) : Prop where
  changed : Changed slot new [] s v
  same : r = new → v.store slot = s.store slot
  ort : v.ort = s.ort
  conf : v.conf = s.conf
  counted : CountedAll es s v

theorem Recorded.then_ {slot : Slot} {r new : CompRec} {es : List Event} {ps : List Part} {s v w : State}
    (h : Recorded slot r new es s v) (k : UnchangedBut ps v w) (hr : Part.records ∉ ps := by decide)
    (hs : Part.store ∉ ps := by decide) (ho : Part.requests ∉ ps := by decide) (hf : Part.config ∉ ps := by decide)
    (hc : Part.counters ∉ ps := by decide) : Recorded slot r new es s w where
  changed := h.changed.then_ k hr hs
  same heq := (k.storeOf slot hs).trans (h.same heq)
  ort := (k.ort ho).trans h.ort
  conf := (k.conf hf).trans h.conf
  counted := h.counted.then_ k hc

/-- What a mapped record becomes where the presence test of R38 is made. -/
def testedRec (old new : CompRec) (presenceOff : Bool) : CompRec :=
  if old.state.tag ≠ .occupied ∧ new.state.tag = .occupied ∧ presenceOff = true then { new with lost := true } else new

theorem testedRec_state (old new : CompRec) (off : Bool) : (testedRec old new off).state = new.state := by
  unfold testedRec
  split <;> rfl

theorem State.changeTested_eq {s : State} {slot : Slot} {old : CompRec} (h : s.rec? slot = some old) (new : CompRec) :
    s.changeTested slot new = (if old.state.tag ≠ .occupied ∧ new.state.tag = .occupied ∧ (s.sense slot).presenceIsOff = true
      then (s.change slot { new with lost := true } 0).raise .presenceLost (some slot) else s.change slot new 0) := by
  unfold State.changeTested
  rw [h]

theorem Recorded.change {s : State} {slot : Slot} {r : CompRec} (h : s.rec? slot = some r) {new : CompRec}
    (hdrop : DropsOrKeeps r.state new.state) :
    Recorded slot r new (entryEvents r.state new.state (s.carrierOf slot)) s (s.change slot new 0) where
  changed := Changed.change h new 0
  same heq := by rw [← heq, State.change_same h]
  ort := (frame_change s slot new 0).ort
  conf := (frame_change s slot new 0).conf
  counted := by
    rw [State.carrierOf_rec h, ← changeEvents_mapped hdrop]
    exact CountedAll.change h new 0

theorem Recorded.changeTested {s : State} {slot : Slot} {r : CompRec} (h : s.rec? slot = some r) {new : CompRec}
    (hdrop : DropsOrKeeps r.state new.state) : Recorded slot r (testedRec r new (s.sense slot).presenceIsOff)
      (entryEvents r.state new.state (s.carrierOf slot)) s (s.changeTested slot new) := by
  rw [State.changeTested_eq h]
  unfold testedRec
  split
  · exact (Recorded.change h (new := { new with lost := true }) hdrop).then_ (frame_raise _ _ _)
  · exact .change h hdrop

theorem Recorded.countedFirst {s : State} {slot : Slot} {r new : CompRec} {es : List Event} {k : EventKind} {v : Option Nat}
    {n : Nat} {t : State} (h : Recorded slot r new es (s.count k v n) t) : Recorded slot r new ((k, v, n) :: es) s t where
  changed := h.changed.after (frame_count s k v n)
  same heq := (h.same heq).trans ((frame_count s k v n).storeOf slot)
  ort := h.ort.trans (frame_count s k v n).ort
  conf := h.conf.trans (frame_count s k v n).conf
  counted := (CountedAll.count s k v n).append h.counted (frame_count s k v n)

/-- A unit that waits for the mapped record's write, or answers at once. -/
theorem MappedTo.await {s v : State} {slot : Slot} {r new : CompRec} {u : Waiter} {o : Outcome} (hr : s.rec? slot = some r)
    (h : Recorded slot r new ((.doorCycle, some o.pos, s.carrierOf slot) :: entryEvents r.state new.state (s.carrierOf slot)) s v)
    (hu : u.quoteless = true) (hocc : r = new → ∀ p, r.state ≠ .occupied p) : MappedTo slot r new u o s (v.await slot u) := by
  obtain ⟨hchanged, hsame, hort, -, hcounted⟩ := h
  have hne : r ≠ new → s.rec? slot ≠ some new := fun hno heq => hno (Option.some.inj (hr.symm.trans heq))
  have hwriting : r ≠ new ∨ Writing slot s → Writing slot v := by
    rintro (hno | hw)
    · exact hchanged.writing (hne hno)
    · by_cases heq : r = new
      · exact (Writing.congr (hsame heq)).mpr hw
      · exact hchanged.writing (hne heq)
  refine ⟨?_, fun hno => hchanged.await (hne hno) u, fun heq hw => ?_, fun hw => ?_⟩
  · by_cases hw : Writing slot v
    · exact ((frame_await_writing hw u).rec? slot).trans hchanged.record
    · have heq : r = new := by
        by_contra hno
        exact hw (hwriting (.inl hno))
      rw [State.await_idle hw]
      exact ((RecordsExpire.releaseAnswer v slot hu).stands hchanged.record (by rw [← heq]; exact hocc heq)).1
  · obtain ⟨-, -, hwaits⟩ := State.await_of_writing (hwriting (.inr hw)) u
    exact hwaits.after (hsame heq)
  · have hframe := frame_await_writing (hwriting hw) u
    exact ⟨hframe.ort.trans hort, hcounted.then_ hframe⟩

/-- An answer that waits for nothing is queued, and the SERVICE entry ends. -/
theorem AnsweredAtOnce.await {s v : State} {job : Job} {slot : Slot} {result : ReleaseResult} {ref : BitVec 64}
    (hstore : v.store slot = s.store slot) (htx : v.liu.tx.length ≤ s.liu.tx.length + 1) :
    AnsweredAtOnce job slot result ref s (v.await slot (.releaseDone job result ref)) := by
  intro hidle hkind
  have hno : ¬Writing slot v := fun hw => hidle ((Writing.congr hstore).mp hw)
  have hdone : v.await slot (.releaseDone job result ref)
      = (v.answer job.ticket.station (.releaseDone job.ticket.number slot result ref)).finishEntry job := by
    rw [State.await_idle hno]
    show State.afterRelease _ _ _ = _
    unfold State.afterRelease
    rw [hkind]
  have hfinish := frame_finishEntry (v.answer job.ticket.station (.releaseDone job.ticket.number slot result ref)) job
  rw [hdone]
  refine ⟨State.entry?_finishEntry_same _ _, fun hroom => ?_⟩
  obtain ⟨hqueued, -⟩ := (Answered.answer v (.releaseDone job.ticket.number slot result ref) job.ticket.station).room (by omega)
  rw [hfinish.tx, hqueued]
  exact List.mem_append_right _ (List.mem_singleton_self _)

theorem State.raise_tx_length (s : State) (c : Condition) (slot : Option Slot) :
    (s.raise c slot).liu.tx.length ≤ s.liu.tx.length + 1 := by
  have hplace (f : TxFrame) (q : List TxFrame) : (placeIn f q).queue.length ≤ q.length + 1 := by
    unfold placeIn
    split
    · simp
    · split
      · rw [List.length_eraseIdx]
        split <;> simp
      · exact Nat.le_succ _
  unfold State.raise State.alertIfRisen
  dsimp only
  split
  · split
    exacts [hplace _ _, hplace _ _]
  · exact Nat.le_succ _

/-! ## The mapping of an outcome (Tables 7-3, 10-4 and 10-6) -/

theorem CompRec.storeFaulted_iff {r : CompRec} : r.storeFaulted = true ↔ r.state.cause? = some .store := by
  unfold CompRec.storeFaulted
  exact beq_iff_eq

theorem testedRec_stands {old new : CompRec} {off : Bool} (h : new.state.tag ≠ .occupied ∨ off = false ∨ old.state.tag = .occupied) :
    testedRec old new off = new := by
  unfold testedRec
  refine if_neg fun ⟨hold, hnew, hoff⟩ => ?_
  rcases h with h | h | h
  · exact h hnew
  · rw [h] at hoff
    cases hoff
  · exact hold h

theorem testedRec_self (r : CompRec) (off : Bool) : testedRec r r off = r := by
  unfold testedRec
  exact if_neg fun ⟨hold, hnew, _⟩ => hold hnew

/-- Table 7-3. -/
theorem mapDeposit_table73 {r : CompRec} {t : Ticket} {p : Parcel} {o : Outcome} {on off : Bool} (hr : r.state = .held t (some p))
    (hoff : o = .securedPresent → off = false) :
    Table73 p on o (testedRec r (mapDeposit r o on).1 off) (mapDeposit r o on).2 := by
  have hfault : ¬r.storeFaulted = true := by simp [CompRec.storeFaulted, hr, CompState.cause?]
  have hparcel : r.state.parcel? = some p := by rw [hr]; rfl
  unfold mapDeposit
  rw [if_neg hfault]
  cases o with
  | securedPresent =>
    dsimp only
    rw [hparcel, testedRec_stands (.inr (.inl (hoff rfl)))]
    exact ⟨rfl, rfl⟩
  | securedAbsent =>
    rw [testedRec_stands (.inl (by simp [CompRec.emptied, CompState.tag]))]
    exact ⟨rfl, rfl⟩
  | abandoned =>
    rw [testedRec_stands (.inl (by simp [CompRec.emptied, CompState.tag]))]
    exact ⟨rfl, rfl⟩
  | notOpenedJam =>
    rw [testedRec_stands (.inl (by simp [CompRec.faulted, CompState.tag]))]
    exact ⟨rfl, Bool.and_false _, rfl⟩
  | notOpenedBolt =>
    rw [testedRec_stands (.inl (by simp [CompRec.faulted, CompState.tag]))]
    exact ⟨rfl, Bool.and_false _, rfl⟩
  | latchFault b =>
    refine ⟨(testedRec_state _ _ _).trans ?_, rfl⟩
    rw [hparcel]
    rfl
  | forced =>
    refine ⟨(testedRec_state _ _ _).trans ?_, rfl⟩
    rw [hparcel]
    rfl

theorem reoccupied_eq {r : CompRec} {p : Parcel} (h : r.state.parcel? = some p) :
    r.reoccupied = { state := .occupied p, foreign := false, lost := r.lost } := by
  unfold CompRec.reoccupied
  rw [h]
  rfl

/-- Table 10-4. -/
theorem mapRemoval_table104 {r : CompRec} {p : Parcel} {o : Outcome} {off : Bool}
    (hr : r.state = .releasing p ∨ (o = .forced ∧ r.state = .occupied p)) (hoff : o = .securedPresent → off = false) :
    Table104 p r.lost off o (testedRec r (mapRemoval r o).1 off) (mapRemoval r o).2 := by
  have hparcel : r.state.parcel? = some p := by
    rcases hr with hr | ⟨-, hr⟩ <;> rw [hr] <;> rfl
  have hfault : ¬r.storeFaulted = true := by
    rw [CompRec.storeFaulted_iff]
    rcases hr with hr | ⟨-, hr⟩ <;> rw [hr] <;> intro h <;> cases h
  unfold mapRemoval
  rw [if_neg hfault]
  cases o with
  | securedPresent =>
    dsimp only
    rw [testedRec_stands (.inr (.inl (hoff rfl))), reoccupied_eq hparcel]
    exact ⟨rfl, rfl⟩
  | securedAbsent =>
    rw [testedRec_stands (.inl (by simp [CompRec.emptied, CompState.tag]))]
    exact ⟨rfl, rfl⟩
  | abandoned =>
    have hreleasing : r.state = .releasing p := hr.resolve_right fun ⟨h, _⟩ => by cases h
    dsimp only
    rw [reoccupied_eq hparcel]
    refine ⟨?_, rfl⟩
    unfold testedRec
    cases off
    · simp
    · simp [hreleasing, CompState.tag]
  | notOpenedJam => exact ⟨(testedRec_state _ _ _).trans (by rw [hparcel]; rfl), rfl⟩
  | notOpenedBolt => exact ⟨(testedRec_state _ _ _).trans (by rw [hparcel]; rfl), rfl⟩
  | latchFault b => exact ⟨(testedRec_state _ _ _).trans (by rw [hparcel]; rfl), rfl⟩
  | forced => exact ⟨(testedRec_state _ _ _).trans (by rw [hparcel]; rfl), rfl⟩

/-- Table 10-6 for a compartment EMPTY at the start: no mapping leads into OCCUPIED. -/
theorem mapServiceEmpty_table106 (r : CompRec) (o : Outcome) (on off : Bool) :
    Table106Empty on o (testedRec r (mapServiceEmpty r o on).record off) (mapServiceEmpty r o on).result := by
  have hstands : testedRec r (mapServiceEmpty r o on).record off = (mapServiceEmpty r o on).record :=
    testedRec_stands (.inl (by cases o <;> simp [mapServiceEmpty, CompRec.emptied, CompRec.faulted, CompState.tag]))
  rw [hstands]
  cases o <;> exact ⟨rfl, rfl⟩

/-- Table 10-6 for a compartment in FAULT at the start. -/
theorem mapServiceFault_table106 {r : CompRec} {k : FaultCause} {p : Option Parcel} (hr : r.state = .fault k p) (o : Outcome)
    (off : Bool) : Table106Fault r k p o (testedRec r (mapServiceFault r o).record off) (mapServiceFault r o).result := by
  have hparcel : r.state.parcel? = p := by rw [hr]; rfl
  have hwithout : r.withoutParcel = r.faulted k none := by
    unfold CompRec.withoutParcel
    rw [hr]
  cases o with
  | securedPresent => exact ⟨testedRec_self r off, by simp [mapServiceFault, openedResult, hparcel]⟩
  | securedAbsent =>
    refine ⟨(testedRec_state _ _ _).trans ?_, by simp [mapServiceFault, openedResult, hparcel]⟩
    show r.withoutParcel.state = _
    rw [hwithout]
    rfl
  | abandoned => exact ⟨testedRec_self r off, rfl⟩
  | forced => exact ⟨testedRec_self r off, rfl⟩
  | notOpenedJam => exact ⟨(testedRec_state _ _ _).trans (by rw [← hparcel]; rfl), rfl⟩
  | notOpenedBolt => exact ⟨(testedRec_state _ _ _).trans (by rw [← hparcel]; rfl), rfl⟩
  | latchFault b => exact ⟨(testedRec_state _ _ _).trans (by rw [← hparcel]; rfl), rfl⟩

/-! ## A returned outcome -/

theorem CompState.cause?_of_occupied {c : CompState} (h : c.tag = .occupied) : c.cause? = none := by
  cases c with
  | occupied => rfl
  | _ => cases h

section Mapping

variable {s : State} {slot : Slot} {r : CompRec} {o : Outcome}

/-- The state after the DOOR_CYCLE event and the tested change. -/
def State.mapped (slot : Slot) (o : Outcome) (m : CompRec) (s : State) : State :=
  (s.count .doorCycle (some o.pos) (s.carrierOf slot)).changeTested slot m

theorem Recorded.mapped (hr : s.rec? slot = some r) {m : CompRec} (hdrop : DropsOrKeeps r.state m.state) :
    Recorded slot r (testedRec r m (s.sense slot).presenceIsOff) ((.doorCycle, some o.pos, s.carrierOf slot)
      :: entryEvents r.state (testedRec r m (s.sense slot).presenceIsOff).state (s.carrierOf slot)) s (s.mapped slot o m) := by
  have hcount := frame_count s .doorCycle (some o.pos) (s.carrierOf slot)
  have htested := Recorded.changeTested (s := s.count .doorCycle (some o.pos) (s.carrierOf slot)) ((hcount.rec? slot).trans hr) hdrop
  rw [hcount.sense, hcount.carrierOf] at htested
  rw [testedRec_state]
  exact htested.countedFirst

theorem MappedTo.mapped (hr : s.rec? slot = some r) {m : CompRec} (hdrop : DropsOrKeeps r.state m.state) {u : Waiter}
    (hu : u.quoteless = true) (hocc : (∀ p, r.state ≠ .occupied p) ∨ m.state.tag ≠ .occupied) :
    MappedTo slot r (testedRec r m (s.sense slot).presenceIsOff) u o s ((s.mapped slot o m).await slot u) := by
  refine .await hr (.mapped hr hdrop) hu fun heq p hp => ?_
  rcases hocc with hno | hno
  · exact hno p hp
  · refine hno ?_
    rw [← testedRec_state r m (s.sense slot).presenceIsOff, ← heq, hp]
    rfl

/-- An entry into FAULT by a mapping, or another cause there, raises its condition (R10). -/
theorem Raised.mapped (hr : s.rec? slot = some r) {m : CompRec} {k : FaultCause} {q : Option Parcel} (hm : m.state = .fault k q)
    (hold : r.state.cause? ≠ some k) : Raised k.condition (some slot) s (s.mapped slot o m) := by
  have hcount := frame_count s .doorCycle (some o.pos) (s.carrierOf slot)
  have hrec : (s.count .doorCycle (some o.pos) (s.carrierOf slot)).rec? slot = some r := (hcount.rec? slot).trans hr
  unfold State.mapped
  rw [State.changeTested_eq hrec, if_neg fun ⟨_, h, _⟩ => by rw [hm] at h; cases h]
  exact (Raised.change hrec (by rw [hm]; rfl) hold 0).after (.of_frame hcount)

/-- OCCUPIED again with presence off raises PRESENCE_LOST (R38). -/
theorem Raised.mapped_lost (hr : s.rec? slot = some r) {m : CompRec} (hold : r.state.tag ≠ .occupied) (hm : m.state.tag = .occupied)
    (hoff : (s.sense slot).presenceIsOff = true) : Raised .presenceLost (some slot) s (s.mapped slot o m) := by
  have hcount := frame_count s .doorCycle (some o.pos) (s.carrierOf slot)
  have hrec : (s.count .doorCycle (some o.pos) (s.carrierOf slot)).rec? slot = some r := (hcount.rec? slot).trans hr
  have hcause : { m with lost := true }.state.cause? = none := CompState.cause?_of_occupied hm
  unfold State.mapped
  rw [State.changeTested_eq hrec, if_pos ⟨hold, hm, by rwa [hcount.sense]⟩]
  exact (Raised.raise _ _ _).after (.of_frame (hcount.seq (frame_change_causeless _ slot 0 hcause)
    (rs := [.records, .store, .counters, .free])))

/-- A mapping that changes nothing queues nothing. -/
theorem State.mapped_same (hr : s.rec? slot = some r) : s.mapped slot o r = s.count .doorCycle (some o.pos) (s.carrierOf slot) := by
  have hrec : (s.count .doorCycle (some o.pos) (s.carrierOf slot)).rec? slot = some r :=
    ((frame_count s _ _ _).rec? slot).trans hr
  unfold State.mapped
  rw [State.changeTested_eq hrec, if_neg fun ⟨hold, hnew, _⟩ => hold hnew, State.change_same hrec]

end Mapping

/-! ## The outcome by its kind -/

section Kinds

variable {s : State} {x : Returned} {o : Outcome} {r : CompRec}

theorem State.returnOutcome_deposit (hx : x.failedCheck = none) (hk : x.kind = .deposit) (hr : s.rec? x.slot = some r) :
    s.returnOutcome x o = (s.mapped x.slot o (mapDeposit r o (s.sense x.slot).presenceIsOn).1).await x.slot
      (.placeDone x.job.ticket (mapDeposit r o (s.sense x.slot).presenceIsOn).2) := by
  have hcount := frame_count s .doorCycle (some o.pos) (s.carrierOf x.slot)
  unfold State.returnOutcome
  dsimp only
  rw [hx, hk]
  dsimp only
  unfold State.depositOutcome
  rw [hcount.rec?, hr]
  dsimp only
  rw [hcount.sense]
  rfl

theorem State.returnOutcome_removal (hx : x.failedCheck = none) (hk : x.kind = .collect ∨ x.kind = .sweep)
    (hr : s.rec? x.slot = some r) : s.returnOutcome x o
      = (s.mapped x.slot o (mapRemoval r o).1).await x.slot (.releaseDone x.job (mapRemoval r o).2 x.ref) := by
  have hcount := frame_count s .doorCycle (some o.pos) (s.carrierOf x.slot)
  have hremoval : s.returnOutcome x o = (s.count .doorCycle (some o.pos) (s.carrierOf x.slot)).removalOutcome x o := by
    unfold State.returnOutcome
    dsimp only
    rw [hx]
    rcases hk with hk | hk <;> rw [hk]
  rw [hremoval]
  unfold State.removalOutcome
  rw [hcount.rec?, hr]
  rfl

/-- The state in which a service opening's answer waits. -/
def State.serviced (slot : Slot) (o : Outcome) (m : ServiceMapping) (s : State) : State :=
  if m.raiseForeign then (s.mapped slot o m.record).raise .foreign (some slot) else s.mapped slot o m.record

theorem State.returnOutcome_service (hx : x.failedCheck = none) (hk : x.kind = .service) (hr : s.rec? x.slot = some r) :
    s.returnOutcome x o = (s.serviced x.slot o (mapService x.startState r o (s.sense x.slot).presenceIsOn)).await x.slot
      (.releaseDone x.job (mapService x.startState r o (s.sense x.slot).presenceIsOn).result x.ref) := by
  have hcount := frame_count s .doorCycle (some o.pos) (s.carrierOf x.slot)
  unfold State.returnOutcome
  dsimp only
  rw [hx, hk]
  dsimp only
  unfold State.serviceOutcome
  rw [hcount.rec?, hr]
  dsimp only
  rw [hcount.sense]
  rfl

theorem frame_serviced_after (slot : Slot) (m : ServiceMapping) :
    UnchangedBut [.conditions, .transmit] (s.mapped slot o m.record) (s.serviced slot o m) := by
  unfold State.serviced
  split
  exacts [frame_raise _ _ _, .refl _ _]

theorem MappedTo.serviced {slot : Slot} (hr : s.rec? slot = some r) {m : ServiceMapping} (hdrop : DropsOrKeeps r.state m.record.state)
    {u : Waiter} (hu : u.quoteless = true) (hocc : (∀ p, r.state ≠ .occupied p) ∨ m.record.state.tag ≠ .occupied) :
    MappedTo slot r (testedRec r m.record (s.sense slot).presenceIsOff) u o s ((s.serviced slot o m).await slot u) := by
  refine .await hr ((Recorded.mapped hr hdrop).then_ (frame_serviced_after slot m)) hu fun heq p hp => ?_
  rcases hocc with hno | hno
  · exact hno p hp
  · refine hno ?_
    rw [← testedRec_state r m.record (s.sense slot).presenceIsOff, ← heq, hp]
    rfl

/-- A service opening that leaves its record is answered at once where nothing is being written. -/
theorem AnsweredAtOnce.serviced {slot : Slot} {job : Job} {result : ReleaseResult} {ref : BitVec 64} (hr : s.rec? slot = some r)
    {m : ServiceMapping} (hsame : m.record = r) :
    AnsweredAtOnce job slot result ref s ((s.serviced slot o m).await slot (.releaseDone job result ref)) := by
  have hcount := frame_count s .doorCycle (some o.pos) (s.carrierOf slot)
  have hmapped : s.mapped slot o m.record = s.count .doorCycle (some o.pos) (s.carrierOf slot) := by
    rw [hsame]
    exact State.mapped_same hr
  refine .await (((frame_serviced_after slot m).storeOf slot).trans (by rw [hmapped]; exact hcount.storeOf slot)) ?_
  unfold State.serviced
  rw [hmapped]
  split
  · exact State.raise_tx_length _ _ _
  · exact Nat.le_succ _

/-- The reading of an outcome's table asks of presence only that a parcel found present is not sampled off. -/
def SampleAgrees (o : Outcome) (slot : Slot) (s : State) : Prop := o = .securedPresent → (s.sense slot).presenceIsOff = false

theorem OutcomeMapped.deposit (hx : x.failedCheck = none) (hk : x.kind = .deposit) (hr : s.rec? x.slot = some r)
    (ho : SampleAgrees o x.slot s) {p : Parcel} (hheld : r.state = .held x.job.ticket (some p)) :
    ∃ new result, Table73 p (s.sense x.slot).presenceIsOn o new result
      ∧ MappedTo x.slot r new (.placeDone x.job.ticket result) o s (s.returnOutcome x o)
      ∧ (∀ k q, new.state = .fault k q → Raised k.condition (some x.slot) s (s.returnOutcome x o)) := by
  rw [State.returnOutcome_deposit hx hk hr]
  refine ⟨_, _, mapDeposit_table73 hheld ho, .mapped hr (mapDeposit_dropsOrKeeps _ _ _) rfl (.inl (by simp [hheld])), fun k q hq => ?_⟩
  rw [testedRec_state] at hq
  exact (Raised.mapped hr hq (by simp [hheld, CompState.cause?])).then_ (.await _ _ rfl)

/-- The removal's mapping, for the kinds that use Table 10-4. -/
theorem mapRemoval_spec {slot : Slot} {job : Job} {ref : BitVec 64} (hr : s.rec? slot = some r) (ho : SampleAgrees o slot s)
    {p : Parcel} (hp : r.state = .releasing p ∨ (o = .forced ∧ r.state = .occupied p)) :
    ∃ new result, Table104 p r.lost (s.sense slot).presenceIsOff o new result ∧ result = (mapRemoval r o).2
      ∧ MappedTo slot r new (.releaseDone job result ref) o s
          ((s.mapped slot o (mapRemoval r o).1).await slot (.releaseDone job result ref))
      ∧ (o = .abandoned → (s.sense slot).presenceIsOff = true → Raised .presenceLost (some slot) s
          ((s.mapped slot o (mapRemoval r o).1).await slot (.releaseDone job result ref)))
      ∧ (∀ k q, new.state = .fault k q → Raised k.condition (some slot) s
          ((s.mapped slot o (mapRemoval r o).1).await slot (.releaseDone job result ref))) := by
  have hcause : r.state.cause? = none := by
    rcases hp with hp | ⟨-, hp⟩ <;> rw [hp] <;> rfl
  have hnot : ¬r.storeFaulted = true := by
    rw [CompRec.storeFaulted_iff, hcause]
    intro h
    cases h
  refine ⟨_, _, mapRemoval_table104 hp ho, rfl, .mapped hr (mapRemoval_dropsOrKeeps _ _) rfl ?_, fun habandoned hoff => ?_,
    fun k q hq => ?_⟩
  · rcases hp with hp | ⟨rfl, hp⟩
    · exact .inl (by simp [hp])
    · refine .inr ?_
      unfold mapRemoval
      rw [if_neg hnot]
      simp [CompRec.faulted, CompState.tag]
  · have hreleasing : r.state = .releasing p := hp.resolve_right fun ⟨h, _⟩ => by rw [habandoned] at h; cases h
    have hmapped : (mapRemoval r o).1 = { state := .occupied p, foreign := false, lost := r.lost } := by
      unfold mapRemoval
      rw [if_neg hnot, habandoned]
      exact reoccupied_eq (by rw [hreleasing]; rfl)
    exact (Raised.mapped_lost hr (by simp [hreleasing, CompState.tag]) (by rw [hmapped]; rfl) hoff).then_ (.await _ _ rfl)
  · rw [testedRec_state] at hq
    exact (Raised.mapped hr hq (by simp [hcause])).then_ (.await _ _ rfl)

theorem OutcomeMapped.removal (hx : x.failedCheck = none) (hr : s.rec? x.slot = some r) (ho : SampleAgrees o x.slot s) {p : Parcel}
    (hk : x.kind = .collect ∨ x.kind = .sweep ∨ (x.kind = .service ∧ x.startState = .occupied))
    (hp : r.state = .releasing p ∨ (o = .forced ∧ r.state = .occupied p)) :
    ∃ new result, Table104 p r.lost (s.sense x.slot).presenceIsOff o new result
      ∧ MappedTo x.slot r new (.releaseDone x.job result x.ref) o s (s.returnOutcome x o)
      ∧ (o = .abandoned → (s.sense x.slot).presenceIsOff = true → Raised .presenceLost (some x.slot) s (s.returnOutcome x o))
      ∧ (∀ k q, new.state = .fault k q → Raised k.condition (some x.slot) s (s.returnOutcome x o)) := by
  obtain ⟨new, result, htable, rfl, hmapped, hlost, hraised⟩ := mapRemoval_spec (job := x.job) (ref := x.ref) hr ho hp
  have heq : s.returnOutcome x o
      = (s.mapped x.slot o (mapRemoval r o).1).await x.slot (.releaseDone x.job (mapRemoval r o).2 x.ref) := by
    rcases hk with hk | hk | ⟨hk, hstart⟩
    · exact State.returnOutcome_removal hx (.inl hk) hr
    · exact State.returnOutcome_removal hx (.inr hk) hr
    · have hnot : ¬r.storeFaulted = true := by
        rw [CompRec.storeFaulted_iff]
        rcases hp with hp | ⟨-, hp⟩ <;> rw [hp] <;> intro h <;> cases h
      have hservice : mapService x.startState r o (s.sense x.slot).presenceIsOn
          = { record := (mapRemoval r o).1, result := (mapRemoval r o).2, raiseForeign := false } := by
        unfold mapService
        rw [if_neg hnot, hstart]
      rw [State.returnOutcome_service hx hk hr, hservice]
      rfl
  rw [heq]
  exact ⟨new, _, htable, hmapped, hlost, hraised⟩

theorem OutcomeMapped.serviceEmpty (hx : x.failedCheck = none) (hk : x.kind = .service) (hstart : x.startState = .empty)
    (hr : s.rec? x.slot = some r) (hempty : r.state = .empty) :
    ∃ new result, Table106Empty (s.sense x.slot).presenceIsOn o new result
      ∧ MappedTo x.slot r new (.releaseDone x.job result x.ref) o s (s.returnOutcome x o)
      ∧ (r = new → AnsweredAtOnce x.job x.slot result x.ref s (s.returnOutcome x o))
      ∧ (o = .securedPresent → Raised .foreign (some x.slot) s (s.returnOutcome x o))
      ∧ (∀ k q, new.state = .fault k q → Raised k.condition (some x.slot) s (s.returnOutcome x o)) := by
  have hnot : ¬r.storeFaulted = true := by
    rw [CompRec.storeFaulted_iff, hempty]
    intro h
    cases h
  have hservice : mapService x.startState r o (s.sense x.slot).presenceIsOn = mapServiceEmpty r o (s.sense x.slot).presenceIsOn := by
    unfold mapService
    rw [if_neg hnot, hstart]
  have hdrop : DropsOrKeeps r.state (mapServiceEmpty r o (s.sense x.slot).presenceIsOn).record.state := by
    rw [← hservice]
    exact mapService_dropsOrKeeps _ _ _ _
  have hstands : testedRec r (mapServiceEmpty r o (s.sense x.slot).presenceIsOn).record (s.sense x.slot).presenceIsOff
      = (mapServiceEmpty r o (s.sense x.slot).presenceIsOn).record :=
    testedRec_stands (.inl (by cases o <;> simp [mapServiceEmpty, CompRec.emptied, CompRec.faulted, CompState.tag]))
  rw [State.returnOutcome_service hx hk hr, hservice]
  refine ⟨_, _, mapServiceEmpty_table106 r o _ _, .serviced hr hdrop rfl (.inl (by simp [hempty])), fun hsame => ?_, fun hpresent => ?_,
    fun k q hq => ?_⟩
  · exact .serviced hr (hstands.symm.trans hsame.symm)
  · subst hpresent
    refine Raised.then_ ?_ (.await _ _ rfl)
    have hquiet : UnchangedBut [.records, .store, .counters, .free] s
        (s.mapped x.slot .securedPresent (CompRec.emptied true)) := by
      have hcount := frame_count s .doorCycle (some Outcome.securedPresent.pos) (s.carrierOf x.slot)
      unfold State.mapped
      rw [State.changeTested_eq ((hcount.rec? x.slot).trans hr), if_neg fun ⟨_, h, _⟩ => by cases h]
      exact hcount.seq (frame_change_causeless _ x.slot 0 rfl)
    exact (Raised.raise _ _ _).after (.of_frame hquiet)
  · rw [testedRec_state] at hq
    have hraise : (mapServiceEmpty r o (s.sense x.slot).presenceIsOn).raiseForeign = false := by
      cases o with
      | securedPresent => cases hq
      | _ => rfl
    unfold State.serviced
    rw [hraise]
    exact (Raised.mapped hr hq (by simp [hempty, CompState.cause?])).then_ (.await _ _ rfl)

theorem OutcomeMapped.serviceFault (hx : x.failedCheck = none) (hk : x.kind = .service) (hstart : x.startState = .fault)
    (hr : s.rec? x.slot = some r) (hnot : r.storeFaulted = false) {k : FaultCause} {p : Option Parcel} (hfault : r.state = .fault k p) :
    ∃ new result, Table106Fault r k p o new result
      ∧ MappedTo x.slot r new (.releaseDone x.job result x.ref) o s (s.returnOutcome x o)
      ∧ (r = new → AnsweredAtOnce x.job x.slot result x.ref s (s.returnOutcome x o))
      ∧ (∀ j q, new.state = .fault j q → j ≠ k → Raised j.condition (some x.slot) s (s.returnOutcome x o)) := by
  have hservice : mapService x.startState r o (s.sense x.slot).presenceIsOn = mapServiceFault r o := by
    unfold mapService
    rw [if_neg (by simp [hnot]), hstart]
  have htag : (mapServiceFault r o).record.state.tag ≠ .occupied := by
    have hwithout : r.withoutParcel = r.faulted k none := by
      unfold CompRec.withoutParcel
      rw [hfault]
    cases o <;> simp [mapServiceFault, hwithout, hfault, CompRec.faulted, CompState.tag]
  have hstands : testedRec r (mapServiceFault r o).record (s.sense x.slot).presenceIsOff = (mapServiceFault r o).record :=
    testedRec_stands (.inl htag)
  rw [State.returnOutcome_service hx hk hr, hservice]
  refine ⟨_, _, mapServiceFault_table106 hfault o _, .serviced hr (mapServiceFault_dropsOrKeeps _ _) rfl (.inl (by simp [hfault])),
    fun hsame => .serviced hr (hstands.symm.trans hsame.symm), fun j q hq hj => ?_⟩
  rw [testedRec_state] at hq
  have hraise : (mapServiceFault r o).raiseForeign = false := by cases o <;> rfl
  unfold State.serviced
  rw [hraise]
  refine (Raised.mapped hr hq ?_).then_ (.await _ _ rfl)
  rw [hfault]
  exact fun h => hj (Option.some.inj h).symm

/-- A compartment in FAULT(STORE) stays so, and the answer is FAULT (R17). -/
theorem OutcomeMapped.storeFault (hx : x.failedCheck = none) (hr : s.rec? x.slot = some r) (hfault : r.storeFaulted = true) :
    (x.kind = .deposit → MappedTo x.slot r r (.placeDone x.job.ticket .fault) o s (s.returnOutcome x o))
      ∧ (x.kind ≠ .deposit → MappedTo x.slot r r (.releaseDone x.job .fault x.ref) o s (s.returnOutcome x o)
        ∧ AnsweredAtOnce x.job x.slot .fault x.ref s (s.returnOutcome x o)) := by
  have hocc : ∀ p, r.state ≠ .occupied p := fun p hp => by
    rw [CompRec.storeFaulted_iff, hp] at hfault
    cases hfault
  have hself := testedRec_self r (s.sense x.slot).presenceIsOff
  have hmapped {u : Waiter} (hu : u.quoteless = true) : MappedTo x.slot r r u o s ((s.mapped x.slot o r).await x.slot u) := by
    have h := MappedTo.mapped (o := o) hr (m := r) (.inr rfl) hu (.inl hocc)
    rwa [hself] at h
  refine ⟨fun hk => ?_, fun hk => ?_⟩
  · have hmap : mapDeposit r o (s.sense x.slot).presenceIsOn = (r, .fault) := if_pos hfault
    rw [State.returnOutcome_deposit hx hk hr, hmap]
    exact hmapped rfl
  · have heq : s.returnOutcome x o = (s.mapped x.slot o r).await x.slot (.releaseDone x.job .fault x.ref) := by
      have hremoval : mapRemoval r o = (r, .fault) := if_pos hfault
      have hservice : mapService x.startState r o (s.sense x.slot).presenceIsOn
          = { record := r, result := .fault, raiseForeign := false } := if_pos hfault
      cases hkind : x.kind with
      | deposit => exact absurd hkind hk
      | collect => rw [State.returnOutcome_removal hx (.inl hkind) hr, hremoval]
      | sweep => rw [State.returnOutcome_removal hx (.inr hkind) hr, hremoval]
      | service =>
        rw [State.returnOutcome_service hx hkind hr, hservice]
        rfl
    rw [heq]
    have hcount := frame_count s .doorCycle (some o.pos) (s.carrierOf x.slot)
    refine ⟨hmapped rfl, ?_⟩
    rw [State.mapped_same hr]
    exact .await (hcount.storeOf x.slot) (by rw [hcount.tx]; exact Nat.le_succ _)

/-- A returned outcome is mapped by the table of its kind and job. -/
theorem OutcomeMapped.returned (hx : x.failedCheck = none) (ho : SampleAgrees o x.slot s) :
    OutcomeMapped x.slot x.kind x.job x.ref x.startState o s (s.returnOutcome x o) := fun _ hr =>
  ⟨fun hnot => ⟨fun _ hk hheld => OutcomeMapped.deposit hx hk hr ho hheld, fun _ hk hp => OutcomeMapped.removal hx hr ho hk hp,
      fun hk hstart hempty => OutcomeMapped.serviceEmpty hx hk hstart hr hempty,
      fun _ _ hk hstart hfault => OutcomeMapped.serviceFault hx hk hstart hr hnot hfault⟩,
    OutcomeMapped.storeFault hx hr⟩

end Kinds

/-! ## An outcome returned after a cycle is freed -/

/-- What an outcome's mapping reads of the state before it: presence at the slot, and room in the transmit queue. -/
structure ReadsAlike (slot : Slot) (s u : State) : Prop where
  presence : (u.sense slot).presence = (s.sense slot).presence
  tx : u.liu.tx.length ≤ s.liu.tx.length

theorem ReadsAlike.on {slot : Slot} {s u : State} (h : ReadsAlike slot s u) :
    (u.sense slot).presenceIsOn = (s.sense slot).presenceIsOn := by
  unfold Sense.presenceIsOn
  rw [h.presence]

theorem ReadsAlike.off {slot : Slot} {s u : State} (h : ReadsAlike slot s u) :
    (u.sense slot).presenceIsOff = (s.sense slot).presenceIsOff := by
  unfold Sense.presenceIsOff
  rw [h.presence]

theorem ReadsAlike.of_frame {slot : Slot} {ps : List Part} {s u : State} (h : UnchangedBut ps s u)
    (hs : Part.sensing ∉ ps := by decide) (ht : Part.transmit ∉ ps := by decide) : ReadsAlike slot s u :=
  ⟨by rw [h.sense slot hs], by rw [h.tx ht]⟩

theorem ReadsAlike.trans {slot : Slot} {s u v : State} (h : ReadsAlike slot s u) (k : ReadsAlike slot u v) : ReadsAlike slot s v :=
  ⟨k.presence.trans h.presence, k.tx.trans h.tx⟩

section After

variable {ps : List Part} {slot : Slot} {s u t : State}

theorem MappedTo.after {r new : CompRec} {w : Waiter} {o : Outcome} (k : UnchangedBut ps s u) (h : MappedTo slot r new w o u t)
    (hr : Part.records ∉ ps := by decide) (hs : Part.store ∉ ps := by decide) (ho : Part.requests ∉ ps := by decide)
    (hf : Part.config ∉ ps := by decide) (hc : Part.counters ∉ ps := by decide) : MappedTo slot r new w o s t := by
  obtain ⟨hrecord, hchange, hwaits, hpending⟩ := h
  have hwriting := Writing.congr (k.storeOf slot hs)
  refine ⟨hrecord, fun hne => (hchange hne).after k hr hs, fun heq hw => (hwaits heq (hwriting.mpr hw)).after (k.storeOf slot hs),
    fun hp => ?_⟩
  obtain ⟨hort, hcounted⟩ := hpending (hp.imp_right hwriting.mpr)
  rw [k.carrierOf slot hr] at hcounted
  exact ⟨hort.trans (k.ort ho), hcounted.after k hf hc⟩

theorem AnsweredAtOnce.after {job : Job} {result : ReleaseResult} {ref : BitVec 64} (k : UnchangedBut ps s u)
    (htx : u.liu.tx.length ≤ s.liu.tx.length) (h : AnsweredAtOnce job slot result ref u t) (hs : Part.store ∉ ps := by decide) :
    AnsweredAtOnce job slot result ref s t := by
  intro hidle hkind
  obtain ⟨hentry, hframe⟩ := h (fun hw => hidle ((Writing.congr (k.storeOf slot hs)).mp hw)) hkind
  exact ⟨hentry, fun hroom => hframe (by omega)⟩

theorem OutcomeMapped.after {kind : DoorKind} {job : Job} {ref : BitVec 64} {start : StartState} {o : Outcome}
    (k : UnchangedBut ps s u) (hread : ReadsAlike slot s u) (h : OutcomeMapped slot kind job ref start o u t)
    (hr : Part.records ∉ ps := by decide) (hs : Part.store ∉ ps := by decide) (ho : Part.requests ∉ ps := by decide)
    (hf : Part.config ∉ ps := by decide) (hc : Part.counters ∉ ps := by decide) (hd : Part.conditions ∉ ps := by decide) :
    OutcomeMapped slot kind job ref start o s t := by
  intro r hrec
  have hsame : AtMostDiscard s u := .of_frame k hd
  obtain ⟨hsound, hfault⟩ := h r ((k.rec? slot hr).trans hrec)
  rw [hread.on, hread.off] at hsound
  refine ⟨fun hnot => ?_, fun hstore => ?_⟩
  · obtain ⟨hdeposit, hremoval, hempty, hinFault⟩ := hsound hnot
    refine ⟨fun p hk hp => ?_, fun p hk hp => ?_, fun hk hstart hp => ?_, fun c p hk hstart hp => ?_⟩
    · obtain ⟨new, result, htable, hmapped, hraised⟩ := hdeposit p hk hp
      exact ⟨new, result, htable, hmapped.after k hr hs ho hf hc, fun c q hq => (hraised c q hq).after hsame⟩
    · obtain ⟨new, result, htable, hmapped, hlost, hraised⟩ := hremoval p hk hp
      exact ⟨new, result, htable, hmapped.after k hr hs ho hf hc, fun ha hoff => (hlost ha hoff).after hsame,
        fun c q hq => (hraised c q hq).after hsame⟩
    · obtain ⟨new, result, htable, hmapped, honce, hforeign, hraised⟩ := hempty hk hstart hp
      exact ⟨new, result, htable, hmapped.after k hr hs ho hf hc, fun heq => (honce heq).after k hread.tx hs,
        fun ha => (hforeign ha).after hsame, fun c q hq => (hraised c q hq).after hsame⟩
    · obtain ⟨new, result, htable, hmapped, honce, hraised⟩ := hinFault c p hk hstart hp
      exact ⟨new, result, htable, hmapped.after k hr hs ho hf hc, fun heq => (honce heq).after k hread.tx hs,
        fun j q hq hj => (hraised j q hq hj).after hsame⟩
  · obtain ⟨hdeposit, hother⟩ := hfault hstore
    refine ⟨fun hk => (hdeposit hk).after k hr hs ho hf hc, fun hk => ?_⟩
    obtain ⟨hmapped, honce⟩ := hother hk
    exact ⟨hmapped.after k hr hs ho hf hc, honce.after k hread.tx hs⟩

end After

/-! ## The end of a cycle (R54) -/

theorem frame_freeCycle_sense (s : State) (slot i : Slot) : ((s.freeCycle slot).sense i).presence = (s.sense i).presence := by
  have hbefore : UnchangedBut [.doors, .note, .outputs, .transmit] s (((s.setDsq { s.dsq with
      cycles := s.dsq.cycles.filter (fun d => d.slot != slot)
      order := s.dsq.order.filter (fun x => x != slot) }).setLamp slot false).noteCycleEnded slot) :=
    ((frame_setDsq s _).seq (frame_setLamp _ _ _) (rs := [.doors, .outputs])).seq (frame_noteCycleEnded _ _)
  unfold State.freeCycle
  by_cases hi : i = slot
  · subst hi
    obtain ⟨idle, hidle⟩ := State.refreshIdle_sense_same (((s.setDsq { s.dsq with
      cycles := s.dsq.cycles.filter (fun d => d.slot != i)
      order := s.dsq.order.filter (fun x => x != i) }).setLamp i false).noteCycleEnded i) i
    dsimp only
    rw [hidle, ← hbefore.sense i]
  · dsimp only
    rw [State.refreshIdle_sense_ne _ hi, hbefore.sense]

theorem State.noteCycleEnded_tx (s : State) (slot : Slot) : (s.noteCycleEnded slot).liu.tx.length ≤ s.liu.tx.length := by
  unfold State.noteCycleEnded
  split
  · split
    · exact Nat.le_of_eq rfl
    · exact Nat.le_of_eq rfl
  · split
    · split
      · exact Nat.le_of_eq rfl
      · exact List.length_filter_le _ _
    · exact Nat.le_of_eq rfl
  · exact Nat.le_of_eq rfl

theorem ReadsAlike.freeCycle (s : State) (slot i : Slot) : ReadsAlike i s (s.freeCycle slot) where
  presence := frame_freeCycle_sense s slot i
  tx := by
    have hbefore : UnchangedBut [.doors, .outputs] s ((s.setDsq { s.dsq with
        cycles := s.dsq.cycles.filter (fun d => d.slot != slot)
        order := s.dsq.order.filter (fun x => x != slot) }).setLamp slot false) := (frame_setDsq s _).seq (frame_setLamp _ _ _)
    have hafter := State.noteCycleEnded_tx ((s.setDsq { s.dsq with
        cycles := s.dsq.cycles.filter (fun d => d.slot != slot)
        order := s.dsq.order.filter (fun x => x != slot) }).setLamp slot false) slot
    rw [hbefore.tx] at hafter
    unfold State.freeCycle
    dsimp only
    rw [(frame_refreshIdle _ slot).tx]
    exact hafter

theorem State.setLamp_demand_same (s : State) (slot : Slot) (on : Bool) : tget (s.setLamp slot on).out.lampDemand slot = on := by
  simp only [State.setLamp, State.refreshOutputs, State.setOut_out, tget_tset_same]

theorem State.setLamp_demand_ne (s : State) {slot i : Slot} (on : Bool) (h : i ≠ slot) :
    tget (s.setLamp slot on).out.lampDemand i = tget s.out.lampDemand i := by
  simp only [State.setLamp, State.refreshOutputs, State.setOut_out]
  exact tget_tset_ne _ _ h.symm

theorem CycleGone.freeCycle (s : State) (slot : Slot) : CycleGone slot s (s.freeCycle slot) := by
  have hout : (s.freeCycle slot).out = ((s.setDsq { s.dsq with
      cycles := s.dsq.cycles.filter (fun d => d.slot != slot)
      order := s.dsq.order.filter (fun x => x != slot) }).setLamp slot false).out :=
    ((frame_noteCycleEnded _ slot).seq (frame_refreshIdle _ slot) (rs := [.sensing, .note, .transmit])).out
  have hdoors : (s.freeCycle slot).dsq = { s.dsq with
      cycles := s.dsq.cycles.filter (fun d => d.slot != slot)
      order := s.dsq.order.filter (fun x => x != slot) } :=
    (((frame_setLamp _ slot false).seq (frame_noteCycleEnded _ slot) (rs := [.note, .outputs, .transmit])).seq
      (frame_refreshIdle _ slot) (rs := [.sensing, .note, .outputs, .transmit])).dsq
  refine ⟨by rw [hdoors], by rw [hdoors], by rw [hdoors], ?_, fun i hi => ?_⟩
  · rw [hout]
    exact State.setLamp_demand_same _ _ _
  · rw [hout, State.setLamp_demand_ne _ _ hi]
    rfl

theorem CycleGone.then_ {slot : Slot} {ps : List Part} {s t u : State} (h : CycleGone slot s t) (k : UnchangedBut ps t u)
    (hd : Part.doors ∉ ps := by decide) (ho : Part.outputs ∉ ps := by decide) : CycleGone slot s u := by
  obtain ⟨hqueue, hcycles, horder, hlamp⟩ := h
  rw [← k.dsq hd] at hqueue hcycles horder
  rw [← k.out ho] at hlamp
  exact ⟨hqueue, hcycles, horder, hlamp⟩

theorem CycleGone.after {slot : Slot} {ps : List Part} {s t u : State} (k : UnchangedBut ps s t) (h : CycleGone slot t u)
    (hd : Part.doors ∉ ps := by decide) (ho : Part.outputs ∉ ps := by decide) : CycleGone slot s u := by
  obtain ⟨hqueue, hcycles, horder, hlamp⟩ := h
  rw [k.dsq hd] at hqueue hcycles horder
  rw [k.out ho] at hlamp
  exact ⟨hqueue, hcycles, horder, hlamp⟩

/-- A cycle that ends with an outcome is gone, and its outcome mapped. -/
theorem EndMapped.endCycle (s : State) (c : Cycle) {o : Outcome} (ho : SampleAgrees o c.slot s) :
    EndMapped c o endParts s (s.endCycle c o none) := by
  have hfree := frame_freeCycle s c.slot
  have hread := ReadsAlike.freeCycle s c.slot c.slot
  have hreturned : OutcomeMapped c.slot c.kind c.job c.ref c.startState o (s.freeCycle c.slot) (s.endCycle c o none) :=
    OutcomeMapped.returned (x := c.returned none) rfl fun h => hread.off.trans (ho h)
  have hframe : UnchangedBut answerParts (s.freeCycle c.slot) (s.endCycle c o none) := frame_returnOutcome_mapped _ o rfl
  exact ⟨(CycleGone.freeCycle s c.slot).then_ hframe, hreturned.after hfree hread, (frame_endCycle_mapped s c o).wide⟩

end Sys2Proof.Machine
end

