-- ==== Sys2Proof/Proofs/Cycles.lean ====
section
/- One theorem after another: side by side, their proofs ask for more threads than the check's memory limit allows. -/
set_option Elab.async false

/-! SUPPORT and proofs of O26, O51 and O52: the stages of a door cycle and its end (R45 to R54). -/

namespace Sys2Proof.Machine

/-! ## A cycle replaced, and the next attempt -/

theorem State.enterPulseWait_cycle? {s : State} {c d : Cycle} (h : s.cycle? c.slot = some d) : (s.enterPulseWait c).cycle? c.slot
    = some { c with stage := .pulseWait, wait := 0, limit := some (c.limit.getD 0) } := by
  have hset := State.cycle?_setCycle_same (c := { c with stage := .pulseWait, wait := 0, limit := some (c.limit.getD 0) }) h rfl
  exact (State.cycle?_of_cycles rfl _).trans hset

theorem State.enterPulseWait_order (s : State) (c : Cycle) : (s.enterPulseWait c).dsq.order = s.dsq.order ++ [c.slot] := rfl

theorem State.enterPulseWait_queue (s : State) (c : Cycle) : (s.enterPulseWait c).dsq.queue = s.dsq.queue := rfl

/-- A failed attempt that is not the last (R47). -/
theorem State.failAttempt_retry {s : State} {c : Cycle} (h : c.attempt < 3) (hlimit : c.limitReached = false) (f : AttemptFailure) :
    s.failAttempt c f = s.enterPulseWait { c with
      lastFailure := some f, boltReached := false, doorOpened := false, pop := none, attempt := c.attempt + 1 } := by
  refine if_neg ?_
  rintro (hno | hno)
  · exact absurd hno (Nat.not_le.mpr h)
  · have hsame : Cycle.limitReached { c with lastFailure := some f, boltReached := false, doorOpened := false, pop := none }
        = c.limitReached := rfl
    rw [hsame, hlimit] at hno
    cases hno

/-- The last failed attempt ends the cycle (R47). -/
theorem State.failAttempt_last {s : State} {c : Cycle} (h : 3 ≤ c.attempt ∨ c.limitReached = true) (f : AttemptFailure) :
    s.failAttempt c f = s.endCycle { c with lastFailure := some f, boltReached := false, doorOpened := false, pop := none }
      f.outcome none := if_pos h

/-- An end is the end of the cycle as it stood when its slot, kind, job, reference and start stand. -/
theorem EndMapped.of_same {c d : Cycle} {o : Outcome} {ps : List Part} {s t : State} (h : EndMapped d o ps s t)
    (hslot : d.slot = c.slot) (hkind : d.kind = c.kind) (hjob : d.job = c.job) (href : d.ref = c.ref)
    (hstart : d.startState = c.startState) : EndMapped c o ps s t := by
  obtain ⟨hgone, hmapped, hframe⟩ := h
  rw [hslot] at hgone hmapped
  rw [hkind, hjob, href, hstart] at hmapped
  exact ⟨hgone, hmapped, hframe⟩

theorem EndMapped.after {c : Cycle} {o : Outcome} {ps qs rs : List Part} {s u t : State} (k : UnchangedBut ps s u)
    (hread : ReadsAlike c.slot s u) (h : EndMapped c o qs u t) (hp : ∀ p ∈ ps, p ∈ rs := by decide)
    (hq : ∀ p ∈ qs, p ∈ rs := by decide) (hr : Part.records ∉ ps := by decide) (hs : Part.store ∉ ps := by decide)
    (ho : Part.requests ∉ ps := by decide) (hf : Part.config ∉ ps := by decide) (hc : Part.counters ∉ ps := by decide)
    (hd : Part.conditions ∉ ps := by decide) (hdoors : Part.doors ∉ ps := by decide) (hout : Part.outputs ∉ ps := by decide) :
    EndMapped c o rs s t := by
  obtain ⟨hgone, hmapped, hframe⟩ := h
  exact ⟨hgone.after k hdoors hout, hmapped.after k hread hr hs ho hf hc hd, k.seq hframe hp hq⟩

theorem EndMapped.failAttempt {s : State} {c : Cycle} (h : 3 ≤ c.attempt ∨ c.limitReached = true) (f : AttemptFailure) :
    EndMapped c f.outcome endParts s (s.failAttempt c f) := by
  rw [State.failAttempt_last h]
  refine (EndMapped.endCycle s _ ?_).of_same rfl rfl rfl rfl rfl
  intro ho
  cases f <;> cases ho

/-! ## Driver off (R46, R71) -/

theorem exec_driverOff {s : State} {slot : Slot} (h : (tget s.bgu.drivers slot).isSome = true) :
    exec (.driverOff slot) s = .next ((s.setDriver slot none).reportDriverOff slot).conclude :=
  congrArg Host.Outcome.next (if_pos h)

theorem State.reportDriverOff_driving {s : State} {slot : Slot} {c : Cycle} (hc : s.cycle? slot = some c) (h : c.stage = .driving) :
    s.reportDriverOff slot = s.driverOffStage c := by
  unfold State.reportDriverOff
  rw [hc]
  exact if_pos h

theorem State.reportDriverOff_idle {s : State} {slot : Slot} (h : ∀ c, s.cycle? slot = some c → c.stage ≠ .driving) :
    s.reportDriverOff slot = s := by
  unfold State.reportDriverOff
  split
  · rename_i c hc
    exact if_neg (h c hc)
  · rfl

theorem State.driverOffStage_open {s : State} {c : Cycle} (h : (s.sense c.slot).door = some true) :
    s.driverOffStage c = s.setCycle c.toOpened := if_pos h

theorem State.driverOffStage_opened {s : State} {c : Cycle} (h : (s.sense c.slot).door ≠ some true) (hd : c.doorOpened = true) :
    s.driverOffStage c = s.setCycle (c.toClosing (s.sense c.slot).secure) := (if_neg h).trans (if_pos hd)

theorem State.driverOffStage_reached {s : State} {c : Cycle} (h : (s.sense c.slot).door ≠ some true) (hd : c.doorOpened = false)
    (hb : c.boltReached = true) : s.driverOffStage c = s.setCycle { c with stage := .popWait, pop := some 0 } :=
  ((if_neg h).trans (if_neg (by simp [hd]))).trans (if_pos hb)

theorem State.driverOffStage_failed {s : State} {c : Cycle} (h : (s.sense c.slot).door ≠ some true) (hd : c.doorOpened = false)
    (hb : c.boltReached = false) : s.driverOffStage c = s.failAttempt c .bolt :=
  ((if_neg h).trans (if_neg (by simp [hd]))).trans (if_neg (by simp [hb]))

theorem frame_reportDriverOff (s : State) (slot : Slot) : UnchangedBut endParts s (s.reportDriverOff slot) := by
  unfold State.reportDriverOff
  split
  · split
    exacts [frame_driverOffStage s _, .refl _ s]
  · exact .refl _ s

theorem Cycle.toClosing_cases (c : Cycle) (secure : Bool) :
    (secure = false → c.toClosing secure = { c with stage := .closing, ajar := none, settle := none })
      ∧ (secure = true → c.toClosing secure = { c with stage := .settle, ajar := none, settle := some 0, latchFault := false }) := by
  cases secure with
  | false => exact ⟨fun _ => rfl, (fun h => nomatch h)⟩
  | true => exact ⟨(fun h => nomatch h), fun _ => rfl⟩

theorem Cycle.toClosing_slot (c : Cycle) (secure : Bool) : (c.toClosing secure).slot = c.slot := by cases secure <;> rfl

/-- Settles O26: what driver off makes of a cycle in DRIVING. -/
theorem driverOffDecidesTheNextStage : Obligations.DriverOffDecidesTheNextStage := by
  intro s slot hon
  have hoff := frame_setDriver s slot none
  have hreport := frame_reportDriverOff (s.setDriver slot none) slot
  have hdrivers : ((s.setDriver slot none).reportDriverOff slot).bgu.drivers = tset s.bgu.drivers slot none := hreport.drivers
  refine ⟨_, exec_driverOff hon, by rw [hdrivers, tget_tset_same], fun i hi => by rw [hdrivers]; exact tget_tset_ne _ _ hi.symm,
    fun hidle => ?_, fun c hc hstage => ?_⟩
  · rw [State.reportDriverOff_idle (fun c hc => hidle c ((hoff.cycle? slot).symm.trans hc))]
    exact hoff
  · obtain rfl : c.slot = slot := State.cycle?_slot hc
    have hcu : (s.setDriver c.slot none).cycle? c.slot = some c := (hoff.cycle? _).trans hc
    have hsense : (s.setDriver c.slot none).sense c.slot = s.sense c.slot := hoff.sense _
    have hset (d : Cycle) : UnchangedBut [.drivers, .doors] s ((s.setDriver c.slot none).setCycle d) := hoff.seq (frame_setCycle _ d)
    rw [State.reportDriverOff_driving hcu hstage]
    refine ⟨fun hopen => ?_, fun hdoor hopened => ?_, fun hdoor hopened hreached => ?_, fun hdoor hopened hreached hattempt hlimit => ?_,
      fun hdoor hopened hreached hlast => ⟨_, exec_driverOff hon, ?_⟩⟩
    · rw [State.driverOffStage_open (by rwa [hsense])]
      exact ⟨State.cycle?_setCycle_same hcu rfl, hset _⟩
    · rw [State.driverOffStage_opened (by rwa [hsense]) hopened, hsense]
      obtain ⟨hclosing, hsettle⟩ := Cycle.toClosing_cases c (s.sense c.slot).secure
      exact ⟨⟨_, State.cycle?_setCycle_same hcu (Cycle.toClosing_slot _ _), hclosing, hsettle⟩, hset _⟩
    · rw [State.driverOffStage_reached (by rwa [hsense]) hopened hreached]
      exact ⟨State.cycle?_setCycle_same hcu rfl, hset _⟩
    · rw [State.driverOffStage_failed (by rwa [hsense]) hopened hreached, State.failAttempt_retry hattempt hlimit]
      exact ⟨⟨_, State.enterPulseWait_cycle? hcu, rfl, rfl, rfl, rfl, rfl, rfl⟩, rfl, hoff.seq (frame_enterPulseWait _ _)⟩
    · rw [State.reportDriverOff_driving hcu hstage, State.driverOffStage_failed (by rwa [hsense]) hopened hreached]
      exact (EndMapped.failAttempt hlast .bolt).after hoff (.of_frame hoff)

/-! ## The timers of a cycle (R45, R48, R49, R51, R52) -/

section Timers

variable {s : State} {slot : Slot} {c : Cycle}

theorem exec_pulseWaitLimit (hc : s.cycle? slot = some c) (h : c.limit.isSome = true) :
    exec (.pulseWaitLimit slot) s = .next (s.limitReached c).conclude := by
  show Host.Outcome.next _ = _
  rw [hc]
  exact congrArg Host.Outcome.next (if_pos h)

theorem exec_popWindowEnd (hc : s.cycle? slot = some c) (h : c.stage = .popWait) :
    exec (.popWindowEnd slot) s = .next (s.failAttempt c .jam).conclude := by
  show Host.Outcome.next _ = _
  rw [hc]
  exact congrArg Host.Outcome.next (if_pos h)

theorem exec_ajar (hc : s.cycle? slot = some c) (h : c.stage = .opened) (hajar : c.ajar.isSome = true) :
    exec (.ajar slot) s = .next ((s.setCycle { c with ajar := none }).raise .ajar (some slot)).conclude := by
  show Host.Outcome.next _ = _
  rw [hc]
  exact congrArg Host.Outcome.next (if_pos ⟨h, hajar⟩)

theorem exec_latchFault (hc : s.cycle? slot = some c) (h : c.stage = .closing) :
    exec (.latchFault slot) s = .next (s.setCycle ({ c with latch := 2000 }.toSettle true)).conclude := by
  show Host.Outcome.next _ = _
  rw [hc]
  exact congrArg Host.Outcome.next (if_pos h)

theorem exec_latchFaultSettleEnd (hc : s.cycle? slot = some c) (h : c.stage = .settle) (hfault : c.latchFault = true) :
    exec (.latchFaultSettleEnd slot) s = .next (s.endCycle c (.latchFault (s.sense slot).presenceIsOn) none).conclude := by
  show Host.Outcome.next _ = _
  rw [hc]
  exact congrArg Host.Outcome.next (if_pos ⟨h, hfault⟩)

theorem exec_settleTimerEnd (hc : s.cycle? slot = some c) (h : c.stage = .settle) (hfault : c.latchFault = false)
    (hsecure : (s.sense slot).secure = true) :
    exec (.settleTimerEnd slot) s = .next (s.endCycle c (securedOutcome (s.sense slot).presenceIsOn) none).conclude := by
  show Host.Outcome.next _ = _
  rw [hc]
  exact congrArg Host.Outcome.next (if_pos ⟨h, hfault, hsecure⟩)

theorem State.limitReached_waiting (h : c.stage = .pulseWait) : s.limitReached c = s.endCycle c c.limitOutcome none := if_pos h

theorem State.limitReached_other (h : c.stage ≠ .pulseWait) : s.limitReached c = s.setCycle { c with limit := some 60000 } := if_neg h

theorem exec_secure (hload : s.loaded = true) (hfit : s.fitted slot = true) (hdoor : (s.sense slot).door = some false)
    (hlow : (s.sense slot).boltLow.isSome = true) : exec (.secure slot) s
      = .next ((s.setSense slot { s.sense slot with boltLow := some 200 }).onCycle slot Cycle.onSecure).conclude := by
  refine congrArg Host.Outcome.next (if_pos ?_)
  unfold State.sampled Sense.doorClosed
  rw [hload, hfit, hdoor, hlow]
  rfl

end Timers

theorem State.onCycle_some {s : State} {slot : Slot} {c : Cycle} (h : s.cycle? slot = some c) (f : Cycle → Cycle) :
    s.onCycle slot f = s.setCycle (f c) := by
  unfold State.onCycle
  rw [h]

theorem State.onCycle_none {s : State} {slot : Slot} (h : s.cycle? slot = none) (f : Cycle → Cycle) : s.onCycle slot f = s := by
  unfold State.onCycle
  rw [h]

/-- A stage change applied to the cycle of a slot. -/
theorem State.onCycle_cycle? {s : State} {slot : Slot} {c : Cycle} (h : s.cycle? slot = some c) {f : Cycle → Cycle}
    (hf : (f c).slot = c.slot) : (s.onCycle slot f).cycle? slot = some (f c) := by
  rw [State.onCycle_some h]
  exact State.cycle?_setCycle_same h (hf.trans (State.cycle?_slot h))

/-- A stage change that leaves the cycle of a slot as it is. -/
theorem State.onCycle_cycle?_self {s : State} {slot : Slot} {f : Cycle → Cycle} (hf : ∀ c, s.cycle? slot = some c → f c = c) :
    (s.onCycle slot f).cycle? slot = s.cycle? slot := by
  cases h : s.cycle? slot with
  | none => rw [State.onCycle_none h, h]
  | some c =>
    rw [State.onCycle_cycle? h (by rw [hf c h]), hf c h]

theorem Cycle.onSecure_closing {c : Cycle} (h : c.stage = .closing) : c.onSecure = c.toSettle false := by
  unfold Cycle.onSecure
  rw [h]

theorem Cycle.onSecure_other {c : Cycle} (h : c.stage ≠ .closing) : c.onSecure = c := by
  unfold Cycle.onSecure
  split
  · rename_i hc
    exact absurd hc h
  · rfl

/-- Settles O51: each timer of a cycle. -/
theorem cycleTimersMoveTheStages : Obligations.CycleTimersMoveTheStages := by
  intro s slot
  refine ⟨fun hload hfit hdoor hlow => ?_, fun c hc hlimit hstage => ?_, fun c hc hstage hattempt hlimit => ?_,
    fun c hc hstage hajar => ?_, fun c hc hstage => ?_⟩
  · have hset := frame_setSense s slot { s.sense slot with boltLow := some 200 }
    have hcycle := frame_onCycle (s.setSense slot { s.sense slot with boltLow := some 200 }) slot Cycle.onSecure
    have hsense := State.setSense_sense_same s slot { s.sense slot with boltLow := some 200 }
    refine ⟨_, exec_secure hload hfit hdoor hlow, (hcycle.sense slot).trans hsense, ?_,
      fun i hi => (hcycle.sense i).trans (State.setSense_sense_ne s _ hi), fun c hc hstage => ?_, fun hno => ?_, hset.seq hcycle⟩
    · rw [hcycle.sense, hsense]
      simp [Sense.secure, Sense.doorClosed, hdoor, boltLowTime]
    · have hcu : (s.setSense slot { s.sense slot with boltLow := some 200 }).cycle? slot = some c := (hset.cycle? slot).trans hc
      rw [State.onCycle_cycle? hcu (by rw [Cycle.onSecure_closing hstage]; rfl), Cycle.onSecure_closing hstage]
      rfl
    · rw [State.onCycle_cycle?_self fun c hc => Cycle.onSecure_other (hno c ((hset.cycle? slot).symm.trans hc)), hset.cycle?]
  · obtain rfl := State.cycle?_slot hc
    refine ⟨_, exec_pulseWaitLimit hc hlimit, ?_, ?_⟩
    · rw [State.limitReached_other hstage]
      exact State.cycle?_setCycle_same hc rfl
    · rw [State.limitReached_other hstage]
      exact frame_setCycle s _
  · obtain rfl := State.cycle?_slot hc
    refine ⟨_, exec_popWindowEnd hc hstage, ?_⟩
    rw [State.failAttempt_retry hattempt hlimit]
    exact ⟨State.enterPulseWait_cycle? hc, rfl, frame_enterPulseWait s _⟩
  · obtain rfl := State.cycle?_slot hc
    have hset := frame_setCycle s { c with ajar := none }
    have hraise := frame_raise (s.setCycle { c with ajar := none }) .ajar (some c.slot)
    exact ⟨_, exec_ajar hc hstage hajar, (hraise.cycle? _).trans (State.cycle?_setCycle_same hc rfl),
      (Raised.raise _ _ _).after (.of_frame hset), hset.seq hraise⟩
  · obtain rfl := State.cycle?_slot hc
    exact ⟨_, exec_latchFault hc hstage, State.cycle?_setCycle_same hc rfl, frame_setCycle s _⟩

/-- A presence that is on is not off. -/
theorem SampleAgrees.secured (s : State) (slot : Slot) : SampleAgrees (securedOutcome (s.sense slot).presenceIsOn) slot s := by
  unfold SampleAgrees securedOutcome Sense.presenceIsOn Sense.presenceIsOff
  intro h
  cases hp : (s.sense slot).presence with
  | none => rfl
  | some on =>
    cases on with
    | true => rfl
    | false =>
      rw [hp] at h
      cases h

theorem EndMapped.limit (s : State) (c : Cycle) : EndMapped c c.limitOutcome endParts s (s.endCycle c c.limitOutcome none) := by
  refine EndMapped.endCycle s c fun h => ?_
  unfold Cycle.limitOutcome at h
  split at h
  · rename_i f _
    cases f <;> cases h
  · cases h

/-- Settles O52: each way in which a cycle ends. -/
theorem cyclesEndWithTheMappedOutcome : Obligations.CyclesEndWithTheMappedOutcome := by
  intro s slot c hc
  obtain rfl := State.cycle?_slot hc
  refine ⟨fun hstage hfault hsecure => ⟨_, exec_settleTimerEnd hc hstage hfault hsecure, EndMapped.endCycle s c (.secured s c.slot)⟩,
    fun hstage hfault => ⟨_, exec_latchFaultSettleEnd hc hstage hfault, EndMapped.endCycle s c fun h => by cases h⟩,
    fun hstage hlimit => ⟨_, exec_pulseWaitLimit hc hlimit, ?_⟩,
    fun hstage hlast => ⟨_, exec_popWindowEnd hc hstage, EndMapped.failAttempt hlast .jam⟩⟩
  have hend := EndMapped.limit s c
  rw [State.limitReached_waiting hstage]
  unfold Cycle.limitOutcome at hend ⊢
  cases hl : c.lastFailure with
  | none =>
    rw [hl] at hend
    exact hend
  | some f =>
    rw [hl] at hend
    cases f <;> exact hend

end Sys2Proof.Machine
end

