-- ==== Sys2Proof/Proofs/Forced.lean ====
section
/- One theorem after another: side by side, their proofs ask for more threads than the check's memory limit allows. -/
set_option Elab.async false

/-! SUPPORT. Forced reports (R9, R34, R53), and what the sensor events leave of the other slots. -/

namespace Sys2Proof.Machine

/-! ## Sensing states that differ in the home-idle timer -/

/-- The sensing states stand, but for the home-idle timer of one slot. -/
structure SensesStand (slot : Slot) (s t : State) : Prop where
  same : ∃ idle, t.sense slot = { s.sense slot with homeIdle := idle }
  others : ∀ i, i ≠ slot → t.sense i = s.sense i

theorem SensesStand.of_frame {slot : Slot} {ps : List Part} {s t : State} (h : UnchangedBut ps s t)
    (hp : Part.sensing ∉ ps := by decide) : SensesStand slot s t :=
  ⟨⟨(s.sense slot).homeIdle, h.sense slot hp⟩, fun i _ => h.sense i hp⟩

theorem SensesStand.trans {slot : Slot} {s t u : State} (h : SensesStand slot s t) (k : SensesStand slot t u) : SensesStand slot s u := by
  obtain ⟨idle, hidle⟩ := h.same
  obtain ⟨later, hlater⟩ := k.same
  refine ⟨⟨later, ?_⟩, fun i hi => (k.others i hi).trans (h.others i hi)⟩
  rw [hlater, hidle]

theorem SensesStand.refreshIdle (s : State) (slot : Slot) : SensesStand slot s (s.refreshIdle slot) :=
  ⟨State.refreshIdle_sense_same s slot, fun _ hi => State.refreshIdle_sense_ne s hi⟩

theorem SensesStand.freeCycle (s : State) (slot : Slot) : SensesStand slot s (s.freeCycle slot) := by
  have hbefore : UnchangedBut [.doors, .note, .outputs, .transmit] s (((s.setDsq { s.dsq with
      cycles := s.dsq.cycles.filter (fun d => d.slot != slot)
      order := s.dsq.order.filter (fun x => x != slot) }).setLamp slot false).noteCycleEnded slot) :=
    ((frame_setDsq s _).seq (frame_setLamp _ _ _) (rs := [.doors, .outputs])).seq (frame_noteCycleEnded _ _)
  exact (SensesStand.of_frame hbefore).trans (.refreshIdle _ slot)

theorem SensesStand.endCycle (s : State) (c : Cycle) (o : Outcome) : SensesStand c.slot s (s.endCycle c o none) :=
  (SensesStand.freeCycle s c.slot).trans (.of_frame (frame_returnOutcome_mapped (s.freeCycle c.slot) (x := c.returned none) o rfl))

theorem SensesStand.presence {slot : Slot} {s t : State} (h : SensesStand slot s t) : (t.sense slot).presence = (s.sense slot).presence := by
  obtain ⟨idle, hidle⟩ := h.same
  rw [hidle]

theorem SensesStand.bolt {slot : Slot} {s t : State} (h : SensesStand slot s t) : (t.sense slot).bolt = (s.sense slot).bolt := by
  obtain ⟨idle, hidle⟩ := h.same
  rw [hidle]

theorem SensesStand.boltLow {slot : Slot} {s t : State} (h : SensesStand slot s t) : (t.sense slot).boltLow = (s.sense slot).boltLow := by
  obtain ⟨idle, hidle⟩ := h.same
  rw [hidle]

theorem SensesStand.gates {slot : Slot} {s t : State} (h : SensesStand slot s t) : (t.sense slot).gates = (s.sense slot).gates := by
  obtain ⟨idle, hidle⟩ := h.same
  rw [hidle]

theorem SensesStand.door {slot : Slot} {s t : State} (h : SensesStand slot s t) : (t.sense slot).door = (s.sense slot).door := by
  obtain ⟨idle, hidle⟩ := h.same
  rw [hidle]

theorem SensesStand.doorTimer {slot : Slot} {s t : State} (h : SensesStand slot s t) :
    (t.sense slot).doorTimer = (s.sense slot).doorTimer := by
  obtain ⟨idle, hidle⟩ := h.same
  rw [hidle]

theorem SensesStand.secure {slot : Slot} {s t : State} (h : SensesStand slot s t) : (t.sense slot).secure = (s.sense slot).secure := by
  unfold Sense.secure Sense.doorClosed
  rw [h.door, h.boltLow]

/-! ## A forced report to the Compartment Table (R9) -/

theorem State.forceTable_eq {s : State} {slot : Slot} {r : CompRec} (hr : s.rec? slot = some r) :
    s.forceTable slot = s.change slot (forcedRec r) 0 := by
  unfold State.forceTable
  rw [hr]

theorem forcedRec_faulted {r : CompRec} (h : r.state.tag = .empty ∨ r.state.tag = .offered ∨ r.state.tag = .held ∨ r.state.tag = .occupied) :
    forcedRec r = r.faulted .forced r.state.parcel? := by
  unfold forcedRec
  cases hs : r.state with
  | releasing | fault | retired => rw [hs] at h; simp [CompState.tag] at h
  | _ => rfl

theorem forcedRec_stands {r : CompRec} (h : r.state.tag = .releasing ∨ r.state.tag = .fault ∨ r.state.tag = .retired) :
    forcedRec r = r := by
  unfold forcedRec
  cases hs : r.state with
  | releasing | fault | retired => rfl
  | _ => rw [hs] at h; simp [CompState.tag] at h

theorem CompState.cause?_none_of_tag {c : CompState} (h : c.tag ≠ .fault) : c.cause? = none := by
  cases c with
  | fault => exact absurd rfl h
  | _ => rfl

theorem ForcedOnTable.forceTable {s : State} {slot : Slot} {r : CompRec} (hr : s.rec? slot = some r) :
    ForcedOnTable slot r s (s.forceTable slot) := by
  rw [State.forceTable_eq hr]
  refine ⟨fun htag => ?_, fun htag => ?_⟩
  · have hcause : r.state.cause? = none := CompState.cause?_none_of_tag fun h => by rw [h] at htag; simp at htag
    have hdrop := forcedRec_dropsOrKeeps r
    have hevents : entryEvents r.state (CompState.fault .forced r.state.parcel?) (s.carrierOf slot)
        = [(.enterState, some 5, s.carrierOf slot)] := if_pos (.inr (by rw [hcause]; exact Option.some_ne_none _))
    rw [forcedRec_faulted htag] at hdrop ⊢
    obtain ⟨hchanged, -, -, -, hcounted⟩ := Recorded.change hr hdrop
    refine ⟨hchanged, Raised.change hr (c := .forced) rfl (by rw [hcause]; exact (Option.some_ne_none _).symm) 0, ?_⟩
    rw [← hevents]
    exact hcounted
  · rw [forcedRec_stands htag, State.change_same hr]
    exact ⟨hr, rfl⟩

theorem ForcedOnTable.after {ps : List Part} {slot : Slot} {r : CompRec} {s u t : State} (k : UnchangedBut ps s u)
    (h : ForcedOnTable slot r u t) (hr : Part.records ∉ ps := by decide) (hs : Part.store ∉ ps := by decide)
    (hd : Part.conditions ∉ ps := by decide) (hc : Part.counters ∉ ps := by decide) (hf : Part.config ∉ ps := by decide) :
    ForcedOnTable slot r s t := by
  obtain ⟨hforced, hstands⟩ := h
  refine ⟨fun htag => ?_, fun htag => ?_⟩
  · obtain ⟨hchanged, hraised, hcounted⟩ := hforced htag
    rw [k.carrierOf slot hr] at hcounted
    exact ⟨hchanged.after k hr hs, hraised.after (.of_frame k hd), hcounted.after k hf hc⟩
  · obtain ⟨hrec, hrpt⟩ := hstands htag
    exact ⟨hrec, hrpt.trans (k.rpt hd hc)⟩

/-! ## A forced report to the Door Sequencer (R34, R53) -/

/-- Queue, pulse order and the cycles of other slots stand, and so does the cycle of the slot. -/
structure DoorsStand (slot : Slot) (s u : State) : Prop where
  queue : u.dsq.queue = s.dsq.queue
  order : u.dsq.order = s.dsq.order
  cycles : u.dsq.cycles.filter (fun d => d.slot != slot) = s.dsq.cycles.filter (fun d => d.slot != slot)
  cycle : u.cycle? slot = s.cycle? slot
  alone : s.cycle? slot = none → u.dsq = s.dsq

theorem DoorsStand.of_frame {slot : Slot} {ps : List Part} {s u : State} (h : UnchangedBut ps s u)
    (hp : Part.doors ∉ ps := by decide) : DoorsStand slot s u := by
  have hdsq := h.dsq hp
  exact ⟨by rw [hdsq], by rw [hdsq], by rw [hdsq], h.cycle? slot hp, fun _ => hdsq⟩

theorem DoorsStand.trans {slot : Slot} {s u v : State} (h : DoorsStand slot s u) (k : DoorsStand slot u v) : DoorsStand slot s v :=
  ⟨k.queue.trans h.queue, k.order.trans h.order, k.cycles.trans h.cycles, k.cycle.trans h.cycle,
    fun hnone => (k.alone (h.cycle.trans hnone)).trans (h.alone hnone)⟩

/-- A stage change that leaves the cycle of the slot as it is. -/
theorem DoorsStand.onCycle {s : State} {slot : Slot} {f : Cycle → Cycle} (hf : ∀ c, s.cycle? slot = some c → f c = c) :
    DoorsStand slot s (s.onCycle slot f) := by
  cases h : s.cycle? slot with
  | none =>
    rw [State.onCycle_none h]
    exact .of_frame (.refl [] s)
  | some c =>
    have hslot := State.cycle?_slot h
    have hcycle := State.onCycle_cycle?_self hf
    rw [State.onCycle_some h, hf c h] at hcycle ⊢
    refine ⟨rfl, rfl, ?_, hcycle, fun hno => by rw [h] at hno; cases hno⟩
    show (s.dsq.cycles.map _).filter _ = _
    induction s.dsq.cycles with
    | nil => rfl
    | cons d ds ih =>
      rw [List.map_cons, List.filter_cons, List.filter_cons, ih]
      by_cases hd : d.slot = c.slot
      · rw [if_pos hd, hd]
        simp [hslot]
      · rw [if_neg hd]

theorem DoorsStand.inDoorQueue {slot : Slot} {s u : State} (h : DoorsStand slot s u) : u.inDoorQueue slot = s.inDoorQueue slot := by
  unfold State.inDoorQueue
  rw [h.queue]

theorem DoorsStand.windowOpen {slot : Slot} {s u : State} (h : DoorsStand slot s u) : u.windowOpen slot = s.windowOpen slot := by
  unfold State.windowOpen
  rw [h.cycle]

theorem CycleGone.of_doorsStand {slot : Slot} {ps : List Part} {s u t : State} (k : DoorsStand slot s u) (h : CycleGone slot u t)
    (hout : UnchangedBut ps s u) (ho : Part.outputs ∉ ps := by decide) : CycleGone slot s t := by
  obtain ⟨hqueue, hcycles, horder, hlamp⟩ := h
  rw [hout.out ho] at hlamp
  exact ⟨hqueue.trans k.queue, hcycles.trans k.cycles, horder.trans (by rw [k.order]), hlamp⟩

theorem State.find?_queue_none {s : State} {slot : Slot} (h : s.inDoorQueue slot = false) :
    s.dsq.queue.find? (fun r => r.slot == slot) = none := by
  unfold State.inDoorQueue at h
  rw [List.any_eq_false] at h
  exact List.find?_eq_none.mpr h

theorem State.forcedReport_cycle {s : State} {slot : Slot} {c : Cycle} (hq : s.inDoorQueue slot = false) (hc : s.cycle? slot = some c) :
    s.forcedReport slot = s.forceCycle c := by
  unfold State.forcedReport
  rw [State.find?_queue_none hq]
  dsimp only
  rw [hc]

theorem State.cycle?_none_iff {s : State} {slot : Slot} : s.inCycle slot = false ↔ s.cycle? slot = none := by
  unfold State.inCycle
  rw [Option.isSome_eq_false_iff, Option.isNone_iff_eq_none]

theorem State.forcedReport_table {s : State} {slot : Slot} (h : s.hasDoorCycle slot = false) :
    s.forcedReport slot = s.forceTable slot := by
  unfold State.hasDoorCycle at h
  obtain ⟨hq, hc⟩ := Bool.or_eq_false_iff.mp h
  unfold State.forcedReport
  rw [State.find?_queue_none hq, State.cycle?_none_iff.mp hc]

theorem State.forcedReport_queued {s : State} {slot : Slot} {q : DoorRequest}
    (h : s.dsq.queue.find? (fun x => x.slot == slot) = some q) : s.forcedReport slot = s.forceQueued q := by
  unfold State.forcedReport
  rw [h]

theorem State.forceCycle_starting {s : State} {c : Cycle} (h : c.stage = .starting) :
    s.forceCycle c = (s.setCycle { c with forced := true }).setLamp c.slot false := by
  unfold State.forceCycle
  rw [h]

theorem State.forceCycle_pulseWait {s : State} {c : Cycle} (h : c.stage = .pulseWait) : s.forceCycle c = s.endCycle c .forced none := by
  unfold State.forceCycle
  rw [h]

theorem State.forceCycle_open {s : State} {c : Cycle} (h : c.stage.windowOpen = true) : s.forceCycle c = s := by
  unfold State.forceCycle
  split
  · rename_i hs
    rw [hs] at h
    cases h
  · rename_i hs
    rw [hs] at h
    cases h
  · rfl

theorem State.windowOpen_of_cycle {s : State} {slot : Slot} {c : Cycle} (hc : s.cycle? slot = some c) :
    s.windowOpen slot = c.stage.windowOpen := by
  unfold State.windowOpen
  rw [hc]

theorem State.windowOpen_of_none {s : State} {slot : Slot} (hc : s.cycle? slot = none) : s.windowOpen slot = false := by
  unfold State.windowOpen
  rw [hc]

/-- What the Door Sequencer returns for a request without a cycle. -/
def DoorRequest.returned (q : DoorRequest) (start : StartState) : Returned :=
  { slot := q.slot, kind := q.kind, job := q.job, ref := q.ref, startState := start, failedCheck := none }

/-- What a request ended in the door queue leaves (R53). -/
theorem OutcomeMapped.forceQueued {s : State} {slot : Slot} {q : DoorRequest} {r : CompRec} (hq : q.slot = slot)
    (hr : s.rec? slot = some r) : OutcomeMapped slot q.kind q.job q.ref r.state.startState .forced s (s.forceQueued q)
      ∧ (s.forceQueued q).dsq = { s.dsq with queue := s.dsq.queue.filter (fun x => x.slot != slot) } := by
  subst hq
  have hset := frame_setDsq s { s.dsq with queue := s.dsq.queue.filter (fun x => x.slot != q.slot) }
  have hstart : (match s.rec? q.slot with | some x => x.state.startState | none => .other) = r.state.startState := by rw [hr]
  have heq : s.forceQueued q = (s.setDsq { s.dsq with queue := s.dsq.queue.filter (fun x => x.slot != q.slot) }).returnOutcome
      (q.returned r.state.startState) .forced := by
    rw [← hstart]
    rfl
  rw [heq]
  refine ⟨(OutcomeMapped.returned (x := q.returned r.state.startState) (o := .forced) rfl (fun h => nomatch h)).after hset (.of_frame hset), ?_⟩
  exact (frame_returnOutcome_mapped _ (x := q.returned r.state.startState) .forced rfl).dsq

/-- A forced report on a slot's door cycle: `u` is the state in which the report is made, `t` what the command leaves. -/
theorem ForcedOnRequest.forcedReport {s u t : State} {slot : Slot} {i : Instr} (hframe : UnchangedBut [.pins, .sensing, .doors] s u)
    (hdoors : DoorsStand slot s u) (hread : ReadsAlike slot s u) (ht : s.windowOpen slot = false → t = u.forcedReport slot)
    (hexec : exec i s = .next t.conclude) : ForcedOnRequest slot i s t where
  starting c hq hc hstage := by
    have hclosed : s.windowOpen slot = false := by rw [State.windowOpen_of_cycle hc, hstage]; rfl
    have hcu : u.cycle? slot = some c := hdoors.cycle.trans hc
    obtain rfl := State.cycle?_slot hc
    have hset := frame_setCycle u { c with forced := true }
    have hlamp := frame_setLamp (u.setCycle { c with forced := true }) c.slot false
    rw [ht hclosed, State.forcedReport_cycle (hdoors.inDoorQueue.trans hq) hcu, State.forceCycle_starting hstage]
    exact ⟨(hlamp.cycle? _).trans (State.cycle?_setCycle_same hcu rfl), State.setLamp_demand_same _ _ _,
      (hframe.seq hset (rs := [.pins, .sensing, .doors])).seq hlamp⟩
  pulseWait c hq hc hstage := by
    have hclosed : s.windowOpen slot = false := by rw [State.windowOpen_of_cycle hc, hstage]; rfl
    have hcu : u.cycle? slot = some c := hdoors.cycle.trans hc
    obtain rfl := State.cycle?_slot hc
    refine ⟨t, hexec, ?_⟩
    rw [ht hclosed, State.forcedReport_cycle (hdoors.inDoorQueue.trans hq) hcu, State.forceCycle_pulseWait hstage]
    obtain ⟨hgone, hmapped, hend⟩ := EndMapped.endCycle u c (o := .forced) fun h => by cases h
    exact ⟨hgone.of_doorsStand hdoors hframe, hmapped.after hframe hread, hframe.seq hend⟩
  queued q r hq hc hr := by
    have hnone := State.cycle?_none_iff.mp hc
    have hslot : q.slot = slot := by simpa using List.find?_some hq
    obtain ⟨hmapped, hdsq⟩ := OutcomeMapped.forceQueued hslot ((hframe.rec? slot).trans hr)
    rw [ht (State.windowOpen_of_none hnone), State.forcedReport_queued (by rw [hdoors.queue]; exact hq)]
    refine ⟨?_, hmapped.after hframe hread, ?_⟩
    · rw [hdsq, hdoors.alone hnone]
    · exact hframe.seq (frame_forceQueued u q)

/-- A forced report changes the home-idle timer of its own slot alone among the sensing states. -/
theorem SensesStand.forcedReport (s : State) (slot : Slot) : SensesStand slot s (s.forcedReport slot) := by
  unfold State.forcedReport
  split
  · exact .of_frame (frame_forceQueued s _)
  · split
    · rename_i c hc
      obtain rfl := State.cycle?_slot hc
      unfold State.forceCycle
      split
      · exact .of_frame ((frame_setCycle s { c with forced := true }).seq (frame_setLamp _ _ _) (rs := [.doors, .outputs]))
      · exact .endCycle s c _
      · exact .of_frame (.refl [] s)
    · exact .of_frame (frame_forceTable s slot)

end Sys2Proof.Machine
end

