-- ==== Sys2Proof/Proofs/Sensing.lean ====
section
/- One theorem after another: side by side, their proofs ask for more threads than the check's memory limit allows. -/
set_option Elab.async false

/-! SUPPORT and proofs of O48 to O50: the gates, the door and the presence sensor of a slot (R24 to R39). -/

namespace Sys2Proof.Machine

theorem State.sampled_iff {s : State} {slot : Slot} : s.sampled slot = true ↔ s.loaded = true ∧ s.fitted slot = true := by
  unfold State.sampled
  rw [Bool.and_eq_true]

theorem UnchangedBut.sampled {ps : List Part} {s t : State} (h : UnchangedBut ps s t) (i : Slot) (hp : Part.phase ∉ ps := by decide)
    (hc : Part.config ∉ ps := by decide) : t.sampled i = s.sampled i := by
  unfold State.sampled
  rw [h.loaded hp, h.fitted i hc]

/-! ## Presence (R30, R36 to R39) -/

theorem exec_presence {s : State} {slot : Slot} {on : Bool} (hload : s.loaded = true) (hfit : s.fitted slot = true)
    (hp : (s.sense slot).presence = some (!on)) : exec (if on then .presenceOn slot else .presenceOff slot) s
      = .next ((s.setPresence slot on).flagCheck slot on).conclude := by
  have hsampled := State.sampled_iff.mpr ⟨hload, hfit⟩
  cases on with
  | true =>
    refine congrArg Host.Outcome.next (if_pos ?_)
    rw [hsampled, hp]
    rfl
  | false =>
    refine congrArg Host.Outcome.next (if_pos ?_)
    rw [hsampled, hp]
    rfl

theorem frame_setPresence (s : State) (slot : Slot) (on : Bool) : UnchangedBut [.pins, .sensing] s (s.setPresence slot on) :=
  (frame_setPin s slot _).seq (frame_setSense _ _ _)

theorem State.setPresence_sense_same (s : State) (slot : Slot) (on : Bool) :
    (s.setPresence slot on).sense slot = { s.sense slot with presence := some on, presenceTimer := 0 } :=
  State.setSense_sense_same _ _ _

theorem State.setPresence_sense_ne (s : State) {slot i : Slot} (on : Bool) (h : i ≠ slot) :
    (s.setPresence slot on).sense i = s.sense i := State.setSense_sense_ne _ _ h

theorem State.flagCheck_idle {s : State} {slot : Slot} {on : Bool} (h : s.inCycle slot = true ∨ s.rec? slot = none
    ∨ ∃ r, s.rec? slot = some r ∧ r.state ≠ .empty ∧ ∀ p, r.state ≠ .occupied p) : s.flagCheck slot on = s := by
  unfold State.flagCheck
  split
  · rfl
  · rename_i r hr
    split
    · rfl
    · rename_i hcycle
      obtain ⟨d, hd, hempty, hocc⟩ := (h.resolve_left hcycle).resolve_left (by rw [hr]; exact Option.some_ne_none _)
      rw [hr] at hd
      cases hd
      have hrec : presenceRec r on = r := by
        unfold presenceRec
        split
        · rename_i hs; exact absurd hs hempty
        · rename_i p hs; exact absurd hs (hocc p)
        all_goals rfl
      have hcond : presenceCondition r.state on = none := by
        unfold presenceCondition
        cases hs : r.state with
        | empty => exact absurd hs hempty
        | occupied p => exact absurd hs (hocc p)
        | _ => rfl
      dsimp only
      rw [hrec, State.change_same hr, hcond]

theorem State.flagCheck_eq {s : State} {slot : Slot} {on : Bool} {r : CompRec} (hr : s.rec? slot = some r)
    (hc : s.inCycle slot = false) : s.flagCheck slot on = (match presenceCondition r.state on with
      | some c => (s.change slot (presenceRec r on) 0).raise c (some slot)
      | none => s.change slot (presenceRec r on) 0) := by
  unfold State.flagCheck
  rw [hr]
  exact if_neg (by simp [hc])

/-- A flag check on a compartment whose flag it changes: `c` is the condition that the presence lost or found raises. -/
theorem State.flagCheck_flag {s : State} {slot : Slot} {on : Bool} {r new : CompRec} {c : Condition} (hr : s.rec? slot = some r)
    (hc : s.inCycle slot = false) (hnew : presenceRec r on = new) (hcause : new.state.cause? = none) {raises : Bool}
    (hcond : presenceCondition r.state on = if raises then some c else none) :
    Changed slot new [] s (s.flagCheck slot on) ∧ (raises = true → Raised c (some slot) s (s.flagCheck slot on))
      ∧ (raises = false → (s.flagCheck slot on).rpt.conds = s.rpt.conds) := by
  have hchange := frame_change_causeless s slot (new := new) 0 hcause
  rw [State.flagCheck_eq hr hc, hnew, hcond]
  cases raises with
  | true => exact ⟨(Changed.change hr new 0).then_ (frame_raise _ _ _), fun _ => (Raised.raise _ _ _).after (.of_frame hchange), (fun h => nomatch h)⟩
  | false => exact ⟨Changed.change hr new 0, (fun h => nomatch h), fun _ => hchange.conds⟩

theorem frame_flagCheck (s : State) (slot : Slot) (on : Bool) :
    UnchangedBut [.records, .store, .conditions, .counters, .transmit, .free] s (s.flagCheck slot on) := by
  unfold State.flagCheck
  split
  · exact .refl _ s
  · split
    · exact .refl _ s
    · dsimp only
      split
      exacts [(frame_change s slot _ 0).seq (frame_raise _ _ _), (frame_change s slot _ 0).wide]

/-- Settles O50: the flags that a presence event changes. -/
theorem presenceEventsChangeTheFlags : Obligations.PresenceEventsChangeTheFlags := by
  intro s slot on hload hfit hp
  have hset := frame_setPresence s slot on
  have hcheck := frame_flagCheck (s.setPresence slot on) slot on
  have hsense : ((s.setPresence slot on).flagCheck slot on).sense slot = { s.sense slot with presence := some on, presenceTimer := 0 } :=
    (hcheck.sense slot).trans (State.setPresence_sense_same s slot on)
  refine ⟨_, exec_presence hload hfit hp, by rw [hsense], by rw [hsense], ?_, fun i hi => ⟨?_, ?_⟩, by rw [hsense], by rw [hsense],
    fun r hr hc hempty => ?_, fun r p hr hc hocc => ?_, fun hidle => ?_, hset.seq hcheck⟩
  · have hpins : Part.pins.same (s.setPresence slot on) _ := hcheck.part .pins
    have hpin := State.setPin_pin_same s slot (fun p => { p with presence := on == s.conf.presencePolarity })
    rw [hpins]
    exact congrArg (fun p => p.presence) hpin
  · have hpins : Part.pins.same (s.setPresence slot on) _ := hcheck.part .pins
    rw [hpins]
    exact State.setPin_pin_ne s (fun p => { p with presence := on == s.conf.presencePolarity }) hi
  · exact (hcheck.sense i).trans (State.setPresence_sense_ne s on hi)
  · have hru : (s.setPresence slot on).rec? slot = some r := (hset.rec? slot).trans hr
    obtain ⟨hchanged, hraised, hquiet⟩ := State.flagCheck_flag (on := on) (new := { r with foreign := on }) (c := .foreign) (raises := on)
      hru ((hset.inCycle slot).trans hc) (by unfold presenceRec; rw [hempty]) (by rw [hempty]; rfl) (by rw [hempty]; cases on <;> rfl)
    exact ⟨hchanged.after hset, fun h => (hraised h).after (.of_frame hset), fun h => (hquiet h).trans hset.conds⟩
  · have hru : (s.setPresence slot on).rec? slot = some r := (hset.rec? slot).trans hr
    obtain ⟨hchanged, hraised, hquiet⟩ := State.flagCheck_flag (on := on) (new := { r with lost := !on }) (c := .presenceLost) (raises := !on)
      hru ((hset.inCycle slot).trans hc) (by unfold presenceRec; rw [hocc]) (by rw [hocc]; rfl) (by rw [hocc]; cases on <;> rfl)
    exact ⟨hchanged.after hset, fun h => (hraised (by rw [h]; rfl)).after (.of_frame hset),
      fun h => (hquiet (by rw [h]; rfl)).trans hset.conds⟩
  · rw [State.flagCheck_idle (by rwa [hset.inCycle, hset.rec?])]
    exact hset

/-! ## The door (R29, R33, R34) -/

theorem frame_setDoor (s : State) (slot : Slot) (isOpen : Bool) : UnchangedBut [.pins, .sensing] s (s.setDoor slot isOpen) :=
  ((frame_setPin s slot _).seq (frame_setSense _ _ _) (rs := [.pins, .sensing])).seq (frame_refreshIdle _ _)

/-- The door's debounced state after an event, the home-idle timer apart. -/
theorem State.setDoor_sense (s : State) (slot : Slot) (isOpen : Bool) : (∃ idle, (s.setDoor slot isOpen).sense slot
      = { s.sense slot with door := some isOpen, doorTimer := 0, homeIdle := idle })
    ∧ ∀ i, i ≠ slot → (s.setDoor slot isOpen).sense i = s.sense i := by
  have hpin := frame_setPin s slot (fun p => { p with door := isOpen != s.conf.doorPolarity })
  obtain ⟨⟨idle, hidle⟩, hothers⟩ := SensesStand.refreshIdle ((s.setPin slot (fun p => { p with door := isOpen != s.conf.doorPolarity })).setSense
    slot { (s.setPin slot (fun p => { p with door := isOpen != s.conf.doorPolarity })).sense slot with door := some isOpen, doorTimer := 0 }) slot
  refine ⟨⟨idle, ?_⟩, fun i hi => ?_⟩
  · refine hidle.trans ?_
    rw [State.setSense_sense_same, hpin.sense]
  · exact (hothers i hi).trans ((State.setSense_sense_ne _ _ hi).trans (hpin.sense i))

theorem State.setDoor_pins (s : State) (slot : Slot) (isOpen : Bool) :
    (tget (s.setDoor slot isOpen).pins slot).door = (isOpen != s.conf.doorPolarity)
      ∧ ∀ i, i ≠ slot → tget (s.setDoor slot isOpen).pins i = tget s.pins i := by
  have hafter : UnchangedBut [.sensing] (s.setPin slot (fun p => { p with door := isOpen != s.conf.doorPolarity })) (s.setDoor slot isOpen) :=
    (frame_setSense _ _ _).seq (frame_refreshIdle _ _)
  have hpins : Part.pins.same (s.setPin slot (fun p => { p with door := isOpen != s.conf.doorPolarity })) (s.setDoor slot isOpen) :=
    hafter.part .pins
  rw [hpins]
  have hpin := State.setPin_pin_same s slot (fun p => { p with door := isOpen != s.conf.doorPolarity })
  exact ⟨congrArg (fun p => p.door) hpin, fun i hi => State.setPin_pin_ne s _ hi⟩

theorem exec_doorOpened {s : State} {slot : Slot} (hload : s.loaded = true) (hfit : s.fitted slot = true)
    (hd : (s.sense slot).door = some false) : exec (.doorOpened slot) s
      = .next (if (s.setDoor slot true).windowOpen slot then (s.setDoor slot true).onCycle slot Cycle.onDoorOpened
          else (s.setDoor slot true).forcedReport slot).conclude := by
  refine congrArg Host.Outcome.next (if_pos ?_)
  rw [State.sampled_iff.mpr ⟨hload, hfit⟩, hd]
  rfl

theorem exec_doorClosed {s : State} {slot : Slot} (hload : s.loaded = true) (hfit : s.fitted slot = true)
    (hd : (s.sense slot).door = some true) : exec (.doorClosed slot) s = .next ((s.setDoor slot false).onCycle slot
      (fun c => c.onDoorClosed ((s.setDoor slot false).sense slot).secure)).conclude := by
  refine congrArg Host.Outcome.next (if_pos ?_)
  rw [State.sampled_iff.mpr ⟨hload, hfit⟩, hd]
  rfl

theorem Cycle.onDoorOpened_driving {c : Cycle} (h : c.stage = .driving) : c.onDoorOpened = { c with doorOpened := true } := by
  unfold Cycle.onDoorOpened
  rw [h]

theorem Cycle.onDoorOpened_reopened {c : Cycle} (h : c.stage = .popWait ∨ c.stage = .closing ∨ c.stage = .settle) :
    c.onDoorOpened = c.toOpened := by
  unfold Cycle.onDoorOpened
  rcases h with h | h | h <;> rw [h]

theorem Cycle.onDoorOpened_opened {c : Cycle} (h : c.stage = .opened) : c.onDoorOpened = c := by
  unfold Cycle.onDoorOpened
  rw [h]

theorem Cycle.onDoorClosed_opened {c : Cycle} (h : c.stage = .opened) (secure : Bool) :
    c.onDoorClosed secure = { c with latch := 0 }.toClosing secure := by
  unfold Cycle.onDoorClosed
  rw [h]

theorem Cycle.onDoorClosed_other {c : Cycle} (h : c.stage ≠ .opened) (secure : Bool) : c.onDoorClosed secure = c := by
  unfold Cycle.onDoorClosed
  split
  · rename_i hs
    exact absurd hs h
  · rfl

/-- What an opened door leaves of the sensing states and the inputs, whatever is then reported. -/
theorem State.doorReported {s t : State} {slot : Slot} {isOpen : Bool} (h : SensesStand slot (s.setDoor slot isOpen) t)
    (hp : t.pins = (s.setDoor slot isOpen).pins) : (t.sense slot).door = some isOpen ∧ (t.sense slot).doorTimer = 0
      ∧ (t.sense slot).bolt = (s.sense slot).bolt ∧ (tget t.pins slot).door = (isOpen != s.conf.doorPolarity)
      ∧ (∀ i, i ≠ slot → tget t.pins i = tget s.pins i) ∧ ∀ i, i ≠ slot → t.sense i = s.sense i := by
  obtain ⟨⟨idle, hidle⟩, hothers⟩ := State.setDoor_sense s slot isOpen
  obtain ⟨hpin, hpins⟩ := State.setDoor_pins s slot isOpen
  rw [hp]
  exact ⟨h.door.trans (by rw [hidle]), h.doorTimer.trans (by rw [hidle]), h.bolt.trans (by rw [hidle]), hpin, hpins,
    fun i hi => (h.others i hi).trans (hothers i hi)⟩

theorem State.cycle?_none_of_idle {s : State} {slot : Slot} (h : s.hasDoorCycle slot = false) : s.cycle? slot = none :=
  State.cycle?_none_iff.mp (Bool.or_eq_false_iff.mp h).2

/-- Settles O49: the door's two events. -/
theorem doorEventsMoveTheCycleOrForce : Obligations.DoorEventsMoveTheCycleOrForce := by
  intro s slot hload hfit
  refine ⟨fun hclosed => ?_, fun hopen => ?_⟩
  · have hset := frame_setDoor s slot true
    have hexec := exec_doorOpened hload hfit hclosed
    have hdoors : DoorsStand slot s (s.setDoor slot true) := .of_frame hset
    obtain ⟨⟨idle, hidle⟩, -⟩ := State.setDoor_sense s slot true
    have hread : ReadsAlike slot s (s.setDoor slot true) := ⟨by rw [hidle], by rw [hset.tx]⟩
    by_cases hwindow : (s.setDoor slot true).windowOpen slot = true
    · rw [if_pos hwindow] at hexec
      have hcycle := frame_onCycle (s.setDoor slot true) slot Cycle.onDoorOpened
      obtain ⟨hdoor, htimer, hbolt, hpin, hpins, hsenses⟩ := State.doorReported (.of_frame hcycle) (hcycle.part .pins)
      have hopened : s.windowOpen slot = true := (hset.windowOpen slot).symm.trans hwindow
      refine ⟨_, hexec, hdoor, htimer, hbolt, hpin, hpins, hsenses, fun c _ hc => ?_,
        .forcedReport hset.wide hdoors hread (fun h => ?_) hexec, fun r hno _ => ?_⟩
      · have hcu : (s.setDoor slot true).cycle? slot = some c := (hset.cycle? slot).trans hc
        refine ⟨fun hstage => ⟨?_, hset.seq hcycle⟩, fun hstage => ⟨?_, hset.seq hcycle⟩, fun hstage => ⟨?_, hset.seq hcycle⟩⟩
        · rw [State.onCycle_cycle? hcu (by rw [Cycle.onDoorOpened_driving hstage]), Cycle.onDoorOpened_driving hstage]
        · rw [State.onCycle_cycle? hcu (by rw [Cycle.onDoorOpened_reopened hstage]; rfl), Cycle.onDoorOpened_reopened hstage]
          rfl
        · rw [State.onCycle_cycle? hcu (by rw [Cycle.onDoorOpened_opened hstage]), Cycle.onDoorOpened_opened hstage]
      · rw [hopened] at h
        cases h
      · rw [State.windowOpen_of_none (State.cycle?_none_of_idle hno)] at hopened
        cases hopened
    · rw [if_neg hwindow] at hexec
      have hshut : ¬s.windowOpen slot = true := by rwa [← hset.windowOpen slot]
      obtain ⟨hdoor, htimer, hbolt, hpin, hpins, hsenses⟩ := State.doorReported (SensesStand.forcedReport _ slot)
        ((frame_forcedReport (s.setDoor slot true) slot).part .pins)
      refine ⟨_, hexec, hdoor, htimer, hbolt, hpin, hpins, hsenses, fun c _ hc => ?_,
        .forcedReport hset.wide hdoors hread (fun _ => rfl) hexec, fun r hno hr => ?_⟩
      · rw [State.windowOpen_of_cycle hc] at hshut
        refine ⟨fun hstage => absurd ?_ hshut, fun hstage => absurd ?_ hshut, fun hstage => absurd ?_ hshut⟩
        · rw [hstage]; rfl
        · rcases hstage with hstage | hstage | hstage <;> rw [hstage] <;> rfl
        · rw [hstage]; rfl
      · rw [State.forcedReport_table ((hset.hasDoorCycle slot).trans hno)]
        exact ⟨(ForcedOnTable.forceTable ((hset.rec? slot).trans hr)).after hset, hset.seq (frame_forceTable _ slot)⟩
  · have hset := frame_setDoor s slot false
    have hcycle := frame_onCycle (s.setDoor slot false) slot (fun c => c.onDoorClosed ((s.setDoor slot false).sense slot).secure)
    have hstand : SensesStand slot (s.setDoor slot false) ((s.setDoor slot false).onCycle slot
      (fun c => c.onDoorClosed ((s.setDoor slot false).sense slot).secure)) := .of_frame hcycle
    obtain ⟨hdoor, htimer, hbolt, hpin, hpins, hsenses⟩ := State.doorReported hstand (hcycle.part .pins)
    refine ⟨_, exec_doorClosed hload hfit hopen, hdoor, htimer, hbolt, hpin, hpins, hsenses, fun c hc => ?_, hset.seq hcycle⟩
    have hcu : (s.setDoor slot false).cycle? slot = some c := (hset.cycle? slot).trans hc
    have hslot : (c.onDoorClosed ((s.setDoor slot false).sense slot).secure).slot = c.slot := by
      unfold Cycle.onDoorClosed
      split
      exacts [Cycle.toClosing_slot _ _, rfl]
    rw [State.onCycle_cycle? hcu hslot, hstand.secure]
    obtain ⟨hclosing, hsettle⟩ := Cycle.toClosing_cases { c with latch := 0 } ((s.setDoor slot false).sense slot).secure
    refine ⟨fun hstage => ?_, fun hstage => by rw [Cycle.onDoorClosed_other hstage]⟩
    rw [Cycle.onDoorClosed_opened hstage]
    exact ⟨fun h => by rw [hclosing h], fun h => by rw [hsettle h]⟩

/-! ## The gates (R24 to R28, R32, R34) -/

theorem frame_takeGates (s : State) (slot : Slot) (now : Bool × Bool) : UnchangedBut [.sensing] s (s.takeGates slot now) :=
  (frame_setSense _ _ _).trans (frame_refreshIdle _ _)

theorem State.takeGates_sense (s : State) (slot : Slot) (now : Bool × Bool) :
    (∃ idle, (s.takeGates slot now).sense slot = { s.sense slot with gates := some now, homeIdle := idle })
      ∧ ∀ i, i ≠ slot → (s.takeGates slot now).sense i = s.sense i := by
  obtain ⟨⟨idle, hidle⟩, hothers⟩ := SensesStand.refreshIdle (s.setSense slot { s.sense slot with gates := some now }) slot
  exact ⟨⟨idle, hidle.trans (by rw [State.setSense_sense_same])⟩, fun i hi => (hothers i hi).trans (State.setSense_sense_ne _ _ hi)⟩

theorem Cycle.onBoltOff_stage (c : Cycle) : c.onBoltOff.stage.windowOpen = c.stage.windowOpen ∧ c.onBoltOff.slot = c.slot := by
  unfold Cycle.onBoltOff
  split
  · rename_i h
    split
    · exact ⟨rfl, rfl⟩
    · rw [h]
      exact ⟨rfl, rfl⟩
  · exact ⟨rfl, rfl⟩

theorem Cycle.onBoltReached_stage (c : Cycle) : c.onBoltReached.stage = c.stage ∧ c.onBoltReached.slot = c.slot := by
  unfold Cycle.onBoltReached
  split <;> exact ⟨rfl, rfl⟩

theorem Cycle.onBoltOff_closed {c : Cycle} (h : c.stage.windowOpen = false) : c.onBoltOff = c := by
  unfold Cycle.onBoltOff
  split
  · rename_i hs
    rw [hs] at h
    cases h
  · rfl

theorem Cycle.onBoltReached_closed {c : Cycle} (h : c.stage.windowOpen = false) : c.onBoltReached = c := by
  unfold Cycle.onBoltReached
  split
  · rename_i hs
    rw [hs] at h
    cases h
  · rfl

theorem Cycle.onBoltOff_settle {c : Cycle} (h : c.stage = .settle) (hf : c.latchFault = false) :
    c.onBoltOff = { c with stage := .closing, settle := none } := by
  unfold Cycle.onBoltOff
  rw [h]
  exact if_neg (by simp [hf])

theorem Cycle.onBoltOff_other {c : Cycle} (h : c.stage ≠ .settle) : c.onBoltOff = c := by
  unfold Cycle.onBoltOff
  split
  · rename_i hs
    exact absurd hs h
  · rfl

theorem Cycle.onBoltReached_driving {c : Cycle} (h : c.stage = .driving) : c.onBoltReached = { c with boltReached := true } := by
  unfold Cycle.onBoltReached
  rw [h]

theorem Cycle.onBoltReached_other {c : Cycle} (h : c.stage ≠ .driving) : c.onBoltReached = c := by
  unfold Cycle.onBoltReached
  split
  · rename_i hs
    exact absurd hs h
  · rfl

/-- A stage change made or not, by a test of its own. -/
theorem frame_onCycleIf (b : Bool) (s : State) (slot : Slot) (f : Cycle → Cycle) :
    UnchangedBut [.doors] s (if b then s.onCycle slot f else s) := by
  split
  exacts [frame_onCycle s slot f, .refl _ s]

theorem State.onCycleIf_cycle? {s : State} {slot : Slot} {c : Cycle} (hc : s.cycle? slot = some c) (b : Bool) {f : Cycle → Cycle}
    (hf : (f c).slot = c.slot) : (if b then s.onCycle slot f else s).cycle? slot = some (if b then f c else c) := by
  cases b with
  | true => exact State.onCycle_cycle? hc hf
  | false => exact hc

theorem DoorsStand.onCycleIf (b : Bool) {s : State} {slot : Slot} {f : Cycle → Cycle} (hf : ∀ c, s.cycle? slot = some c → f c = c) :
    DoorsStand slot s (if b then s.onCycle slot f else s) := by
  split
  exacts [.onCycle hf, .of_frame (.refl [] s)]

section Step

variable {s : State} {slot : Slot} {up : Bool}

/-- The sensing state after the step, before the marks. -/
def State.stepSensed (slot : Slot) (up : Bool) (s : State) : State := (s.setSense slot ((s.sense slot).stepped up)).refreshIdle slot

theorem frame_stepSensed (s : State) (slot : Slot) (up : Bool) : UnchangedBut [.sensing] s (s.stepSensed slot up) :=
  (frame_setSense _ _ _).trans (frame_refreshIdle _ _)

theorem State.stepTaken_eq (s : State) (slot : Slot) (up : Bool) : ∃ u, u = (if (s.sense slot).secure && !((s.sense slot).stepped up).secure
      then (s.stepSensed slot up).onCycle slot Cycle.onBoltOff else s.stepSensed slot up)
    ∧ s.stepTaken slot up = if up && decide (u.conf.threshold ≤ ((s.sense slot).stepped up).bolt) then u.onCycle slot Cycle.onBoltReached
        else u := ⟨_, rfl, rfl⟩

theorem frame_stepTaken (s : State) (slot : Slot) (up : Bool) : UnchangedBut [.sensing, .doors] s (s.stepTaken slot up) := by
  obtain ⟨u, hu, hmarked⟩ := State.stepTaken_eq s slot up
  have hfirst : UnchangedBut [.doors] (s.stepSensed slot up) u := by
    rw [hu]
    exact frame_onCycleIf _ _ _ _
  rw [hmarked]
  exact ((frame_stepSensed s slot up).seq hfirst (rs := [.sensing, .doors])).seq (frame_onCycleIf _ u slot _)

theorem State.stepTaken_sense (s : State) (slot : Slot) (up : Bool) :
    (∃ idle, (s.stepTaken slot up).sense slot = { (s.sense slot).stepped up with homeIdle := idle })
      ∧ ∀ i, i ≠ slot → (s.stepTaken slot up).sense i = s.sense i := by
  obtain ⟨u, hu, hmarked⟩ := State.stepTaken_eq s slot up
  have hfirst : UnchangedBut [.doors] (s.stepSensed slot up) u := by
    rw [hu]
    exact frame_onCycleIf _ _ _ _
  have hafter : UnchangedBut [.doors] (s.stepSensed slot up) (s.stepTaken slot up) := by
    rw [hmarked]
    exact hfirst.trans (frame_onCycleIf _ u slot _)
  obtain ⟨⟨idle, hidle⟩, hothers⟩ := SensesStand.refreshIdle (s.setSense slot ((s.sense slot).stepped up)) slot
  refine ⟨⟨idle, (hafter.sense slot).trans (hidle.trans (by rw [State.setSense_sense_same]))⟩, fun i hi => ?_⟩
  exact (hafter.sense i).trans ((hothers i hi).trans (State.setSense_sense_ne _ _ hi))

/-- The cycle after the step's marks. -/
theorem State.stepTaken_cycle? {c : Cycle} (hc : s.cycle? slot = some c) : (s.stepTaken slot up).cycle? slot = some
    (if up && decide (s.conf.threshold ≤ ((s.sense slot).stepped up).bolt)
      then (if (s.sense slot).secure && !((s.sense slot).stepped up).secure then c.onBoltOff else c).onBoltReached
      else if (s.sense slot).secure && !((s.sense slot).stepped up).secure then c.onBoltOff else c) := by
  obtain ⟨u, hu, hmarked⟩ := State.stepTaken_eq s slot up
  have hcu : u.cycle? slot = some (if (s.sense slot).secure && !((s.sense slot).stepped up).secure then c.onBoltOff else c) := by
    rw [hu]
    exact State.onCycleIf_cycle? (((frame_stepSensed s slot up).cycle? slot).trans hc) _ (Cycle.onBoltOff_stage c).2
  have hconf : u.conf = s.conf := by
    rw [hu]
    exact ((frame_stepSensed s slot up).seq (frame_onCycleIf _ _ _ _) (rs := [.sensing, .doors])).conf
  rw [hmarked, State.onCycleIf_cycle? hcu _ (Cycle.onBoltReached_stage _).2, hconf]

/-- Outside the expected window a step marks nothing. -/
theorem DoorsStand.stepTaken (h : s.windowOpen slot = false) : DoorsStand slot s (s.stepTaken slot up) := by
  obtain ⟨u, hu, hmarked⟩ := State.stepTaken_eq s slot up
  have hclosed : ∀ c, s.cycle? slot = some c → c.stage.windowOpen = false := fun c hc => by rwa [← State.windowOpen_of_cycle hc]
  have hsensed : DoorsStand slot s (s.stepSensed slot up) := .of_frame (frame_stepSensed s slot up)
  have hfirst : DoorsStand slot s u := by
    rw [hu]
    exact hsensed.trans (.onCycleIf _ fun c hc => Cycle.onBoltOff_closed (hclosed c (hsensed.cycle.symm.trans hc)))
  rw [hmarked]
  exact hfirst.trans (.onCycleIf _ fun c hc => Cycle.onBoltReached_closed (hclosed c (hfirst.cycle.symm.trans hc)))

/-- A step's marks do not open or close the expected window. -/
theorem State.stepTaken_windowOpen (s : State) (slot : Slot) (up : Bool) :
    (s.stepTaken slot up).windowOpen slot = s.windowOpen slot := by
  cases hopen : s.windowOpen slot with
  | false => rw [(DoorsStand.stepTaken hopen).windowOpen, hopen]
  | true =>
    cases hc : s.cycle? slot with
    | none =>
      rw [State.windowOpen_of_none hc] at hopen
      cases hopen
    | some c =>
      rw [State.windowOpen_of_cycle hc] at hopen
      have hoff : (if (s.sense slot).secure && !((s.sense slot).stepped up).secure then c.onBoltOff else c).stage.windowOpen = true := by
        split
        exacts [(Cycle.onBoltOff_stage c).1.trans hopen, hopen]
      rw [State.windowOpen_of_cycle (State.stepTaken_cycle? hc)]
      split
      · rw [(Cycle.onBoltReached_stage _).1, hoff]
      · exact hoff

/-- The step that takes the count to the threshold outside the window is a forced report; any other is not. -/
theorem State.countStep_forced (hup : up = true) (hbolt : (s.sense slot).bolt + 1 = s.conf.threshold) (hmax : s.conf.threshold ≤ 15)
    (hclosed : s.windowOpen slot = false) : s.countStep slot up = (s.stepTaken slot up).forcedReport slot := by
  have hconf : (s.stepTaken slot up).conf = s.conf := (frame_stepTaken s slot up).conf
  have hstepped : ((s.sense slot).stepped up).bolt = s.conf.threshold := by
    rw [hup]
    show min ((s.sense slot).bolt + 1) 15 = _
    omega
  rw [State.countStep_eq, hconf, State.stepTaken_windowOpen, hclosed, hstepped, hup]
  exact if_pos (by simp [hbolt])

theorem State.countStep_quiet (h : up = false ∨ (s.sense slot).bolt + 1 ≠ s.conf.threshold ∨ s.windowOpen slot = true) :
    s.countStep slot up = s.stepTaken slot up := by
  have hconf : (s.stepTaken slot up).conf = s.conf := (frame_stepTaken s slot up).conf
  rw [State.countStep_eq, hconf, State.stepTaken_windowOpen]
  refine if_neg ?_
  rcases h with h | h | h <;> simp [h]

theorem SensesStand.countStep (s : State) (slot : Slot) (up : Bool) : SensesStand slot (s.stepTaken slot up) (s.countStep slot up) := by
  rw [State.countStep_eq]
  split
  exacts [.forcedReport _ slot, .of_frame (.refl [] _)]

theorem frame_countStep_after (s : State) (slot : Slot) (up : Bool) : UnchangedBut endParts (s.stepTaken slot up) (s.countStep slot up) := by
  rw [State.countStep_eq]
  split
  exacts [frame_forcedReport _ slot, .refl _ _]

end Step

theorem ForcedOnRequest.of_open {s t : State} {slot : Slot} {i : Instr} (h : s.windowOpen slot = true) : ForcedOnRequest slot i s t where
  starting c _ hc hstage := by
    rw [State.windowOpen_of_cycle hc, hstage] at h
    cases h
  pulseWait c _ hc hstage := by
    rw [State.windowOpen_of_cycle hc, hstage] at h
    cases h
  queued q r _ hc _ := by
    rw [State.windowOpen_of_none (State.cycle?_none_iff.mp hc)] at h
    cases h

/-! ## Table 3-1 (R25) -/

theorem edgeOf_a (e : EdgeEnables) (a b : Bool) : (edgeOf e .a (a, b)).1 = (a != b) := by
  cases a <;> cases b <;> rfl

theorem edgeOf_b (e : EdgeEnables) (a b : Bool) : (edgeOf e .b (a, b)).1 = (a == b) := by
  cases a <;> cases b <;> rfl

theorem edgeOf_all (gate : Gate) (now : Bool × Bool) : (edgeOf EdgeEnables.all gate now).2 = true := by
  obtain ⟨a, b⟩ := now
  cases gate <;> cases a <;> cases b <;> rfl

theorem exec_boltStep_unsampled {s : State} {slot : Slot} {gate : Gate} (h : s.loaded = false ∨ s.fitted slot = false) :
    exec (.boltStep slot gate) s = .next (s.setPin slot (fun p => p.flip gate)) := by
  refine congrArg Host.Outcome.next (if_pos ?_)
  rw [(frame_setPin s slot _).sampled]
  exact Bool.and_eq_false_iff.mpr h

/-- The state in which a gate's change is classified: the new levels at the inputs and in the sample. -/
def State.gateTaken (slot : Slot) (gate : Gate) (s : State) : State :=
  (s.setPin slot (fun p => p.flip gate)).takeGates slot ((tget s.pins slot).flip gate).gates

theorem frame_gateTaken (s : State) (slot : Slot) (gate : Gate) : UnchangedBut [.pins, .sensing] s (s.gateTaken slot gate) :=
  (frame_setPin s slot _).seq (frame_takeGates _ slot _)

theorem State.gateTaken_pins (s : State) (slot : Slot) (gate : Gate) :
    tget (s.gateTaken slot gate).pins slot = (tget s.pins slot).flip gate
      ∧ ∀ i, i ≠ slot → tget (s.gateTaken slot gate).pins i = tget s.pins i := by
  have hpins : Part.pins.same (s.setPin slot (fun p => p.flip gate)) (s.gateTaken slot gate) := (frame_takeGates _ slot _).part .pins
  rw [hpins]
  exact ⟨State.setPin_pin_same s slot _, fun i hi => State.setPin_pin_ne s _ hi⟩

theorem State.gateTaken_sense (s : State) (slot : Slot) (gate : Gate) : (∃ idle, (s.gateTaken slot gate).sense slot
      = { s.sense slot with gates := some ((tget s.pins slot).flip gate).gates, homeIdle := idle })
    ∧ ∀ i, i ≠ slot → (s.gateTaken slot gate).sense i = s.sense i := by
  have hpin := frame_setPin s slot (fun p => p.flip gate)
  obtain ⟨⟨idle, hidle⟩, hothers⟩ := State.takeGates_sense (s.setPin slot (fun p => p.flip gate)) slot ((tget s.pins slot).flip gate).gates
  exact ⟨⟨idle, hidle.trans (by rw [hpin.sense])⟩, fun i hi => (hothers i hi).trans (hpin.sense i)⟩

theorem exec_boltStep_first {s : State} {slot : Slot} {gate : Gate} (hload : s.loaded = true) (hfit : s.fitted slot = true)
    (hg : (s.sense slot).gates = none) : exec (.boltStep slot gate) s = .next (s.gateTaken slot gate).conclude := by
  have hpin := frame_setPin s slot (fun p => p.flip gate)
  refine congrArg Host.Outcome.next ((if_neg ?_).trans ((if_pos ?_).trans ?_))
  · rw [hpin.sampled, State.sampled_iff.mpr ⟨hload, hfit⟩]
    exact Bool.noConfusion
  · rw [hpin.sense, hg]
    rfl
  · rw [State.setPin_pin_same]
    rfl

/-- What a gate's change makes of the state with the new levels taken: a step where its case is enabled (R25). -/
theorem exec_boltStep_edge {s : State} {slot : Slot} {gate : Gate} (hload : s.loaded = true) (hfit : s.fitted slot = true)
    (hg : (s.sense slot).gates.isSome = true) : exec (.boltStep slot gate) s = .next
      (if (edgeOf s.conf.edges gate ((tget s.pins slot).flip gate).gates).2 then
        (s.gateTaken slot gate).countStep slot (edgeOf s.conf.edges gate ((tget s.pins slot).flip gate).gates).1
      else s.gateTaken slot gate).conclude := by
  have hpin := frame_setPin s slot (fun p => p.flip gate)
  refine congrArg Host.Outcome.next ((if_neg ?_).trans ((if_neg ?_).trans ?_))
  · rw [hpin.sampled, State.sampled_iff.mpr ⟨hload, hfit⟩]
    exact Bool.noConfusion
  · rw [hpin.sense]
    simpa using Option.isSome_iff_ne_none.mp hg
  · rw [State.setPin_pin_same]
    rfl

/-- The sensing states after a counted step, from the state in which it is counted. -/
theorem State.countStep_sense (s : State) (slot : Slot) (up : Bool) :
    (∃ idle, (s.countStep slot up).sense slot = { (s.sense slot).stepped up with homeIdle := idle })
      ∧ ∀ i, i ≠ slot → (s.countStep slot up).sense i = s.sense i := by
  obtain ⟨⟨idle, hidle⟩, hothers⟩ := State.stepTaken_sense s slot up
  obtain ⟨⟨later, hlater⟩, hafter⟩ := SensesStand.countStep s slot up
  exact ⟨⟨later, by rw [hlater, hidle]⟩, fun i hi => (hafter i hi).trans (hothers i hi)⟩

theorem frame_countStep_open {s : State} {slot : Slot} {up : Bool}
    (h : up = false ∨ (s.sense slot).bolt + 1 ≠ s.conf.threshold ∨ s.windowOpen slot = true) :
    UnchangedBut [.sensing, .doors] s (s.countStep slot up) := by
  rw [State.countStep_quiet h]
  exact frame_stepTaken s slot up

theorem frame_stepTaken_idle {s : State} {slot : Slot} (up : Bool) (h : s.cycle? slot = none) :
    UnchangedBut [.sensing] s (s.stepTaken slot up) := by
  have hdoors : DoorsStand slot s (s.stepTaken slot up) := .stepTaken (State.windowOpen_of_none h)
  intro p hp
  by_cases hd : p = .doors
  · rw [hd]
    exact hdoors.alone h
  · exact frame_stepTaken s slot up p (by simp_all)

/-- A step on a slot without a door cycle. -/
theorem frame_countStep_idle {s : State} {slot : Slot} (up : Bool) (h : s.hasDoorCycle slot = false) :
    UnchangedBut [.records, .store, .sensing, .conditions, .counters, .transmit, .free] s (s.countStep slot up) := by
  have hstep := frame_stepTaken_idle up (State.cycle?_none_of_idle h)
  rw [State.countStep_eq]
  split
  · rw [State.forcedReport_table ((hstep.hasDoorCycle slot).trans h)]
    exact hstep.seq (frame_forceTable _ slot)
  · exact hstep.wide

/-- A step of the gates while the cycle's window is open: the cycle after the marks. -/
theorem State.countStep_cycle? {s : State} {slot : Slot} {up : Bool} {c : Cycle} (hc : s.cycle? slot = some c)
    (hopen : c.stage.windowOpen = true) : (s.countStep slot up).cycle? slot = some
      (if up && decide (s.conf.threshold ≤ ((s.sense slot).stepped up).bolt)
        then (if (s.sense slot).secure && !((s.sense slot).stepped up).secure then c.onBoltOff else c).onBoltReached
        else if (s.sense slot).secure && !((s.sense slot).stepped up).secure then c.onBoltOff else c) := by
  rw [State.countStep_quiet (.inr (.inr ((State.windowOpen_of_cycle hc).trans hopen)))]
  exact State.stepTaken_cycle? hc

/-- The part of O48 about an enabled step, from the state in which it is counted. -/
theorem State.countStep_counts (s : State) (slot : Slot) (up : Bool) :
    ((s.countStep slot up).sense slot).bolt = (if up then min ((s.sense slot).bolt + 1) 15 else (s.sense slot).bolt - 1)
      ∧ (2 ≤ ((s.countStep slot up).sense slot).bolt → ((s.countStep slot up).sense slot).boltLow = none)
      ∧ (((s.countStep slot up).sense slot).bolt < 2 →
        ((s.countStep slot up).sense slot).boltLow = some ((s.sense slot).boltLow.getD 0)) := by
  obtain ⟨⟨idle, hidle⟩, -⟩ := State.countStep_sense s slot up
  rw [hidle]
  exact ⟨rfl, fun h => if_pos h, fun h => if_neg (Nat.not_le.mpr h)⟩

theorem State.countStep_reached {s : State} {slot : Slot} {c : Cycle} (hc : s.cycle? slot = some c) (hstage : c.stage = .driving)
    (hbolt : s.conf.threshold ≤ ((s.countStep slot true).sense slot).bolt) :
    (s.countStep slot true).cycle? slot = some { c with boltReached := true } := by
  obtain ⟨⟨idle, hidle⟩, -⟩ := State.countStep_sense s slot true
  rw [hidle] at hbolt
  have hoff : (if (s.sense slot).secure && !((s.sense slot).stepped true).secure then c.onBoltOff else c) = c := by
    rw [Cycle.onBoltOff_other (by rw [hstage]; exact Stage.noConfusion), ite_self]
  rw [State.countStep_cycle? hc (by rw [hstage]; rfl), hoff, Cycle.onBoltReached_driving hstage]
  exact congrArg some (if_pos (by simpa using hbolt))

theorem State.countStep_unsettled {s : State} {slot : Slot} {up : Bool} {c : Cycle} (hc : s.cycle? slot = some c)
    (hstage : c.stage = .settle) (hf : c.latchFault = false) (hsecure : (s.sense slot).secure = true)
    (hbolt : 2 ≤ ((s.countStep slot up).sense slot).bolt) :
    (s.countStep slot up).cycle? slot = some { c with stage := .closing, settle := none } := by
  obtain ⟨⟨idle, hidle⟩, -⟩ := State.countStep_sense s slot up
  rw [hidle] at hbolt
  have hlow : ((s.sense slot).stepped up).boltLow = none := if_pos hbolt
  have hlost : ((s.sense slot).secure && !((s.sense slot).stepped up).secure) = true := by
    unfold Sense.secure at hsecure ⊢
    rw [hlow, hsecure]
    simp
  rw [State.countStep_cycle? hc (by rw [hstage]; rfl), if_pos hlost, Cycle.onBoltOff_settle hstage hf,
    Cycle.onBoltReached_other (c := { c with stage := .closing, settle := none }) (fun h => by cases h), ite_self]

/-- A counted step seen from before the gate's change. -/
theorem ForcedOnRequest.countStep {s w : State} {slot : Slot} {up : Bool} {i : Instr} (hframe : UnchangedBut [.pins, .sensing] s w)
    (hread : ReadsAlike slot s w) (hup : up = true) (hbolt : (w.sense slot).bolt + 1 = w.conf.threshold) (hmax : w.conf.threshold ≤ 15)
    (hexec : exec i s = .next (w.countStep slot up).conclude) : ForcedOnRequest slot i s (w.countStep slot up) := by
  cases hopen : s.windowOpen slot with
  | true => exact .of_open hopen
  | false =>
    have hclosed : w.windowOpen slot = false := (hframe.windowOpen slot).trans hopen
    have hstep := frame_stepTaken w slot up
    obtain ⟨⟨idle, hidle⟩, -⟩ := State.stepTaken_sense w slot up
    exact .forcedReport (hframe.seq hstep) ((DoorsStand.of_frame hframe).trans (.stepTaken hclosed))
      (hread.trans ⟨by rw [hidle]; rfl, by rw [hstep.tx]⟩) (fun _ => State.countStep_forced hup hbolt hmax hclosed) hexec

theorem State.doubleGate_spec (s : State) (slot : Slot) : ∃ t, exec (.doubleGateChange slot) s = .next t
    ∧ tget t.pins slot = { tget s.pins slot with gateA := !(tget s.pins slot).gateA, gateB := !(tget s.pins slot).gateB }
    ∧ (∀ i, i ≠ slot → tget t.pins i = tget s.pins i ∧ t.sense i = s.sense i)
    ∧ (t.sense slot).bolt = (s.sense slot).bolt
    ∧ (s.loaded = true → s.fitted slot = true → (t.sense slot).gates = some ((tget t.pins slot).gateA, (tget t.pins slot).gateB))
    ∧ UnchangedBut [.pins, .sensing] s t := by
  have hpin := frame_setPin s slot (fun p => (p.flip .a).flip .b)
  have hsame := State.setPin_pin_same s slot (fun p => (p.flip .a).flip .b)
  have hothers : ∀ i, i ≠ slot → tget (s.setPin slot (fun p => (p.flip .a).flip .b)).pins i = tget s.pins i :=
    fun i hi => State.setPin_pin_ne s _ hi
  by_cases hsampled : s.sampled slot = true
  · have hgates := frame_takeGates (s.setPin slot (fun p => (p.flip .a).flip .b)) slot
      (tget (s.setPin slot (fun p => (p.flip .a).flip .b)).pins slot).gates
    have hpins : Part.pins.same (s.setPin slot (fun p => (p.flip .a).flip .b)) _ := hgates.part .pins
    obtain ⟨⟨idle, hidle⟩, hsenses⟩ := State.takeGates_sense (s.setPin slot (fun p => (p.flip .a).flip .b)) slot
      (tget (s.setPin slot (fun p => (p.flip .a).flip .b)).pins slot).gates
    refine ⟨_, congrArg Host.Outcome.next (if_pos ((hpin.sampled slot).trans hsampled)), ?_, fun i hi => ⟨?_, ?_⟩, ?_,
      fun _ _ => ?_, hpin.seq hgates⟩
    · rw [hpins]
      exact hsame
    · rw [hpins]
      exact hothers i hi
    · exact (hsenses i hi).trans (hpin.sense i)
    · rw [hidle, hpin.sense]
    · rw [hidle, hpins]
      rfl
  · refine ⟨_, congrArg Host.Outcome.next (if_neg ((hpin.sampled slot).symm ▸ hsampled)), hsame,
      fun i hi => ⟨hothers i hi, hpin.sense i⟩, by rw [hpin.sense], fun hload hfit => ?_, hpin.wide⟩
    exact absurd (State.sampled_iff.mpr ⟨hload, hfit⟩) hsampled

theorem exec_homeReZero {s : State} {slot : Slot} (hload : s.loaded = true) (hfit : s.fitted slot = true)
    (hidle : (s.sense slot).homeIdle.isSome = true) :
    exec (.homeReZero slot) s = .next (s.setSense slot (s.sense slot).reZeroed) := by
  refine congrArg Host.Outcome.next (if_pos ?_)
  rw [State.sampled_iff.mpr ⟨hload, hfit⟩, hidle]
  rfl

/-- Settles O48: a gate's change by the cases of its slot (not sampled, without an earlier sample, disabled, enabled). -/
theorem boltStepsFollowTable31 : Obligations.BoltStepsFollowTable31 := by
  refine ⟨fun s slot gate => ?_, State.doubleGate_spec, fun s slot hload hfit hidle => ?_⟩
  · by_cases hsampled : s.sampled slot = true
    · obtain ⟨hload, hfit⟩ := State.sampled_iff.mp hsampled
      have hout : s.loaded = false ∨ s.fitted slot = false → False := by simp [hload, hfit]
      have htaken := frame_gateTaken s slot gate
      obtain ⟨hpin, hpins⟩ := State.gateTaken_pins s slot gate
      obtain ⟨⟨idle, hidle⟩, hsenses⟩ := State.gateTaken_sense s slot gate
      have hnow : ((tget s.pins slot).flip gate).gates
          = ((tget (s.gateTaken slot gate).pins slot).gateA, (tget (s.gateTaken slot gate).pins slot).gateB) := by rw [hpin]; rfl
      by_cases hgates : (s.sense slot).gates = none
      · refine ⟨s.gateTaken slot gate, hpin, hpins, hsenses, fun h => (hout h).elim, fun _ _ =>
          ⟨exec_boltStep_first hload hfit hgates, by rw [hidle, ← hnow], fun _ => ⟨by rw [hidle], htaken⟩, fun h => ?_⟩⟩
        rw [hgates] at h
        cases h
      · have hexec := exec_boltStep_edge (gate := gate) hload hfit (Option.isSome_iff_ne_none.mpr hgates)
        cases henabled : (edgeOf s.conf.edges gate ((tget s.pins slot).flip gate).gates).2 with
        | false =>
          rw [henabled] at hexec
          refine ⟨s.gateTaken slot gate, hpin, hpins, hsenses, fun h => (hout h).elim, fun _ _ =>
            ⟨hexec, by rw [hidle, ← hnow], fun h => absurd h hgates, fun _ up enabled _ hen => ?_⟩⟩
          rw [← hnow, henabled] at hen
          subst hen
          refine ⟨fun hall => ?_, fun _ => ⟨by rw [hidle], by rw [hidle], htaken⟩, fun h => by cases h⟩
          rw [hall, edgeOf_all] at henabled
          cases henabled
        | true =>
          rw [henabled, if_pos rfl] at hexec
          have hconf : (s.gateTaken slot gate).conf = s.conf := htaken.conf
          have hbolt : ((s.gateTaken slot gate).sense slot).bolt = (s.sense slot).bolt := by rw [hidle]
          have hlow : ((s.gateTaken slot gate).sense slot).boltLow = (s.sense slot).boltLow := by rw [hidle]
          have hsecure : ((s.gateTaken slot gate).sense slot).secure = (s.sense slot).secure := by rw [hidle]; rfl
          have hread : ReadsAlike slot s (s.gateTaken slot gate) := ⟨by rw [hidle], by rw [htaken.tx]⟩
          generalize hdir : (edgeOf s.conf.edges gate ((tget s.pins slot).flip gate).gates).1 = dir at hexec
          have hstep : UnchangedBut endParts (s.gateTaken slot gate) ((s.gateTaken slot gate).countStep slot dir) :=
            (frame_stepTaken _ slot dir).seq (frame_countStep_after _ slot dir)
          have hpinsStep : Part.pins.same (s.gateTaken slot gate) ((s.gateTaken slot gate).countStep slot dir) := hstep.part .pins
          obtain ⟨⟨later, hlater⟩, hafter⟩ := State.countStep_sense (s.gateTaken slot gate) slot dir
          obtain ⟨hcount, hnone, hsome⟩ := State.countStep_counts (s.gateTaken slot gate) slot dir
          refine ⟨_, by rw [hpinsStep]; exact hpin, fun i hi => by rw [hpinsStep]; exact hpins i hi,
            fun i hi => (hafter i hi).trans (hsenses i hi), fun h => (hout h).elim, fun _ _ => ⟨hexec, ?_, fun h => absurd h hgates,
            fun _ up enabled hup hen => ?_⟩⟩
          · rw [hlater, hpinsStep, ← hnow, hidle]
            exact rfl
          rw [hpinsStep, ← hnow, henabled] at hen
          subst hen
          rw [hpinsStep] at hup
          have hdirection : up = dir := by
            rw [← hdir, hnow]
            cases gate with
            | a => exact hup.trans (edgeOf_a _ _ _).symm
            | b => exact hup.trans (edgeOf_b _ _ _).symm
          subst hdirection
          refine ⟨fun _ => rfl, (fun h => nomatch h), fun _ => ⟨by rw [hcount, hbolt], hnone, fun h => by rw [hsome h, hlow],
            fun c hc hstage hu hreached => ?_, fun c hc hstage hf hsec hle => ?_, fun hquiet => ?_, fun r hu hb hmax hno hr => ?_,
            fun hu hb hmax => ?_, fun hno => ?_⟩⟩
          · subst hu
            exact State.countStep_reached ((htaken.cycle? slot).trans hc) hstage (by rwa [hconf])
          · exact State.countStep_unsettled ((htaken.cycle? slot).trans hc) hstage hf (hsecure.trans hsec) hle
          · exact htaken.seq (frame_countStep_open (by rwa [hbolt, hconf, htaken.windowOpen]))
          · have hidleSlot := (htaken.hasDoorCycle slot).trans hno
            have hnoCycle := State.cycle?_none_of_idle hidleSlot
            have hquietStep := frame_stepTaken_idle (up := up) hnoCycle
            rw [State.countStep_forced hu (by rw [hbolt, hconf, hb]) (by rwa [hconf]) (State.windowOpen_of_none hnoCycle),
              State.forcedReport_table ((hquietStep.hasDoorCycle slot).trans hidleSlot)]
            have hbefore : UnchangedBut [.pins, .sensing] s _ := htaken.seq hquietStep
            exact (ForcedOnTable.forceTable ((hbefore.rec? slot).trans hr)).after hbefore
          · exact .countStep htaken hread hu (by rw [hbolt, hconf, hb]) (by rwa [hconf]) hexec
          · exact htaken.seq (frame_countStep_idle up ((htaken.hasDoorCycle slot).trans hno))
    · have hunsampled : s.loaded = false ∨ s.fitted slot = false := Bool.and_eq_false_iff.mp (eq_false_of_ne_true hsampled)
      refine ⟨s.setPin slot (fun p => p.flip gate), State.setPin_pin_same s slot _, fun i hi => State.setPin_pin_ne s _ hi,
        fun i _ => (frame_setPin s slot _).sense i, fun _ => ⟨exec_boltStep_unsampled hunsampled, frame_setPin s slot _⟩,
        fun hload hfit => ?_⟩
      exact absurd (State.sampled_iff.mpr ⟨hload, hfit⟩) hsampled
  · have hset := frame_setSense s slot (s.sense slot).reZeroed
    have hsame := State.setSense_sense_same s slot (s.sense slot).reZeroed
    refine ⟨_, exec_homeReZero hload hfit hidle, ?_⟩
    rw [hsame]
    exact ⟨rfl, rfl, rfl, rfl, rfl, rfl, fun i hi => State.setSense_sense_ne s _ hi, hset⟩

end Sys2Proof.Machine
end

