-- ==== Sys2Proof/Proofs/Slots.lean ====
section
/- One theorem after another: side by side, their proofs ask for more threads than the check's memory limit allows. -/
set_option Elab.async false

/-! SUPPORT. The slots of an entry: their updates, a slot that is done (R84, R87, R89), and the quotes it keeps (R126). -/

namespace Sys2Proof.Machine

/-! ## The list of an entry -/

section SlotList

variable (e : Entry) (slot : Slot) (f : EntrySlot → EntrySlot)

theorem Entry.slot?_updSlot_same (hf : ∀ x, (f x).slot = x.slot) : (e.updSlot slot f).slot? slot = (e.slot? slot).map f := by
  unfold Entry.slot? Entry.updSlot
  dsimp only
  induction e.slots with
  | nil => rfl
  | cons x xs ih =>
    by_cases hx : x.slot = slot
    · rw [List.map_cons, if_pos hx, List.find?_cons_of_pos (by simp [hf, hx]), List.find?_cons_of_pos (by simp [hx])]
      rfl
    · rw [List.map_cons, if_neg hx, List.find?_cons_of_neg (by simp [hx]), List.find?_cons_of_neg (by simp [hx]), ih]

theorem Entry.slot?_updSlot_ne {i : Slot} (hf : ∀ x, (f x).slot = x.slot) (hi : i ≠ slot) : (e.updSlot slot f).slot? i = e.slot? i := by
  unfold Entry.slot? Entry.updSlot
  dsimp only
  induction e.slots with
  | nil => rfl
  | cons x xs ih =>
    have hslot : (if x.slot = slot then f x else x).slot = x.slot := by
      split
      exacts [hf x, rfl]
    rw [List.map_cons]
    by_cases hx : x.slot = i
    · have hne : x.slot ≠ slot := fun h => hi (hx.symm.trans h)
      rw [List.find?_cons_of_pos (by rw [beq_iff_eq, hslot, hx]), List.find?_cons_of_pos (by simp [hx]), if_neg hne]
    · rw [List.find?_cons_of_neg (by rwa [beq_iff_eq, hslot]), List.find?_cons_of_neg (by simp [hx]), ih]

theorem Entry.slotList_updSlot (hf : ∀ x, (f x).slot = x.slot) : (e.updSlot slot f).slotList = e.slotList := by
  unfold Entry.slotList Entry.updSlot
  rw [List.map_map]
  refine List.map_congr_left fun x _ => ?_
  show (if x.slot = slot then f x else x).slot = x.slot
  split
  exacts [hf x, rfl]

theorem Entry.job_updSlot : (e.updSlot slot f).job = e.job := rfl

end SlotList

theorem Entry.slot?_slot {e : Entry} {slot : Slot} {x : EntrySlot} (h : e.slot? slot = some x) : x.slot = slot ∧ x ∈ e.slots := by
  refine ⟨?_, List.mem_of_find?_eq_some h⟩
  simpa using List.find?_some h

theorem Entry.anyDoor_iff {e : Entry} : e.anyDoor = true ↔ ∃ x ∈ e.slots, x.progress = .door := by
  unfold Entry.anyDoor
  simp

theorem Entry.allDone_iff {e : Entry} : e.allDone = true ↔ ∀ x ∈ e.slots, x.progress = .done := by
  unfold Entry.allDone
  simp

/-! ## A slot that is done (R84, R89) -/

/-- An entry with one slot's hold released. -/
def Entry.slotReleased (e : Entry) (slot : Slot) : Entry :=
  e.updSlot slot (fun x => { x with progress := .done, quote := none, mark := false })

theorem Entry.holds_slotReleased (e : Entry) (slot : Slot) : (e.slotReleased slot).holds slot = false := by
  unfold Entry.holds
  refine Bool.and_eq_false_imp.mpr fun _ => List.any_eq_false.mpr fun y hy => ?_
  obtain ⟨x, -, rfl⟩ := List.mem_map.mp hy
  dsimp only
  split
  · simp
  · rename_i hx
    simp [hx]

theorem Entry.slot?_slotReleased_ne (e : Entry) {slot i : Slot} (hi : i ≠ slot) : (e.slotReleased slot).slot? i = e.slot? i :=
  Entry.slot?_updSlot_ne e slot (fun x => { x with progress := .done, quote := none, mark := false }) (fun _ => rfl) hi

theorem Entry.allDone_slotReleased {e : Entry} {slot : Slot} :
    (e.slotReleased slot).allDone = true ↔ ∀ x ∈ e.slots, x.slot = slot ∨ x.progress = .done := by
  rw [Entry.allDone_iff]
  constructor
  · intro h x hx
    by_cases hs : x.slot = slot
    · exact .inl hs
    · have := h _ (List.mem_map.mpr ⟨x, hx, rfl⟩)
      rw [if_neg hs] at this
      exact .inr this
  · intro h y hy
    obtain ⟨x, hx, rfl⟩ := List.mem_map.mp hy
    dsimp only
    split
    · rfl
    · rename_i hs
      exact (h x hx).resolve_left hs

theorem NoMarks.slotReleased {e : Entry} (h : NoMarks e) (slot : Slot) : NoMarks (e.slotReleased slot) := by
  intro y hy
  obtain ⟨x, hx, rfl⟩ := List.mem_map.mp hy
  dsimp only
  split
  exacts [rfl, h x hx]

theorem State.releaseSlot_eq (s : State) (j : Job) (slot : Slot) : s.releaseSlot j slot
    = if s.markOf j slot then (s.updEntry j (fun e => e.slotReleased slot)).deferredExpiry slot
      else s.updEntry j (fun e => e.slotReleased slot) := rfl

theorem frame_releaseSlot_expiry (s : State) (j : Job) (slot : Slot) :
    UnchangedBut expiryParts (s.updEntry j (fun e => e.slotReleased slot)) (s.releaseSlot j slot) := by
  rw [State.releaseSlot_eq]
  split
  exacts [frame_deferredExpiry _ slot, .refl _ _]

theorem State.entry?_releaseSlot_same (s : State) (j : Job) (slot : Slot) :
    (s.releaseSlot j slot).entry? j = (s.entry? j).map (fun e => e.slotReleased slot) := by
  rw [(frame_releaseSlot_expiry s j slot).entry?]
  exact State.entry?_updEntry_same s j _ fun _ => rfl

theorem State.markOf_noMarks {s : State} {j : Job} (h : ∀ e, s.entry? j = some e → NoMarks e) (slot : Slot) : s.markOf j slot = false := by
  unfold State.markOf
  split
  · rename_i x hx
    obtain ⟨e, he, hslot⟩ := Option.bind_eq_some_iff.mp hx
    exact h e he x (Entry.slot?_slot hslot).2
  · rfl

theorem State.endIfDone_done {s : State} {j : Job} {e : Entry} (he : s.entry? j = some e) (h : e.allDone = true) :
    s.endIfDone j = s.finishEntry j := by
  unfold State.endIfDone
  rw [he]
  exact if_pos h

theorem State.endIfDone_left {s : State} {j : Job} {e : Entry} (he : s.entry? j = some e) (h : e.allDone = false) :
    s.endIfDone j = if e.kind = .collect then s.updEntry j Entry.restartLapse else s := by
  unfold State.endIfDone
  rw [he]
  exact if_neg (by simp [h])

theorem SlotFreed.slotDone {s : State} {j : Job} {e : Entry} (he : s.entry? j = some e) (slot : Slot) :
    SlotFreed j slot e (s.slotDone j slot) := by
  have hreleased : (s.releaseSlot j slot).entry? j = some (e.slotReleased slot) := by rw [State.entry?_releaseSlot_same, he]; rfl
  refine ⟨fun hall => ?_, fun ⟨x, hx, hne, hleft⟩ => ?_⟩
  · unfold State.slotDone
    rw [State.endIfDone_done hreleased (Entry.allDone_slotReleased.mpr hall)]
    exact State.entry?_finishEntry_same _ _
  · have hsome : (e.slotReleased slot).allDone = false := by
      rw [← Bool.not_eq_true, Entry.allDone_slotReleased]
      exact fun h => (h x hx).elim hne hleft
    unfold State.slotDone
    rw [State.endIfDone_left hreleased hsome]
    split
    · refine ⟨(e.slotReleased slot).restartLapse, ?_, Entry.holds_slotReleased e slot, fun i hi => Entry.slot?_slotReleased_ne e hi⟩
      rw [State.entry?_updEntry_same _ _ Entry.restartLapse (fun _ => rfl), hreleased]
      rfl
    · exact ⟨_, hreleased, Entry.holds_slotReleased e slot, fun i hi => Entry.slot?_slotReleased_ne e hi⟩

/-- Without pending expiry marks only the entry changes. -/
theorem frame_slotDone_noMarks {s : State} {j : Job} (h : ∀ e, s.entry? j = some e → NoMarks e) (slot : Slot) :
    UnchangedBut [.requests] s (s.slotDone j slot) := by
  have hrelease : s.releaseSlot j slot = s.updEntry j (fun e => e.slotReleased slot) := by
    rw [State.releaseSlot_eq, State.markOf_noMarks h]
    exact if_neg Bool.false_ne_true
  have hmarks : ∀ d, (s.releaseSlot j slot).entry? j = some d → NoMarks d := by
    intro d hd
    rw [State.entry?_releaseSlot_same] at hd
    obtain ⟨e, he, rfl⟩ := Option.map_eq_some_iff.mp hd
    exact (h e he).slotReleased slot
  have hfirst : UnchangedBut [.requests] s (s.releaseSlot j slot) := by
    rw [hrelease]
    exact frame_updEntry s j _
  refine hfirst.trans ?_
  show UnchangedBut _ (s.releaseSlot j slot) ((s.releaseSlot j slot).endIfDone j)
  unfold State.endIfDone
  split
  · exact .refl _ _
  · split
    · rw [State.finishEntry_of_noMarks hmarks]
      exact frame_dropEntry _ j
    · split
      exacts [frame_updEntry _ _ _, .refl _ _]

/-! ## Quotes (R126) -/

/-- A slot of an entry with a quote that becomes its current one. -/
def EntrySlot.quoted (q : Quote) (x : EntrySlot) : EntrySlot := if x.progress = .done then x else { x with quote := some q }

theorem EntrySlot.quoted_slot (q : Quote) (x : EntrySlot) : (x.quoted q).slot = x.slot := by
  unfold EntrySlot.quoted
  split <;> rfl

theorem EntrySlot.quoted_progress (q : Quote) (x : EntrySlot) : (x.quoted q).progress = x.progress := by
  unfold EntrySlot.quoted
  split <;> rfl

theorem EntrySlot.quoted_left {x : EntrySlot} (h : x.progress ≠ .done) (q : Quote) : x.quoted q = { x with quote := some q } := if_neg h

theorem State.issueQuote_entry? {s : State} {j : Job} {e : Entry} (he : s.entry? j = some e) (slot : Slot) (p : Parcel) (t : Nat) :
    (s.issueQuote j slot p t).entry? j = some (e.updSlot slot (EntrySlot.quoted (s.quoteFor slot p t))) := by
  have hkept := State.entry?_updEntry_same s j (fun e => e.updSlot slot (EntrySlot.quoted (s.quoteFor slot p t))) (fun _ => rfl)
  rw [he] at hkept
  exact hkept

theorem State.issueQuote_counter (s : State) (j : Job) (slot : Slot) (p : Parcel) (t : Nat) :
    (s.issueQuote j slot p t).quoteCounter = s.quoteCounter + 1 := rfl

theorem Entry.anyDoor_updSlot {e : Entry} {slot : Slot} {f : EntrySlot → EntrySlot} (hf : ∀ x, (f x).progress = x.progress) :
    (e.updSlot slot f).anyDoor = e.anyDoor := by
  unfold Entry.anyDoor Entry.updSlot
  rw [List.any_map]
  congr 1
  funext x
  show ((if x.slot = slot then f x else x).progress == _) = _
  split
  · rw [hf]
  · rfl

end Sys2Proof.Machine
end

