-- ==== Sys2Proof/Proofs/DoorRequests.lean ====
section
/- One theorem after another: side by side, their proofs ask for more threads than the check's memory limit allows. -/
set_option Elab.async false

/-! SUPPORT. A door request is asked for and started (R41 to R43), with its start check (R142). -/

namespace Sys2Proof.Machine

/-! ## Expiry as the tests read it (R115) -/

theorem State.treatedExpired_iff {s : State} {p : Parcel} : s.treatedExpired p s.clk.minute = true ↔ ExpiredNow p s := by
  unfold State.treatedExpired ExpiredNow
  cases hp : p.purpose with
  | expired => simp
  | carrierReturn => simp
  | delivery =>
    unfold Parcel.due
    cases hl : p.limit with
    | none => simp
    | some h => simp

theorem State.sweepable_iff {s : State} {p : Parcel} {carrier : Nat} : s.sweepable p carrier = true
    ↔ p.carrier = carrier ∧ (p.purpose = .carrierReturn ∨ ExpiredNow p s) := by
  unfold State.sweepable
  rw [Bool.and_eq_true, Bool.or_eq_true, State.treatedExpired_iff, beq_iff_eq, beq_iff_eq]

theorem ExpiredNow.not_return {p : Parcel} {s : State} (h : ExpiredNow p s) : p.purpose ≠ .carrierReturn := by
  intro hp
  rcases h with h | ⟨h, -⟩ <;> rw [hp] at h <;> cases h

theorem ExpiredNow.congr {p : Parcel} {s t : State} (h : t.clk = s.clk) : ExpiredNow p t ↔ ExpiredNow p s := by
  unfold ExpiredNow
  rw [h]

theorem State.parcel?_rec {s : State} {slot : Slot} {r : CompRec} (h : s.rec? slot = some r) : s.parcel? slot = r.state.parcel? := by
  unfold State.parcel?
  rw [h]
  rfl

theorem State.parcel?_occupied {s : State} {slot : Slot} {r : CompRec} {p : Parcel} (h : s.rec? slot = some r)
    (hp : r.state = .occupied p) : s.parcel? slot = some p := by
  rw [State.parcel?_rec h, hp]
  rfl

theorem State.carrierOf_parcel {s : State} {slot : Slot} {p : Parcel} (h : s.parcel? slot = some p) : s.carrierOf slot = p.carrier := by
  unfold State.carrierOf
  rw [h]

theorem State.parcelRef_parcel {s : State} {slot : Slot} {p : Parcel} (h : s.parcel? slot = some p) : s.parcelRef slot = p.ref := by
  unfold State.parcelRef
  rw [h]

theorem State.entryCarrier_of {s : State} {j : Job} {e : Entry} (h : s.entry? j = some e) : s.entryCarrier j = e.carrier := by
  unfold State.entryCarrier
  rw [h]

/-! ## The judgments (Table 10-3, R142) -/

section Judgments

variable {s : State} {slot : Slot} {r : CompRec} {p : Parcel}

theorem State.judgeCollect_occupied (hr : s.rec? slot = some r) (hp : r.state = .occupied p) : s.judgeCollect slot
    = if p.purpose = .carrierReturn then .state else if s.treatedExpired p s.clk.minute then .expired
      else if 0 < amountDue s.conf (s.size slot) p s.clk.minute then .unpaid else .pass := by
  unfold State.judgeCollect
  rw [hr]
  dsimp only
  rw [hp]

theorem State.judgeCollect_expired (hr : s.rec? slot = some r) (hp : r.state = .occupied p) (h : ExpiredNow p s) :
    s.judgeCollect slot = .expired := by
  rw [State.judgeCollect_occupied hr hp, if_neg h.not_return, if_pos (State.treatedExpired_iff.mpr h)]

theorem State.judgeCollect_delivery (hr : s.rec? slot = some r) (hp : r.state = .occupied p) (hd : p.purpose = .delivery)
    (h : ¬ExpiredNow p s) : s.judgeCollect slot
      = if 0 < amountDue s.conf (s.size slot) p s.clk.minute then .unpaid else .pass := by
  rw [State.judgeCollect_occupied hr hp, if_neg (by rw [hd]; exact Purpose.noConfusion), if_neg (by rwa [State.treatedExpired_iff])]

/-- No parcel of an OCCUPIED compartment that is not a RETURN: nothing can be collected. -/
theorem State.judgeCollect_state (h : ∀ r p, s.rec? slot = some r → r.state = .occupied p → p.purpose = .carrierReturn) :
    s.judgeCollect slot = .state := by
  unfold State.judgeCollect
  split
  · rfl
  · rename_i r hr
    split
    · rename_i p hp
      exact if_pos (h r p hr hp)
    · rfl

theorem State.judgeSweep_pass (hr : s.rec? slot = some r) (hp : r.state = .occupied p) {carrier : Nat}
    (h : s.sweepable p carrier = true) : s.judgeSweep slot carrier = .pass := by
  unfold State.judgeSweep
  rw [hr]
  dsimp only
  rw [hp]
  exact if_pos h

theorem State.judgeSweep_state {carrier : Nat}
    (h : ∀ r p, s.rec? slot = some r → r.state = .occupied p → s.sweepable p carrier = false) : s.judgeSweep slot carrier = .state := by
  unfold State.judgeSweep
  split
  · rfl
  · rename_i r hr
    split
    · rename_i p hp
      exact if_neg (by simp [h r p hr hp])
    · rfl

theorem PassesStart.startCheck {q : DoorRequest} (hr : s.rec? q.slot = some r) (hp : r.state = .occupied p) (h : PassesStart q p s) :
    s.startCheck q = .pass := by
  unfold State.startCheck
  rcases h with ⟨hk, hd, hexp, hdue⟩ | ⟨hk, e, he, hcarrier, hsweep⟩ | hk
  · rw [hk]
    show s.judgeCollect q.slot = .pass
    rw [State.judgeCollect_delivery hr hp hd hexp, if_neg (by omega)]
  · rw [hk]
    show s.judgeSweep q.slot (s.entryCarrier q.job) = .pass
    rw [State.entryCarrier_of he]
    exact State.judgeSweep_pass hr hp (State.sweepable_iff.mpr ⟨hcarrier, hsweep⟩)
  · rw [hk]

end Judgments

/-! ## The cycle record at start (R43) -/

theorem State.attach_of_writing {s : State} {slot : Slot} (h : Writing slot s) (u : Waiter) :
    s.attach slot u = some (s.await slot u) := by
  cases ha : (s.store slot).again with
  | some ws => rw [State.attach_again ha, State.await_of_attach (State.attach_again ha u)]
  | none =>
    cases hw : (s.store slot).writing with
    | none => exact absurd h (by simp [Writing, ha, hw])
    | some w => rw [State.attach_writing ha hw, State.await_of_attach (State.attach_writing ha hw u)]

theorem State.openCycle_dsq (s : State) (c : Cycle) : (s.openCycle c).dsq = { s.dsq with cycles := s.dsq.cycles ++ [c] } :=
  ((frame_setLamp _ c.slot true).seq (frame_refreshIdle _ c.slot) (rs := [.sensing, .outputs])).dsq

theorem State.openCycle_lamp (s : State) (c : Cycle) : tget (s.openCycle c).out.lampDemand c.slot = true
    ∧ ∀ i, i ≠ c.slot → tget (s.openCycle c).out.lampDemand i = tget s.out.lampDemand i := by
  have hout : (s.openCycle c).out = ((s.setDsq { s.dsq with cycles := s.dsq.cycles ++ [c] }).setLamp c.slot true).out :=
    (frame_refreshIdle _ c.slot).out
  rw [hout]
  exact ⟨State.setLamp_demand_same _ _ _, fun i hi => (State.setLamp_demand_ne _ _ hi).trans rfl⟩

theorem State.cycles_of_idle {s : State} {slot : Slot} (h : s.inCycle slot = false) : ∀ d ∈ s.dsq.cycles, d.slot ≠ slot := by
  intro d hd hslot
  have hnone := State.cycle?_none_iff.mp h
  unfold State.cycle? at hnone
  have := List.find?_eq_none.mp hnone d hd
  simp [hslot] at this

/-- The cycle a request starts with, its reference the one the compartment holds. -/
def State.startCycle (s : State) (q : DoorRequest) (r : CompRec) : Cycle := q.cycle r.state.startState (s.parcelRef q.slot)

section Start

variable {s : State} {q : DoorRequest} {r : CompRec}

theorem State.startRequest_failed (hr : s.rec? q.slot = some r) {v : Judgment} (hv : s.startCheck q = v) (hne : v ≠ .pass) :
    s.startRequest q = (s.openCycle (s.startCycle q r)).endCycle (s.startCycle q r) .abandoned (some v) := by
  unfold State.startRequest
  rw [hr]
  dsimp only
  rw [hv]
  exact if_pos hne

theorem State.startRequest_waits (hr : s.rec? q.slot = some r) (hv : s.startCheck q = .pass) (hno : releasingRec q.kind r = none) :
    s.startRequest q = (s.openCycle (s.startCycle q r)).enterPulseWait (s.startCycle q r) := by
  unfold State.startRequest
  rw [hr]
  dsimp only
  rw [hv, hno]
  rfl

theorem State.startRequest_releasing (hr : s.rec? q.slot = some r) (hv : s.startCheck q = .pass) {y : CompRec}
    (hy : releasingRec q.kind r = some y) {t : State}
    (ht : ((s.openCycle (s.startCycle q r)).change q.slot y 0).attach q.slot .cycleStart = some t) : s.startRequest q = t := by
  unfold State.startCycle at ht
  unfold State.startRequest
  rw [hr]
  dsimp only
  rw [hv, hy, if_neg (fun h => h rfl)]
  dsimp only
  rw [ht]

/-- The cycle enters PULSE_WAIT in the step that starts it. -/
theorem State.startRequest_pulseWait (hr : s.rec? q.slot = some r) (hv : s.startCheck q = .pass) (hno : releasingRec q.kind r = none)
    (hidle : s.inCycle q.slot = false) : Started { q with ref := s.parcelRef q.slot } .pulseWait s (s.startRequest q)
      ∧ UnchangedBut [.sensing, .doors, .outputs] s (s.startRequest q) := by
  have hopen := State.openCycle_dsq s (s.startCycle q r)
  have hwait := frame_enterPulseWait (s.openCycle (s.startCycle q r)) (s.startCycle q r)
  obtain ⟨hlamp, hlamps⟩ := State.openCycle_lamp s (s.startCycle q r)
  rw [State.startRequest_waits hr hv hno]
  refine ⟨⟨?_, ⟨{ s.startCycle q r with stage := .pulseWait, wait := 0, limit := some 0 }, ?_, rfl, rfl, rfl, rfl, rfl, rfl, rfl,
    rfl, rfl⟩, ?_, ?_⟩, (frame_openCycle s _).seq hwait⟩
  · rw [State.enterPulseWait_queue, hopen]
  · show ((s.openCycle (s.startCycle q r)).dsq.cycles.map _) = _
    rw [hopen, List.map_append]
    have hothers : s.dsq.cycles.map (fun d => if d.slot = (s.startCycle q r).slot then
        { s.startCycle q r with stage := .pulseWait, wait := 0, limit := some ((s.startCycle q r).limit.getD 0) } else d)
        = s.dsq.cycles := by
      conv_rhs => rw [← List.map_id s.dsq.cycles]
      exact List.map_congr_left fun d hd => if_neg (State.cycles_of_idle hidle d hd)
    exact congrArg₂ (· ++ ·) hothers (congrArg (fun c => [c]) (if_pos rfl))
  · rw [State.enterPulseWait_order, hopen]
    rfl
  · rw [hwait.out]
    exact ⟨hlamp, hlamps⟩

/-- The cycle waits in STARTING for the write that takes its compartment to RELEASING. -/
theorem State.startRequest_starting (hr : s.rec? q.slot = some r) {p : Parcel} (hp : r.state = .occupied p)
    (hk : q.kind ≠ .deposit) (hv : s.startCheck q = .pass) :
    Started { q with ref := s.parcelRef q.slot } .starting s (s.startRequest q)
      ∧ Changed q.slot { r with state := .releasing p } [.cycleStart] s (s.startRequest q)
      ∧ CountedAll [(.enterState, some 4, p.carrier)] s (s.startRequest q)
      ∧ UnchangedBut [.records, .store, .sensing, .doors, .outputs, .counters, .free] s (s.startRequest q) := by
  have hy : releasingRec q.kind r = some { r with state := .releasing p } := by
    unfold releasingRec
    rw [hp]
    cases hkind : q.kind with
    | deposit => exact absurd hkind hk
    | _ => rfl
  have hopen := frame_openCycle s (s.startCycle q r)
  have hro := (hopen.rec? q.slot).trans hr
  have hne : (s.openCycle (s.startCycle q r)).rec? q.slot ≠ some { r with state := .releasing p } := by
    rw [hro]
    intro h
    have := congrArg CompRec.state (Option.some.inj h)
    rw [hp] at this
    cases this
  have hchange := Changed.change hro { r with state := .releasing p } 0
  have hchangeFrame : UnchangedBut [.records, .store, .counters, .free] (s.openCycle (s.startCycle q r))
      ((s.openCycle (s.startCycle q r)).change q.slot { r with state := .releasing p } 0) := frame_change_causeless _ _ 0 rfl
  have hwriting := hchange.writing hne
  have hstart : s.startRequest q
      = ((s.openCycle (s.startCycle q r)).change q.slot { r with state := .releasing p } 0).await q.slot .cycleStart :=
    State.startRequest_releasing hr hv hy (State.attach_of_writing hwriting _)
  have hawait := frame_await_writing hwriting .cycleStart
  have hafter : UnchangedBut [.records, .store, .counters, .free] (s.openCycle (s.startCycle q r)) (s.startRequest q) := by
    rw [hstart]
    exact hchangeFrame.seq hawait
  obtain ⟨hlamp, hlamps⟩ := State.openCycle_lamp s (s.startCycle q r)
  have hdsq : (s.startRequest q).dsq = { s.dsq with cycles := s.dsq.cycles ++ [s.startCycle q r] } :=
    hafter.dsq.trans (State.openCycle_dsq s _)
  refine ⟨⟨by rw [hdsq], ⟨s.startCycle q r, by rw [hdsq], rfl, rfl, rfl, rfl, rfl, rfl, rfl, rfl, rfl⟩, by rw [hdsq]; rfl, ?_⟩,
    ?_, ?_, hopen.seq hafter⟩
  · rw [hafter.out]
    exact ⟨hlamp, hlamps⟩
  · rw [hstart]
    exact (hchange.await hne .cycleStart).after hopen
  · have hcount := CountedAll.change hro { r with state := .releasing p } 0
    have hevents : changeEvents r.state (.releasing p) 0 = [(.enterState, some 4, p.carrier)] := by
      rw [hp]
      rfl
    rw [hevents] at hcount
    rw [hstart]
    exact (hcount.then_ hawait).after hopen

end Start

/-! ## A start check that fails (R142) -/

theorem State.noteCycleEnded_unqueued {s : State} {slot : Slot} (h : ∀ ended, s.bgu.own ≠ .queued slot ended) :
    UnchangedBut [.note] s (s.noteCycleEnded slot) := by
  unfold State.noteCycleEnded
  split
  · split
    exacts [frame_setOwn s _, .refl _ s]
  · rename_i x ended hown
    split
    · rename_i hx
      subst hx
      exact absurd hown (h ended)
    · exact .refl _ s
  · exact .refl _ s

/-- Without a queued note of the slot, a cycle that is freed leaves the transmit queue. -/
theorem frame_freeCycle_unqueued {s : State} {slot : Slot} (h : ∀ ended, s.bgu.own ≠ .queued slot ended) :
    UnchangedBut [.sensing, .doors, .note, .outputs] s (s.freeCycle slot) := by
  have hbefore : UnchangedBut [.doors, .outputs] s ((s.setDsq { s.dsq with
      cycles := s.dsq.cycles.filter (fun d => d.slot != slot)
      order := s.dsq.order.filter (fun x => x != slot) }).setLamp slot false) := (frame_setDsq s _).seq (frame_setLamp _ _ _)
  have hnote : UnchangedBut [.note] _ (State.noteCycleEnded slot ((s.setDsq { s.dsq with
      cycles := s.dsq.cycles.filter (fun d => d.slot != slot)
      order := s.dsq.order.filter (fun x => x != slot) }).setLamp slot false)) :=
    State.noteCycleEnded_unqueued fun ended => by rw [hbefore.own]; exact h ended
  exact (hbefore.seq hnote (rs := [.doors, .note, .outputs])).seq (frame_refreshIdle _ slot)

/-- The state in which a failed start check is answered: the cycle is gone again, its DOOR_CYCLE event given. -/
def State.startFailed (q : DoorRequest) (r : CompRec) (s : State) : State :=
  ((s.openCycle (s.startCycle q r)).freeCycle q.slot).count .doorCycle (some 4) (s.carrierOf q.slot)

section Refused

variable {s : State} {q : DoorRequest} {r : CompRec}

theorem frame_startFailed (hown : ∀ ended, s.bgu.own ≠ .queued q.slot ended) :
    UnchangedBut [.sensing, .doors, .note, .outputs, .counters] s (s.startFailed q r) := by
  have hopen := frame_openCycle s (s.startCycle q r)
  have hfree : UnchangedBut [.sensing, .doors, .note, .outputs] _ ((s.openCycle (s.startCycle q r)).freeCycle q.slot) :=
    frame_freeCycle_unqueued fun ended => by rw [hopen.own]; exact hown ended
  exact (hopen.seq hfree (rs := [.sensing, .doors, .note, .outputs])).seq (frame_count _ _ _ _)

theorem State.startRequest_answered (hr : s.rec? q.slot = some r) {v : Judgment} (hv : s.startCheck q = v) (hne : v ≠ .pass) :
    s.startRequest q = (s.startFailed q r).answerStartCheck q.job q.slot v := by
  have hbefore := (frame_openCycle s (s.startCycle q r)).seq (frame_freeCycle _ q.slot) (rs := freeCycleParts)
  have hend : (s.openCycle (s.startCycle q r)).endCycle (s.startCycle q r) .abandoned (some v)
      = (((s.openCycle (s.startCycle q r)).freeCycle q.slot).count .doorCycle (some 4)
          (((s.openCycle (s.startCycle q r)).freeCycle q.slot).carrierOf q.slot)).answerStartCheck q.job q.slot v := rfl
  rw [State.startRequest_failed hr hv hne, hend, hbefore.carrierOf]
  rfl

theorem State.startFailed_dsq (hidle : s.inCycle q.slot = false) : (s.startFailed q r).dsq
    = { s.dsq with order := s.dsq.order.filter (fun x => x != q.slot) } := by
  obtain ⟨hqueue, hcycles, horder, -⟩ := CycleGone.freeCycle (s.openCycle (s.startCycle q r)) q.slot
  rw [State.openCycle_dsq] at hqueue hcycles horder
  have hkeep : (s.dsq.cycles ++ [s.startCycle q r]).filter (fun d => d.slot != q.slot) = s.dsq.cycles := by
    rw [List.filter_append, List.filter_eq_self.mpr fun d hd => by simpa using State.cycles_of_idle hidle d hd]
    have hlast : [s.startCycle q r].filter (fun d => d.slot != q.slot) = [] :=
      List.filter_cons_of_neg (by simp [State.startCycle, DoorRequest.cycle])
    rw [hlast, List.append_nil]
  rw [hkeep] at hcycles
  show ((s.openCycle (s.startCycle q r)).freeCycle q.slot).dsq = _
  generalize ((s.openCycle (s.startCycle q r)).freeCycle q.slot).dsq = x at hqueue hcycles horder
  cases x
  simp_all

theorem State.startFailed_lamp (s : State) (q : DoorRequest) (r : CompRec) :
    tget (s.startFailed q r).out.lampDemand q.slot = false :=
  (CycleGone.freeCycle (s.openCycle (s.startCycle q r)) q.slot).lamp.1

theorem State.startFailed_counted (s : State) (q : DoorRequest) (r : CompRec) :
    CountedAll [(.doorCycle, some 4, s.carrierOf q.slot)] s (s.startFailed q r) :=
  (CountedAll.count _ _ _ _).after ((frame_openCycle s (s.startCycle q r)).seq (frame_freeCycle _ q.slot) (rs := freeCycleParts))

/-- A COLLECT or SWEEP slot whose check fails for good: it is refused and DONE. -/
theorem StartRefused.done (hidle : s.inCycle q.slot = false) (hown : ∀ ended, s.bgu.own ≠ .queued q.slot ended) {reason : Reason}
    (hreason : reason ≠ .unpaid) : StartRefused q s.dsq.queue reason s
      (((s.startFailed q r).refuseSlot q.job.ticket q.slot reason).slotDone q.job q.slot) := by
  have hfailed := frame_startFailed (r := r) hown
  have hrefuse := frame_refuseSlot (s.startFailed q r) q.job.ticket q.slot reason
  have hdone := frame_slotDone ((s.startFailed q r).refuseSlot q.job.ticket q.slot reason) q.job q.slot
  have hrefused : Refused q.job.ticket.station (some q.job.ticket.number) (some q.slot.val) reason (s.carrierOf q.slot)
      (s.startFailed q r) ((s.startFailed q r).refuseSlot q.job.ticket q.slot reason) := by
    rw [← hfailed.carrierOf]
    exact .refuse ..
  have hafter := hrefuse.seq hdone (rs := answerParts)
  refine ⟨?_, ?_, fun h => absurd h hreason, fun _ => ?_, fun _ e he => ⟨?_, fun hmarks => ?_⟩⟩
  · rw [hafter.dsq, State.startFailed_dsq hidle]
  · rw [hafter.out]
    exact State.startFailed_lamp s q r
  · obtain ⟨hanswered, -⟩ := hrefused
    exact (hanswered.then_ hdone).after hfailed
  · exact .slotDone ((hrefuse.entry? q.job).trans ((hfailed.entry? q.job).trans he)) q.slot
  · have hquiet : UnchangedBut [.requests] ((s.startFailed q r).refuseSlot q.job.ticket q.slot reason) _ :=
      frame_slotDone_noMarks (j := q.job) (fun d hd => by
        rw [hrefuse.entry?, hfailed.entry?, he] at hd
        cases hd
        exact hmarks) q.slot
    obtain ⟨-, hcounted⟩ := hrefused
    exact ⟨(State.startFailed_counted s q r).append (hcounted.then_ hquiet).all hfailed,
      hfailed.seq (hrefuse.seq hquiet (rs := [.requests, .conditions, .counters, .transmit]))⟩

end Refused

/-! ## REFUSE UNPAID (R141) -/

section Unpaid

variable {s : State} {t : Ticket} {slot : Slot} {p : Parcel}

/-- The QUOTE that follows a REFUSE UNPAID. -/
def State.unpaidQuote (s : State) (t : Ticket) (slot : Slot) (p : Parcel) : Body :=
  s.quoteBody (collectJob t) slot p (s.quoteFor slot p s.clk.minute) 0

theorem State.refuseUnpaid_eq (hp : s.parcel? slot = some p) : s.refuseUnpaid t slot
    = ((s.refuseSlot t slot .unpaid).issueQuote (collectJob t) slot p s.clk.minute).answer t.station (s.unpaidQuote t slot p) := by
  have hrefuse := frame_refuseSlot s t slot .unpaid
  have hbody : (s.refuseSlot t slot .unpaid).unpaidQuote t slot p = s.unpaidQuote t slot p := by
    unfold State.unpaidQuote State.quoteBody State.quoteFor
    rw [hrefuse.conf, hrefuse.treatedExpired, hrefuse.clk, hrefuse.size, hrefuse.quoteCounter]
  unfold State.refuseUnpaid
  dsimp only
  rw [(hrefuse.parcel? slot).trans hp, ← hbody, ← hrefuse.clk]
  rfl

/-- What REFUSE UNPAID leaves: the refusal's event, and a new current quote of the slot. -/
theorem State.refuseUnpaid_counted (hp : s.parcel? slot = some p) :
    Counted .refusal (some 3) p.carrier s (s.refuseUnpaid t slot) := by
  have hcount : Counted .refusal (some 3) (s.carrierOf slot) s (s.refuseSlot t slot .unpaid) := (Refused.refuse ..).2
  rw [State.carrierOf_parcel hp] at hcount
  rw [State.refuseUnpaid_eq hp]
  exact hcount.then_ ((frame_issueQuote _ _ _ _ _).seq (frame_answer _ _ _) (rs := [.requests, .quotes, .conditions, .transmit]))

theorem State.refuseUnpaid_entry? (hp : s.parcel? slot = some p) {e : Entry} (he : s.entry? (collectJob t) = some e) :
    (s.refuseUnpaid t slot).entry? (collectJob t)
      = some (e.updSlot slot (EntrySlot.quoted (s.quoteFor slot p s.clk.minute))) := by
  have hrefuse := frame_refuseSlot s t slot .unpaid
  have hquote : (s.refuseSlot t slot .unpaid).quoteFor slot p s.clk.minute = s.quoteFor slot p s.clk.minute := by
    unfold State.quoteFor
    rw [hrefuse.conf, hrefuse.size, hrefuse.quoteCounter]
  rw [State.refuseUnpaid_eq hp, (frame_answer _ _ _).entry?, State.issueQuote_entry? ((hrefuse.entry? _).trans he), hquote]

theorem State.refuseUnpaid_counter (hp : s.parcel? slot = some p) : (s.refuseUnpaid t slot).quoteCounter = s.quoteCounter + 1 := by
  have hrefuse := frame_refuseSlot s t slot .unpaid
  rw [State.refuseUnpaid_eq hp, (frame_answer _ _ _).quoteCounter, State.issueQuote_counter, hrefuse.quoteCounter]

theorem State.answer_room {s : State} {d : BitVec 6} {b : Body} (h : s.liu.tx.length < 8) :
    (s.answer d b).liu.tx = s.liu.tx ++ [TxFrame.fresh b 0 d] := by
  unfold State.answer
  rw [State.queueFrame_room h]
  rfl

theorem State.refuseUnpaid_tx (hp : s.parcel? slot = some p) (h : s.liu.tx.length + 2 ≤ 8) :
    (s.refuseUnpaid t slot).liu.tx = s.liu.tx
      ++ [TxFrame.fresh (.refuse (some t.number) (some slot.val) .unpaid) 0 t.station, TxFrame.fresh (s.unpaidQuote t slot p) 0 t.station] := by
  have hfirst : (s.refuseSlot t slot .unpaid).liu.tx
      = s.liu.tx ++ [TxFrame.fresh (.refuse (some t.number) (some slot.val) .unpaid) 0 t.station] :=
    (frame_refusalEvent _ _ _).tx.trans (State.answer_room (by omega))
  have hissue := frame_issueQuote (s.refuseSlot t slot .unpaid) (collectJob t) slot p s.clk.minute
  rw [State.refuseUnpaid_eq hp, State.answer_room (by rw [hissue.tx, hfirst, List.length_append, List.length_singleton]; omega),
    hissue.tx, hfirst, List.append_assoc]
  rfl

end Unpaid

/-! ## The request at the head of the door queue (R42, R43) -/

theorem collectJob_ticket {j : Job} (h : j.kind = .collect) : collectJob j.ticket = j := by
  cases j
  cases h
  rfl

theorem State.quoteFor_congr {ps : List Part} {s t : State} (h : UnchangedBut ps s t) (slot : Slot) (p : Parcel) (m : Nat)
    (hc : Part.config ∉ ps := by decide) (hq : Part.quotes ∉ ps := by decide) : t.quoteFor slot p m = s.quoteFor slot p m := by
  unfold State.quoteFor
  rw [h.conf hc, h.size slot hc, h.quoteCounter hq]

/-- A slot of an entry whose door is no longer asked for, or is. -/
def EntrySlot.setTo (p : Progress) (x : EntrySlot) : EntrySlot := if x.progress = .done then x else { x with progress := p }

theorem EntrySlot.setTo_slot (p : Progress) (x : EntrySlot) : (x.setTo p).slot = x.slot := by
  unfold EntrySlot.setTo
  split <;> rfl

theorem EntrySlot.setTo_left {x : EntrySlot} (h : x.progress ≠ .done) (p : Progress) : x.setTo p = { x with progress := p } := if_neg h

theorem State.setProgress_entry? {s : State} {j : Job} {e : Entry} (he : s.entry? j = some e) (slot : Slot) (p : Progress) :
    (s.setProgress j slot p).entry? j = some (e.updSlot slot (EntrySlot.setTo p)) := by
  have hset := State.entry?_updEntry_same s j (fun e => e.updSlot slot (EntrySlot.setTo p)) (fun _ => rfl)
  rw [he] at hset
  exact hset

section Head

variable {s : State} {q : DoorRequest} {r : CompRec}

/-- A COLLECT slot that is not paid for: back to MATCHED with a new quote. -/
theorem StartRefused.unpaid (hidle : s.inCycle q.slot = false) (hown : ∀ ended, s.bgu.own ≠ .queued q.slot ended) {p : Parcel}
    (hr : s.rec? q.slot = some r) (hp : r.state = .occupied p) (hj : q.job.kind = .collect) {e : Entry} (he : s.entry? q.job = some e)
    {x : EntrySlot} (hx : e.slot? q.slot = some x) (hdoor : x.progress = .door) {t : State}
    (ht : t = (((s.startFailed q r).refuseUnpaid q.job.ticket q.slot).setProgress q.job q.slot .matched).updEntry q.job Entry.restartLapse) :
    StartRefused q s.dsq.queue .unpaid s t ∧ t.quoteCounter = s.quoteCounter + 1
      ∧ (∃ d, t.entry? q.job = some d
        ∧ d.slot? q.slot = some { x with progress := .matched, quote := some (s.quoteFor q.slot p s.clk.minute) }
        ∧ d.timer = (if d.anyDoor then none else some 0))
      ∧ CountedAll [(.doorCycle, some 4, p.carrier), (.refusal, some 3, p.carrier)] s t := by
  have hfailed := frame_startFailed (r := r) hown
  have hparcel : s.parcel? q.slot = some p := State.parcel?_occupied hr hp
  have hfp : (s.startFailed q r).parcel? q.slot = some p := (hfailed.parcel? q.slot).trans hparcel
  have hunpaid := frame_refuseUnpaid (s.startFailed q r) q.job.ticket q.slot
  have hback : UnchangedBut [.requests] ((s.startFailed q r).refuseUnpaid q.job.ticket q.slot) t := by
    rw [ht]
    exact (frame_setProgress _ _ _ _).trans (frame_updEntry _ _ _)
  have hafter := hunpaid.seq hback (rs := [.requests, .quotes, .conditions, .counters, .transmit])
  have hentry : ((s.startFailed q r).refuseUnpaid q.job.ticket q.slot).entry? q.job
      = some (e.updSlot q.slot (EntrySlot.quoted (s.quoteFor q.slot p s.clk.minute))) := by
    have hkept := State.refuseUnpaid_entry? hfp (t := q.job.ticket) (e := e) (by rw [collectJob_ticket hj, hfailed.entry?, he])
    rwa [collectJob_ticket hj, State.quoteFor_congr hfailed, hfailed.clk] at hkept
  refine ⟨⟨?_, ?_, fun _ => hfailed.seq hafter, fun h => absurd rfl h, fun h => absurd rfl h⟩, ?_, ?_, ?_⟩
  · rw [hafter.dsq, State.startFailed_dsq hidle]
  · rw [hafter.out]
    exact State.startFailed_lamp s q r
  · rw [hback.quoteCounter, State.refuseUnpaid_counter hfp, hfailed.quoteCounter]
  · refine ⟨((e.updSlot q.slot (EntrySlot.quoted (s.quoteFor q.slot p s.clk.minute))).updSlot q.slot
      (EntrySlot.setTo .matched)).restartLapse, ?_, ?_, rfl⟩
    · rw [ht, State.entry?_updEntry_same _ _ Entry.restartLapse (fun _ => rfl), State.setProgress_entry? hentry]
      rfl
    · show ((e.updSlot q.slot _).updSlot q.slot _).slot? q.slot = _
      rw [Entry.slot?_updSlot_same _ _ _ (EntrySlot.setTo_slot _), Entry.slot?_updSlot_same _ _ _ (EntrySlot.quoted_slot _), hx,
        Option.map_some, Option.map_some, EntrySlot.quoted_left (by rw [hdoor]; exact Progress.noConfusion)]
      exact congrArg some (EntrySlot.setTo_left (by rw [hdoor]; exact Progress.noConfusion) _)
  · have hcount := State.startFailed_counted s q r
    rw [State.carrierOf_parcel hparcel] at hcount
    exact hcount.append ((State.refuseUnpaid_counted hfp).then_ hback).all hfailed

theorem StartRefused.after {rest : List DoorRequest} {reason : Reason} {t : State}
    (h : StartRefused q rest reason (s.setDsq { s.dsq with queue := rest }) t) : StartRefused q rest reason s t := by
  have hset := frame_setDsq s { s.dsq with queue := rest }
  obtain ⟨hdoors, hlamp, hframe, hanswer, hfreed⟩ := h
  refine ⟨hdoors, hlamp, fun hu => hset.seq (hframe hu), fun hn => (hanswer hn).after hset, fun hn e he => ?_⟩
  obtain ⟨hslot, hmarks⟩ := hfreed hn e he
  refine ⟨hslot, fun h => ?_⟩
  obtain ⟨hcount, hkeep⟩ := hmarks h
  exact ⟨hcount.after hset, hset.seq hkeep⟩

theorem State.startCheck_collect (hk : q.kind = .collect) : s.startCheck q = s.judgeCollect q.slot := by
  unfold State.startCheck
  rw [hk]

theorem State.startCheck_sweep (hk : q.kind = .sweep) : s.startCheck q = s.judgeSweep q.slot (s.entryCarrier q.job) := by
  unfold State.startCheck
  rw [hk]

theorem answerStartCheck_collect {j : Job} (h : j.kind = .collect) (s : State) (slot : Slot) :
    s.answerStartCheck j slot .expired = (s.refuseSlot j.ticket slot .expired).slotDone j slot
      ∧ s.answerStartCheck j slot .unpaid = ((s.refuseUnpaid j.ticket slot).setProgress j slot .matched).updEntry j Entry.restartLapse
      ∧ s.answerStartCheck j slot .state = (s.refuseSlot j.ticket slot .state).slotDone j slot := by
  unfold State.answerStartCheck
  rw [h]
  exact ⟨rfl, rfl, rfl⟩

theorem answerStartCheck_sweep {j : Job} (h : j.kind = .sweep) (s : State) (slot : Slot) :
    s.answerStartCheck j slot .state = (s.refuseSlot j.ticket slot .state).slotDone j slot := by
  unfold State.answerStartCheck
  rw [h]

/-- A request taken off the door queue is started (O55's `StartTried`), `s` the state with the request off. -/
theorem State.startRequest_tried (hr : s.rec? q.slot = some r) (hidle : s.inCycle q.slot = false) :
    (∀ p, r.state = .occupied p → PassesStart q p s →
      Started { q with ref := s.parcelRef q.slot } .starting s (s.startRequest q)
        ∧ Changed q.slot { r with state := .releasing p } [.cycleStart] s (s.startRequest q)
        ∧ CountedAll [(.enterState, some 4, p.carrier)] s (s.startRequest q)
        ∧ UnchangedBut [.records, .store, .sensing, .doors, .outputs, .counters, .free] s (s.startRequest q))
    ∧ (q.kind = .deposit ∨ (q.kind = .service ∧ ∀ p, r.state ≠ .occupied p) →
      Started { q with ref := s.parcelRef q.slot } .pulseWait s (s.startRequest q)
        ∧ UnchangedBut [.sensing, .doors, .outputs] s (s.startRequest q)) := by
  refine ⟨fun p hp hpass => ?_, fun hk => ?_⟩
  · refine State.startRequest_starting hr hp (fun hk => ?_) (hpass.startCheck hr hp)
    rcases hpass with ⟨h, -⟩ | ⟨h, -⟩ | h <;> rw [hk] at h <;> cases h
  · refine State.startRequest_pulseWait hr ?_ ?_ hidle
    · unfold State.startCheck
      rcases hk with hk | ⟨hk, -⟩ <;> rw [hk]
    · unfold releasingRec
      rcases hk with hk | ⟨hk, hocc⟩
      · rw [hk]
      · rw [hk]
        cases hstate : r.state with
        | occupied p => exact absurd hstate (hocc p)
        | _ => rfl

theorem State.startRequest_refused (hr : s.rec? q.slot = some r) (hidle : s.inCycle q.slot = false)
    (hown : ∀ ended, s.bgu.own ≠ .queued q.slot ended) :
    (q.kind = .collect → q.job.kind = .collect →
      ((∃ p, r.state = .occupied p ∧ ExpiredNow p s) → StartRefused q s.dsq.queue .expired s (s.startRequest q))
      ∧ ((∀ p, r.state = .occupied p → p.purpose = .carrierReturn) → StartRefused q s.dsq.queue .state s (s.startRequest q)))
    ∧ (∀ e, q.kind = .sweep → q.job.kind = .sweep → s.entry? q.job = some e →
      (∀ p, r.state = .occupied p → ¬PassesStart q p s) → StartRefused q s.dsq.queue .state s (s.startRequest q)) := by
  refine ⟨fun hk hj => ⟨fun ⟨p, hp, hexp⟩ => ?_, fun hreturn => ?_⟩, fun e hk hj he hno => ?_⟩
  · have hv := (State.startCheck_collect hk).trans (State.judgeCollect_expired hr hp hexp)
    rw [State.startRequest_answered hr hv (fun h => nomatch h), (answerStartCheck_collect hj _ _).1]
    exact .done hidle hown (fun h => nomatch h)
  · have hv := (State.startCheck_collect hk).trans (State.judgeCollect_state (s := s) (slot := q.slot) fun r' p hr' hp => by
      rw [hr] at hr'
      cases hr'
      exact hreturn p hp)
    rw [State.startRequest_answered hr hv (fun h => nomatch h), (answerStartCheck_collect hj _ _).2.2]
    exact .done hidle hown (fun h => nomatch h)
  · have hv := (State.startCheck_sweep (s := s) hk).trans (State.judgeSweep_state fun r' p hr' hp => by
      rw [hr] at hr'
      cases hr'
      rw [← Bool.not_eq_true, State.sweepable_iff, State.entryCarrier_of he]
      exact fun h => hno p hp (.inr (.inl ⟨hk, e, he, h⟩)))
    rw [State.startRequest_answered hr hv (fun h => nomatch h), answerStartCheck_sweep hj]
    exact .done hidle hown (fun h => nomatch h)

theorem State.tryStart_eq {rest : List DoorRequest} (hq : s.dsq.queue = q :: rest) (hspan : s.dsq.cycles.length < s.conf.span) :
    s.tryStart = (s.setDsq { s.dsq with queue := rest }).startRequest q := by
  unfold State.tryStart
  rw [hq]
  exact if_pos hspan

theorem StartTried.tryStart {rest : List DoorRequest} (hq : s.dsq.queue = q :: rest) (hspan : s.dsq.cycles.length < s.conf.span)
    (hr : s.rec? q.slot = some r) (hidle : s.inCycle q.slot = false) : StartTried q rest r s s.tryStart := by
  have hset := frame_setDsq s { s.dsq with queue := rest }
  rw [State.tryStart_eq hq hspan]
  obtain ⟨hstarting, hwait⟩ := State.startRequest_tried (s := s.setDsq { s.dsq with queue := rest }) hr hidle
  refine ⟨fun p hp hpass => ?_, fun hk => ?_, fun hown => ⟨fun hk hj => ⟨fun hexp => ?_, fun hreturn => ?_,
    fun p e x hp hd hexp hdue he hx hdoor => ?_⟩, fun e hk hj he hno => ?_⟩⟩
  · obtain ⟨hstarted, hchanged, hcounted, hframe⟩ := hstarting p hp hpass
    exact ⟨hstarted, hchanged.after hset, hcounted.after hset, hset.seq hframe⟩
  · obtain ⟨hstarted, hframe⟩ := hwait hk
    exact ⟨hstarted, hset.seq hframe⟩
  · exact (((State.startRequest_refused (s := s.setDsq { s.dsq with queue := rest }) hr hidle hown).1 hk hj).1 hexp).after
  · exact (((State.startRequest_refused (s := s.setDsq { s.dsq with queue := rest }) hr hidle hown).1 hk hj).2 hreturn).after
  · have hv := (State.startCheck_collect hk).trans (State.judgeCollect_delivery (s := s.setDsq { s.dsq with queue := rest }) hr hp hd hexp)
    replace hv := hv.trans (if_pos hdue)
    rw [State.startRequest_answered (s := s.setDsq { s.dsq with queue := rest }) hr hv (fun h => nomatch h), (answerStartCheck_collect hj _ _).2.1]
    obtain ⟨hrefused, hcounter, hentry, hcounted⟩ :=
      StartRefused.unpaid (s := s.setDsq { s.dsq with queue := rest }) hidle hown hr hp hj he hx hdoor rfl
    exact ⟨hrefused.after, hcounter, hentry, hcounted.after hset⟩
  · exact ((State.startRequest_refused (s := s.setDsq { s.dsq with queue := rest }) hr hidle hown).2 e hk hj he hno).after

end Head

end Sys2Proof.Machine
end

