-- ==== Sys2Proof/Proofs/Activation.lean ====
section
/- One theorem after another: side by side, their proofs ask for more threads than the check's memory limit allows. -/
set_option Elab.async false

/-! SUPPORT. An entry becomes active on its slots (R137, R145, R147 to R150). -/

namespace Sys2Proof.Machine

/-! ## Asking for a door (R41, R42) -/

theorem State.askDoor_idle {s : State} {q : DoorRequest} (h : s.hasDoorCycle q.slot = false) :
    s.askDoor q = (s.setDsq { s.dsq with queue := s.dsq.queue ++ [q] }).tryStart := if_neg (by simp [h])

/-- With the span used up the request waits. -/
theorem State.askDoor_queued {s : State} {q : DoorRequest} (h : s.hasDoorCycle q.slot = false) (hspan : s.conf.span ≤ s.dsq.cycles.length) :
    Queued q s (s.askDoor q) ∧ UnchangedBut [.doors] s (s.askDoor q) := by
  have heq : s.askDoor q = s.setDsq { s.dsq with queue := s.dsq.queue ++ [q] } := by
    rw [State.askDoor_idle h]
    unfold State.tryStart
    split
    · rfl
    · exact if_neg (Nat.not_lt.mpr hspan)
  rw [heq]
  exact ⟨rfl, frame_setDsq s _⟩

/-- With no request waiting and room in the span it starts at once. -/
theorem State.askDoor_starts {s : State} {q : DoorRequest} (h : s.hasDoorCycle q.slot = false) (hqueue : s.dsq.queue = [])
    (hspan : s.dsq.cycles.length < s.conf.span) : s.askDoor q = s.startRequest q := by
  have hpopped : (s.setDsq { s.dsq with queue := s.dsq.queue ++ [q] }).setDsq
      { (s.setDsq { s.dsq with queue := s.dsq.queue ++ [q] }).dsq with queue := [] } = s := by
    have hdsq : ({ s.dsq with queue := [] } : Dsq) = s.dsq := by rw [← hqueue]
    show s.setDsq { s.dsq with queue := [] } = s
    rw [hdsq]
    rfl
  have hq : (s.setDsq { s.dsq with queue := s.dsq.queue ++ [q] }).dsq.queue = [q] := by
    show s.dsq.queue ++ [q] = [q]
    rw [hqueue, List.nil_append]
  rw [State.askDoor_idle h, State.tryStart_eq hq hspan, hpopped]

/-! ## COLLECT (R126, R137) -/

theorem FoundByCode.of_codeParcel? {s : State} {code : Nat} {slot : Slot} {p : Parcel} (h : s.codeParcel? code slot = some p) :
    FoundByCode code slot p s := by
  unfold State.codeParcel? at h
  split at h
  · cases h
  · rename_i r hr
    split at h
    · rename_i q hq
      split at h
      · rename_i hcode
        cases h
        exact ⟨r, hr, .inl hq, hcode⟩
      · cases h
    · rename_i q hq
      split at h
      · rename_i hcode
        cases h
        exact ⟨r, hr, .inr hq, hcode⟩
      · cases h
    · cases h

theorem State.codeParcel?_of_found {s : State} {code : Nat} {slot : Slot} {p : Parcel} (h : FoundByCode code slot p s) :
    s.codeParcel? code slot = some p := by
  obtain ⟨r, hr, hstate, hcode⟩ := h
  unfold State.codeParcel?
  rw [hr]
  dsimp only
  rcases hstate with hstate | hstate <;> rw [hstate] <;> exact if_pos hcode

theorem State.codeParcel?_iff {s : State} {code : Nat} {slot : Slot} {p : Parcel} : s.codeParcel? code slot = some p
    ↔ FoundByCode code slot p s := ⟨.of_codeParcel?, State.codeParcel?_of_found⟩

theorem State.collectable_iff {s : State} {code : Nat} {slot : Slot} : s.collectable code slot = true
    ↔ ∃ p, FoundByCode code slot p s ∧ ¬ExpiredNow p s := by
  unfold State.collectable
  split
  · rename_i p hp
    rw [Bool.not_eq_true', ← Bool.not_eq_true, State.treatedExpired_iff]
    constructor
    · exact fun h => ⟨p, .of_codeParcel? hp, h⟩
    · rintro ⟨q, hq, hexp⟩
      rw [State.codeParcel?_of_found hq] at hp
      cases hp
      exact hexp
  · rename_i hnone
    refine ⟨(fun h => nomatch h), fun ⟨q, hq, _⟩ => ?_⟩
    rw [State.codeParcel?_of_found hq] at hnone
    cases hnone

theorem State.codeExpired_iff {s : State} {code : Nat} {slot : Slot} : s.codeExpired code slot = true
    ↔ ∃ p, FoundByCode code slot p s ∧ ExpiredNow p s := by
  unfold State.codeExpired
  split
  · rename_i p hp
    rw [State.treatedExpired_iff]
    constructor
    · exact fun h => ⟨p, .of_codeParcel? hp, h⟩
    · rintro ⟨q, hq, hexp⟩
      rw [State.codeParcel?_of_found hq] at hp
      cases hp
      exact hexp
  · rename_i hnone
    refine ⟨(fun h => nomatch h), fun ⟨q, hq, _⟩ => ?_⟩
    rw [State.codeParcel?_of_found hq] at hnone
    cases hnone

theorem FoundByCode.unique {s : State} {code : Nat} {slot : Slot} {p q : Parcel} (h : FoundByCode code slot p s)
    (k : FoundByCode code slot q s) : p = q := by
  have := (State.codeParcel?_of_found h).symm.trans (State.codeParcel?_of_found k)
  exact Option.some.inj this

theorem FoundByCode.parcel? {s : State} {code : Nat} {slot : Slot} {p : Parcel} (h : FoundByCode code slot p s) :
    s.parcel? slot = some p := by
  obtain ⟨r, hr, hstate, -⟩ := h
  rw [State.parcel?_rec hr]
  rcases hstate with hstate | hstate <;> rw [hstate] <;> rfl

theorem State.occupied_iff {s : State} {slot : Slot} : s.occupied slot = true ↔ ∃ r p, s.rec? slot = some r ∧ r.state = .occupied p := by
  unfold State.occupied
  split
  · rename_i r hr
    rw [beq_iff_eq]
    cases hs : r.state with
    | occupied p => exact ⟨fun _ => ⟨r, p, hr, hs⟩, fun _ => rfl⟩
    | _ =>
      refine ⟨(fun h => nomatch h), fun ⟨r', p, hr', hp⟩ => ?_⟩
      rw [hr] at hr'
      cases hr'
      rw [hs] at hp
      cases hp
  · rename_i hnone
    refine ⟨(fun h => nomatch h), fun ⟨r', p, hr', hp⟩ => ?_⟩
    rw [hnone] at hr'
    cases hr'

theorem State.qualifies_iff {s : State} {code : Nat} {slot : Slot} : (s.occupied slot && s.collectable code slot) = true
    ↔ Qualifies code slot s := by
  rw [Bool.and_eq_true, State.occupied_iff, State.collectable_iff]
  constructor
  · rintro ⟨⟨r, p, hr, hp⟩, q, ⟨r', hr', hstate, hcode⟩, hexp⟩
    rw [hr] at hr'
    cases hr'
    rw [hp] at hstate
    have hq : q = p := by
      rcases hstate with h | h
      · cases h; rfl
      · cases h
    subst hq
    exact ⟨r, q, hr, hp, hcode, hexp⟩
  · rintro ⟨r, p, hr, hp, hcode, hexp⟩
    exact ⟨⟨r, p, hr, hp⟩, p, ⟨r, hr, .inl hp, hcode⟩, hexp⟩

theorem Qualifies.parcel? {s : State} {code : Nat} {slot : Slot} (h : Qualifies code slot s) : ∃ p, s.parcel? slot = some p := by
  obtain ⟨r, p, hr, hp, -⟩ := h
  exact ⟨p, State.parcel?_occupied hr hp⟩

/-! ### Quotes for a list of slots -/

/-- The quote of the `k`th slot of a list that is quoted in its order. -/
def State.nthQuote (s : State) (k : Nat) (slot : Slot) (p : Parcel) : Quote :=
  { s.quoteFor slot p s.clk.minute with number := s.quoteCounter + BitVec.ofNat 16 k }

theorem quoteNumber_succ (c : BitVec 16) (k : Nat) : c + 1 + BitVec.ofNat 16 k = c + BitVec.ofNat 16 (k + 1) := by
  rw [BitVec.add_assoc, BitVec.ofNat_add, BitVec.add_comm (BitVec.ofNat 16 k)]
  rfl

theorem State.nthQuote_zero (s : State) (slot : Slot) (p : Parcel) : s.nthQuote 0 slot p = s.quoteFor slot p s.clk.minute := by
  have hnumber : s.quoteCounter + BitVec.ofNat 16 0 = s.quoteCounter := BitVec.add_zero _
  unfold State.nthQuote
  rw [hnumber]
  rfl

theorem State.nthQuote_issued (s : State) (j : Job) (i : Slot) (q : Parcel) (k : Nat) (slot : Slot) (p : Parcel) :
    (s.issueQuote j i q s.clk.minute).nthQuote k slot p = s.nthQuote (k + 1) slot p := by
  unfold State.nthQuote
  rw [State.issueQuote_counter, quoteNumber_succ]
  rfl

/-- An entry after quotes for a list of slots: each slot of the list has the quote of its place, the others stand. -/
structure SlotsQuoted (slots : List Slot) (s : State) (e d : Entry) : Prop where
  quoted : ∀ (k : Nat) (slot : Slot) (p : Parcel) (x : EntrySlot), slots[k]? = some slot → s.parcel? slot = some p →
    e.slot? slot = some x → x.progress ≠ .done →
    d.slot? slot = some { x with quote := some (s.nthQuote k slot p) }
  others : ∀ i, i ∉ slots → d.slot? i = e.slot? i
  rest : ∃ xs, d = { e with slots := xs }
  list : d.slotList = e.slotList

theorem State.quoteSlot_parcel {s : State} {slot : Slot} {p : Parcel} (hp : s.parcel? slot = some p) (j : Job) :
    s.quoteSlot j slot = s.issueQuote j slot p s.clk.minute := by
  unfold State.quoteSlot
  rw [hp]

theorem frame_quoteSlots (s : State) (j : Job) (slots : List Slot) :
    UnchangedBut [.requests, .quotes] s (slots.foldl (fun s slot => s.quoteSlot j slot) s) :=
  UnchangedBut.foldl (fun s slot => by
    unfold State.quoteSlot
    split
    exacts [frame_issueQuote s j slot _ _, .refl _ s]) slots s

/-- Each of the slots is quoted in its turn, with numbers that follow one another. -/
theorem State.quoteSlots_spec {j : Job} (slots : List Slot) (hnodup : slots.Nodup) {s : State} {e : Entry} (he : s.entry? j = some e)
    (hall : ∀ slot ∈ slots, ∃ p, s.parcel? slot = some p) :
    (slots.foldl (fun s slot => s.quoteSlot j slot) s).quoteCounter = s.quoteCounter + BitVec.ofNat 16 slots.length
      ∧ ∃ d, (slots.foldl (fun s slot => s.quoteSlot j slot) s).entry? j = some d ∧ SlotsQuoted slots s e d := by
  induction slots generalizing s e with
  | nil => exact ⟨(BitVec.add_zero _).symm, e, he, fun k slot p x hk => by simp at hk, fun i _ => rfl, ⟨e.slots, rfl⟩, rfl⟩
  | cons i rest ih =>
    obtain ⟨p, hp⟩ := hall i (List.mem_cons_self ..)
    obtain ⟨hi, hrest⟩ := List.nodup_cons.mp hnodup
    have hissue := frame_issueQuote s j i p s.clk.minute
    have hentry := State.issueQuote_entry? he i p s.clk.minute
    obtain ⟨hcounter, d, hd, hquoted, hothers, ⟨xs, hxs⟩, hlist⟩ := ih hrest (s := s.issueQuote j i p s.clk.minute) hentry fun slot hslot => by
      rw [hissue.parcel?]
      exact hall slot (List.mem_cons_of_mem _ hslot)
    have hslotList := Entry.slotList_updSlot e i (EntrySlot.quoted (s.quoteFor i p s.clk.minute)) (EntrySlot.quoted_slot _)
    rw [List.foldl_cons, State.quoteSlot_parcel hp]
    refine ⟨?_, d, hd, fun k slot q x hk hq hx hleft => ?_, fun n hn => ?_, ⟨xs, hxs⟩, hlist.trans hslotList⟩
    · rw [hcounter, State.issueQuote_counter, List.length_cons, quoteNumber_succ]
    · cases k with
      | zero =>
        rw [List.getElem?_cons_zero] at hk
        cases hk
        rw [hp] at hq
        cases hq
        rw [hothers _ hi, Entry.slot?_updSlot_same _ _ _ (EntrySlot.quoted_slot _), hx, Option.map_some, EntrySlot.quoted_left hleft,
          State.nthQuote_zero]
      | succ k =>
        rw [List.getElem?_cons_succ] at hk
        have hne : slot ≠ i := fun h => hi (h ▸ List.mem_of_getElem? hk)
        have hslot := hquoted k slot q x hk (by rw [hissue.parcel?]; exact hq)
          (by rw [Entry.slot?_updSlot_ne _ _ _ (EntrySlot.quoted_slot _) hne]; exact hx) hleft
        rw [hslot, State.nthQuote_issued]
    · rw [List.mem_cons, not_or] at hn
      rw [hothers n hn.2, Entry.slot?_updSlot_ne _ _ _ (EntrySlot.quoted_slot _) hn.1]

/-! ### A COLLECT_MATCH for each slot -/

/-- The COLLECT_MATCH of a slot's parcel with its quote. -/
def State.matchFrame (s : State) (j : Job) (slot : Slot) (p : Parcel) (q : Quote) : TxFrame :=
  TxFrame.fresh (.collectMatch j.ticket.number slot p.carrier q.number q.due (minutesAhead q.valid q.minute) (s.lostFlag slot)
    p.estimated) 0 j.ticket.station

theorem State.queueMatch_quoted {s : State} {j : Job} {slot : Slot} {p : Parcel} {q : Quote} (hp : s.parcel? slot = some p)
    (hq : s.currentQuote j slot = some q) : s.queueMatch j slot = s.queueFrame (s.matchFrame j slot p q) := by
  unfold State.queueMatch
  rw [hp, hq]
  rfl

theorem frame_queueMatch (s : State) (j : Job) (slot : Slot) : UnchangedBut [.conditions, .transmit] s (s.queueMatch j slot) := by
  unfold State.queueMatch
  split
  exacts [frame_answer s _ _, .refl _ s]

theorem State.queueMatch_room {s : State} (h : s.liu.tx.length < 8) (j : Job) (slot : Slot) :
    ∃ l, (s.queueMatch j slot).liu.tx = s.liu.tx ++ l ∧ l.length ≤ 1 := by
  unfold State.queueMatch
  split
  · exact ⟨_, State.answer_room h, Nat.le_refl _⟩
  · exact ⟨[], (List.append_nil _).symm, Nat.zero_le _⟩

theorem frame_queueMatches (s : State) (j : Job) (slots : List Slot) :
    UnchangedBut [.conditions, .transmit] s (slots.foldl (fun s slot => s.queueMatch j slot) s) :=
  UnchangedBut.foldl (fun s slot => frame_queueMatch s j slot) slots s

theorem State.currentQuote_congr {ps : List Part} {s t : State} (h : UnchangedBut ps s t) (j : Job) (slot : Slot)
    (hp : Part.requests ∉ ps := by decide) : t.currentQuote j slot = s.currentQuote j slot := by
  unfold State.currentQuote
  rw [h.entry? j hp]

theorem State.lostFlag_congr {ps : List Part} {s t : State} (h : UnchangedBut ps s t) (slot : Slot)
    (hp : Part.records ∉ ps := by decide) : t.lostFlag slot = s.lostFlag slot := by
  unfold State.lostFlag
  rw [h.rec? slot hp]

/-- With room for them all, every COLLECT_MATCH stands in the transmit queue. -/
theorem State.queueMatches_mem {j : Job} (slots : List Slot) {s : State} (hroom : s.liu.tx.length + slots.length ≤ 8) :
    (∀ g ∈ s.liu.tx, g ∈ (slots.foldl (fun s slot => s.queueMatch j slot) s).liu.tx)
      ∧ ∀ slot ∈ slots, ∀ p q, s.parcel? slot = some p → s.currentQuote j slot = some q →
        s.matchFrame j slot p q ∈ (slots.foldl (fun s slot => s.queueMatch j slot) s).liu.tx := by
  induction slots generalizing s with
  | nil => exact ⟨fun g hg => hg, (fun slot hslot => nomatch hslot)⟩
  | cons i rest ih =>
    rw [List.length_cons] at hroom
    obtain ⟨l, hl, hlen⟩ := State.queueMatch_room (s := s) (by omega) j i
    have hframe := frame_queueMatch s j i
    obtain ⟨hkept, hmatches⟩ := ih (s := s.queueMatch j i) (by rw [hl, List.length_append]; omega)
    rw [List.foldl_cons]
    refine ⟨fun g hg => hkept g (by rw [hl]; exact List.mem_append_left _ hg), fun slot hslot p q hp hq => ?_⟩
    rcases List.mem_cons.mp hslot with rfl | hslot
    · refine hkept _ ?_
      rw [State.queueMatch_quoted hp hq, State.queueFrame_room (by omega)]
      exact List.mem_append_right _ (List.mem_singleton_self _)
    · have hmem := hmatches slot hslot p q ((hframe.parcel? slot).trans hp) ((State.currentQuote_congr hframe j slot).trans hq)
      unfold State.matchFrame at hmem ⊢
      rwa [State.lostFlag_congr hframe] at hmem

/-! ### The entry becomes MATCHED -/

/-- An entry active on a list of slots, none of them quoted yet. -/
def Entry.startedOn (e : Entry) (stage : EntryStage) (slots : List Slot) : Entry :=
  { e with slots := slots.map EntrySlot.fresh, stage := stage, timer := some 0 }

theorem Entry.slotList_startedOn (e : Entry) (stage : EntryStage) (slots : List Slot) : (e.startedOn stage slots).slotList = slots := by
  unfold Entry.slotList Entry.startedOn
  rw [List.map_map]
  exact List.map_id'' (fun _ => rfl) slots

theorem Entry.slot?_fresh {e : Entry} {slots : List Slot} {slot : Slot} (hs : e.slots = slots.map EntrySlot.fresh) (h : slot ∈ slots) :
    e.slot? slot = some (EntrySlot.fresh slot) := by
  unfold Entry.slot?
  rw [hs]
  clear hs
  induction slots with
  | nil => cases h
  | cons i rest ih =>
    by_cases hi : i = slot
    · subst hi
      exact List.find?_cons_of_pos (by simp [EntrySlot.fresh])
    · rw [List.map_cons, List.find?_cons_of_neg (by simp [EntrySlot.fresh, hi])]
      exact ih ((List.mem_cons.mp h).resolve_left fun h => hi h.symm)

theorem State.activateCollect_eq (s : State) (j : Job) (slots : List Slot) : s.activateCollect j slots
    = slots.foldl (fun s slot => s.queueMatch j slot) (slots.foldl (fun s slot => s.quoteSlot j slot)
        (s.updEntry j (fun e => e.startedOn .matched slots))) := rfl

theorem frame_activateCollect (s : State) (j : Job) (slots : List Slot) :
    UnchangedBut [.requests, .quotes, .conditions, .transmit] s (s.activateCollect j slots) := by
  rw [State.activateCollect_eq]
  exact ((frame_updEntry s j _).seq (frame_quoteSlots _ j slots) (rs := [.requests, .quotes])).seq (frame_queueMatches _ j slots)

theorem CollectActive.activateCollect {s : State} {j : Job} {slots : List Slot} {e : Entry} (he : s.entry? j = some e)
    (hnodup : slots.Nodup) (hall : ∀ slot ∈ slots, ∃ p, s.parcel? slot = some p) :
    ∃ d, (s.activateCollect j slots).entry? j = some d ∧ (∃ xs, d = { e.startedOn .matched slots with slots := xs })
      ∧ CollectActive j slots d s (s.activateCollect j slots) := by
  have hupd := frame_updEntry s j (fun e => e.startedOn .matched slots)
  have hstarted : (s.updEntry j (fun e => e.startedOn .matched slots)).entry? j = some (e.startedOn .matched slots) := by
    rw [State.entry?_updEntry_same s j (fun e => e.startedOn .matched slots) (fun _ => rfl), he]
    rfl
  obtain ⟨hcounter, d, hd, hquoted, -, ⟨xs, hxs⟩, hlist⟩ := State.quoteSlots_spec slots hnodup hstarted fun slot hslot => by
    rw [hupd.parcel?]
    exact hall slot hslot
  have hquotes := frame_quoteSlots (s.updEntry j (fun e => e.startedOn .matched slots)) j slots
  have hmatches := frame_queueMatches (slots.foldl (fun s slot => s.quoteSlot j slot) (s.updEntry j (fun e => e.startedOn .matched slots))) j slots
  have hbefore := hupd.seq hquotes (rs := [.requests, .quotes])
  rw [State.activateCollect_eq]
  refine ⟨d, (hmatches.entry? j).trans hd, ⟨xs, hxs⟩, ⟨?_, ?_, ?_⟩, ?_, fun k slot r p hk hr hp => ?_⟩
  · rw [hlist, Entry.slotList_startedOn]
  · rw [hxs]
    rfl
  · rw [hxs]
    rfl
  · rw [hmatches.quoteCounter, hcounter, hupd.quoteCounter]
  · have hmem : slot ∈ slots := List.mem_of_getElem? hk
    have hparcel : s.parcel? slot = some p := (State.parcel?_rec hr).trans hp
    have hx := hquoted k slot p (EntrySlot.fresh slot) hk ((hupd.parcel? slot).trans hparcel)
      (Entry.slot?_fresh (e := e.startedOn .matched slots) rfl hmem) (fun h => nomatch h)
    have hquote : (s.updEntry j (fun e => e.startedOn .matched slots)).nthQuote k slot p = s.nthQuote k slot p := by
      unfold State.nthQuote
      rw [State.quoteFor_congr hupd]
      rfl
    rw [hquote] at hx
    refine ⟨⟨_, hx, rfl, rfl, rfl⟩, fun hroom => ?_⟩
    obtain ⟨-, hframes⟩ := State.queueMatches_mem (j := j) slots (s := slots.foldl (fun s slot => s.quoteSlot j slot)
      (s.updEntry j (fun e => e.startedOn .matched slots))) (by rw [hbefore.tx]; exact hroom)
    have hcurrent : (slots.foldl (fun s slot => s.quoteSlot j slot) (s.updEntry j (fun e => e.startedOn .matched slots))).currentQuote j slot
        = some (s.nthQuote k slot p) := by
      unfold State.currentQuote
      rw [hd]
      show (d.slot? slot).bind _ = _
      rw [hx]
      rfl
    have hframe := hframes slot hmem p _ ((hbefore.parcel? slot).trans hparcel) hcurrent
    have hlost : s.lostFlag slot = r.lost := by
      unfold State.lostFlag
      rw [hr]
    unfold State.matchFrame at hframe
    rw [State.lostFlag_congr hbefore, hlost] at hframe
    exact hframe

/-! ## The one entry that a request makes or changes -/

/-- Of the table only the entry of a key has changed, its key apart. -/
def OnlyEntry (j : Job) (s t : State) : Prop :=
  ∃ f : Entry → Entry, (∀ e, (f e).job = e.job) ∧ t.ort = s.ort.map (fun e => if e.kind = j.kind ∧ e.ticket = j.ticket then f e else e)

theorem OnlyEntry.of_ort {j : Job} {s t : State} (h : t.ort = s.ort) : OnlyEntry j s t :=
  ⟨id, fun _ => rfl, by simp [h]⟩

theorem OnlyEntry.of_frame {j : Job} {ps : List Part} {s t : State} (h : UnchangedBut ps s t) (hp : Part.requests ∉ ps := by decide) :
    OnlyEntry j s t := .of_ort (h.ort hp)

theorem OnlyEntry.updEntry (s : State) (j : Job) {f : Entry → Entry} (hf : ∀ e, (f e).job = e.job) : OnlyEntry j s (s.updEntry j f) :=
  ⟨f, hf, rfl⟩

theorem OnlyEntry.trans {j : Job} {s t u : State} (h : OnlyEntry j s t) (k : OnlyEntry j t u) : OnlyEntry j s u := by
  obtain ⟨f, hf, hs⟩ := h
  obtain ⟨g, hg, ht⟩ := k
  refine ⟨g ∘ f, fun e => (hg _).trans (hf e), ?_⟩
  rw [ht, hs, List.map_map]
  refine List.map_congr_left fun e _ => ?_
  dsimp only [Function.comp_apply]
  by_cases he : e.kind = j.kind ∧ e.ticket = j.ticket
  · have hfe : (f e).kind = j.kind ∧ (f e).ticket = j.ticket := Entry.job_eq_iff.mp ((hf e).trans (Entry.job_eq_iff.mpr he))
    rw [if_pos he, if_pos hfe, if_pos he]
  · rw [if_neg he, if_neg he, if_neg he]

theorem OnlyEntry.foldl {α : Type} {j : Job} {f : State → α → State} (h : ∀ s x, OnlyEntry j s (f s x)) (xs : List α) (s : State) :
    OnlyEntry j s (xs.foldl f s) := by
  induction xs generalizing s with
  | nil => exact .of_ort rfl
  | cons x xs ih => exact (h s x).trans (ih _)

/-- A new entry that only its own activation has changed stands at the end of the table. -/
theorem OnlyEntry.added {j : Job} {s t : State} {e : Entry} (h : OnlyEntry j (s.addEntry e) t) (hj : e.job = j) (hnew : s.entry? j = none) :
    ∃ d, t.ort = s.ort ++ [d] ∧ t.entry? j = some d ∧ d.job = j := by
  obtain ⟨f, hf, ht⟩ := h
  have hothers : s.ort.map (fun d => if d.kind = j.kind ∧ d.ticket = j.ticket then f d else d) = s.ort := by
    conv_rhs => rw [← List.map_id s.ort]
    exact List.map_congr_left fun d hd => if_neg fun hk => State.entry?_none_iff.mp hnew d hd (Entry.job_eq_iff.mpr hk)
  have hort : t.ort = s.ort ++ [f e] := by
    rw [ht, State.addEntry, State.setOrt_ort, List.map_append, hothers, List.map_singleton, if_pos (Entry.job_eq_iff.mp hj)]
  refine ⟨f e, hort, ?_, (hf e).trans hj⟩
  have hfound := State.entry?_addEntry_new s j ((hf e).trans hj) hnew
  unfold State.entry? at hfound ⊢
  rw [hort]
  exact hfound

theorem OnlyEntry.activateCollect (s : State) (j : Job) (slots : List Slot) : OnlyEntry j s (s.activateCollect j slots) := by
  rw [State.activateCollect_eq]
  have hquotes (u : State) : OnlyEntry j u (slots.foldl (fun s slot => s.quoteSlot j slot) u) := .foldl (fun s slot => by
    unfold State.quoteSlot
    split
    · exact (OnlyEntry.updEntry s j (f := fun e => e.updSlot slot _) fun _ => rfl).trans (.of_ort rfl)
    · exact .of_ort rfl) slots u
  exact ((OnlyEntry.updEntry s j (f := fun e => e.startedOn .matched slots) fun _ => rfl).trans (hquotes _)).trans
    (.of_frame (frame_queueMatches _ j slots))

end Sys2Proof.Machine
end

