-- ==== Sys2Proof/Proofs/TakenUp.lean ====
section
/- One theorem after another: side by side, their proofs ask for more threads than the check's memory limit allows. -/
set_option Elab.async false

/-! SUPPORT. Waiting entries taken up again (R86, R139, R145, R147), and what SERVICE entries make of their compartment. -/

namespace Sys2Proof.Machine

/-! ## An entry that waits holds nothing -/

theorem State.finishEntry_waiting {s : State} {e : Entry} (he : s.entry? e.job = some e) (h : e.stage = .waiting) :
    s.finishEntry e.job = s.dropEntry e.job := by
  have hnone : e.markedHeld = [] := if_pos h
  unfold State.finishEntry
  rw [he]
  dsimp only
  rw [hnone]
  rfl

/-- A refusal that ends a waiting entry. -/
theorem State.refused_dropped {s : State} {e : Entry} (he : s.entry? e.job = some e) (h : e.stage = .waiting) (slot : Slot) (reason : Reason) :
    ((s.refuseSlot e.ticket slot reason).finishEntry e.job).entry? e.job = none
      ∧ Refused e.ticket.station (some e.ticket.number) (some slot.val) reason (s.carrierOf slot) s
          ((s.refuseSlot e.ticket slot reason).finishEntry e.job)
      ∧ UnchangedBut [.requests, .conditions, .counters, .transmit] s ((s.refuseSlot e.ticket slot reason).finishEntry e.job) := by
  have hrefuse := frame_refuseSlot s e.ticket slot reason
  have hdrop := frame_dropEntry (s.refuseSlot e.ticket slot reason) e.job
  rw [State.finishEntry_waiting ((hrefuse.entry? _).trans he) h]
  exact ⟨State.entry?_dropEntry_same _ _, (Refused.refuse ..).then_ hdrop, hrefuse.seq hdrop⟩

/-! ## COLLECT (R139) -/

theorem State.reEvaluateCollect_some {s : State} {e : Entry} {slots : List Slot}
    (h : e.slotList.filter (fun i => s.occupied i && s.collectable e.code i) = slots) (hne : slots ≠ []) :
    s.reEvaluateCollect e = s.activateCollect e.job slots := by
  unfold State.reEvaluateCollect
  rw [h]
  cases slots with
  | nil => exact absurd rfl hne
  | cons i rest => rfl

theorem State.reEvaluateCollect_expired {s : State} {e : Entry} {slot : Slot}
    (h : e.slotList.filter (fun i => s.occupied i && s.collectable e.code i) = [])
    (hfind : e.slotList.find? (fun i => s.codeExpired e.code i) = some slot) :
    s.reEvaluateCollect e = (s.refuseSlot e.ticket slot .expired).finishEntry e.job := by
  unfold State.reEvaluateCollect
  rw [h]
  dsimp only
  rw [hfind]

theorem State.reEvaluateCollect_none {s : State} {e : Entry}
    (h : e.slotList.filter (fun i => s.occupied i && s.collectable e.code i) = [])
    (hfind : e.slotList.find? (fun i => s.codeExpired e.code i) = none) : s.reEvaluateCollect e = s.finishEntry e.job := by
  unfold State.reEvaluateCollect
  rw [h]
  dsimp only
  rw [hfind]

/-- The first slot of a list that holds an expired match. -/
theorem State.find?_codeExpired {s : State} {code : Nat} {slots before after : List Slot} {slot : Slot} {p : Parcel}
    (hlist : slots = before ++ slot :: after) (hfound : FoundByCode code slot p s) (hexp : ExpiredNow p s)
    (hfirst : ∀ i ∈ before, ∀ q, FoundByCode code i q s → ¬ExpiredNow q s) :
    slots.find? (fun i => s.codeExpired code i) = some slot := by
  rw [hlist, List.find?_append]
  have hnone : before.find? (fun i => s.codeExpired code i) = none := List.find?_eq_none.mpr fun i hi h => by
    obtain ⟨q, hq, hqexp⟩ := State.codeExpired_iff.mp h
    exact hfirst i hi q hq hqexp
  rw [hnone, Option.none_or, List.find?_cons_of_pos (State.codeExpired_iff.mpr ⟨p, hfound, hexp⟩)]

theorem CollectTakenUp.reEvaluateCollect {s : State} {e : Entry} (he : s.entry? e.job = some e) (hstage : e.stage = .waiting)
    (hnodup : e.slotList.Nodup) : CollectTakenUp e s (s.reEvaluateCollect e) := by
  refine ⟨_, rfl, fun i => ?_, fun hne => ?_, fun hnil => ⟨?_, fun before slot after p hlist hfound hexp hfirst => ?_, fun hnone => ?_⟩⟩
  · rw [List.mem_filter, State.qualifies_iff]
  · obtain ⟨d, hd, ⟨xs, hxs⟩, hactive⟩ := CollectActive.activateCollect he (hnodup.filter _) fun slot hslot =>
      (State.qualifies_iff.mp (List.mem_filter.mp hslot).2).parcel?
    rw [State.reEvaluateCollect_some rfl hne]
    exact ⟨d, hd, by rw [hxs]; rfl, hactive, frame_activateCollect s e.job _⟩
  · cases hfind : e.slotList.find? (fun i => s.codeExpired e.code i) with
    | some slot =>
      rw [State.reEvaluateCollect_expired hnil hfind]
      exact State.entry?_finishEntry_same _ _
    | none =>
      rw [State.reEvaluateCollect_none hnil hfind]
      exact State.entry?_finishEntry_same _ _
  · rw [State.reEvaluateCollect_expired hnil (State.find?_codeExpired hlist hfound hexp hfirst)]
    obtain ⟨-, hrefused, hframe⟩ := State.refused_dropped he hstage slot .expired
    rw [State.carrierOf_parcel hfound.parcel?] at hrefused
    exact ⟨hrefused, hframe⟩
  · have hfind : e.slotList.find? (fun i => s.codeExpired e.code i) = none := List.find?_eq_none.mpr fun i hi h => by
      obtain ⟨q, hq, hqexp⟩ := State.codeExpired_iff.mp h
      exact hnone i hi q hq hqexp
    rw [State.reEvaluateCollect_none hnil hfind, State.finishEntry_waiting he hstage]
    exact frame_dropEntry s e.job

/-! ## SWEEP (R145) -/

theorem State.sweepMatch_iff {s : State} {carrier : Nat} {slot : Slot} : s.sweepMatch carrier slot = true
    ↔ FoundForCarrier carrier slot s := by
  unfold State.sweepMatch FoundForCarrier
  split
  · rename_i hnone
    refine ⟨(fun h => nomatch h), fun ⟨r, p, hr, _⟩ => ?_⟩
    rw [hnone] at hr
    cases hr
  · rename_i r hr
    constructor
    · intro h
      split at h
      · rename_i p hp
        obtain ⟨hcarrier, hsweep⟩ := State.sweepable_iff.mp h
        exact ⟨r, p, hr, .inl hp, hcarrier, hsweep⟩
      · rename_i p hp
        obtain ⟨hcarrier, hsweep⟩ := State.sweepable_iff.mp h
        exact ⟨r, p, hr, .inr hp, hcarrier, hsweep⟩
      · cases h
    · rintro ⟨r', p, hr', hstate, hcarrier, hsweep⟩
      rw [hr] at hr'
      cases hr'
      have hsweepable := State.sweepable_iff.mpr ⟨hcarrier, hsweep⟩
      rcases hstate with hstate | hstate <;> rw [hstate] <;> exact hsweepable

theorem State.activateSweep_eq {s : State} {j : Job} {e : Entry} (he : s.entry? j = some e) (slots : List Slot) : s.activateSweep j slots
    = (s.updEntry j (fun e => e.startedOn .listed slots)).answer j.ticket.station (.sweepList j.ticket.number slots e.more) := by
  have hmore : (s.updEntry j (fun e => e.startedOn .listed slots)).entryMore j = e.more := by
    unfold State.entryMore
    rw [State.entry?_updEntry_same s j (fun e => e.startedOn .listed slots) (fun _ => rfl), he]
    rfl
  rw [← hmore]
  rfl

/-- A SWEEP entry is LISTED on its slots, with one SWEEP_LIST. -/
theorem State.activateSweep_spec {s : State} {j : Job} {e : Entry} (he : s.entry? j = some e) (slots : List Slot) :
    (s.activateSweep j slots).entry? j = some (e.startedOn .listed slots)
      ∧ Answered (.sweepList j.ticket.number slots e.more) j.ticket.station s (s.activateSweep j slots)
      ∧ UnchangedBut [.requests, .conditions, .transmit] s (s.activateSweep j slots) := by
  have hupd := frame_updEntry s j (fun e => e.startedOn .listed slots)
  have hanswer := frame_answer (s.updEntry j (fun e => e.startedOn .listed slots)) j.ticket.station (.sweepList j.ticket.number slots e.more)
  rw [State.activateSweep_eq he]
  refine ⟨?_, (Answered.answer ..).after hupd, hupd.seq hanswer⟩
  rw [hanswer.entry?, State.entry?_updEntry_same s j (fun e => e.startedOn .listed slots) (fun _ => rfl), he]
  rfl

theorem State.reEvaluateSweep_some {s : State} {e : Entry} {slots : List Slot}
    (h : e.slotList.filter (fun i => s.sweepMatch e.carrier i) = slots) (hne : slots ≠ []) :
    s.reEvaluateSweep e = s.activateSweep e.job slots := by
  unfold State.reEvaluateSweep
  rw [h]
  cases slots with
  | nil => exact absurd rfl hne
  | cons i rest => rfl

theorem State.reEvaluateSweep_none {s : State} {e : Entry} (h : e.slotList.filter (fun i => s.sweepMatch e.carrier i) = []) :
    s.reEvaluateSweep e = s.finishEntry e.job := by
  unfold State.reEvaluateSweep
  rw [h]

theorem SweepTakenUp.reEvaluateSweep {s : State} {e : Entry} (he : s.entry? e.job = some e) (hstage : e.stage = .waiting) :
    SweepTakenUp e s (s.reEvaluateSweep e) := by
  refine ⟨_, rfl, fun i => ?_, fun hne => ?_, fun hnil => ?_⟩
  · rw [List.mem_filter, State.sweepMatch_iff]
  · obtain ⟨hentry, hanswered, hframe⟩ := State.activateSweep_spec he (e.slotList.filter (fun i => s.sweepMatch e.carrier i))
    rw [State.reEvaluateSweep_some rfl hne]
    exact ⟨⟨_, hentry, Entry.slotList_startedOn e _ _, rfl, rfl⟩, hanswered, hframe⟩
  · rw [State.reEvaluateSweep_none hnil, State.finishEntry_waiting he hstage]
    exact ⟨State.entry?_dropEntry_same _ _, frame_dropEntry s e.job⟩

/-! ## SERVICE (R147 to R150) -/

section Service

variable {s : State} {j : Job} {slot : Slot} {r : CompRec}

theorem State.activateService_open (hr : s.rec? slot = some r) : s.activateService j .open slot = s.activateOpen j slot r := by
  unfold State.activateService
  rw [hr]

theorem State.activateService_clear (hr : s.rec? slot = some r) : s.activateService j .clear slot = s.activateClear j slot r := by
  unfold State.activateService
  rw [hr]

theorem State.activateService_retire (hr : s.rec? slot = some r) : s.activateService j .retire slot = s.activateRetire j slot r := by
  unfold State.activateService
  rw [hr]

theorem State.activateService_restore (hr : s.rec? slot = some r) : s.activateService j .restore slot = s.activateRestore j slot r := by
  unfold State.activateService
  rw [hr]

theorem OnlyEntry.toStage (s : State) (j : Job) (stage : EntryStage) (timer : Option Nat) :
    OnlyEntry j s (s.updEntry j (Entry.toStage stage timer)) := .updEntry s j fun _ => rfl

theorem CompState.tag_fault_iff {c : CompState} : c.tag = .fault ↔ ∃ k p, c = .fault k p := by
  cases c <;> simp [CompState.tag]

/-- An unfit compartment: the request is refused and its entry ends. -/
theorem State.activateService_refused (hr : s.rec? slot = some r) {sub : ServiceKind} {reason : Reason}
    (h : (reason = .state ∧ ServiceUnfit sub r) ∨ (reason = .notSecure ∧ sub = .clear ∧ ¬ServiceUnfit sub r ∧ (s.sense slot).secure = false)) :
    s.activateService j sub slot = s.refuseService j slot reason := by
  rcases h with ⟨rfl, hunfit⟩ | ⟨rfl, rfl, hfit, hsecure⟩
  · match sub, hunfit with
    | .open, hunfit => exact (State.activateService_open hr).trans (if_pos hunfit)
    | .clear, hunfit =>
      refine (State.activateService_clear hr).trans (if_pos fun htag => ?_)
      obtain ⟨k, p, hk⟩ := CompState.tag_fault_iff.mp htag
      exact hunfit k p hk
    | .retire, hunfit => exact (State.activateService_retire hr).trans (if_pos hunfit)
    | .restore, hunfit => exact (State.activateService_restore hr).trans (if_pos hunfit)
  · have htag : r.state.tag = .fault := by
      by_contra hno
      exact hfit fun k p hk => hno (CompState.tag_fault_iff.mpr ⟨k, p, hk⟩)
    exact (State.activateService_clear hr).trans ((if_neg (by simp [htag])).trans (if_pos hsecure))

theorem State.activateOpen_eq (hr : s.rec? slot = some r) (h : r.state ≠ .retired) : s.activateService j .open slot
    = (s.updEntry j (Entry.toStage .door none)).askDoor { slot := slot, kind := .service, job := j, ref := s.parcelRef slot } := by
  exact (State.activateService_open hr).trans (if_neg h)

/-- A compartment taken out of service: EMPTY to RETIRED. -/
theorem State.activateRetire_spec (hr : s.rec? slot = some r) (h : r.state = .empty) :
    OnlyEntry j s (s.activateService j .retire slot)
      ∧ (s.activateService j .retire slot).entry? j = (s.entry? j).map (Entry.toStage .immediate none)
      ∧ Changed slot { r with state := .retired } [.serviceDone j.ticket .retired 0] s (s.activateService j .retire slot)
      ∧ CountedAll [(.enterState, some 6, 0)] s (s.activateService j .retire slot)
      ∧ UnchangedBut [.records, .store, .requests, .counters, .free] s (s.activateService j .retire slot) := by
  have hupd := frame_updEntry s j (Entry.toStage .immediate none)
  have hru := (hupd.rec? slot).trans hr
  have hne : (s.updEntry j (Entry.toStage .immediate none)).rec? slot ≠ some { r with state := .retired } := by
    rw [hru]
    intro heq
    have := congrArg CompRec.state (Option.some.inj heq)
    rw [h] at this
    cases this
  have hchange : UnchangedBut [.records, .store, .counters, .free] (s.updEntry j (Entry.toStage .immediate none))
      ((s.updEntry j (Entry.toStage .immediate none)).change slot { r with state := .retired } 0) := frame_change_causeless _ _ 0 rfl
  have hchanged := Changed.change hru { r with state := .retired } 0
  have hawait := frame_await_writing (hchanged.writing hne) (.serviceDone j.ticket .retired 0)
  have heq : s.activateService j .retire slot = ((s.updEntry j (Entry.toStage .immediate none)).change slot { r with state := .retired } 0).await
      slot (.serviceDone j.ticket .retired 0) := (State.activateService_retire hr).trans (if_neg (not_not.mpr h))
  have hafter : UnchangedBut [.records, .store, .counters, .free] (s.updEntry j (Entry.toStage .immediate none))
      (s.activateService j .retire slot) := by
    rw [heq]
    exact hchange.seq hawait
  refine ⟨(OnlyEntry.toStage s j _ _).trans (.of_frame hafter), ?_, ?_, ?_, hupd.seq hafter⟩
  · rw [hafter.entry?]
    exact State.entry?_updEntry_same s j _ fun _ => rfl
  · rw [heq]
    exact (hchanged.await hne _).after hupd
  · have hcount := CountedAll.change hru { r with state := .retired } 0
    have hevents : changeEvents r.state .retired 0 = [(.enterState, some 6, 0)] := by
      rw [h]
      rfl
    rw [hevents] at hcount
    rw [heq]
    exact (hcount.then_ hawait).after hupd

/-- A compartment brought back to service: RETIRED to EMPTY under the entry check. -/
theorem State.activateRestore_spec (hr : s.rec? slot = some r) (h : r.state = .retired) :
    OnlyEntry j s (s.activateService j .restore slot)
      ∧ (s.activateService j .restore slot).entry? j = (s.entry? j).map (Entry.toStage .immediate none)
      ∧ Changed slot { state := .empty, foreign := (s.sense slot).presenceIsOn, lost := false } [.serviceDone j.ticket .restored 0] s
          (s.activateService j .restore slot)
      ∧ CountedAll [(.enterState, some 0, 0)] s (s.activateService j .restore slot)
      ∧ ((s.sense slot).presenceIsOn = true → Raised .foreign (some slot) s (s.activateService j .restore slot))
      ∧ UnchangedBut [.records, .store, .requests, .conditions, .counters, .transmit, .free] s (s.activateService j .restore slot) := by
  have hupd := frame_updEntry s j (Entry.toStage .immediate none)
  have hsense : (s.updEntry j (Entry.toStage .immediate none)).sense slot = s.sense slot := hupd.sense slot
  have hru := (hupd.rec? slot).trans hr
  have hne : (s.updEntry j (Entry.toStage .immediate none)).rec? slot
      ≠ some (CompRec.emptied ((s.updEntry j (Entry.toStage .immediate none)).sense slot).presenceIsOn) := by
    rw [hru]
    intro heq
    have := congrArg CompRec.state (Option.some.inj heq)
    rw [h] at this
    cases this
  have hempty := frame_emptyChecked (s.updEntry j (Entry.toStage .immediate none)) slot
  have hchanged := Changed.emptyChecked hru
  have hawait := frame_await_writing (hchanged.writing hne) (.serviceDone j.ticket .restored 0)
  have heq : s.activateService j .restore slot
      = ((s.updEntry j (Entry.toStage .immediate none)).emptyChecked slot).await slot (.serviceDone j.ticket .restored 0) :=
    (State.activateService_restore hr).trans (if_neg (not_not.mpr h))
  have hafter := hempty.seq hawait (rs := answerParts)
  have honly : OnlyEntry j (s.updEntry j (Entry.toStage .immediate none))
      (((s.updEntry j (Entry.toStage .immediate none)).emptyChecked slot).await slot (.serviceDone j.ticket .restored 0)) :=
    (OnlyEntry.of_frame hempty).trans (.of_frame hawait)
  rw [heq]
  refine ⟨(OnlyEntry.toStage s j _ _).trans honly, ?_, ?_, ?_, fun hon => ?_, hupd.seq hafter⟩
  · rw [hawait.entry?, hempty.entry?]
    exact State.entry?_updEntry_same s j _ fun _ => rfl
  · rw [← hsense]
    exact (hchanged.await hne _).after hupd
  · have hcount := CountedAll.emptyChecked hru
    have hevents : changeEvents r.state .empty 0 = [(.enterState, some 0, 0)] := by
      rw [h]
      rfl
    rw [hevents] at hcount
    exact (hcount.then_ hawait).after hupd
  · rw [← hsense] at hon
    exact ((Raised.emptyChecked hon hru).then_ (.of_frame hawait)).after (.of_frame hupd)

end Service

/-! ### SERVICE_CLEAR (Table 10-7) -/

theorem OnlyEntry.activateSweep {s : State} {j : Job} {e : Entry} (he : s.entry? j = some e) (slots : List Slot) :
    OnlyEntry j s (s.activateSweep j slots) := by
  rw [State.activateSweep_eq he]
  exact (OnlyEntry.updEntry s j (f := fun e => e.startedOn .listed slots) fun _ => rfl).trans (.of_frame (frame_answer _ _ _))

theorem serviceJob_ticket {j : Job} (h : j.kind = .service) : serviceJob j.ticket = j := by
  cases j
  cases h
  rfl

theorem Sense.not_off_of_on {x : Sense} (h : x.presenceIsOn = true) : x.presenceIsOff = false := by
  unfold Sense.presenceIsOn at h
  unfold Sense.presenceIsOff
  rw [beq_iff_eq.mp h]
  rfl

theorem clearResult_table107 {s : State} {slot : Slot} {r : CompRec} (hr : s.rec? slot = some r) (on : Bool) :
    Table107 r on (clearResult r on).1 (clearResult r on).2 (s.parcelRef slot) := by
  unfold Table107 clearResult State.parcelRef
  rw [State.parcel?_rec hr]
  cases r.state.parcel? with
  | none =>
    cases on with
    | true => exact ⟨by simp [CompRec.faulted], rfl, rfl⟩
    | false => exact ⟨rfl, rfl, rfl⟩
  | some p => cases on <;> exact ⟨rfl, rfl, rfl⟩

/-- A compartment is OCCUPIED again only with presence on, and not FAULT again but for a foreign object. -/
theorem clearResult_occupied {r : CompRec} {on : Bool} : ((clearResult r on).1.state.tag = .occupied → on = true)
    ∧ ((clearResult r on).2 ≠ .foreign → (clearResult r on).1.state.cause? = none ∧ (clearResult r on).1.state.tag ≠ .fault)
    ∧ ((clearResult r on).2 = .foreign → (clearResult r on).1 = r.faulted .foreign none) := by
  unfold clearResult
  cases r.state.parcel? with
  | none =>
    cases on with
    | true => exact ⟨(fun h => nomatch h), (fun h => absurd rfl h), fun _ => rfl⟩
    | false => exact ⟨(fun h => nomatch h), fun _ => ⟨rfl, (fun h => nomatch h)⟩, (fun h => nomatch h)⟩
  | some p =>
    cases on with
    | true => exact ⟨fun _ => rfl, fun _ => ⟨rfl, (fun h => nomatch h)⟩, (fun h => nomatch h)⟩
    | false => exact ⟨(fun h => nomatch h), fun _ => ⟨rfl, (fun h => nomatch h)⟩, (fun h => nomatch h)⟩

/-- What a SERVICE_CLEAR makes of a secure FAULT compartment: `t` is the state after the entry's activation in `s`. -/
structure ServiceCleared (j : Job) (slot : Slot) (r new : CompRec) (result : ReleaseResult) (ref : BitVec 64) (s t : State) : Prop where
  record : t.rec? slot = some new
  changed : r ≠ new → Changed slot new [.serviceDone j.ticket result ref] s t
  waits : r = new → Writing slot s → WaitsFor slot (.serviceDone j.ticket result ref) s t
  entry : r ≠ new ∨ Writing slot s → OnlyEntry j s t ∧ t.entry? j = (s.entry? j).map (Entry.toStage .immediate none)
  atOnce : r = new → ¬Writing slot s → (∃ v, OnlyEntry j s v ∧ t.ort = (v.dropEntry j).ort) ∧ (s.liu.tx.length + 2 ≤ 8 →
    TxFrame.fresh (.releaseDone j.ticket.number slot (if r.storeFaulted then .fault else result) ref) 0 j.ticket.station ∈ t.liu.tx)
  raised : result = .foreign → Raised .foreign (some slot) s t
  quiet : result ≠ .foreign → t.rpt.conds = s.rpt.conds ∧ t.liu.tx = s.liu.tx
  counted : r ≠ new → CountedAll (entryEvents r.state new.state (s.carrierOf slot)) s t
  frame : UnchangedBut [.records, .store, .requests, .conditions, .counters, .transmit, .free] s t

theorem Raised.again {c : Condition} {slot : Option Slot} {i : Slot} {s t u : State} (h : Raised c slot s t) (k : Raised c (some i) t u) :
    Raised c (some i) s u where
  isSet := k.isSet
  kept d hd := k.kept d (h.kept d hd)
  only d hd hx := (k.only d hd hx).trans (h.only d hd hx)
  lastFault := k.lastFault

section Clear

variable {s : State} {j : Job} {slot : Slot} {r : CompRec}

/-- The record as the clear leaves it, before its RELEASE_DONE waits. -/
def State.clearedRec (slot : Slot) (r : CompRec) (s : State) : State :=
  if (clearResult r (s.sense slot).presenceIsOn).2 = .foreign
    then (s.changeTested slot (clearResult r (s.sense slot).presenceIsOn).1).raise .foreign (some slot)
    else s.changeTested slot (clearResult r (s.sense slot).presenceIsOn).1

theorem State.activateClear_eq (hr : s.rec? slot = some r) (hfault : r.state.tag = .fault) (hsecure : (s.sense slot).secure = true) :
    s.activateService j .clear slot = ((s.updEntry j (Entry.toStage .immediate none)).clearedRec slot r).await slot
      (.serviceDone j.ticket (clearResult r (s.sense slot).presenceIsOn).2 (s.parcelRef slot)) := by
  have hsense : (s.updEntry j (Entry.toStage .immediate none)).sense slot = s.sense slot := (frame_updEntry s j _).sense slot
  rw [State.activateService_clear hr]
  unfold State.activateClear State.clearedRec
  rw [if_neg (by simp [hfault]), if_neg (by simp [hsecure]), hsense]

theorem testedRec_cleared (r : CompRec) {x : Sense} : testedRec r (clearResult r x.presenceIsOn).1 x.presenceIsOff
    = (clearResult r x.presenceIsOn).1 := by
  refine testedRec_stands ?_
  by_cases htag : (clearResult r x.presenceIsOn).1.state.tag = .occupied
  · exact .inr (.inl (Sense.not_off_of_on (clearResult_occupied.1 htag)))
  · exact .inl htag

theorem Recorded.clearedRec (hr : s.rec? slot = some r) : Recorded slot r (clearResult r (s.sense slot).presenceIsOn).1
    (entryEvents r.state (clearResult r (s.sense slot).presenceIsOn).1.state (s.carrierOf slot)) s (s.clearedRec slot r) := by
  have hrecorded := Recorded.changeTested hr (clearResult_dropsOrKeeps r (s.sense slot).presenceIsOn)
  rw [testedRec_cleared] at hrecorded
  unfold State.clearedRec
  split
  exacts [hrecorded.then_ (frame_raise _ _ _), hrecorded]

theorem frame_clearedRec (s : State) (slot : Slot) (r : CompRec) :
    UnchangedBut [.records, .store, .conditions, .counters, .transmit, .free] s (s.clearedRec slot r) := by
  unfold State.clearedRec
  split
  exacts [(frame_changeTested s slot _).seq (frame_raise _ _ _), frame_changeTested s slot _]

theorem State.changeTested_cleared (hr : s.rec? slot = some r) : s.changeTested slot (clearResult r (s.sense slot).presenceIsOn).1
    = s.change slot (clearResult r (s.sense slot).presenceIsOn).1 0 := by
  rw [State.changeTested_eq hr]
  refine if_neg fun ⟨_, htag, hoff⟩ => ?_
  rw [Sense.not_off_of_on (clearResult_occupied.1 htag)] at hoff
  cases hoff

/-- A clear that changes no record queues at most the ALERT of FOREIGN. -/
theorem State.clearedRec_tx (hr : s.rec? slot = some r) (h : r = (clearResult r (s.sense slot).presenceIsOn).1) :
    (s.clearedRec slot r).liu.tx.length ≤ s.liu.tx.length + 1 := by
  unfold State.clearedRec
  rw [State.changeTested_cleared hr, ← h, State.change_same hr]
  split
  exacts [State.raise_tx_length _ _ _, Nat.le_succ _]

theorem Raised.clearedRec (hr : s.rec? slot = some r) (h : (clearResult r (s.sense slot).presenceIsOn).2 = .foreign) :
    Raised .foreign (some slot) s (s.clearedRec slot r) := by
  have hnew := clearResult_occupied.2.2 h
  unfold State.clearedRec
  rw [if_pos h, State.changeTested_cleared hr, hnew]
  by_cases hcause : r.state.cause? = some .foreign
  · exact (Raised.raise _ _ _).after (.of_frame (frame_change_quiet hr (fun c hc => by cases hc; exact hcause) 0))
  · exact (Raised.change hr (c := .foreign) rfl hcause 0).again (Raised.raise _ _ _)

theorem frame_clearedRec_quiet (hr : s.rec? slot = some r) (h : (clearResult r (s.sense slot).presenceIsOn).2 ≠ .foreign) :
    UnchangedBut [.records, .store, .counters, .free] s (s.clearedRec slot r) := by
  obtain ⟨hcause, -⟩ := clearResult_occupied.2.1 h
  unfold State.clearedRec
  rw [if_neg h, State.changeTested_cleared hr]
  exact frame_change_causeless s slot 0 hcause

theorem ServiceCleared.activateClear (hr : s.rec? slot = some r) (hfault : r.state.tag = .fault)
    (hsecure : (s.sense slot).secure = true) (hj : j.kind = .service) :
    ServiceCleared j slot r (clearResult r (s.sense slot).presenceIsOn).1 (clearResult r (s.sense slot).presenceIsOn).2
      (s.parcelRef slot) s (s.activateService j .clear slot) := by
  have hupd := frame_updEntry s j (Entry.toStage .immediate none)
  have hru := (hupd.rec? slot).trans hr
  have hsense : (s.updEntry j (Entry.toStage .immediate none)).sense slot = s.sense slot := hupd.sense slot
  have hrecorded := Recorded.clearedRec hru
  have hraised := Raised.clearedRec hru
  have hquiet := frame_clearedRec_quiet hru
  rw [State.activateClear_eq hr hfault hsecure]
  rw [hsense] at hrecorded hraised hquiet
  have hframe := frame_clearedRec (s.updEntry j (Entry.toStage .immediate none)) slot r
  have htx := fun heq => State.clearedRec_tx (r := r) hru (by rw [hsense]; exact heq)
  generalize hv : (s.updEntry j (Entry.toStage .immediate none)).clearedRec slot r = v at *
  generalize hm : clearResult r (s.sense slot).presenceIsOn = m at *
  have hdiffer := clearResult_occupied (r := r) (on := (s.sense slot).presenceIsOn)
  rw [hm] at hdiffer
  obtain ⟨hchanged, hsame, hort, hconf, hcounted⟩ := hrecorded
  have hne : r ≠ m.1 → (s.updEntry j (Entry.toStage .immediate none)).rec? slot ≠ some m.1 := fun hno heq =>
    hno (Option.some.inj (hru.symm.trans heq))
  have hwriting : r ≠ m.1 ∨ Writing slot s → Writing slot v := by
    rintro (hno | hw)
    · exact hchanged.writing (hne hno)
    · by_cases heq : r = m.1
      · exact (Writing.congr ((hsame heq).trans (hupd.storeOf slot))).mpr hw
      · exact hchanged.writing (hne heq)
  have hquietAnswer : (Waiter.serviceDone j.ticket m.2 (s.parcelRef slot)).quoteless = true := rfl
  refine ⟨?_, fun hno => (hchanged.await (hne hno) _).after hupd, fun heq hw => ?_, fun hw => ⟨?_, ?_⟩, fun heq hidle => ?_,
    fun hforeign => ?_, fun hno => ?_, fun hno => ?_, (hupd.seq hframe (rs := answerParts)).seq (frame_await v slot hquietAnswer)⟩
  · by_cases hw : Writing slot v
    · exact ((frame_await_writing hw _).rec? slot).trans hchanged.record
    · have heq : r = m.1 := by
        by_contra hno
        exact hw (hwriting (.inl hno))
      rw [State.await_idle hw]
      refine ((RecordsExpire.releaseAnswer v slot hquietAnswer).stands hchanged.record fun p hp => ?_).1
      rw [← heq] at hp
      rw [hp] at hfault
      cases hfault
  · obtain ⟨-, -, hwaits⟩ := State.await_of_writing (hwriting (.inr hw)) (.serviceDone j.ticket m.2 (s.parcelRef slot))
    exact WaitsFor.after ((hsame heq).trans (hupd.storeOf slot)) hwaits
  · exact (OnlyEntry.toStage s j _ _).trans ((OnlyEntry.of_frame hframe).trans (.of_frame (frame_await_writing (hwriting hw) _)))
  · rw [(frame_await_writing (hwriting hw) _).entry?, hframe.entry?]
    exact State.entry?_updEntry_same s j _ fun _ => rfl
  · have hno : ¬Writing slot v := fun hw => hidle ((Writing.congr ((hsame heq).trans (hupd.storeOf slot))).mp hw)
    have hrec : v.rec? slot = some r := by rw [hchanged.record, ← heq]
    have hfaulted : v.storeFaulted slot = r.storeFaulted := by
      unfold State.storeFaulted
      rw [hrec]
    have hdone : v.await slot (.serviceDone j.ticket m.2 (s.parcelRef slot)) = (v.answer j.ticket.station (.releaseDone j.ticket.number slot
        (if r.storeFaulted then .fault else m.2) (s.parcelRef slot))).finishEntry j := by
      rw [State.await_idle hno, ← hfaulted]
      exact congrArg (State.finishEntry · _) (serviceJob_ticket hj)
    have hanswer := frame_answer v j.ticket.station (.releaseDone j.ticket.number slot (if r.storeFaulted then .fault else m.2) (s.parcelRef slot))
    rw [hdone]
    refine ⟨⟨_, (OnlyEntry.toStage s j _ _).trans ((OnlyEntry.of_frame hframe).trans (.of_frame hanswer)), State.finishEntry_ort _ _⟩,
      fun hroom => ?_⟩
    have hlen := htx heq
    rw [hupd.tx] at hlen
    rw [(frame_finishEntry _ j).tx, State.answer_room (by omega)]
    exact List.mem_append_right _ (List.mem_singleton_self _)
  · exact ((hraised hforeign).after (.of_frame hupd)).then_ (.await v slot hquietAnswer)
  · have hno' : r ≠ m.1 := fun heq => (hdiffer.2.1 hno).2 (heq ▸ hfault)
    have hafter := (hquiet hno).seq (frame_await_writing (hwriting (.inl hno')) (.serviceDone j.ticket m.2 (s.parcelRef slot)))
      (rs := [.records, .store, .counters, .free])
    exact ⟨hafter.conds.trans hupd.conds, hafter.tx.trans hupd.tx⟩
  · rw [hupd.carrierOf] at hcounted
    exact (hcounted.then_ (frame_await_writing (hwriting (.inl hno)) _)).after hupd

end Clear

end Sys2Proof.Machine
end

