-- ==== Sys2Proof/Proofs/Rounds.lean ====
section
/- One theorem after another: side by side, their proofs ask for more threads than the check's memory limit allows. -/
set_option Elab.async false

/-! SUPPORT. The rounds of a command's end come to an end (R42, R86): each takes an entry out of WAITING or a request out of the
door queue, and puts none but that entry's request in. -/

namespace Sys2Proof.Machine

/-! ## Waiting entries and queued requests -/

/-- The entries that wait. -/
def State.waiting (s : State) : Nat := s.ort.countP (fun e => e.stage == .waiting)

/-- No entry has begun to wait, and the door queue stands. -/
structure Eases (s t : State) : Prop where
  waiting : t.waiting ≤ s.waiting
  queue : t.dsq.queue = s.dsq.queue

theorem Eases.refl (s : State) : Eases s s := ⟨Nat.le_refl _, rfl⟩

theorem Eases.trans {s t u : State} (h : Eases s t) (k : Eases t u) : Eases s u :=
  ⟨Nat.le_trans k.waiting h.waiting, k.queue.trans h.queue⟩

theorem Eases.of_eq {s t : State} (ho : t.ort = s.ort) (hq : t.dsq.queue = s.dsq.queue) : Eases s t :=
  ⟨Nat.le_of_eq (by unfold State.waiting; rw [ho]), hq⟩

theorem Eases.of_frame {ps : List Part} {s t : State} (h : UnchangedBut ps s t) (ho : Part.requests ∉ ps := by decide)
    (hd : Part.doors ∉ ps := by decide) : Eases s t := .of_eq (h.ort ho) (by rw [h.dsq hd])

theorem Eases.foldl {α : Type} {f : State → α → State} (h : ∀ s x, Eases s (f s x)) (xs : List α) (s : State) :
    Eases s (xs.foldl f s) := by
  induction xs generalizing s with
  | nil => exact .refl s
  | cons x xs ih => exact (h s x).trans (ih _)

theorem countP_map_le {α : Type} {p : α → Bool} {f : α → α} (xs : List α) (h : ∀ x, p (f x) = true → p x = true) :
    (xs.map f).countP p ≤ xs.countP p := by
  rw [List.countP_map]
  exact List.countP_mono_left fun x _ hx => h x hx

/-- An update that makes no entry wait. -/
theorem Eases.updEntry (s : State) (j : Job) {f : Entry → Entry} (h : ∀ e, (f e).stage = .waiting → e.stage = .waiting) :
    Eases s (s.updEntry j f) := by
  refine ⟨countP_map_le s.ort fun e he => ?_, rfl⟩
  rw [beq_iff_eq] at he ⊢
  split at he
  exacts [h e he, he]

theorem Eases.dropEntry (s : State) (j : Job) : Eases s (s.dropEntry j) :=
  ⟨List.Sublist.countP_le List.filter_sublist, rfl⟩

theorem Eases.finishEntry (s : State) (j : Job) : Eases s (s.finishEntry j) := by
  have hdrop := Eases.dropEntry s j
  have hfinish := frame_finishEntry s j
  have hort : (s.finishEntry j).waiting = (s.dropEntry j).waiting := by
    unfold State.waiting
    rw [State.finishEntry_ort]
  exact ⟨hort ▸ hdrop.waiting, by rw [hfinish.dsq]⟩

/-- A waiting entry that is changed or dropped makes one less. -/
theorem State.waiting_lt {s t : State} {e : Entry} (he : e ∈ s.ort) (hw : e.stage = .waiting) {f : Entry → List Entry}
    (ht : t.ort = s.ort.flatMap f) (hone : ∀ d, (f d).countP (fun d => d.stage == .waiting) ≤ if d.stage = .waiting then 1 else 0)
    (hgone : (f e).countP (fun d => d.stage == .waiting) = 0) : t.waiting + 1 ≤ s.waiting := by
  obtain ⟨before, after, hort⟩ := List.append_of_mem he
  have hle (xs : List Entry) : (xs.flatMap f).countP (fun d => d.stage == .waiting) ≤ xs.countP (fun d => d.stage == .waiting) := by
    induction xs with
    | nil => exact Nat.le_refl _
    | cons x xs ih =>
      have hx := hone x
      rw [List.flatMap_cons, List.countP_append, List.countP_cons]
      by_cases hxw : x.stage = .waiting
      · rw [if_pos hxw] at hx
        rw [if_pos (by simp [hxw])]
        omega
      · rw [if_neg hxw] at hx
        rw [if_neg (by simp [hxw])]
        omega
  have hb := hle before
  have ha := hle after
  unfold State.waiting
  rw [ht, hort, List.flatMap_append, List.flatMap_cons, List.countP_append, List.countP_append, hgone, List.countP_append,
    List.countP_cons, if_pos (by simp [hw])]
  omega

theorem State.waiting_updEntry {s : State} {e : Entry} (he : e ∈ s.ort) (hw : e.stage = .waiting) {f : Entry → Entry}
    (hf : ∀ d, (f d).stage ≠ .waiting) : (s.updEntry e.job f).waiting + 1 ≤ s.waiting := by
  refine State.waiting_lt he hw (f := fun d => [if d.kind = e.job.kind ∧ d.ticket = e.job.ticket then f d else d])
    List.map_eq_flatMap (fun d => ?_) ?_
  · by_cases hd : d.kind = e.job.kind ∧ d.ticket = e.job.ticket
    · rw [if_pos hd, List.countP_singleton, if_neg (by simpa using hf d)]
      exact Nat.zero_le _
    · rw [if_neg hd, List.countP_singleton]
      simp
  · rw [if_pos ⟨rfl, rfl⟩, List.countP_singleton, if_neg (by simpa using hf e)]

theorem State.waiting_dropEntry {s : State} {e : Entry} (he : e ∈ s.ort) (hw : e.stage = .waiting) :
    (s.dropEntry e.job).waiting + 1 ≤ s.waiting := by
  have hlt : (s.ort.filter (fun d => !(d.kind == e.job.kind && d.ticket == e.job.ticket))).countP (fun d => d.stage == .waiting) + 1
      ≤ s.ort.countP (fun d => d.stage == .waiting) := by
    rw [List.countP_filter]
    obtain ⟨before, after, hort⟩ := List.append_of_mem he
    have hle (xs : List Entry) : xs.countP (fun d => d.stage == .waiting && !(d.kind == e.job.kind && d.ticket == e.job.ticket))
        ≤ xs.countP (fun d => d.stage == .waiting) := List.countP_mono_left fun d _ hd => (Bool.and_eq_true_iff.mp hd).1
    have hb := hle before
    have ha := hle after
    have hgone : ¬(e.stage == EntryStage.waiting && !(e.kind == e.job.kind && e.ticket == e.job.ticket)) = true := by
      simp [Entry.job]
    have hwaits : (e.stage == EntryStage.waiting) = true := beq_iff_eq.mpr hw
    rw [hort, List.countP_append, List.countP_append, List.countP_cons_of_neg (a := e) hgone, List.countP_cons_of_pos (a := e) hwaits]
    omega
  exact hlt

theorem State.waiting_finishEntry {s : State} {e : Entry} (he : e ∈ s.ort) (hw : e.stage = .waiting) :
    (s.finishEntry e.job).waiting + 1 ≤ s.waiting := by
  have hort : (s.finishEntry e.job).waiting = (s.dropEntry e.job).waiting := by
    unfold State.waiting
    rw [State.finishEntry_ort]
  rw [hort]
  exact State.waiting_dropEntry he hw

/-! ## What the units do -/

theorem Eases.releaseSlot (s : State) (j : Job) (slot : Slot) : Eases s (s.releaseSlot j slot) :=
  (Eases.updEntry s j (f := fun e => e.slotReleased slot) fun _ h => h).trans (.of_frame (frame_releaseSlot_expiry s j slot))

theorem Eases.endIfDone (s : State) (j : Job) : Eases s (s.endIfDone j) := by
  unfold State.endIfDone
  split
  · exact .refl s
  · split
    · exact .finishEntry s j
    · split
      exacts [.updEntry s j fun _ h => h, .refl s]

theorem Eases.slotDone (s : State) (j : Job) (slot : Slot) : Eases s (s.slotDone j slot) :=
  (Eases.releaseSlot s j slot).trans (.endIfDone _ j)

theorem Eases.answer_then {s t : State} {d : BitVec 6} {b : Body} (h : Eases (s.answer d b) t) : Eases s t :=
  (Eases.of_frame (frame_answer s d b)).trans h

theorem Eases.releaseAnswer (s : State) (slot : Slot) {w : Waiter} (h : w.quoteless = true) : Eases s (s.releaseAnswer slot w) := by
  cases w with
  | placeDone t r => exact .answer_then (.finishEntry _ _)
  | releaseDone j r ref =>
    have hafter (s : State) : Eases s (s.afterRelease j slot) := by
      unfold State.afterRelease
      split
      exacts [.slotDone _ j slot, .slotDone _ j slot, .finishEntry _ j, .refl _]
    exact (Eases.of_frame (frame_answer s _ _)).trans (hafter _)
  | serviceDone t r ref => exact .answer_then (.finishEntry _ _)
  | payment t excess minute p => cases h
  | endEntry j => exact .finishEntry s j
  | cycleStart => exact .refl s
  | detail t => exact .refl s

theorem Eases.await (s : State) (slot : Slot) {w : Waiter} (h : w.quoteless = true) : Eases s (s.await slot w) := by
  by_cases hw : Writing slot s
  · exact .of_frame (frame_await_writing hw w)
  · rw [State.await_idle hw]
    exact .releaseAnswer s slot h

theorem Eases.serviceOutcome (s : State) (x : Returned) (o : Outcome) : Eases s (s.serviceOutcome x o) := by
  unfold State.serviceOutcome
  split
  · exact .refl s
  · dsimp only
    split
    · exact (Eases.of_frame ((frame_changeTested s x.slot _).seq (frame_raise _ _ _)
        (rs := [.records, .store, .conditions, .counters, .transmit, .free]))).trans (.await _ _ rfl)
    · exact (Eases.of_frame (frame_changeTested s x.slot _)).trans (.await _ _ rfl)

theorem Eases.removalOutcome (s : State) (x : Returned) (o : Outcome) : Eases s (s.removalOutcome x o) := by
  unfold State.removalOutcome
  split
  · exact .refl s
  · exact (Eases.of_frame (frame_changeTested s x.slot _)).trans (.await _ _ rfl)

theorem Eases.depositOutcome (s : State) (x : Returned) (o : Outcome) : Eases s (s.depositOutcome x o) := by
  unfold State.depositOutcome
  split
  · exact .refl s
  · exact (Eases.of_frame (frame_changeTested s x.slot _)).trans (.await _ _ rfl)

theorem Eases.refuseUnpaid (s : State) (t : Ticket) (slot : Slot) : Eases s (s.refuseUnpaid t slot) := by
  have hrefuse := Eases.of_frame (frame_refuseSlot s t slot .unpaid)
  unfold State.refuseUnpaid
  dsimp only
  split
  · exact hrefuse
  · rename_i p _
    have hkeep : Eases (s.refuseSlot t slot .unpaid)
        ((s.refuseSlot t slot .unpaid).issueQuote (collectJob t) slot p (s.refuseSlot t slot .unpaid).clk.minute) :=
      (Eases.updEntry _ (collectJob t) (f := fun e => e.updSlot slot _) fun _ h => h).trans (.of_frame (frame_setQuoteCounter _ _))
    exact (hrefuse.trans hkeep).trans (.of_frame (frame_answer _ _ _))

theorem Eases.answerStartCheck (s : State) (j : Job) (slot : Slot) (v : Judgment) : Eases s (s.answerStartCheck j slot v) := by
  have hdone (reason : Reason) : Eases s ((s.refuseSlot j.ticket slot reason).slotDone j slot) :=
    (Eases.of_frame (frame_refuseSlot s _ _ _)).trans (.slotDone _ _ _)
  unfold State.answerStartCheck
  split
  · exact hdone _
  · exact ((Eases.refuseUnpaid s _ _).trans (.updEntry _ j (f := fun e => e.updSlot slot _) fun _ h => h)).trans
      (.updEntry _ j (f := Entry.restartLapse) fun _ h => h)
  exacts [hdone _, hdone _, hdone _, hdone _, .refl s]

theorem Eases.returnOutcome (s : State) (x : Returned) (o : Outcome) : Eases s (s.returnOutcome x o) := by
  have hcount := Eases.of_frame (frame_count s .doorCycle (some o.pos) (s.carrierOf x.slot))
  unfold State.returnOutcome
  dsimp only
  split
  · exact hcount.trans (.answerStartCheck _ _ _ _)
  · split
    · exact hcount.trans (.depositOutcome _ _ _)
    · exact hcount.trans (.removalOutcome _ _ _)
    · exact hcount.trans (.removalOutcome _ _ _)
    · exact hcount.trans (.serviceOutcome _ _ _)

theorem Eases.endCycle (s : State) (c : Cycle) (o : Outcome) (v : Option Judgment) : Eases s (s.endCycle c o v) :=
  (Eases.of_eq (frame_freeCycle s c.slot).ort (CycleGone.freeCycle s c.slot).queue).trans (.returnOutcome _ _ _)

theorem Eases.openCycle (s : State) (c : Cycle) : Eases s (s.openCycle c) :=
  .of_eq (frame_openCycle s c).ort (by rw [State.openCycle_dsq])

theorem Eases.enterPulseWait (s : State) (c : Cycle) : Eases s (s.enterPulseWait c) :=
  .of_eq (frame_enterPulseWait s c).ort (State.enterPulseWait_queue s c)

theorem Eases.startRequest (s : State) (q : DoorRequest) : Eases s (s.startRequest q) := by
  unfold State.startRequest
  split
  · exact .refl s
  · dsimp only
    split
    · exact (Eases.openCycle s _).trans (.endCycle _ _ _ _)
    · split
      · exact (Eases.openCycle s _).trans (.enterPulseWait _ _)
      · split
        · rename_i hatt
          exact ((Eases.openCycle s _).trans (.of_frame (frame_change _ _ _ _))).trans (.of_frame (frame_attach hatt))
        · exact (Eases.openCycle s _).trans (.enterPulseWait _ _)

/-! ## A round -/

/-- The work a command's end finds: a waiting entry may still ask for a door, so it counts twice. -/
def State.work (s : State) : Nat := 2 * s.waiting + s.dsq.queue.length

/-- What an entry taken up leaves: one entry less waits, and at most its request has joined the door queue. -/
structure TakenUp (s t : State) : Prop where
  waiting : t.waiting + 1 ≤ s.waiting
  queue : t.dsq.queue.length ≤ s.dsq.queue.length + 1

theorem TakenUp.work {s t : State} (h : TakenUp s t) : t.work + 1 ≤ s.work := by
  have hwaiting := h.waiting
  have hqueue := h.queue
  unfold State.work
  omega

theorem TakenUp.then_ {s t u : State} (h : t.waiting + 1 ≤ s.waiting) (hq : t.dsq.queue = s.dsq.queue) (k : Eases t u) : TakenUp s u :=
  ⟨Nat.le_trans (Nat.succ_le_succ k.waiting) h, by rw [k.queue, hq]; exact Nat.le_succ _⟩

theorem TakenUp.after {s t u : State} (h : Eases s t) (k : TakenUp t u) : TakenUp s u :=
  ⟨Nat.le_trans k.waiting h.waiting, by rw [← h.queue]; exact k.queue⟩

theorem State.tryStart_queue (s : State) : s.tryStart.dsq.queue.length ≤ s.dsq.queue.length ∧ s.tryStart.waiting ≤ s.waiting := by
  unfold State.tryStart
  split
  · exact ⟨Nat.le_refl _, Nat.le_refl _⟩
  · rename_i q rest hq
    split
    · have hstart := Eases.startRequest (s.setDsq { s.dsq with queue := rest }) q
      refine ⟨?_, hstart.waiting⟩
      rw [hstart.queue, hq]
      exact Nat.le_succ _
    · exact ⟨Nat.le_refl _, Nat.le_refl _⟩

theorem State.askDoor_queue (s : State) (q : DoorRequest) : (s.askDoor q).dsq.queue.length ≤ s.dsq.queue.length + 1
    ∧ (s.askDoor q).waiting ≤ s.waiting := by
  unfold State.askDoor
  split
  · exact ⟨Nat.le_trans (Nat.le_of_eq (congrArg List.length (Eases.returnOutcome s _ .abandoned).queue)) (Nat.le_succ _),
      (Eases.returnOutcome s _ .abandoned).waiting⟩
  · obtain ⟨hqueue, hwaiting⟩ := State.tryStart_queue (s.setDsq { s.dsq with queue := s.dsq.queue ++ [q] })
    refine ⟨Nat.le_trans hqueue ?_, hwaiting⟩
    show (s.dsq.queue ++ [q]).length ≤ _
    rw [List.length_append]
    exact Nat.le_refl _

section Taken

variable {s : State} {e : Entry}

theorem TakenUp.finish (he : e ∈ s.ort) (hw : e.stage = .waiting) : TakenUp s (s.finishEntry e.job) :=
  ⟨State.waiting_finishEntry he hw, by rw [(frame_finishEntry s e.job).dsq]; exact Nat.le_succ _⟩

theorem TakenUp.refused (he : e ∈ s.ort) (hw : e.stage = .waiting) (t : Ticket) (slot : Slot) (r : Reason) :
    TakenUp s ((s.refuseSlot t slot r).finishEntry e.job) := by
  have hrefuse := frame_refuseSlot s t slot r
  exact .after (.of_frame hrefuse) (.finish (by rw [hrefuse.ort]; exact he) hw)

theorem TakenUp.updated (he : e ∈ s.ort) (hw : e.stage = .waiting) {f : Entry → Entry} (hf : ∀ d, (f d).stage ≠ .waiting) {t : State}
    (h : Eases (s.updEntry e.job f) t) : TakenUp s t := .then_ (State.waiting_updEntry he hw hf) rfl h

theorem TakenUp.activateCollect (he : e ∈ s.ort) (hw : e.stage = .waiting) (slots : List Slot) :
    TakenUp s (s.activateCollect e.job slots) := by
  have hquotes (u : State) : Eases u (slots.foldl (fun s slot => s.quoteSlot e.job slot) u) := .foldl (fun s slot => by
    unfold State.quoteSlot
    split
    · exact (Eases.updEntry s e.job (f := fun e => e.updSlot slot _) fun _ h => h).trans (.of_frame (frame_setQuoteCounter _ _))
    · exact .refl s) slots u
  rw [State.activateCollect_eq]
  exact .updated he hw (f := fun e => e.startedOn .matched slots) (fun _ h => nomatch h)
    ((hquotes _).trans (.of_frame (frame_queueMatches _ _ slots)))

theorem TakenUp.activateService (he : e ∈ s.ort) (hw : e.stage = .waiting) (sub : ServiceKind) (slot : Slot) :
    TakenUp s (s.activateService e.job sub slot) := by
  have himmediate (d : Entry) : (d.toStage .immediate none).stage ≠ .waiting := fun h => nomatch h
  unfold State.activateService
  split
  · exact .finish he hw
  · rename_i r _
    split
    · unfold State.activateOpen
      split
      · exact .refused he hw _ _ _
      · obtain ⟨hqueue, hwaiting⟩ := State.askDoor_queue (s.updEntry e.job (Entry.toStage .door none))
          { slot := slot, kind := .service, job := e.job, ref := (s.updEntry e.job (Entry.toStage .door none)).parcelRef slot }
        exact ⟨Nat.le_trans (Nat.succ_le_succ hwaiting) (State.waiting_updEntry he hw (f := Entry.toStage .door none) (fun _ h => nomatch h)), hqueue⟩
    · unfold State.activateClear
      split
      · exact .refused he hw _ _ _
      · split
        · exact .refused he hw _ _ _
        · dsimp only
          refine .updated he hw himmediate ((Eases.of_frame (frame_changeTested _ slot (clearResult r (s.sense slot).presenceIsOn).1)).trans ?_)
          split
          · exact (Eases.of_frame (frame_raise _ _ _)).trans (.await _ _ rfl)
          · exact .await _ _ rfl
    · unfold State.activateRetire
      split
      · exact .refused he hw _ _ _
      · exact .updated he hw himmediate ((Eases.of_frame (frame_change _ slot _ _)).trans (.await _ _ rfl))
    · unfold State.activateRestore
      split
      · exact .refused he hw _ _ _
      · exact .updated he hw himmediate ((Eases.of_frame (frame_emptyChecked _ slot)).trans (.await _ _ rfl))

theorem TakenUp.reEvaluate (he : e ∈ s.ort) (hw : e.stage = .waiting) : TakenUp s (s.reEvaluate e) := by
  unfold State.reEvaluate
  split
  · unfold State.reEvaluateCollect
    split
    · exact .activateCollect he hw _
    · split
      exacts [.refused he hw _ _ _, .finish he hw]
  · unfold State.reEvaluateSweep
    split
    · exact .updated he hw (f := fun e => e.startedOn .listed _) (fun _ h => nomatch h) (.of_frame (frame_answer _ _ _))
    · exact .finish he hw
  · unfold State.reEvaluateService
    split
    exacts [.activateService he hw _ _, .finish he hw]
  · exact .finish he hw

end Taken

end Sys2Proof.Machine
end

