-- ==== Sys2Proof/Proofs/Conclude.lean ====
section
/- One theorem after another: side by side, their proofs ask for more threads than the check's memory limit allows. -/
set_option Elab.async false

/-! SUPPORT and proof of O55: what a command does at its end (R42, R69, R86). -/

namespace Sys2Proof.Machine

/-! ## The first eligible entry (R86) -/

theorem State.eligible_iff {s : State} {older : List Entry} {e : Entry} : s.eligible older e = true ↔ Eligible older e s := by
  have hfree (slot : Slot) : (s.holder? slot).isNone = true ↔ ∀ d ∈ s.ort, d.holds slot = false := by
    unfold State.holder?
    rw [Option.isNone_iff_eq_none, List.find?_eq_none]
    simp only [Bool.not_eq_true]
  have hfirst (slot : Slot) : (!older.any (fun o => o.awaits slot)) = true ↔ ∀ d ∈ older, d.awaits slot = false := by
    rw [Bool.not_eq_true', List.any_eq_false]
    simp only [Bool.not_eq_true]
  unfold State.eligible Eligible Entry.slotList
  rw [Bool.and_eq_true, beq_iff_eq, List.all_eq_true, List.forall_mem_map]
  simp only [Bool.and_eq_true, hfree, hfirst]

/-- The entries before an eligible one are passed over. -/
theorem State.firstEligible_append {s : State} (before rest : List Entry) (older : List Entry)
    (h : ∀ b d a, before = b ++ d :: a → ¬Eligible (older ++ b) d s) :
    s.firstEligible older (before ++ rest) = s.firstEligible (older ++ before) rest := by
  induction before generalizing older with
  | nil => rw [List.append_nil, List.nil_append]
  | cons d before ih =>
    have hhead : ¬Eligible older d s := by
      have := h [] d before rfl
      rwa [List.append_nil] at this
    have htail : ∀ b x a, before = b ++ x :: a → ¬Eligible (older ++ [d] ++ b) x s := fun b x a hb => by
      have := h (d :: b) x a (by rw [hb, List.cons_append])
      rwa [List.append_assoc, List.singleton_append]
    have hskip : s.firstEligible older (d :: (before ++ rest)) = s.firstEligible (older ++ [d]) (before ++ rest) :=
      if_neg fun hd => hhead (State.eligible_iff.mp hd)
    rw [List.cons_append, hskip, ih _ htail, List.append_assoc, List.singleton_append]

theorem State.firstEligible_first {s : State} {older later : List Entry} {e : Entry} (hort : s.ort = older ++ e :: later)
    (he : Eligible older e s) (hfirst : ∀ before d after, older = before ++ d :: after → ¬Eligible before d s) :
    s.firstEligible [] s.ort = some e := by
  rw [hort, State.firstEligible_append older _ [] (by simpa using hfirst), List.nil_append]
  exact if_pos (State.eligible_iff.mpr he)

theorem State.firstEligible_none_iff {s : State} : s.firstEligible [] s.ort = none
    ↔ ∀ older e later, s.ort = older ++ e :: later → ¬Eligible older e s := by
  constructor
  · intro hnone older
    generalize hn : older.length = n
    induction n using Nat.strong_induction_on generalizing older with
    | _ n ih =>
      intro e later hort helig
      have hsome := State.firstEligible_first hort helig fun before d after hbefore =>
        ih before.length (by rw [← hn, hbefore, List.length_append, List.length_cons]; omega) before rfl d (after ++ e :: later)
          (by rw [hort, hbefore, List.append_assoc, List.cons_append])
      rw [hnone] at hsome
      cases hsome
  · intro h
    have := State.firstEligible_append (s := s) s.ort [] [] (by simpa using h)
    rw [List.append_nil] at this
    rw [this]
    rfl

theorem State.firstEligible_mem {s : State} {older xs : List Entry} {e : Entry} (h : s.firstEligible older xs = some e) :
    e ∈ xs ∧ e.stage = .waiting := by
  induction xs generalizing older with
  | nil => cases h
  | cons d xs ih =>
    by_cases hd : s.eligible older d = true
    · cases (if_pos hd).symm.trans h
      exact ⟨List.mem_cons_self, (State.eligible_iff.mp hd).1⟩
    · obtain ⟨hmem, hstage⟩ := ih ((if_neg hd).symm.trans h)
      exact ⟨List.mem_cons_of_mem _ hmem, hstage⟩

/-! ## Rounds -/

theorem State.canStart_iff {s : State} : s.canStart = true ↔ s.dsq.queue ≠ [] ∧ s.dsq.cycles.length < s.conf.span := by
  unfold State.canStart
  rw [Bool.and_eq_true, decide_eq_true_iff, Bool.not_eq_true', List.isEmpty_eq_false_iff]

theorem State.settleOne_eligible {s : State} {e : Entry} (h : s.firstEligible [] s.ort = some e) :
    s.settleOne = some (s.reEvaluate e) := by
  unfold State.settleOne
  rw [h]

theorem State.settleOne_start {s : State} (h : s.firstEligible [] s.ort = none) :
    s.settleOne = if s.canStart then some s.tryStart else none := by
  unfold State.settleOne
  rw [h]

theorem State.settleOne_none_iff {s : State} : s.settleOne = none ↔ s.firstEligible [] s.ort = none ∧ s.canStart = false := by
  cases h : s.firstEligible [] s.ort with
  | some e =>
    rw [State.settleOne_eligible h]
    exact ⟨(fun h => nomatch h), fun ⟨hsome, _⟩ => nomatch hsome⟩
  | none =>
    rw [State.settleOne_start h]
    cases s.canStart with
    | true => exact ⟨(fun h => nomatch h), fun ⟨_, hfalse⟩ => nomatch hfalse⟩
    | false => exact ⟨fun _ => ⟨rfl, rfl⟩, fun _ => rfl⟩

theorem State.settle_some {s t : State} (h : s.settleOne = some t) (n : Nat) : s.settle (n + 1) = t.settle n := by
  rw [State.settle, h]

theorem State.settle_none {s : State} (h : s.settleOne = none) (n : Nat) : s.settle n = s := by
  cases n with
  | zero => rfl
  | succ n => rw [State.settle, h]

theorem State.work_tryStart {s : State} (h : s.canStart = true) : s.tryStart.work + 1 ≤ s.work := by
  obtain ⟨hqueue, hspan⟩ := State.canStart_iff.mp h
  obtain ⟨q, rest, hq⟩ := List.exists_cons_of_ne_nil hqueue
  have hstart := Eases.startRequest (s.setDsq { s.dsq with queue := rest }) q
  have hleft : ((s.setDsq { s.dsq with queue := rest }).startRequest q).dsq.queue = rest := hstart.queue
  have hwaiting : ((s.setDsq { s.dsq with queue := rest }).startRequest q).waiting ≤ s.waiting := hstart.waiting
  rw [State.tryStart_eq hq hspan]
  unfold State.work
  rw [hleft, hq, List.length_cons]
  omega

theorem State.work_settleOne {s t : State} (h : s.settleOne = some t) : t.work + 1 ≤ s.work := by
  cases he : s.firstEligible [] s.ort with
  | some e =>
    obtain ⟨hmem, hstage⟩ := State.firstEligible_mem he
    cases (State.settleOne_eligible he).symm.trans h
    exact (TakenUp.reEvaluate hmem hstage).work
  | none =>
    rw [State.settleOne_start he] at h
    split at h
    · cases h
      exact State.work_tryStart ‹_›
    · cases h

/-- Rounds enough leave nothing to do. -/
theorem State.settle_done {n : Nat} {s : State} (h : s.work < n) : (s.settle n).settleOne = none := by
  induction n generalizing s with
  | zero => cases h
  | succ n ih =>
    cases ht : s.settleOne with
    | none =>
      rw [State.settle_none ht]
      exact ht
    | some t =>
      rw [State.settle_some ht]
      have := State.work_settleOne ht
      exact ih (by omega)

theorem State.work_le {s : State} (hort : s.ort.length ≤ 8) (hqueue : s.dsq.queue.length ≤ 24) : s.work < settleRounds := by
  have hwaiting : s.waiting ≤ s.ort.length := List.countP_le_length
  unfold State.work settleRounds
  omega

theorem State.conclude_settled {s : State} (hort : s.ort.length ≤ 8) (hqueue : s.dsq.queue.length ≤ 24) :
    (∀ older e later, s.conclude.ort = older ++ e :: later → ¬Eligible older e s.conclude)
      ∧ (s.conclude.dsq.queue = [] ∨ s.conf.span ≤ s.conclude.dsq.cycles.length) := by
  have hnote := frame_noteTest (s.settle settleRounds)
  have hconf : s.conclude.conf = s.conf := (Follows.conclude s).frame.conf
  obtain ⟨hnone, hstart⟩ := State.settleOne_none_iff.mp (State.settle_done (State.work_le hort hqueue))
  refine ⟨fun older e later he helig => ?_, ?_⟩
  · have hort' : (s.settle settleRounds).ort = older ++ e :: later := hnote.ort.symm.trans he
    refine State.firstEligible_none_iff.mp hnone older e later hort' ⟨helig.1, fun slot hslot => ?_⟩
    obtain ⟨hholds, hawaits⟩ := helig.2 slot hslot
    exact ⟨fun d hd => hholds d (by rw [he]; rwa [hort'] at hd), hawaits⟩
  · by_contra hno
    obtain ⟨hleft, hspan⟩ := not_or.mp hno
    have hdsq : s.conclude.dsq = (s.settle settleRounds).dsq := hnote.dsq
    have hsame : (s.settle settleRounds).conf = s.conf := hnote.conf.symm.trans hconf
    rw [hdsq] at hleft hspan
    rw [State.canStart_iff.mpr ⟨hleft, by rw [hsame]; omega⟩] at hstart
    cases hstart

/-! ## The queue test of the own note (R69, R160) -/

theorem State.noteCandidate_iff {s : State} {slot : Slot} : s.noteCandidate = some slot ↔ NoteCycle slot s := by
  unfold State.noteCandidate NoteCycle
  cases s.bgu.own with
  | none => simp
  | deferred i => simp
  | queued i ended => simp

theorem State.noteAllowed_iff {s : State} {slot : Slot} : s.noteAllowed slot = true ↔ NoteMay slot s := by
  unfold State.noteAllowed
  rw [Bool.and_eq_true, Bool.and_eq_true, Bool.and_eq_true, Bool.and_eq_true, beq_iff_eq, bne_iff_ne, decide_eq_true_iff,
    Bool.not_eq_true', Bool.not_eq_true', ← Bool.not_eq_true (s.listed _ _), State.listed_iff]
  constructor
  · rintro ⟨⟨⟨⟨hline, hbasis⟩, hrestart⟩, hbudget⟩, hlisted⟩
    exact ⟨hline, hbasis, hrestart, hbudget, fun p hp heq => hlisted ⟨p, hp, heq⟩⟩
  · rintro ⟨hline, hbasis, hrestart, hbudget, hlisted⟩
    exact ⟨⟨⟨⟨hline, hbasis⟩, hrestart⟩, hbudget⟩, fun ⟨p, hp, heq⟩ => hlisted p hp heq⟩

/-- A frame that is no candidate is always placed where another one gives way. -/
theorem placeIn_full_kept {f : TxFrame} {q : List TxFrame} (hq : 8 ≤ q.length) (hf : f.discardable = false)
    (h : ∃ g ∈ q, 2 ≤ g.body.cls ∧ g.sending = false) :
    (placeIn f q).discarded = true ∧ (placeIn f q).placed = true ∧ f ∈ (placeIn f q).queue := by
  obtain ⟨g, hg, hcand⟩ := h
  obtain ⟨i, x, ⟨hx, hd, -⟩, hplace⟩ := placeIn_full_some (f := f) hq ⟨g, List.mem_append_left _ hg, hcand⟩
  have hi : q.length ≠ i := fun heq => by
    rw [← heq, List.getElem?_concat_length] at hx
    cases hx
    rw [hf] at hd
    cases hd
  rw [hplace]
  exact ⟨rfl, bne_iff_ne.mpr hi.symm, List.mem_eraseIdx_iff_getElem?.mpr ⟨q.length, hi, List.getElem?_concat_length⟩⟩

theorem State.placeNote_room {s : State} (h : s.liu.tx.length < 8) (c : Cycle) :
    s.placeNote c = (s.setTx (s.liu.tx ++ [s.noteFrame c])).setOwn (.queued c.slot false) := by
  unfold State.placeNote
  rw [placeIn_room h]
  rfl

theorem State.placeNote_none {s : State} (hq : 8 ≤ s.liu.tx.length) (h : ∀ g ∈ s.liu.tx, g.body.cls < 2 ∨ g.sending = true) (c : Cycle) :
    s.placeNote c = (s.setTx s.liu.tx).setOwn (.deferred c.slot) := by
  unfold State.placeNote
  rw [placeIn_full_none hq fun g hg => ?_]
  · rfl
  · rcases List.mem_append.mp hg with hg | hg
    · exact h g hg
    · rw [List.mem_singleton.mp hg]
      exact .inl (by decide : 0 < 2)

theorem State.placeNote_discards {s : State} (hq : 8 ≤ s.liu.tx.length) (h : ∃ g ∈ s.liu.tx, 2 ≤ g.body.cls ∧ g.sending = false) (c : Cycle) :
    s.placeNote c = ((s.setTx (placeIn (s.noteFrame c) s.liu.tx).queue).raise .txDiscard none).setOwn (.queued c.slot false)
      ∧ s.noteFrame c ∈ (placeIn (s.noteFrame c) s.liu.tx).queue := by
  obtain ⟨hdiscarded, hplaced, hmem⟩ := placeIn_full_kept (f := s.noteFrame c) hq rfl h
  refine ⟨?_, hmem⟩
  unfold State.placeNote
  dsimp only
  rw [hdiscarded, hplaced]
  rfl

theorem State.noteTest_places {s : State} {slot : Slot} {c : Cycle} (hslot : NoteCycle slot s) (hc : s.cycle? slot = some c)
    (h : NoteMay slot s) : s.noteTest = s.placeNote c := by
  unfold State.noteTest
  rw [State.noteCandidate_iff.mpr hslot]
  dsimp only
  rw [hc]
  exact if_pos (State.noteAllowed_iff.mpr h)

theorem State.noteTest_rests {s : State} (h : ∀ slot c, s.noteCandidate = some slot → s.cycle? slot = some c → s.noteAllowed slot = false) :
    s.noteTest = s := by
  unfold State.noteTest
  cases hslot : s.noteCandidate with
  | none => rfl
  | some slot =>
    dsimp only
    cases hc : s.cycle? slot with
    | none => rfl
    | some c =>
      dsimp only
      rw [h slot c hslot hc]
      rfl

theorem NoteTested.noteTest (s : State) : NoteTested s s.noteTest := by
  refine ⟨fun slot c hslot hc hmay => ?_, fun hno => State.noteTest_rests fun slot c hslot hc => ?_⟩
  · have hcs := State.cycle?_slot hc
    rw [State.noteTest_places hslot hc hmay]
    refine ⟨fun hroom => ?_, fun hfull hsome => ?_, fun hfull hnone => ?_, frame_placeNote s c⟩
    · rw [State.placeNote_room hroom, hcs]
      exact ⟨rfl, rfl, rfl⟩
    · obtain ⟨heq, hmem⟩ := State.placeNote_discards hfull hsome c
      have hown (t : State) : UnchangedBut [.note] t (t.setOwn (.queued c.slot false)) := frame_setOwn t _
      rw [heq]
      refine ⟨by rw [← hcs]; rfl, ?_, isSet_raise_same _ _ _⟩
      rw [(hown _).tx]
      exact State.mem_raise _ _ hmem rfl
    · rw [State.placeNote_none hfull hnone, hcs]
      exact ⟨rfl, rfl, rfl⟩
  · rcases hno slot (State.noteCandidate_iff.mp hslot) with hnone | hmay
    · rw [hnone] at hc
      cases hc
    · rw [← Bool.not_eq_true, State.noteAllowed_iff]
      exact hmay

theorem AtRest.conclude {s : State} (h : AtRest s) : s.conclude = s := by
  unfold State.conclude
  rw [State.settle_none (State.settleOne_none_iff.mpr ⟨h.noneEligible, h.noStart⟩), State.noteTest_rests h.noNote]

/-! ## A SERVICE entry taken up (R86, R147 to R150) -/

theorem State.reEvaluate_collect {e : Entry} (h : e.kind = .collect) (s : State) : s.reEvaluate e = s.reEvaluateCollect e := by
  unfold State.reEvaluate
  rw [h]

theorem State.reEvaluate_sweep {e : Entry} (h : e.kind = .sweep) (s : State) : s.reEvaluate e = s.reEvaluateSweep e := by
  unfold State.reEvaluate
  rw [h]

theorem State.reEvaluate_service {e : Entry} {sub : ServiceKind} {slot : Slot} (h : e.kind = .service) (hsub : e.sub = some sub)
    (hslot : e.firstSlot? = some slot) (s : State) : s.reEvaluate e = s.activateService e.job sub slot := by
  unfold State.reEvaluate
  rw [h]
  dsimp only
  unfold State.reEvaluateService
  rw [hsub, hslot]

theorem ServiceTakenUp.activateService {s : State} {e : Entry} {sub : ServiceKind} {slot : Slot} {r : CompRec}
    (he : s.entry? e.job = some e) (hstage : e.stage = .waiting) (hkind : e.kind = .service) (hr : s.rec? slot = some r) :
    ServiceTakenUp e sub slot r s (s.activateService e.job sub slot) := by
  refine ⟨fun reason h => ?_, fun hsub hret hidle hspan => ?_, fun hsub hempty => ?_, fun hsub hret => ?_, fun k p hsub hfault hsec => ?_⟩
  · rw [State.activateService_refused hr h]
    exact State.refused_dropped he hstage slot reason
  · have hupd := frame_updEntry s e.job (Entry.toStage .door none)
    obtain ⟨hqueued, hframe⟩ := State.askDoor_queued (s := s.updEntry e.job (Entry.toStage .door none))
      (q := { slot := slot, kind := .service, job := e.job, ref := s.parcelRef slot }) hidle hspan
    rw [hsub, State.activateOpen_eq hr hret]
    refine ⟨?_, hqueued, hupd.seq hframe⟩
    rw [hframe.entry?, State.entry?_updEntry_same s e.job (Entry.toStage .door none) fun _ => rfl, he]
    rfl
  · obtain ⟨-, hentry, hchanged, -, hframe⟩ := State.activateRetire_spec (j := e.job) hr hempty
    rw [he] at hentry
    rw [hsub]
    exact ⟨hentry, hchanged, hframe⟩
  · obtain ⟨-, hentry, hchanged, -, -, hframe⟩ := State.activateRestore_spec (j := e.job) hr hret
    rw [he] at hentry
    rw [hsub]
    exact ⟨hentry, hchanged, hframe⟩
  · have hcleared := ServiceCleared.activateClear (j := e.job) hr (CompState.tag_fault_iff.mpr ⟨k, p, hfault⟩) hsec hkind
    rw [hsub]
    refine ⟨_, _, _, clearResult_table107 hr _, fun hne => ⟨?_, hcleared.changed hne⟩, hcleared.frame⟩
    obtain ⟨-, hentry⟩ := hcleared.entry (.inl hne)
    rw [he] at hentry
    exact hentry

/-- Settles O55: every round takes work away (`State.work_settleOne`), so the rounds end with none left. -/
theorem concludingOnlyDoesTheColumnsOwnWork : Obligations.ConcludingOnlyDoesTheColumnsOwnWork := by
  refine ⟨fun s => ⟨.conclude s, AtRest.conclude, rfl, State.conclude_settled⟩, fun s older later e n hort helig hfirst => ?_,
    fun s q rest n hnone hq hspan => ?_, .noteTest⟩
  · have hsettle := State.settleOne_eligible (State.firstEligible_first hort helig hfirst)
    refine ⟨State.settle_some hsettle n, fun he => ⟨fun hk hnodup => ?_, fun hk => ?_, fun sub slot r hk hsub hslot hr => ?_⟩⟩
    · rw [State.reEvaluate_collect hk]
      exact .reEvaluateCollect he helig.1 hnodup
    · rw [State.reEvaluate_sweep hk]
      exact .reEvaluateSweep he helig.1
    · rw [State.reEvaluate_service hk hsub hslot]
      exact .activateService he helig.1 hk hr
  · have hsettle : s.settleOne = some s.tryStart := by
      rw [State.settleOne_start (State.firstEligible_none_iff.mpr hnone)]
      exact if_pos (State.canStart_iff.mpr ⟨by rw [hq]; exact List.cons_ne_nil _ _, hspan⟩)
    exact ⟨State.settle_some hsettle n, fun r hr hidle => .tryStart hq hspan hr hidle⟩

end Sys2Proof.Machine
end

