-- ==== Sys2Proof/Proofs/Releases.lean ====
section
/- One theorem after another: side by side, their proofs ask for more threads than the check's memory limit allows. -/
set_option Elab.async false

/-! SUPPORT and proof of O54: what waited for a write goes on when it has ended (R16, R17). -/

namespace Sys2Proof.Machine

/-! ## A cycle's start (R43, R53) -/

theorem State.releaseStart_eq {s : State} {slot : Slot} {c : Cycle} (hc : s.cycle? slot = some c) (h : c.stage = .starting) :
    s.release slot .cycleStart = if c.forced then s.endCycle c .forced none
      else if s.storeFaulted slot then s.endCycle c .abandoned none else s.enterPulseWait c := by
  show s.releaseStart slot = _
  unfold State.releaseStart
  rw [hc]
  exact if_neg (not_not.mpr h)

theorem State.releaseStart_enters {s : State} {slot : Slot} {c : Cycle} (hc : s.cycle? slot = some c) (h : c.stage = .starting)
    (hforced : c.forced = false) (hfault : s.storeFaulted slot = false) :
    (s.release slot .cycleStart).cycle? slot = some { c with stage := .pulseWait, wait := 0, limit := some (c.limit.getD 0) }
      ∧ (s.release slot .cycleStart).dsq.order = s.dsq.order ++ [slot] ∧ (s.release slot .cycleStart).dsq.queue = s.dsq.queue
      ∧ UnchangedBut [.doors] s (s.release slot .cycleStart) := by
  have hcs := State.cycle?_slot hc
  have heq : s.release slot .cycleStart = s.enterPulseWait c := by rw [State.releaseStart_eq hc h, hforced, hfault]; rfl
  rw [heq, ← hcs]
  exact ⟨State.enterPulseWait_cycle? (by rw [hcs]; exact hc), rfl, rfl, frame_enterPulseWait s c⟩

theorem EndMapped.releaseStart_forced {s : State} {slot : Slot} {c : Cycle} (hc : s.cycle? slot = some c) (h : c.stage = .starting)
    (hforced : c.forced = true) : EndMapped c .forced endParts s (s.release slot .cycleStart) := by
  rw [State.releaseStart_eq hc h, hforced]
  exact EndMapped.endCycle s c fun h => nomatch h

theorem EndMapped.releaseStart_abandoned {s : State} {slot : Slot} {c : Cycle} (hc : s.cycle? slot = some c) (h : c.stage = .starting)
    (hforced : c.forced = false) (hfault : s.storeFaulted slot = true) :
    EndMapped c .abandoned endParts s (s.release slot .cycleStart) := by
  rw [State.releaseStart_eq hc h, hforced, hfault]
  exact EndMapped.endCycle s c fun h => nomatch h

/-! ## An accepted detail (R105) -/

theorem State.releaseDetail_held {s : State} {slot : Slot} {t : Ticket} {p : Parcel} {r : CompRec} (hr : s.rec? slot = some r)
    (hheld : r.state = .held t (some p)) : s.release slot (.detail t)
      = s.askDoor { slot := slot, kind := .deposit, job := placeJob t, ref := p.ref } := by
  have hfor : s.heldFor slot t = true := by
    unfold State.heldFor
    rw [hr]
    dsimp only
    rw [hheld]
    exact Bool.and_eq_true_iff.mpr ⟨rfl, beq_self_eq_true _⟩
  have href : s.parcelRef slot = p.ref := State.parcelRef_parcel (by rw [State.parcel?_rec hr, hheld]; rfl)
  rw [← href]
  exact if_pos hfor

theorem State.inCycle_of_idle {s : State} {slot : Slot} (h : s.hasDoorCycle slot = false) : s.inCycle slot = false := by
  rw [State.cycle?_none_iff]
  exact State.cycle?_none_of_idle h

/-- A DEPOSIT starts in PULSE_WAIT at once, its record written already (R43). -/
theorem Started.deposit {s : State} {slot : Slot} {j : Job} {p : Parcel} {r : CompRec} (hr : s.rec? slot = some r)
    (hp : r.state.parcel? = some p) (hidle : s.inCycle slot = false) :
    Started { slot := slot, kind := .deposit, job := j, ref := p.ref } .pulseWait s
        (s.startRequest { slot := slot, kind := .deposit, job := j, ref := p.ref })
      ∧ UnchangedBut [.sensing, .doors, .outputs] s (s.startRequest { slot := slot, kind := .deposit, job := j, ref := p.ref }) := by
  have href : s.parcelRef slot = p.ref := State.parcelRef_parcel (by rw [State.parcel?_rec hr, hp])
  obtain ⟨hstarted, hframe⟩ := (State.startRequest_tried (q := { slot := slot, kind := .deposit, job := j, ref := p.ref }) hr hidle).2 (.inl rfl)
  dsimp only at hstarted
  rw [href] at hstarted
  exact ⟨hstarted, hframe⟩

/-! ## Answers and the ends of their entries (R107, R144, R149, R150) -/

theorem frame_finishEntry_noMarks {s : State} {j : Job} (h : ∀ e, s.entry? j = some e → NoMarks e) :
    UnchangedBut [.requests] s (s.finishEntry j) := by
  rw [State.finishEntry_of_noMarks h]
  exact frame_dropEntry s j

/-- An answer with the end of its entry. -/
theorem Answered.finished (s : State) (j : Job) (b : Body) (dest : BitVec 6) (hb : 2 ≤ b.cls := by exact Nat.le_refl 2) :
    ((s.answer dest b).finishEntry j).entry? j = none ∧ Answered b dest s ((s.answer dest b).finishEntry j)
      ∧ ((∀ e, s.entry? j = some e → NoMarks e) → UnchangedBut [.requests, .conditions, .transmit] s ((s.answer dest b).finishEntry j))
      ∧ UnchangedBut [.records, .store, .requests, .conditions, .counters, .transmit, .free] s ((s.answer dest b).finishEntry j) := by
  have hanswer := frame_answer s dest b
  have hfinish := frame_finishEntry (s.answer dest b) j
  refine ⟨State.entry?_finishEntry_same _ _, (Answered.answer s b dest hb).then_ hfinish, fun hmarks => ?_, hanswer.seq hfinish⟩
  exact hanswer.seq (frame_finishEntry_noMarks fun e he => hmarks e ((hanswer.entry? j).symm.trans he))

theorem State.releaseDone_slots {s : State} {j : Job} (h : j.kind = .collect ∨ j.kind = .sweep) (slot : Slot) (r : ReleaseResult)
    (ref : BitVec 64) : s.release slot (.releaseDone j r ref)
      = (s.answer j.ticket.station (.releaseDone j.ticket.number slot r ref)).slotDone j slot := by
  show (s.answer _ _).afterRelease j slot = _
  unfold State.afterRelease
  rcases h with h | h <;> rw [h]

theorem State.releaseDone_service {s : State} {j : Job} (h : j.kind = .service) (slot : Slot) (r : ReleaseResult)
    (ref : BitVec 64) : s.release slot (.releaseDone j r ref)
      = (s.answer j.ticket.station (.releaseDone j.ticket.number slot r ref)).finishEntry j := by
  show (s.answer _ _).afterRelease j slot = _
  unfold State.afterRelease
  rw [h]

theorem State.placeDone_eq {s : State} {t : Ticket} {e : Entry} (he : s.entry? (placeJob t) = some e) (slot : Slot) (r : DepositResult) :
    s.placeDone t slot r = (s.answer t.station (.placeDone t.number slot r e.ref)).finishEntry (placeJob t) := by
  have href : s.entryRef (placeJob t) = e.ref := by
    unfold State.entryRef
    rw [he]
  unfold State.placeDone
  rw [href]

/-! ## The QUOTE of a payment (R126, R130) -/

theorem State.currentQuote_issued {s : State} {j : Job} {e : Entry} (he : s.entry? j = some e) (slot : Slot) (p : Parcel) (m : Nat) :
    UnchangedBut [.requests, .quotes] s (s.issueQuote j slot p m) ∧ (∀ x, e.slot? slot = some x → x.progress ≠ .done →
      ∃ d, (s.issueQuote j slot p m).entry? j = some d ∧ d.slot? slot = some { x with quote := some (s.quoteFor slot p m) }) := by
  refine ⟨frame_issueQuote s j slot p m, fun x hx hleft => ⟨_, State.issueQuote_entry? he slot p m, ?_⟩⟩
  rw [Entry.slot?_updSlot_same e slot _ (EntrySlot.quoted_slot _), hx]
  exact congrArg some (EntrySlot.quoted_left hleft _)

/-- What a payment's QUOTE carries and leaves. -/
theorem State.paymentQuote_spec {s : State} {slot : Slot} {paid p : Parcel} (hp : p = (s.parcel? slot).getD paid) (tk : Ticket)
    (excess minute : Nat) :
    (s.paymentQuote tk slot excess minute paid).quoteCounter = s.quoteCounter + 1
      ∧ Answered (.quote tk.number slot s.quoteCounter (amountDue s.conf (s.size slot) p minute)
          (min (validUntil s.conf p minute - minute) 65535) excess p.paid (graceInForce s.conf p minute)
          (s.treatedExpired p minute)) tk.station s (s.paymentQuote tk slot excess minute paid)
      ∧ (∀ e x, s.entry? (collectJob tk) = some e → e.slot? slot = some x → x.progress ≠ .done →
          ∃ d, (s.paymentQuote tk slot excess minute paid).entry? (collectJob tk) = some d ∧ d.slot? slot = some { x with
            quote := some { number := s.quoteCounter, due := amountDue s.conf (s.size slot) p minute,
                            valid := validUntil s.conf p minute, minute := minute } }) := by
  have hissue := frame_issueQuote s (collectJob tk) slot p minute
  have hbody : (s.issueQuote (collectJob tk) slot p minute).quoteBody (collectJob tk) slot p (s.quoteFor slot p minute) excess
      = .quote tk.number slot s.quoteCounter (amountDue s.conf (s.size slot) p minute) (min (validUntil s.conf p minute - minute) 65535)
          excess p.paid (graceInForce s.conf p minute) (s.treatedExpired p minute) := rfl
  have heq : s.paymentQuote tk slot excess minute paid = (s.issueQuote (collectJob tk) slot p minute).answer tk.station
      (.quote tk.number slot s.quoteCounter (amountDue s.conf (s.size slot) p minute) (min (validUntil s.conf p minute - minute) 65535)
        excess p.paid (graceInForce s.conf p minute) (s.treatedExpired p minute)) := by
    rw [← hbody, hp]
    rfl
  have hanswer := frame_answer (s.issueQuote (collectJob tk) slot p minute) tk.station
      (.quote tk.number slot s.quoteCounter (amountDue s.conf (s.size slot) p minute) (min (validUntil s.conf p minute - minute) 65535)
        excess p.paid (graceInForce s.conf p minute) (s.treatedExpired p minute))
  rw [heq]
  refine ⟨hanswer.quoteCounter, (Answered.answer _ _ _).after hissue, fun e x he hx hleft => ?_⟩
  obtain ⟨-, hquoted⟩ := State.currentQuote_issued he slot p minute
  obtain ⟨d, hd, hslot⟩ := hquoted x hx hleft
  exact ⟨d, (hanswer.entry? _).trans hd, hslot⟩

/-- Settles O54: one unit at a time. -/
theorem unitsGoOnWhenTheirWriteEnds : Obligations.UnitsGoOnWhenTheirWriteEnds := by
  refine fun s slot => ⟨fun c hc hstage => ⟨fun hforced hfault => ⟨_, rfl, State.releaseStart_enters hc hstage hforced hfault⟩,
      EndMapped.releaseStart_forced hc hstage, EndMapped.releaseStart_abandoned hc hstage⟩,
    fun tk p ⟨r, hr, hheld⟩ hidle hspan => ⟨_, rfl, ?_⟩, fun tk p ⟨r, hr, hheld⟩ hidle hqueue hspan => ⟨_, rfl, ?_⟩,
    fun tk result e he => ⟨_, rfl, ?_⟩, fun tk hheld => ?_, fun j result ref e hk he => ⟨_, rfl, ?_⟩,
    fun j result ref hk => ⟨_, rfl, ?_⟩, fun tk result ref => ⟨_, rfl, ?_⟩, fun tk excess minute paid p hp => ⟨_, rfl, ?_⟩, fun j => ?_⟩
  · rw [State.releaseDetail_held hr hheld]
    exact State.askDoor_queued hidle hspan
  · rw [State.releaseDetail_held hr hheld, State.askDoor_starts hidle hqueue hspan]
    exact Started.deposit hr (by rw [hheld]; rfl) (State.inCycle_of_idle hidle)
  · obtain ⟨hgone, hanswered, hquiet, hframe⟩ := Answered.finished s (placeJob tk) (.placeDone tk.number slot result e.ref) tk.station
    have heq : s.release slot (.placeDone tk result) = _ := State.placeDone_eq he slot result
    rw [heq]
    exact ⟨hgone, hanswered, fun hmarks => hquiet fun d hd => by rw [he] at hd; cases hd; exact hmarks, hframe⟩
  · exact if_neg (by rw [hheld]; exact Bool.false_ne_true)
  · have hanswer := frame_answer s j.ticket.station (.releaseDone j.ticket.number slot result ref)
    have heu := (hanswer.entry? j).trans he
    have hdone := frame_slotDone (s.answer j.ticket.station (.releaseDone j.ticket.number slot result ref)) j slot
    have hfreed := SlotFreed.slotDone heu slot
    rw [State.releaseDone_slots hk]
    refine ⟨(Answered.answer _ _ _).then_ hdone, hfreed.last, fun hleft => ?_, fun hmarks => ?_, hanswer.seq hdone⟩
    · obtain ⟨d, hd, hholds, -⟩ := hfreed.others hleft
      exact ⟨d, hd, hholds⟩
    · exact hanswer.seq (frame_slotDone_noMarks (fun d hd => by rw [heu] at hd; cases hd; exact hmarks) slot)
  · rw [State.releaseDone_service hk]
    exact Answered.finished s j _ _
  · obtain ⟨hgone, hanswered, -, hframe⟩ := Answered.finished s (serviceJob tk)
      (.releaseDone tk.number slot (if s.storeFaulted slot then .fault else result) ref) tk.station
    exact ⟨hgone, hanswered, hframe⟩
  · obtain ⟨hcounter, hanswered, hquoted⟩ := State.paymentQuote_spec hp tk excess minute
    exact ⟨hcounter, hanswered, hquoted, frame_paymentQuote s tk slot excess minute paid⟩
  · exact ⟨State.entry?_finishEntry_same s j, (frame_finishEntry s j).wide⟩

end Sys2Proof.Machine
end

