-- ==== Sys2Proof/Proofs/StoreWrites.lean ====
section
/- One theorem after another: side by side, their proofs ask for more threads than the check's memory limit allows. -/
set_option Elab.async false

/-! SUPPORT and proof of O53: the end of a record write (R15 to R17). -/

namespace Sys2Proof.Machine

/-! ## Copies -/

theorem SlotStore.setCopy_same (x : SlotStore) (toB : Bool) (c : RecCopy) : (x.setCopy toB c).copy toB = c := by
  cases toB <;> rfl

theorem SlotStore.setCopy_other (x : SlotStore) (toB : Bool) (c : RecCopy) : (x.setCopy toB c).copy (!toB) = x.copy (!toB) := by
  cases toB <;> rfl

theorem SlotStore.setCopy_again (x : SlotStore) (toB : Bool) (c : RecCopy) : (x.setCopy toB c).again = x.again := by
  cases toB <;> rfl

theorem SlotStore.setCopy_current (x : SlotStore) (toB : Bool) (c : RecCopy) : (x.setCopy toB c).current = x.current := by
  cases toB <;> rfl

theorem SlotStore.copy_gen {x : SlotStore} {toB : Bool} : (if toB then x.b.gen else x.a.gen) = (x.copy toB).gen := by
  cases toB <;> rfl

/-! ## A change made meanwhile (R16) -/

theorem State.writeAgain_none {s : State} {slot : Slot} (h : (s.store slot).again = none) : s.writeAgain slot = s := by
  unfold State.writeAgain
  rw [h]

theorem State.writeAgain_some {s : State} {slot : Slot} {ws : List Waiter} (h : (s.store slot).again = some ws) :
    s.writeAgain slot = s.beginWrite slot ws .change := by
  unfold State.writeAgain
  rw [h]

/-- The next write leaves the copies, and which one is current, alone. -/
structure CopiesStand (slot : Slot) (s t : State) : Prop where
  current : (t.store slot).current = (s.store slot).current
  copies : ∀ isB, (t.store slot).copy isB = (s.store slot).copy isB
  others : ∀ i, i ≠ slot → t.store i = s.store i

theorem CopiesStand.refl (slot : Slot) (s : State) : CopiesStand slot s s := ⟨rfl, fun _ => rfl, fun _ _ => rfl⟩

theorem CopiesStand.beginWrite (s : State) (slot : Slot) (ws : List Waiter) (c : WriteCause) :
    CopiesStand slot s (s.beginWrite slot ws c) := by
  cases hr : s.rec? slot with
  | none =>
    have heq : s.beginWrite slot ws c = s := by
      unfold State.beginWrite
      rw [hr]
    rw [heq]
    exact .refl slot s
  | some r =>
    refine ⟨?_, fun isB => ?_, fun i hi => State.beginWrite_store_ne s ws c hi⟩
    · rw [State.beginWrite_store hr]
    · rw [State.beginWrite_store hr]
      rfl

theorem CopiesStand.writeAgain (s : State) (slot : Slot) : CopiesStand slot s (s.writeAgain slot) := by
  unfold State.writeAgain
  split
  exacts [.beginWrite s slot _ _, .refl slot s]

theorem frame_writeAgain_current {s : State} {slot : Slot} {isB : Bool} (h : (s.store slot).current = some isB) :
    UnchangedBut [.store] s (s.writeAgain slot) := by
  unfold State.writeAgain
  split
  exacts [frame_beginWrite_current h _ _, .refl _ s]

/-! ## The read-back matches (R15) -/

/-- The store with the written copy current. -/
def State.copyWritten (slot : Slot) (w : RecWrite) (s : State) : State :=
  s.setStore slot { (s.store slot).setCopy w.toB (RecCopy.written slot w.gen w.content) with current := some w.toB, writing := none }

theorem State.copyWritten_store (s : State) (slot : Slot) (w : RecWrite) : (s.copyWritten slot w).store slot
    = { (s.store slot).setCopy w.toB (RecCopy.written slot w.gen w.content) with current := some w.toB, writing := none } :=
  State.setStore_store_same ..

section Ends

variable {s : State} {slot : Slot} {w : RecWrite}

theorem exec_recordWriteComplete (hw : (s.store slot).writing = some w) (matched : Bool) :
    exec (.recordWriteComplete slot matched) s = .next (s.writeEnded slot w matched).conclude := by
  show Host.Outcome.next _ = _
  rw [hw]

theorem State.writeEnded_matched : s.writeEnded slot w true = ((s.copyWritten slot w).writeAgain slot).releaseAll slot w.waiters := rfl

theorem State.writeEnded_retried (h : w.second = false) :
    s.writeEnded slot w false = s.setStore slot { s.store slot with writing := some { w with second := true } } := if_pos h

theorem State.writeEnded_failed (h : w.second = true) (hc : w.cause ≠ .storeFault) :
    s.writeEnded slot w false = s.writeFailed slot w := by
  unfold State.writeEnded
  rw [if_neg Bool.false_ne_true, if_neg (by rw [h]; exact (fun h => nomatch h)), if_neg hc]

theorem State.writeEnded_faultFailed (h : w.second = true) (hc : w.cause = .storeFault) :
    s.writeEnded slot w false = s.faultWriteFailed slot w := by
  unfold State.writeEnded
  rw [if_neg Bool.false_ne_true, if_neg (by rw [h]; exact (fun h => nomatch h)), if_pos hc]

/-- The copy written is current, with the check word of what was written; a change made meanwhile is being written to the other. -/
theorem State.copyWritten_spec (s : State) (slot : Slot) (w : RecWrite) : ∀ t, t = (s.copyWritten slot w).writeAgain slot →
    (t.store slot).current = some w.toB
      ∧ (t.store slot).copy w.toB = RecCopy.written slot w.gen w.content
      ∧ (t.store slot).copy (!w.toB) = (s.store slot).copy (!w.toB) ∧ (∀ i, i ≠ slot → t.store i = s.store i)
      ∧ ((s.store slot).again = none → (t.store slot).writing = none ∧ (t.store slot).again = none)
      ∧ (∀ ws r, (s.store slot).again = some ws → s.rec? slot = some r →
          (t.store slot).writing = some { toB := !w.toB, gen := w.gen + 1, content := r, second := false,
                                          cause := .change, waiters := ws } ∧ (t.store slot).again = none)
      ∧ UnchangedBut [.store] s t := by
  rintro t rfl
  have hstore := State.copyWritten_store s slot w
  have hstand := CopiesStand.writeAgain (s.copyWritten slot w) slot
  have hwritten : UnchangedBut [.store] s (s.copyWritten slot w) := frame_setStore s slot _
  have hcurrent : ((s.copyWritten slot w).store slot).current = some w.toB := by rw [hstore]
  have hcopy : ((s.copyWritten slot w).store slot).copy w.toB = RecCopy.written slot w.gen w.content := by
    rw [hstore]
    exact SlotStore.setCopy_same _ _ _
  have hagain : ((s.copyWritten slot w).store slot).again = (s.store slot).again := by
    rw [hstore]
    exact SlotStore.setCopy_again _ _ _
  refine ⟨hstand.current.trans hcurrent, (hstand.copies _).trans hcopy, ?_, fun i hi => ?_, fun hnone => ?_, fun ws r hsome hr => ?_,
    hwritten.trans (frame_writeAgain_current hcurrent)⟩
  · rw [hstand.copies, hstore]
    exact SlotStore.setCopy_other _ _ _
  · exact (hstand.others i hi).trans (State.setStore_store_ne s _ hi)
  · rw [State.writeAgain_none (hagain.trans hnone), hstore]
    exact ⟨rfl, (SlotStore.setCopy_again _ _ _).trans hnone⟩
  · obtain ⟨htoB, hgen⟩ := SlotStore.newWrite_current hcurrent r ws .change (s.copyWritten slot w).free
    rw [SlotStore.copy_gen, hcopy] at hgen
    rw [State.writeAgain_some (hagain.trans hsome), State.beginWrite_store ((hwritten.rec? slot).trans hr)]
    refine ⟨congrArg some ?_, rfl⟩
    exact RecWrite.mk.injEq .. |>.mpr ⟨htoB, hgen, rfl, rfl, rfl, rfl⟩

/-! ## The write fails (R17) -/

theorem State.tearTarget_store (s : State) (slot : Slot) (w : RecWrite) : (s.tearTarget slot w).store slot
    = { (s.store slot).setCopy w.toB (((s.store slot).copy w.toB).torn s.free) with writing := none } :=
  State.setStore_store_same ..

theorem frame_tearTarget (s : State) (slot : Slot) (w : RecWrite) : UnchangedBut [.store, .free] s (s.tearTarget slot w) :=
  (frame_setStore s slot _).seq (frame_setFree _ _)

/-- Only the failed write's own copy is touched. -/
structure Torn (slot : Slot) (w : RecWrite) (s t : State) : Prop where
  current : (t.store slot).current = (s.store slot).current
  other : (t.store slot).copy (!w.toB) = (s.store slot).copy (!w.toB)
  again : (t.store slot).again = (s.store slot).again
  writing : (t.store slot).writing = none
  others : ∀ i, i ≠ slot → t.store i = s.store i

theorem Torn.tearTarget (s : State) (slot : Slot) (w : RecWrite) : Torn slot w s (s.tearTarget slot w) := by
  have hstore := State.tearTarget_store s slot w
  refine ⟨?_, ?_, ?_, ?_, fun i hi => State.setStore_store_ne s _ hi⟩
  · rw [hstore]
    exact SlotStore.setCopy_current _ _ _
  · rw [hstore]
    exact SlotStore.setCopy_other _ _ _
  · rw [hstore]
    exact SlotStore.setCopy_again _ _ _
  · rw [hstore]

theorem State.storeFault_eq {r : CompRec} (hr : s.rec? slot = some r) : s.storeFault slot
    = ((s.setRec slot (r.faulted .store r.state.parcel?)).enterEvent r.state (.fault .store r.state.parcel?) 0).raise .store (some slot) := by
  unfold State.storeFault
  rw [hr]
  rfl

/-- A compartment whose record cannot be written goes to FAULT(STORE) with its parcel record. -/
theorem State.storeFault_spec {r : CompRec} (hr : s.rec? slot = some r) :
    (s.storeFault slot).rec? slot = some (r.faulted .store r.state.parcel?)
      ∧ (∀ i, i ≠ slot → (s.storeFault slot).rec? i = s.rec? i) ∧ Raised .store (some slot) s (s.storeFault slot)
      ∧ CountedAll (entryEvents r.state (.fault .store r.state.parcel?) (s.carrierOf slot)) s (s.storeFault slot)
      ∧ UnchangedBut [.records, .conditions, .counters, .transmit] s (s.storeFault slot) := by
  have hset := frame_setRec s slot (r.faulted .store r.state.parcel?)
  have hevent := frame_enterEvent (s.setRec slot (r.faulted .store r.state.parcel?)) r.state (.fault .store r.state.parcel?) 0
  have hraise := frame_raise ((s.setRec slot (r.faulted .store r.state.parcel?)).enterEvent r.state (.fault .store r.state.parcel?) 0)
    .store (some slot)
  have hevents : changeEvents r.state (.fault .store r.state.parcel?) 0
      = entryEvents r.state (.fault .store r.state.parcel?) (s.carrierOf slot) := by
    rw [changeEvents_mapped (old := r.state) (new := .fault .store r.state.parcel?) (.inr rfl), State.carrierOf_rec hr]
  rw [State.storeFault_eq hr]
  refine ⟨?_, fun i hi => ?_, ?_, ?_, hset.seq (hevent.seq hraise (rs := [.conditions, .counters, .transmit]))⟩
  · rw [hraise.rec?, hevent.rec?]
    exact State.setRec_rec?_same s slot _
  · rw [hraise.rec?, hevent.rec?]
    exact State.setRec_rec?_ne s _ hi
  · exact (Raised.raise _ _ _).after (.of_frame (hset.seq hevent (rs := [.records, .counters])))
  · rw [← hevents]
    exact ((CountedAll.enterEvent _ _ _ _).after hset).then_ hraise

/-- A compartment gone to FAULT(STORE) is written once more, with what was to be written again waiting for that. -/
theorem State.writeFailed_spec {r : CompRec} (hr : s.rec? slot = some r) :
    ∃ t, s.writeFailed slot w = t.releaseAll slot w.waiters
      ∧ t.rec? slot = some { state := .fault .store r.state.parcel?, foreign := r.foreign, lost := r.lost && r.state.parcel?.isSome }
      ∧ (∀ i, i ≠ slot → t.rec? i = s.rec? i ∧ t.store i = s.store i) ∧ Raised .store (some slot) s t
      ∧ CountedAll (entryEvents r.state (.fault .store r.state.parcel?) (s.carrierOf slot)) s t
      ∧ (∃ v, (t.store slot).writing = some v ∧ some v.content = t.rec? slot ∧ v.second = false ∧ v.cause = .storeFault
          ∧ v.waiters = (s.store slot).again.getD [])
      ∧ (t.store slot).again = none ∧ (t.store slot).current = (s.store slot).current
      ∧ (t.store slot).copy (!w.toB) = (s.store slot).copy (!w.toB)
      ∧ UnchangedBut [.records, .store, .conditions, .counters, .transmit, .free] s t := by
  have htear := frame_tearTarget s slot w
  have htorn := Torn.tearTarget s slot w
  obtain ⟨hrec, hrecs, hraised, hcounted, hfault⟩ := State.storeFault_spec (s := s.tearTarget slot w) ((htear.rec? slot).trans hr)
  have hwrite := frame_beginWrite ((s.tearTarget slot w).storeFault slot) slot ((s.store slot).again.getD []) .storeFault
  have hstand := CopiesStand.beginWrite ((s.tearTarget slot w).storeFault slot) slot ((s.store slot).again.getD []) .storeFault
  have hwriting := State.beginWrite_store hrec ((s.store slot).again.getD []) .storeFault
  rw [htear.carrierOf] at hcounted
  refine ⟨((s.tearTarget slot w).storeFault slot).beginWrite slot ((s.store slot).again.getD []) .storeFault, rfl,
    (hwrite.rec? slot).trans hrec, fun i hi => ⟨?_, ?_⟩, ?_, (hcounted.after htear).then_ hwrite, ?_, ?_, ?_, ?_,
    htear.seq (hfault.seq hwrite (rs := [.records, .store, .conditions, .counters, .transmit, .free]))⟩
  · exact (hwrite.rec? i).trans ((hrecs i hi).trans (htear.rec? i))
  · exact (hstand.others i hi).trans ((hfault.storeOf i).trans (htorn.others i hi))
  · exact (hraised.after (.of_frame htear)).then_ (.of_frame hwrite)
  · rw [hwriting]
    exact ⟨_, rfl, ((hwrite.rec? slot).trans hrec).symm, rfl, rfl, rfl⟩
  · rw [hwriting]
  · exact hstand.current.trans ((congrArg SlotStore.current (hfault.storeOf slot)).trans htorn.current)
  · exact (hstand.copies _).trans ((congrArg (SlotStore.copy · _) (hfault.storeOf slot)).trans htorn.other)

end Ends

/-- Settles O53: the four ways a write's read-back may go. -/
theorem recordWritesEndAndReleaseTheirUnits : Obligations.RecordWritesEndAndReleaseTheirUnits := by
  refine fun s slot w hw => ⟨⟨(s.copyWritten slot w).writeAgain slot, ?_, State.copyWritten_spec s slot w _ rfl⟩,
    fun hfirst => ⟨_, ?_, State.setStore_store_same .., fun i hi => State.setStore_store_ne s _ hi, frame_setStore s slot _⟩,
    fun r hsecond hcause hr => ?_, fun hsecond hcause hagain => ?_⟩
  · rw [exec_recordWriteComplete hw, State.writeEnded_matched]
  · rw [exec_recordWriteComplete hw, State.writeEnded_retried hfirst]
  · obtain ⟨t, ht, hspec⟩ := State.writeFailed_spec (w := w) hr
    refine ⟨t, ?_, hspec⟩
    rw [exec_recordWriteComplete hw, State.writeEnded_failed hsecond hcause, ht]
  · have htorn := Torn.tearTarget s slot w
    have hnone : ((s.tearTarget slot w).store slot).again = none := htorn.again.trans hagain
    refine ⟨s.tearTarget slot w, ?_, htorn.writing, hnone, htorn.other, htorn.others, frame_tearTarget s slot w⟩
    rw [exec_recordWriteComplete hw, State.writeEnded_faultFailed hsecond hcause]
    unfold State.faultWriteFailed
    rw [State.writeAgain_none hnone]

end Sys2Proof.Machine
end

