-- ==== Sys2Proof/Proofs/RequestRules.lean ====
section
/- One theorem after another: side by side, their proofs ask for more threads than the check's memory limit allows. -/
set_option Elab.async false

/-! SUPPORT and proof of O44: a request leaves the receive queue and is answered (R159, R162, R166), and the queries (R167 to
R170). -/

namespace Sys2Proof.Machine

/-! ## The head of the receive queue (R159) -/

/-- The column with its first request taken off. -/
def State.taken (rest : List RxFrame) (s : State) : State := s.setLiu { s.liu with rx := rest }

theorem frame_taken (s : State) (rest : List RxFrame) : UnchangedBut [.receive] s (s.taken rest) := by
  intro p hp; cases p <;> simp_all [Part.same, State.taken]

section Head

variable {k : RequestKind} {f : RxFrame} {rest : List RxFrame} {s : State}

theorem Heads.takeHead (h : Heads k f rest s) : s.takeHead k = some (f, s.taken rest) := by
  obtain ⟨hrx, hkind⟩ := h
  unfold State.takeHead
  rw [hrx]
  exact if_pos hkind

/-- What follows a request taken off, told of the column before it. -/
theorem UnchangedBut.taken {ps : List Part} {t : State} (h : UnchangedBut ps (s.taken rest) t) (hp : Part.receive ∉ ps := by decide) :
    t.liu.rx = rest := h.rx hp

theorem TakenInSilence.taken (s : State) (rest : List RxFrame) : TakenInSilence rest s (s.taken rest) := ⟨rfl, frame_taken s rest⟩

/-- A request answered. -/
theorem Answered.taken (s : State) (rest : List RxFrame) (dest : BitVec 6) (b : Body) (hb : 2 ≤ b.cls := by exact Nat.le_refl 2) :
    ((s.taken rest).answer dest b).liu.rx = rest ∧ Answered b dest s ((s.taken rest).answer dest b)
      ∧ UnchangedBut [.conditions, .transmit, .receive] s ((s.taken rest).answer dest b) := by
  have hanswer := frame_answer (s.taken rest) dest b
  exact ⟨hanswer.taken, (Answered.answer _ b dest hb).after (frame_taken s rest), (frame_taken s rest).seq hanswer⟩

/-- A request refused. -/
theorem Refused.taken (s : State) (rest : List RxFrame) (dest : BitVec 6) (n : Option (BitVec 16)) (slot : Option Nat) (r : Reason)
    (c : Nat) : ((s.taken rest).refuse dest n slot r c).liu.rx = rest ∧ Refused dest n slot r c s ((s.taken rest).refuse dest n slot r c)
      ∧ UnchangedBut [.conditions, .counters, .transmit, .receive] s ((s.taken rest).refuse dest n slot r c) := by
  have hrefuse := frame_refuse (s.taken rest) dest n slot r c
  exact ⟨hrefuse.taken, (Refused.refuse ..).after (frame_taken s rest), (frame_taken s rest).seq hrefuse⟩

/-! ## FREE_QUERY (R168) -/

theorem exec_freeQuery (h : Heads .freeQuery f rest s) :
    exec .freeQuery s = .next ((s.taken rest).answer f.station s.freeBody).conclude := by
  show Host.Outcome.next _ = _
  rw [h.takeHead]
  rfl

theorem State.offerableCount_eq (s : State) (n : Nat) :
    s.offerableCount n = (allSlots.filter (fun i => s.offerable i && decide (s.size i = n))).length := by
  unfold State.offerableCount
  simp only [beq_eq_decide]

/-- An offerable compartment is a candidate for a call of any size it has (R94, R168). -/
theorem State.offerable_iff_candidate {i : Slot} : s.offerable i = true ↔ Candidate 0 i s := by
  have hsize : s.candidate 0 i = s.offerable i := by simp [State.candidate]
  rw [← hsize, State.candidate_iff]

theorem State.occupiedCount_eq (s : State) : s.occupiedCount = s.tagCount .occupied := rfl

/-! ## STATUS_QUERY (R169) -/

theorem exec_statusQuery (h : Heads .statusQuery f rest s) {b : Body} (hb : (byte? f.payload 0).bind s.statusBody = some b) :
    exec .statusQuery s = .next ((s.taken rest).answer f.station b).conclude := by
  have hbody : (byte? f.payload 0).bind (s.taken rest).statusBody = some b := hb
  show Host.Outcome.next _ = _
  rw [h.takeHead]
  dsimp only
  rw [hbody]

theorem exec_statusQuery_refused (h : Heads .statusQuery f rest s) (hb : (byte? f.payload 0).bind s.statusBody = none) :
    exec .statusQuery s = .next ((s.taken rest).refuse f.station none none .format 0).conclude := by
  have hbody : (byte? f.payload 0).bind (s.taken rest).statusBody = none := hb
  show Host.Outcome.next _ = _
  rw [h.takeHead]
  dsimp only
  rw [hbody]
  rfl

theorem byte?_cons (b : Byte) (more : List Byte) : byte? (b :: more) 0 = some b.toNat := rfl

theorem State.statusBody_none {n : Nat} (h : 2 < n) : s.statusBody n = none := by
  unfold State.statusBody
  split
  · omega
  · omega
  · omega
  · rfl

theorem State.statusBody_cls {n : Nat} {b : Body} (h : s.statusBody n = some b) : 2 ≤ b.cls := by
  unfold State.statusBody at h
  split at h <;> cases h <;> exact Nat.le_refl 2

theorem State.statusBody_some {n : Nat} (h : n ≤ 2) : ∃ b, s.statusBody n = some b := by
  have hn : n = 0 ∨ n = 1 ∨ n = 2 := by omega
  rcases hn with rfl | rfl | rfl
  exacts [⟨_, rfl⟩, ⟨_, rfl⟩, ⟨_, rfl⟩]

/-- The fields of part 0 (Table 12-3). -/
theorem State.statusMain_fields (s : State) : ∃ m, s.statusBody 0 = some (.statusMain m)
    ∧ m.line = s.liu.line ∧ m.level = s.bgu.level ∧ m.basis = s.bgu.basis
    ∧ m.synced = s.clk.synced ∧ m.minute = s.clk.minute ∧ m.config = s.cfg.state ∧ m.conds = s.rpt.conds
    ∧ m.attention = s.rpt.attention ∧ m.lastFault = s.rpt.lastFault ∧ m.places = s.ort.length
    ∧ m.waiting = (s.ort.filter (fun e => decide (e.stage = .waiting))).length
    ∧ (m.txEmpty = true ↔ s.liu.tx = [])
    ∧ (m.txIdle = true ↔ ∀ g ∈ s.liu.tx, g.sending = false ∧ g.retries = 0)
    ∧ m.counts.map Prod.fst = [.empty, .offered, .held, .occupied, .releasing, .fault, .retired]
    ∧ ∀ tag n, (tag, n) ∈ m.counts → n = s.tagCount tag := by
  refine ⟨s.statusMain, rfl, rfl, rfl, rfl, rfl, rfl, rfl, rfl, rfl, rfl, rfl, ?_, List.isEmpty_iff, ?_, ?_, fun tag n hmem => ?_⟩
  · simp only [State.statusMain, beq_eq_decide]
  · simp [State.statusMain]
  · simp [State.statusMain, allTags]
  · obtain ⟨t, -, heq⟩ := List.mem_map.mp hmem
    cases heq
    rfl

/-! ## SLOT_QUERY (R170) -/

theorem exec_slotQuery (h : Heads .slotQuery f rest s) {n part : Byte} {more : List Byte} (hp : f.payload = n :: part :: more) :
    exec .slotQuery s = .next ((s.taken rest).answerSlot f n.toNat part.toNat).conclude := by
  have hn : byte? f.payload 0 = some n.toNat := by rw [hp]; rfl
  have hpart : byte? f.payload 1 = some part.toNat := by rw [hp]; rfl
  show Host.Outcome.next _ = _
  rw [h.takeHead]
  dsimp only
  rw [hn, hpart]

theorem exec_slotQuery_short (h : Heads .slotQuery f rest s) (hp : f.payload.length < 2) :
    exec .slotQuery s = .next ((s.taken rest).refuse f.station none (byte? f.payload 0) .format 0).conclude := by
  have hpart : byte? f.payload 1 = none := by
    unfold byte?
    rw [List.getElem?_eq_none (by omega)]
    rfl
  show Host.Outcome.next _ = _
  rw [h.takeHead]
  dsimp only
  rw [hpart]
  cases byte? f.payload 0 <;> rfl

theorem slotOf_val (slot : Slot) : slotOf slot.val = some slot := dif_pos slot.isLt

theorem slotOf_none {n : Nat} (h : 24 ≤ n) : slotOf n = none := dif_neg (Nat.not_lt.mpr h)

theorem State.answerSlot_format {n part : Nat} (h : 24 ≤ n ∨ 2 < part) :
    s.answerSlot f n part = s.refuse f.station none (some n) .format 0 := by
  unfold State.answerSlot
  cases hslot : slotOf n with
  | none => rfl
  | some slot =>
    have hpart : 2 < part := h.resolve_left fun hn => by
      rw [slotOf_none hn] at hslot
      cases hslot
    exact if_pos hpart

theorem State.answerSlot_noSuch {slot : Slot} {part : Nat} (hpart : part ≤ 2) (hr : s.rec? slot = none) :
    s.answerSlot f slot.val part = s.refuse f.station none (some slot.val) .noSuch 0 := by
  unfold State.answerSlot
  rw [slotOf_val]
  dsimp only
  rw [if_neg (Nat.not_lt.mpr hpart), hr]

theorem State.answerSlot_some {slot : Slot} {part : Nat} {r : CompRec} (hpart : part ≤ 2) (hr : s.rec? slot = some r) {b : Body}
    (hb : s.slotBody slot r part = some b) : s.answerSlot f slot.val part = s.answer f.station b := by
  unfold State.answerSlot
  rw [slotOf_val]
  dsimp only
  rw [if_neg (Nat.not_lt.mpr hpart), hr]
  dsimp only
  rw [hb]

theorem State.slotBody_cls {slot : Slot} {r : CompRec} {part : Nat} {b : Body} (h : s.slotBody slot r part = some b) : 2 ≤ b.cls := by
  unfold State.slotBody at h
  split at h
  · cases h
    exact Nat.le_refl 2
  · cases h
    split <;> exact Nat.le_refl 2
  · cases h
    split <;> exact Nat.le_refl 2
  · cases h

theorem State.slotBody_some (slot : Slot) (r : CompRec) {part : Nat} (h : part ≤ 2) : ∃ b, s.slotBody slot r part = some b := by
  have hn : part = 0 ∨ part = 1 ∨ part = 2 := by omega
  rcases hn with rfl | rfl | rfl
  exacts [⟨_, rfl⟩, ⟨_, rfl⟩, ⟨_, rfl⟩]

theorem State.slotBody_parcel {slot : Slot} {r : CompRec} {b : Body} (h : s.slotBody slot r 1 = some b) :
    (∀ p, r.state.parcel? = some p → b = .slotParcel slot true p.report)
      ∧ (r.state.parcel? = none → b = .slotParcel slot false SlotParcel.zero) := by
  refine ⟨fun p hp => ?_, fun hp => ?_⟩ <;> unfold State.slotBody at h <;> rw [hp] at h <;> cases h <;> rfl

theorem State.slotBody_money {slot : Slot} {r : CompRec} {b : Body} (h : s.slotBody slot r 2 = some b) :
    (∀ p, r.state.parcel? = some p → b = .slotMoney slot true p.money)
      ∧ (r.state.parcel? = none → b = .slotMoney slot false SlotMoney.zero) := by
  refine ⟨fun p hp => ?_, fun hp => ?_⟩ <;> unfold State.slotBody at h <;> rw [hp] at h <;> cases h <;> rfl

/-! ## COUNT_QUERY and COUNT_CLEAR (R167) -/

theorem exec_countQuery (h : Heads .countQuery f rest s) :
    exec .countQuery s = .next ((s.taken rest).answer f.station s.countBody).conclude := by
  show Host.Outcome.next _ = _
  rw [h.takeHead]
  rfl

theorem exec_countClear (h : Heads .countClear f rest s) :
    exec .countClear s = .next ((s.taken rest).answer f.station s.countBody).clearCounters.conclude := by
  show Host.Outcome.next _ = _
  rw [h.takeHead]
  rfl

theorem State.countBody_kinds (s : State) (i : Fin 4) : (vmap (fun c => c.kind) s.conf.counters)[i] = s.conf.counters[i].kind := by
  simp [vmap]

theorem frame_clearCounters (s : State) : UnchangedBut [.counters] s s.clearCounters := by
  intro p hp; cases p <;> simp_all [Part.same, State.clearCounters]

theorem State.clearCounters_zero (s : State) (i : Fin 4) : s.clearCounters.rpt.counters[i] = 0 := by
  simp [State.clearCounters]

end Head

/-- Settles O44: query by query, each answer read off the state. -/
theorem queriesAreAnswered : Obligations.QueriesAreAnswered := by
  refine fun s f rest => ⟨fun h => ?_, fun h => ⟨fun b more hp hle => ?_, fun hno => ?_⟩, fun h => ⟨fun hshort => ?_,
    fun n part more hp => ⟨fun hformat => ?_, fun slot hslot hpart => ⟨fun hr => ?_, fun r hr => ?_⟩⟩⟩, fun h => ?_, fun h => ?_⟩
  · obtain ⟨hrx, hanswered, hframe⟩ := Answered.taken s rest f.station s.freeBody
    refine ⟨_, _, _, exec_freeQuery h, hrx, hanswered, fun k => ?_, fun i => State.offerable_iff_candidate, rfl, hframe⟩
    fin_cases k <;> exact State.offerableCount_eq s _
  · obtain ⟨answer, hanswer⟩ := State.statusBody_some (s := s) hle
    obtain ⟨hrx, hanswered, hframe⟩ := Answered.taken s rest f.station answer (State.statusBody_cls hanswer)
    refine ⟨_, answer, exec_statusQuery h (by rw [hp]; exact hanswer), hrx, hanswered, fun hb => ?_, fun hb => ?_, fun hb => ?_, hframe⟩
    · obtain ⟨m, hm, hfields⟩ := State.statusMain_fields s
      rw [hb] at hanswer
      exact ⟨m, Option.some.inj (hanswer.symm.trans hm), hfields⟩
    · rw [hb] at hanswer
      exact (Option.some.inj hanswer).symm
    · rw [hb] at hanswer
      exact (Option.some.inj hanswer).symm
  · have hnone : (byte? f.payload 0).bind s.statusBody = none := by
      cases hp : f.payload with
      | nil => rfl
      | cons b more => exact State.statusBody_none (hno b more hp)
    exact ⟨_, exec_statusQuery_refused h hnone, Refused.taken s rest _ _ _ _ _⟩
  · exact ⟨_, exec_slotQuery_short h hshort, Refused.taken s rest _ _ _ _ _⟩
  · have heq := exec_slotQuery h hp
    rw [State.answerSlot_format hformat] at heq
    exact ⟨_, heq, Refused.taken s rest _ _ _ _ _⟩
  · have heq := exec_slotQuery h hp
    rw [← hslot, State.answerSlot_noSuch (s := s.taken rest) hpart hr] at heq
    rw [← hslot]
    exact ⟨_, heq, Refused.taken s rest _ _ _ _ _⟩
  · obtain ⟨answer, hanswer⟩ := State.slotBody_some (s := s) slot r hpart
    obtain ⟨hrx, hanswered, hframe⟩ := Answered.taken s rest f.station answer (State.slotBody_cls hanswer)
    have heq := exec_slotQuery h hp
    rw [← hslot, State.answerSlot_some (s := s.taken rest) hpart hr hanswer] at heq
    refine ⟨_, answer, heq, hrx, hanswered, fun hb => ?_, fun hb => ?_, fun hb => ?_, hframe⟩ <;> rw [hb] at hanswer
    · exact ⟨s.slotMain slot r, (Option.some.inj hanswer).symm, rfl, rfl, rfl, rfl, rfl, rfl, rfl, rfl, rfl, rfl, rfl, rfl, rfl, rfl,
        rfl, rfl⟩
    · obtain ⟨hsome, hnone⟩ := State.slotBody_parcel hanswer
      exact ⟨fun p hparcel => ⟨_, hsome p hparcel, rfl, rfl, rfl, rfl, rfl, rfl, rfl, rfl⟩, fun hparcel => ⟨_, hnone hparcel, rfl, rfl⟩⟩
    · obtain ⟨hsome, hnone⟩ := State.slotBody_money hanswer
      exact ⟨fun p hparcel => ⟨_, hsome p hparcel, rfl, rfl, rfl, rfl⟩, fun hparcel => ⟨_, hnone hparcel, rfl, rfl⟩⟩
  · obtain ⟨hrx, hanswered, hframe⟩ := Answered.taken s rest f.station s.countBody
    exact ⟨_, _, exec_countQuery h, hrx, hanswered, State.countBody_kinds s, hframe⟩
  · obtain ⟨hrx, hanswered, hframe⟩ := Answered.taken s rest f.station s.countBody
    have hclear := frame_clearCounters ((s.taken rest).answer f.station s.countBody)
    exact ⟨_, _, exec_countClear h, hclear.rx.trans hrx, hanswered.then_ hclear, State.countBody_kinds s, State.clearCounters_zero _,
      hframe.seq hclear⟩

end Sys2Proof.Machine
end

