-- ==== Sys2Proof/Proofs/ClockRequests.lean ====
section
/- One theorem after another: side by side, their proofs ask for more threads than the check's memory limit allows. -/
set_option Elab.async false

/-! SUPPORT and proofs of O43, O45 and O46: the pending restart (R71, R151), outputs and conditions (R76, R77, R164, R165), and the
clock (R109, R111, R113). -/

namespace Sys2Proof.Machine

/-! ## SERVICE_RESTART (R71, R151) -/

section Restart

variable {f : RxFrame} {rest : List RxFrame} {s : State}

theorem exec_serviceRestart (h : Heads .serviceRestart f rest s) :
    exec .serviceRestart s = .next ((s.taken rest).setRestart true).withdrawForRestart.conclude := by
  show Host.Outcome.next _ = _
  rw [h.takeHead]

theorem State.withdrawForRestart_queued {slot : Slot} {ended : Bool} (h : s.bgu.own = .queued slot ended) (hbusy : s.noteBusy = false) :
    s.withdrawForRestart = s.removeNote.setOwn .none := by
  unfold State.withdrawForRestart
  rw [h]
  exact if_neg (by simp [hbusy])

theorem State.withdrawForRestart_stands (h : (∀ slot ended, s.bgu.own ≠ .queued slot ended) ∨ s.noteBusy = true) :
    s.withdrawForRestart = s := by
  unfold State.withdrawForRestart
  split
  · rename_i slot ended hown
    exact if_pos (h.resolve_left fun hno => hno slot ended hown)
  · rfl
  · rfl

theorem frame_withdrawForRestart (s : State) : UnchangedBut [.note, .transmit] s s.withdrawForRestart := by
  unfold State.withdrawForRestart
  split
  · split
    exacts [.refl _ s, (frame_removeNote s).seq (frame_setOwn _ _)]
  · exact .refl _ s
  · exact .refl _ s

theorem State.noteAllowed_restarting (h : s.restart = true) (slot : Slot) : s.noteAllowed slot = false := by
  rw [← Bool.not_eq_true, State.noteAllowed_iff]
  rintro ⟨-, -, hno, -, -⟩
  rw [h] at hno
  cases hno

theorem State.restartReady_iff : s.restartReady = true ↔ s.restart = true ∧ s.anyDrive = false ∧ s.noteBusy = false := by
  unfold State.restartReady
  rw [Bool.and_eq_true, Bool.and_eq_true, Bool.not_eq_true', Bool.not_eq_true', and_assoc]

theorem exec_restartReset_waits (active : Causes) (h : s.restartReady = false) : exec (.restartReset active) s = .next s := by
  show Host.Outcome.next (if s.restartReady then _ else s) = _
  rw [h]
  rfl

end Restart

/-- Settles O43: the note test and the reset both ask that no restart is pending, or that nothing is under way. -/
theorem restartWaitsForDrivesAndNotes : Obligations.RestartWaitsForDrivesAndNotes := by
  refine ⟨fun s f rest h => ?_, fun s h => State.noteTest_rests fun slot c _ _ => State.noteAllowed_restarting h slot,
    fun s active h => exec_restartReset_waits active ?_⟩
  · have hset : UnchangedBut [.restart, .receive] s ((s.taken rest).setRestart true) := (frame_taken s rest).seq (frame_setRestart _ _)
    have hwithdraw := frame_withdrawForRestart ((s.taken rest).setRestart true)
    refine ⟨_, exec_serviceRestart h, hwithdraw.rx, hwithdraw .restart (by decide), fun slot ended hown hbusy => ?_, fun hstands => ?_,
      hset.seq hwithdraw⟩
    · rw [State.withdrawForRestart_queued (s := (s.taken rest).setRestart true) hown hbusy]
      exact ⟨rfl, rfl⟩
    · rw [State.withdrawForRestart_stands (s := (s.taken rest).setRestart true) hstands]
      exact ⟨rfl, rfl⟩
  · rw [← Bool.not_eq_true, State.restartReady_iff]
    rintro ⟨hrestart, hdrive, hnote⟩
    rcases h with hno | hbusy | ⟨i, hi⟩
    · rw [hrestart] at hno
      cases hno
    · rw [hnote] at hbusy
      cases hbusy
    · rw [State.anyDrive, List.any_eq_true.mpr ⟨i, mem_allSlots i, hi⟩] at hdrive
      cases hdrive

/-! ## OUTPUT_SET (R76, R77) -/

section Outputs

variable {f : RxFrame} {rest : List RxFrame} {s : State}

theorem vall_iff {α : Type} {n : Nat} {p : α → Bool} {v : Vector α n} : vall p v = true ↔ ∀ i : Fin n, p v[i] = true := by
  unfold vall
  rw [List.all_eq_true]
  exact ⟨fun h i => h i (List.mem_finRange i), fun h i _ => h i⟩

theorem exec_outputSet (h : Heads .outputSet f rest s) {v : Vector Nat 4} (hv : decodeOutputSet f.payload = some v)
    (hle : ∀ i : Fin 4, v[i] ≤ 3) : exec .outputSet s = .next ((s.taken rest).setAux v).conclude := by
  show Host.Outcome.next _ = _
  rw [h.takeHead]
  dsimp only
  rw [hv]
  dsimp only
  have hall : vall (fun x => decide (x ≤ 3)) v = true := vall_iff.mpr fun i => decide_eq_true (hle i)
  rw [if_pos hall]

theorem exec_outputSet_refused (h : Heads .outputSet f rest s)
    (hv : ∀ v, decodeOutputSet f.payload = some v → ∃ i : Fin 4, 3 < v[i]) :
    exec .outputSet s = .next ((s.taken rest).refuse f.station none none .format 0).conclude := by
  show Host.Outcome.next _ = _
  rw [h.takeHead]
  dsimp only
  cases hdecode : decodeOutputSet f.payload with
  | none => rfl
  | some v =>
    obtain ⟨i, hi⟩ := hv v hdecode
    dsimp only
    have hno : ¬vall (fun x => decide (x ≤ 3)) v = true := fun hall =>
      absurd (of_decide_eq_true (vall_iff.mp hall i)) (Nat.not_le.mpr hi)
    rw [if_neg hno]
    rfl

theorem frame_setAux (s : State) (v : Vector Nat 4) : UnchangedBut [.outputs] s (s.setAux v) :=
  (frame_setOut s _).trans (frame_refreshOutputs _)

theorem State.setAux_demand (s : State) (v : Vector Nat 4) (i : Fin 4) :
    (s.setAux v).out.auxDemand[i] = settingDemand v[i] s.out.auxDemand[i] s.conf.auxDefault[i] := by
  simp [State.setAux, State.refreshOutputs]

theorem State.setAux_actual (s : State) (v : Vector Nat 4) (i : Fin 4) :
    (s.setAux v).out.auxActual[i] = ((s.setAux v).out.auxDemand[i] && decide (s.bgu.level < s.conf.auxShed[i])) :=
  State.refreshOutputs_aux (s.setOut _) i

/-- The lamps are re-evaluated, not set. -/
theorem State.setAux_lamps (s : State) (v : Vector Nat 4) : (s.setAux v).out.lampDemand = s.out.lampDemand
    ∧ ∀ i, tget (s.setAux v).out.lampActual i = (tget s.out.lampDemand i && decide (s.bgu.level < s.conf.lampShed)) := by
  refine ⟨?_, fun i => ?_⟩
  · simp only [State.setAux, State.refreshOutputs, State.setOut_out]
  · unfold State.setAux
    rw [State.refreshOutputs_lamp]
    simp only [State.setOut_out, State.setOut_bgu]
    rfl

/-! ## ALERT_CLEAR (R164, R165) -/

theorem exec_alertClear (h : Heads .alertClear f rest s) {mask : BitVec 14} (hmask : decodeMask f.payload = some mask) :
    exec .alertClear s = .next ((s.taken rest).clearConds mask).conclude := by
  show Host.Outcome.next _ = _
  rw [h.takeHead]
  dsimp only
  rw [hmask]

theorem exec_alertClear_short (h : Heads .alertClear f rest s) (hmask : decodeMask f.payload = none) :
    exec .alertClear s = .next (s.taken rest) := by
  show Host.Outcome.next _ = _
  rw [h.takeHead]
  dsimp only
  rw [hmask]

theorem Condition.and_bit_ne_zero (c : Condition) (x : BitVec 14) : ((x &&& c.bit) != 0#14) = x.getLsbD c.pos := by
  have hbit : c.bit ≠ 0#14 := by cases c <;> decide
  have htwo : c.bit = BitVec.twoPow 14 c.pos := (BitVec.twoPow_eq 14 c.pos).symm
  rw [htwo] at hbit ⊢
  rw [BitVec.and_twoPow]
  cases x.getLsbD c.pos with
  | true => exact bne_iff_ne.mpr hbit
  | false => rfl

theorem State.isSet_clearConds (s : State) (mask : BitVec 14) (c : Condition) :
    (s.clearConds mask).rpt.isSet c = (s.rpt.isSet c && !mask.getLsbD c.pos) := by
  have hpos : c.pos < 14 := by cases c <;> decide
  show (((s.rpt.conds &&& ~~~mask) &&& c.bit) != 0#14) = (((s.rpt.conds &&& c.bit) != 0#14) && !mask.getLsbD c.pos)
  rw [c.and_bit_ne_zero, c.and_bit_ne_zero, BitVec.getLsbD_and, BitVec.getLsbD_not, decide_eq_true hpos, Bool.true_and]

theorem frame_clearConds (s : State) (mask : BitVec 14) : UnchangedBut [.conditions] s (s.clearConds mask) := by
  intro p hp; cases p <;> simp_all [Part.same, State.clearConds]

end Outputs

/-- Settles O45: setting by setting, and the mask's bits. -/
theorem outputsAndConditionsAreSetAndCleared : Obligations.OutputsAndConditionsAreSetAndCleared := by
  refine fun s f rest => ⟨fun h => ⟨fun v hv hle => ?_, fun hbad => ?_⟩, fun h => ⟨fun mask hmask => ?_, fun hshort => ?_⟩⟩
  · have haux := frame_setAux (s.taken rest) v
    obtain ⟨hdemand, hlamps⟩ := State.setAux_lamps (s.taken rest) v
    refine ⟨_, exec_outputSet h hv hle, haux.rx, fun i => ⟨fun hi => ?_, fun hi => ?_, fun hi => ?_, fun hi => ?_, ?_⟩, hdemand, hlamps,
      (frame_taken s rest).seq haux⟩
    · rw [State.setAux_demand, hi]
      rfl
    · rw [State.setAux_demand, hi]
      rfl
    · rw [State.setAux_demand, hi]
      rfl
    · rw [State.setAux_demand, hi]
      rfl
    · exact State.setAux_actual _ v i
  · exact ⟨_, exec_outputSet_refused h hbad, Refused.taken s rest _ _ _ _ _⟩
  · have hclear := frame_clearConds (s.taken rest) mask
    exact ⟨_, exec_alertClear h hmask, hclear.rx, State.isSet_clearConds _ mask, rfl, rfl, (frame_taken s rest).seq hclear⟩
  · exact ⟨_, exec_alertClear_short h hshort, .taken s rest⟩

/-! ## TIME (R111) -/

section Time

variable {f : RxFrame} {rest : List RxFrame} {s : State}

theorem exec_time (h : Heads .time f rest s) {m : Nat} (hm : decodeTime f.payload = some m) :
    exec .time s = .next ((s.taken rest).takeTime m).conclude := by
  show Host.Outcome.next _ = _
  rw [h.takeHead]
  dsimp only
  rw [hm]

theorem exec_time_short (h : Heads .time f rest s) (hm : decodeTime f.payload = none) : exec .time s = .next (s.taken rest) := by
  show Host.Outcome.next _ = _
  rw [h.takeHead]
  dsimp only
  rw [hm]

theorem State.takeTime_ahead {m : Nat} (h : s.lastMinute < m) : s.takeTime m = (s.writeMinute m false).acceptTime 0 := if_pos h

theorem State.takeTime_behind {m : Nat} (h : m ≤ s.lastMinute) (hle : s.lastMinute ≤ m + 1440) :
    s.takeTime m = s.acceptTime (s.lastMinute - m) := by
  have hahead : s.lastMinute - m ≤ aheadMax := by unfold aheadMax; omega
  exact (if_neg (Nat.not_lt.mpr h)).trans (if_pos hahead)

theorem State.takeTime_far {m : Nat} (h : m + 1440 < s.lastMinute) : s.takeTime m = s.raise .timeFault none := by
  have hfar : ¬s.lastMinute - m ≤ aheadMax := by unfold aheadMax; omega
  exact (if_neg (by omega : ¬s.lastMinute < m)).trans (if_neg hfar)

theorem frame_writeMinute (s : State) (value : Nat) (tick : Bool) : UnchangedBut [.minutes] s (s.writeMinute value tick) := by
  intro p hp; cases p <;> simp_all [Part.same, State.writeMinute]

theorem frame_acceptTime (s : State) (hold : Nat) : UnchangedBut [.clock] s (s.acceptTime hold) := frame_setClk s _

theorem State.lastMinute_nil (h : s.cts.minuteWrites = []) : s.lastMinute = s.clk.minute := by
  unfold State.lastMinute
  rw [h]
  rfl

theorem State.lastMinute_append {ws : List MinuteWrite} {w : MinuteWrite} (h : s.cts.minuteWrites = ws ++ [w]) :
    s.lastMinute = w.value := by
  unfold State.lastMinute
  rw [h, List.getLast?_concat]

/-! ## Ticks (R109, R113) -/

theorem exec_minuteTick (h : s.loaded = true) : exec .minuteTick s = .next s.minuteTick := congrArg Host.Outcome.next (if_pos h)

theorem exec_syncLost (h : s.loaded = true) : exec .syncLost s = .next (s.setClk { s.clk with age := syncAgeMax, synced := false }) :=
  congrArg Host.Outcome.next (if_pos h)

theorem frame_minuteTick (s : State) : UnchangedBut [.minutes, .clock] s s.minuteTick :=
  (frame_writeMinute s _ true).seq (frame_setClk _ _)

/-- Sync is lost as the age reaches 2,880. -/
theorem Clk.aged_synced (c : Clk) : c.aged.synced = (c.synced && decide (c.age + 1 < 2880)) := by
  have hlt : (min (c.age + 1) syncAgeMax < syncAgeMax) = (c.age + 1 < 2880) := by
    unfold syncAgeMax
    exact propext (by omega)
  unfold Clk.aged
  simp only [hlt]

end Time

/-- Settles O46: the cases of Table 8-1, and the tick. -/
theorem timeFramesAndTicksMoveTheClock : Obligations.TimeFramesAndTicksMoveTheClock := by
  refine ⟨fun s => ⟨State.lastMinute_nil, fun ws w => State.lastMinute_append⟩, fun s f rest h => ⟨fun hshort => ?_, fun m hm =>
    ⟨fun hahead => ?_, fun hle hbehind => ?_, fun hfar => ?_⟩⟩, fun s hloaded => ⟨?_, ?_⟩⟩
  · exact ⟨_, exec_time_short h hshort, .taken s rest⟩
  · refine ⟨_, exec_time h hm, ?_⟩
    rw [State.takeTime_ahead (s := s.taken rest) hahead]
    have hwrite : UnchangedBut [.minutes, .receive] s ((s.taken rest).writeMinute m false) :=
      (frame_taken s rest).seq (frame_writeMinute _ m false)
    exact ⟨rfl, rfl, rfl, hwrite.seq (frame_acceptTime _ 0)⟩
  · refine ⟨_, exec_time h hm, ?_⟩
    rw [State.takeTime_behind (s := s.taken rest) hle hbehind]
    exact ⟨rfl, rfl, (frame_taken s rest).seq (frame_acceptTime _ _)⟩
  · refine ⟨_, exec_time h hm, ?_⟩
    rw [State.takeTime_far (s := s.taken rest) hfar]
    have hraise := frame_raise (s.taken rest) .timeFault none
    exact ⟨hraise.rx, (Raised.raise _ _ _).after (.of_frame (frame_taken s rest)), (frame_taken s rest).seq hraise⟩
  · exact ⟨_, exec_minuteTick hloaded, rfl, rfl, rfl, rfl, Clk.aged_synced _, rfl, frame_minuteTick s⟩
  · exact ⟨_, exec_syncLost hloaded, rfl, frame_setClk s _⟩

end Sys2Proof.Machine
end

