-- ==== Sys2Proof/Proofs/Scan.lean ====
section
/- One theorem after another: side by side, their proofs ask for more threads than the check's memory limit allows. -/
set_option Elab.async false

/-! SUPPORT and proof of O47: the end of a retained-minute write, and the expiry scan (R18, R116, R117). -/

namespace Sys2Proof.Machine

/-! ## Expiry marks (R117) -/

/-- An entry later in a scan: it holds what it held, and its marks stand. -/
structure MarksAdded (e d : Entry) : Prop where
  job : d.job = e.job
  holds : ∀ slot, d.holds slot = e.holds slot
  marks : ∀ slot x, e.slot? slot = some x → ∃ y, d.slot? slot = some y ∧ (x.mark = true → y.mark = true)

theorem MarksAdded.refl (e : Entry) : MarksAdded e e := ⟨rfl, fun _ => rfl, fun _ x hx => ⟨x, hx, id⟩⟩

theorem MarksAdded.trans {e d c : Entry} (h : MarksAdded e d) (k : MarksAdded d c) : MarksAdded e c := by
  refine ⟨k.job.trans h.job, fun slot => (k.holds slot).trans (h.holds slot), fun slot x hx => ?_⟩
  obtain ⟨y, hy, hxy⟩ := h.marks slot x hx
  obtain ⟨z, hz, hyz⟩ := k.marks slot y hy
  exact ⟨z, hz, hyz ∘ hxy⟩

/-- A slot with its expiry mark set. -/
def EntrySlot.marked (x : EntrySlot) : EntrySlot := { x with mark := true }

theorem MarksAdded.updSlot (e : Entry) (slot : Slot) : MarksAdded e (e.updSlot slot EntrySlot.marked) := by
  refine ⟨rfl, fun i => ?_, fun i x hx => ?_⟩
  · unfold Entry.holds Entry.updSlot
    rw [List.any_map]
    congr 2
    funext x
    dsimp only [Function.comp]
    split <;> rfl
  · by_cases hi : i = slot
    · rw [hi] at hx ⊢
      rw [Entry.slot?_updSlot_same e slot EntrySlot.marked fun _ => rfl, hx]
      exact ⟨_, rfl, fun _ => rfl⟩
    · rw [Entry.slot?_updSlot_ne e slot EntrySlot.marked (fun _ => rfl) hi]
      exact ⟨x, hx, id⟩

/-- The Open-Request Table later in a scan. -/
def TableMarked (s t : State) : Prop := ∃ g : Entry → Entry, (∀ e, MarksAdded e (g e)) ∧ t.ort = s.ort.map g

theorem TableMarked.refl (s : State) : TableMarked s s := ⟨id, MarksAdded.refl, (List.map_id _).symm⟩

theorem TableMarked.trans {s t u : State} (h : TableMarked s t) (k : TableMarked t u) : TableMarked s u := by
  obtain ⟨g, hg, hort⟩ := h
  obtain ⟨g', hg', hort'⟩ := k
  exact ⟨g' ∘ g, fun e => (hg e).trans (hg' _), by rw [hort', hort, List.map_map]⟩

theorem TableMarked.of_frame {ps : List Part} {s t : State} (h : UnchangedBut ps s t) (hp : Part.requests ∉ ps := by decide) :
    TableMarked s t := ⟨id, MarksAdded.refl, by rw [h.ort hp, List.map_id]⟩

theorem TableMarked.markExpiry (s : State) (j : Job) (slot : Slot) : TableMarked s (s.markExpiry j slot) := by
  refine ⟨fun e => if e.kind = j.kind ∧ e.ticket = j.ticket then e.updSlot slot EntrySlot.marked else e, fun e => ?_, rfl⟩
  dsimp only
  split
  exacts [.updSlot e slot, .refl e]

/-- The holder of a slot is the same entry, marked or not. -/
theorem TableMarked.holder? {s t : State} (h : TableMarked s t) (slot : Slot) :
    (s.holder? slot = none → t.holder? slot = none)
      ∧ ∀ e, s.holder? slot = some e → ∃ d, t.holder? slot = some d ∧ MarksAdded e d := by
  obtain ⟨g, hg, hort⟩ := h
  have hmap : t.holder? slot = (s.holder? slot).map g := by
    unfold State.holder?
    rw [hort, List.find?_map]
    congr 2
    funext e
    exact (hg e).holds slot
  rw [hmap]
  refine ⟨fun hnone => by rw [hnone]; rfl, fun e he => ?_⟩
  rw [he]
  exact ⟨g e, rfl, hg e⟩

/-! ## The scan at one slot (Table 8-2) -/

abbrev scanParts : List Part := [.records, .store, .requests, .counters, .free]

theorem frame_scanSlot (s : State) (slot : Slot) : UnchangedBut scanParts s (s.scanSlot slot) := by
  unfold State.scanSlot
  split
  · exact .refl _ s
  · split
    · split
      · split
        exacts [(frame_updEntry s _ _).wide, (frame_expire s slot).wide]
      · exact .refl _ s
    · exact .refl _ s

theorem TableMarked.scanSlot (s : State) (slot : Slot) : TableMarked s (s.scanSlot slot) := by
  unfold State.scanSlot
  split
  · exact .refl s
  · split
    · split
      · split
        exacts [.markExpiry s _ slot, .of_frame (frame_expire s slot)]
      · exact .refl s
    · exact .refl s

theorem State.expire_ne (s : State) {slot i : Slot} (hi : i ≠ slot) :
    (s.expire slot).rec? i = s.rec? i ∧ (s.expire slot).store i = s.store i := by
  unfold State.expire
  split
  · exact ⟨rfl, rfl⟩
  · rename_i r hr
    split
    · rename_i p hp
      split
      · have hchanged := Changed.change hr { r with state := .occupied { p with purpose := .expired } } 0
        exact ⟨hchanged.records i hi, hchanged.stores i hi⟩
      · exact ⟨rfl, rfl⟩
    · exact ⟨rfl, rfl⟩

theorem State.scanSlot_ne (s : State) {slot i : Slot} (hi : i ≠ slot) :
    (s.scanSlot slot).rec? i = s.rec? i ∧ (s.scanSlot slot).store i = s.store i := by
  unfold State.scanSlot
  split
  · exact ⟨rfl, rfl⟩
  · split
    · split
      · split
        exacts [⟨rfl, rfl⟩, s.expire_ne hi]
      · exact ⟨rfl, rfl⟩
    · exact ⟨rfl, rfl⟩

section AtSlot

variable {s : State} {slot : Slot} {r : CompRec} {p : Parcel}

theorem State.scanSlot_held (hr : s.rec? slot = some r) (hp : r.state = .occupied p) (hd : p.purpose = .delivery)
    (hdue : p.due s.clk.minute = true) {e : Entry} (he : s.holder? slot = some e) : s.scanSlot slot = s.markExpiry e.job slot := by
  unfold State.scanSlot
  rw [hr]
  dsimp only
  rw [hp]
  dsimp only
  rw [if_pos ⟨hd, hdue⟩, he]

theorem State.scanSlot_free (hr : s.rec? slot = some r) (hp : r.state = .occupied p) (hd : p.purpose = .delivery)
    (hdue : p.due s.clk.minute = true) (he : s.holder? slot = none) : s.scanSlot slot = s.expire slot := by
  unfold State.scanSlot
  rw [hr]
  dsimp only
  rw [hp]
  dsimp only
  rw [if_pos ⟨hd, hdue⟩, he]

theorem State.expire_delivery (hr : s.rec? slot = some r) (hp : r.state = .occupied p) (hd : p.purpose = .delivery) :
    s.expire slot = s.change slot { r with state := .occupied { p with purpose := .expired } } 0 := by
  unfold State.expire
  rw [hr]
  dsimp only
  rw [hp]
  exact if_pos hd

/-- A due parcel that no entry holds is marked EXPIRED, and that is written. -/
theorem State.scanSlot_expires (hr : s.rec? slot = some r) (hp : r.state = .occupied p) (hd : p.purpose = .delivery)
    (hdue : p.due s.clk.minute = true) (hfree : s.holder? slot = none) :
    (s.scanSlot slot).rec? slot = some { r with state := .occupied { p with purpose := .expired } }
      ∧ WriteOf { r with state := .occupied { p with purpose := .expired } } [] (s.store slot) ((s.scanSlot slot).store slot) := by
  have hne : s.rec? slot ≠ some { r with state := .occupied { p with purpose := .expired } } := fun heq => by
    rw [hr] at heq
    have hpurpose := congrArg (fun c => (CompRec.state c).purpose?) (Option.some.inj heq)
    dsimp only at hpurpose
    rw [hp] at hpurpose
    have := Option.some.inj hpurpose
    dsimp only at this
    rw [hd] at this
    cases this
  have hchanged := Changed.change hr { r with state := .occupied { p with purpose := .expired } } 0
  rw [State.scanSlot_free hr hp hd hdue hfree, State.expire_delivery hr hp hd]
  exact ⟨hchanged.record, hchanged.written hne⟩

/-- A due parcel that an entry holds stands, and the entry is marked. -/
theorem State.scanSlot_marks (hr : s.rec? slot = some r) (hp : r.state = .occupied p) (hd : p.purpose = .delivery)
    (hdue : p.due s.clk.minute = true) {e : Entry} (he : s.holder? slot = some e) :
    (s.scanSlot slot).rec? slot = s.rec? slot ∧ (s.scanSlot slot).store slot = s.store slot
      ∧ ∃ d ∈ (s.scanSlot slot).ort, d.job = e.job ∧ d.holds slot = true ∧ ∃ x, d.slot? slot = some x ∧ x.mark = true := by
  have hmem : e ∈ s.ort := List.mem_of_find?_eq_some he
  have hholds : e.holds slot = true := List.find?_some (p := fun e : Entry => e.holds slot) (l := s.ort) he
  obtain ⟨x, hx⟩ : ∃ x, e.slot? slot = some x := by
    obtain ⟨-, hany⟩ := Bool.and_eq_true_iff.mp hholds
    obtain ⟨x, hx, hxs⟩ := List.any_eq_true.mp hany
    exact Option.isSome_iff_exists.mp (List.find?_isSome.mpr ⟨x, hx, (Bool.and_eq_true_iff.mp hxs).1⟩)
  have hmarked := MarksAdded.updSlot e slot
  rw [State.scanSlot_held hr hp hd hdue he]
  refine ⟨rfl, rfl, e.updSlot slot EntrySlot.marked, List.mem_map.mpr ⟨e, hmem, if_pos ⟨rfl, rfl⟩⟩, rfl,
    (hmarked.holds slot).trans hholds, ?_⟩
  rw [Entry.slot?_updSlot_same e slot EntrySlot.marked fun _ => rfl, hx]
  exact ⟨_, rfl, rfl⟩

/-- Nothing is due in the slot. -/
theorem State.scanSlot_stands (h : ∀ r p h, s.rec? slot = some r → r.state = .occupied p → p.purpose = .delivery → p.limit = some h →
    s.clk.minute < p.deposit + h) : s.scanSlot slot = s := by
  unfold State.scanSlot
  split
  · rfl
  · rename_i r hr
    split
    · rename_i p hp
      refine if_neg ?_
      rintro ⟨hd, hdue⟩
      unfold Parcel.due at hdue
      split at hdue
      · rename_i limit hlimit
        have hle := of_decide_eq_true hdue
        exact absurd (h r p limit hr hp hd hlimit) (Nat.not_lt.mpr hle)
      · cases hdue
    · rfl

end AtSlot

/-! ## The scan (R116) -/

/-- A run of slots scanned. -/
structure Scanned (slots : List Slot) (s t : State) : Prop where
  marked : TableMarked s t
  others : ∀ i, i ∉ slots → t.rec? i = s.rec? i ∧ t.store i = s.store i
  frame : UnchangedBut scanParts s t

theorem Scanned.foldl (slots : List Slot) (s : State) : Scanned slots s (slots.foldl State.scanSlot s) := by
  induction slots generalizing s with
  | nil => exact ⟨.refl s, fun _ _ => ⟨rfl, rfl⟩, .refl _ s⟩
  | cons slot slots ih =>
    obtain ⟨hmarked, hothers, hframe⟩ := ih (s.scanSlot slot)
    refine ⟨(TableMarked.scanSlot s slot).trans hmarked, fun i hi => ?_, (frame_scanSlot s slot).trans hframe⟩
    obtain ⟨hne, hnot⟩ := not_or.mp (fun h => hi (List.mem_cons.mpr h))
    obtain ⟨hrec, hstore⟩ := s.scanSlot_ne hne
    obtain ⟨krec, kstore⟩ := hothers i hnot
    exact ⟨krec.trans hrec, kstore.trans hstore⟩

/-- The scan comes to a slot with its record as it stood, and leaves what it did there. -/
theorem State.scan_at (s : State) (slot : Slot) : ∃ u v, UnchangedBut scanParts s u ∧ u.rec? slot = s.rec? slot
    ∧ u.store slot = s.store slot ∧ TableMarked s u ∧ v = u.scanSlot slot
    ∧ s.scan.rec? slot = v.rec? slot ∧ s.scan.store slot = v.store slot ∧ TableMarked v s.scan := by
  obtain ⟨before, after, hsplit⟩ := List.append_of_mem (mem_allSlots slot)
  have hnodup : (before ++ slot :: after).Nodup := by
    rw [← hsplit]
    exact List.nodup_finRange 24
  obtain ⟨-, htail, hdisjoint⟩ := List.nodup_append.mp hnodup
  have hbefore : slot ∉ before := fun h => hdisjoint slot h slot List.mem_cons_self rfl
  have hafter : slot ∉ after := (List.nodup_cons.mp htail).1
  have hfirst := Scanned.foldl before s
  have hlast := Scanned.foldl after ((before.foldl State.scanSlot s).scanSlot slot)
  have hscan : s.scan = after.foldl State.scanSlot ((before.foldl State.scanSlot s).scanSlot slot) := by
    unfold State.scan
    rw [hsplit, List.foldl_append, List.foldl_cons]
  obtain ⟨hrec, hstore⟩ := hfirst.others slot hbefore
  obtain ⟨krec, kstore⟩ := hlast.others slot hafter
  rw [hscan]
  exact ⟨_, _, hfirst.frame, hrec, hstore, hfirst.marked, rfl, krec, kstore, hlast.marked⟩

section Scan

variable {s : State} {slot : Slot} {r : CompRec} {p : Parcel}

theorem State.scan_expires (hr : s.rec? slot = some r) (hp : r.state = .occupied p) (hd : p.purpose = .delivery)
    (hdue : p.due s.clk.minute = true) (hfree : s.holder? slot = none) :
    s.scan.rec? slot = some { r with state := .occupied { p with purpose := .expired } }
      ∧ WriteOf { r with state := .occupied { p with purpose := .expired } } [] (s.store slot) (s.scan.store slot) := by
  obtain ⟨u, v, hframe, hrec, hstore, hmarked, rfl, krec, kstore, -⟩ := s.scan_at slot
  rw [← hrec] at hr
  rw [← hframe.clk] at hdue
  obtain ⟨hexpired, hwritten⟩ := State.scanSlot_expires hr hp hd hdue ((hmarked.holder? slot).1 hfree)
  rw [krec, kstore, ← hstore]
  exact ⟨hexpired, hwritten⟩

theorem State.scan_marks (hr : s.rec? slot = some r) (hp : r.state = .occupied p) (hd : p.purpose = .delivery)
    (hdue : p.due s.clk.minute = true) {e : Entry} (he : s.holder? slot = some e) :
    s.scan.rec? slot = s.rec? slot ∧ s.scan.store slot = s.store slot
      ∧ ∃ d ∈ s.scan.ort, d.job = e.job ∧ d.holds slot = true ∧ ∃ x, d.slot? slot = some x ∧ x.mark = true := by
  obtain ⟨u, v, hframe, hrec, hstore, hmarked, rfl, krec, kstore, g, hg, hort⟩ := s.scan_at slot
  rw [← hrec] at hr
  rw [← hframe.clk] at hdue
  obtain ⟨d, hd', hed⟩ := (hmarked.holder? slot).2 e he
  obtain ⟨hstands, hsame, c, hmem, hjob, hholds, x, hx, hmark⟩ := State.scanSlot_marks hr hp hd hdue hd'
  obtain ⟨y, hy, hxy⟩ := (hg c).marks slot x hx
  refine ⟨krec.trans (hstands.trans hrec), kstore.trans (hsame.trans hstore), g c, ?_, (hg c).job.trans (hjob.trans hed.job),
    ((hg c).holds slot).trans hholds, y, hy, hxy hmark⟩
  rw [hort]
  exact List.mem_map_of_mem hmem

theorem State.scan_stands (h : ∀ r p h, s.rec? slot = some r → r.state = .occupied p → p.purpose = .delivery → p.limit = some h →
    s.clk.minute < p.deposit + h) : s.scan.rec? slot = s.rec? slot ∧ s.scan.store slot = s.store slot := by
  obtain ⟨u, v, hframe, hrec, hstore, -, rfl, krec, kstore, -⟩ := s.scan_at slot
  have hstands : u.scanSlot slot = u := State.scanSlot_stands (by rw [hrec, hframe.clk]; exact h)
  rw [krec, kstore, hstands]
  exact ⟨hrec, hstore⟩

end Scan

theorem frame_scan (s : State) : UnchangedBut scanParts s s.scan := (Scanned.foldl allSlots s).frame

/-! ## The end of a retained-minute write (R18) -/

/-- The store's part of the end, with STORE raised where the write failed. -/
def State.minuteWritten (w : MinuteWrite) (more : List MinuteWrite) (ok : Bool) (s : State) : State :=
  if ok then s.setCts (s.cts.minuteEnded w more ok s.free)
  else ((s.setCts (s.cts.minuteEnded w more ok s.free)).setFree (s.free + 1)).raise .store none

section MinuteWrite

variable {s : State} {w : MinuteWrite} {more : List MinuteWrite}

theorem exec_retainedMinuteWrite (h : s.cts.minuteWrites = w :: more) (ok : Bool) :
    exec (.retainedMinuteWrite ok) s = .next ((s.minuteWritten w more ok).takeMinute w).conclude := by
  show Host.Outcome.next _ = _
  rw [h]
  rfl

theorem frame_setMinuteEnded (s : State) (w : MinuteWrite) (more : List MinuteWrite) (ok : Bool) (n : Nat) :
    UnchangedBut [.minutes] s (s.setCts (s.cts.minuteEnded w more ok n)) := by
  unfold Cts.minuteEnded
  split <;> intro p hp <;> cases p <;> simp_all [Part.same]

theorem frame_minuteWritten (s : State) (w : MinuteWrite) (more : List MinuteWrite) (ok : Bool) :
    UnchangedBut [.minutes, .conditions, .transmit, .free] s (s.minuteWritten w more ok) := by
  have hset := frame_setMinuteEnded s w more ok s.free
  unfold State.minuteWritten
  split
  · exact hset.wide
  · exact (hset.seq (frame_setFree _ (s.free + 1)) (rs := [.minutes, .free])).seq (frame_raise _ .store none)

/-- The copies of the retained minute, and which is written next (Table 2-6). -/
theorem State.minuteWritten_copies (s : State) (w : MinuteWrite) (more : List MinuteWrite) (ok : Bool) :
    (s.minuteWritten w more ok).cts.minuteWrites = more
      ∧ (s.cts.minuteNextB = false → (s.minuteWritten w more ok).cts.minuteB = s.cts.minuteB
          ∧ (ok = true → (s.minuteWritten w more ok).cts.minuteA = CountCopy.written .minute w.value
              ∧ (s.minuteWritten w more ok).cts.minuteNextB = true))
      ∧ (s.cts.minuteNextB = true → (s.minuteWritten w more ok).cts.minuteA = s.cts.minuteA
          ∧ (ok = true → (s.minuteWritten w more ok).cts.minuteB = CountCopy.written .minute w.value
              ∧ (s.minuteWritten w more ok).cts.minuteNextB = false))
      ∧ (ok = false → (s.minuteWritten w more ok).cts.minuteNextB = s.cts.minuteNextB) := by
  have hsame : Part.minutes.same (s.setCts (s.cts.minuteEnded w more ok s.free)) (s.minuteWritten w more ok) := by
    unfold State.minuteWritten
    cases ok with
    | true => exact ⟨rfl, rfl, rfl, rfl⟩
    | false => exact frame_raise ((s.setCts (s.cts.minuteEnded w more false s.free)).setFree (s.free + 1)) .store none .minutes (by decide)
  obtain ⟨hA, hB, hN, hW⟩ := hsame
  rw [hA, hB, hN, hW]
  show (s.cts.minuteEnded w more ok s.free).minuteWrites = more ∧ _
  simp only [State.setCts_cts]
  unfold Cts.minuteEnded
  cases hnext : s.cts.minuteNextB with
  | false => exact ⟨rfl, fun _ => ⟨rfl, fun hok => by rw [hok]; exact ⟨rfl, rfl⟩⟩, (fun h => nomatch h), fun hok => hok⟩
  | true => exact ⟨rfl, (fun h => nomatch h), fun _ => ⟨rfl, fun hok => by rw [hok]; exact ⟨rfl, rfl⟩⟩, fun hok => by rw [hok]; rfl⟩

theorem Raised.minuteWritten (s : State) (w : MinuteWrite) (more : List MinuteWrite) :
    Raised .store none s (s.minuteWritten w more false) :=
  (Raised.raise _ .store none).after (.of_frame ((frame_setMinuteEnded s w more false s.free).seq (frame_setFree _ (s.free + 1))
    (rs := [.minutes, .free])))

/-! ## C takes the value, and the scan where bit g has changed -/

theorem State.scanRuns_iff : s.scanRuns w = true ↔ w.tick = true ∧ w.synced = true ∧ s.clk.synced = true
    ∧ s.clk.minute.testBit s.conf.granularity ≠ w.value.testBit s.conf.granularity := by
  unfold State.scanRuns bitDiffers
  rw [Bool.and_eq_true, Bool.and_eq_true, Bool.and_eq_true, bne_iff_ne, and_assoc, and_assoc]

theorem State.takeMinute_scans (h : s.scanRuns w = true) : s.takeMinute w = (s.setClk { s.clk with minute := w.value }).scan := if_pos h

theorem State.takeMinute_only (h : s.scanRuns w = false) : s.takeMinute w = s.setClk { s.clk with minute := w.value } :=
  if_neg (by simp [h])

theorem frame_takeMinute (s : State) (w : MinuteWrite) :
    UnchangedBut [.records, .store, .clock, .requests, .counters, .free] s (s.takeMinute w) := by
  have hset := frame_setClk s { s.clk with minute := w.value }
  cases h : s.scanRuns w with
  | true =>
    rw [State.takeMinute_scans h]
    exact hset.seq (frame_scan _)
  | false =>
    rw [State.takeMinute_only h]
    exact hset.wide

theorem State.takeMinute_clk (s : State) (w : MinuteWrite) : (s.takeMinute w).clk = { s.clk with minute := w.value } := by
  cases h : s.scanRuns w with
  | true =>
    rw [State.takeMinute_scans h, (frame_scan _).clk]
    rfl
  | false => rw [State.takeMinute_only h]; rfl

end MinuteWrite

/-- Where bit g has changed, the scan runs over the column as the write's end left it. -/
theorem State.takeMinute_scanned {s : State} {w : MinuteWrite} {more : List MinuteWrite} {ok : Bool} (htick : w.tick = true)
    (hsync : w.synced = true) (hclk : s.clk.synced = true)
    (hbit : s.clk.minute.testBit s.conf.granularity ≠ w.value.testBit s.conf.granularity) :
    ∃ u, (s.minuteWritten w more ok).takeMinute w = u.scan ∧ u.clk.minute = w.value
      ∧ UnchangedBut [.minutes, .clock, .conditions, .transmit, .free] s u := by
  have hwritten := frame_minuteWritten s w more ok
  refine ⟨_, State.takeMinute_scans (State.scanRuns_iff.mpr ⟨htick, hsync, ?_, ?_⟩), rfl, hwritten.seq (frame_setClk _ _)⟩
  · rw [hwritten.clk, hclk]
  · rw [hwritten.clk, hwritten.conf]
    exact hbit

theorem Parcel.due_of_limit {p : Parcel} {h minute : Nat} (hlimit : p.limit = some h) (hle : p.deposit + h ≤ minute) :
    p.due minute = true := by
  unfold Parcel.due
  rw [hlimit]
  exact decide_eq_true hle

/-- Settles O47: the store's part, C, and the scan slot by slot. -/
theorem minuteWritesMoveTheMinuteAndScan : Obligations.MinuteWritesMoveTheMinuteAndScan := by
  intro s w more ok hw
  have hwritten := frame_minuteWritten s w more ok
  have htake := frame_takeMinute (s.minuteWritten w more ok) w
  obtain ⟨hA, hB, hN, hW⟩ := htake .minutes (by decide)
  obtain ⟨hmore, hcopyA, hcopyB, hnext⟩ := State.minuteWritten_copies s w more ok
  have hruns : (s.minuteWritten w more ok).scanRuns w = s.scanRuns w := by
    unfold State.scanRuns
    rw [hwritten.clk, hwritten.conf]
  refine ⟨_, exec_retainedMinuteWrite hw ok, ?_, hW.trans hmore, fun h => ?_, fun h => ?_, fun hok => ⟨?_, ?_⟩, fun hok => ?_,
    fun hno => ?_, fun htick hsync hclk hbit => ?_⟩
  · rw [State.takeMinute_clk, hwritten.clk]
  · rw [hA, hB, hN]
    exact hcopyA h
  · rw [hA, hB, hN]
    exact hcopyB h
  · rw [hok] at htake ⊢
    exact (Raised.minuteWritten s w more).then_ (.of_frame htake)
  · exact hN.trans (hnext hok)
  · rw [hok] at htake ⊢
    have hset := frame_setMinuteEnded s w more true s.free
    exact ⟨htake.conds.trans hset.conds, htake.tx.trans hset.tx⟩
  · have hquiet : (s.minuteWritten w more ok).scanRuns w = false := by
      rw [hruns, ← Bool.not_eq_true, State.scanRuns_iff]
      exact hno
    rw [State.takeMinute_only hquiet]
    exact hwritten.seq (frame_setClk _ _)
  · obtain ⟨u, hscan, hminute, hbefore⟩ := State.takeMinute_scanned (more := more) (ok := ok) htick hsync hclk hbit
    have hall := hwritten.seq htake (rs := [.records, .store, .minutes, .clock, .requests, .conditions, .counters, .transmit, .free])
    rw [hscan] at hall ⊢
    refine ⟨fun slot r p h hr hp hd hlimit hle => ⟨fun hfree => ?_, fun e he => ?_⟩, fun slot hnone => ?_, hall⟩
    · rw [← hbefore.storeOf slot]
      refine State.scan_expires ((hbefore.rec? slot).trans hr) hp hd (Parcel.due_of_limit hlimit (hminute ▸ hle)) ?_
      rw [← Option.isNone_iff_eq_none, State.holder?_isNone_iff, hbefore.ort]
      exact hfree
    · have hholder : u.holder? slot = some e := by
        unfold State.holder?
        rw [hbefore.ort]
        exact he
      obtain ⟨hrec, hstore, hmarked⟩ := State.scan_marks ((hbefore.rec? slot).trans hr) hp hd
        (Parcel.due_of_limit hlimit (hminute ▸ hle)) hholder
      exact ⟨hrec.trans (hbefore.rec? slot), hstore.trans (hbefore.storeOf slot), hmarked⟩
    · obtain ⟨hrec, hstore⟩ := State.scan_stands (s := u) (slot := slot) (by rw [hminute, hbefore.rec?]; exact hnone)
      exact ⟨hrec.trans (hbefore.rec? slot), hstore.trans (hbefore.storeOf slot)⟩

end Sys2Proof.Machine
end

