-- ==== Sys2Proof/Proofs/Services.lean ====
section
/- One theorem after another: side by side, their proofs ask for more threads than the check's memory limit allows. -/
set_option Elab.async false

/-! SUPPORT and proofs of O40, O41 and O42: the service requests (R80, R85, R147 to R150). -/

namespace Sys2Proof.Machine

/-! ## A new entry -/

section New

variable {s t v : State} {j : Job} {e : Entry}

/-- A new entry that ends at once leaves the table as it was. -/
theorem State.dropEntry_new (hnew : s.entry? j = none) {d : Entry} (hd : d.job = j) (hort : t.ort = s.ort ++ [d]) :
    (t.dropEntry j).ort = s.ort := by
  have hothers : s.ort.filter (fun e => !(e.kind == j.kind && e.ticket == j.ticket)) = s.ort :=
    List.filter_eq_self.mpr fun e he => by
      rw [Bool.not_eq_true', ← Bool.not_eq_true, Entry.key_iff]
      exact fun hk => State.entry?_none_iff.mp hnew e he hk
  show t.ort.filter (fun e => !(e.kind == j.kind && e.ticket == j.ticket)) = s.ort
  have hkey := Entry.key_iff.mpr hd
  rw [hort, List.filter_append, hothers, List.filter_cons_of_neg (by simp [hkey]), List.filter_nil, List.append_nil]

theorem OnlyEntry.dropped (h : OnlyEntry j (s.addEntry e) v) (hj : e.job = j) (hnew : s.entry? j = none) :
    (v.dropEntry j).ort = s.ort := by
  obtain ⟨d, hort, -, hd⟩ := h.added hj hnew
  exact State.dropEntry_new hnew hd hort

theorem NoMarks.fresh (j : Job) (slots : List Slot) (stage : EntryStage) : NoMarks (Entry.fresh j slots stage) := fun x hx => by
  obtain ⟨i, -, rfl⟩ := List.mem_map.mp hx
  rfl

/-- A new entry that is refused in its activation. -/
theorem Refused.newEntry (hj : e.job = j) (hnew : s.entry? j = none) (hmarks : NoMarks e) (slot : Slot) (r : Reason) :
    Refused j.ticket.station (some j.ticket.number) (some slot.val) r (s.carrierOf slot) s
        (((s.addEntry e).refuseSlot j.ticket slot r).finishEntry j)
      ∧ UnchangedBut [.conditions, .counters, .transmit] s (((s.addEntry e).refuseSlot j.ticket slot r).finishEntry j) := by
  have hadd := frame_addEntry s e
  have hrefuse := frame_refuseSlot (s.addEntry e) j.ticket slot r
  have hdrop := frame_dropEntry ((s.addEntry e).refuseSlot j.ticket slot r) j
  have hfound : ((s.addEntry e).refuseSlot j.ticket slot r).entry? j = some e :=
    (hrefuse.entry? j).trans (State.entry?_addEntry_new s j hj hnew)
  rw [State.finishEntry_of_noMarks fun d hd => by rw [hfound] at hd; cases hd; exact hmarks]
  refine ⟨((Refused.refuse ..).then_ hdrop).after hadd, ?_⟩
  refine UnchangedBut.drop (p := .requests) ((hadd.seq hrefuse (rs := [.requests, .conditions, .counters, .transmit])).seq hdrop) ?_
  exact State.dropEntry_new hnew hj hrefuse.ort

end New

theorem Started.after {q : DoorRequest} {stage : Stage} {ps : List Part} {s u t : State} (k : UnchangedBut ps s u)
    (h : Started q stage u t) (hd : Part.doors ∉ ps := by decide) (ho : Part.outputs ∉ ps := by decide) : Started q stage s t := by
  obtain ⟨hqueue, hcycle, horder, hlamp⟩ := h
  rw [k.dsq hd] at hqueue hcycle horder
  rw [k.out ho] at hlamp
  exact ⟨hqueue, hcycle, horder, hlamp⟩

/-! ## Admission (R80, R82, R85, R147) -/

section Admission

variable {s : State} {f : RxFrame} {rest : List RxFrame} {c : Instr} {k : RequestKind} {sub : ServiceKind} {d : TicketValue}
  {slot : Slot} {r : CompRec}

theorem exec_service (hc : ServiceCommand c k sub) (s : State) : exec c s = .next (s.service k sub) := by
  rcases hc with ⟨rfl, rfl, rfl⟩ | ⟨rfl, rfl, rfl⟩ | ⟨rfl, rfl, rfl⟩ | ⟨rfl, rfl, rfl⟩ <;> rfl

theorem State.service_short (h : Heads k f rest s) (hd : decodeService f.payload = none) :
    s.service k sub = ((s.taken rest).refuseShort f).conclude := by
  unfold State.service
  rw [h.takeHead]
  dsimp only
  rw [hd]

theorem State.service_read (h : Heads k f rest s) (hd : decodeService f.payload = some d) :
    s.service k sub = ((s.taken rest).takeService f sub d).conclude := by
  unfold State.service
  rw [h.takeHead]
  dsimp only
  rw [hd]

/-- A service payload too short to be read names no slot (entry 22). -/
theorem State.refuseShort_noSlot {p : List Byte} (hp : f.payload = p) (hd : p.length < 3) (s : State) :
    s.refuseShort f = s.refuse f.station (number? f.payload) none .format 0 := by
  have hnone : byte? f.payload 2 = none := by
    unfold byte?
    rw [hp, List.getElem?_eq_none (by omega)]
    rfl
  unfold State.refuseShort
  rw [hnone]

theorem decodeService_none (h : decodeService f.payload = none) : f.payload.length < 3 := by
  unfold decodeService at h
  split at h
  · cases h
  · omega

theorem State.takeService_noSuch (h : ∀ slot : Slot, slot.val = d.value → s.fitted slot = false) :
    s.takeService f sub d = s.refuse f.station (some d.number) (some d.value) .noSuch 0 := by
  unfold State.takeService
  cases hslot : slotOf d.value with
  | none => rfl
  | some slot =>
    have hval : slot.val = d.value := by
      unfold slotOf at hslot
      split at hslot
      · cases hslot
        rfl
      · cases hslot
    exact if_neg (by rw [h slot hval]; exact Bool.false_ne_true)

theorem State.takeService_fitted (hslot : d.value = slot.val) (hfit : s.fitted slot = true) :
    s.takeService f sub d = s.newService (f.ticket d.number) sub slot := by
  unfold State.takeService
  rw [hslot, slotOf_val]
  exact if_pos hfit

variable {t : Ticket}

theorem State.newService_repeat (h : (s.entry? (serviceJob t)).isSome = true) : s.newService t sub slot = s := if_pos h

theorem State.newService_full (hnew : s.entry? (serviceJob t) = none) (h : 8 ≤ s.ort.length) :
    s.newService t sub slot = s.refuse t.station (some t.number) none .busy 0 :=
  (if_neg (by simp [hnew])).trans (if_pos (decide_eq_true h))

theorem State.newService_created (hnew : s.entry? (serviceJob t) = none) (h : s.ort.length < 8) : s.newService t sub slot
    = s.createEntry (serviceEntry t slot sub) [slot] (fun s => s.activateService (serviceJob t) sub slot) :=
  (if_neg (by simp [hnew])).trans (if_neg (by rw [State.ortFull_eq_false_iff.mpr h]; exact Bool.false_ne_true))

theorem State.createEntry_waits {e : Entry} {slots : List Slot} {active : State → State} (h : ¬Unblocked slots s) :
    s.createEntry e slots active = s.addEntry { e with stage := .waiting } :=
  if_pos (by
    by_contra hno
    exact h (State.blocked_eq_false_iff.mp (Bool.not_eq_true _ ▸ hno)))

theorem State.createEntry_active {e : Entry} {slots : List Slot} {active : State → State} (h : Unblocked slots s) :
    s.createEntry e slots active = active (s.addEntry e) :=
  if_neg (by rw [State.blocked_eq_false_iff.mpr h]; exact Bool.false_ne_true)

/-- The column with the request taken off and its entry in the table. -/
def State.serviceAdded (s : State) (f : RxFrame) (rest : List RxFrame) (d : TicketValue) (slot : Slot) (sub : ServiceKind) : State :=
  (s.taken rest).addEntry (serviceEntry (f.ticket d.number) slot sub)

theorem frame_serviceAdded (s : State) (f : RxFrame) (rest : List RxFrame) (d : TicketValue) (slot : Slot) (sub : ServiceKind) :
    UnchangedBut [.requests, .receive] s (s.serviceAdded f rest d slot sub) :=
  (frame_taken s rest).seq (frame_addEntry _ _)

/-- A request that becomes active at once. -/
theorem ServiceTaken.runs (hc : ServiceCommand c k sub) (h : ServiceTaken k f rest d slot r s) :
    exec c s = .next ((s.serviceAdded f rest d slot sub).activateService (serviceJob (f.ticket d.number)) sub slot).conclude := by
  rw [exec_service hc, State.service_read h.heads h.fields, State.takeService_fitted (s := s.taken rest) h.names h.fitted,
    State.newService_created (s := s.taken rest) h.new h.room, State.createEntry_active (s := s.taken rest) h.free]
  rfl

theorem ServiceTaken.entry? (h : ServiceTaken k f rest d slot r s) (sub : ServiceKind) :
    (s.serviceAdded f rest d slot sub).entry? (serviceJob (f.ticket d.number)) = some (serviceEntry (f.ticket d.number) slot sub) :=
  State.entry?_addEntry_new (s.taken rest) _ rfl h.new

/-- The entry that a request's activation leaves. -/
theorem ServiceTaken.entered (h : ServiceTaken k f rest d slot r s) {stage : EntryStage} {u : State}
    (honly : OnlyEntry (serviceJob (f.ticket d.number)) (s.serviceAdded f rest d slot sub) u)
    (hentry : u.entry? (serviceJob (f.ticket d.number))
      = ((s.serviceAdded f rest d slot sub).entry? (serviceJob (f.ticket d.number))).map (Entry.toStage stage none)) :
    ServiceEntry (serviceJob (f.ticket d.number)) slot stage s u := by
  obtain ⟨e, hort, he, hjob⟩ := OnlyEntry.added (s := s.taken rest) honly rfl h.new
  rw [h.entry? sub, he] at hentry
  cases hentry
  exact ⟨_, hort, hjob, rfl, rfl, rfl, rfl⟩

/-- The compartment is unfit. -/
theorem ServiceTaken.refused (hc : ServiceCommand c k sub) (h : ServiceTaken k f rest d slot r s) {reason : Reason}
    (hunfit : (reason = .state ∧ ServiceUnfit sub r)
      ∨ (reason = .notSecure ∧ sub = .clear ∧ ¬ServiceUnfit sub r ∧ (s.sense slot).secure = false)) :
    ∃ t, exec c s = .next t.conclude ∧ t.liu.rx = rest
      ∧ Refused f.station (some d.number) (some slot.val) reason (s.carrierOf slot) s t
      ∧ UnchangedBut [.conditions, .counters, .transmit, .receive] s t := by
  have heq := h.runs hc
  rw [State.activateService_refused (s := s.serviceAdded f rest d slot sub) h.record hunfit] at heq
  obtain ⟨hrefused, hframe⟩ := Refused.newEntry (s := s.taken rest) (e := serviceEntry (f.ticket d.number) slot sub)
    (j := serviceJob (f.ticket d.number)) rfl h.new (NoMarks.fresh (serviceJob (f.ticket d.number)) [slot] .immediate) slot reason
  exact ⟨_, heq, hframe.rx, hrefused.after (frame_taken s rest), (frame_taken s rest).seq hframe⟩

end Admission

/-- Settles O40: the tests of admission in order. -/
theorem serviceRequestsAreAdmitted : Obligations.ServiceRequestsAreAdmitted := by
  refine fun s f rest c k sub hc h => ⟨fun hshort => ?_, fun d hd => ⟨fun hno => ?_, fun slot hslot hfit => ⟨fun hrep => ?_,
    fun hnew hfull => ?_, fun hnew hroom hblocked => ?_⟩⟩⟩
  · refine ⟨(s.taken rest).refuse f.station (number? f.payload) none .format 0, ?_, Refused.taken s rest _ _ _ _ _⟩
    rw [exec_service hc, State.service_short h hshort, State.refuseShort_noSlot rfl (decodeService_none hshort)]
  · refine ⟨(s.taken rest).refuse f.station (some d.number) (some d.value) .noSuch 0, ?_, Refused.taken s rest _ _ _ _ _⟩
    rw [exec_service hc, State.service_read h hd, State.takeService_noSuch (s := s.taken rest) hno]
  · refine ⟨s.taken rest, ?_, .taken s rest⟩
    rw [exec_service hc, State.service_read h hd, State.takeService_fitted (s := s.taken rest) hslot.symm hfit,
      State.newService_repeat (s := s.taken rest) hrep]
  · refine ⟨(s.taken rest).refuse f.station (some d.number) none .busy 0, ?_, Refused.taken s rest _ _ _ _ _⟩
    rw [exec_service hc, State.service_read h hd, State.takeService_fitted (s := s.taken rest) hslot.symm hfit,
      State.newService_full (s := s.taken rest) hnew hfull]
    rfl
  · refine ⟨(s.taken rest).addEntry { serviceEntry (f.ticket d.number) slot sub with stage := .waiting }, _, ?_, rfl, rfl, rfl, rfl,
      rfl, rfl, rfl, (frame_taken s rest).seq (frame_addEntry _ _)⟩
    rw [exec_service hc, State.service_read h hd, State.takeService_fitted (s := s.taken rest) hslot.symm hfit,
      State.newService_created (s := s.taken rest) hnew hroom, State.createEntry_waits (s := s.taken rest) hblocked]

/-! ## SERVICE_OPEN (R148) -/

theorem ServiceCommand.open : ServiceCommand .serviceOpen .serviceOpen .open := .inl ⟨rfl, rfl, rfl⟩

theorem ServiceCommand.clear : ServiceCommand .serviceClear .serviceClear .clear := .inr (.inl ⟨rfl, rfl, rfl⟩)

theorem ServiceCommand.retire : ServiceCommand .serviceRetire .serviceRetire .retire := .inr (.inr (.inl ⟨rfl, rfl, rfl⟩))

theorem ServiceCommand.restore : ServiceCommand .serviceRestore .serviceRestore .restore := .inr (.inr (.inr ⟨rfl, rfl, rfl⟩))

section Open

variable {s : State} {f : RxFrame} {rest : List RxFrame} {d : TicketValue} {slot : Slot} {r : CompRec}

/-- The door that a service opening asks for. -/
def serviceDoor (s : State) (f : RxFrame) (d : TicketValue) (slot : Slot) : DoorRequest :=
  { slot := slot, kind := .service, job := serviceJob (f.ticket d.number), ref := s.parcelRef slot }

/-- The column with the entry in DOOR, before the door is asked for. -/
def State.openAsked (s : State) (f : RxFrame) (rest : List RxFrame) (d : TicketValue) (slot : Slot) : State :=
  (s.serviceAdded f rest d slot .open).updEntry (serviceJob (f.ticket d.number)) (Entry.toStage .door none)

theorem frame_openAsked (s : State) (f : RxFrame) (rest : List RxFrame) (d : TicketValue) (slot : Slot) :
    UnchangedBut [.requests, .receive] s (s.openAsked f rest d slot) :=
  (frame_serviceAdded s f rest d slot .open).seq (frame_updEntry _ _ _)

theorem ServiceTaken.open_runs (h : ServiceTaken .serviceOpen f rest d slot r s) (hret : r.state ≠ .retired) :
    exec .serviceOpen s = .next ((s.openAsked f rest d slot).askDoor (serviceDoor s f d slot)).conclude := by
  have heq := h.runs ServiceCommand.open
  rw [State.activateOpen_eq (s := s.serviceAdded f rest d slot .open) h.record hret] at heq
  exact heq

theorem ServiceTaken.openEntry (h : ServiceTaken .serviceOpen f rest d slot r s) {ps : List Part} {t : State}
    (hframe : UnchangedBut ps (s.openAsked f rest d slot) t) (hp : Part.requests ∉ ps := by decide) :
    ServiceEntry (serviceJob (f.ticket d.number)) slot .door s t := by
  refine h.entered (sub := .open) ((OnlyEntry.toStage _ _ .door none).trans (.of_frame hframe hp)) ?_
  rw [hframe.entry? _ hp]
  exact State.entry?_updEntry_same _ _ (Entry.toStage .door none) fun _ => rfl

end Open

/-- Settles O41: the refusal, the request that waits, and the two starts. -/
theorem serviceOpenAsksForTheDoor : Obligations.ServiceOpenAsksForTheDoor := by
  rintro s f rest d slot r j h rfl
  have hasked := frame_openAsked s f rest d slot
  refine ⟨fun hret => ?_, fun hret hidle hspan => ?_, fun hidle hqueue hspan => ⟨fun p hp => ?_, fun hstate => ?_⟩⟩
  · have hcarrier : s.carrierOf slot = 0 := by
      rw [State.carrierOf_rec h.record, hret]
      rfl
    rw [← hcarrier]
    exact h.refused .open (.inl ⟨rfl, hret⟩)
  · obtain ⟨hqueued, hframe⟩ := State.askDoor_queued (s := s.openAsked f rest d slot) (q := serviceDoor s f d slot) hidle hspan
    exact ⟨_, h.open_runs hret, hframe.rx, h.openEntry hframe, hqueued, hasked.seq hframe⟩
  · have heq := h.open_runs (fun hret => by rw [hp] at hret; cases hret)
    rw [State.askDoor_starts (s := s.openAsked f rest d slot) (q := serviceDoor s f d slot) hidle hqueue hspan] at heq
    obtain ⟨hstarted, hchanged, hcounted, hframe⟩ := (State.startRequest_tried (s := s.openAsked f rest d slot)
      (q := serviceDoor s f d slot) h.record (State.inCycle_of_idle hidle)).1 p hp (.inr (.inr rfl))
    have href : (s.openAsked f rest d slot).parcelRef slot = p.ref :=
      (hasked.parcelRef slot).trans (State.parcelRef_parcel (State.parcel?_occupied h.record hp))
    have hdoor : (serviceDoor s f d slot).slot = slot := rfl
    rw [hdoor, href] at hstarted
    exact ⟨_, heq, hframe.rx, h.openEntry hframe, hstarted.after hasked, hchanged.after hasked, hcounted.after hasked,
      hasked.seq hframe⟩
  · have hnot : ∀ p, r.state ≠ .occupied p := fun p hp => by
      rcases hstate with hempty | ⟨c, q, hfault⟩
      · rw [hp] at hempty
        cases hempty
      · rw [hp] at hfault
        cases hfault
    have heq := h.open_runs (fun hret => by
      rcases hstate with hempty | ⟨c, q, hfault⟩
      · rw [hret] at hempty
        cases hempty
      · rw [hret] at hfault
        cases hfault)
    rw [State.askDoor_starts (s := s.openAsked f rest d slot) (q := serviceDoor s f d slot) hidle hqueue hspan] at heq
    obtain ⟨hstarted, hframe⟩ := (State.startRequest_tried (s := s.openAsked f rest d slot)
      (q := serviceDoor s f d slot) h.record (State.inCycle_of_idle hidle)).2 (.inr ⟨rfl, hnot⟩)
    exact ⟨_, heq, hframe.rx, h.openEntry hframe, hstarted.after hasked, hasked.seq hframe⟩

/-- Settles O42: each of the three kinds, from its activation in `Activation`. -/
theorem serviceClearRetireRestoreChangeTheRecord : Obligations.ServiceClearRetireRestoreChangeTheRecord := by
  rintro s f rest d slot r j rfl
  refine ⟨fun h => ⟨fun reason hunfit => ?_, fun c p hfault hsecure => ?_⟩, fun h => ⟨fun hunfit => h.refused .retire (.inl ⟨rfl, hunfit⟩),
    fun hempty => ?_⟩, fun h => ⟨fun hunfit => h.refused .restore (.inl ⟨rfl, hunfit⟩), fun hret => ?_⟩⟩
  · refine h.refused .clear (hunfit.imp id ?_)
    rintro ⟨hreason, ⟨c, p, hfault⟩, hsecure⟩
    exact ⟨hreason, rfl, fun hno => hno c p hfault, hsecure⟩
  · have hadd := frame_serviceAdded s f rest d slot .clear
    have hcleared := ServiceCleared.activateClear (s := s.serviceAdded f rest d slot .clear) (j := serviceJob (f.ticket d.number)) h.record
      (CompState.tag_fault_iff.mpr ⟨c, p, hfault⟩) hsecure rfl
    refine ⟨_, _, _, _, h.runs .clear, hcleared.frame.rx, clearResult_table107 (s := s.serviceAdded f rest d slot .clear) h.record _,
      hcleared.record, fun hne => ?_, fun heq hw => ?_, fun heq hidle => ?_, fun hforeign => ?_, fun hno => ?_, fun hne => ?_,
      hadd.seq hcleared.frame⟩
    · obtain ⟨honly, hentry⟩ := hcleared.entry (.inl hne)
      exact ⟨h.entered honly hentry, (hcleared.changed hne).after hadd⟩
    · obtain ⟨honly, hentry⟩ := hcleared.entry (.inr hw)
      exact ⟨h.entered honly hentry, (hcleared.waits heq hw).after (hadd.storeOf slot)⟩
    · obtain ⟨⟨v, honly, hort⟩, hroom⟩ := hcleared.atOnce heq hidle
      exact ⟨hort.trans (OnlyEntry.dropped (s := s.taken rest) honly rfl h.new), hroom⟩
    · exact (hcleared.raised hforeign).after (.of_frame hadd)
    · exact hcleared.quiet hno
    · exact (hcleared.counted hne).after hadd
  · have hadd := frame_serviceAdded s f rest d slot .retire
    obtain ⟨honly, hentry, hchanged, hcounted, hframe⟩ := State.activateRetire_spec (s := s.serviceAdded f rest d slot .retire)
      (j := serviceJob (f.ticket d.number)) h.record hempty
    exact ⟨_, h.runs .retire, hframe.rx, h.entered honly hentry, hchanged.after hadd, hcounted.after hadd, hadd.seq hframe⟩
  · have hadd := frame_serviceAdded s f rest d slot .restore
    obtain ⟨honly, hentry, hchanged, hcounted, hraised, hframe⟩ := State.activateRestore_spec (s := s.serviceAdded f rest d slot .restore)
      (j := serviceJob (f.ticket d.number)) h.record hret
    exact ⟨_, h.runs .restore, hframe.rx, h.entered honly hentry, hchanged.after hadd, hcounted.after hadd,
      fun hon => (hraised hon).after (.of_frame hadd), hadd.seq hframe⟩

end Sys2Proof.Machine
end

