-- ==== Sys2Proof/Proofs/Calls.lean ====
section
/- One theorem after another: side by side, their proofs ask for more threads than the check's memory limit allows. -/
set_option Elab.async false

/-! SUPPORT and proofs of O35 and O38: COLLECT_CALL and SWEEP_CALL (R136, R137, R145). -/

namespace Sys2Proof.Machine

/-! ## Calls that make no entry -/

section Silent

variable {s : State} {f : RxFrame} {rest : List RxFrame} {c : TicketValue}

/-- A call that cannot be read gives its REFUSAL event only (entry 22). -/
theorem Counted.takenCall (s : State) (rest : List RxFrame) (r : Reason) (carrier : Nat) :
    ((s.taken rest).refusalEvent r carrier).liu.rx = rest ∧ Counted .refusal (some r.pos) carrier s ((s.taken rest).refusalEvent r carrier)
      ∧ UnchangedBut [.counters, .receive] s ((s.taken rest).refusalEvent r carrier) := by
  have hevent := frame_refusalEvent (s.taken rest) r carrier
  exact ⟨hevent.rx, (Counted.count _ _ _ _).after (frame_taken s rest), (frame_taken s rest).seq hevent⟩

/-! ## COLLECT_CALL (R136) -/

theorem exec_collectCall_short (h : Heads .collectCall f rest s) (hp : f.payload.length < 5) :
    exec .collectCall s = .next ((s.taken rest).refusalEvent .format 0).conclude := by
  have hdecode : decodeCollectCall f.payload = none := if_neg (by omega)
  show Host.Outcome.next _ = _
  rw [h.takeHead]
  dsimp only
  rw [hdecode]

theorem exec_collectCall_range (h : Heads .collectCall f rest s) (hc : decodeCollectCall f.payload = some c) (hcode : 999999 < c.value) :
    exec .collectCall s = .next ((s.taken rest).refusalEvent .format 0).conclude := by
  show Host.Outcome.next _ = _
  rw [h.takeHead]
  dsimp only
  rw [hc]
  exact congrArg Host.Outcome.next (if_pos hcode)

theorem exec_collectCall_repeat (h : Heads .collectCall f rest s) (hc : decodeCollectCall f.payload = some c) (hcode : c.value ≤ 999999)
    (hrep : (s.entry? (collectJob (f.ticket c.number))).isSome = true) : exec .collectCall s = .next (s.taken rest) := by
  show Host.Outcome.next _ = _
  rw [h.takeHead]
  dsimp only
  rw [hc]
  exact congrArg Host.Outcome.next ((if_neg (Nat.not_lt.mpr hcode)).trans (if_pos hrep))

theorem exec_collectCall (h : Heads .collectCall f rest s) (hc : decodeCollectCall f.payload = some c) (hcode : c.value ≤ 999999)
    (hnew : s.entry? (collectJob (f.ticket c.number)) = none) :
    exec .collectCall s = .next ((s.taken rest).searchCode (f.ticket c.number) c.value).conclude := by
  have hnew' : ¬((s.taken rest).entry? (collectJob (f.ticket c.number))).isSome = true := by
    show ¬(s.entry? (collectJob (f.ticket c.number))).isSome = true
    simp [hnew]
  show Host.Outcome.next _ = _
  rw [h.takeHead]
  dsimp only
  rw [hc]
  exact congrArg Host.Outcome.next ((if_neg (Nat.not_lt.mpr hcode)).trans (if_neg hnew'))

end Silent

/-! ## The search (R136) -/

section Search

variable {s : State} {t : Ticket} {code : Nat} {slots : List Slot}

theorem State.searchCode_none (h : ∀ slot p, ¬FoundByCode code slot p s) : s.searchCode t code = s := by
  have hcollect : allSlots.filter (s.collectable code) = [] := List.filter_eq_nil_iff.mpr fun i _ hi => by
    obtain ⟨p, hp, -⟩ := State.collectable_iff.mp hi
    exact h i p hp
  have hexpired : allSlots.find? (s.codeExpired code) = none := List.find?_eq_none.mpr fun i _ hi => by
    obtain ⟨p, hp, -⟩ := State.codeExpired_iff.mp hi
    exact h i p hp
  unfold State.searchCode
  rw [hcollect, List.take_nil]
  dsimp only
  rw [hexpired]

/-- The first slot that a test holds of, in rising order. -/
theorem find?_allSlots {q : Slot → Bool} {slot : Slot} (h : q slot = true) (hfirst : ∀ i, q i = true → slot ≤ i) :
    allSlots.find? q = some slot := by
  obtain ⟨i, hi⟩ := Option.isSome_iff_exists.mp (List.find?_isSome.mpr ⟨slot, mem_allSlots slot, h⟩)
  obtain ⟨hqi, before, after, hsplit, hnone⟩ := List.find?_eq_some_iff_append.mp hi
  have hle := hfirst i hqi
  have hsorted : (before ++ i :: after).Pairwise (· < ·) := by
    rw [← hsplit]
    exact List.pairwise_lt_finRange 24
  have hmem : slot ∈ before ++ i :: after := by
    rw [← hsplit]
    exact mem_allSlots slot
  rcases List.mem_append.mp hmem with hbefore | hafter
  · have := hnone slot hbefore
    rw [h] at this
    cases this
  · rcases List.mem_cons.mp hafter with heq | hlater
    · rw [hi, heq]
    · have := (List.pairwise_cons.mp (List.pairwise_append.mp hsorted).2.1).1 slot hlater
      exact absurd this (not_lt.mpr hle)

theorem State.searchCode_expired {slot : Slot} {p : Parcel} (hp : FoundByCode code slot p s)
    (hall : ∀ i q, FoundByCode code i q s → ExpiredNow q s ∧ slot ≤ i) : s.searchCode t code = s.refuseSlot t slot .expired := by
  have hcollect : allSlots.filter (s.collectable code) = [] := List.filter_eq_nil_iff.mpr fun i _ hi => by
    obtain ⟨q, hq, hexp⟩ := State.collectable_iff.mp hi
    exact hexp (hall i q hq).1
  have hexpired : allSlots.find? (s.codeExpired code) = some slot := by
    refine find?_allSlots (State.codeExpired_iff.mpr ⟨p, hp, (hall slot p hp).1⟩) fun i hi => ?_
    obtain ⟨q, hq, -⟩ := State.codeExpired_iff.mp hi
    exact (hall i q hq).2
  unfold State.searchCode
  rw [hcollect, List.take_nil]
  dsimp only
  rw [hexpired]

theorem State.searchCode_found (hslots : slots = (allSlots.filter (s.collectable code)).take 4) (hne : slots ≠ []) :
    s.searchCode t code = if s.ortFull then s.refuseBusy t
      else s.createEntry (collectEntry t slots code) slots (fun s => s.activateCollect (collectJob t) slots) := by
  obtain ⟨x, rest, hcons⟩ := List.exists_cons_of_ne_nil hne
  rw [hcons] at hslots
  have htake : (allSlots.filter (s.collectable code)).take collectSlots = x :: rest := hslots.symm
  unfold State.searchCode
  rw [htake, hcons]

theorem State.ortFull_iff : s.ortFull = true ↔ 8 ≤ s.ort.length := decide_eq_true_iff

theorem State.searchCode_full (hslots : slots = (allSlots.filter (s.collectable code)).take 4) (hne : slots ≠ []) (h : 8 ≤ s.ort.length) :
    s.searchCode t code = s.refuse t.station (some t.number) none .busy 0 :=
  (State.searchCode_found hslots hne).trans (if_pos (State.ortFull_iff.mpr h))

theorem State.searchCode_created (hslots : slots = (allSlots.filter (s.collectable code)).take 4) (hne : slots ≠ [])
    (h : s.ort.length < 8) : s.searchCode t code
      = s.createEntry (collectEntry t slots code) slots (fun s => s.activateCollect (collectJob t) slots) :=
  (State.searchCode_found hslots hne).trans (if_neg (by rw [State.ortFull_eq_false_iff.mpr h]; exact Bool.false_ne_true))

theorem Entry.slotList_of_fresh {e : Entry} {slots : List Slot} (h : e.slots = slots.map EntrySlot.fresh) : e.slotList = slots := by
  unfold Entry.slotList
  rw [h, List.map_map]
  exact List.map_id'' (fun _ => rfl) slots

end Search

/-- What a COLLECT entry's activation does, told of the column before its call. -/
theorem CollectActive.after {j : Job} {slots : List Slot} {d : Entry} {ps : List Part} {s u t : State} (k : UnchangedBut ps s u)
    (h : CollectActive j slots d u t) (hq : Part.quotes ∉ ps := by decide) (hr : Part.records ∉ ps := by decide)
    (hc : Part.config ∉ ps := by decide) (hm : Part.clock ∉ ps := by decide) (ht : Part.transmit ∉ ps := by decide) :
    CollectActive j slots d s t := by
  obtain ⟨hstage, hcounter, hquoted⟩ := h
  have hnumber : u.quoteCounter = s.quoteCounter := k.quoteCounter hq
  have hsize (slot : Slot) : u.size slot = s.size slot := k.size slot hc
  rw [hnumber] at hcounter
  refine ⟨hstage, hcounter, fun i slot r p hi hrec hp => ?_⟩
  have hslot := hquoted i slot r p hi ((k.rec? slot hr).trans hrec) hp
  rw [hnumber, k.conf hc, hsize, k.clk hm, k.tx ht] at hslot
  exact hslot

/-- Settles O35: the search by code, and the entry on its first four slots. -/
theorem collectCallMatchesByCode : Obligations.CollectCallMatchesByCode := by
  refine ⟨fun s f rest h hp => ⟨_, exec_collectCall_short h hp, Counted.takenCall s rest .format 0⟩, fun s f rest c h hc =>
    ⟨fun hcode => ⟨_, exec_collectCall_range h hc hcode, Counted.takenCall s rest .format 0⟩,
      fun hcode hrep => ⟨_, exec_collectCall_repeat h hc hcode hrep, .taken s rest⟩, fun hcode hnew =>
        ⟨fun hnone => ?_, fun slot p hp hall => ?_, fun slots hslots hne => ⟨fun i => State.collectable_iff, fun hfull => ?_,
          fun hroom hblocked => ?_, fun hroom hfree => ?_⟩⟩⟩⟩
  · have heq := exec_collectCall h hc hcode hnew
    rw [State.searchCode_none (s := s.taken rest) hnone] at heq
    exact ⟨_, heq, .taken s rest⟩
  · have heq := exec_collectCall h hc hcode hnew
    rw [State.searchCode_expired (s := s.taken rest) hp hall] at heq
    rw [← State.carrierOf_parcel hp.parcel?]
    exact ⟨_, heq, Refused.taken s rest _ _ _ _ _⟩
  · have heq := exec_collectCall h hc hcode hnew
    rw [State.searchCode_full (s := s.taken rest) hslots hne hfull] at heq
    exact ⟨_, heq, Refused.taken s rest _ _ _ _ _⟩
  · have heq := exec_collectCall h hc hcode hnew
    rw [State.searchCode_created (s := s.taken rest) hslots hne hroom, State.createEntry_waits (s := s.taken rest) hblocked] at heq
    exact ⟨_, _, heq, rfl, rfl, rfl, Entry.slotList_of_fresh rfl, rfl, rfl, rfl, (frame_taken s rest).seq (frame_addEntry _ _)⟩
  · have heq := exec_collectCall h hc hcode hnew
    rw [State.searchCode_created (s := s.taken rest) hslots hne hroom, State.createEntry_active (s := s.taken rest) hfree] at heq
    have hadd : UnchangedBut [.requests, .receive] s ((s.taken rest).addEntry (collectEntry (f.ticket c.number) slots c.value)) :=
      (frame_taken s rest).seq (frame_addEntry _ _)
    have hframe := frame_activateCollect ((s.taken rest).addEntry (collectEntry (f.ticket c.number) slots c.value))
      (collectJob (f.ticket c.number)) slots
    have hnodup : slots.Nodup := by
      rw [hslots]
      exact ((List.nodup_finRange 24).filter _).sublist (List.take_sublist _ _)
    have hparcels : ∀ slot ∈ slots, ∃ p, s.parcel? slot = some p := fun slot hslot => by
      rw [hslots] at hslot
      obtain ⟨p, hp, -⟩ := State.collectable_iff.mp (List.mem_filter.mp (List.mem_of_mem_take hslot)).2
      exact ⟨p, hp.parcel?⟩
    obtain ⟨d, hd, ⟨xs, hxs⟩, hactive⟩ := CollectActive.activateCollect
      (State.entry?_addEntry_new (s.taken rest) (collectJob (f.ticket c.number)) (e := collectEntry (f.ticket c.number) slots c.value) rfl hnew)
      hnodup hparcels
    obtain ⟨d', hort, hd', hjob⟩ := OnlyEntry.added (s := s.taken rest) (e := collectEntry (f.ticket c.number) slots c.value)
      (OnlyEntry.activateCollect _ (collectJob (f.ticket c.number)) slots) rfl hnew
    cases hd.symm.trans hd'
    exact ⟨_, d, heq, hframe.rx, hort, hjob, by rw [hxs]; rfl, hactive.after hadd, hadd.seq hframe⟩

/-! ## SWEEP_CALL (R145) -/

section Sweep

variable {s : State} {f : RxFrame} {rest : List RxFrame} {c : TicketValue} {t : Ticket} {carrier : Nat} {found : List Slot}

theorem isCarrier_iff {n : Nat} : isCarrier n = true ↔ 1 ≤ n ∧ n ≤ 63 := by
  unfold isCarrier
  rw [Bool.and_eq_true, decide_eq_true_iff, decide_eq_true_iff]

theorem exec_sweepCall_short (h : Heads .sweepCall f rest s) (hp : f.payload.length < 3) :
    exec .sweepCall s = .next ((s.taken rest).refusalEvent .format 0).conclude := by
  have hdecode : decodeSweepCall f.payload = none := if_neg (by omega)
  show Host.Outcome.next _ = _
  rw [h.takeHead]
  dsimp only
  rw [hdecode]

theorem exec_sweepCall_range (h : Heads .sweepCall f rest s) (hc : decodeSweepCall f.payload = some c)
    (hcarrier : c.value = 0 ∨ 63 < c.value) : exec .sweepCall s = .next ((s.taken rest).refusalEvent .format 0).conclude := by
  have hno : isCarrier c.value = false := by
    rw [← Bool.not_eq_true, isCarrier_iff]
    omega
  show Host.Outcome.next _ = _
  rw [h.takeHead]
  dsimp only
  rw [hc]
  exact congrArg Host.Outcome.next (if_pos hno)

theorem isCarrier_ne_false {n : Nat} (h : 1 ≤ n) (hle : n ≤ 63) : ¬isCarrier n = false := by
  rw [isCarrier_iff.mpr ⟨h, hle⟩]
  exact fun h => nomatch h

theorem exec_sweepCall_repeat (h : Heads .sweepCall f rest s) (hc : decodeSweepCall f.payload = some c) (hlo : 1 ≤ c.value)
    (hhi : c.value ≤ 63) (hrep : (s.entry? (sweepJob (f.ticket c.number))).isSome = true) :
    exec .sweepCall s = .next (s.taken rest) := by
  show Host.Outcome.next _ = _
  rw [h.takeHead]
  dsimp only
  rw [hc]
  exact congrArg Host.Outcome.next ((if_neg (isCarrier_ne_false hlo hhi)).trans (if_pos hrep))

theorem exec_sweepCall (h : Heads .sweepCall f rest s) (hc : decodeSweepCall f.payload = some c) (hlo : 1 ≤ c.value)
    (hhi : c.value ≤ 63) (hnew : s.entry? (sweepJob (f.ticket c.number)) = none) :
    exec .sweepCall s = .next ((s.taken rest).searchCarrier (f.ticket c.number) c.value).conclude := by
  have hnew' : ¬((s.taken rest).entry? (sweepJob (f.ticket c.number))).isSome = true := by
    show ¬(s.entry? (sweepJob (f.ticket c.number))).isSome = true
    simp [hnew]
  show Host.Outcome.next _ = _
  rw [h.takeHead]
  dsimp only
  rw [hc]
  exact congrArg Host.Outcome.next ((if_neg (isCarrier_ne_false hlo hhi)).trans (if_neg hnew'))

theorem State.searchCarrier_none (h : allSlots.filter (s.sweepMatch carrier) = []) : s.searchCarrier t carrier = s := by
  unfold State.searchCarrier
  rw [h]
  rfl

theorem State.searchCarrier_found (h : allSlots.filter (s.sweepMatch carrier) = found) (hne : found ≠ []) :
    s.searchCarrier t carrier = if s.ortFull then s.refuseBusy t
      else s.createEntry (sweepEntry t (found.take 12) carrier (decide (12 < found.length))) (found.take 12)
        (fun s => s.activateSweep (sweepJob t) (found.take 12)) := by
  obtain ⟨x, more, hcons⟩ := List.exists_cons_of_ne_nil hne
  have htake : found.take sweepSlots = x :: more.take 11 := by rw [hcons]; rfl
  have htake12 : found.take 12 = x :: more.take 11 := htake
  unfold State.searchCarrier
  rw [h]
  dsimp only
  rw [htake, htake12]
  rfl

theorem State.searchCarrier_full (h : allSlots.filter (s.sweepMatch carrier) = found) (hne : found ≠ []) (hfull : 8 ≤ s.ort.length) :
    s.searchCarrier t carrier = s.refuse t.station (some t.number) none .busy 0 :=
  (State.searchCarrier_found h hne).trans (if_pos (State.ortFull_iff.mpr hfull))

theorem State.searchCarrier_created (h : allSlots.filter (s.sweepMatch carrier) = found) (hne : found ≠ []) (hroom : s.ort.length < 8) :
    s.searchCarrier t carrier = s.createEntry (sweepEntry t (found.take 12) carrier (decide (12 < found.length))) (found.take 12)
      (fun s => s.activateSweep (sweepJob t) (found.take 12)) :=
  (State.searchCarrier_found h hne).trans (if_neg (by rw [State.ortFull_eq_false_iff.mpr hroom]; exact Bool.false_ne_true))

end Sweep

/-- Settles O38: the search by carrier, and the entry on its first twelve slots. -/
theorem sweepCallListsTheCarriersParcels : Obligations.SweepCallListsTheCarriersParcels := by
  refine ⟨fun s f rest h hp => ⟨_, exec_sweepCall_short h hp, Counted.takenCall s rest .format 0⟩, fun s f rest c h hc =>
    ⟨fun hcarrier => ⟨_, exec_sweepCall_range h hc hcarrier, Counted.takenCall s rest .format 0⟩,
      fun hlo hhi hrep => ⟨_, exec_sweepCall_repeat h hc hlo hhi hrep, .taken s rest⟩, fun hlo hhi hnew => ?_⟩⟩
  have heq := exec_sweepCall h hc hlo hhi hnew
  refine ⟨allSlots.filter (s.sweepMatch c.value), (List.pairwise_lt_finRange 24).filter _, fun i => ?_, fun hnil => ?_,
    fun hne hfull => ?_, fun hne hroom => ?_⟩
  · rw [List.mem_filter, State.sweepMatch_iff, and_iff_right (mem_allSlots i)]
  · rw [State.searchCarrier_none (s := s.taken rest) hnil] at heq
    exact ⟨_, heq, .taken s rest⟩
  · rw [State.searchCarrier_full (s := s.taken rest) rfl hne hfull] at heq
    exact ⟨_, heq, Refused.taken s rest _ _ _ _ _⟩
  · rw [State.searchCarrier_created (s := s.taken rest) rfl hne hroom] at heq
    have hfound : allSlots.filter ((s.taken rest).sweepMatch c.value) = allSlots.filter (s.sweepMatch c.value) := rfl
    rw [hfound] at heq
    generalize allSlots.filter (s.sweepMatch c.value) = found at heq hne ⊢
    have hmarks : NoMarks (sweepEntry (f.ticket c.number) (found.take 12) c.value (decide (12 < found.length))) :=
      NoMarks.fresh (sweepJob (f.ticket c.number)) (found.take 12) .listed
    have hadd := frame_addEntry (s.taken rest) (sweepEntry (f.ticket c.number) (found.take 12) c.value (decide (12 < found.length)))
    by_cases hfree : Unblocked (found.take 12) s
    · rw [State.createEntry_active (s := s.taken rest) hfree] at heq
      obtain ⟨hentry, hanswered, hframe⟩ := State.activateSweep_spec (State.entry?_addEntry_new (s.taken rest)
        (sweepJob (f.ticket c.number)) (e := sweepEntry (f.ticket c.number) (found.take 12) c.value (decide (12 < found.length))) rfl hnew)
        (found.take 12)
      obtain ⟨d, hort, hd, hjob⟩ := OnlyEntry.added (s := s.taken rest) (OnlyEntry.activateSweep (State.entry?_addEntry_new (s.taken rest)
        (sweepJob (f.ticket c.number)) (e := sweepEntry (f.ticket c.number) (found.take 12) c.value (decide (12 < found.length))) rfl hnew)
        (found.take 12)) rfl hnew
      cases hentry.symm.trans hd
      have hafter := (frame_taken s rest).seq hadd (rs := [.requests, .receive])
      exact ⟨_, _, heq, hframe.rx, hort, hjob, Entry.slotList_startedOn _ _ _, rfl, rfl, rfl, hmarks, (fun hno => absurd hfree hno),
        fun _ => ⟨rfl, hanswered.after hafter, hafter.seq hframe⟩⟩
    · rw [State.createEntry_waits (s := s.taken rest) hfree] at heq
      exact ⟨_, _, heq, rfl, rfl, rfl, Entry.slotList_of_fresh rfl, rfl, rfl, rfl, hmarks,
        fun _ => ⟨rfl, (frame_taken s rest).seq (frame_addEntry _ _)⟩, fun h => absurd h hfree⟩

end Sys2Proof.Machine
end

