-- ==== Sys2Proof/Proofs/Gos.lean ====
section
/- One theorem after another: side by side, their proofs ask for more threads than the check's memory limit allows. -/
set_option Elab.async false

/-! SUPPORT and proofs of O37 and O39: COLLECT_GO and SWEEP_GO (R140, R141, R146). -/

namespace Sys2Proof.Machine

/-! ## A released slot whose parcel is due (R118) -/

/-- A parcel marked EXPIRED stands. -/
def KeepsExpired (s t : State) : Prop :=
  ∀ slot r p, s.rec? slot = some r → r.state = .occupied p → p.purpose = .expired → t.rec? slot = some r

theorem KeepsExpired.refl (s : State) : KeepsExpired s s := fun _ _ _ hr _ _ => hr

theorem KeepsExpired.trans {s t u : State} (h : KeepsExpired s t) (k : KeepsExpired t u) : KeepsExpired s u :=
  fun slot r p hr hp hexp => k slot r p (h slot r p hr hp hexp) hp hexp

theorem KeepsExpired.of_frame {ps : List Part} {s t : State} (h : UnchangedBut ps s t) (hp : Part.records ∉ ps := by decide) :
    KeepsExpired s t := fun slot _ _ hr _ _ => (h.rec? slot hp).trans hr

theorem KeepsExpired.foldl {α : Type} {f : State → α → State} (h : ∀ s x, KeepsExpired s (f s x)) (xs : List α) (s : State) :
    KeepsExpired s (xs.foldl f s) := by
  induction xs generalizing s with
  | nil => exact .refl s
  | cons x xs ih => exact (h s x).trans (ih _)

theorem KeepsExpired.expire (s : State) (i : Slot) : KeepsExpired s (s.expire i) := by
  intro slot r p hr hp hexp
  by_cases hi : slot = i
  · have hsame : s.expire i = s := by
      unfold State.expire
      rw [← hi, hr]
      dsimp only
      rw [hp]
      exact if_neg (by rw [hexp]; exact Purpose.noConfusion)
    rw [hsame, hr]
  · exact (s.expire_ne hi).1.trans hr

theorem KeepsExpired.deferredExpiry (s : State) (i : Slot) : KeepsExpired s (s.deferredExpiry i) := by
  unfold State.deferredExpiry
  split
  · exact .refl s
  · split
    exacts [.expire s i, .refl s]

theorem KeepsExpired.finishEntry (s : State) (j : Job) : KeepsExpired s (s.finishEntry j) := by
  unfold State.finishEntry
  split
  · exact .refl s
  · exact (KeepsExpired.of_frame (frame_dropEntry s j)).trans (.foldl (fun s x => .deferredExpiry s x) _ _)

theorem KeepsExpired.endIfDone (s : State) (j : Job) : KeepsExpired s (s.endIfDone j) := by
  unfold State.endIfDone
  split
  · exact .refl s
  · split
    · exact .finishEntry s j
    · split
      exacts [.of_frame (frame_updEntry s j _), .refl s]

section Release

variable {s : State} {j : Job} {slot : Slot} {e : Entry} {x : EntrySlot} {r : CompRec} {p : Parcel}

theorem ExpiredNow.due (h : ExpiredNow p s) (hd : p.purpose = .delivery) : s.clk.synced = true ∧ p.due s.clk.minute = true := by
  rcases h with hexp | ⟨-, hsync, limit, hlimit, hle⟩
  · rw [hd] at hexp
    cases hexp
  · exact ⟨hsync, Parcel.due_of_limit hlimit hle⟩

/-- A due parcel that no entry holds is marked EXPIRED when its deferred expiry is judged. -/
theorem State.deferredExpiry_due (hr : s.rec? slot = some r) (hp : r.state = .occupied p) (hd : p.purpose = .delivery)
    (hexp : ExpiredNow p s) (hfree : ∀ d ∈ s.ort, d.holds slot = false) :
    (s.deferredExpiry slot).rec? slot = some { r with state := .occupied { p with purpose := .expired } } := by
  obtain ⟨hsync, hdue⟩ := hexp.due hd
  have hexpire : s.deferredExpiry slot = s.expire slot := by
    unfold State.deferredExpiry
    rw [State.parcel?_occupied hr hp]
    dsimp only
    rw [hsync, hdue, State.holder?_isNone_iff.mpr hfree]
    rfl
  rw [hexpire, State.expire_delivery hr hp hd]
  exact State.change_rec?_same hr _ 0

theorem State.markOf_slot (he : s.entry? j = some e) (hx : e.slot? slot = some x) : s.markOf j slot = x.mark := by
  unfold State.markOf
  rw [he]
  show (match e.slot? slot with | some x => x.mark | none => false) = x.mark
  rw [hx]

/-- Once its own entry has let go of it, no entry holds the slot. -/
theorem State.updEntry_unheld {f : Entry → Entry} (hf : ∀ d, (f d).holds slot = false)
    (hothers : ∀ d ∈ s.ort, d.job ≠ j → d.holds slot = false) : ∀ d ∈ (s.updEntry j f).ort, d.holds slot = false := by
  intro d hd
  obtain ⟨c, hc, rfl⟩ := List.mem_map.mp hd
  split
  · exact hf c
  · rename_i hk
    exact hothers c hc fun hjob => hk (Entry.job_eq_iff.mp hjob)

end Release

/-! ## A GO judged as a whole (R140, R146) -/

section Whole

variable {s : State} {f : RxFrame} {rest : List RxFrame} {g : GoFields} {j : Job} {e : Entry}

theorem goodList_iff {slots : List Nat} {most : Nat} : goodList slots most = true
    ↔ slots ≠ [] ∧ slots.length ≤ most ∧ ∀ n ∈ slots, n < 24 := by
  unfold goodList
  rw [Bool.and_eq_true, Bool.and_eq_true, Bool.not_eq_true', List.isEmpty_eq_false_iff, decide_eq_true_iff, List.all_eq_true, and_assoc]
  simp only [decide_eq_true_iff]

theorem goodList_bad {slots : List Nat} {most : Nat} (h : slots = [] ∨ most < slots.length ∨ ∃ n ∈ slots, 24 ≤ n) :
    goodList slots most = false := by
  rw [← Bool.not_eq_true, goodList_iff]
  rintro ⟨hne, hlen, hall⟩
  rcases h with hnil | hlong | ⟨n, hn, hbig⟩
  · exact hne hnil
  · omega
  · exact absurd (hall n hn) (Nat.not_lt.mpr hbig)

theorem goodList_ne_false {slots : List Nat} {most : Nat} (hne : slots ≠ []) (hlen : slots.length ≤ most) (hall : ∀ n ∈ slots, n < 24) :
    ¬goodList slots most = false := by
  rw [goodList_iff.mpr ⟨hne, hlen, hall⟩]
  exact fun h => nomatch h

theorem namedSlots_sorted (slots : List Nat) : (namedSlots slots).Pairwise (· < ·) := (List.pairwise_lt_finRange 24).filter _

theorem mem_namedSlots {slots : List Nat} {i : Slot} : i ∈ namedSlots slots ↔ i.val ∈ slots := by
  unfold namedSlots
  rw [List.mem_filter, List.contains_iff_mem, and_iff_right (mem_allSlots i)]

theorem exec_collectGo_short (h : Heads .collectGo f rest s) (hp : f.payload.length < 2) :
    exec .collectGo s = .next ((s.taken rest).refuse f.station none (some 0) .format 0).conclude := by
  have hdecode : decodeGo f.payload = none := if_neg (by omega)
  show Host.Outcome.next _ = _
  rw [h.takeHead]
  dsimp only
  rw [hdecode]
  rfl

theorem exec_collectGo (h : Heads .collectGo f rest s) (hg : decodeGo f.payload = some g) :
    exec .collectGo s = .next ((s.taken rest).takeCollectGo f g).conclude := by
  show Host.Outcome.next _ = _
  rw [h.takeHead]
  dsimp only
  rw [hg]

theorem exec_sweepGo_short (h : Heads .sweepGo f rest s) (hp : f.payload.length < 2) :
    exec .sweepGo s = .next ((s.taken rest).refuse f.station none (some 0) .format 0).conclude := by
  have hdecode : decodeGo f.payload = none := if_neg (by omega)
  show Host.Outcome.next _ = _
  rw [h.takeHead]
  dsimp only
  rw [hdecode]
  rfl

theorem exec_sweepGo (h : Heads .sweepGo f rest s) (hg : decodeGo f.payload = some g) :
    exec .sweepGo s = .next ((s.taken rest).takeSweepGo f g).conclude := by
  show Host.Outcome.next _ = _
  rw [h.takeHead]
  dsimp only
  rw [hg]

theorem State.activeEntry_false (h : ∀ e, s.entry? j = some e → e.stage = .waiting) : s.activeEntry j = false := by
  unfold State.activeEntry
  split
  · rename_i e he
    rw [h e he]
    rfl
  · rfl

theorem State.activeEntry_true (he : s.entry? j = some e) (h : e.stage ≠ .waiting) : s.activeEntry j = true := by
  unfold State.activeEntry
  rw [he]
  exact bne_iff_ne.mpr h

theorem State.takeCollectGo_stale (h : ∀ e, s.entry? (collectJob (f.ticket g.number)) = some e → e.stage = .waiting) :
    s.takeCollectGo f g = s.refuseGo f g .stale := if_pos (State.activeEntry_false h)

theorem State.activeEntry_ne (he : s.entry? j = some e) (h : e.stage ≠ .waiting) : ¬s.activeEntry j = false := by
  rw [State.activeEntry_true he h]
  exact fun h => nomatch h

theorem State.takeCollectGo_format (he : s.entry? (collectJob (f.ticket g.number)) = some e) (hstage : e.stage ≠ .waiting)
    (h : goodList g.slots collectSlots = false) : s.takeCollectGo f g = s.refuseGo f g .format :=
  (if_neg (State.activeEntry_ne he hstage)).trans (if_pos h)

theorem State.takeCollectGo_power (he : s.entry? (collectJob (f.ticket g.number)) = some e) (hstage : e.stage ≠ .waiting)
    (h : ¬goodList g.slots collectSlots = false) (hlevel : 3 ≤ s.bgu.level) : s.takeCollectGo f g = s.refuseGo f g .power :=
  (if_neg (State.activeEntry_ne he hstage)).trans ((if_neg h).trans (if_pos hlevel))

theorem State.takeCollectGo_goes (he : s.entry? (collectJob (f.ticket g.number)) = some e) (hstage : e.stage ≠ .waiting)
    (h : ¬goodList g.slots collectSlots = false) (hlevel : s.bgu.level < 3) : s.takeCollectGo f g
      = (namedSlots g.slots).foldl (State.goSlot (collectJob (f.ticket g.number)))
          (s.updEntry (collectJob (f.ticket g.number)) Entry.restartLapse) :=
  (if_neg (State.activeEntry_ne he hstage)).trans ((if_neg h).trans (if_neg (Nat.not_le.mpr hlevel)))

theorem State.takeSweepGo_stale (h : ∀ e, s.entry? (sweepJob (f.ticket g.number)) = some e → e.stage = .waiting) :
    s.takeSweepGo f g = s.refuseGo f g .stale := by
  unfold State.takeSweepGo
  split
  · rfl
  · rename_i e he
    exact if_pos (h e he)

theorem State.takeSweepGo_door (he : s.entry? (sweepJob (f.ticket g.number)) = some e) (hw : e.stage ≠ .waiting) (hl : e.stage ≠ .listed) :
    s.takeSweepGo f g = s := by
  unfold State.takeSweepGo
  rw [he]
  exact (if_neg hw).trans (if_pos hl)

theorem State.takeSweepGo_listed (he : s.entry? (sweepJob (f.ticket g.number)) = some e) (hl : e.stage = .listed) :
    s.takeSweepGo f g = if goodList g.slots sweepSlots = false then s.refuseGo f g .format
      else if 2 ≤ s.bgu.level then s.refuseGo f g .power else s.goSweep e g := by
  unfold State.takeSweepGo
  rw [he]
  exact (if_neg (by rw [hl]; exact EntryStage.noConfusion)).trans (if_neg (not_not.mpr hl))

end Whole

/-! ## One slot of a COLLECT_GO (Table 10-3) -/

section GoSlot

variable {s : State} {j : Job} {slot : Slot} {e : Entry} {x : EntrySlot} {r : CompRec} {p : Parcel}

theorem State.progressOf_eq (he : s.entry? j = some e) (slot : Slot) : s.progressOf j slot = (e.slot? slot).map (fun x => x.progress) := by
  unfold State.progressOf
  rw [he]
  rfl

theorem State.goSlot_stale (he : s.entry? j = some e) (h : ∀ x, e.slot? slot = some x → x.progress = .done) :
    s.goSlot j slot = (s.refuseSlot j.ticket slot .stale).settle settleRounds := by
  have hprogress := State.progressOf_eq he slot
  unfold State.goSlot
  rw [hprogress]
  cases hx : e.slot? slot with
  | none => rfl
  | some x =>
    rw [Option.map_some, h x hx]

theorem State.goSlot_door (he : s.entry? j = some e) (hx : e.slot? slot = some x) (h : x.progress = .door) :
    s.goSlot j slot = s.settle settleRounds := by
  unfold State.goSlot
  rw [State.progressOf_eq he slot, hx, Option.map_some, h]

theorem State.goSlot_matched (he : s.entry? j = some e) (hx : e.slot? slot = some x) (h : x.progress = .matched) :
    s.goSlot j slot = (s.goMatched j slot).settle settleRounds := by
  unfold State.goSlot
  rw [State.progressOf_eq he slot, hx, Option.map_some, h]

theorem State.goMatched_refused {reason : Reason}
    (h : (reason = .state ∧ ∀ r p, s.rec? slot = some r → r.state = .occupied p → p.purpose = .carrierReturn)
      ∨ (reason = .expired ∧ ∃ r p, s.rec? slot = some r ∧ r.state = .occupied p ∧ ExpiredNow p s)) :
    s.goMatched j slot = (s.refuseSlot j.ticket slot reason).slotDone j slot := by
  unfold State.goMatched
  rcases h with ⟨rfl, hreturn⟩ | ⟨rfl, r, p, hr, hp, hexp⟩
  · rw [State.judgeCollect_state hreturn]
  · rw [State.judgeCollect_expired hr hp hexp]

theorem State.goMatched_unpaid (hr : s.rec? slot = some r) (hp : r.state = .occupied p) (hd : p.purpose = .delivery)
    (hexp : ¬ExpiredNow p s) (hdue : 0 < amountDue s.conf (s.size slot) p s.clk.minute) :
    s.goMatched j slot = s.refuseUnpaid j.ticket slot := by
  unfold State.goMatched
  rw [(State.judgeCollect_delivery hr hp hd hexp).trans (if_pos hdue)]

/-- The column with a slot's door asked for, before the request is made. -/
def State.doorDue (s : State) (j : Job) (slot : Slot) : State := (s.setProgress j slot .door).updEntry j Entry.restartLapse

theorem State.goMatched_pass (hr : s.rec? slot = some r) (hp : r.state = .occupied p) (hd : p.purpose = .delivery)
    (hexp : ¬ExpiredNow p s) (hdue : amountDue s.conf (s.size slot) p s.clk.minute = 0) : s.goMatched j slot
      = (s.doorDue j slot).askDoor { slot := slot, kind := .collect, job := j, ref := p.ref } := by
  have href := State.parcelRef_parcel (State.parcel?_occupied hr hp)
  unfold State.goMatched
  rw [(State.judgeCollect_delivery hr hp hd hexp).trans (if_neg (by omega)), ← href]
  rfl

theorem frame_doorDue (s : State) (j : Job) (slot : Slot) : UnchangedBut [.requests] s (s.doorDue j slot) :=
  (frame_setProgress s j slot .door).trans (frame_updEntry _ _ _)

/-- The slot is in DOOR, so the entry's lapse stops (R87). -/
theorem State.doorDue_entry? (he : s.entry? j = some e) (hx : e.slot? slot = some x) (h : x.progress ≠ .done) :
    ∃ d, (s.doorDue j slot).entry? j = some d ∧ d.slot? slot = some { x with progress := .door } ∧ d.timer = none := by
  have hslot : (e.updSlot slot (EntrySlot.setTo .door)).slot? slot = some { x with progress := .door } := by
    rw [Entry.slot?_updSlot_same e slot _ (EntrySlot.setTo_slot _), hx]
    exact congrArg some (EntrySlot.setTo_left h _)
  have hany : (e.updSlot slot (EntrySlot.setTo .door)).anyDoor = true :=
    Entry.anyDoor_iff.mpr ⟨_, (Entry.slot?_slot hslot).2, rfl⟩
  refine ⟨(e.updSlot slot (EntrySlot.setTo .door)).restartLapse, ?_, hslot, if_pos hany⟩
  unfold State.doorDue
  rw [State.entry?_updEntry_same _ j Entry.restartLapse fun _ => rfl, State.setProgress_entry? he]
  rfl

/-- A refusal that frees the slot, with the deferred expiry it may bring (R118). -/
theorem State.slotRefused_spec (he : s.entry? j = some e) (hx : e.slot? slot = some x) (reason : Reason) :
    ∀ t, t = (s.refuseSlot j.ticket slot reason).slotDone j slot →
      Answered (.refuse (some j.ticket.number) (some slot.val) reason) j.ticket.station s t ∧ SlotFreed j slot e t
      ∧ (NoMarks e → Counted .refusal (some reason.pos) (s.carrierOf slot) s t
          ∧ UnchangedBut [.requests, .conditions, .counters, .transmit] s t)
      ∧ UnchangedBut [.records, .store, .requests, .conditions, .counters, .transmit, .free] s t
      ∧ (∀ r p, s.rec? slot = some r → r.state = .occupied p → p.purpose = .delivery → ExpiredNow p s →
          x.mark = true → (∀ d ∈ s.ort, d.job ≠ j → d.holds slot = false) →
          t.rec? slot = some { r with state := .occupied { p with purpose := .expired } }) := by
  rintro t rfl
  have hrefuse := frame_refuseSlot s j.ticket slot reason
  have hrefused : Refused j.ticket.station (some j.ticket.number) (some slot.val) reason (s.carrierOf slot) s
      (s.refuseSlot j.ticket slot reason) := Refused.refuse ..
  have heu := (hrefuse.entry? j).trans he
  have hdone := frame_slotDone (s.refuseSlot j.ticket slot reason) j slot
  refine ⟨hrefused.1.then_ hdone, .slotDone heu slot, fun hmarks => ?_, hrefuse.seq hdone, fun r p hr hp hd hexp hmark hothers => ?_⟩
  · have hquiet := frame_slotDone_noMarks (fun d hd => by rw [heu] at hd; cases hd; exact hmarks) slot
    exact ⟨hrefused.2.then_ hquiet, hrefuse.seq hquiet⟩
  · have hupd : UnchangedBut [.requests, .conditions, .counters, .transmit] s
        ((s.refuseSlot j.ticket slot reason).updEntry j (fun e => e.slotReleased slot)) := hrefuse.seq (frame_updEntry _ _ _)
    have hrelease : (s.refuseSlot j.ticket slot reason).releaseSlot j slot
        = ((s.refuseSlot j.ticket slot reason).updEntry j (fun e => e.slotReleased slot)).deferredExpiry slot := by
      rw [State.releaseSlot_eq, State.markOf_slot heu hx, hmark]
      rfl
    have hfree := State.updEntry_unheld (s := s.refuseSlot j.ticket slot reason) (f := fun e => e.slotReleased slot)
      (fun d => Entry.holds_slotReleased d slot) (by rw [hrefuse.ort]; exact hothers)
    have hexpired := State.deferredExpiry_due ((hupd.rec? slot).trans hr) hp hd ((ExpiredNow.congr hupd.clk).mpr hexp) hfree
    rw [← hrelease] at hexpired
    exact KeepsExpired.endIfDone _ j slot _ _ hexpired rfl rfl

end GoSlot

/-- Settles O37: the tests of the whole, and Table 10-3 slot by slot. -/
theorem collectGoJudgesItsSlots : Obligations.CollectGoJudgesItsSlots := by
  refine ⟨fun s f rest h hp => ⟨_, exec_collectGo_short h hp, Refused.taken s rest _ _ _ _ _⟩, ?_, ?_⟩
  · rintro s f rest g j h hg rfl
    have heq := exec_collectGo h hg
    refine ⟨fun hstale => ?_, fun e he hstage => ⟨fun hbad => ?_, fun hne hlen hall => ⟨fun hlevel => ?_, fun hlevel => ?_⟩⟩⟩
    · rw [State.takeCollectGo_stale (s := s.taken rest) hstale] at heq
      exact ⟨_, heq, Refused.taken s rest _ _ _ _ _⟩
    · rw [State.takeCollectGo_format (s := s.taken rest) he hstage (goodList_bad hbad)] at heq
      exact ⟨_, heq, Refused.taken s rest _ _ _ _ _⟩
    · rw [State.takeCollectGo_power (s := s.taken rest) he hstage (goodList_ne_false hne hlen hall) hlevel] at heq
      exact ⟨_, heq, Refused.taken s rest _ _ _ _ _⟩
    · rw [State.takeCollectGo_goes (s := s.taken rest) he hstage (goodList_ne_false hne hlen hall) hlevel] at heq
      refine ⟨_, _, heq, namedSlots_sorted _, fun i => mem_namedSlots, rfl, ?_, (frame_taken s rest).seq (frame_updEntry _ _ _)⟩
      have hfound : (s.taken rest).entry? (collectJob (f.ticket g.number)) = some e := he
      rw [State.entry?_updEntry_same (s.taken rest) _ Entry.restartLapse fun _ => rfl, hfound]
      rfl
  · intro s j slot e hj he
    refine ⟨fun hdone => ⟨_, State.goSlot_stale he hdone, Refused.refuse .., frame_refuseSlot s _ _ _⟩,
      fun x hx hdoor => State.goSlot_door he hx hdoor, fun x hx hmatched => ⟨fun reason hreason => ?_, fun r p hr hp hd hexp =>
        ⟨fun hdue => ?_, fun hdue hidle => ⟨fun hspan => ?_, fun hspan hqueue => ?_⟩⟩⟩⟩
    all_goals have hleft : x.progress ≠ .done := by rw [hmatched]; exact Progress.noConfusion
    · have heq := State.goSlot_matched he hx hmatched
      rw [State.goMatched_refused hreason] at heq
      exact ⟨_, heq, State.slotRefused_spec he hx reason _ rfl⟩
    · have heq := State.goSlot_matched he hx hmatched
      rw [State.goMatched_unpaid hr hp hd hexp hdue] at heq
      have hparcel := State.parcel?_occupied hr hp
      have hentry := State.refuseUnpaid_entry? hparcel (t := j.ticket) (e := e) (by rw [collectJob_ticket hj]; exact he)
      rw [collectJob_ticket hj] at hentry
      refine ⟨_, _, heq, hentry, rfl, rfl, ?_, State.refuseUnpaid_counter hparcel, fun hroom => ?_, State.refuseUnpaid_counted hparcel,
        frame_refuseUnpaid s j.ticket slot⟩
      · rw [Entry.slot?_updSlot_same e slot _ (EntrySlot.quoted_slot _), hx]
        exact congrArg some (EntrySlot.quoted_left hleft _)
      · have hnot : s.treatedExpired p s.clk.minute = false := by
          rw [← Bool.not_eq_true, State.treatedExpired_iff]
          exact hexp
        rw [State.refuseUnpaid_tx hparcel hroom, ← hnot]
        rfl
    · have heq := State.goSlot_matched he hx hmatched
      rw [State.goMatched_pass hr hp hd hexp hdue] at heq
      have hasked := frame_doorDue s j slot
      obtain ⟨hqueued, hframe⟩ := State.askDoor_queued (s := s.doorDue j slot)
        (q := { slot := slot, kind := .collect, job := j, ref := p.ref }) hidle hspan
      obtain ⟨d, hd', hslot, htimer⟩ := State.doorDue_entry? he hx hleft
      exact ⟨_, d, heq, hqueued, (hframe.entry? j).trans hd', hslot, htimer, hasked.seq hframe⟩
    · have heq := State.goSlot_matched he hx hmatched
      rw [State.goMatched_pass hr hp hd hexp hdue, State.askDoor_starts (s := s.doorDue j slot)
        (q := { slot := slot, kind := .collect, job := j, ref := p.ref }) hidle hqueue hspan] at heq
      have hasked := frame_doorDue s j slot
      have href : (s.doorDue j slot).parcelRef slot = p.ref :=
        (hasked.parcelRef slot).trans (State.parcelRef_parcel (State.parcel?_occupied hr hp))
      obtain ⟨hstarted, hchanged, hcounted, hframe⟩ := (State.startRequest_tried (s := s.doorDue j slot)
        (q := { slot := slot, kind := .collect, job := j, ref := p.ref }) hr (State.inCycle_of_idle hidle)).1 p hp
        (.inl ⟨rfl, hd, hexp, hdue⟩)
      dsimp only at hstarted
      rw [href] at hstarted
      obtain ⟨d, hd', hslot, htimer⟩ := State.doorDue_entry? he hx hleft
      exact ⟨_, d, heq, hstarted.after hasked, hchanged.after hasked, (hframe.entry? j).trans hd', hcounted.after hasked, hslot, htimer,
        hasked.seq hframe⟩

/-! ## SWEEP_GO (R146) -/

section Sweep

variable {s : State} {j : Job} {slot : Slot} {e : Entry} {x : EntrySlot} {r : CompRec} {p : Parcel} {named : List Slot}

/-- An entry without one of its slots. -/
def Entry.without (e : Entry) (slot : Slot) : Entry := { e with slots := e.slots.filter (fun x => x.slot != slot) }

theorem Entry.holds_without (e : Entry) (slot : Slot) : (e.without slot).holds slot = false := by
  unfold Entry.holds
  refine Bool.and_eq_false_imp.mpr fun _ => List.any_eq_false.mpr fun y hy => ?_
  have hne : y.slot ≠ slot := bne_iff_ne.mp (List.mem_filter.mp hy).2
  simp [hne]

theorem State.removeSlot_marked (h : s.markOf j slot = true) :
    s.removeSlot j slot = (s.updEntry j (fun e => e.without slot)).deferredExpiry slot := if_pos h

theorem State.removeSlot_unmarked (h : s.markOf j slot = false) : s.removeSlot j slot = s.updEntry j (fun e => e.without slot) :=
  if_neg (by rw [h]; exact Bool.false_ne_true)

theorem State.markOf_false (he : s.entry? j = some e) (h : ∀ x, e.slot? slot = some x → x.mark = false) : s.markOf j slot = false := by
  cases hx : e.slot? slot with
  | some x => rw [State.markOf_slot he hx, h x hx]
  | none =>
    unfold State.markOf
    rw [he]
    show (match e.slot? slot with | some x => x.mark | none => false) = false
    rw [hx]

theorem State.removeSlot_entry? (he : s.entry? j = some e) (slot : Slot) : (s.removeSlot j slot).entry? j = some (e.without slot) := by
  have hupd : (s.updEntry j (fun e => e.without slot)).entry? j = some (e.without slot) := by
    rw [State.entry?_updEntry_same s j (fun e => e.without slot) fun _ => rfl, he]
    rfl
  cases hmark : s.markOf j slot with
  | true => rw [State.removeSlot_marked hmark, (frame_deferredExpiry _ slot).entry?, hupd]
  | false => rw [State.removeSlot_unmarked hmark, hupd]

theorem State.removeSlot_expires (he : s.entry? j = some e) (hx : e.slot? slot = some x) (hmark : x.mark = true)
    (hr : s.rec? slot = some r) (hp : r.state = .occupied p) (hd : p.purpose = .delivery) (hexp : ExpiredNow p s)
    (hothers : ∀ d ∈ s.ort, d.job ≠ j → d.holds slot = false) :
    (s.removeSlot j slot).rec? slot = some { r with state := .occupied { p with purpose := .expired } } := by
  rw [State.removeSlot_marked ((State.markOf_slot he hx).trans hmark)]
  exact State.deferredExpiry_due (s := s.updEntry j (fun e => e.without slot)) hr hp hd hexp
    (State.updEntry_unheld (f := fun e => e.without slot) (fun d => Entry.holds_without d slot) hothers)

theorem State.sweepAccepts_iff {i : Slot} : s.sweepAccepts e i = true ↔ i ∈ e.slotList ∧ FoundForCarrier e.carrier i s := by
  unfold State.sweepAccepts
  rw [Bool.and_eq_true, List.contains_iff_mem, State.sweepMatch_iff]

/-- The column with the refused slots answered, before they are dropped. -/
def State.sweptRefused (s : State) (j : Job) : List Slot → State
  | [] => s
  | first :: _ => s.refuseSlot j.ticket first .state

theorem State.refuseSwept_eq (s : State) (j : Job) (refused : List Slot) :
    s.refuseSwept j refused = refused.foldl (State.dropSwept j) (s.sweptRefused j refused) := by
  cases refused <;> rfl

theorem State.judgeNamed_none (h : named.filter (s.sweepAccepts e) = []) : s.judgeNamed e named
    = ((named.filter (fun i => !s.sweepAccepts e i)).foldl (State.dropSwept e.job)
        (s.sweptRefused e.job (named.filter (fun i => !s.sweepAccepts e i)))).finishEntry e.job := by
  rw [← State.refuseSwept_eq]
  exact if_pos (List.isEmpty_iff.mpr h)

theorem State.judgeNamed_some (h : named.filter (s.sweepAccepts e) ≠ []) : s.judgeNamed e named
    = (named.filter (s.sweepAccepts e)).foldl (State.askSweep e.job) ((named.filter (fun i => !s.sweepAccepts e i)).foldl
        (State.dropSwept e.job) (s.sweptRefused e.job (named.filter (fun i => !s.sweepAccepts e i)))) := by
  rw [← State.refuseSwept_eq]
  exact if_neg fun hempty => h (List.isEmpty_iff.mp hempty)

/-- A sweep of a parcel that is still the carrier's passes the start check. -/
theorem FoundForCarrier.passes (he : s.entry? j = some e) (hr : s.rec? slot = some r) (hp : r.state = .occupied p)
    (hfound : FoundForCarrier e.carrier slot s) (ref : BitVec 64) :
    PassesStart { slot := slot, kind := .sweep, job := j, ref := ref } p s := by
  obtain ⟨r', q, hr', hstate, hcarrier, hkind⟩ := hfound
  cases hr.symm.trans hr'
  have hq : p = q := by
    rcases hstate with h | h
    · rw [hp] at h
      exact CompState.occupied.inj h
    · rw [hp] at h
      cases h
  subst hq
  exact .inr (.inl ⟨rfl, e, he, hcarrier, hkind⟩)

end Sweep

/-- Settles O39: the whole, the release of a slot, the judgment of the named ones, and a door asked for. -/
theorem sweepGoAsksForTheAcceptedDoors : Obligations.SweepGoAsksForTheAcceptedDoors := by
  refine ⟨fun s f rest h hp => ⟨_, exec_sweepGo_short h hp, Refused.taken s rest _ _ _ _ _⟩, ?_, fun s j slot e he => ?_,
    fun s e named => ?_, fun s j slot e x he hx hleft hidle => ?_⟩
  · rintro s f rest g j h hg rfl
    have heq := exec_sweepGo h hg
    refine ⟨fun hstale => ?_, fun e he hw hl => ?_, fun e he hl => ⟨fun hbad => ?_, fun hne hlen hall => ⟨fun hlevel => ?_, fun hlevel => ?_⟩⟩⟩
    · rw [State.takeSweepGo_stale (s := s.taken rest) hstale] at heq
      exact ⟨_, heq, Refused.taken s rest _ _ _ _ _⟩
    · rw [State.takeSweepGo_door (s := s.taken rest) he hw hl] at heq
      exact ⟨_, heq, .taken s rest⟩
    · rw [(State.takeSweepGo_listed (s := s.taken rest) he hl).trans (if_pos (goodList_bad hbad))] at heq
      exact ⟨_, heq, Refused.taken s rest _ _ _ _ _⟩
    · rw [(State.takeSweepGo_listed (s := s.taken rest) he hl).trans
        ((if_neg (goodList_ne_false hne hlen hall)).trans (if_pos hlevel))] at heq
      exact ⟨_, heq, Refused.taken s rest _ _ _ _ _⟩
    · rw [(State.takeSweepGo_listed (s := s.taken rest) he hl).trans
        ((if_neg (goodList_ne_false hne hlen hall)).trans (if_neg (Nat.not_le.mpr hlevel)))] at heq
      have hjob : e.job = sweepJob (f.ticket g.number) := (State.entry?_some he).2
      unfold State.goSweep State.releaseUnnamed at heq
      rw [hjob] at heq
      refine ⟨_, namedSlots g.slots, heq, namedSlots_sorted _, fun i => mem_namedSlots, rfl, ?_,
        (frame_taken s rest).seq (frame_updEntry _ _ _)⟩
      have hfound : (s.taken rest).entry? (sweepJob (f.ticket g.number)) = some e := he
      rw [State.entry?_updEntry_same (s.taken rest) _ (Entry.toStage .door none) fun _ => rfl, hfound]
      rfl
  · refine ⟨s.removeSlot j slot, rfl, State.removeSlot_entry? he slot, fun hmarks => ?_,
      fun x r p hx hmark hr hp hd hexp hothers => State.removeSlot_expires he hx hmark hr hp hd hexp hothers, (frame_removeSlot s j slot).wide⟩
    rw [State.removeSlot_unmarked (State.markOf_false he hmarks)]
    exact frame_updEntry s j _
  · refine ⟨s.sweptRefused e.job (named.filter (fun i => !s.sweepAccepts e i)), _, _, rfl, rfl, fun i => ?_, fun hnil => ?_,
      fun first more hcons => ?_, fun hnone => ?_, State.judgeNamed_some⟩
    · rw [List.mem_filter, State.sweepAccepts_iff]
    · rw [hnil]
      rfl
    · rw [hcons]
      exact ⟨Refused.refuse .., frame_refuseSlot s e.ticket first .state⟩
    · rw [State.judgeNamed_none hnone]
      exact ⟨rfl, State.entry?_finishEntry_same _ _⟩
  · have hset := frame_setProgress s j slot .door
    have hd := State.setProgress_entry? he slot .door
    have hslot : (e.updSlot slot (EntrySlot.setTo .door)).slot? slot = some { x with progress := .door } := by
      rw [Entry.slot?_updSlot_same e slot _ (EntrySlot.setTo_slot _), hx]
      exact congrArg some (EntrySlot.setTo_left hleft _)
    refine ⟨fun hspan => ?_, fun r p hspan hqueue hr hp hfound => ?_⟩
    · obtain ⟨hqueued, hframe⟩ := State.askDoor_queued (s := s.setProgress j slot .door)
        (q := { slot := slot, kind := .sweep, job := j, ref := s.parcelRef slot }) hidle hspan
      exact ⟨hqueued, ⟨_, (hframe.entry? j).trans hd, hslot⟩, hset.seq hframe⟩
    · have heq : s.askSweep j slot = (s.setProgress j slot .door).startRequest
          { slot := slot, kind := .sweep, job := j, ref := s.parcelRef slot } :=
        State.askDoor_starts (s := s.setProgress j slot .door)
          (q := { slot := slot, kind := .sweep, job := j, ref := s.parcelRef slot }) hidle hqueue hspan
      have href : (s.setProgress j slot .door).parcelRef slot = p.ref :=
        (hset.parcelRef slot).trans (State.parcelRef_parcel (State.parcel?_occupied hr hp))
      have hpass := FoundForCarrier.passes (s := s.setProgress j slot .door) hd hr hp hfound (s.parcelRef slot)
      obtain ⟨hstarted, hchanged, hcounted, hframe⟩ := (State.startRequest_tried (s := s.setProgress j slot .door)
        (q := { slot := slot, kind := .sweep, job := j, ref := s.parcelRef slot }) hr (State.inCycle_of_idle hidle)).1 p hp hpass
      dsimp only at hstarted
      rw [href] at hstarted
      rw [heq]
      exact ⟨hstarted.after hset, hchanged.after hset, ⟨_, (hframe.entry? j).trans hd, hslot⟩, hcounted.after hset, hset.seq hframe⟩

end Sys2Proof.Machine
end

