-- ==== Sys2Proof/Proofs/Payments.lean ====
section
/- One theorem after another: side by side, their proofs ask for more threads than the check's memory limit allows. -/
set_option Elab.async false

/-! SUPPORT and proof of O36: a PAY_NOTE refused, and a payment recorded (R128 to R130, R162). -/

namespace Sys2Proof.Machine

/-! ## A payload too short (R162) -/

theorem State.refuseShort_eq (f : RxFrame) (s : State) : s.refuseShort f = s.refuse f.station (number? f.payload) (byte? f.payload 2)
    .format (((byte? f.payload 2).map s.carrierAt).getD 0) := by
  unfold State.refuseShort
  cases byte? f.payload 2 <;> rfl

section Judged

variable {s : State} {f : RxFrame} {rest : List RxFrame} {d : PayFields}

theorem exec_payNote_short (h : Heads .payNote f rest s) (hp : f.payload.length < 8) :
    exec .payNote s = .next ((s.taken rest).refuse f.station (number? f.payload) (byte? f.payload 2) .format
      (((byte? f.payload 2).map s.carrierAt).getD 0)).conclude := by
  have hdecode : decodePayNote f.payload = none := if_neg (by omega)
  show Host.Outcome.next _ = _
  rw [h.takeHead]
  dsimp only
  rw [hdecode]
  dsimp only
  rw [State.refuseShort_eq]
  rfl

theorem exec_payNote (h : Heads .payNote f rest s) (hd : decodePayNote f.payload = some d) :
    exec .payNote s = .next ((s.taken rest).takePayment f d).conclude := by
  show Host.Outcome.next _ = _
  rw [h.takeHead]
  dsimp only
  rw [hd]

/-! ## The tests in order (R128) -/

theorem State.carrierAt_val (s : State) (slot : Slot) : s.carrierAt slot.val = s.carrierOf slot := by
  unfold State.carrierAt
  rw [slotOf_val]

theorem State.payTarget_none {t : Ticket} {n : Nat}
    (h : ∀ e slot, s.entry? (collectJob t) = some e → n = slot.val → e.holds slot = false) : s.payTarget t n = none := by
  unfold State.payTarget
  cases he : s.entry? (collectJob t) with
  | none => rfl
  | some e =>
    cases hn : slotOf n with
    | none => rfl
    | some slot =>
      have hval : n = slot.val := by
        unfold slotOf at hn
        split at hn <;> cases hn
        rfl
      exact if_neg (by simp [h e slot he hval])

theorem State.payTarget_some {t : Ticket} {e : Entry} {slot : Slot} (he : s.entry? (collectJob t) = some e)
    (hold : e.holds slot = true) : s.payTarget t slot.val = some slot := by
  unfold State.payTarget
  rw [he, slotOf_val]
  exact if_pos hold

theorem State.takePayment_stale (h : s.payTarget (f.ticket d.number) d.slot = none) :
    s.takePayment f d = s.refuse f.station (some d.number) (some d.slot) .stale (s.carrierAt d.slot) := by
  unfold State.takePayment
  rw [h]
  rfl

section Held

variable {slot : Slot} (h : s.payTarget (f.ticket d.number) d.slot = some slot)
include h

theorem State.takePayment_format (ha : d.amount = 0 ∨ 99999 < d.amount) :
    s.takePayment f d = s.refuse f.station (some d.number) (some d.slot) .format (s.carrierAt d.slot) := by
  unfold State.takePayment
  rw [h]
  exact if_pos ha

/-- An amount in range goes to the record of the slot. -/
theorem State.takePayment_inRange {r : CompRec} (hlo : 1 ≤ d.amount) (hhi : d.amount ≤ 99999) (hr : s.rec? slot = some r) :
    (r.state.payable? = none → s.takePayment f d = s.refuse f.station (some d.number) (some d.slot) .state (s.carrierAt d.slot))
    ∧ ∀ p, r.state.payable? = some p →
      s.takePayment f d = s.recordPayment (f.ticket d.number) slot r p d.quote d.amount := by
  have hrange : ¬(d.amount = 0 ∨ amountMax < d.amount) := by
    unfold amountMax
    omega
  unfold State.takePayment
  rw [h]
  dsimp only
  rw [if_neg hrange, hr]
  dsimp only
  refine ⟨fun hno => ?_, fun p hp => ?_⟩
  · rw [hno]
    rfl
  · rw [hp]

end Held

end Judged

theorem CompState.payable?_none {c : CompState} (h : ∀ p : Parcel, p.purpose = .delivery → c ≠ .occupied p ∧ c ≠ .releasing p) :
    c.payable? = none := by
  cases c with
  | occupied p => exact if_neg fun hd => (h p hd).1 rfl
  | releasing p => exact if_neg fun hd => (h p hd).2 rfl
  | empty | offered _ | held _ _ | fault _ _ | retired => rfl

theorem CompState.payable?_some {c : CompState} {p : Parcel} (hd : p.purpose = .delivery) (h : c = .occupied p ∨ c = .releasing p) :
    c.payable? = some p := by
  obtain rfl | rfl := h
  exacts [if_pos hd, if_pos hd]

/-! ## A payment recorded (R129, R130) -/

section Recorded

variable {s : State} {slot : Slot} {p : Parcel} {r : CompRec}

theorem CompState.withParcel_eq {c : CompState} (h : c = .occupied p ∨ c = .releasing p) (q : Parcel) :
    c.withParcel q = if c = .occupied p then .occupied q else .releasing q := by
  obtain rfl | rfl := h
  · exact (if_pos rfl).symm
  · exact (if_neg (fun h => nomatch h)).symm

/-- The due before payment: of the note's quote while it is valid, else as it stands now. -/
theorem State.dueBefore_eq {j : Job} {quote : BitVec 16} {before : Nat}
    (hvalid : ∀ q, s.currentQuote j slot = some q → q.number = quote → s.clk.minute < q.valid → before = q.due)
    (hnow : (∀ q, s.currentQuote j slot = some q → q.number = quote → ¬s.clk.minute < q.valid) →
      before = amountDue s.conf (s.size slot) p s.clk.minute) : s.dueBefore j slot p quote = before := by
  unfold State.dueBefore
  dsimp only
  cases hq : s.currentQuote j slot with
  | none => exact (hnow fun q hno => by rw [hq] at hno; cases hno).symm
  | some q =>
    dsimp only
    split
    · rename_i h
      obtain ⟨hnumber, hminute⟩ := h
      exact (hvalid q hq hnumber hminute).symm
    · rename_i h
      refine (hnow fun q' hq' hnumber hminute => h ?_).symm
      rw [hq] at hq'
      cases hq'
      exact ⟨hnumber, hminute⟩

theorem State.paidParcel_paid (s : State) (slot : Slot) (p : Parcel) (amount : Nat) :
    (s.paidParcel slot p amount).paid = min (p.paid + amount) 16777215 := by
  unfold State.paidParcel
  dsimp only
  split <;> rfl

theorem State.paidParcel_purpose (s : State) (slot : Slot) (p : Parcel) (amount : Nat) :
    (s.paidParcel slot p amount).purpose = p.purpose := by
  unfold State.paidParcel
  dsimp only
  split <;> rfl

/-- The settlement minute is set where the due without the grace is 0. -/
theorem State.paidParcel_settles (s : State) (slot : Slot) (p : Parcel) (amount : Nat) {q : Parcel} (hq : s.paidParcel slot p amount = q) :
    (amountDueNoGrace s.conf (s.size slot) { p with paid := q.paid } s.clk.minute = 0 →
        q = { p with paid := q.paid, settled := some s.clk.minute })
      ∧ (amountDueNoGrace s.conf (s.size slot) { p with paid := q.paid } s.clk.minute ≠ 0 → q = { p with paid := q.paid }) := by
  subst hq
  rw [State.paidParcel_paid]
  exact ⟨fun hdue => if_pos hdue, fun hdue => if_neg hdue⟩

/-- A payment changes neither the state nor the purpose of its compartment, so it gives no event. -/
theorem enterValue_withParcel {q : Parcel} (h : r.state = .occupied p ∨ r.state = .releasing p) (hd : p.purpose = .delivery)
    (hq : q.purpose = p.purpose) : enterValue r.state (r.state.withParcel q) = none := by
  obtain h | h := h <;> rw [h] <;> simp [enterValue, CompState.withParcel, CompState.tag, CompState.cause?, CompState.purpose?,
    CompState.parcel?, hq, hd]

theorem cause?_withParcel {q : Parcel} (h : r.state = .occupied p ∨ r.state = .releasing p) :
    (r.state.withParcel q).cause? = none := by
  obtain h | h := h <;> rw [h] <;> rfl

theorem CompRec.paid_ne {q : Parcel} (h : r.state = .occupied p ∨ r.state = .releasing p) (hq : q ≠ p) :
    r ≠ { r with state := r.state.withParcel q } := by
  intro heq
  have hstate : r.state = r.state.withParcel q := congrArg CompRec.state heq
  obtain h | h := h <;> rw [h] at hstate <;> cases hstate <;> exact hq rfl

/-- What a recorded payment does. -/
theorem State.recordPayment_spec {t : Ticket} {e : Entry} (hr : s.rec? slot = some r) (hp : r.state = .occupied p ∨ r.state = .releasing p)
    (hd : p.purpose = .delivery) (hroom : p.paid < 16777215) (he : s.entry? (collectJob t) = some e) {quote : BitVec 16} {amount before : Nat}
    (hamount : 1 ≤ amount) (hdue : s.dueBefore (collectJob t) slot p quote = before) {q : Parcel} (hq : s.paidParcel slot p amount = q) :
    Changed slot { r with state := (if r.state = .occupied p then .occupied q else .releasing q) }
        [.payment t (amount - before) s.clk.minute q] s (s.recordPayment t slot r p quote amount)
      ∧ (s.recordPayment t slot r p quote amount).entry? (collectJob t) = some e.restartLapse
      ∧ UnchangedBut [.records, .store, .requests, .free] s (s.recordPayment t slot r p quote amount) := by
  have hpaid : q.paid = min (p.paid + amount) 16777215 := hq ▸ State.paidParcel_paid s slot p amount
  have hne : q ≠ p := fun h => by rw [h] at hpaid; omega
  have hpurpose : q.purpose = p.purpose := hq ▸ State.paidParcel_purpose s slot p amount
  have heq : s.recordPayment t slot r p quote amount = ((s.change slot { r with state := r.state.withParcel q } 0).updEntry
      (collectJob t) Entry.restartLapse).await slot (.payment t (amount - before) s.clk.minute q) := by
    rw [← hdue, ← hq]
    rfl
  have hdiff : s.rec? slot ≠ some { r with state := r.state.withParcel q } := by
    rw [hr]
    exact fun h => CompRec.paid_ne hp hne (Option.some.inj h)
  have hchange := frame_change_eventless hr (new := { r with state := r.state.withParcel q }) (enterValue_withParcel hp hd hpurpose)
    (fun c hc => absurd ((cause?_withParcel hp).symm.trans hc) (by simp)) 0
  have hupd := frame_updEntry (s.change slot { r with state := r.state.withParcel q } 0) (collectJob t) Entry.restartLapse
  have hchanged := (Changed.change hr { r with state := r.state.withParcel q } 0).then_ hupd
  have hawait := frame_await_writing (hchanged.writing hdiff) (.payment t (amount - before) s.clk.minute q)
  rw [heq, ← CompState.withParcel_eq hp]
  refine ⟨hchanged.await hdiff _, ?_, (hchange.seq hupd (rs := [.records, .store, .requests, .free])).seq hawait⟩
  rw [hawait.entry?, State.entry?_updEntry_same _ _ Entry.restartLapse fun _ => rfl, hchange.entry?, he]
  rfl

end Recorded

/-- Settles O36: the tests in order, and the payment that passes them. -/
theorem payNoteRecordsThePayment : Obligations.PayNoteRecordsThePayment := by
  refine ⟨fun s f rest h hp => ⟨_, exec_payNote_short h hp, Refused.taken s rest _ _ _ _ _⟩, fun s f rest d h hd =>
    ⟨fun hstale => ?_, fun e slot he hslot hold => ?_⟩⟩
  · have hnone : (s.taken rest).payTarget (f.ticket d.number) d.slot = none := State.payTarget_none (s := s.taken rest) hstale
    refine ⟨_, (exec_payNote h hd).trans (congrArg (fun t => Host.Outcome.next (State.conclude t)) (State.takePayment_stale hnone)), ?_⟩
    exact Refused.taken s rest _ _ _ _ _
  · have htarget : (s.taken rest).payTarget (f.ticket d.number) d.slot = some slot := by
      rw [hslot]
      exact State.payTarget_some (s := s.taken rest) he hold
    have hcarrier : (s.taken rest).carrierAt d.slot = s.carrierOf slot := by
      rw [hslot]
      exact State.carrierAt_val (s.taken rest) slot
    refine ⟨fun ha => ?_, fun r hlo hhi hr => ⟨fun hno => ?_, fun p before hdel hp hroom hvalid hnow => ?_⟩⟩
    · refine ⟨_, (exec_payNote h hd).trans (congrArg (fun t => Host.Outcome.next (State.conclude t))
        (State.takePayment_format htarget ha)), ?_⟩
      rw [hcarrier]
      exact Refused.taken s rest _ _ _ _ _
    · obtain ⟨hrefused, -⟩ := State.takePayment_inRange htarget hlo hhi (r := r) hr
      refine ⟨_, (exec_payNote h hd).trans (congrArg (fun t => Host.Outcome.next (State.conclude t))
        (hrefused (CompState.payable?_none hno))), ?_⟩
      rw [hcarrier]
      exact Refused.taken s rest _ _ _ _ _
    · obtain ⟨-, hrecorded⟩ := State.takePayment_inRange htarget hlo hhi (r := r) hr
      obtain ⟨hchanged, hentry, hframe⟩ := State.recordPayment_spec (s := s.taken rest) hr hp hdel hroom he hlo
        (State.dueBefore_eq hvalid hnow) rfl
      obtain ⟨hzero, hdue⟩ := State.paidParcel_settles (s.taken rest) slot p d.amount rfl
      exact ⟨_, _, (exec_payNote h hd).trans (congrArg (fun t => Host.Outcome.next (State.conclude t))
          (hrecorded p (CompState.payable?_some hdel hp))), hframe.taken, State.paidParcel_paid _ _ _ _, hzero, hdue,
        hchanged.after (frame_taken s rest), hentry, (frame_taken s rest).seq hframe⟩

end Sys2Proof.Machine
end

