-- ==== Sys2Proof/Proofs/Lapses.lean ====
section
/- One theorem after another: side by side, their proofs ask for more threads than the check's memory limit allows. -/
set_option Elab.async false

/-! SUPPORT and proof of O32: the lapse of an entry by its stage (R88, R89, R101, R108). -/

namespace Sys2Proof.Machine

section Lapse

variable {s : State} {e : Entry}

theorem exec_entryLapse_idle (he : s.entry? e.job = some e) (h : e.timer = none ∨ e.ending = true) :
    exec (.entryLapse e.kind e.ticket) s = .next s := by
  show Host.Outcome.next (match s.entry? e.job with | none => s | some e => _) = _
  rw [he]
  exact congrArg Host.Outcome.next (if_neg (by obtain h | h := h <;> simp [h]))

theorem exec_entryLapse (he : s.entry? e.job = some e) (htimer : e.timer.isSome = true) (hending : e.ending = false) :
    exec (.entryLapse e.kind e.ticket) s = .next (s.lapse e).conclude := by
  show Host.Outcome.next (match s.entry? e.job with | none => s | some e => _) = _
  rw [he]
  exact congrArg Host.Outcome.next (if_pos (by simp [htimer, hending]))

/-! ## The lapse by stage (R88) -/

theorem State.lapse_finishes (h : e.stage = .matched ∨ e.stage = .listed ∨ e.stage = .waiting) : s.lapse e = s.finishEntry e.job := by
  unfold State.lapse
  obtain h | h | h := h <;> rw [h]

theorem State.lapse_promised {slot : Slot} (h : e.stage = .promised) (hslot : e.firstSlot? = some slot) :
    s.lapse e = (s.withdrawOffer e.ticket).endPromise e.ticket slot := by
  unfold State.lapse
  rw [h, hslot]

theorem State.lapse_held {slot : Slot} (h : e.stage = .held) (hslot : e.firstSlot? = some slot) :
    s.lapse e = s.endPromise e.ticket slot := by
  unfold State.lapse
  rw [h, hslot]

/-- The other entries stay in the table. -/
theorem State.mem_finishEntry {j : Job} {d : Entry} (hd : d ∈ s.ort) (hne : d.job ≠ j) : d ∈ (s.finishEntry j).ort := by
  rw [State.finishEntry_ort]
  exact List.mem_filter.mpr ⟨hd, by rw [Bool.not_eq_true', Bool.eq_false_iff, ne_eq, Entry.key_iff]; exact hne⟩

theorem frame_finishEntry_unmarked (he : s.entry? e.job = some e) (h : e.stage = .waiting ∨ NoMarks e) :
    UnchangedBut [.requests] s (s.finishEntry e.job) := by
  obtain h | h := h
  · rw [State.finishEntry_waiting he h]
    exact frame_dropEntry s _
  · exact frame_finishEntry_noMarks fun d hd => by
      rw [he] at hd
      cases hd
      exact h

end Lapse

/-- An offer that still stands after its withdrawal is being transmitted, and leaves at its end (R101). -/
theorem State.withdrawOffer_sending {s : State} {t : Ticket} {g : TxFrame} (hg : g ∈ (s.withdrawOffer t).liu.tx)
    (hoffer : g.isOfferFor t = true) : g.sending = true ∧ g.withdrawn = true := by
  obtain ⟨h, hmem, rfl⟩ := List.mem_map.mp hg
  obtain ⟨-, hkeep⟩ := List.mem_filter.mp hmem
  by_cases hh : h.isOfferFor t = true
  · rw [if_pos hh]
    exact ⟨by simpa [hh] using hkeep, rfl⟩
  · rw [if_neg hh] at hoffer
    exact absurd hoffer hh

theorem AlertsJoin.offers {s t : State} (h : AlertsJoin s t) {g : TxFrame} {tk : Ticket} (hg : g ∈ t.liu.tx) (hoffer : g.isOfferFor tk = true) :
    g ∈ s.liu.tx := by
  obtain hold | ⟨-, conds, slot, hbody⟩ := h g hg
  · exact hold
  · unfold TxFrame.isOfferFor at hoffer
    rw [hbody] at hoffer
    cases hoffer

/-- What follows an update of other parts releases the promise as it stood before. -/
theorem PromiseReleased.after {tk : Ticket} {slot : Slot} {ps : List Part} {s u t : State} (k : UnchangedBut ps s u)
    (h : PromiseReleased tk slot u t) (hr : Part.records ∉ ps := by decide) (hs : Part.store ∉ ps := by decide)
    (ho : Part.requests ∉ ps := by decide) (hn : Part.sensing ∉ ps := by decide) (hc : Part.conditions ∉ ps := by decide)
    (hx : Part.counters ∉ ps := by decide) (hg : Part.config ∉ ps := by decide) : PromiseReleased tk slot s t := by
  obtain ⟨hchanged, hentry, hothers, hraised, hquiet, hcounted⟩ := h
  have hsense := k.sense slot hn
  rw [hsense] at hchanged hraised hquiet
  exact ⟨hchanged.after k hr hs, hentry.trans (by rw [k.entry? _ ho]), fun j hj => (hothers j hj).trans (k.entry? j ho),
    fun hon => (hraised hon).after (.of_frame k hc), fun hoff => (hquiet hoff).trans (k.conds hc), hcounted.after k hg hx⟩

/-- The lapse of a promise leaves its compartment EMPTY and its offer, where one still stands, withdrawn. -/
theorem State.lapse_released {s : State} {e : Entry} {slot : Slot} {r : CompRec} (hr : s.rec? slot = some r)
    (hslot : e.firstSlot? = some slot)
    (h : (e.stage = .promised ∧ r.state = .offered e.ticket) ∨ (e.stage = .held ∧ r.state = .held e.ticket none)) :
    PromiseReleased e.ticket slot s (s.lapse e)
      ∧ (e.stage = .promised → ∀ g ∈ (s.lapse e).liu.tx, g.isOfferFor e.ticket = true → g.sending = true ∧ g.withdrawn = true)
      ∧ UnchangedBut answerParts s (s.lapse e) := by
  obtain ⟨hstage, hstate⟩ | ⟨hstage, hstate⟩ := h
  · have hwithdraw := frame_withdrawOffer s e.ticket
    have hreleased := State.endPromise_released (s := s.withdrawOffer e.ticket) hr (CompRec.promised_iff.mpr (.inl hstate))
    rw [State.lapse_promised hstage hslot]
    exact ⟨hreleased.after hwithdraw,
      fun _ g hg hoffer => State.withdrawOffer_sending ((AlertsJoin.endPromise _ _ _).offers hg hoffer) hoffer,
      hwithdraw.seq (frame_endPromise _ _ _)⟩
  · rw [State.lapse_held hstage hslot]
    exact ⟨State.endPromise_released hr (CompRec.promised_iff.mpr (.inr hstate)),
      fun hpromised => absurd (hstage.symm.trans hpromised) (by decide), frame_endPromise _ _ _⟩

/-- Settles O32: by stage. -/
theorem lapsesEndTheirEntries : Obligations.LapsesEndTheirEntries := by
  refine fun s e he => ⟨exec_entryLapse_idle he, fun htimer hending hstage => ⟨_, exec_entryLapse he htimer hending, ?_⟩,
    fun slot r htimer hending hkind hslot hr hstage => ⟨_, exec_entryLapse he htimer hending, ?_⟩⟩
  · rw [State.lapse_finishes hstage]
    exact ⟨State.entry?_finishEntry_same s e.job, fun d hd hne => State.mem_finishEntry hd hne, frame_finishEntry_unmarked he,
      (frame_finishEntry s e.job).wide⟩
  · have hjob : e.job = placeJob e.ticket := by
      unfold Entry.job placeJob
      rw [hkind]
    obtain ⟨⟨hchanged, hentry, -, hraised, -, hcounted⟩, hoffers, hframe⟩ := State.lapse_released hr hslot hstage
    rw [← hjob] at hchanged hentry
    rw [he] at hentry
    exact ⟨hchanged, hraised, hoffers, hentry, hcounted, hframe⟩

end Sys2Proof.Machine
end

