-- ==== Sys2Proof/Proofs/Details.lean ====
section
/- One theorem after another: side by side, their proofs ask for more threads than the check's memory limit allows. -/
set_option Elab.async false

/-! SUPPORT and proof of O31: a PLACE_DETAIL refused, ignored, or accepted (R2, R103 to R105, R162). -/

namespace Sys2Proof.Machine

section Judged

variable {s : State} {f : RxFrame} {rest : List RxFrame} {d : DetailFields} {e : Entry} {slot : Slot}

theorem exec_placeDetail_short (h : Heads .placeDetail f rest s) (hp : f.payload.length < 20) :
    exec .placeDetail s = .next ((s.taken rest).refuse f.station (number? f.payload) (byte? f.payload 2) .format
      (((byte? f.payload 2).map s.carrierAt).getD 0)).conclude := by
  have hdecode : decodePlaceDetail f.payload = none := if_neg (by omega)
  show Host.Outcome.next _ = _
  rw [h.takeHead]
  dsimp only
  rw [hdecode]
  dsimp only
  rw [State.refuseShort_eq]
  rfl

theorem exec_placeDetail (h : Heads .placeDetail f rest s) (hd : decodePlaceDetail f.payload = some d) :
    exec .placeDetail s = .next ((s.taken rest).takeDetail f d).conclude := by
  show Host.Outcome.next _ = _
  rw [h.takeHead]
  dsimp only
  rw [hd]

/-! ## The detail against its entry (Table 7-2) -/

theorem State.takeDetail_stale (h : ∀ e, s.entry? (placeJob (f.ticket d.number)) = some e →
    e.stage ≠ .door ∧ (e.stage = .held → ∃ slot, e.firstSlot? = some slot ∧ slot.val ≠ d.slot)) :
    s.takeDetail f d = s.refuse f.station (some d.number) (some d.slot) .stale (s.carrierAt d.slot) := by
  unfold State.takeDetail
  cases he : s.entry? (placeJob (f.ticket d.number)) with
  | none => rfl
  | some e =>
    obtain ⟨hdoor, hheld⟩ := h e he
    dsimp only
    cases hstage : e.stage with
    | door => exact absurd hstage hdoor
    | held =>
      obtain ⟨slot, hslot, hne⟩ := hheld hstage
      rw [hslot]
      exact if_neg (Ne.symm hne)
    | promised | matched | listed | waiting | immediate => rfl

theorem State.takeDetail_door (he : s.entry? (placeJob (f.ticket d.number)) = some e) (hstage : e.stage = .door) : s.takeDetail f d = s := by
  unfold State.takeDetail
  rw [he]
  dsimp only
  rw [hstage]

theorem State.takeDetail_held (he : s.entry? (placeJob (f.ticket d.number)) = some e) (hstage : e.stage = .held)
    (hslot : e.firstSlot? = some slot) (hd : d.slot = slot.val) : s.takeDetail f d = s.detailHeld f e slot d := by
  unfold State.takeDetail
  rw [he]
  dsimp only
  rw [hstage, hslot]
  exact if_pos hd

/-! ## A detail for a HELD entry (R104, R105) -/

section Held

variable {r : CompRec} (hr : s.rec? slot = some r)
include hr

theorem State.heldFor_promised {t : Ticket} (h : r.state = .held t none) : s.heldFor slot t = true := by
  unfold State.heldFor
  rw [hr]
  dsimp only
  rw [h]
  simp [CompState.tag, CompState.promise?]

theorem State.heldFor_other {t : Ticket} (h : ∀ p, r.state ≠ .held t p) : s.heldFor slot t = false := by
  unfold State.heldFor
  rw [hr]
  dsimp only
  cases hstate : r.state with
  | held u p =>
    have hne : u ≠ t := by
      rintro rfl
      exact h p hstate
    simp [CompState.promise?, hne]
  | empty | offered _ | occupied _ | releasing _ | fault _ _ | retired => rfl

theorem State.detailHeld_unpromised (hending : e.ending = false) (h : ∀ p, r.state ≠ .held e.ticket p) :
    s.detailHeld f e slot d
      = (s.refuse f.station (some d.number) (some d.slot) .stale (s.carrierAt d.slot)).finishEntry e.job := by
  unfold State.detailHeld
  rw [if_pos (State.heldFor_other hr h), if_neg (by simp [hending])]
  rfl

variable (h : r.state = .held e.ticket none)
include h

theorem State.detailHeld_format (hpurpose : e.purpose ≠ .carrierReturn) (hbad : 999999 < d.code ∨ 7 < d.tariff ∨ 99999 < d.cod) :
    s.detailHeld f e slot d = s.refuse f.station (some d.number) (some d.slot) .format (s.carrierAt d.slot) := by
  unfold State.detailHeld
  rw [if_neg (by simp [State.heldFor_promised hr h]), if_pos ⟨hpurpose, by simpa [DetailFields.malformed, or_assoc] using hbad⟩]
  rfl

theorem State.detailHeld_accepted (hgood : e.purpose = .carrierReturn ∨ (d.code ≤ 999999 ∧ d.tariff ≤ 7 ∧ d.cod ≤ 99999)) :
    s.detailHeld f e slot d = s.acceptDetail e slot d := by
  unfold State.detailHeld
  rw [if_neg (by simp [State.heldFor_promised hr h]), if_neg]
  rintro ⟨hpurpose, hbad⟩
  simp only [DetailFields.malformed, Bool.or_eq_true, decide_eq_true_eq] at hbad
  obtain hreturn | ⟨hcode, htariff, hcod⟩ := hgood
  · exact hpurpose hreturn
  · omega

/-- What an accepted detail does. -/
theorem State.acceptDetail_spec (he : s.entry? e.job = some e) :
    Changed slot { r with state := .held e.ticket (some (s.newParcel e d)) } [.detail e.ticket] s (s.acceptDetail e slot d)
      ∧ (s.acceptDetail e slot d).entry? e.job = some { e with stage := .door, timer := none, ref := d.ref }
      ∧ UnchangedBut [.records, .store, .requests, .free] s (s.acceptDetail e slot d) := by
  have hdiff : s.rec? slot ≠ some { r with state := .held e.ticket (some (s.newParcel e d)) } := by
    rw [hr]
    intro heq
    have hstate : r.state = .held e.ticket (some (s.newParcel e d)) := congrArg CompRec.state (Option.some.inj heq)
    rw [h] at hstate
    cases hstate
  have hevent : enterValue r.state (.held e.ticket (some (s.newParcel e d))) = none := by
    rw [h]
    rfl
  have hchange := frame_change_eventless hr (new := { r with state := .held e.ticket (some (s.newParcel e d)) }) hevent
    (fun c hc => nomatch hc) 0
  have hupd := frame_updEntry (s.change slot { r with state := .held e.ticket (some (s.newParcel e d)) } 0) e.job
    (fun e => { e with stage := .door, timer := none, ref := d.ref })
  have hchanged := (Changed.change hr { r with state := .held e.ticket (some (s.newParcel e d)) } 0).then_ hupd
  have hwriting := hchanged.writing hdiff
  have hawait := frame_await_writing hwriting (.detail e.ticket)
  have heq : s.acceptDetail e slot d = ((s.change slot { r with state := .held e.ticket (some (s.newParcel e d)) } 0).updEntry e.job
      (fun e => { e with stage := .door, timer := none, ref := d.ref })).await slot (.detail e.ticket) := by
    unfold State.acceptDetail
    rw [hr]
    dsimp only
    rw [State.attach_of_writing hwriting]
  rw [heq]
  refine ⟨hchanged.await hdiff _, ?_, (hchange.seq hupd (rs := [.records, .store, .requests, .free])).seq hawait⟩
  rw [hawait.entry?, State.entry?_updEntry_same _ _ (fun e => { e with stage := .door, timer := none, ref := d.ref }) fun _ => rfl,
    hchange.entry?, he]
  rfl

end Held

/-! ## The parcel record (R2, R104, R105) -/

theorem State.newParcel_common (s : State) (e : Entry) (d : DetailFields) : (s.newParcel e d).ref = d.ref
    ∧ (s.newParcel e d).carrier = e.carrier ∧ (s.newParcel e d).deposit = s.clk.minute ∧ (s.newParcel e d).paid = 0
    ∧ (s.newParcel e d).settled = none ∧ (s.newParcel e d).estimated = !s.clk.synced := by
  unfold State.newParcel
  cases e.purpose <;> exact ⟨rfl, rfl, rfl, rfl, rfl, rfl⟩

theorem State.newParcel_return (h : e.purpose = .carrierReturn) : (s.newParcel e d).purpose = .carrierReturn
    ∧ (s.newParcel e d).code = none ∧ (s.newParcel e d).limit = none ∧ (s.newParcel e d).tariff = 0 ∧ (s.newParcel e d).cod = 0 := by
  unfold State.newParcel
  rw [h]
  exact ⟨rfl, rfl, rfl, rfl, rfl⟩

theorem State.newParcel_delivery (h : e.purpose ≠ .carrierReturn) : (s.newParcel e d).purpose = .delivery
    ∧ (s.newParcel e d).code = some d.code ∧ (s.newParcel e d).tariff = d.tariff ∧ (s.newParcel e d).cod = d.cod
    ∧ (s.newParcel e d).limit = some (holdingLimit s.conf d.holding) := by
  unfold State.newParcel
  cases hp : e.purpose with
  | carrierReturn => exact absurd hp h
  | delivery | expired => exact ⟨rfl, rfl, rfl, rfl, rfl⟩

/-- The holding limit of R104, range by range. -/
theorem holdingLimit_ranges (m : ConfigFields) (request : Nat) : (request = 0 → holdingLimit m request = m.hdef)
    ∧ (1 ≤ request → request ≤ 59 → holdingLimit m request = 60) ∧ (60 ≤ request → holdingLimit m request = min request m.hmax) := by
  unfold holdingLimit
  refine ⟨fun h => if_pos h, fun hlo hhi => ?_, fun h => ?_⟩
  · rw [if_neg (by omega), if_pos (by omega)]
  · rw [if_neg (by omega), if_neg (by omega)]
    split <;> omega

end Judged

/-- Settles O31: the detail against its entry, its compartment and its fields. -/
theorem placeDetailMakesTheParcelRecord : Obligations.PlaceDetailMakesTheParcelRecord := by
  refine ⟨fun s f rest h hp => ⟨_, exec_placeDetail_short h hp, Refused.taken s rest _ _ _ _ _⟩, fun s f rest d h hd =>
    ⟨fun hstale => ?_, fun e he hstage => ?_, fun e slot r he hstage hslot hnamed hr => ?_⟩⟩
  · refine ⟨_, (exec_placeDetail h hd).trans (congrArg (fun t => Host.Outcome.next (State.conclude t))
      (State.takeDetail_stale (s := s.taken rest) hstale)), Refused.taken s rest _ _ _ _ _⟩
  · exact ⟨_, (exec_placeDetail h hd).trans (congrArg (fun t => Host.Outcome.next (State.conclude t))
      (State.takeDetail_door (s := s.taken rest) he hstage)), TakenInSilence.taken s rest⟩
  · obtain ⟨-, hjob⟩ := State.entry?_some he
    have hticket : e.ticket = f.ticket d.number := congrArg Job.ticket hjob
    have hrun (t : State) (heq : (s.taken rest).detailHeld f e slot d = t) : exec .placeDetail s = .next t.conclude :=
      (exec_placeDetail h hd).trans (congrArg (fun t => Host.Outcome.next (State.conclude t))
        ((State.takeDetail_held (s := s.taken rest) he hstage hslot hnamed).trans heq))
    rw [← hticket]
    refine ⟨fun hending hother => ?_, fun hstate hpurpose hbad => ?_, fun hstate hgood => ?_⟩
    · obtain ⟨hrx, hrefused, hframe⟩ := Refused.taken s rest f.station (some d.number) (some d.slot) .stale
        ((s.taken rest).carrierAt d.slot)
      obtain ⟨hanswered, -⟩ := hrefused
      have hfinish := frame_finishEntry
        ((s.taken rest).refuse f.station (some d.number) (some d.slot) .stale ((s.taken rest).carrierAt d.slot)) e.job
      have hplace : placeJob e.ticket = e.job := by rw [hjob, hticket]
      refine ⟨_, hrun _ (State.detailHeld_unpromised (s := s.taken rest) hr hending hother), hfinish.rx.trans hrx,
        hanswered.then_ hfinish, ?_, hframe.seq hfinish⟩
      rw [hplace]
      exact State.entry?_finishEntry_same _ _
    · have hcarrier : (s.taken rest).carrierAt d.slot = 0 := by
        rw [hnamed, State.carrierAt_val]
        unfold State.carrierOf
        rw [State.parcel?_rec (s := s.taken rest) hr, hstate]
        rfl
      refine ⟨_, hrun _ (State.detailHeld_format (s := s.taken rest) hr hstate hpurpose hbad), ?_⟩
      rw [hcarrier]
      exact Refused.taken s rest _ _ _ _ _
    · obtain ⟨hchanged, hentry, hframe⟩ := State.acceptDetail_spec (s := s.taken rest) (d := d) hr hstate (by rw [hjob]; exact he)
      obtain ⟨hzero, hshort, hlong⟩ := holdingLimit_ranges s.conf d.holding
      obtain ⟨href, hcarrier, hdeposit, hpaid, hsettled, hestimated⟩ := State.newParcel_common (s.taken rest) e d
      rw [hjob, ← hticket] at hentry
      refine ⟨_, _, hrun _ (State.detailHeld_accepted (s := s.taken rest) hr hstate hgood), hframe.taken,
        hchanged.after (frame_taken s rest), href, hcarrier, hdeposit, hpaid, hsettled, hestimated, State.newParcel_return,
        fun hpurpose => ?_, hentry, (frame_taken s rest).seq hframe⟩
      obtain ⟨hdelivery, hcode, htariff, hcod, hlimit⟩ := State.newParcel_delivery (s := s.taken rest) (d := d) hpurpose
      exact ⟨hdelivery, hcode, htariff, hcod, fun hh => hlimit.trans (congrArg some (hzero hh)),
        fun hlo hhi => hlimit.trans (congrArg some (hshort hlo hhi)), fun hh => hlimit.trans (congrArg some (hlong hh))⟩

end Sys2Proof.Machine
end

