-- ==== Sys2Proof/Proofs/Quotes.lean ====
section
/- One theorem after another: side by side, their proofs ask for more threads than the check's memory limit allows. -/
set_option Elab.async false

/-! SUPPORT and proof of O34: a quote's amount due stands until its valid-until minute (R122, R123, R125). -/

namespace Sys2Proof.Machine

/-! ## Within one begun step -/

theorem ceilDiv_eq_succ {a b q : Nat} (hlo : q * b < a) (hhi : a ≤ (q + 1) * b) : ceilDiv a b = q + 1 := by
  have hsucc : (q + 1) * b = q * b + b := Nat.succ_mul q b
  have htwo : (q + 1 + 1) * b = q * b + b + b := by rw [Nat.succ_mul, hsucc]
  exact Nat.div_eq_of_lt_le (by omega) (by omega)

section Step

variable {tf : Tariff} {mult b k : Nat}

/-- The minutes of one begun step of a day have the charge of the step's end; the last step of a day ends with the day. -/
theorem remainderCharge_stands {rem : Nat} (hstep : 0 < tf.step) (hr : rem % tf.step ≠ 0) (hk : k ≤ tf.step - rem % tf.step) :
    remainderCharge tf mult (rem + k) = remainderCharge tf mult rem
      ∧ (rem < dayMinutes → dayMinutes = rem + k → dayCharge tf mult = remainderCharge tf mult rem) := by
  have hsplit : rem / tf.step * tf.step + rem % tf.step = rem := Nat.div_add_mod' rem tf.step
  have hsucc : (rem / tf.step + 1) * tf.step = rem / tf.step * tf.step + tf.step := Nat.succ_mul _ _
  have hlt : rem % tf.step < tf.step := Nat.mod_lt _ hstep
  have hceil (a : Nat) (hlo : rem ≤ a) (hhi : a ≤ rem + k) : ceilDiv a tf.step = rem / tf.step + 1 :=
    ceilDiv_eq_succ (by omega) (by omega)
  refine ⟨?_, fun hday hend => ?_⟩
  · rw [remainderCharge_eq hstep, remainderCharge_eq hstep, hceil _ (by omega) (by omega), hceil rem (by omega) (by omega)]
  · rw [remainderCharge_eq hstep, dayCharge, hceil _ (by omega) (by omega), hceil rem (by omega) (by omega)]

/-- Up to the end of the begun step, and of its day, the storage charge stands. -/
theorem storageFor_stands (hstep : 0 < tf.step) (hb : 0 < b) (hr : b % dayMinutes % tf.step ≠ 0)
    (hk : k ≤ tf.step - b % dayMinutes % tf.step) (hday : k ≤ dayMinutes - b % dayMinutes) :
    storageFor tf mult (b + k) = storageFor tf mult b := by
  obtain ⟨hwithin, hfull⟩ := remainderCharge_stands (mult := mult) hstep hr hk
  have hlt : b % dayMinutes < dayMinutes := Nat.mod_lt _ (by decide)
  have hsplit : b / dayMinutes * dayMinutes + b % dayMinutes = b := Nat.div_add_mod' b dayMinutes
  rw [storageFor_pos _ (by omega), storageFor_pos _ hb]
  by_cases hend : dayMinutes = b % dayMinutes + k
  · have hdays : b + k = (b / dayMinutes + 1) * dayMinutes := by
      rw [Nat.succ_mul]
      omega
    rw [hdays, Nat.mul_div_cancel _ (by decide), Nat.mul_mod_left, ← hfull hlt hend, Nat.succ_mul]
    rfl
  · have hdays : (b + k) / dayMinutes = b / dayMinutes := by
      unfold dayMinutes at *
      omega
    have hrem : (b + k) % dayMinutes = b % dayMinutes + k := by
      unfold dayMinutes at *
      omega
    rw [hdays, hrem, hwithin]

/-- Before the minute R125 gives, without a grace, the storage charge is that of the quote's minute. -/
theorem storageFor_validFrom {p : Parcel} {minute later : Nat} (hstep : 0 < tf.step) (hle : minute ≤ later)
    (hlater : later < validFrom tf p minute minute) :
    storageFor tf mult (billable tf p later) = storageFor tf mult (billable tf p minute) := by
  unfold validFrom at hlater
  dsimp only at hlater
  split at hlater
  · rename_i hfree
    have hzero : billable tf p later = 0 := by
      rw [billable_eq]
      omega
    rw [hzero, hfree]
  · rename_i hb
    have hsum : billable tf p later = billable tf p minute + (later - minute) := by
      rw [billable_eq] at hb ⊢
      rw [billable_eq]
      omega
    rw [hsum]
    split at hlater
    · rw [show later - minute = 0 by omega, Nat.add_zero]
    · rename_i hr
      exact storageFor_stands hstep (by omega) hr (by omega) (by omega)

end Step

/-! ## The grace and the holding limit (R121, R125) -/

section Limit

variable {m : ConfigFields} {p : Parcel} {minute later : Nat}

/-- Below a minute reduced to the expiry minute, no minute is reduced. -/
theorem Parcel.capAtLimit_of_lt {v : Nat} (h : later < p.capAtLimit v) : later < v ∧ ∀ t ≤ later, p.capAtLimit t = t := by
  unfold Parcel.capAtLimit at *
  cases hlimit : p.limit with
  | none =>
    rw [hlimit] at h
    exact ⟨h, fun _ _ => rfl⟩
  | some hold =>
    rw [hlimit] at h
    obtain ⟨hv, hexpiry⟩ := Nat.lt_min.mp h
    exact ⟨hv, fun t ht => Nat.min_eq_left (by omega)⟩

theorem graceInForce_iff {t : Nat} : graceInForce m p t = true ↔ ∃ z, p.settled = some z ∧ t < z + m.grace := by
  unfold graceInForce
  cases p.settled <;> simp

/-- During a grace the charge minute stands at the settlement. -/
theorem chargeMinute_grace (hgrace : graceInForce m p minute = true) (hlater : later < validUntil m p minute) :
    chargeMinute m p later = chargeMinute m p minute := by
  obtain ⟨z, hz, -⟩ := graceInForce_iff.mp hgrace
  unfold validUntil at hlater
  rw [if_pos hgrace, hz, Option.getD_some] at hlater
  obtain ⟨hbefore, -⟩ := Parcel.capAtLimit_of_lt hlater
  unfold chargeMinute
  rw [if_pos hgrace, if_pos (graceInForce_iff.mpr ⟨z, hz, hbefore⟩), hz]
  rfl

/-- Without a grace the charge minute is the minute itself, up to the valid-until minute. -/
theorem chargeMinute_graceless (hle : minute ≤ later) (hgrace : ¬graceInForce m p minute = true) (hlater : later < validUntil m p minute) :
    chargeMinute m p minute = minute ∧ chargeMinute m p later = later ∧ later < validFrom (tariffOf m p) p minute minute := by
  have hnever : ¬graceInForce m p later = true := fun h => by
    obtain ⟨z, hz, hlt⟩ := graceInForce_iff.mp h
    exact hgrace (graceInForce_iff.mpr ⟨z, hz, by omega⟩)
  unfold validUntil at hlater
  rw [if_neg hgrace] at hlater
  obtain ⟨hbefore, hcap⟩ := Parcel.capAtLimit_of_lt hlater
  have hminute : chargeMinute m p minute = minute := by
    unfold chargeMinute
    rw [if_neg hgrace, hcap minute hle]
  refine ⟨hminute, ?_, by rwa [hminute] at hbefore⟩
  unfold chargeMinute
  rw [if_neg hnever, hcap later (Nat.le_refl _)]

end Limit

/-- Settles O34: in a grace the charge minute stands; without one the charge stands within the begun step. -/
theorem amountDueStandsUntilTheValidUntilMinute : Obligations.AmountDueStandsUntilTheValidUntilMinute := by
  intro m size p minute later hstep hle hlater
  unfold amountDue
  by_cases hgrace : graceInForce m p minute = true
  · rw [chargeMinute_grace hgrace hlater]
  · obtain ⟨hminute, hlate, hvalid⟩ := chargeMinute_graceless hle hgrace hlater
    have hstorage : storageAt m size p later = storageAt m size p minute := storageFor_validFrom hstep hle hvalid
    rw [hminute, hlate, dueAt, dueAt, hstorage]

end Sys2Proof.Machine
end

