-- ==== Sys2Proof/Proofs/Offers.lean ====
section
/- One theorem after another: side by side, their proofs ask for more threads than the check's memory limit allows. -/
set_option Elab.async false

/-! SUPPORT and proof of O30: a PLACE_CALL that stays silent, and the offer it makes (R81, R82, R92 to R96, R160). -/

namespace Sys2Proof.Machine

section Silent

variable {s : State} {f : RxFrame} {rest : List RxFrame} {c : CallFields}

theorem exec_placeCall_short (h : Heads .placeCall f rest s) (hp : f.payload.length < 5) :
    exec .placeCall s = .next ((s.taken rest).refusalEvent .format 0).conclude := by
  have hdecode : decodePlaceCall f.payload = none := if_neg (by omega)
  show Host.Outcome.next _ = _
  rw [h.takeHead]
  dsimp only
  rw [hdecode]

theorem CallFields.wellFormed_iff : c.wellFormed = true ↔ 1 ≤ c.size ∧ c.size ≤ 4 ∧ c.purpose ≤ 1 ∧ 1 ≤ c.carrier ∧ c.carrier ≤ 63 := by
  simp [CallFields.wellFormed, isCarrier, and_assoc]

theorem callEventCarrier_eq (n : Nat) : callEventCarrier n = if 1 ≤ n ∧ n ≤ 63 then n else 0 := by
  simp [callEventCarrier, isCarrier]

theorem exec_placeCall_malformed (h : Heads .placeCall f rest s) (hc : decodePlaceCall f.payload = some c) (hbad : ¬c.wellFormed = true) :
    exec .placeCall s = .next ((s.taken rest).refusalEvent .format (callEventCarrier c.carrier)).conclude := by
  show Host.Outcome.next _ = _
  rw [h.takeHead]
  dsimp only
  rw [hc]
  exact congrArg Host.Outcome.next (if_neg hbad)

theorem exec_placeCall (h : Heads .placeCall f rest s) (hc : decodePlaceCall f.payload = some c) (hgood : c.wellFormed = true) :
    exec .placeCall s = .next ((s.taken rest).takeCall f c).conclude := by
  show Host.Outcome.next _ = _
  rw [h.takeHead]
  dsimp only
  rw [hc]
  exact congrArg Host.Outcome.next (if_pos hgood)

/-! ## The conditions of R93 -/

theorem State.mayOffer_iff : s.mayOffer f = true ↔ s.liu.line = .active ∧ s.bgu.level ≤ 1 ∧ f.spoken = false := by
  simp [State.mayOffer, and_assoc]

theorem State.takeCall_silent (h : (s.entry? (placeJob (f.ticket c.number))).isSome = true ∨ s.liu.line ≠ .active ∨ 2 ≤ s.bgu.level
    ∨ f.spoken = true ∨ s.choose c.size = none) : s.takeCall f c = s := by
  unfold State.takeCall
  by_cases hrep : (s.entry? (placeJob (f.ticket c.number))).isSome = true
  · exact if_pos hrep
  by_cases hmay : s.mayOffer f = true
  · obtain ⟨hline, hlevel, hspoken⟩ := State.mayOffer_iff.mp hmay
    have hnone : s.choose c.size = none := by
      obtain h | h | h | h | h := h
      · exact absurd h hrep
      · exact absurd hline h
      · omega
      · rw [hspoken] at h
        cases h
      · exact h
    rw [if_neg hrep, if_neg (by simp [hmay]), hnone]
  · rw [if_neg hrep]
    exact if_pos (by simpa using hmay)

theorem State.takeCall_chosen {slot : Slot} (hnew : s.entry? (placeJob (f.ticket c.number)) = none) (hline : s.liu.line = .active)
    (hlevel : s.bgu.level ≤ 1) (hspoken : f.spoken = false) (hslot : s.choose c.size = some slot) :
    s.takeCall f c = if s.ortFull then s.refusalEvent .busy 0 else s.makeOffer (f.ticket c.number) slot c := by
  unfold State.takeCall
  rw [if_neg (by simp [hnew]), if_neg (by simp [State.mayOffer_iff.mpr ⟨hline, hlevel, hspoken⟩]), hslot]

end Silent

/-! ## A frame that finds no place (R160) -/

theorem placeIn_crowded {f : TxFrame} {q : List TxFrame} (hq : 8 ≤ q.length) (h : ∀ g ∈ q, g.body.cls < 2 ∨ g.sending = true) :
    (placeIn f q).queue = q := by
  by_cases hf : 2 ≤ f.body.cls ∧ f.sending = false
  · obtain ⟨i, g, ⟨hg, hd, -⟩, hplace⟩ := placeIn_full_some (f := f) hq ⟨f, List.mem_append_right _ (List.mem_singleton.mpr rfl), hf⟩
    obtain ⟨hlen, -⟩ := List.getElem?_eq_some_iff.mp hg
    rw [List.length_append, List.length_singleton] at hlen
    have hi : ¬i < q.length := fun hlt => by
      rw [List.getElem?_append_left hlt] at hg
      rw [TxFrame.discardable_eq_false (h g (List.mem_of_getElem? hg))] at hd
      cases hd
    have hlast : i = q.length := by omega
    rw [hplace, hlast]
    exact (List.eraseIdx_append_of_length_le (Nat.le_refl _) _).trans (by rw [Nat.sub_self]; exact List.append_nil q)
  · rw [placeIn_full_none hq fun g hg => ?_]
    rcases List.mem_append.mp hg with hg | hg
    · exact h g hg
    · rw [List.mem_singleton.mp hg]
      rw [not_and, Bool.not_eq_false] at hf
      by_cases hcls : f.body.cls < 2
      exacts [.inl hcls, .inr (hf (by omega))]

theorem State.raise_crowded {s : State} (hq : 8 ≤ s.liu.tx.length) (h : ∀ g ∈ s.liu.tx, g.body.cls < 2 ∨ g.sending = true)
    (c : Condition) (slot : Option Slot) : (s.raise c slot).liu.tx = s.liu.tx := by
  unfold State.raise State.alertIfRisen
  dsimp only
  split
  · have hplaced : ((s.mark c slot).setTx (placeIn (s.mark c slot).alertFrame (s.mark c slot).liu.tx).queue).liu.tx = s.liu.tx :=
      placeIn_crowded hq h
    split
    exacts [hplaced, hplaced]
  · rfl

theorem State.endPromise_crowded {s : State} {tk : Ticket} {slot : Slot} (hq : 8 ≤ s.liu.tx.length)
    (h : ∀ g ∈ s.liu.tx, g.body.cls < 2 ∨ g.sending = true) : (s.endPromise tk slot).liu.tx = s.liu.tx := by
  unfold State.endPromise
  split
  · split
    · have hchange : UnchangedBut [.records, .store, .counters, .free] s (s.change slot (CompRec.emptied (s.sense slot).presenceIsOn) 0) :=
        frame_change_causeless s slot 0 rfl
      rw [(frame_closePlace _ _ _).tx, State.emptyChecked_eq]
      split
      · rw [State.raise_crowded (by rw [hchange.tx]; exact hq) (by rw [hchange.tx]; exact h), hchange.tx]
      · exact hchange.tx
    · exact (frame_finishEntry s _).tx
  · exact (frame_finishEntry s _).tx

/-- The end of a promise touches its own entry alone. -/
theorem OnlyEntry.endPromise {s : State} {tk : Ticket} {slot : Slot} {r : CompRec} (hr : s.rec? slot = some r)
    (hp : r.promised tk = true) : OnlyEntry (placeJob tk) s (s.endPromise tk slot) := by
  have hne : s.rec? slot ≠ some (CompRec.emptied (s.sense slot).presenceIsOn) := by
    rw [hr]
    intro h
    cases h
    cases hp
  have hupd := frame_updEntry (s.emptyChecked slot) (placeJob tk) Entry.over
  have hwriting : Writing slot ((s.emptyChecked slot).updEntry (placeJob tk) Entry.over) :=
    ((Changed.emptyChecked hr).then_ hupd).writing hne
  have honly : OnlyEntry (placeJob tk) s (((s.emptyChecked slot).updEntry (placeJob tk) Entry.over).await slot (.endEntry (placeJob tk))) :=
    ((OnlyEntry.of_frame (frame_emptyChecked s slot)).trans (.updEntry _ _ (f := Entry.over) fun _ => rfl)).trans
      (.of_frame (frame_await_writing hwriting _))
  unfold State.endPromise
  rw [hr]
  dsimp only
  rw [if_pos hp]
  exact honly

/-! ## The promise (R96) -/

/-- The column with a call's entry and its compartment OFFERED, before the offer is queued. -/
def State.promisedTo (t : Ticket) (slot : Slot) (c : CallFields) (s : State) : State :=
  (s.addEntry (placeEntry t slot c)).change slot (CompRec.offeredTo t) c.carrier

section Promise

variable {s : State} {slot : Slot} {r : CompRec} (hr : s.rec? slot = some r) (t : Ticket) (c : CallFields)
include hr

theorem Changed.promisedTo : Changed slot (CompRec.offeredTo t) [] s (s.promisedTo t slot c) :=
  (Changed.change (s := s.addEntry (placeEntry t slot c)) hr _ _).after (frame_addEntry s _)

theorem frame_promisedTo : UnchangedBut [.records, .store, .requests, .counters, .free] s (s.promisedTo t slot c) :=
  (frame_addEntry s _).seq (frame_change_quiet (s := s.addEntry (placeEntry t slot c)) (new := CompRec.offeredTo t) hr
    (fun _ hc => nomatch hc) _)

theorem CountedAll.promisedTo (hempty : r.state = .empty) :
    CountedAll [(.enterState, some 1, c.carrier)] s (s.promisedTo t slot c) := by
  have hcount := CountedAll.change (s := s.addEntry (placeEntry t slot c)) hr (CompRec.offeredTo t) c.carrier
  rw [hempty] at hcount
  exact hcount.after (frame_addEntry s _)

theorem State.promisedTo_ort : (s.promisedTo t slot c).ort = s.ort ++ [placeEntry t slot c] :=
  (frame_change_quiet (s := s.addEntry (placeEntry t slot c)) (new := CompRec.offeredTo t) hr (fun _ hc => nomatch hc) _).ort

theorem Changed.promisedTo_writing (hempty : r.state = .empty) : ((s.promisedTo t slot c).store slot).writing ≠ none := by
  have hne : s.rec? slot ≠ some (CompRec.offeredTo t) := by
    rw [hr]
    rintro heq
    rw [Option.some.inj heq] at hempty
    cases hempty
  obtain ⟨-, -, -, hwrite⟩ := (Changed.promisedTo hr t c).written hne
  split at hwrite
  · obtain ⟨-, w, hw, -⟩ := hwrite
    simp [hw]
  · obtain ⟨hw, -⟩ := hwrite
    simp [hw]

end Promise

/-! ## The offer in the transmit queue (R96, R160) -/

section Offer

variable {s : State} {slot : Slot} {r : CompRec} (hr : s.rec? slot = some r) (t : Ticket) (c : CallFields)
include hr

theorem State.makeOffer_room (h : s.liu.tx.length < 8) : s.makeOffer t slot c
    = ((s.promisedTo t slot c).setTx (s.liu.tx ++ [s.offerFrame t slot c.size])).count .offerMade none c.carrier := by
  have htx : (s.promisedTo t slot c).liu.tx = s.liu.tx := (frame_promisedTo hr t c).tx
  have hplace : placeIn (s.offerFrame t slot c.size) (s.promisedTo t slot c).liu.tx
      = { queue := s.liu.tx ++ [s.offerFrame t slot c.size], discarded := false, placed := true } := by rw [htx, placeIn_room h]
  unfold State.promisedTo at hplace
  unfold State.makeOffer
  dsimp only
  rw [hplace]
  rfl

theorem State.makeOffer_discards (hq : 8 ≤ s.liu.tx.length) (h : ∃ g ∈ s.liu.tx, 2 ≤ g.body.cls ∧ g.sending = false) :
    s.offerFrame t slot c.size ∈ (placeIn (s.offerFrame t slot c.size) s.liu.tx).queue
      ∧ s.makeOffer t slot c = (((s.promisedTo t slot c).setTx (placeIn (s.offerFrame t slot c.size) s.liu.tx).queue).raise
          .txDiscard none).count .offerMade none c.carrier := by
  have htx : (s.promisedTo t slot c).liu.tx = s.liu.tx := (frame_promisedTo hr t c).tx
  obtain ⟨hdiscarded, hplaced, hmem⟩ := placeIn_full_kept (f := s.offerFrame t slot c.size) hq rfl h
  refine ⟨hmem, ?_⟩
  rw [← htx] at hdiscarded hplaced
  unfold State.promisedTo at hdiscarded hplaced htx
  unfold State.makeOffer
  dsimp only
  rw [hdiscarded, hplaced, htx]
  rfl

theorem State.makeOffer_placeless (hq : 8 ≤ s.liu.tx.length) (h : ∀ g ∈ s.liu.tx, g.body.cls < 2 ∨ g.sending = true) :
    s.makeOffer t slot c = (((s.promisedTo t slot c).setTx s.liu.tx).endPromise t slot).raise .txDiscard none := by
  have htx : (s.promisedTo t slot c).liu.tx = s.liu.tx := (frame_promisedTo hr t c).tx
  have hplace : placeIn (s.offerFrame t slot c.size) (s.promisedTo t slot c).liu.tx
      = { queue := s.liu.tx, discarded := false, placed := false } := by
    rw [htx, placeIn_full_none hq fun g hg => ?_]
    rcases List.mem_append.mp hg with hg | hg
    · exact h g hg
    · rw [List.mem_singleton.mp hg]
      exact .inl (by decide : 1 < 2)
  unfold State.promisedTo at hplace
  unfold State.makeOffer
  dsimp only
  rw [hplace]
  rfl

variable (hempty : r.state = .empty)
include hempty

/-- What an offer that finds its place does (R96). -/
theorem State.makeOffer_placed (h : s.liu.tx.length < 8 ∨ ∃ g ∈ s.liu.tx, 2 ≤ g.body.cls ∧ g.sending = false) :
    (s.makeOffer t slot c).ort = s.ort ++ [placeEntry t slot c]
      ∧ Changed slot (CompRec.offeredTo t) [] s (s.makeOffer t slot c)
      ∧ CountedAll [(.enterState, some 1, c.carrier), (.offerMade, none, c.carrier)] s (s.makeOffer t slot c)
      ∧ (s.liu.tx.length < 8 → (s.makeOffer t slot c).liu.tx = s.liu.tx ++ [s.offerFrame t slot c.size]
        ∧ UnchangedBut [.records, .store, .requests, .counters, .transmit, .free] s (s.makeOffer t slot c))
      ∧ (8 ≤ s.liu.tx.length → s.offerFrame t slot c.size ∈ (s.makeOffer t slot c).liu.tx
        ∧ (s.makeOffer t slot c).rpt.isSet .txDiscard = true)
      ∧ UnchangedBut [.records, .store, .requests, .conditions, .counters, .transmit, .free] s (s.makeOffer t slot c) := by
  have hframe := frame_promisedTo hr t c
  have hcounted := CountedAll.promisedTo hr t c hempty
  by_cases hroom : s.liu.tx.length < 8
  · have hset := frame_setTx (s.promisedTo t slot c) (s.liu.tx ++ [s.offerFrame t slot c.size])
    have hcount := frame_count ((s.promisedTo t slot c).setTx (s.liu.tx ++ [s.offerFrame t slot c.size])) .offerMade none c.carrier
    have hqueued := hframe.seq hset (rs := [.records, .store, .requests, .counters, .transmit, .free])
    have hall : UnchangedBut [.records, .store, .requests, .counters, .transmit, .free] s _ := hqueued.seq hcount
    rw [State.makeOffer_room hr t c hroom]
    exact ⟨(hcount.ort.trans hset.ort).trans (State.promisedTo_ort hr t c), ((Changed.promisedTo hr t c).then_ hset).then_ hcount,
      (hcounted.then_ hset).append (.count _ _ _ _) hqueued, fun _ => ⟨hcount.tx, hall⟩, fun hfull => absurd hroom (by omega), hall.wide⟩
  · obtain ⟨hmem, heq⟩ := State.makeOffer_discards hr t c (by omega) (h.resolve_left hroom)
    have hset := frame_setTx (s.promisedTo t slot c) (placeIn (s.offerFrame t slot c.size) s.liu.tx).queue
    have hraise := frame_raise ((s.promisedTo t slot c).setTx (placeIn (s.offerFrame t slot c.size) s.liu.tx).queue) .txDiscard none
    have hcount := frame_count (((s.promisedTo t slot c).setTx (placeIn (s.offerFrame t slot c.size) s.liu.tx).queue).raise
      .txDiscard none) .offerMade none c.carrier
    have hqueued := (hframe.seq hset (rs := [.records, .store, .requests, .counters, .transmit, .free])).seq hraise
      (rs := [.records, .store, .requests, .conditions, .counters, .transmit, .free])
    rw [heq]
    exact ⟨(hcount.ort.trans (hraise.ort.trans hset.ort)).trans (State.promisedTo_ort hr t c),
      (((Changed.promisedTo hr t c).then_ hset).then_ hraise).then_ hcount,
      ((hcounted.then_ hset).then_ hraise).append (.count _ _ _ _) hqueued, fun hlt => absurd hlt hroom,
      fun _ => ⟨hcount.tx ▸ State.mem_raise _ _ hmem rfl, (AtMostDiscard.of_frame hcount).kept _ (isSet_raise_same _ _ _)⟩,
      hqueued.seq hcount⟩

/-- What an offer without a place does: its promise ends as a loss (R160, entry 25). -/
theorem State.makeOffer_lost (hnew : s.entry? (placeJob t) = none) (hq : 8 ≤ s.liu.tx.length)
    (h : ∀ g ∈ s.liu.tx, g.body.cls < 2 ∨ g.sending = true) :
    (s.makeOffer t slot c).ort = s.ort ++ [(placeEntry t slot c).over]
      ∧ (s.makeOffer t slot c).liu.tx = s.liu.tx ∧ (s.makeOffer t slot c).rpt.isSet .txDiscard = true
      ∧ (s.makeOffer t slot c).rec? slot = some { state := .empty, foreign := (s.sense slot).presenceIsOn, lost := false }
      ∧ (∃ ws, ((s.makeOffer t slot c).store slot).again = some (ws ++ [.endEntry (placeJob t)]))
      ∧ CountedAll [(.enterState, some 1, c.carrier), (.enterState, some 0, 0)] s (s.makeOffer t slot c)
      ∧ UnchangedBut [.records, .store, .requests, .conditions, .counters, .transmit, .free] s (s.makeOffer t slot c) := by
  have hframe := frame_promisedTo hr t c
  have hset := frame_setTx (s.promisedTo t slot c) s.liu.tx
  have hqueued := hframe.seq hset (rs := [.records, .store, .requests, .counters, .transmit, .free])
  have hrec : ((s.promisedTo t slot c).setTx s.liu.tx).rec? slot = some (CompRec.offeredTo t) := (Changed.promisedTo hr t c).record
  have hwriting : (((s.promisedTo t slot c).setTx s.liu.tx).store slot).writing ≠ none := Changed.promisedTo_writing hr t c hempty
  have hort : ((s.promisedTo t slot c).setTx s.liu.tx).ort = s.ort ++ [placeEntry t slot c] := State.promisedTo_ort hr t c
  have hcounted : CountedAll _ s ((s.promisedTo t slot c).setTx s.liu.tx) := (CountedAll.promisedTo hr t c hempty).then_ hset
  have hsense : ((s.promisedTo t slot c).setTx s.liu.tx).sense slot = s.sense slot := hqueued.sense slot
  have htx : ((s.promisedTo t slot c).setTx s.liu.tx).liu.tx = s.liu.tx := rfl
  rw [State.makeOffer_placeless hr t c hq h]
  generalize (s.promisedTo t slot c).setTx s.liu.tx = u at hqueued hrec hwriting hort hcounted hsense htx
  obtain ⟨hchanged, hentry, -, -, -, hended⟩ := State.endPromise_released hrec (CompRec.promised_iff.mpr (.inl rfl))
  have hpromise := frame_endPromise u t slot
  have hraise := frame_raise (u.endPromise t slot) .txDiscard none
  have hkept := State.endPromise_crowded (s := u) (tk := t) (slot := slot) (by rw [htx]; exact hq) (by rw [htx]; exact h)
  have honly : OnlyEntry (placeJob t) u ((u.endPromise t slot).raise .txDiscard none) :=
    (OnlyEntry.endPromise hrec (CompRec.promised_iff.mpr (.inl rfl))).trans (.of_frame hraise)
  have hover : ((u.endPromise t slot).raise .txDiscard none).ort = s.ort ++ [(placeEntry t slot c).over] := by
    have hadded : OnlyEntry (placeJob t) (s.addEntry (placeEntry t slot c)) u := .of_ort hort
    obtain ⟨d, hd, hfound, -⟩ := (hadded.trans honly).added rfl hnew
    have hnewest : u.entry? (placeJob t) = some (placeEntry t slot c) := by
      have hfirst := State.entry?_addEntry_new s (placeJob t) (e := placeEntry t slot c) rfl hnew
      unfold State.entry? at hfirst ⊢
      rw [hort]
      exact hfirst
    rw [hraise.entry?, hentry, hnewest] at hfound
    rw [hd, ← Option.some.inj hfound]
  obtain ⟨-, -, -, hwrite⟩ := hchanged.written (by rw [hrec]; exact fun heq => nomatch heq)
  refine ⟨hover, (State.raise_crowded (by rw [hkept, htx]; exact hq) (by rw [hkept, htx]; exact h) _ _).trans (hkept.trans htx),
    isSet_raise_same _ _ _, ?_, ?_, ?_, ?_⟩
  · rw [hraise.rec?, hchanged.record, hsense]
  · rw [hraise.storeOf]
    split at hwrite
    · rename_i hnone
      exact absurd hnone hwriting
    · obtain ⟨-, hagain⟩ := hwrite
      exact ⟨_, hagain⟩
  · exact (hcounted.append hended hqueued).then_ hraise
  · exact (hqueued.seq hpromise (rs := [.records, .store, .requests, .conditions, .counters, .transmit, .free])).seq hraise

end Offer

theorem Candidate.empty {want : Nat} {slot : Slot} {s : State} (h : Candidate want slot s) :
    ∃ r, s.rec? slot = some r ∧ r.state = .empty := by
  obtain ⟨r, hr, hempty, -⟩ := h
  exact ⟨r, hr, hempty⟩

/-- The compartment chosen for a call is EMPTY. -/
theorem State.choose_empty {s : State} {want : Nat} {slot : Slot} (h : s.choose want = some slot) :
    ∃ r, s.rec? slot = some r ∧ r.state = .empty := by
  obtain ⟨hnone, -⟩ | ⟨z, hz, hcand, -⟩ := s.choose_cases want
  · rw [hnone] at h
    cases h
  · rw [hz] at h
    cases h
    exact hcand.empty

/-- A queue has a place for an offer, by room or by a candidate, or it has none. -/
theorem offerPlace_cases (q : List TxFrame) : (q.length < 8 ∨ ∃ g ∈ q, 2 ≤ g.body.cls ∧ g.sending = false)
    ∨ (8 ≤ q.length ∧ ∀ g ∈ q, g.body.cls < 2 ∨ g.sending = true) := by
  by_cases hroom : q.length < 8
  · exact .inl (.inl hroom)
  by_cases hcand : ∃ g ∈ q, 2 ≤ g.body.cls ∧ g.sending = false
  · exact .inl (.inr hcand)
  · refine .inr ⟨by omega, fun g hg => ?_⟩
    by_contra h
    rw [not_or, Bool.not_eq_true] at h
    obtain ⟨hcls, hsend⟩ := h
    exact hcand ⟨g, hg, by omega, hsend⟩

theorem no_offerPlace {q : List TxFrame} (h : q.length < 8 ∨ ∃ g ∈ q, 2 ≤ g.body.cls ∧ g.sending = false) (hq : 8 ≤ q.length) :
    ¬∀ g ∈ q, g.body.cls < 2 ∨ g.sending = true := fun hall => by
  obtain hroom | ⟨g, hg, hcls, hsend⟩ := h
  · omega
  · obtain hlow | hsending := hall g hg
    · omega
    · rw [hsend] at hsending
      cases hsending

/-- Settles O30: the call refused or silent, and its offer with and without a place. -/
theorem placeCallMakesAnOffer : Obligations.PlaceCallMakesAnOffer := by
  refine fun s f rest h => ⟨fun hp => ⟨_, exec_placeCall_short h hp, Counted.takenCall s rest _ _⟩, fun c hc => ⟨fun hbad => ?_,
    fun hlo hhi hpurpose hcarrier hcarriers => ?_⟩⟩
  · rw [← callEventCarrier_eq]
    refine ⟨_, exec_placeCall_malformed h hc ?_, Counted.takenCall s rest _ _⟩
    rw [CallFields.wellFormed_iff]
    omega
  · have hgood := CallFields.wellFormed_iff.mpr ⟨hlo, hhi, hpurpose, hcarrier, hcarriers⟩
    have hrun (t : State) (heq : (s.taken rest).takeCall f c = t) : exec .placeCall s = .next t.conclude :=
      (exec_placeCall h hc hgood).trans (congrArg (fun t => Host.Outcome.next (State.conclude t)) heq)
    refine ⟨fun hsilent => ⟨_, hrun _ (State.takeCall_silent (s := s.taken rest) hsilent), TakenInSilence.taken s rest⟩,
      fun slot hnew hline hlevel hspoken hslot => ?_⟩
    have hchosen := State.takeCall_chosen (s := s.taken rest) hnew hline hlevel hspoken hslot
    refine ⟨fun hfull => ?_, fun hroom => ?_⟩
    · have hort : (s.taken rest).ortFull = true := State.ortFull_iff.mpr hfull
      exact ⟨_, hrun _ (hchosen.trans (if_pos hort)), Counted.takenCall s rest _ _⟩
    · have hort : ¬(s.taken rest).ortFull = true := fun hfull => absurd (State.ortFull_iff.mp hfull) (Nat.not_le.mpr hroom)
      obtain ⟨r, hr, hempty⟩ := State.choose_empty hslot
      have htaken := frame_taken s rest
      have hoffer := hrun _ (hchosen.trans (if_neg hort))
      obtain hplace | ⟨hfull, hcrowded⟩ := offerPlace_cases s.liu.tx
      · obtain ⟨hadded, hchanged, hcounted, hrooms, hdiscards, hframe⟩ :=
          State.makeOffer_placed (s := s.taken rest) hr (f.ticket c.number) c hempty hplace
        exact ⟨_, placeEntry (f.ticket c.number) slot c, (s.taken rest).offerFrame (f.ticket c.number) slot c.size, hoffer, hframe.taken,
          hadded, rfl, rfl, rfl, rfl, rfl, rfl, fun _ => ⟨rfl, rfl, hchanged.after htaken, hcounted.after htaken,
            fun hlt => (hrooms hlt).imp_right fun hsmall => htaken.seq hsmall, hdiscards⟩, fun hq hall => absurd hall (no_offerPlace hplace hq),
          htaken.seq hframe⟩
      · obtain ⟨hadded, hkept, hset, hrec, hagain, hcounted, hframe⟩ :=
          State.makeOffer_lost (s := s.taken rest) hr (f.ticket c.number) c hempty hnew hfull hcrowded
        exact ⟨_, (placeEntry (f.ticket c.number) slot c).over, (s.taken rest).offerFrame (f.ticket c.number) slot c.size, hoffer,
          hframe.taken, hadded, rfl, rfl, rfl, rfl, rfl, rfl, fun hplace => absurd hcrowded (no_offerPlace hplace hfull),
          fun _ _ => ⟨rfl, rfl, hkept, hset, hrec, hagain, hcounted.after htaken⟩, htaken.seq hframe⟩

end Sys2Proof.Machine
end

