-- ==== Sys2Proof/Proofs/Steady.lean ====
section
/- One theorem after another: side by side, their proofs ask for more threads than the check's memory limit allows. -/
set_option Elab.async false

/-! SUPPORT. What almost every operation keeps: no parcel record arises or loses its fields (R3, R6, R131), and no driver turns on
(R70). -/

namespace Sys2Proof.Machine

/-- Every parcel record was there before, and so was every drive. -/
structure Steady (s t : State) : Prop where
  parcels : ParcelsKept s t
  drivers : ∀ slot n, tget t.bgu.drivers slot = some n → tget s.bgu.drivers slot = some n

namespace Steady

theorem refl (s : State) : Steady s s := ⟨.refl s, fun _ _ h => h⟩

theorem trans {s t u : State} (h : Steady s t) (k : Steady t u) : Steady s u :=
  ⟨h.parcels.trans k.parcels, fun slot n hn => h.drivers slot n (k.drivers slot n hn)⟩

theorem of_parcels {ps : List Part} {s t : State} (h : ParcelsKept s t) (k : UnchangedBut ps s t)
    (hd : Part.drivers ∉ ps := by decide) : Steady s t := by
  refine ⟨h, fun slot n hn => ?_⟩
  have hdrivers : t.bgu.drivers = s.bgu.drivers := k .drivers hd
  rwa [hdrivers] at hn

theorem of_frame {ps : List Part} {s t : State} (h : UnchangedBut ps s t) (hr : Part.records ∉ ps := by decide)
    (hd : Part.drivers ∉ ps := by decide) : Steady s t := .of_parcels (.of_records (h .records hr)) h hd

theorem of_follows {s t : State} (h : Follows s t) : Steady s t := .of_parcels h.parcels h.frame

theorem ite {p : Prop} [Decidable p] {s t u : State} (ht : Steady s t) (hu : Steady s u) : Steady s (if p then t else u) := by
  split
  exacts [ht, hu]

theorem foldl {α : Type} {f : State → α → State} (h : ∀ s x, Steady s (f s x)) (xs : List α) (s : State) : Steady s (xs.foldl f s) := by
  induction xs generalizing s with
  | nil => exact .refl s
  | cons x xs ih => exact (h s x).trans (ih _)

theorem conclude (s : State) : Steady s s.conclude := .of_follows (.conclude s)

theorem concluded {s t : State} (h : Steady s t) : Steady s t.conclude := h.trans (.conclude t)

theorem settle (n : Nat) (s : State) : Steady s (s.settle n) := .of_follows (.settle n s)

/-! ## Shared operations -/

theorem raise (s : State) (c : Condition) (slot : Option Slot) : Steady s (s.raise c slot) := .of_frame (frame_raise s c slot)

theorem answer (s : State) (d : BitVec 6) (b : Body) : Steady s (s.answer d b) := .of_frame (frame_answer s d b)

theorem count (s : State) (k : EventKind) (v : Option Nat) (c : Nat) : Steady s (s.count k v c) := .of_frame (frame_count s k v c)

theorem refuse (s : State) (d : BitVec 6) (n : Option (BitVec 16)) (slot : Option Nat) (r : Reason) (c : Nat) :
    Steady s (s.refuse d n slot r c) := .of_frame (frame_refuse s d n slot r c)

theorem refuseSlot (s : State) (t : Ticket) (slot : Slot) (r : Reason) : Steady s (s.refuseSlot t slot r) :=
  .of_frame (frame_refuseSlot s t slot r)

theorem refusalEvent (s : State) (r : Reason) (c : Nat) : Steady s (s.refusalEvent r c) := .of_frame (frame_refusalEvent s r c)

theorem setTx (s : State) (q : List TxFrame) : Steady s (s.setTx q) := .of_frame (frame_setTx s q)

theorem setLiu (s : State) (x : Liu) : Steady s (s.setLiu x) := .of_frame (frame_setLiu s x)

theorem setDsq (s : State) (x : Dsq) : Steady s (s.setDsq x) := .of_frame (frame_setDsq s x)

theorem setClk (s : State) (x : Clk) : Steady s (s.setClk x) := .of_frame (frame_setClk s x)

theorem setOwn (s : State) (o : OwnNote) : Steady s (s.setOwn o) := .of_frame (frame_setOwn s o)

theorem setFree (s : State) (n : Nat) : Steady s (s.setFree n) := .of_frame (frame_setFree s n)

theorem setSense (s : State) (slot : Slot) (x : Sense) : Steady s (s.setSense slot x) := .of_frame (frame_setSense s slot x)

theorem setStore (s : State) (slot : Slot) (x : SlotStore) : Steady s (s.setStore slot x) := .of_frame (frame_setStore s slot x)

theorem setPin (s : State) (slot : Slot) (f : Pins → Pins) : Steady s (s.setPin slot f) := .of_frame (frame_setPin s slot f)

theorem updEntry (s : State) (j : Job) (f : Entry → Entry) : Steady s (s.updEntry j f) := .of_frame (frame_updEntry s j f)

theorem addEntry (s : State) (e : Entry) : Steady s (s.addEntry e) := .of_frame (frame_addEntry s e)

theorem finishEntry (s : State) (j : Job) : Steady s (s.finishEntry j) := .of_follows (.finishEntry s j)

theorem setProgress (s : State) (j : Job) (slot : Slot) (p : Progress) : Steady s (s.setProgress j slot p) :=
  .of_frame (frame_setProgress s j slot p)

theorem setCycle (s : State) (c : Cycle) : Steady s (s.setCycle c) := .of_frame (frame_setCycle s c)

theorem endCycle (s : State) (c : Cycle) (o : Outcome) (v : Option Judgment) : Steady s (s.endCycle c o v) :=
  .of_follows (.endCycle s c o v)

theorem askDoor (s : State) (r : DoorRequest) : Steady s (s.askDoor r) := .of_follows (.askDoor s r)

theorem await (s : State) (slot : Slot) (w : Waiter) : Steady s (s.await slot w) := .of_follows (.await s slot w)

theorem beginWrite (s : State) (slot : Slot) (ws : List Waiter) (c : WriteCause) : Steady s (s.beginWrite slot ws c) :=
  .of_frame (frame_beginWrite s slot ws c)

theorem onCycle (s : State) (slot : Slot) (f : Cycle → Cycle) : Steady s (s.onCycle slot f) := .of_frame (frame_onCycle s slot f)

end Steady

/-! ## Changes of a record -/

theorem KeepsParcel.of_dropsOrKeeps {c d : CompState} (h : DropsOrKeeps c d) : KeepsParcel c d := by
  obtain h | h := h
  exacts [.of_none h, .of_eq h]

theorem Steady.change {s : State} {slot : Slot} {r : CompRec} (hr : s.rec? slot = some r) {new : CompRec}
    (h : KeepsParcel r.state new.state) (call : Nat) : Steady s (s.change slot new call) :=
  .of_follows (.change s slot new call fun old hold => by
    rw [hr] at hold
    cases hold
    exact h)

namespace Steady

theorem forceTable (s : State) (slot : Slot) : Steady s (s.forceTable slot) := by
  unfold State.forceTable
  split
  · exact .refl s
  · rename_i r hr
    exact .change hr (.of_dropsOrKeeps (forcedRec_dropsOrKeeps r)) 0

theorem flagCheck (s : State) (slot : Slot) (on : Bool) : Steady s (s.flagCheck slot on) := by
  unfold State.flagCheck
  split
  · exact .refl s
  · rename_i r hr
    have hchange : Steady s (s.change slot (presenceRec r on) 0) := .change hr (.of_dropsOrKeeps (presenceRec_dropsOrKeeps r on)) 0
    split
    · exact .refl s
    · dsimp only
      split
      exacts [hchange.trans (.raise _ _ _), hchange]

theorem endPromise (s : State) (t : Ticket) (slot : Slot) : Steady s (s.endPromise t slot) := by
  unfold State.endPromise
  split
  · split
    · exact (Steady.of_follows (.emptyChecked s slot)).trans ((Steady.updEntry _ _ _).trans (.await _ _ _))
    · exact .finishEntry s _
  · exact .finishEntry s _

theorem endOffer (s : State) (t : Ticket) : Steady s (s.endOffer t) := by
  unfold State.endOffer
  split
  · exact .refl s
  · split
    · exact .ite (.endPromise s _ _) (.refl s)
    · exact .refl s

theorem withdrawOffer (s : State) (t : Ticket) : Steady s (s.withdrawOffer t) := .of_frame (frame_withdrawOffer s t)

theorem changeLevel (s : State) (level : Nat) : Steady s (s.changeLevel level) := by
  have hoffers (u : State) : Steady u u.withdrawOffers := .foldl (fun s t => (Steady.withdrawOffer s t).trans (.endOffer _ t)) _ u
  have hlevel : Steady s (s.setBgu { s.bgu with level := level }).withdrawIfFull :=
    (Steady.of_frame (frame_setLevel s level)).trans (.of_frame (frame_withdrawIfFull _))
  unfold State.changeLevel
  dsimp only
  split
  · exact .refl s
  · exact (hlevel.trans (.ite (hoffers _) (.refl _))).trans (.of_frame (frame_refreshOutputs _))

theorem takeLevel (s : State) (level : Nat) : Steady s (s.takeLevel level) :=
  (Steady.changeLevel s level).trans (.of_frame (frame_setBasis _ _ _))

theorem fallBack (s : State) : Steady s s.fallBack := (Steady.changeLevel s _).trans (.of_frame (frame_setBasis _ _ _))

/-! ## Door cycles -/

theorem forceQueued (s : State) (r : DoorRequest) : Steady s (s.forceQueued r) :=
  (Steady.setDsq s _).trans (.of_follows (.returnOutcome _ _ _))

theorem forceCycle (s : State) (c : Cycle) : Steady s (s.forceCycle c) := by
  unfold State.forceCycle
  split
  · exact (Steady.setCycle s _).trans (.of_frame (frame_setLamp _ _ _))
  · exact .endCycle s _ _ _
  · exact .refl s

theorem forcedReport (s : State) (slot : Slot) : Steady s (s.forcedReport slot) := by
  unfold State.forcedReport
  split
  · exact .forceQueued s _
  · split
    · exact .forceCycle s _
    · exact .forceTable s slot

theorem failAttempt (s : State) (c : Cycle) (f : AttemptFailure) : Steady s (s.failAttempt c f) := by
  unfold State.failAttempt
  dsimp only
  split
  · exact .endCycle s _ _ _
  · exact .of_frame (frame_enterPulseWait s _)

theorem driverOffStage (s : State) (c : Cycle) : Steady s (s.driverOffStage c) := by
  unfold State.driverOffStage
  dsimp only
  split
  · exact .setCycle s _
  · split
    · exact .setCycle s _
    · split
      · exact .setCycle s _
      · exact .failAttempt s _ _

theorem reportDriverOff (s : State) (slot : Slot) : Steady s (s.reportDriverOff slot) := by
  unfold State.reportDriverOff
  split
  · exact .ite (.driverOffStage s _) (.refl s)
  · exact .refl s

theorem limitReached (s : State) (c : Cycle) : Steady s (s.limitReached c) := by
  unfold State.limitReached
  exact .ite (.endCycle s _ _ _) (.setCycle s _)

/-! ## Sensors -/

theorem countStep (s : State) (slot : Slot) (up : Bool) : Steady s (s.countStep slot up) := by
  rw [State.countStep_eq]
  exact (Steady.of_frame (frame_stepTaken s slot up)).trans (.ite (.forcedReport _ _) (.refl _))

theorem takeEdge (s : State) (slot : Slot) (gate : Gate) (now : Bool × Bool) : Steady s (s.takeEdge slot gate now) := by
  have hgates : Steady s (s.takeGates slot now) := .of_frame (frame_takeGates s slot now)
  unfold State.takeEdge
  dsimp only
  split
  · exact hgates.trans (.countStep _ _ _)
  · exact hgates

/-! ## The ends of writes (R15 to R17) -/

theorem release (s : State) (slot : Slot) (w : Waiter) : Steady s (s.release slot w) := by
  have hanswer : Steady s (s.releaseAnswer slot w) := .of_follows (.releaseAnswer s slot w)
  cases w with
  | cycleStart =>
    show Steady s (s.releaseStart slot)
    unfold State.releaseStart
    split
    · exact .refl s
    · split
      · exact .refl s
      · exact .ite (.endCycle s _ _ _) (.ite (.endCycle s _ _ _) (.of_frame (frame_enterPulseWait s _)))
  | detail t =>
    show Steady s (s.releaseDetail t slot)
    unfold State.releaseDetail
    exact .ite (.askDoor s _) (.of_follows (.placeDone s _ _ _))
  | placeDone | releaseDone | serviceDone | payment | endEntry => exact hanswer

theorem releaseAll (s : State) (slot : Slot) (ws : List Waiter) : Steady s (s.releaseAll slot ws) :=
  .foldl (fun s w => (Steady.release s slot w).trans (.settle _ _)) _ _

theorem writeAgain (s : State) (slot : Slot) : Steady s (s.writeAgain slot) := by
  unfold State.writeAgain
  split
  · exact .beginWrite s _ _ _
  · exact .refl s

theorem tearTarget (s : State) (slot : Slot) (w : RecWrite) : Steady s (s.tearTarget slot w) := .of_frame (frame_tearTarget s slot w)

theorem storeFault (s : State) (slot : Slot) : Steady s (s.storeFault slot) := by
  unfold State.storeFault
  split
  · exact .refl s
  · rename_i r hr
    have hrec : Steady s (s.setRec slot (r.faulted .store r.state.parcel?)) := .of_follows (.setRec s slot _ r hr (.of_eq rfl))
    exact (hrec.trans (.of_frame (frame_enterEvent _ _ _ _))).trans (.raise _ _ _)

theorem writeEnded (s : State) (slot : Slot) (w : RecWrite) (matched : Bool) : Steady s (s.writeEnded slot w matched) := by
  unfold State.writeEnded
  split
  · exact ((Steady.setStore s slot _).trans (.writeAgain _ _)).trans (.releaseAll _ _ _)
  · split
    · exact .setStore s slot _
    · split
      · exact ((Steady.tearTarget s slot w).trans (.writeAgain _ _)).trans (.releaseAll _ _ _)
      · exact (((Steady.tearTarget s slot w).trans (.storeFault _ _)).trans (.beginWrite _ _ _ _)).trans (.releaseAll _ _ _)

theorem scanSlot (s : State) (slot : Slot) : Steady s (s.scanSlot slot) := by
  unfold State.scanSlot
  split
  · exact .refl s
  · split
    · split
      · split
        exacts [.updEntry s _ _, .of_follows (.expire s slot)]
      · exact .refl s
    · exact .refl s

theorem takeMinute (s : State) (w : MinuteWrite) : Steady s (s.takeMinute w) :=
  (Steady.setClk s { s.clk with minute := w.value }).trans (.ite (.foldl Steady.scanSlot _ _) (.refl _))

end Steady

end Sys2Proof.Machine
end

