-- ==== Sys2Proof/Proofs/SteadyLine.lean ====
section
/- One theorem after another: side by side, their proofs ask for more threads than the check's memory limit allows. -/
set_option Elab.async false

/-! SUPPORT. That the line, but for the column's own notes, and the requests, but for PLACE_DETAIL, keep the parcel records and turn
no driver on (R3, R70). -/

namespace Sys2Proof.Machine

/-- A payment adds to the paid total, and leaves the record's other fields but for the settlement it may set. -/
theorem State.paidParcel_same (s : State) (slot : Slot) (p : Parcel) (amount : Nat) :
    SameParcel p (s.paidParcel slot p amount) := by
  have hpaid : min p.paid 16777215 ≤ min (p.paid + amount) 16777215 := by omega
  unfold State.paidParcel
  dsimp only
  split
  · exact ⟨rfl, rfl, rfl, rfl, rfl, rfl, rfl, rfl, hpaid, .inl rfl, fun _ => rfl⟩
  · exact ⟨rfl, rfl, rfl, rfl, rfl, rfl, rfl, rfl, hpaid, .inl rfl, id⟩

namespace Steady

/-! ## The column's own transmission -/

theorem setDrive (s : State) (d : EndDrive) : Steady s (s.setDrive d) := .of_frame (frame_setDrive s d)

theorem keepOrRemove (s : State) (f : TxFrame) : Steady s (s.keepOrRemove f) := by
  unfold State.keepOrRemove
  exact .ite (.setTx s _) (.ite ((Steady.setTx s _).trans (.setOwn _ _)) (.setTx s _))

theorem yieldLine (s : State) : Steady s s.yieldLine := by
  unfold State.yieldLine
  split
  · exact .refl s
  · exact (Steady.keepOrRemove s _).trans (.setLiu _ _)

theorem tellOwner (s : State) (f : TxFrame) : Steady s (s.tellOwner f) := by
  unfold State.tellOwner
  split
  · exact .of_frame (frame_noteLost s)
  · exact .endOffer s _
  · exact .refl s

theorem enterQuiet (s : State) : Steady s s.enterQuiet :=
  ((Steady.setLiu s { s.liu with line := .quiet, timer := 0, tx := [], drops := 0 }).trans (.foldl Steady.tellOwner _ _)).trans
    (.setOwn _ _)

theorem dropFrame (s : State) (f : TxFrame) : Steady s (s.dropFrame f) := by
  have htold : Steady s ((s.dropSending.raise .lineDrop none).countDrop.tellOwner f) :=
    ((Steady.of_frame (frame_dropSending s)).trans (.raise _ _ _)).trans ((Steady.of_frame (frame_countDrop _)).trans (.tellOwner _ f))
  unfold State.dropFrame
  dsimp only
  exact (htold.trans (.setLiu _ _)).trans (.ite (.enterQuiet _) (.refl _))

theorem countErrors (s : State) (x : Liu) (n : Nat) : Steady s ((s.setLiu x).lineError n) :=
  (Steady.setLiu s x).trans (.of_frame (frame_lineError n _))

theorem failSending (s : State) (f : TxFrame) : Steady s (s.failSending f) := by
  have hcounted : Steady s (s.mapSending fun x => { x with retries := x.retries + 1 }).silent.countFailure :=
    (Steady.of_frame (frame_mapSending s _)).trans ((Steady.of_frame (frame_silent _)).trans (.countErrors _ _ _))
  unfold State.failSending
  dsimp only
  exact hcounted.trans (.ite (.dropFrame _ f) (.keepOrRemove _ f))

theorem succeed (s : State) (f : TxFrame) : Steady s (s.succeed f) := by
  unfold State.succeed
  dsimp only
  have hbefore := Steady.of_frame (frame_succeed_before s)
  split
  · exact hbefore.trans (.of_frame (frame_writeCauses _ _))
  · exact hbefore.trans (.ite (.setLiu _ _) (.refl _))

theorem succeedSending (s : State) : Steady s s.succeedSending := by
  unfold State.succeedSending
  split
  · exact .refl s
  · exact .succeed s _

theorem startSending (s : State) : Steady s s.startSending := by
  unfold State.startSending
  split
  · exact .refl s
  · split
    · exact .refl s
    · exact (Steady.setLiu s _).trans (.setFree _ _)

/-! ## Offers and frames of other stations -/

theorem award (s : State) (t : Ticket) (slot : Slot) : Steady s (s.award t slot) := by
  unfold State.award
  split
  · exact .finishEntry s _
  · rename_i r hr
    split
    · exact ((Steady.change hr (.of_none rfl) _).trans (.updEntry _ _ _)).trans (.count _ _ _ _)
    · exact .finishEntry s _

theorem ownOffer (s : State) (t : Ticket) : Steady s (s.ownOffer t) := by
  unfold State.ownOffer
  split
  · exact .refl s
  · split
    · exact .refl s
    · exact .ite (.award s t _) (.refl s)

theorem otherOffer (s : State) (t : Ticket) : Steady s (s.otherOffer t) := by
  unfold State.otherOffer
  split
  · exact .of_frame (frame_markSpoken s t)
  · split
    · exact .refl s
    · exact .ite ((Steady.withdrawOffer s t).trans (.endPromise _ t _)) (.refl s)

theorem deliver (s : State) (k : LineKind) (f : Frame) : Steady s (s.deliver k f) := by
  unfold State.deliver
  split
  · split
    exacts [.of_frame (frame_judgeOther s _ _), .refl s]
  · split
    exacts [.takeLevel s _, .refl s]
  · split
    exacts [.otherOffer s _, .refl s]
  · exact .refl s
  · exact .ite (.setLiu s _) (.raise s _ _)

theorem accept (s : State) (f : Frame) : Steady s (s.accept f) := by
  unfold State.accept
  split
  · exact .refl s
  · exact .countErrors s _ _
  · exact .deliver s _ f

theorem void (s : State) : Steady s s.void := (Steady.setDrive s .void).trans (.countErrors _ _ _)

/-! ## Placement -/

theorem createEntry (s : State) (e : Entry) (slots : List Slot) {active : State → State} (h : ∀ u, Steady u (active u)) :
    Steady s (s.createEntry e slots active) := by
  unfold State.createEntry
  exact .ite (.addEntry s _) ((Steady.addEntry s e).trans (h _))

theorem makeOffer {s : State} {slot : Slot} {r : CompRec} (hr : s.rec? slot = some r) (t : Ticket) (c : CallFields) :
    Steady s (s.makeOffer t slot c) := by
  have hpromised : Steady s (s.promisedTo t slot c) := 
    (Steady.addEntry s (placeEntry t slot c)).trans (.change (s := s.addEntry _) hr (new := CompRec.offeredTo t) (.of_none rfl) _)
  have hqueued := hpromised.trans (.setTx _ (placeIn (s.offerFrame t slot c.size) (s.promisedTo t slot c).liu.tx).queue)
  unfold State.makeOffer
  dsimp only
  split
  · exact hqueued.trans ((Steady.ite (.raise _ _ _) (.refl _)).trans (.count _ _ _ _))
  · exact hqueued.trans ((Steady.endPromise _ t slot).trans (.raise _ _ _))

theorem takeCall (s : State) (f : RxFrame) (c : CallFields) : Steady s (s.takeCall f c) := by
  unfold State.takeCall
  split
  · exact .refl s
  · split
    · exact .refl s
    · split
      · exact .refl s
      · rename_i slot hslot
        obtain ⟨r, hr, -⟩ := State.choose_empty hslot
        exact .ite (.refusalEvent s _ _) (.makeOffer hr _ c)

theorem lapse (s : State) (e : Entry) : Steady s (s.lapse e) := by
  unfold State.lapse
  split
  · exact (Steady.withdrawOffer s _).trans (.endPromise _ _ _)
  · exact .endPromise s _ _
  · exact .finishEntry s _
  · exact .finishEntry s _
  · exact .finishEntry s _
  · exact .finishEntry s _
  · exact .finishEntry s _
  · exact .refl s
  · exact .refl s

/-! ## Collection and payment -/

theorem searchCode (s : State) (t : Ticket) (code : Nat) : Steady s (s.searchCode t code) := by
  unfold State.searchCode
  split
  · exact .ite (.refuse s _ _ _ _ _) (.createEntry s _ _ fun u => .of_follows (.activateCollect u _ _))
  · split
    · exact .refuseSlot s _ _ _
    · exact .refl s

theorem recordPayment {s : State} {slot : Slot} {r : CompRec} {p : Parcel} (hr : s.rec? slot = some r) (hp : r.state.payable? = some p)
    (t : Ticket) (quote : BitVec 16) (amount : Nat) : Steady s (s.recordPayment t slot r p quote amount) := by
  have hkeep : KeepsParcel r.state (r.state.withParcel (s.paidParcel slot p amount)) := fun q hq => by
    rw [CompState.parcel?_withParcel hq]
    exact ⟨p, CompState.parcel?_of_payable? hp, State.paidParcel_same s slot p amount⟩
  exact ((Steady.change hr hkeep 0).trans (.updEntry _ _ _)).trans (.await _ _ _)

theorem takePayment (s : State) (f : RxFrame) (d : PayFields) : Steady s (s.takePayment f d) := by
  unfold State.takePayment
  split
  · exact .refuse s _ _ _ _ _
  · split
    · exact .refuse s _ _ _ _ _
    · split
      · exact .refuse s _ _ _ _ _
      · rename_i r hr
        split
        · exact .refuse s _ _ _ _ _
        · rename_i p hp
          exact .recordPayment hr hp _ _ _

theorem goMatched (s : State) (j : Job) (slot : Slot) : Steady s (s.goMatched j slot) := by
  have hdone (u : State) : Steady u (u.slotDone j slot) := .of_follows (.slotDone u j slot)
  unfold State.goMatched
  split
  · exact (Steady.refuseSlot s _ _ _).trans (hdone _)
  · exact (Steady.refuseSlot s _ _ _).trans (hdone _)
  · exact .of_follows (.refuseUnpaid s _ _)
  · exact ((Steady.setProgress s _ _ _).trans (.updEntry _ _ _)).trans (.askDoor _ _)

theorem goSlot (j : Job) (s : State) (slot : Slot) : Steady s (State.goSlot j s slot) := by
  refine Steady.trans ?_ (.settle _ _)
  split
  · exact .refuseSlot s _ _ _
  · exact .refuseSlot s _ _ _
  · exact .refl s
  · exact .goMatched s _ _

theorem takeCollectGo (s : State) (f : RxFrame) (g : GoFields) : Steady s (s.takeCollectGo f g) := by
  unfold State.takeCollectGo
  exact .ite (.refuse s _ _ _ _ _) (.ite (.refuse s _ _ _ _ _) (.ite (.refuse s _ _ _ _ _)
    ((Steady.updEntry s _ _).trans (.foldl (Steady.goSlot _) _ _))))

/-! ## Sweep -/

theorem searchCarrier (s : State) (t : Ticket) (carrier : Nat) : Steady s (s.searchCarrier t carrier) := by
  unfold State.searchCarrier
  dsimp only
  split
  · exact .refl s
  · exact .ite (.refuse s _ _ _ _ _) (.createEntry s _ _ fun u => .of_follows (.activateSweep u _ _))

theorem dropSwept (j : Job) (s : State) (slot : Slot) : Steady s (State.dropSwept j s slot) :=
  (Steady.of_follows (.removeSlot s j slot)).trans (.settle _ _)

theorem refuseSwept (s : State) (j : Job) (refused : List Slot) : Steady s (s.refuseSwept j refused) := by
  cases refused with
  | nil => exact .refl s
  | cons x rest => exact (Steady.refuseSlot s _ _ _).trans (.foldl (Steady.dropSwept j) _ _)

theorem goSweep (s : State) (e : Entry) (g : GoFields) : Steady s (s.goSweep e g) := by
  have hask (u : State) (slot : Slot) : Steady u (State.askSweep e.job u slot) := (Steady.setProgress u _ _ _).trans (.askDoor _ _)
  have hjudge (u : State) : Steady u (u.judgeNamed e (namedSlots g.slots)) := by
    unfold State.judgeNamed
    dsimp only
    exact (Steady.refuseSwept u _ _).trans (.ite (.finishEntry _ _) (.foldl hask _ _))
  exact ((Steady.updEntry s _ _).trans (.foldl (Steady.dropSwept _) _ _)).trans (hjudge _)

theorem takeSweepGo (s : State) (f : RxFrame) (g : GoFields) : Steady s (s.takeSweepGo f g) := by
  unfold State.takeSweepGo
  split
  · exact .refuse s _ _ _ _ _
  · exact .ite (.refuse s _ _ _ _ _) (.ite (.refl s) (.ite (.refuse s _ _ _ _ _) (.ite (.refuse s _ _ _ _ _) (.goSweep s _ g))))

/-! ## Queries, time and services -/

theorem answerSlot (s : State) (f : RxFrame) (n part : Nat) : Steady s (s.answerSlot f n part) := by
  unfold State.answerSlot
  split
  · exact .refuse s _ _ _ _ _
  · split
    · exact .refuse s _ _ _ _ _
    · split
      · exact .refuse s _ _ _ _ _
      · split
        exacts [.answer s _ _, .refuse s _ _ _ _ _]

theorem takeTime (s : State) (m : Nat) : Steady s (s.takeTime m) := by
  unfold State.takeTime
  dsimp only
  exact .ite ((Steady.of_frame (frame_writeMinute s m false)).trans (.of_frame (frame_acceptTime _ 0)))
    (.ite (.of_frame (frame_acceptTime s _)) (.raise s _ _))

theorem takeService (s : State) (f : RxFrame) (sub : ServiceKind) (d : TicketValue) : Steady s (s.takeService f sub d) := by
  have hnew (t : Ticket) (slot : Slot) : Steady s (s.newService t sub slot) := by
    unfold State.newService
    exact .ite (.refl s) (.ite (.refuse s _ _ _ _ _) (.createEntry s _ _ fun u => .of_follows (.activateService u _ _ _)))
  unfold State.takeService
  split
  · exact .refuse s _ _ _ _ _
  · exact .ite (hnew _ _) (.refuse s _ _ _ _ _)

end Steady

end Sys2Proof.Machine
end

