-- ==== Sys2Proof/Proofs/SteadyCommands.lean ====
section
/- One theorem after another: side by side, their proofs ask for more threads than the check's memory limit allows. -/
set_option Elab.async false

/-! SUPPORT. That every command but the resets, RECONCILIATION, PLACE_DETAIL and those that may handle an own frame keeps the parcel
records and turns no driver on (R3, R70). -/

namespace Sys2Proof.Machine.Steady

/-! ## Start-up -/

theorem of_configurationRead {s t : State} {r : ConfigRead} (h : execConfigurationRead r s = .next t) : Steady s t := by
  have hmark (u : State) : Steady u u.checkMark := by
    unfold State.checkMark
    exact .ite (.of_frame (frame_formatted u)) (.ite (.refl u) (.of_frame (frame_marked u)))
  cases h
  split
  · split
    · rename_i m check _
      exact ((Steady.of_frame (frame_loadClamped m check s)).trans (hmark _)).trans (.of_frame (frame_startUp_after_mark m check s))
    · exact .of_frame (frame_enterStandby s)
  · exact .refl s

theorem of_resetCauseWrite {s t : State} {ok : Bool} (h : execResetCauseWrite ok s = .next t) : Steady s t := by
  cases h
  split
  · exact .refl s
  · exact (Steady.of_frame (frame_causeWriteEnded _ ok s)).trans (.of_frame (frame_afterCauseWrite _))

theorem of_baselineSettled {s t : State} {slot : Slot} {d p : Bool} (h : execBaselineSettled slot d p s = .next t) : Steady s t := by
  cases h
  exact .ite ((Steady.setPin s slot _).trans (.of_frame (frame_takeBaseline slot _ _ _))) (.refl s)

theorem of_baselineTimeout {s t : State} {slot : Slot} {d p : Option Bool} (h : execBaselineTimeout slot d p s = .next t) :
    Steady s t := by
  cases h
  exact .ite ((Steady.setPin s slot _).trans (.of_frame (frame_takeBaseline slot _ _ _))) (.refl s)

theorem of_joiningEntry {s t : State} (h : execJoiningEntry s = .next t) : Steady s t := by
  cases h
  exact .ite (.of_frame (frame_joined s)) (.refl s)

theorem of_joiningEnd {s t : State} (h : execJoiningEnd s = .next t) : Steady s t := by
  cases h
  exact .ite ((Steady.of_frame (frame_queueFrame s _)).trans (.setLiu _ _)).concluded (.refl s)

theorem of_quietEnd {s t : State} (h : execQuietEnd s = .next t) : Steady s t := by
  cases h
  exact .ite (.setLiu s _) (.refl s)

/-! ## The line, levels and drives -/

theorem of_transmissionFailed {s t : State} {how : TxFailure} (h : execTransmissionFailed how s = .next t) : Steady s t := by
  cases h
  split
  · exact .refl s
  · exact ((Steady.setDrive s _).trans (.failSending _ _)).concluded

theorem of_levelAgeExpiry {s t : State} (h : execLevelAgeExpiry s = .next t) : Steady s t := by
  cases h
  exact .ite (Steady.fallBack s).concluded (.refl s)

/-- The end of a drive turns a driver off. -/
theorem setDriver_off (s : State) (slot : Slot) : Steady s (s.setDriver slot none) := by
  refine ⟨.of_records rfl, fun i n hn => ?_⟩
  have hdrivers : tget (s.setDriver slot none).bgu.drivers i = if slot = i then none else tget s.bgu.drivers i := tget_tset ..
  rw [hdrivers] at hn
  split at hn
  · cases hn
  · exact hn

theorem of_driverOff {s t : State} {slot : Slot} (h : execDriverOff slot s = .next t) : Steady s t := by
  cases h
  exact .ite ((Steady.setDriver_off s slot).trans (.reportDriverOff _ _)).concluded (.refl s)

/-! ## Requests -/

theorem of_takeHead {s u : State} {k : RequestKind} {f : RxFrame} (h : s.takeHead k = some (f, u)) : Steady s u := by
  unfold State.takeHead at h
  split at h
  · split at h <;> cases h
    exact .setLiu s _
  · cases h

theorem of_placeCall {s t : State} (h : execPlaceCall s = .next t) : Steady s t := by
  cases h
  split
  · exact .refl s
  · rename_i hhead
    have htaken := of_takeHead hhead
    split
    · exact (htaken.trans (.refusalEvent _ _ _)).concluded
    · split
      exacts [(htaken.trans (.takeCall _ _ _)).concluded, (htaken.trans (.refusalEvent _ _ _)).concluded]

theorem of_entryLapse {s t : State} {k : EntryKind} {tk : Ticket} (h : execEntryLapse k tk s = .next t) : Steady s t := by
  cases h
  split
  · exact .refl s
  · exact .ite (Steady.lapse s _).concluded (.refl s)

theorem of_collectCall {s t : State} (h : execCollectCall s = .next t) : Steady s t := by
  cases h
  split
  · exact .refl s
  · rename_i hhead
    have htaken := of_takeHead hhead
    split
    · exact (htaken.trans (.refusalEvent _ _ _)).concluded
    · exact .ite (htaken.trans (.refusalEvent _ _ _)).concluded (.ite htaken (htaken.trans (.searchCode _ _ _)).concluded)

theorem of_sweepCall {s t : State} (h : execSweepCall s = .next t) : Steady s t := by
  cases h
  split
  · exact .refl s
  · rename_i hhead
    have htaken := of_takeHead hhead
    split
    · exact (htaken.trans (.refusalEvent _ _ _)).concluded
    · exact .ite (htaken.trans (.refusalEvent _ _ _)).concluded (.ite htaken (htaken.trans (.searchCarrier _ _ _)).concluded)

theorem of_payNote {s t : State} (h : execPayNote s = .next t) : Steady s t := by
  cases h
  split
  · exact .refl s
  · rename_i hhead
    have htaken := of_takeHead hhead
    split
    exacts [(htaken.trans (.refuse _ _ _ _ _ _)).concluded, (htaken.trans (.takePayment _ _ _)).concluded]

theorem of_collectGo {s t : State} (h : execCollectGo s = .next t) : Steady s t := by
  cases h
  split
  · exact .refl s
  · rename_i hhead
    have htaken := of_takeHead hhead
    split
    exacts [(htaken.trans (.refuse _ _ _ _ _ _)).concluded, (htaken.trans (.takeCollectGo _ _ _)).concluded]

theorem of_sweepGo {s t : State} (h : execSweepGo s = .next t) : Steady s t := by
  cases h
  split
  · exact .refl s
  · rename_i hhead
    have htaken := of_takeHead hhead
    split
    exacts [(htaken.trans (.refuse _ _ _ _ _ _)).concluded, (htaken.trans (.takeSweepGo _ _ _)).concluded]

theorem of_freeQuery {s t : State} (h : execFreeQuery s = .next t) : Steady s t := by
  cases h
  split
  · exact .refl s
  · rename_i hhead
    exact ((of_takeHead hhead).trans (.answer _ _ _)).concluded

theorem of_countQuery {s t : State} (h : execCountQuery s = .next t) : Steady s t := by
  cases h
  split
  · exact .refl s
  · rename_i hhead
    exact ((of_takeHead hhead).trans (.answer _ _ _)).concluded

theorem of_countClear {s t : State} (h : execCountClear s = .next t) : Steady s t := by
  cases h
  split
  · exact .refl s
  · rename_i hhead
    exact (((of_takeHead hhead).trans (.answer _ _ _)).trans (.of_frame (frame_clearCounters _))).concluded

theorem of_statusQuery {s t : State} (h : execStatusQuery s = .next t) : Steady s t := by
  cases h
  split
  · exact .refl s
  · rename_i hhead
    have htaken := of_takeHead hhead
    split
    exacts [(htaken.trans (.answer _ _ _)).concluded, (htaken.trans (.refuse _ _ _ _ _ _)).concluded]

theorem of_slotQuery {s t : State} (h : execSlotQuery s = .next t) : Steady s t := by
  cases h
  split
  · exact .refl s
  · rename_i hhead
    have htaken := of_takeHead hhead
    split
    exacts [(htaken.trans (.answerSlot _ _ _ _)).concluded, (htaken.trans (.refuse _ _ _ _ _ _)).concluded]

theorem of_outputSet {s t : State} (h : execOutputSet s = .next t) : Steady s t := by
  cases h
  split
  · exact .refl s
  · rename_i hhead
    have htaken := of_takeHead hhead
    split
    · exact .ite (htaken.trans (.of_frame (frame_setAux _ _))).concluded (htaken.trans (.refuse _ _ _ _ _ _)).concluded
    · exact (htaken.trans (.refuse _ _ _ _ _ _)).concluded

theorem of_time {s t : State} (h : execTime s = .next t) : Steady s t := by
  cases h
  split
  · exact .refl s
  · rename_i hhead
    have htaken := of_takeHead hhead
    split
    exacts [(htaken.trans (.takeTime _ _)).concluded, htaken]

theorem of_alertClear {s t : State} (h : execAlertClear s = .next t) : Steady s t := by
  cases h
  split
  · exact .refl s
  · rename_i hhead
    have htaken := of_takeHead hhead
    split
    exacts [(htaken.trans (.of_frame (frame_clearConds _ _))).concluded, htaken]

theorem of_serviceRestart {s t : State} (h : execServiceRestart s = .next t) : Steady s t := by
  cases h
  split
  · exact .refl s
  · rename_i hhead
    exact (((of_takeHead hhead).trans (.of_frame (frame_setRestart _ true))).trans (.of_frame (frame_withdrawForRestart _))).concluded

theorem service (s : State) (k : RequestKind) (sub : ServiceKind) : Steady s (s.service k sub) := by
  unfold State.service
  split
  · exact .refl s
  · rename_i hhead
    have htaken := of_takeHead hhead
    split
    exacts [(htaken.trans (.refuse _ _ _ _ _ _)).concluded, (htaken.trans (.takeService _ _ _ _)).concluded]

/-! ## Sensors and timers -/

theorem of_boltStep {s t : State} {slot : Slot} {g : Gate} (h : execBoltStep slot g s = .next t) : Steady s t := by
  have hpin := Steady.setPin s slot (fun p => p.flip g)
  cases h
  dsimp only
  exact .ite hpin (.ite (hpin.trans (.of_frame (frame_takeGates _ _ _))).concluded (hpin.trans (.takeEdge _ _ _ _)).concluded)

theorem of_doubleGateChange {s t : State} {slot : Slot} (h : execDoubleGateChange slot s = .next t) : Steady s t := by
  have hpin := Steady.setPin s slot (fun p => (p.flip .a).flip .b)
  cases h
  dsimp only
  exact .ite (hpin.trans (.of_frame (frame_takeGates _ _ _))) hpin

theorem of_homeReZero {s t : State} {slot : Slot} (h : execHomeReZero slot s = .next t) : Steady s t := by
  cases h
  exact .ite (.setSense s slot _) (.refl s)

theorem of_doorOpened {s t : State} {slot : Slot} (h : execDoorOpened slot s = .next t) : Steady s t := by
  cases h
  exact .ite ((Steady.of_frame (frame_setDoor s slot true)).trans (.ite (.onCycle _ _ _) (.forcedReport _ _))).concluded (.refl s)

theorem of_doorClosed {s t : State} {slot : Slot} (h : execDoorClosed slot s = .next t) : Steady s t := by
  cases h
  exact .ite ((Steady.of_frame (frame_setDoor s slot false)).trans (.onCycle _ _ _)).concluded (.refl s)

theorem of_presenceOn {s t : State} {slot : Slot} (h : execPresenceOn slot s = .next t) : Steady s t := by
  cases h
  exact .ite ((Steady.of_frame (frame_setPresence s slot true)).trans (.flagCheck _ _ _)).concluded (.refl s)

theorem of_presenceOff {s t : State} {slot : Slot} (h : execPresenceOff slot s = .next t) : Steady s t := by
  cases h
  exact .ite ((Steady.of_frame (frame_setPresence s slot false)).trans (.flagCheck _ _ _)).concluded (.refl s)

theorem of_secure {s t : State} {slot : Slot} (h : execSecure slot s = .next t) : Steady s t := by
  cases h
  exact .ite ((Steady.setSense s slot _).trans (.onCycle _ _ _)).concluded (.refl s)

theorem of_pulseWaitLimit {s t : State} {slot : Slot} (h : execPulseWaitLimit slot s = .next t) : Steady s t := by
  cases h
  split
  · exact .refl s
  · exact .ite (Steady.limitReached s _).concluded (.refl s)

theorem of_popWindowEnd {s t : State} {slot : Slot} (h : execPopWindowEnd slot s = .next t) : Steady s t := by
  cases h
  split
  · exact .refl s
  · exact .ite (Steady.failAttempt s _ _).concluded (.refl s)

theorem of_ajar {s t : State} {slot : Slot} (h : execAjar slot s = .next t) : Steady s t := by
  cases h
  split
  · exact .refl s
  · exact .ite ((Steady.setCycle s _).trans (.raise _ _ _)).concluded (.refl s)

theorem of_latchFault {s t : State} {slot : Slot} (h : execLatchFault slot s = .next t) : Steady s t := by
  cases h
  split
  · exact .refl s
  · exact .ite (Steady.setCycle s _).concluded (.refl s)

theorem of_latchFaultSettleEnd {s t : State} {slot : Slot} (h : execLatchFaultSettleEnd slot s = .next t) : Steady s t := by
  cases h
  split
  · exact .refl s
  · exact .ite (Steady.endCycle s _ _ _).concluded (.refl s)

theorem of_settleTimerEnd {s t : State} {slot : Slot} (h : execSettleTimerEnd slot s = .next t) : Steady s t := by
  cases h
  split
  · exact .refl s
  · exact .ite (Steady.endCycle s _ _ _).concluded (.refl s)

/-! ## The custody store and the clock -/

theorem of_recordWriteComplete {s t : State} {slot : Slot} {m : Bool} (h : execRecordWriteComplete slot m s = .next t) :
    Steady s t := by
  cases h
  split
  · exact .refl s
  · exact (Steady.writeEnded s _ _ _).concluded

theorem of_lockCountWrite {s t : State} {slot : Slot} {ok : Bool} (h : execLockCountWrite slot ok s = .next t) : Steady s t := by
  cases h
  split
  · exact .refl s
  · have hended (x : Locks) : Steady s (s.setLocks slot x) := .of_frame (frame_setLocks s slot x)
    dsimp only
    exact .ite (hended _) (((hended _).trans (.setFree _ _)).trans (.raise _ _ _)).concluded

theorem of_minuteTick {s t : State} (h : execMinuteTick s = .next t) : Steady s t := by
  cases h
  exact .ite (.of_frame (frame_minuteTick s)) (.refl s)

theorem of_syncLost {s t : State} (h : execSyncLost s = .next t) : Steady s t := by
  cases h
  exact .ite (.setClk s _) (.refl s)

theorem of_retainedMinuteWrite {s t : State} {ok : Bool} (h : execRetainedMinuteWrite ok s = .next t) : Steady s t := by
  cases h
  split
  · exact .refl s
  · rename_i w more _
    have hwritten : Steady s (s.minuteWritten w more ok) := .of_frame (frame_minuteWritten s w more ok)
    exact (hwritten.trans (.takeMinute _ w)).concluded

end Sys2Proof.Machine.Steady
end

