-- ==== Sys2Proof/Proofs/Firing.lean ====
section
/- One theorem after another: side by side, their proofs ask for more threads than the check's memory limit allows. -/
set_option Elab.async false

/-! SUPPORT and proofs of O56 and O57: what the column's own note does, and every command in turn (R3, R6, R44, R68, R70, R131). -/

namespace Sys2Proof.Machine

/-! ## A driver turns on (R44, R68, R70) -/

/-- The column's own note of a slot, which waits for its unit or is being transmitted, is granted by the pulse list while its cycle
waits for the pulse. -/
def OwnNoteGranted (s : State) (slot : Slot) (n : Nat) : Prop :=
  s.bgu.pulses.length < s.budget ∧ (∀ p ∈ s.bgu.pulses, ¬(p.station = s.station ∧ p.slot = BitVec.ofNat 5 slot.val))
    ∧ (∃ d, s.cycle? slot = some d ∧ d.stage = .pulseWait)
    ∧ ∃ f duration kind, (s.liu.handover = some f ∨ s.sending? = some f) ∧ f.body = .pulseNote slot duration kind ∧ n = duration * 10

/-- A driver turns on only for an own note granted in the first of the two states. -/
structure Fires (s t : State) : Prop where
  parcels : ParcelsKept s t
  granted : ∀ slot n, tget s.bgu.drivers slot = none → tget t.bgu.drivers slot = some n → OwnNoteGranted s slot n

theorem Fires.of_steady {s t : State} (h : Steady s t) : Fires s t :=
  ⟨h.parcels, fun slot n hoff hon => by rw [h.drivers slot n hon] at hoff; cases hoff⟩

theorem Fires.then_ {s t u : State} (h : Fires s t) (k : Steady t u) : Fires s u :=
  ⟨h.parcels.trans k.parcels, fun slot n hoff hon => h.granted slot n hoff (k.drivers slot n hon)⟩

theorem Fires.concluded {s t : State} (h : Fires s t) : Fires s t.conclude := h.then_ (.conclude t)

theorem Fires.ite {p : Prop} [Decidable p] {s t u : State} (ht : Fires s t) (hu : Fires s u) : Fires s (if p then t else u) := by
  split
  exacts [ht, hu]

/-! ## The column's own note (R68, R70) -/

theorem State.pulseWaiting?_eq_some {s : State} {slot : Slot} {c : Cycle} (h : s.pulseWaiting? slot = some c) :
    s.cycle? slot = some c ∧ c.stage = .pulseWait := by
  unfold State.pulseWaiting? at h
  split at h
  · rename_i d hd
    split at h <;> cases h
    rename_i hstage
    exact ⟨hd, hstage⟩
  · cases h

section Judged

variable {s : State} {slot i : Slot} {duration n : Nat} {kind : DoorKind}

/-- The granted note drives its own lock, for its duration, while its cycle waits. -/
theorem State.ownGranted_driver (hoff : tget s.bgu.drivers i = none)
    (hon : tget (s.ownGranted slot duration kind).bgu.drivers i = some n) :
    i = slot ∧ n = duration * 10 ∧ ∃ d, s.cycle? slot = some d ∧ d.stage = .pulseWait := by
  have hadd := frame_addPulse s s.station (slotField slot) duration
  have hstill (o : OwnNote) : tget ((s.addPulse s.station (slotField slot) duration).setOwn o).bgu.drivers i ≠ some n := fun h => by
    rw [(frame_setOwn _ _).drivers, hadd.drivers, hoff] at h
    cases h
  unfold State.ownGranted at hon
  dsimp only at hon
  split at hon
  · rename_i c hc
    split at hon
    · exact absurd hon (hstill _)
    · obtain ⟨hcycle, hstage⟩ := State.pulseWaiting?_eq_some hc
      obtain rfl := State.cycle?_slot hcycle
      have hdriven := Driven.drive hcycle duration kind
      rw [hadd.cycle?] at hcycle
      by_cases hi : i = c.slot
      · subst hi
        rw [hdriven.driver] at hon
        exact ⟨rfl, (Option.some.inj hon).symm, c, hcycle, hstage⟩
      · rw [hdriven.drivers i hi, hadd.drivers, hoff] at hon
        cases hon
  · exact absurd hon (hstill _)

theorem State.judgeOwn_driver (hoff : tget s.bgu.drivers i = none) (hon : tget (s.judgeOwn slot duration kind).bgu.drivers i = some n) :
    s.granted s.station (slotField slot) = true ∧ i = slot ∧ n = duration * 10 ∧ ∃ d, s.cycle? slot = some d ∧ d.stage = .pulseWait := by
  unfold State.judgeOwn at hon
  split at hon
  · rename_i hgranted
    exact ⟨hgranted, State.ownGranted_driver hoff hon⟩
  · have hdenied : UnchangedBut [.counters, .note] s (s.ownDenied slot kind) := (frame_count _ _ _ _).seq (frame_setOwn _ _)
    rw [hdenied.drivers, hoff] at hon
    cases hon

end Judged

/-! ## The column's own frame (R156, R159) -/

/-- What stands between a state and the handling of its own frame: the line's part of it. -/
abbrev takenParts : List Part := [.line, .drive, .transmit, .causes]

/-- An own frame that waits for its unit, or has just been taken, is handled. -/
theorem Fires.handleOwn {s u : State} (h : UnchangedBut takenParts s u)
    (hown : ∀ f, u.liu.handover = some f → s.liu.handover = some f ∨ s.sending? = some f) : Fires s u.handleOwn := by
  have hbefore : Steady s u := .of_frame h
  unfold State.handleOwn
  split
  · exact .of_steady hbefore
  · rename_i f hf
    have hfree := frame_setHandover u none
    have hwhole : UnchangedBut takenParts s (u.setLiu { u.liu with handover := none }) := h.seq hfree
    dsimp only
    split
    · rename_i slot duration kind hbody
      refine ⟨hbefore.parcels.trans (.of_records ?_), fun i n hoff hon => ?_⟩
      · exact (frame_judgeOwn (u.setLiu { u.liu with handover := none }) slot duration kind) .records (by decide)
      · rw [← hwhole.drivers] at hoff
        obtain ⟨hgranted, rfl, hn, d, hd, hstage⟩ := State.judgeOwn_driver hoff hon
        obtain ⟨hunlisted, hroom⟩ := State.granted_iff.mp hgranted
        rw [hwhole.pulses] at hunlisted hroom
        rw [hwhole.budget] at hroom
        rw [hwhole.station] at hunlisted
        exact ⟨hroom, hunlisted, ⟨d, (hwhole.cycle? _).symm.trans hd, hstage⟩, f, duration, kind, hown f hf, hbody, hn⟩
    · exact .of_steady ((hbefore.trans (.of_frame hfree)).trans (.ownOffer _ _))
    · exact .of_steady (hbefore.trans (.of_frame hfree))

theorem Fires.finishOwn (s : State) : Fires s s.finishOwn := by
  unfold State.finishOwn
  exact .ite (Fires.handleOwn (.refl _ s) fun f hf => .inl hf).concluded (.of_steady (.refl s))

theorem frame_succeedSending (s : State) : UnchangedBut takenParts s s.succeedSending := by
  unfold State.succeedSending
  split
  · exact .refl _ s
  · rename_i f _
    have hbefore := frame_succeed_before s
    unfold State.succeed
    dsimp only
    split
    · exact hbefore.seq (frame_writeCauses _ _)
    · split
      exacts [hbefore.seq (frame_setHandover _ _), hbefore.wide]

/-- The frame handed over after a success waited before it, or is the one that was being transmitted. -/
theorem State.succeedSending_handover {s : State} {f : TxFrame} (h : s.succeedSending.liu.handover = some f) :
    s.liu.handover = some f ∨ s.sending? = some f := by
  unfold State.succeedSending at h
  split at h
  · exact .inl h
  · rename_i g hg
    unfold State.succeed at h
    dsimp only at h
    split at h
    · exact .inl h
    · split at h
      · cases h
        exact .inr hg
      · exact .inl h

theorem Fires.arriveOwn (s : State) : Fires s s.arriveOwn := by
  unfold State.arriveOwn
  split
  · exact .handleOwn (frame_succeedSending s) fun f hf => State.succeedSending_handover hf
  · exact .handleOwn (.refl _ s) fun f hf => .inl hf

theorem Fires.listening (s : State) : Fires s s.listening := (Fires.finishOwn s).then_ (.yieldLine _)

theorem Fires.arrive (s : State) (f : Frame) : Fires s (s.arrive f) := by
  unfold State.arrive
  dsimp only
  split
  · have haccept (u : State) : Steady u ((u.setDrive .echo).accept f) := (Steady.setDrive u .echo).trans (.accept _ f)
    exact ((Fires.listening s).then_ (.ite (haccept _) (.void _))).concluded
  · exact .of_steady (.setDrive s .neither)

theorem Fires.of_frameVoided {s t : State} {f : Frame} (h : execFrameVoided f s = .next t) : Fires s t := by
  cases h
  dsimp only
  exact .ite ((Fires.listening s).then_ (.ite (.setDrive _ .echo) (.void _))).concluded (.of_steady (.setDrive s .neither))

theorem Fires.of_transmissionStart {s t : State} (h : execTransmissionStart s = .next t) : Fires s t := by
  cases h
  dsimp only
  exact .ite ((Fires.finishOwn s).then_ (.startSending _)).concluded (Fires.finishOwn s).concluded

theorem Fires.of_pulseNote {s t : State} {a : Arrival} (h : execPulseNote a s = .next t) : Fires s t := by
  cases h
  split
  · exact .ite (Fires.arriveOwn s).concluded (.of_steady (.refl s))
  · exact .arrive s _

theorem Fires.of_placeOffer {s t : State} {a : Arrival} (h : execPlaceOffer a s = .next t) : Fires s t := by
  cases h
  split
  · exact .ite (Fires.arriveOwn s).concluded (.of_steady (.refl s))
  · exact .arrive s _

/-! ## Resets, reconciliation and details -/

/-- A reset turns every driver off and empties the working table. -/
theorem Steady.of_reset {s t : State} {c : Instr} (hc : IsReset c) (h : exec c s = .next t) : Steady s t := by
  obtain rfl | ⟨causes, rfl⟩ := exec_reset hc h
  · exact .refl _
  · refine ⟨fun slot q hq => ?_, fun slot n hn => ?_⟩
    · unfold State.parcel? at hq
      rw [State.resetBy_rec?] at hq
      cases hq
    · have hdrivers : (s.resetBy causes).bgu.drivers = tconst none := congrArg Bgu.drivers (QuietSinceReset.resetBy s causes).budget
      rw [hdrivers, tget_tconst] at hn
      cases hn

/-- What a reconciliation changes: one slot's record and store, its event and its condition. -/
abbrev reconcileParts : List Part := [.records, .store, .conditions, .counters, .transmit, .free]

theorem frame_reconciliation (s : State) (slot : Slot) (d on : Bool) : UnchangedBut reconcileParts s (s.reconcile slot d on)
    ∧ ∀ i, i ≠ slot → (s.reconcile slot d on).rec? i = s.rec? i := by
  have hwritten (u : State) (hu : UnchangedBut [.records, .store, .conditions, .counters, .transmit] s u)
      (hothers : ∀ i, i ≠ slot → u.rec? i = s.rec? i) : UnchangedBut reconcileParts s (u.beginWrite slot [] .reconciliation)
        ∧ ∀ i, i ≠ slot → (u.beginWrite slot [] .reconciliation).rec? i = s.rec? i :=
    have hwrite := frame_beginWrite u slot [] .reconciliation
    ⟨hu.seq hwrite, fun i hi => (hwrite.rec? i).trans (hothers i hi)⟩
  unfold State.reconcile
  split
  · rename_i isB _
    have hrecord := frame_reconciledAs s slot (some isB) ((s.store slot).content isB).state (reconciled ((s.store slot).content isB) d on)
    have hothers (i : Slot) (hi : i ≠ slot) := (State.reconciledAs_ne s slot (some isB) ((s.store slot).content isB).state
      (reconciled ((s.store slot).content isB) d on) hi).left
    rw [State.reconcileSound_eq]
    split
    exacts [⟨hrecord.wide, hothers⟩, hwritten _ hrecord hothers]
  · have hset : UnchangedBut [.store, .records] s ((s.setStore slot { s.store slot with current := none }).setRec slot CompRec.damaged) :=
      (frame_setStore s slot _).seq (frame_setRec _ slot _)
    have htail : UnchangedBut [.counters, .conditions, .transmit] _ _ := (frame_count
      ((s.setStore slot { s.store slot with current := none }).setRec slot CompRec.damaged) .enterState (some CompTag.fault.pos) 0).seq
      (frame_raiseReconciled slot CompRec.damaged _)
    rw [State.reconcileDamaged_eq]
    refine hwritten _ (hset.seq htail) fun i hi => (htail.rec? i).trans ?_
    exact State.setRec_rec?_ne _ _ hi

/-- A reconciliation that changes anything is of a slot without a record. -/
theorem exec_reconciliation_cases {s t : State} {slot : Slot} (h : exec (.reconciliation slot) s = .next t) :
    t = s ∨ (s.rec? slot = none ∧ ∃ d on, t = s.reconcile slot d on) := by
  cases h
  split
  · split
    · rename_i hturn
      unfold State.reconcileTurn at hturn
      simp only [Bool.and_eq_true, Option.isNone_iff_eq_none] at hturn
      obtain ⟨⟨-, hnone⟩, -⟩ := hturn
      exact .inr ⟨hnone, _, _, rfl⟩
    · exact .inl rfl
  · exact .inl rfl

theorem frame_takeDetail (s : State) (f : RxFrame) (d : DetailFields) : UnchangedBut workParts s (s.takeDetail f d) := by
  have hrefuse (r : Reason) : UnchangedBut workParts s (s.refuseDetail f d r) := (frame_refuse s _ _ _ _ _).wide
  have haccept (e : Entry) (slot : Slot) : UnchangedBut workParts s (s.acceptDetail e slot d) := by
    unfold State.acceptDetail
    split
    · exact .refl _ s
    · rename_i r _
      have hmade : UnchangedBut workParts s ((s.change slot { r with state := .held e.ticket (some (s.newParcel e d)) } 0).updEntry
          e.job (fun e => { e with stage := .door, timer := none, ref := d.ref })) :=
        (frame_change s slot _ 0).seq (frame_updEntry _ _ _)
      have hdoor (u : State) : UnchangedBut workParts u (u.releaseDetail e.ticket slot) := by
        unfold State.releaseDetail
        split
        exacts [(Follows.askDoor u _).frame, (Follows.placeDone u _ _ _).frame]
      dsimp only
      split
      · rename_i hattach
        exact hmade.trans (frame_attach hattach).wide
      · exact hmade.trans (hdoor _)
  unfold State.takeDetail
  split
  · exact hrefuse _
  · rename_i e _
    split
    · exact .refl _ s
    · rename_i slot _ _
      split
      · unfold State.detailHeld
        dsimp only
        split
        · split
          exacts [hrefuse _, (hrefuse _).trans (frame_finishEntry _ _).wide]
        · split
          exacts [hrefuse _, haccept e slot]
      · exact hrefuse _
    · exact hrefuse _

theorem frame_placeDetail {s t : State} (h : exec .placeDetail s = .next t) : UnchangedBut (.receive :: workParts) s t := by
  cases h
  split
  · exact .refl _ s
  · rename_i hhead
    obtain ⟨rest, -, -, rfl⟩ := State.takeHead_some hhead
    have htaken : UnchangedBut [.receive] s (s.taken rest) := frame_taken s rest
    split
    · exact (htaken.seq (frame_refuse _ _ _ _ _ _) (rs := .receive :: workParts)).seq (frame_conclude _)
    · exact (htaken.seq (frame_takeDetail _ _ _) (rs := .receive :: workParts)).seq (frame_conclude _)

/-! ## Every command -/

/-- Every command but a reconciliation and a PLACE_DETAIL. -/
theorem Fires.of_exec {c : Instr} {s t : State} (hrec : ∀ slot, c ≠ .reconciliation slot) (hdetail : c ≠ .placeDetail)
    (h : exec c s = .next t) : Fires s t := by
  by_cases hreset : IsReset c
  · exact .of_steady (.of_reset hreset h)
  cases c with
  | powerReset active => exact absurd ⟨active, by simp⟩ hreset
  | brownoutReset active => exact absurd ⟨active, by simp⟩ hreset
  | pinReset active => exact absurd ⟨active, by simp⟩ hreset
  | restartReset active => exact absurd ⟨active, by simp⟩ hreset
  | reconciliation slot => exact absurd rfl (hrec slot)
  | placeDetail => exact absurd rfl hdetail
  | transmissionStart => exact .of_transmissionStart h
  | frameTaken f => cases h; exact .arrive s f
  | pulseNote _ => exact .of_pulseNote h
  | powerState f => cases h; exact .arrive s f
  | placeOffer _ => exact .of_placeOffer h
  | frameVoided _ => exact .of_frameVoided h
  | configurationRead _ => exact .of_steady (.of_configurationRead h)
  | resetCauseWrite _ => exact .of_steady (.of_resetCauseWrite h)
  | baselineSettled _ _ _ => exact .of_steady (.of_baselineSettled h)
  | baselineTimeout _ _ _ => exact .of_steady (.of_baselineTimeout h)
  | joiningEntry => exact .of_steady (.of_joiningEntry h)
  | joiningEnd => exact .of_steady (.of_joiningEnd h)
  | quietEnd => exact .of_steady (.of_quietEnd h)
  | arbitrationLost => cases h; exact .of_steady (Steady.yieldLine s).concluded
  | transmissionFailed _ => exact .of_steady (.of_transmissionFailed h)
  | transmissionSucceeded => cases h; exact .of_steady (Steady.succeedSending s).concluded
  | levelAgeExpiry => exact .of_steady (.of_levelAgeExpiry h)
  | pulseEntryEnd _ _ => cases h; exact .of_steady (Steady.of_frame (frame_dropPulse s _ _)).concluded
  | driverOff _ => exact .of_steady (.of_driverOff h)
  | placeCall => exact .of_steady (.of_placeCall h)
  | collectCall => exact .of_steady (.of_collectCall h)
  | payNote => exact .of_steady (.of_payNote h)
  | collectGo => exact .of_steady (.of_collectGo h)
  | sweepCall => exact .of_steady (.of_sweepCall h)
  | sweepGo => exact .of_steady (.of_sweepGo h)
  | freeQuery => exact .of_steady (.of_freeQuery h)
  | statusQuery => exact .of_steady (.of_statusQuery h)
  | slotQuery => exact .of_steady (.of_slotQuery h)
  | countQuery => exact .of_steady (.of_countQuery h)
  | countClear => exact .of_steady (.of_countClear h)
  | outputSet => exact .of_steady (.of_outputSet h)
  | time => exact .of_steady (.of_time h)
  | serviceOpen => cases h; exact .of_steady (.service s _ _)
  | serviceClear => cases h; exact .of_steady (.service s _ _)
  | serviceRetire => cases h; exact .of_steady (.service s _ _)
  | serviceRestore => cases h; exact .of_steady (.service s _ _)
  | serviceRestart => exact .of_steady (.of_serviceRestart h)
  | alertClear => exact .of_steady (.of_alertClear h)
  | entryLapse _ _ => exact .of_steady (.of_entryLapse h)
  | boltStep _ _ => exact .of_steady (.of_boltStep h)
  | homeReZero _ => exact .of_steady (.of_homeReZero h)
  | doorOpened _ => exact .of_steady (.of_doorOpened h)
  | doorClosed _ => exact .of_steady (.of_doorClosed h)
  | presenceOn _ => exact .of_steady (.of_presenceOn h)
  | presenceOff _ => exact .of_steady (.of_presenceOff h)
  | secure _ => exact .of_steady (.of_secure h)
  | pulseWaitLimit _ => exact .of_steady (.of_pulseWaitLimit h)
  | popWindowEnd _ => exact .of_steady (.of_popWindowEnd h)
  | ajar _ => exact .of_steady (.of_ajar h)
  | latchFault _ => exact .of_steady (.of_latchFault h)
  | latchFaultSettleEnd _ => exact .of_steady (.of_latchFaultSettleEnd h)
  | settleTimerEnd _ => exact .of_steady (.of_settleTimerEnd h)
  | recordWriteComplete _ _ => exact .of_steady (.of_recordWriteComplete h)
  | lockCountWrite _ _ => exact .of_steady (.of_lockCountWrite h)
  | minuteTick => exact .of_steady (.of_minuteTick h)
  | retainedMinuteWrite _ => exact .of_steady (.of_retainedMinuteWrite h)
  | syncLost => exact .of_steady (.of_syncLost h)
  | doubleGateChange _ => exact .of_steady (.of_doubleGateChange h)

/-- A reconciliation and a PLACE_DETAIL leave the drivers. -/
theorem exec_drivers {c : Instr} {s t : State} (hc : (∃ slot, c = .reconciliation slot) ∨ c = .placeDetail) (h : exec c s = .next t) :
    t.bgu.drivers = s.bgu.drivers := by
  obtain ⟨slot, rfl⟩ | rfl := hc
  · obtain rfl | ⟨-, d, on, rfl⟩ := exec_reconciliation_cases h
    · rfl
    · exact (frame_reconciliation s slot d on).left.drivers
  · exact (frame_placeDetail h).drivers

/-- Settles O57: only the own note's unit turns a driver on. -/
theorem driversFireOnlyOnAnOwnGrantedNote : Obligations.DriversFireOnlyOnAnOwnGrantedNote := by
  intro s t c slot n h hoff hon
  by_cases hc : (∃ x, c = .reconciliation x) ∨ c = .placeDetail
  · rw [exec_drivers hc h, hoff] at hon
    cases hon
  · obtain ⟨hrec, hdetail⟩ := not_or.mp hc
    exact (Fires.of_exec (fun x hx => hrec ⟨x, hx⟩) hdetail h).granted slot n hoff hon

/-- The record in a slot has one parcel record. -/
theorem ParcelsKept.same {s t : State} (h : ParcelsKept s t) {slot : Slot} {p q : Parcel} (hp : s.parcel? slot = some p)
    (hq : t.parcel? slot = some q) : SameParcel p q := by
  obtain ⟨x, hx, hsame⟩ := h slot q hq
  rw [hp] at hx
  cases hx
  exact hsame

/-- Settles O56: a reconciliation makes the record of a slot that had none; every other command keeps the records it finds. -/
theorem parcelRecordsKeepTheirFields : Obligations.ParcelRecordsKeepTheirFields := by
  intro s t c slot p q hdetail h hp hq
  by_cases hrec : ∃ x, c = .reconciliation x
  · obtain ⟨x, rfl⟩ := hrec
    obtain rfl | ⟨hnone, d, on, rfl⟩ := exec_reconciliation_cases h
    · exact (ParcelsKept.refl _).same hp hq
    · obtain ⟨-, hothers⟩ := frame_reconciliation s x d on
      have hne : slot ≠ x := by
        rintro rfl
        unfold State.parcel? at hp
        rw [hnone] at hp
        cases hp
      unfold State.parcel? at hp hq
      rw [hothers slot hne, hp] at hq
      cases hq
      exact .refl _
  · exact (Fires.of_exec (fun x hx => hrec ⟨x, hx⟩) hdetail h).parcels.same hp hq

end Sys2Proof.Machine
end
